-- ==== Sys2Proof/Word.lean ====
section
/-! DEFINITION. The word types of the N4 (R8: bytes, 32-bit words, little-endian) and their plainest arithmetic. -/

namespace Sys2Proof

/-- One byte. -/
abbrev Byte := BitVec 8
/-- A 32-bit register or instruction word (R14, R67). -/
abbrev Word := BitVec 32
/-- A 64-bit value: a register pair, a tagged pointer, TIME (R18, R141, R80). -/
abbrev DWord := BitVec 64
/-- The 128-bit descriptors of R120, R242, R254, R259. -/
abbrev QWord := BitVec 128

/-- The pair of R18: low word first. -/
def pairOf (lo hi : Word) : DWord := hi ++ lo
/-- Bits [31:0]. -/
def loWord (x : DWord) : Word := x.setWidth 32
/-- Bits [63:32]. -/
def hiWord (x : DWord) : Word := (x >>> (32 : Nat)).setWidth 32

/-- Bits [hi:lo] of a number (R8). -/
def bitsOf (x hi lo : Nat) : Nat := x / 2 ^ lo % 2 ^ (hi + 1 - lo)

end Sys2Proof
end

