-- ==== Sys2Proof/Machine/Float.lean ====
section
/-! DEFINITION. Floating formats, exact values, the four roundings with their events, and exact arithmetic (R81, R84-R88, R98). -/

namespace Sys2Proof.Machine

/-- A binary format: exponent and fraction widths (R81). -/
structure FFmt where
  eb : Nat
  fb : Nat
  deriving DecidableEq, Repr

def FFmt.f64 : FFmt := ⟨11, 52⟩
def FFmt.f32 : FFmt := ⟨8, 23⟩
def FFmt.f16 : FFmt := ⟨5, 10⟩
def FFmt.bf16 : FFmt := ⟨8, 7⟩

/-- The format's index in FPCNT (R79): 0 FP64, 1 FP32, 2 FP16, 3 BF16. -/
def FFmt.idx (f : FFmt) : Nat := if f.fb = 52 then 0 else if f.fb = 23 then 1 else if f.fb = 10 then 2 else 3

/-- Rounding modes (R84). -/
inductive Rnd where
  | rne | rz | up | down
  deriving DecidableEq, Repr

/-- FPCTL.RND (R80). -/
def rndOf (b : BitVec 2) : Rnd := if b = 0 then .rne else if b = 1 then .rz else if b = 2 then .up else .down

/-- A floating value: NaN, an infinity, or the exact number (-1)^neg * man * 2^exp. -/
inductive FVal where
  | nan
  | inf (neg : Bool)
  | fin (neg : Bool) (man : Nat) (exp : Int)
  deriving DecidableEq, Repr

/-- The events of R98: 0 NaN, 1 infinity, 2 overflow, 3 underflow. -/
abbrev FEv := Option Nat

namespace FFmt

/-- The width of an encoding. -/
def bits (f : FFmt) : Nat := 1 + f.eb + f.fb
/-- The bias (R81). -/
def bias (f : FFmt) : Int := 2 ^ (f.eb - 1) - 1
/-- The exponent of the least quantum. -/
def q0 (f : FFmt) : Int := 1 - f.bias - f.fb
/-- The encoding of +infinity. -/
def infBits (f : FFmt) : Nat := (2 ^ f.eb - 1) * 2 ^ f.fb
/-- The canonical NaN (R86). -/
def nanBits (f : FFmt) : Nat := f.infBits + 2 ^ (f.fb - 1)
/-- The largest finite encoding. -/
def maxBits (f : FFmt) : Nat := f.infBits - 1
/-- The sign bit of a negative encoding. -/
def signBits (f : FFmt) (neg : Bool) : Nat := if neg then 2 ^ (f.eb + f.fb) else 0

/-- The value of an encoding (R81). -/
def dec (f : FFmt) (x : Nat) : FVal :=
  let neg := x / 2 ^ (f.eb + f.fb) % 2 == 1
  let ex := x / 2 ^ f.fb % 2 ^ f.eb
  let fr := x % 2 ^ f.fb
  if ex = 2 ^ f.eb - 1 then (if fr = 0 then .inf neg else .nan)
  else if ex = 0 then .fin neg fr f.q0
  else .fin neg (2 ^ f.fb + fr) (f.q0 + ex - 1)

end FFmt

/-- Whether a magnitude is rounded up: mode, sign, oddness of what is kept, how twice the rest compares with the quantum (less, equal, greater) and whether anything is left. -/
def roundsUp (r : Rnd) (neg odd inexact : Bool) (cmp : Ordering) : Bool :=
  match r with
  | .rne => match cmp with
    | .lt => false
    | .eq => odd
    | .gt => true
  | .rz => false
  | .up => inexact && !neg
  | .down => inexact && neg

/-- A magnitude `man * 2^exp` (plus less than one unit when `sticky`) cut to a multiple of `2^q` under a mode, and whether that was inexact. -/
def cutTo (r : Rnd) (neg : Bool) (man : Nat) (exp q : Int) (sticky : Bool) : Nat × Bool :=
  if q ≤ exp then
    let k := man * 2 ^ (exp - q).toNat
    (if roundsUp r neg (k % 2 == 1) sticky .lt then k + 1 else k, sticky)
  else
    let sh := (q - exp).toNat
    let k := man / 2 ^ sh
    let rest := man % 2 ^ sh
    let cmp : Ordering := if 2 * rest < 2 ^ sh then .lt else if 2 * rest = 2 ^ sh then (if sticky then .gt else .eq) else .gt
    let inexact := sticky || rest != 0
    (if roundsUp r neg (k % 2 == 1) inexact cmp then k + 1 else k, inexact)

/-- Round a nonzero exact magnitude once into a format (R85), with its event. -/
def FFmt.round (f : FFmt) (r : Rnd) (neg : Bool) (man : Nat) (exp : Int) (sticky : Bool := false) : Nat × FEv :=
  if man = 0 then (f.signBits neg, none) else
  let q : Int := max (exp + man.log2 - f.fb) f.q0
  let (k, inexact) := cutTo r neg man exp q sticky
  let (k, q) := if 2 ^ (f.fb + 1) ≤ k then (k / 2, q + 1) else (k, q)
  if k < 2 ^ f.fb then (f.signBits neg + k, if inexact then some 3 else none)
  else
    let ex := (q - f.q0 + 1).toNat
    if 2 ^ f.eb - 1 ≤ ex then
      let toInf := match r with
        | .rne => true
        | .rz => false
        | .up => !neg
        | .down => neg
      (f.signBits neg + (if toInf then f.infBits else f.maxBits), some 2)
    else (f.signBits neg + ex * 2 ^ f.fb + (k - 2 ^ f.fb), none)

/-- The encoding of a value and its event (R85, R86, R98). -/
def FFmt.enc (f : FFmt) (r : Rnd) : FVal → Nat × FEv
  | .nan => (f.nanBits, some 0)
  | .inf neg => (f.signBits neg + f.infBits, some 1)
  | .fin neg man exp => f.round r neg man exp

namespace FVal

/-- A finite value as a signed integer multiple of `2^e`, for an `e` not above its exponent. -/
def scaled (neg : Bool) (man : Nat) (exp e : Int) : Int :=
  let m : Int := man * 2 ^ (exp - e).toNat
  if neg then -m else m

/-- The exact sum; an exact zero of opposite signs is -0 only in the down mode (R322). -/
def add (r : Rnd) : FVal → FVal → FVal
  | .nan, _ => .nan
  | _, .nan => .nan
  | .inf a, .inf b => if a = b then .inf a else .nan
  | .inf a, _ => .inf a
  | _, .inf b => .inf b
  | .fin s m e, .fin t n g =>
    let k := min e g
    let x := scaled s m e k + scaled t n g k
    if x = 0 then (if s = t then .fin s 0 k else .fin (r == .down) 0 k) else .fin (decide (x < 0)) x.natAbs k

/-- Negation of a value. -/
def neg : FVal → FVal
  | .nan => .nan
  | .inf a => .inf !a
  | .fin s m e => .fin (!s) m e

/-- The exact product (R332). -/
def mul : FVal → FVal → FVal
  | .nan, _ => .nan
  | _, .nan => .nan
  | .inf a, .inf b => .inf (a != b)
  | .inf a, .fin t n _ => if n = 0 then .nan else .inf (a != t)
  | .fin s m _, .inf b => if m = 0 then .nan else .inf (s != b)
  | .fin s m e, .fin t n g => .fin (s != t) (m * n) (e + g)

/-- The value is a NaN. -/
def isNan : FVal → Bool
  | .nan => true
  | _ => false

/-- `a < b` as numbers, false on a NaN. -/
def lt : FVal → FVal → Bool
  | .nan, _ => false
  | _, .nan => false
  | .inf a, .inf b => a && !b
  | .inf a, _ => a
  | _, .inf b => !b
  | .fin s m e, .fin t n g => decide (scaled s m e (min e g) < scaled t n g (min e g))

/-- `a = b` as numbers, -0 = +0, false on a NaN. -/
def eq (a b : FVal) : Bool := !a.isNan && !b.isNan && !a.lt b && !b.lt a

/-- The sign of a value. -/
def sgn : FVal → Bool
  | .nan => false
  | .inf a => a
  | .fin s _ _ => s

end FVal

/-- `fmin` and `fmax` return one operand's bits (R86, R331); -0 is less than +0. -/
def FFmt.minmax (f : FFmt) (isMax : Bool) (a b : Nat) : Nat × FEv :=
  let x := f.dec a
  let y := f.dec b
  let pick := fun (c : Nat) => (c, match f.dec c with
    | .inf _ => some 1
    | _ => none)
  match x.isNan, y.isNan with
  | true, true => (f.nanBits, some 0)
  | true, false => pick b
  | false, true => pick a
  | false, false =>
    let less := x.lt y || (x.eq y && x.sgn && !y.sgn)
    if less then pick (if isMax then b else a) else pick (if isMax then a else b)

/-- Integer square root by bits, from bit `k - 1` down. -/
def isqrtFrom (x : Nat) : Nat → Nat → Nat
  | 0, r => r
  | k + 1, r => isqrtFrom x k (if (r + 2 ^ k) * (r + 2 ^ k) ≤ x then r + 2 ^ k else r)

/-- The integer square root. -/
def isqrt (x : Nat) : Nat := isqrtFrom x (x.log2 / 2 + 1) 0

/-- 1/x correctly rounded (R87). -/
def FFmt.rcp (f : FFmt) (r : Rnd) : FVal → Nat × FEv
  | .nan => (f.nanBits, some 0)
  | .inf s => (f.signBits s, none)
  | .fin s m e =>
    if m = 0 then (f.signBits s + f.infBits, some 1)
    else
      let k := m.log2 + f.fb + 8
      f.round r s (2 ^ k / m) (-(k : Int) - e) (2 ^ k % m != 0)

/-- The square root correctly rounded (R87, R336). -/
def FFmt.sqrt (f : FFmt) (r : Rnd) : FVal → Nat × FEv
  | .nan => (f.nanBits, some 0)
  | .inf s => if s then (f.nanBits, some 0) else (f.infBits, some 1)
  | .fin s m e =>
    if m = 0 then (f.signBits s, none)
    else if s then (f.nanBits, some 0)
    else
      let e2 := if e % 2 = 0 then e else e - 1
      let m2 := (if e % 2 = 0 then m else 2 * m) * 4 ^ (f.fb + 8)
      let q := isqrt m2
      f.round r false q (e2 / 2 - (f.fb + 8 : Nat)) (q * q != m2)

/-- 1/√x correctly rounded (R87, R335). -/
def FFmt.rsq (f : FFmt) (r : Rnd) : FVal → Nat × FEv
  | .nan => (f.nanBits, some 0)
  | .inf s => if s then (f.nanBits, some 0) else (0, none)
  | .fin s m e =>
    if m = 0 then (f.signBits s + f.infBits, some 1)
    else if s then (f.nanBits, some 0)
    else
      let e2 := if e % 2 = 0 then e else e - 1
      let m2 := if e % 2 = 0 then m else 2 * m
      let k := m2.log2 / 2 + f.fb + 9
      let q := isqrt (4 ^ k / m2)
      f.round r false q (-(e2 / 2) - k) (q * q * m2 != 4 ^ k)

/-- A magnitude rounded to an integer under a mode (R88). -/
def roundInt (r : Rnd) (neg : Bool) (man : Nat) (exp : Int) : Nat := (cutTo r neg man exp 0 false).1

/-- A value to an integer between `lo` and `hi` (R88): a NaN gives 0, a value beyond the range its limit and an overflow. The range is held against the rounded integer, of which the rule does not speak (log 43). -/
def FVal.toInt (r : Rnd) (lo hi : Int) : FVal → Int × FEv
  | .nan => (0, none)
  | .inf s => (if s then lo else hi, some 2)
  | .fin s m e =>
    let n : Int := roundInt r s m e
    let x := if s then -n else n
    if x < lo then (lo, some 2) else if hi < x then (hi, some 2) else (x, none)

/-- An integer as an exact value. -/
def FVal.ofInt (x : Int) : FVal := .fin (decide (x < 0)) x.natAbs 0

/-- The first of two steps' events in the order NaN, overflow, infinity, underflow (R87, R98). -/
def firstEvent (a b : FEv) : FEv :=
  if a = some 0 ∨ b = some 0 then some 0
  else if a = some 2 ∨ b = some 2 then some 2
  else if a = some 1 ∨ b = some 1 then some 1
  else if a = some 3 ∨ b = some 3 then some 3
  else none

end Sys2Proof.Machine
end

