-- ==== Sys2Proof/Machine/Table.lean ====
section
/-! DEFINITION. Sorted tables: plain data from numbers to values in one canonical form (keys strictly rising, no entry equal to what an unlisted key reads as). Memory, register files, and every indexed set of registers are tables. -/

namespace Sys2Proof.Machine

/-- A table from numbers to values. -/
abbrev Tbl (α : Type) := List (Nat × α)

/-- The value at key `k`; an unlisted key reads `d`. -/
def tget {α : Type} (d : α) : Tbl α → Nat → α
  | [], _ => d
  | (j, v) :: m, k => if k = j then v else tget d m k

/-- The table without key `k`. -/
def terase {α : Type} : Tbl α → Nat → Tbl α
  | [], _ => []
  | (j, v) :: m, k => if k = j then terase m k else (j, v) :: terase m k

/-- The table with `v` at key `k`. -/
def tinsert {α : Type} : Tbl α → Nat → α → Tbl α
  | [], k, v => [(k, v)]
  | (j, w) :: m, k, v =>
    if k = j then (k, v) :: m else if k < j then (k, v) :: (j, w) :: m else (j, w) :: tinsert m k v

/-- Write `v` at key `k`, keeping the canonical form. -/
def tput {α : Type} [DecidableEq α] (d : α) (m : Tbl α) (k : Nat) (v : α) : Tbl α :=
  if v = d then terase m k else tinsert m k v

/-- Every key of the table lies above `n`. -/
def tabove {α : Type} (n : Nat) : Tbl α → Bool
  | [] => true
  | (j, _) :: _ => decide (n < j)

/-- The canonical form: keys strictly rising and no entry equal to `d`. -/
def twf {α : Type} [DecidableEq α] (d : α) : Tbl α → Bool
  | [] => true
  | (j, v) :: m => tabove j m && decide (v ≠ d) && twf d m

/-- Keep the entries whose key and value pass `f`. -/
def tfilter {α : Type} (f : Nat → α → Bool) (m : Tbl α) : Tbl α := m.filter fun e => f e.1 e.2

/-- The first key above `k`, if any. -/
def tnext {α : Type} : Tbl α → Nat → Option (Nat × α)
  | [], _ => none
  | (j, v) :: m, k => if k < j then some (j, v) else tnext m k

/-- Fold `f` over the numbers `lo, lo + 1, …, lo + n - 1` in ascending order. -/
def foldUp {β : Type} (f : β → Nat → β) : Nat → Nat → β → β
  | _, 0, b => b
  | lo, n + 1, b => foldUp f (lo + 1) n (f b lo)

/-- The list `lo, lo + 1, …, lo + n - 1`. -/
def upList : Nat → Nat → List Nat
  | _, 0 => []
  | lo, n + 1 => lo :: upList (lo + 1) n

/-- The byte memories of the model: address to byte, an unlisted byte reads 0 (log 5). -/
abbrev Mem := Tbl Byte

/-- One byte of a memory. -/
def Mem.read (m : Mem) (a : Nat) : Byte := tget 0 m a
/-- Write one byte of a memory. -/
def Mem.write (m : Mem) (a : Nat) (b : Byte) : Mem := tput 0 m a b
/-- The canonical form of a memory. -/
def Mem.wf (m : Mem) : Bool := twf (0 : Byte) m

/-- `n` bytes from `a` upward. -/
def Mem.readBytes (m : Mem) (a n : Nat) : List Byte := (upList a n).map m.read
/-- Write the bytes `bs` from `a` upward. -/
def Mem.writeBytes (m : Mem) (a : Nat) : List Byte → Mem
  | [] => m
  | b :: bs => Mem.writeBytes (m.write a b) (a + 1) bs

/-- The number that bytes give, the first byte least significant (R8). -/
def leNat : List Byte → Nat
  | [] => 0
  | b :: bs => b.toNat + 256 * leNat bs

/-- The `n` bytes of a number, least significant first (R8). -/
def leBytes : Nat → Nat → List Byte
  | 0, _ => []
  | n + 1, x => BitVec.ofNat 8 x :: leBytes n (x / 256)

/-- A little-endian 32-bit word of a memory. -/
def Mem.word (m : Mem) (a : Nat) : Word := BitVec.ofNat 32 (leNat (m.readBytes a 4))

end Sys2Proof.Machine
end

