-- ==== Sys2Proof/Machine/Blocks.lean ====
section
/-! DEFINITION. DB blocks: decoding and quantisation (R89-R91), the Hadamard rotation (R92), and the element formats of R76. -/

namespace Sys2Proof.Machine

/-- Magnitude bits of a DB format by EFMT code: DB2, DB4, DB7 (R89, R147). -/
def dbM (efmt : Nat) : Nat := if efmt = 1 then 2 else if efmt = 2 then 4 else 7
/-- Bytes of a block (R89). -/
def dbBytes (m : Nat) : Nat := if m = 2 then 8 else if m = 4 then 12 else 18

/-- Element `i` of a block given as a number (R90). -/
def dbDecode (m blk i : Nat) : FVal :=
  let e := blk % 256
  if e = 255 then .nan
  else
    let sh := blk / 2 ^ (8 + 2 * (i / 4)) % 4
    let field := blk / 2 ^ (16 + (1 + m) * i) % 2 ^ (1 + m)
    let mag := field % 2 ^ m
    if mag = 0 then .fin false 0 0 else .fin (field / 2 ^ m == 1) mag ((e : Int) - 127 + 1 - sh - m)

/-- floor(log2 |x|) of a nonzero value, or none. -/
def flog2Of : FVal → Option Int
  | .fin _ m e => if m = 0 then none else some (e + m.log2)
  | _ => none

/-- The greatest floor(log2 |x|) of a list, or none where all are zero. -/
def emaxOf (xs : List FVal) : Option Int :=
  xs.foldl (fun a x => match a, flog2Of x with
    | some p, some q => some (max p q)
    | none, q => q
    | p, none => p) none

/-- The magnitude of an element at a scale 2^q, to nearest-even. -/
def magAt (x : FVal) (q : Int) : Nat :=
  match x with
  | .fin _ m e => (cutTo .rne false m e q false).1
  | _ => 0

/-- The shift and magnitudes of one quad: a carry to 2^m moves it one binade up (R91). -/
def quadFit (m : Nat) (eb : Int) (xs : List FVal) : Nat → Nat × List Nat
  | 0 => (0, xs.map fun x => magAt x (eb + 1 - m))
  | sg + 1 =>
    let ms := xs.map fun x => magAt x (eb + 1 - (sg + 1 : Nat) - m)
    if ms.any (· == 2 ^ m) then quadFit m eb xs sg else (sg + 1, ms)

/-- The value is a NaN or an infinity. -/
def FVal.isBad : FVal → Bool
  | .nan => true
  | .inf _ => true
  | _ => false

/-- Whether the value is not zero. -/
def FVal.nonzero : FVal → Bool
  | .fin _ m _ => m != 0
  | _ => true

/-- Quantise 16 exact values into a block (R91): the block as a number and the DB events it counts. Elements in `quiet` are fill and raise none (R100). -/
def quantise (m : Nat) (xs : List FVal) (quiet : Nat → Bool := fun _ => false) : Nat × List Nat :=
  let loud := fun (f : FVal → Bool) => xs.zipIdx.any fun x => f x.1 && !quiet x.2
  if xs.any FVal.isBad then (255, if loud FVal.isBad then [16] else [])
  else match emaxOf xs with
    | none => (0, [])
    | some emax =>
      if 254 < emax + 127 then
        (255, if loud fun x => match flog2Of x with
          | some e => decide (127 < e)
          | none => false
          then [18] else [])
      else
        let e := max (emax + 127) 0
        (upList 0 4).foldl (fun acc j =>
          let q := (xs.drop (4 * j)).take 4
          let sg := match emaxOf q with
            | none => 0
            | some ej => (min 3 (e - 127 - ej)).toNat
          let (sg, ms) := quadFit m (e - 127) q sg
          (q.zip ms).zipIdx.foldl (fun acc y =>
            let x := y.1.1
            let mg := y.1.2
            let ov := mg == 2 ^ m
            let mg := if ov then 2 ^ m - 1 else mg
            let sign := if x.sgn && mg != 0 then 2 ^ m else 0
            (acc.1 + (sign + mg) * 2 ^ (16 + (1 + m) * (4 * j + y.2)),
              acc.2 ++ (if ov && !quiet (4 * j + y.2) then [18] else []) ++ (if mg == 0 && x.nonzero && !quiet (4 * j + y.2) then [19] else [])))
            (acc.1 + sg * 2 ^ (8 + 2 * j), acc.2)) (e.toNat, [])

/-- One step of the sign generator (R92). -/
def xorshift (x : BitVec 32) : BitVec 32 :=
  let x := x ^^^ (x <<< (13 : Nat))
  let x := x ^^^ (x >>> (17 : Nat))
  x ^^^ (x <<< (5 : Nat))

/-- The `n` signs from a state: true where d = -1 (R92). -/
def hadSigns : Nat → BitVec 32 → List Bool
  | 0, _ => []
  | n + 1, x => (xorshift x).getLsbD 0 :: hadSigns n (xorshift x)

/-- The number of 1 bits among the low `k` bits. -/
def popBits : Nat → Nat → Nat
  | 0, _ => 0
  | k + 1, x => x % 2 + popBits k (x / 2)

/-- The rotated n-block, exact (R92): `n` is 16, 64 or 256. An output that is exactly zero is +0, whatever the signs of its inputs, of which the rule does not speak (log 43). -/
def rotate (n : Nat) (seed : BitVec 32) (kblock : Nat) (xs : List FVal) : List FVal :=
  if xs.any FVal.isBad then xs.map fun _ => .nan
  else
    let st := seed ^^^ BitVec.ofNat 32 (kblock * 0x9E3779B9)
    let ds := hadSigns n (if st = 0 then 1 else st)
    let e := xs.foldl (fun (a : Int) x => match x with
      | .fin _ _ g => min a g
      | _ => a) 0
    let ys := (xs.zip ds).map fun p => match p.1 with
      | .fin s m g => FVal.scaled (s != p.2) m g e
      | _ => 0
    (upList 0 n).map fun j =>
      let y := ys.zipIdx.foldl (fun (a : Int) p => if popBits 8 (p.2 &&& j) % 2 = 1 then a - p.1 else a + p.1) 0
      .fin (decide (y < 0)) y.natAbs (e - (n.log2 / 2 : Nat))

/-- The floating format of an element-format code (R76), if it has one. -/
def elemF (fmt : Nat) : Option FFmt :=
  if fmt = 4 then some .f64 else if fmt = 5 then some .f32 else if fmt = 6 then some .f16 else if fmt = 7 then some .bf16 else none

/-- The DB magnitude width of an element-format code: DB7 0x8, DB4 0x9, DB2 0xA. -/
def elemDb (fmt : Nat) : Option Nat := if fmt = 8 then some 7 else if fmt = 9 then some 4 else if fmt = 10 then some 2 else none

/-- Bits of one element of a format that is no DB format (R153). -/
def elemBits (fmt : Nat) : Nat :=
  if fmt = 0 ∨ fmt = 11 then 8 else if fmt = 1 ∨ fmt = 6 ∨ fmt = 7 ∨ fmt = 13 then 16
  else if fmt = 3 ∨ fmt = 4 then 64 else if fmt = 12 then 4 else 32

/-- An integer format (R121). -/
def elemIsInt (fmt : Nat) : Bool := 11 ≤ fmt && fmt ≤ 14

end Sys2Proof.Machine
end

