-- ==== Sys2Proof/Syntax.lean ====
section
/-! DEFINITION. The instructions and whole steps of the N4: one constructor per row of spec/opcode_table.json (164 words of R71, then 91 steps of the machine that have no encoding). -/

namespace Sys2Proof

/-- A register field of R14. Field 127 is reserved and has no constructor. -/
inductive Reg where
  | v (i : Fin 88)
  | s (i : Fin 36)
  | zr
  | tix
  | bix
  deriving DecidableEq, Repr

/-- A predicate field of R69: bit 3 is the complement, bits [2:0] the number. -/
structure Pred where
  neg : Bool
  num : Fin 8
  deriving DecidableEq, Repr

/-- The scopes of R7 in the order of their codes (R76). -/
inductive Scope where
  | thr | grp | team | core | quad | clus | die | pkg | node | pod | fab | host
  deriving DecidableEq, Repr

/-- The orderings of R76. -/
inductive Ordering4 where
  | rlx | acq | rel | ar
  deriving DecidableEq, Repr

/-- The access paths of R27 in the order of their codes (R76). -/
inductive Path where
  | g | s | c | m | x | a
  deriving DecidableEq, Repr

/-- Integer conditions of R73. -/
inductive ICond where
  | eq | ne | lt | le | gt | ge | lo | ls | hi | hs
  deriving DecidableEq, Repr

/-- Floating conditions of R73. -/
inductive FCond where
  | eq | ne | lt | le | gt | ge | un
  deriving DecidableEq, Repr

/-- The rounding code of a word (R74): FPCTL or a mode of its own. -/
inductive RndCode where
  | fpctl | rn | rz | ru | rd
  deriving DecidableEq, Repr

/-- The types of `cvt` (R74). -/
inductive CvtTy where
  | f32 | f64 | f16x2 | bf16x2 | i32 | n32 | i64 | n64
  deriving DecidableEq, Repr

/-- The format of a transcendental (R323). -/
inductive TFmt where
  | f32 | f64 | f16x2 | bf16x2
  deriving DecidableEq, Repr

/-- The kinds of `vote` (R213). -/
inductive VoteKind where
  | some | every | mask | count
  deriving DecidableEq, Repr

/-- The kinds of `shfl` (R214). -/
inductive ShflKind where
  | at | below | above | flip | rot
  deriving DecidableEq, Repr

/-- The operations of `red` and `scan` (R215). -/
inductive RedOp where
  | add | min | max | and | or | xor
  deriving DecidableEq, Repr

/-- The key types of `match` (R216). -/
inductive KeyTy where
  | b32 | f32 | f64
  deriving DecidableEq, Repr

/-- The operations of `atom` (R173). -/
inductive AtomOp where
  | add | min | max | and | or | xor | exch | cas
  deriving DecidableEq, Repr

/-- The engines of `fork` and `join` (R334). -/
inductive Engine where
  | mx | cp
  deriving DecidableEq, Repr

/-- The matrix commands of R124, in the order of their SUB3 codes. -/
inductive MxCmd where
  | prec | ldb | mm | st | zero
  deriving DecidableEq, Repr

/-- The fault classes of R218. -/
inductive TrapClass where
  | illegal | window | nesting | boundDiv | translation | pageOwner | alignment | partialBlock
  | layout | rotation | monitor | memError | escape | software | breakpoint
  deriving DecidableEq, Repr

/-- Where `eret` resumes (R218): the word itself or the word after it. -/
inductive Resume where
  | atWord | next
  deriving DecidableEq, Repr

/-- What a trap reports (R218): its class, the named threads, ADDR, REG, DETAIL and the resume point. -/
structure TrapCause where
  cls : TrapClass
  threads : List Nat := []
  addr : DWord := 0
  reg : BitVec 8 := 0
  detail : BitVec 16 := 0
  resume : Resume := .atWord
  deriving DecidableEq, Repr

/-- The reasons of a failure record (R229). -/
inductive FailReason where
  | noEntry | doubleFault | uncorrectable | exitedRecipient | escape2 | refused | dependence
  deriving DecidableEq, Repr

/-- Where an uncorrectable error of R228 lies when it fails the launch. -/
inductive StatePlace where
  | registerFile | decisionQueue | undoLog | latchRow | macroStore
  deriving DecidableEq, Repr

/-- What asks a team to stop (R224, R258): pre-emption, or one of the four causes of a stop record. -/
inductive StopCause where
  | preempt
  | breakpoint (entry : Nat)
  | brkpt (tag : Nat)
  | watch (index : Nat)
  | debugPort
  deriving DecidableEq, Repr

/-- A Helolo buffer (R254): a quarter's sample buffer, a launch's debug or replay buffer, the Frequel log. -/
inductive BufRef where
  | sample (core qtr : Nat)
  | debug (launch : Nat)
  | replay (launch : Nat)
  | frequelLog
  deriving DecidableEq, Repr

/-- The registers that the host, the boot measurement (`bootFloor`, R293) or the replay area (`inputRange`, R267) write and that have no step of their own in the table (R42, R217, R254, R256, R275, R287, R292-R295, R377). -/
inductive BarReg where
  | cqbase (q : Nat)
  | cqsize (q : Nat)
  | tqstat (q : Nat)
  | frqh
  | evlane (link lane : Nat)
  | evlink (link : Nat)
  | evwarn
  | fluxlim
  | dieCap (die : Nat)
  | levelCap (cluster : Nat)
  | partition (k : Nat)
  | pwrstat
  | breakpointEntry (launch k : Nat)
  | bootFloor
  | inputRange (k : Nat)
  | ideStream
  deriving DecidableEq, Repr

/-- One lane's telemetry (R287). -/
structure LaneReading where
  eyeh : BitVec 8
  eyew : BitVec 8
  corr : BitVec 12
  deriving DecidableEq, Repr

/-- A link's telemetry (R287). -/
structure LinkReading where
  lanes : List LaneReading
  tempc : BitVec 8
  deriving DecidableEq, Repr

/-- The module stage's telemetry (R288): tenths of a volt, tens of milliamperes, tenths of a watt, degrees. -/
structure ModuleReading where
  inVolt : Nat := 0
  inAmp : Nat := 0
  outVolt : Nat := 0
  outAmp : Nat := 0
  outWatt : Nat := 0
  temp : Nat := 0
  deriving DecidableEq, Repr

/-- A rail's telemetry (R288): millivolts, tens of milliamperes, tenths of a watt. -/
structure RailReading where
  volt : Nat := 0
  amp : Nat := 0
  watt : Nat := 0
  deriving DecidableEq, Repr

/-- The power telemetry of R288: the module stage, the rail of each of the four dies, the hub rail. -/
structure PowerReading where
  stage : ModuleReading := {}
  die0 : RailReading := {}
  die1 : RailReading := {}
  die2 : RailReading := {}
  die3 : RailReading := {}
  hub : RailReading := {}
  deriving DecidableEq, Repr

/-- What a die controller measures (R292, R295): power in tenths of a watt, the uncore part, and each cluster's activity. -/
structure DieReading where
  power : Nat
  uncore : Nat
  activity : List Nat
  deriving DecidableEq, Repr

/-- HDR of a request's first flit (R282): target global offset, operation and length; the rule gives no layout of the last two. -/
structure ReqHdr where
  target : BitVec 48
  op : Nat
  len : Nat
  deriving DecidableEq, Repr

/-- What a data packet is (R282): a request with its HDR (TYPE 0, channel 0), or a response (TYPE 1, channel 1). -/
inductive PacketKind where
  | request (h : ReqHdr)
  | response
  deriving DecidableEq, Repr

/-- The virtual channel of a packet (R282). -/
def PacketKind.vc : PacketKind → Nat
  | .request _ => 0
  | .response => 1

/-- A data packet as the receiver meets it (R282, R283): `cnt` is its flits minus 1, `crcOk` that every flit passes its CRC. IDX of its flits runs from 0 to `cnt`. -/
structure Packet where
  seq : BitVec 32
  kind : PacketKind
  cnt : Fin 8
  crcOk : Bool
  ack : BitVec 32
  deriving DecidableEq, Repr

/-- A PAUSE or RESUME flit that arrives: its channel, and the ACK that it carries (R283, R284). -/
structure FlowFlit where
  vc : BitVec 2
  ack : BitVec 32
  deriving DecidableEq, Repr

/-- A quarter at a sample cycle (R230 to R232): its number, and the cause inside the cycle that the sample meets (log 34). -/
structure SamplePoint where
  qtr : Nat
  why : Nat
  deriving DecidableEq, Repr

/-- The save of a block's gang (R158, R225): the block, and the area of the launch's global space that takes the image. -/
structure SaveOrder where
  block : Nat
  area : Nat
  len : Nat
  deriving DecidableEq, Repr

/-- A code object's name (R229, R278): the world that loads it and its handle. -/
structure ObjectName where
  world : Nat
  handle : Nat
  deriving DecidableEq, Repr

/-- A code object's bytes (R61), and the text offsets at which its streams end (R56), which the image does not hold (log 16). -/
structure ObjectFile where
  bytes : List Byte
  ends : List Nat
  deriving DecidableEq, Repr

/-- The part of an access on one of its paths (R28), which completes by itself: the access's place among the team's accesses in flight, and the path. -/
structure AccPart where
  idx : Nat
  path : Path
  deriving DecidableEq, Repr

/-- Who extends a measurement register (R274). -/
inductive MrSource where
  | bootRom | tumbler | firmware
  deriving DecidableEq, Repr

/-- A measurement register as one of its sources names it (R274). -/
structure MrPort where
  src : MrSource
  mr : Nat
  deriving DecidableEq, Repr

/-- A secured message's session, and the IDE stream that it names (R275). -/
structure IdePort where
  session : Nat
  stream : BitVec 8
  deriving DecidableEq, Repr

/-- One constructor per row of spec/opcode_table.json. Word constructors carry the row's fields but S (R67). -/
inductive Instr where
  -- control (major 00)
  | exit
  | brkpt (t : BitVec 7)
  -- integer (majors 01, 02)
  | add (d a b : Reg)
  | sub (d a b : Reg)
  | and (d a b : Reg)
  | or (d a b : Reg)
  | xor (d a b : Reg)
  | andn (d a b : Reg)
  | minSgn (d a b : Reg)
  | maxSgn (d a b : Reg)
  | minUns (d a b : Reg)
  | maxUns (d a b : Reg)
  | shl (d a b : Reg)
  | shr (d a b : Reg)
  | sra (d a b : Reg)
  | rot (d a b : Reg)
  | mov (d a : Reg)
  | mulLo (d a b : Reg)
  | mulHiSgn (d a b : Reg)
  | mulHiUns (d a b : Reg)
  | mad (d a b : Reg)
  | bfx (d a b : Reg)
  | bfi (d a b : Reg)
  | clz (d a : Reg)
  | popc (d a : Reg)
  | brev (d a : Reg)
  | not (d a : Reg)
  | absI32 (d a : Reg)
  | absI16x2 (d a : Reg)
  | absI8x4 (d a : Reg)
  | negI32 (d a : Reg)
  | negI16x2 (d a : Reg)
  | negI8x4 (d a : Reg)
  | addI16x2 (d a b : Reg)
  | addI8x4 (d a b : Reg)
  | subI16x2 (d a b : Reg)
  | subI8x4 (d a b : Reg)
  | minI16x2 (d a b : Reg)
  | maxI16x2 (d a b : Reg)
  | minI8x4 (d a b : Reg)
  | maxI8x4 (d a b : Reg)
  -- immediates (majors 03-09)
  | addImm (d a : Reg) (i : BitVec 11)
  | andImm (d a : Reg) (i : BitVec 11)
  | orImm (d a : Reg) (i : BitVec 11)
  | xorImm (d a : Reg) (i : BitVec 11)
  | shlImm (d a : Reg) (k : BitVec 5)
  | shrImm (d a : Reg) (k : BitVec 5)
  | sraImm (d a : Reg) (k : BitVec 5)
  | rotImm (d a : Reg) (k : BitVec 5)
  | li (d : Reg) (i : BitVec 18)
  | lih (d : Reg) (i : BitVec 18)
  -- compares, predicates, selection, moves (majors 0A-0E)
  | cmp (c : ICond) (p : Fin 8) (a b : Reg)
  | cmpImm (c : ICond) (p : Fin 8) (a : Reg) (i : BitVec 11)
  | pand (d : Fin 8) (a b : Pred)
  | por (d : Fin 8) (a b : Pred)
  | pxor (d : Fin 8) (a b : Pred)
  | pnot (d : Fin 8) (a : Pred)
  | sel (d a b : Reg) (p : Pred)
  | movs (d a b : Reg)
  | rdl (d a b : Reg)
  -- floating point (majors 10-14); w is the .f64 bit, f the .bf16x2 bit
  | fadd (w : Bool) (d a b : Reg)
  | fsub (w : Bool) (d a b : Reg)
  | fmul (w : Bool) (d a b : Reg)
  | fmin (w : Bool) (d a b : Reg)
  | fmax (w : Bool) (d a b : Reg)
  | fabs (w : Bool) (d a : Reg)
  | fneg (w : Bool) (d a : Reg)
  | faddPacked (f : Bool) (d a b : Reg)
  | fsubPacked (f : Bool) (d a b : Reg)
  | fmulPacked (f : Bool) (d a b : Reg)
  | fminPacked (f : Bool) (d a b : Reg)
  | fmaxPacked (f : Bool) (d a b : Reg)
  | fabsPacked (f : Bool) (d a : Reg)
  | fnegPacked (f : Bool) (d a : Reg)
  | ffmaPacked (f : Bool) (d a b : Reg)
  | ffma (w : Bool) (r : RndCode) (d a b : Reg)
  | fcmp (w : Bool) (c : FCond) (p : Fin 8) (a b : Reg)
  -- transcendentals (major 15); n is the lookahead
  | frcp (f : TFmt) (d a : Reg) (n : BitVec 4)
  | frsq (f : TFmt) (d a : Reg) (n : BitVec 4)
  | fsqrt (f : TFmt) (d a : Reg) (n : BitVec 4)
  | fexp2 (f : TFmt) (d a : Reg) (n : BitVec 4)
  | flog2 (f : TFmt) (d a : Reg) (n : BitVec 4)
  | fsin (f : TFmt) (d a : Reg) (n : BitVec 4)
  | fcos (f : TFmt) (d a : Reg) (n : BitVec 4)
  | cvt (x y : CvtTy) (r : RndCode) (d a : Reg)
  -- team operations (majors 18-1B)
  | vote (k : VoteKind) (d : Reg) (p : Pred)
  | shfl (k : ShflKind) (d a b : Reg)
  | red (o : RedOp) (t : Bool) (d a : Reg)
  | scan (o : RedOp) (t : Bool) (x : Bool) (d a : Reg)
  | matchKey (k : KeyTy) (r : Bool) (d a : Reg)
  -- binding and limbs (majors 1C, 1D), window (1E)
  | bind (a : Reg)
  | ladd (d a b : Reg)
  | lsub (d a b : Reg)
  | lneg (d a : Reg)
  | lcmp (a b : Reg)
  | lshl (d a b : Reg)
  | lshr (d a b : Reg)
  | lmul (d a b : Reg)
  | lmulAddend (d a b : Reg)
  | wbase (a : Reg) (i : BitVec 11)
  -- transfers and divergence (majors 20-23)
  | br (o : BitVec 18)
  | brc (p : Pred) (o : BitVec 18)
  | call (o : BitVec 18)
  | ret
  | jmp (a : Reg)
  | ifp (p : Pred) (o : BitVec 18)
  | elsep (o : BitVec 18)
  | endif
  | loopBeg
  | loopEnd (o : BitVec 18)
  | brk (p : Pred) (d : BitVec 8)
  | cont (p : Pred) (d : BitVec 8)
  -- memory (majors 24-31)
  | ldB32 (d a : Reg) (o : BitVec 7) (n : BitVec 4)
  | ldB8 (d a : Reg) (o : BitVec 7) (n : BitVec 4)
  | ldB64 (d a : Reg) (o : BitVec 7) (n : BitVec 4)
  | ldB16 (d a : Reg) (o : BitVec 7) (n : BitVec 4)
  | ldB128 (d a : Reg) (o : BitVec 7) (n : BitVec 4)
  | ldI8 (d a : Reg) (o : BitVec 7) (n : BitVec 4)
  | ldI16 (d a : Reg) (o : BitVec 7) (n : BitVec 4)
  | stB32 (d a : Reg) (o : BitVec 7) (n : BitVec 4)
  | stB64 (d a : Reg) (o : BitVec 7) (n : BitVec 4)
  | stB128 (d a : Reg) (o : BitVec 7) (n : BitVec 4)
  | stB8 (d a : Reg) (o : BitVec 7) (n : BitVec 4)
  | stB16 (d a : Reg) (o : BitVec 7) (n : BitVec 4)
  | tld (d a : Reg) (o : BitVec 7) (n : BitVec 4)
  | pf (a : Reg) (o : BitVec 7) (n : BitVec 4)
  | lrB32 (d a : Reg) (o : BitVec 7) (n : BitVec 4)
  | lrB64 (d a : Reg) (o : BitVec 7) (n : BitVec 4)
  | scB32 (d a : Reg) (o : BitVec 7) (n : BitVec 4)
  | scB64 (d a : Reg) (o : BitVec 7) (n : BitVec 4)
  | atom (p : AtomOp) (c : Scope) (r : Ordering4) (d a : Reg) (n : BitVec 2)
  | monArm (c : Scope) (d a : Reg) (n : BitVec 4)
  -- ordering, waiting, latches (majors 32-34)
  | phase (c : Scope)
  | wait (p : Path) (d : Reg)
  | rdcnt (p : Path) (d : Reg)
  | latInit (l : BitVec 5) (d : Reg)
  | latArr (l : BitVec 5)
  | latWait (l : BitVec 5) (d : Reg)
  | latArw (l : BitVec 5)
  | latGen (l : BitVec 5) (d : Reg)
  -- engines (majors 35-38)
  | fork (e : Engine)
  | join (e : Engine)
  | cp (l : BitVec 5) (d : Reg) (n : BitVec 4)
  | mxPrec (l : BitVec 5) (d : Reg)
  | mxLdb (l : BitVec 5) (d : Reg)
  | mxMm (l : BitVec 5) (d : Reg)
  | mxSt (l : BitVec 5) (d : Reg)
  | mxZero (l : BitVec 5) (d : Reg)
  | mxPost (c : MxCmd) (l : BitVec 5) (d : Reg) (n : BitVec 4)
  -- queues and system (majors 3A-3E)
  | qSig (c : Scope) (d : Reg)
  | qWait (c : Scope) (d : Reg)
  | perfSet (d : Reg)
  | mfsr (x : BitVec 11) (d : Reg)
  | mtsr (x : BitVec 11) (d : Reg)
  | trap (c : BitVec 11)
  | hngSet (e : BitVec 4) (d : Reg)
  | hngClr (e : BitVec 4)
  | hngRd (e : BitVec 4) (d : Reg)
  | tlbInv (c : Scope) (d : Reg)
  -- launches and blocks
  | cqtailWrite (q : Nat) (v : BitVec 16)
  | blockPlacement (l : Nat)
  | teamEnd (t : Nat)
  | blockEnd (b : Nat)
  | launchEnd (l : Nat)
  | launchFailure (l : Nat) (cls : BitVec 8) (r : FailReason) (core ord : Nat) (addr : DWord)
  | uncorrectableStateError (t : Nat) (p : StatePlace)
  -- completions
  | loadDataReturn (t : Nat) (k : AccPart)
  | storeCompletion (t : Nat) (k : AccPart)
  | atomicCompletion (t : Nat) (k : AccPart)
  | tldCompletion (t k : Nat)
  | pfCompletion (t k : Nat)
  | transcendentalResult (t k : Nat)
  -- scheduling, traps, stops
  | fairnessSwitch (t : Nat)
  | deferredFairnessSwitch (t : Nat)
  | passedLift (t : Nat)
  | schedulerSample (core : Nat) (p : SamplePoint)
  | trapEntry (c : TrapCause)
  | stopRequest (t : Nat) (c : StopCause)
  | teamStop (t : Nat)
  | contextSave (b : SaveOrder)
  | contextRestore (k core : Nat)
  -- engines
  | mxPrecCommand (core : Nat)
  | mxLdbCommand (core : Nat)
  | mxMmCommand (core : Nat)
  | mxStCommand (core : Nat)
  | mxZeroCommand (core : Nat)
  | matrixCommandCompletion (core : Nat)
  | streamEnd (core : Nat) (e : Engine)
  | copyStart (core n : Nat)
  | copyCompletion (core : Nat)
  -- loader and Frequel
  | codeObjectLoad (name : ObjectName) (base phys : Nat) (file : ObjectFile)
  | captureArm (core launch start : Nat)
  | capture (t : Nat)
  | candidateTest (core : Nat) (words : List Word)
  | hingeInstall (core launch e : Nat) (d : QWord)
  | hingeDecision (t : Nat)
  | shadowComparison (core e : Nat)
  -- Helolo
  | breakpointHit (t : Nat)
  | debugStopRequest (t : Nat)
  | debuggerResume (t : Nat)
  | bufferDescriptorWrite (b : BufRef) (d : QWord)
  | watchEntryWrite (launch k : Nat) (d : QWord)
  | snapshotArmWrite (arm done : Bool)
  -- host registers
  | tqinWrite (q : Nat) (payload : BitVec 26)
  | tqtakeRead (q : Nat)
  | pcapWrite (v : BitVec 12)
  | registerWrite (r : BarReg) (v : QWord)
  -- Eveno links
  | retrain (link : Nat)
  | retrainComplete (link : Nat)
  | dataPacket (link : Nat) (p : Packet)
  | ack (link : Nat) (seq : BitVec 32)
  | nak (link : Nat) (seq : BitVec 32)
  | pause (link : Nat) (f : FlowFlit)
  | resume (link : Nat) (f : FlowFlit)
  | ackTimer (link : Nat)
  | replayTimeout (link : Nat)
  | laneFailure (link lane : Nat)
  | recovery (link : Nat) (seq : BitVec 32) (lanes : List Nat)
  | recoveryComplete (link : Nat)
  | telemetryRefresh (link : Nat) (r : LinkReading)
  -- power
  | powerTelemetry (r : PowerReading)
  | controllerEvaluation (die : Nat) (r : DieReading)
  | clockSwitch (cluster : Nat)
  -- reset and Tumbler
  | createWorld (w : Nat) (prot : Bool) (session : Nat)
  | destroyWorld (w session : Nat)
  | debugUnlock (valid : Bool) (digest : BitVec 512)
  | pageOwnerChange (page : Nat) (entry : BitVec 16) (session : Nat)
  | extend (port : MrPort) (digest : BitVec 512)
  | negotiateAlgorithms (offer : Nat)
  | getCertificate (slot offset length : Nat)
  | challenge (slot : Nat) (nonce : BitVec 256)
  | getMeasurements (index : Nat) (nonce : BitVec 256)
  | keyExchange (session world : Nat)
  | finish (session : Nat) (valid : Bool)
  | unsupportedRequest (code : BitVec 8)
  | query (session : Nat)
  | keyProg (port : IdePort) (dir sub : Nat) (key : BitVec 256)
  | kSetGo (port : IdePort) (dir sub : Nat)
  | kSetStop (port : IdePort) (dir sub : Nat)
  | illegalWord (w : Word)
  | debuggerAttach (l : Nat)
  | debuggerDetach (l : Nat)
  -- rows without operands, last: a compiled constructor with fields may have at most number 244
  | nop
  | yield
  | unbind
  | monWait
  | eret
  | launchDescriptorCheck
  | snapshotTrigger
  | snapshotLatch
  | budgetInterval
  | packageReset
  | getVersion
  | getCapabilities
  | getDigests
  deriving DecidableEq, Repr

end Sys2Proof
end

