-- ==== Sys2Proof/WellFormed.lean ====
section
/-! DEFINITION. Which words are legal: operand classes, pairs and quads, and the field values that R14, R18, R22, R51, R69, R78 and the reference entries allow. -/

namespace Sys2Proof

namespace Reg

/-- A vector register v0-v87. -/
def isV : Reg → Bool
  | v _ => true
  | _ => false
/-- A scalar register s0-s35. -/
def isS : Reg → Bool
  | s _ => true
  | _ => false
/-- A scalar operand: s0-s35, `zr` or `bix` (R20). -/
def isScalar : Reg → Bool
  | s _ => true
  | zr => true
  | bix => true
  | _ => false
/-- s0-s35 or `zr`. -/
def isSZ : Reg → Bool
  | s _ => true
  | zr => true
  | _ => false
/-- A vector register or `zr`. -/
def isVZ : Reg → Bool
  | v _ => true
  | zr => true
  | _ => false
/-- A register field that may be written: never `tix` or `bix` (R14). -/
def canWrite : Reg → Bool
  | tix => false
  | bix => false
  | _ => true
/-- A 64-bit operand: an even vector or scalar register, or `zr` (R18; `bix` has no next register, log 13). -/
def isPair : Reg → Bool
  | v i => i.val % 2 == 0
  | s i => i.val % 2 == 0
  | zr => true
  | _ => false
/-- A 128-bit operand: a field value that is a multiple of 4 (R69). -/
def isQuad : Reg → Bool
  | v i => i.val % 4 == 0
  | s i => i.val % 4 == 0
  | zr => true
  | _ => false
/-- A base pair of a memory word: an even vector or scalar register (R345). -/
def isBase : Reg → Bool
  | v i => i.val % 2 == 0
  | s i => i.val % 2 == 0
  | _ => false
/-- s0, s4, s8 or s12 (R315). -/
def isTlrBase : Reg → Bool
  | s i => i.val % 4 == 0 && i.val ≤ 12
  | _ => false
/-- s0, s4, …, s32 (R243). -/
def isHingeQuad : Reg → Bool
  | s i => i.val % 4 == 0
  | _ => false
/-- An even scalar register. -/
def isEvenS : Reg → Bool
  | s i => i.val % 2 == 0
  | _ => false
/-- A scalar register with `n - 1` more after it (R365). -/
def isSBlock (n : Nat) : Reg → Bool
  | s i => i.val + n ≤ 36
  | _ => false

end Reg

/-- The mix rule of R22 and R51: a scalar destination takes scalar sources only. -/
def mixOk (d : Reg) (srcs : List Reg) : Bool := d.canWrite && (!d.isS || srcs.all Reg.isScalar)

/-- The same for 64-bit operands (R18). -/
def mixOk64 (d : Reg) (srcs : List Reg) : Bool := mixOk d srcs && d.isPair && srcs.all Reg.isPair

/-- A destination of `li` or `lih` (R347). -/
def liDst : Reg → Bool
  | .v _ => true
  | .s _ => true
  | .zr => true
  | _ => false

/-- The classes of `ld`, `lr`, `mon.arm` (R345): a scalar D needs a scalar base. -/
def loadOk (d a : Reg) : Bool := d.canWrite && a.isBase && (!d.isS || a.isS)

/-- The classes of `sc` (R385): D is a vector or scalar register. -/
def scOk (d a : Reg) : Bool := (d.isV || d.isS) && a.isBase && (!d.isS || a.isS)

/-- The width of a `cvt` type (R74). -/
def CvtTy.wide : CvtTy → Bool
  | .f64 => true
  | .i64 => true
  | .n64 => true
  | _ => false

/-- Whether a reduction has an FP32 form (R382). -/
def RedOp.hasF32 : RedOp → Bool
  | .add => true
  | .min => true
  | .max => true
  | _ => false

/-- The words of each command's register block (R365). -/
def MxCmd.len : MxCmd → Nat
  | .prec => 1
  | .ldb => 6
  | .mm => 8
  | .st => 5
  | .zero => 2

/-- The selectors that R79 lists. -/
def selectorListed (x : Nat) : Bool :=
  x < 0x54 || (0x58 ≤ x && x < 0x5C) || (0x60 ≤ x && x ≤ 0x70)

/-- The selector of TIME (R79). -/
def selTime : Nat := 0x70

/-- Scopes that `tlb.inv` accepts (R395). -/
def Scope.tlbOk : Scope → Bool
  | .node => false
  | .pod => false
  | .fab => false
  | .host => false
  | _ => true

/-- Register classes of a transcendental (R323). -/
def transOk (f : TFmt) (d a : Reg) : Bool := if f = .f64 then mixOk64 d [a] else mixOk d [a]

/-- Register classes of majors 10 and 11 (R322). -/
def floatOk (w : Bool) (d : Reg) (srcs : List Reg) : Bool := if w then mixOk64 d srcs else mixOk d srcs

/-- Register classes of the limb words (R104): vector D and A. -/
def limbOk (d a : Reg) : Bool := d.isVZ && (a.isVZ || a == .tix)

/-- A word is legal (R78), apart from what depends on the machine's state: the window (R15), the loop level of `brk`, `cont` and `loop.end`, and the words that a stream may hold (R56). The steps of the table that have no encoding are always well-formed. -/
def Instr.wf : Instr → Bool
  | .add d a b | .sub d a b | .and d a b | .or d a b | .xor d a b | .andn d a b => mixOk d [a, b]
  | .minSgn d a b | .maxSgn d a b | .minUns d a b | .maxUns d a b => mixOk d [a, b]
  | .shl d a b | .shr d a b | .sra d a b | .rot d a b => mixOk d [a, b]
  | .mov d a => mixOk d [a]
  | .mulLo d a b | .mulHiSgn d a b | .mulHiUns d a b | .mad d a b | .bfx d a b | .bfi d a b => mixOk d [a, b]
  | .clz d a | .popc d a | .brev d a | .not d a => mixOk d [a]
  | .absI32 d a | .absI16x2 d a | .absI8x4 d a | .negI32 d a | .negI16x2 d a | .negI8x4 d a => mixOk d [a]
  | .addI16x2 d a b | .addI8x4 d a b | .subI16x2 d a b | .subI8x4 d a b => mixOk d [a, b]
  | .minI16x2 d a b | .maxI16x2 d a b | .minI8x4 d a b | .maxI8x4 d a b => mixOk d [a, b]
  | .addImm d a _ | .andImm d a _ | .orImm d a _ | .xorImm d a _ => mixOk d [a]
  | .shlImm d a _ | .shrImm d a _ | .sraImm d a _ | .rotImm d a _ => mixOk d [a]
  | .li d _ | .lih d _ => liDst d
  | .sel d a b _ => mixOk d [a, b]
  | .movs d a b => d.isV && a.isScalar && b.isScalar
  | .rdl d a b => d.isSZ && (a.isV || a == .tix) && b.isScalar
  | .fadd w d a b | .fsub w d a b | .fmul w d a b | .fmin w d a b | .fmax w d a b => floatOk w d [a, b]
  | .fabs w d a | .fneg w d a => floatOk w d [a]
  | .faddPacked _ d a b | .fsubPacked _ d a b | .fmulPacked _ d a b | .fminPacked _ d a b => mixOk d [a, b]
  | .fmaxPacked _ d a b | .ffmaPacked _ d a b => mixOk d [a, b]
  | .fabsPacked _ d a | .fnegPacked _ d a => mixOk d [a]
  | .ffma w _ d a b => floatOk w d [a, b]
  | .fcmp w _ _ a b => !w || (a.isPair && b.isPair)
  | .frcp f d a _ | .frsq f d a _ | .fsqrt f d a _ | .fexp2 f d a _ | .flog2 f d a _ => transOk f d a
  | .fsin f d a _ | .fcos f d a _ => transOk f d a
  | .cvt x y _ d a => decide (x ≠ y) && mixOk d [a] && (!x.wide || d.isPair) && (!y.wide || a.isPair)
  | .vote _ d _ => d.canWrite
  | .shfl _ d a b => d.isV && a != .bix && b != .bix
  | .red o t d a => d.canWrite && a.isV && (!t || o.hasF32)
  | .scan o t _ d a => d.isV && a != .bix && (!t || o.hasF32)
  | .matchKey k r d a => d.isV && (!r || d.isPair) && (a.isV || a.isS || a == .tix) && (k != .f64 || a.isPair)
  | .bind a => a.isSZ
  | .ladd d a b | .lsub d a b => limbOk d a && (b.isVZ || b == .tix)
  | .lneg d a => limbOk d a
  | .lcmp a b => limbOk .zr a && limbOk .zr b
  | .lshl d a b | .lshr d a b | .lmul d a b => limbOk d a && b.isSZ
  | .lmulAddend d a b => limbOk d a && b.isEvenS
  | .wbase a _ => a.isScalar
  | .jmp a => a.isEvenS
  -- R339 refuses an `if` with OFF18 not positive; an `else` is refused alike, as the model's choice (log 43)
  | .ifp _ o | .elsep o => !o.msb && o != 0
  | .loopEnd o => o.msb
  | .brk _ d | .cont _ d => d.toNat ≤ 253
  | .ldB32 d a _ _ | .ldB8 d a _ _ | .ldB16 d a _ _ | .ldI8 d a _ _ | .ldI16 d a _ _ => loadOk d a
  | .ldB64 d a _ _ => loadOk d a && d.isPair
  | .ldB128 d a _ _ => loadOk d a && d.isQuad
  | .stB32 _ a _ _ | .stB8 _ a _ _ | .stB16 _ a _ _ => a.isBase
  | .stB64 d a _ _ => a.isBase && d.isPair
  | .stB128 d a _ _ => a.isBase && d.isQuad
  | .tld d a _ _ => d.isSZ && a.isBase && a.isV
  | .pf a _ _ => a.isBase
  | .lrB32 d a _ _ => loadOk d a
  | .lrB64 d a _ _ => loadOk d a && d.isPair
  | .scB32 d a _ _ => scOk d a
  | .scB64 d a _ _ => scOk d a && d.isPair
  | .atom p _ _ d a _ => (d.isV || d.isS) && a.isBase && (!d.isS || a.isS) && (p != .cas || d.isPair)
  | .monArm _ d a _ => loadOk d a
  | .wait _ d | .rdcnt _ d => d.isSZ
  | .latInit _ d | .latWait _ d => d.isScalar
  | .latGen _ d => d.isSZ
  | .cp _ d _ => d.isTlrBase
  | .mxPrec _ d => d.isSBlock 1
  | .mxLdb _ d => d.isSBlock 6
  | .mxMm _ d => d.isSBlock 8
  | .mxSt _ d => d.isSBlock 5
  | .mxZero _ d => d.isSBlock 2
  | .mxPost c _ d _ => d.isSBlock c.len
  | .qSig _ d | .qWait _ d => d.isS
  | .perfSet d => d.isScalar
  | .mfsr x d => selectorListed x.toNat && d.isSZ && (x.toNat != selTime || d.isPair)
  | .mtsr x d => selectorListed x.toNat && d.isScalar && (x.toNat != selTime || d.isPair)
  | .hngSet _ d | .hngRd _ d => d.isHingeQuad
  | .tlbInv c d => c.tlbOk && d.isEvenS
  | _ => true

end Sys2Proof
end

