-- ==== Sys2Proof/Decode.lean ====
section
/-! DEFINITION. The decoder, total on every 32-bit word and refusing by `none`, and the encoder, written from the tables of R68 to R80. -/

namespace Sys2Proof

/-- S, the stop bit (R67). -/
def stopBit (w : Word) : Bool := w.getLsbD 31
/-- Bits [30:25], the major opcode (R67). -/
def majorOf (w : Word) : BitVec 6 := w.extractLsb' 25 6
/-- Bits [24:18] (R68). -/
def fieldD (w : Word) : BitVec 7 := w.extractLsb' 18 7
/-- Bits [17:11] (R68). -/
def fieldA (w : Word) : BitVec 7 := w.extractLsb' 11 7
/-- Bits [10:4] (R68). -/
def fieldB (w : Word) : BitVec 7 := w.extractLsb' 4 7
/-- Bits [3:0]: FN or LA (R68). -/
def fieldFN (w : Word) : BitVec 4 := w.extractLsb' 0 4
/-- IMM11, bits [10:0] (R68). -/
def fieldImm11 (w : Word) : BitVec 11 := w.extractLsb' 0 11
/-- IMM18 or OFF18, bits [17:0] (R68). -/
def fieldImm18 (w : Word) : BitVec 18 := w.extractLsb' 0 18
/-- SEL11, bits [17:7] (R68). -/
def fieldSel (w : Word) : BitVec 11 := w.extractLsb' 7 11
/-- SUB3, bits [6:4] (R68). -/
def fieldSub (w : Word) : BitVec 3 := w.extractLsb' 4 3

/-- The register that a 7-bit field names (R14); 127 names none. -/
def decReg (f : BitVec 7) : Option Reg :=
  if h : f.toNat < 88 then some (.v ⟨f.toNat, h⟩)
  else if h : f.toNat - 88 < 36 then some (.s ⟨f.toNat - 88, h⟩)
  else if f = 124 then some .zr
  else if f = 125 then some .tix
  else if f = 126 then some .bix
  else none

/-- The field value of a register (R14). -/
def encReg : Reg → BitVec 7
  | .v i => BitVec.ofNat 7 i.val
  | .s i => BitVec.ofNat 7 (88 + i.val)
  | .zr => 124
  | .tix => 125
  | .bix => 126

/-- The predicate that four bits name (R69). -/
def decPred4 (f : BitVec 4) : Pred := ⟨f.msb, ⟨(f.setWidth 3).toNat, (f.setWidth 3).isLt⟩⟩
/-- A 7-bit predicate field: bits [6:4] must be 0 (R69). -/
def decPred7 (f : BitVec 7) : Option Pred := if f.extractLsb' 4 3 = 0 then some (decPred4 (f.setWidth 4)) else none
/-- The four bits of a predicate (R69). -/
def encPred (p : Pred) : BitVec 4 := BitVec.ofBool p.neg ++ BitVec.ofNat 3 p.num.val
/-- Bits [2:0] as a predicate number. -/
def predNum (f : BitVec 7) : Fin 8 := ⟨(f.setWidth 3).toNat, (f.setWidth 3).isLt⟩

/-- Format F3 and FE (R68). -/
def encF3 (s : Bool) (m : BitVec 6) (d a b : BitVec 7) (fn : BitVec 4) : Word := BitVec.ofBool s ++ m ++ d ++ a ++ b ++ fn
/-- Format FI (R68). -/
def encFI (s : Bool) (m : BitVec 6) (d a : BitVec 7) (i : BitVec 11) : Word := BitVec.ofBool s ++ m ++ d ++ a ++ i
/-- Formats FL and FB (R68). -/
def encFL (s : Bool) (m : BitVec 6) (d : BitVec 7) (i : BitVec 18) : Word := BitVec.ofBool s ++ m ++ d ++ i
/-- Format FS (R68). -/
def encFS (s : Bool) (m : BitVec 6) (d : BitVec 7) (x : BitVec 11) (b : BitVec 3) (la : BitVec 4) : Word :=
  BitVec.ofBool s ++ m ++ d ++ x ++ b ++ la

/-- The base field of format FM: bit 0 is the form bit (R69). -/
def encBase (a : Reg) (form : BitVec 1) : BitVec 7 := (encReg a).extractLsb' 1 6 ++ form
/-- The base register of format FM (R69). -/
def decBase (f : BitVec 7) : Option Reg := decReg (f.extractLsb' 1 6 ++ 0#1)

/-- Condition codes of `cmp` (R73). -/
def decICond (f : BitVec 4) : Option ICond :=
  match f.toNat with
  | 0 => some .eq
  | 1 => some .ne
  | 2 => some .lt
  | 3 => some .le
  | 4 => some .gt
  | 5 => some .ge
  | 6 => some .lo
  | 7 => some .ls
  | 8 => some .hi
  | 9 => some .hs
  | _ => none

/-- The code of the same table. -/
def encICond : ICond → BitVec 4
  | .eq => 0
  | .ne => 1
  | .lt => 2
  | .le => 3
  | .gt => 4
  | .ge => 5
  | .lo => 6
  | .ls => 7
  | .hi => 8
  | .hs => 9

/-- Condition codes of `fcmp` (R73). -/
def decFCond (f : BitVec 4) : Option FCond :=
  match f.toNat with
  | 0 => some .eq
  | 1 => some .ne
  | 2 => some .lt
  | 3 => some .le
  | 4 => some .gt
  | 5 => some .ge
  | 6 => some .un
  | _ => none

/-- The code of the same table. -/
def encFCond : FCond → BitVec 4
  | .eq => 0
  | .ne => 1
  | .lt => 2
  | .le => 3
  | .gt => 4
  | .ge => 5
  | .un => 6

/-- Rounding codes of major 13 (R74). -/
def decRnd3 (f : BitVec 3) : Option RndCode :=
  match f.toNat with
  | 0 => some .fpctl
  | 1 => some .rn
  | 2 => some .rz
  | 3 => some .ru
  | 4 => some .rd
  | _ => none

/-- The code of the same table. -/
def encRnd3 : RndCode → BitVec 3
  | .fpctl => 0
  | .rn => 1
  | .rz => 2
  | .ru => 3
  | .rd => 4

/-- Rounding codes of `cvt` (R74). -/
def decRnd4 (f : BitVec 4) : Option RndCode :=
  match f.toNat with
  | 0 => some .fpctl
  | 1 => some .rn
  | 2 => some .rz
  | 3 => some .ru
  | 4 => some .rd
  | _ => none

/-- The code of the same table. -/
def encRnd4 : RndCode → BitVec 4
  | .fpctl => 0
  | .rn => 1
  | .rz => 2
  | .ru => 3
  | .rd => 4

/-- Type codes of `cvt` (R74). -/
def decCvtTy (f : BitVec 3) : Option CvtTy :=
  match f.toNat with
  | 0 => some .f32
  | 1 => some .f64
  | 2 => some .f16x2
  | 3 => some .bf16x2
  | 4 => some .i32
  | 5 => some .n32
  | 6 => some .i64
  | 7 => some .n64
  | _ => none

/-- The code of the same table. -/
def encCvtTy : CvtTy → BitVec 3
  | .f32 => 0
  | .f64 => 1
  | .f16x2 => 2
  | .bf16x2 => 3
  | .i32 => 4
  | .n32 => 5
  | .i64 => 6
  | .n64 => 7

/-- Formats of the transcendentals (R323). -/
def decTFmt (f : BitVec 2) : Option TFmt :=
  match f.toNat with
  | 0 => some .f32
  | 1 => some .f64
  | 2 => some .f16x2
  | 3 => some .bf16x2
  | _ => none

/-- The code of the same table. -/
def encTFmt : TFmt → BitVec 2
  | .f32 => 0
  | .f64 => 1
  | .f16x2 => 2
  | .bf16x2 => 3

/-- Scope codes (R76). -/
def decScope (f : BitVec 4) : Option Scope :=
  match f.toNat with
  | 0 => some .thr
  | 1 => some .grp
  | 2 => some .team
  | 3 => some .core
  | 4 => some .quad
  | 5 => some .clus
  | 6 => some .die
  | 7 => some .pkg
  | 8 => some .node
  | 9 => some .pod
  | 10 => some .fab
  | 11 => some .host
  | _ => none

/-- The code of the same table. -/
def encScope : Scope → BitVec 4
  | .thr => 0
  | .grp => 1
  | .team => 2
  | .core => 3
  | .quad => 4
  | .clus => 5
  | .die => 6
  | .pkg => 7
  | .node => 8
  | .pod => 9
  | .fab => 10
  | .host => 11

/-- Ordering codes (R76). -/
def decOrdering (f : BitVec 2) : Option Ordering4 :=
  match f.toNat with
  | 0 => some .rlx
  | 1 => some .acq
  | 2 => some .rel
  | 3 => some .ar
  | _ => none

/-- The code of the same table. -/
def encOrdering : Ordering4 → BitVec 2
  | .rlx => 0
  | .acq => 1
  | .rel => 2
  | .ar => 3

/-- Path codes (R76). -/
def decPath (f : BitVec 3) : Option Path :=
  match f.toNat with
  | 0 => some .g
  | 1 => some .s
  | 2 => some .c
  | 3 => some .m
  | 4 => some .x
  | 5 => some .a
  | _ => none

/-- The code of the same table. -/
def encPath : Path → BitVec 3
  | .g => 0
  | .s => 1
  | .c => 2
  | .m => 3
  | .x => 4
  | .a => 5

/-- The kinds of `vote` (R71). -/
def decVote (f : BitVec 4) : Option VoteKind :=
  match f.toNat with
  | 0 => some .some
  | 1 => some .every
  | 2 => some .mask
  | 3 => some .count
  | _ => none

/-- The code of the same table. -/
def encVote : VoteKind → BitVec 4
  | .some => 0
  | .every => 1
  | .mask => 2
  | .count => 3

/-- The kinds of `shfl` (R71). -/
def decShfl (f : BitVec 4) : Option ShflKind :=
  match f.toNat with
  | 0 => some .at
  | 1 => some .below
  | 2 => some .above
  | 3 => some .flip
  | 4 => some .rot
  | _ => none

/-- The code of the same table. -/
def encShfl : ShflKind → BitVec 4
  | .at => 0
  | .below => 1
  | .above => 2
  | .flip => 3
  | .rot => 4

/-- The operations of `red` and `scan` (R71). -/
def decRed (f : BitVec 3) : Option RedOp :=
  match f.toNat with
  | 0 => some .add
  | 1 => some .min
  | 2 => some .max
  | 3 => some .and
  | 4 => some .or
  | 5 => some .xor
  | _ => none

/-- The code of the same table. -/
def encRed : RedOp → BitVec 3
  | .add => 0
  | .min => 1
  | .max => 2
  | .and => 3
  | .or => 4
  | .xor => 5

/-- The key types of `match` (R71). -/
def decKey (f : BitVec 2) : Option KeyTy :=
  match f.toNat with
  | 0 => some .b32
  | 1 => some .f32
  | 2 => some .f64
  | _ => none

/-- The code of the same table. -/
def encKey : KeyTy → BitVec 2
  | .b32 => 0
  | .f32 => 1
  | .f64 => 2

/-- The operations of `atom` (R71). -/
def decAtom (f : BitVec 3) : Option AtomOp :=
  match f.toNat with
  | 0 => some .add
  | 1 => some .min
  | 2 => some .max
  | 3 => some .and
  | 4 => some .or
  | 5 => some .xor
  | 6 => some .exch
  | 7 => some .cas
  | _ => none

/-- The code of the same table. -/
def encAtom : AtomOp → BitVec 3
  | .add => 0
  | .min => 1
  | .max => 2
  | .and => 3
  | .or => 4
  | .xor => 5
  | .exch => 6
  | .cas => 7

/-- The SUB3 codes of the matrix commands (R71). -/
def decMxCmd (f : BitVec 3) : Option MxCmd :=
  match f.toNat with
  | 0 => some .prec
  | 1 => some .ldb
  | 2 => some .mm
  | 3 => some .st
  | 4 => some .zero
  | _ => none

/-- The code of the same table. -/
def encMxCmd : MxCmd → BitVec 3
  | .prec => 0
  | .ldb => 1
  | .mm => 2
  | .st => 3
  | .zero => 4

/-- A word whose D, A and B are registers. -/
def r3 (f : Reg → Reg → Reg → Instr) (w : Word) : Option Instr :=
  (decReg (fieldD w)).bind fun d => (decReg (fieldA w)).bind fun a => (decReg (fieldB w)).bind fun b => some (f d a b)
/-- A word whose D and A are registers. -/
def r2 (f : Reg → Reg → Instr) (w : Word) : Option Instr :=
  (decReg (fieldD w)).bind fun d => (decReg (fieldA w)).bind fun a => some (f d a)
/-- The same, with B = 0. -/
def r2z (f : Reg → Reg → Instr) (w : Word) : Option Instr := if fieldB w = 0 then r2 f w else none
/-- A word whose D is a register. -/
def r1 (f : Reg → Instr) (w : Word) : Option Instr := (decReg (fieldD w)).bind fun d => some (f d)
/-- A word whose A is a register. -/
def rA (f : Reg → Instr) (w : Word) : Option Instr := (decReg (fieldA w)).bind fun a => some (f a)
/-- A memory word of format FM (R68): data register, base, OFF7, LA. -/
def rm (f : Reg → Reg → BitVec 7 → BitVec 4 → Instr) (w : Word) : Option Instr :=
  (decReg (fieldD w)).bind fun d => (decBase (fieldA w)).bind fun a => some (f d a (fieldB w) (fieldFN w))
/-- The form bit A[0] of format FM. -/
def formBit (w : Word) : Bool := w.getLsbD 11

/-- Major 00 (R71). -/
def decMajor00 (w : Word) : Option Instr :=
  match (fieldFN w).toNat with
  | 0 => if fieldD w = 0 ∧ fieldA w = 0 ∧ fieldB w = 0 then some .nop else none
  | 1 => if fieldD w = 0 ∧ fieldA w = 0 ∧ fieldB w = 0 then some .exit else none
  | 2 => if fieldD w = 0 ∧ fieldA w = 0 ∧ fieldB w = 0 then some .yield else none
  | 3 => if fieldA w = 0 ∧ fieldB w = 0 then some (.brkpt (fieldD w)) else none
  | _ => none

/-- Major 01 (R71). -/
def decMajor01 (w : Word) : Option Instr :=
  match (fieldFN w).toNat with
  | 0 => r3 .add w
  | 1 => r3 .sub w
  | 2 => r3 .and w
  | 3 => r3 .or w
  | 4 => r3 .xor w
  | 5 => r3 .andn w
  | 6 => r3 .minSgn w
  | 7 => r3 .maxSgn w
  | 8 => r3 .minUns w
  | 9 => r3 .maxUns w
  | 10 => r3 .shl w
  | 11 => r3 .shr w
  | 12 => r3 .sra w
  | 13 => r3 .rot w
  | 14 => r2z .mov w
  | _ => none

/-- The unary row of major 02 (R72). -/
def decUnary (w : Word) : Option Instr :=
  match (fieldB w).toNat with
  | 0 => r2 .clz w
  | 1 => r2 .popc w
  | 2 => r2 .brev w
  | 3 => r2 .not w
  | 4 => r2 .absI32 w
  | 5 => r2 .absI16x2 w
  | 6 => r2 .absI8x4 w
  | 7 => r2 .negI32 w
  | 8 => r2 .negI16x2 w
  | 9 => r2 .negI8x4 w
  | _ => none

/-- Major 02 (R71). -/
def decMajor02 (w : Word) : Option Instr :=
  match (fieldFN w).toNat with
  | 0 => r3 .mulLo w
  | 1 => r3 .mulHiSgn w
  | 2 => r3 .mulHiUns w
  | 3 => r3 .mad w
  | 4 => r3 .bfx w
  | 5 => r3 .bfi w
  | 7 => r3 .addI16x2 w
  | 8 => r3 .addI8x4 w
  | 9 => r3 .subI16x2 w
  | 10 => r3 .subI8x4 w
  | 11 => r3 .minI16x2 w
  | 12 => r3 .maxI16x2 w
  | 13 => r3 .minI8x4 w
  | 14 => r3 .maxI8x4 w
  | 6 => decUnary w
  | _ => none

/-- An FI word (R68). -/
def ri (f : Reg → Reg → BitVec 11 → Instr) (w : Word) : Option Instr := r2 (fun d a => f d a (fieldImm11 w)) w

/-- Major 07 (R71). -/
def decMajor07 (w : Word) : Option Instr :=
  if (fieldImm11 w).extractLsb' 7 4 = 0 then
    match ((fieldImm11 w).extractLsb' 5 2).toNat with
    | 0 => r2 (fun d a => .shlImm d a ((fieldImm11 w).setWidth 5)) w
    | 1 => r2 (fun d a => .shrImm d a ((fieldImm11 w).setWidth 5)) w
    | 2 => r2 (fun d a => .sraImm d a ((fieldImm11 w).setWidth 5)) w
    | _ => r2 (fun d a => .rotImm d a ((fieldImm11 w).setWidth 5)) w
  else none

/-- Major 0A (R71, R73). -/
def decMajor0A (w : Word) : Option Instr :=
  if fieldFN w = 0 then
    (decICond ((fieldD w).extractLsb' 3 4)).bind fun c => (decReg (fieldA w)).bind fun a =>
      (decReg (fieldB w)).bind fun b => some (.cmp c (predNum (fieldD w)) a b)
  else none

/-- Major 0B (R71, R73). -/
def decMajor0B (w : Word) : Option Instr :=
  (decICond ((fieldD w).extractLsb' 3 4)).bind fun c => (decReg (fieldA w)).bind fun a =>
    some (.cmpImm c (predNum (fieldD w)) a (fieldImm11 w))

/-- Major 0C (R71): the destination predicate has no complement (R69). -/
def decMajor0C (w : Word) : Option Instr :=
  if (fieldD w).extractLsb' 3 4 = 0 then
    (decPred7 (fieldA w)).bind fun a =>
      match (fieldFN w).toNat with
      | 0 => (decPred7 (fieldB w)).bind fun b => some (.pand (predNum (fieldD w)) a b)
      | 1 => (decPred7 (fieldB w)).bind fun b => some (.por (predNum (fieldD w)) a b)
      | 2 => (decPred7 (fieldB w)).bind fun b => some (.pxor (predNum (fieldD w)) a b)
      | 3 => if fieldB w = 0 then some (.pnot (predNum (fieldD w)) a) else none
      | _ => none
  else none

/-- Major 0E (R71). -/
def decMajor0E (w : Word) : Option Instr :=
  match (fieldFN w).toNat with
  | 0 => r3 .movs w
  | 1 => r3 .rdl w
  | _ => none

/-- Majors 10 and 11 (R71, R322). -/
def decFloat (x : Bool) (w : Word) : Option Instr :=
  match (fieldFN w).toNat with
  | 0 => r3 (.fadd x) w
  | 1 => r3 (.fsub x) w
  | 2 => r3 (.fmul x) w
  | 3 => r3 (.fmin x) w
  | 4 => r3 (.fmax x) w
  | 5 => r2z (.fabs x) w
  | 6 => r2z (.fneg x) w
  | _ => none

/-- Major 12 (R71, R322). -/
def decMajor12 (w : Word) : Option Instr :=
  match ((fieldFN w).setWidth 3).toNat with
  | 0 => r3 (.faddPacked (fieldFN w).msb) w
  | 1 => r3 (.fsubPacked (fieldFN w).msb) w
  | 2 => r3 (.fmulPacked (fieldFN w).msb) w
  | 3 => r3 (.fminPacked (fieldFN w).msb) w
  | 4 => r3 (.fmaxPacked (fieldFN w).msb) w
  | 5 => r2z (.fabsPacked (fieldFN w).msb) w
  | 6 => r2z (.fnegPacked (fieldFN w).msb) w
  | _ => r3 (.ffmaPacked (fieldFN w).msb) w

/-- Major 13 (R71, R74). -/
def decMajor13 (w : Word) : Option Instr :=
  (decRnd3 ((fieldFN w).setWidth 3)).bind fun r => r3 (.ffma (fieldFN w).msb r) w

/-- Major 14 (R71, R326). -/
def decMajor14 (w : Word) : Option Instr :=
  if (fieldFN w).extractLsb' 1 3 = 0 then
    (decFCond ((fieldD w).extractLsb' 3 4)).bind fun c => (decReg (fieldA w)).bind fun a =>
      (decReg (fieldB w)).bind fun b => some (.fcmp ((fieldFN w).getLsbD 0) c (predNum (fieldD w)) a b)
  else none

/-- Major 15 (R71, R323). -/
def decMajor15 (w : Word) : Option Instr :=
  if (fieldB w).extractLsb' 5 2 = 0 then
    (decTFmt ((fieldB w).extractLsb' 3 2)).bind fun f =>
      match ((fieldB w).setWidth 3).toNat with
      | 0 => r2 (fun d a => .frcp f d a (fieldFN w)) w
      | 1 => r2 (fun d a => .frsq f d a (fieldFN w)) w
      | 2 => r2 (fun d a => .fsqrt f d a (fieldFN w)) w
      | 3 => r2 (fun d a => .fexp2 f d a (fieldFN w)) w
      | 4 => r2 (fun d a => .flog2 f d a (fieldFN w)) w
      | 5 => r2 (fun d a => .fsin f d a (fieldFN w)) w
      | 6 => r2 (fun d a => .fcos f d a (fieldFN w)) w
      | _ => none
  else none

/-- Major 16 (R71, R74, R316). -/
def decMajor16 (w : Word) : Option Instr :=
  if (fieldB w).msb = false then
    (decCvtTy ((fieldB w).extractLsb' 3 3)).bind fun x => (decCvtTy ((fieldB w).setWidth 3)).bind fun y =>
      (decRnd4 (fieldFN w)).bind fun r => r2 (.cvt x y r) w
  else none

/-- Major 18 (R71, R398). -/
def decMajor18 (w : Word) : Option Instr :=
  if fieldB w = 0 then
    (decVote (fieldFN w)).bind fun k => (decReg (fieldD w)).bind fun d => (decPred7 (fieldA w)).bind fun p =>
      some (.vote k d p)
  else none

/-- Major 19 (R71). -/
def decMajor19 (w : Word) : Option Instr :=
  (decShfl (fieldFN w)).bind fun k => r3 (.shfl k) w

/-- Major 1A (R71, R382, R387). -/
def decMajor1A (w : Word) : Option Instr :=
  if (fieldB w).extractLsb' 2 5 = 0 then
    (decRed ((fieldFN w).setWidth 3)).bind fun o =>
      if (fieldFN w).msb then r2 (.scan o ((fieldB w).getLsbD 0) ((fieldB w).getLsbD 1)) w
      else if (fieldB w).getLsbD 1 then none else r2 (.red o ((fieldB w).getLsbD 0)) w
  else none

/-- Major 1B (R71, R356). -/
def decMajor1B (w : Word) : Option Instr :=
  if fieldB w = 0 ∧ (fieldFN w).msb = false then
    (decKey ((fieldFN w).setWidth 2)).bind fun k => r2 (.matchKey k ((fieldFN w).getLsbD 2)) w
  else none

/-- Major 1C (R71). -/
def decMajor1C (w : Word) : Option Instr :=
  match (fieldFN w).toNat with
  | 0 => if fieldD w = 0 ∧ fieldB w = 0 then rA .bind w else none
  | 1 => if fieldD w = 0 ∧ fieldA w = 0 ∧ fieldB w = 0 then some .unbind else none
  | _ => none

/-- Major 1D (R71). -/
def decMajor1D (w : Word) : Option Instr :=
  match (fieldFN w).toNat with
  | 0 => r3 .ladd w
  | 1 => r3 .lsub w
  | 2 => r2z .lneg w
  | 3 => if fieldD w = 0 then (decReg (fieldA w)).bind fun a => (decReg (fieldB w)).bind fun b => some (.lcmp a b) else none
  | 4 => r3 .lshl w
  | 5 => r3 .lshr w
  | 6 => r3 .lmul w
  | 7 => r3 .lmulAddend w
  | _ => none

/-- Major 1E (R71). -/
def decMajor1E (w : Word) : Option Instr :=
  if fieldD w = 0 then rA (fun a => .wbase a (fieldImm11 w)) w else none

/-- Major 20 (R75). -/
def decMajor20 (w : Word) : Option Instr :=
  match ((fieldD w).extractLsb' 4 3).toNat with
  | 0 => if (fieldD w).setWidth 4 = 0#4 then some (.br (fieldImm18 w)) else none
  | 1 => some (.brc (decPred4 ((fieldD w).setWidth 4)) (fieldImm18 w))
  | _ => none

/-- Major 21 (R75). -/
def decMajor21 (w : Word) : Option Instr :=
  match (fieldD w).toNat with
  | 0 => some (.call (fieldImm18 w))
  | 0x10 => if fieldImm18 w = 0 then some .ret else none
  | 0x20 => if fieldImm11 w = 0 then rA .jmp w else none
  | _ => none

/-- Major 22 (R75). -/
def decMajor22 (w : Word) : Option Instr :=
  match ((fieldD w).extractLsb' 4 3).toNat with
  | 1 => some (.ifp (decPred4 ((fieldD w).setWidth 4)) (fieldImm18 w))
  | 2 => if (fieldD w).setWidth 4 = 0#4 then some (.elsep (fieldImm18 w)) else none
  | 3 => if (fieldD w).setWidth 4 = 0#4 ∧ fieldImm18 w = 0 then some .endif else none
  | _ => none

/-- Major 23 (R75). -/
def decMajor23 (w : Word) : Option Instr :=
  match ((fieldD w).extractLsb' 4 3).toNat with
  | 0 => if (fieldD w).setWidth 4 = 0#4 ∧ fieldImm18 w = 0 then some .loopBeg else none
  | 1 => if (fieldD w).setWidth 4 = 0#4 then some (.loopEnd (fieldImm18 w)) else none
  | 2 => if (fieldImm18 w).extractLsb' 8 10 = 0 then
      some (.brk (decPred4 ((fieldD w).setWidth 4)) ((fieldImm18 w).setWidth 8)) else none
  | 3 => if (fieldImm18 w).extractLsb' 8 10 = 0 then
      some (.cont (decPred4 ((fieldD w).setWidth 4)) ((fieldImm18 w).setWidth 8)) else none
  | _ => none

/-- Major 2D, `pf` (R71, R373). -/
def decMajor2D (w : Word) : Option Instr :=
  if fieldD w = 0 ∧ formBit w = false then
    (decBase (fieldA w)).bind fun a => some (.pf a (fieldB w) (fieldFN w))
  else none

/-- Major 30, `atom` (R71, R303). -/
def decMajor30 (w : Word) : Option Instr :=
  (decAtom ((fieldB w).extractLsb' 4 3)).bind fun p => (decScope ((fieldB w).setWidth 4)).bind fun c =>
    (decOrdering ((fieldFN w).extractLsb' 2 2)).bind fun r => r2 (fun d a => .atom p c r d a ((fieldFN w).setWidth 2)) w

/-- Major 31 (R71, R359, R360). -/
def decMajor31 (w : Word) : Option Instr :=
  match ((fieldB w).extractLsb' 4 3).toNat with
  | 0 => (decScope ((fieldB w).setWidth 4)).bind fun c => r2 (fun d a => .monArm c d a (fieldFN w)) w
  | 1 => if fieldD w = 0 ∧ fieldA w = 0 ∧ (fieldB w).setWidth 4 = 0#4 ∧ fieldFN w = 0 then some .monWait else none
  | _ => none

/-- Major 32, `phase` (R71, R374). -/
def decMajor32 (w : Word) : Option Instr :=
  if fieldD w = 0 ∧ (fieldSel w).extractLsb' 4 7 = 0 ∧ fieldSub w = 0 ∧ fieldFN w = 0 then
    (decScope ((fieldSel w).setWidth 4)).bind fun c => some (.phase c)
  else none

/-- Major 33 (R71, R380, R399). -/
def decMajor33 (w : Word) : Option Instr :=
  if (fieldSel w).extractLsb' 3 8 = 0 ∧ fieldFN w = 0 then
    (decPath ((fieldSel w).setWidth 3)).bind fun p =>
      match (fieldSub w).toNat with
      | 0 => r1 (.wait p) w
      | 1 => r1 (.rdcnt p) w
      | _ => none
  else none

/-- Major 34 (R71, R209). -/
def decMajor34 (w : Word) : Option Instr :=
  if (fieldSel w).extractLsb' 5 6 = 0 ∧ fieldFN w = 0 then
    match (fieldSub w).toNat with
    | 0 => r1 (.latInit ((fieldSel w).setWidth 5)) w
    | 1 => if fieldD w = 0 then some (.latArr ((fieldSel w).setWidth 5)) else none
    | 2 => r1 (.latWait ((fieldSel w).setWidth 5)) w
    | 3 => if fieldD w = 0 then some (.latArw ((fieldSel w).setWidth 5)) else none
    | 4 => r1 (.latGen ((fieldSel w).setWidth 5)) w
    | _ => none
  else none

/-- Major 35 (R71, R334). -/
def decMajor35 (w : Word) : Option Instr :=
  if fieldD w = 0 ∧ (fieldSel w).extractLsb' 1 10 = 0 ∧ fieldFN w = 0 then
    match (fieldSub w).toNat with
    | 0 => some (.fork (if (fieldSel w).getLsbD 0 then .cp else .mx))
    | 1 => some (.join (if (fieldSel w).getLsbD 0 then .cp else .mx))
    | _ => none
  else none

/-- Major 36, `cp` (R71, R315). -/
def decMajor36 (w : Word) : Option Instr :=
  if (fieldSel w).extractLsb' 5 6 = 0 ∧ fieldSub w = 0 then
    r1 (fun d => .cp ((fieldSel w).setWidth 5) d (fieldFN w)) w
  else none

/-- Major 38 (R71, R123). -/
def decMajor38 (w : Word) : Option Instr :=
  let l := (fieldSel w).setWidth 5
  match (fieldSub w).toNat with
  | 5 => if (fieldSel w).extractLsb' 8 3 = 0 then
      (decMxCmd ((fieldSel w).extractLsb' 5 3)).bind fun c => r1 (fun d => .mxPost c l d (fieldFN w)) w else none
  | k => if (fieldSel w).extractLsb' 5 6 = 0 ∧ fieldFN w = 0 then
      match k with
      | 0 => r1 (.mxPrec l) w
      | 1 => r1 (.mxLdb l) w
      | 2 => r1 (.mxMm l) w
      | 3 => r1 (.mxSt l) w
      | 4 => r1 (.mxZero l) w
      | _ => none
    else none

/-- Major 3A (R71, R377). -/
def decMajor3A (w : Word) : Option Instr :=
  if (fieldSel w).extractLsb' 4 7 = 0 ∧ fieldFN w = 0 then
    (decScope ((fieldSel w).setWidth 4)).bind fun c =>
      match (fieldSub w).toNat with
      | 0 => r1 (.qSig c) w
      | 1 => r1 (.qWait c) w
      | _ => none
  else none

/-- Major 3B, `perf.set` (R71, R372). -/
def decMajor3B (w : Word) : Option Instr :=
  if fieldImm18 w = 0 then r1 .perfSet w else none

/-- Major 3C (R71, R79). -/
def decMajor3C (w : Word) : Option Instr :=
  if fieldFN w = 0 then
    match (fieldSub w).toNat with
    | 0 => r1 (.mfsr (fieldSel w)) w
    | 1 => r1 (.mtsr (fieldSel w)) w
    | _ => none
  else none

/-- Major 3D (R71, R223). -/
def decMajor3D (w : Word) : Option Instr :=
  if fieldD w = 0 ∧ fieldFN w = 0 then
    match (fieldSub w).toNat with
    | 0 => some (.trap (fieldSel w))
    | 1 => if fieldSel w = 0 then some .eret else none
    | _ => none
  else none

/-- Major 3E (R71, R243, R395). -/
def decMajor3E (w : Word) : Option Instr :=
  if (fieldSel w).extractLsb' 4 7 = 0 ∧ fieldFN w = 0 then
    match (fieldSub w).toNat with
    | 0 => r1 (.hngSet ((fieldSel w).setWidth 4)) w
    | 1 => if fieldD w = 0 then some (.hngClr ((fieldSel w).setWidth 4)) else none
    | 2 => r1 (.hngRd ((fieldSel w).setWidth 4)) w
    | 3 => (decScope ((fieldSel w).setWidth 4)).bind fun c => r1 (.tlbInv c) w
    | _ => none
  else none

/-- The word of a memory major: the form bit selects, or must be 0 (R71). -/
def decForm (f0 : Reg → Reg → BitVec 7 → BitVec 4 → Instr) (f1 : Option (Reg → Reg → BitVec 7 → BitVec 4 → Instr))
    (w : Word) : Option Instr := if formBit w then f1.bind fun f => rm f w else rm f0 w

/-- The instruction of a word by the opcode map (R71), before the operand classes are checked. -/
def decodeRaw (w : Word) : Option Instr :=
  match (majorOf w).toNat with
  | 0x00 => decMajor00 w
  | 0x01 => decMajor01 w
  | 0x02 => decMajor02 w
  | 0x03 => ri .addImm w
  | 0x04 => ri .andImm w
  | 0x05 => ri .orImm w
  | 0x06 => ri .xorImm w
  | 0x07 => decMajor07 w
  | 0x08 => r1 (fun d => .li d (fieldImm18 w)) w
  | 0x09 => r1 (fun d => .lih d (fieldImm18 w)) w
  | 0x0A => decMajor0A w
  | 0x0B => decMajor0B w
  | 0x0C => decMajor0C w
  | 0x0D => r3 (fun d a b => .sel d a b (decPred4 (fieldFN w))) w
  | 0x0E => decMajor0E w
  | 0x10 => decFloat false w
  | 0x11 => decFloat true w
  | 0x12 => decMajor12 w
  | 0x13 => decMajor13 w
  | 0x14 => decMajor14 w
  | 0x15 => decMajor15 w
  | 0x16 => decMajor16 w
  | 0x18 => decMajor18 w
  | 0x19 => decMajor19 w
  | 0x1A => decMajor1A w
  | 0x1B => decMajor1B w
  | 0x1C => decMajor1C w
  | 0x1D => decMajor1D w
  | 0x1E => decMajor1E w
  | 0x20 => decMajor20 w
  | 0x21 => decMajor21 w
  | 0x22 => decMajor22 w
  | 0x23 => decMajor23 w
  | 0x24 => decForm .ldB32 (some .ldB8) w
  | 0x25 => decForm .ldB64 (some .ldB16) w
  | 0x26 => decForm .ldB128 none w
  | 0x27 => decForm .ldI8 (some .ldI16) w
  | 0x28 => decForm .stB32 none w
  | 0x29 => decForm .stB64 none w
  | 0x2A => decForm .stB128 none w
  | 0x2B => decForm .stB8 (some .stB16) w
  | 0x2C => decForm .tld none w
  | 0x2D => decMajor2D w
  | 0x2E => decForm .lrB32 (some .lrB64) w
  | 0x2F => decForm .scB32 (some .scB64) w
  | 0x30 => decMajor30 w
  | 0x31 => decMajor31 w
  | 0x32 => decMajor32 w
  | 0x33 => decMajor33 w
  | 0x34 => decMajor34 w
  | 0x35 => decMajor35 w
  | 0x36 => decMajor36 w
  | 0x38 => decMajor38 w
  | 0x3A => decMajor3A w
  | 0x3B => decMajor3B w
  | 0x3C => decMajor3C w
  | 0x3D => decMajor3D w
  | 0x3E => decMajor3E w
  | _ => none

/-- The decoder: the legal instruction of a word, or none where the word is illegal (R78). -/
def decode (w : Word) : Option Instr := (decodeRaw w).bind fun i => if i.wf then some i else none

/-- The instruction of the table that a word of an instruction row stands for; the table numbers bits as the word does (R67). -/
def decodeTableWord (nbits w : Nat) : Option Instr := if nbits = 32 then decode (BitVec.ofNat 32 w) else none

/-- The word of an instruction with the stop bit `s` (R68 to R80); none for the steps that have no encoding. -/
def encodeRaw (s : Bool) : Instr → Option Word
  | .nop => some (encF3 s 0 0 0 0 0)
  | .exit => some (encF3 s 0 0 0 0 1)
  | .yield => some (encF3 s 0 0 0 0 2)
  | .brkpt t => some (encF3 s 0 t 0 0 3)
  | .add d a b => some (encF3 s 0x01 (encReg d) (encReg a) (encReg b) 0)
  | .sub d a b => some (encF3 s 0x01 (encReg d) (encReg a) (encReg b) 1)
  | .and d a b => some (encF3 s 0x01 (encReg d) (encReg a) (encReg b) 2)
  | .or d a b => some (encF3 s 0x01 (encReg d) (encReg a) (encReg b) 3)
  | .xor d a b => some (encF3 s 0x01 (encReg d) (encReg a) (encReg b) 4)
  | .andn d a b => some (encF3 s 0x01 (encReg d) (encReg a) (encReg b) 5)
  | .minSgn d a b => some (encF3 s 0x01 (encReg d) (encReg a) (encReg b) 6)
  | .maxSgn d a b => some (encF3 s 0x01 (encReg d) (encReg a) (encReg b) 7)
  | .minUns d a b => some (encF3 s 0x01 (encReg d) (encReg a) (encReg b) 8)
  | .maxUns d a b => some (encF3 s 0x01 (encReg d) (encReg a) (encReg b) 9)
  | .shl d a b => some (encF3 s 0x01 (encReg d) (encReg a) (encReg b) 10)
  | .shr d a b => some (encF3 s 0x01 (encReg d) (encReg a) (encReg b) 11)
  | .sra d a b => some (encF3 s 0x01 (encReg d) (encReg a) (encReg b) 12)
  | .rot d a b => some (encF3 s 0x01 (encReg d) (encReg a) (encReg b) 13)
  | .mov d a => some (encF3 s 0x01 (encReg d) (encReg a) 0 14)
  | .mulLo d a b => some (encF3 s 0x02 (encReg d) (encReg a) (encReg b) 0)
  | .mulHiSgn d a b => some (encF3 s 0x02 (encReg d) (encReg a) (encReg b) 1)
  | .mulHiUns d a b => some (encF3 s 0x02 (encReg d) (encReg a) (encReg b) 2)
  | .mad d a b => some (encF3 s 0x02 (encReg d) (encReg a) (encReg b) 3)
  | .bfx d a b => some (encF3 s 0x02 (encReg d) (encReg a) (encReg b) 4)
  | .bfi d a b => some (encF3 s 0x02 (encReg d) (encReg a) (encReg b) 5)
  | .addI16x2 d a b => some (encF3 s 0x02 (encReg d) (encReg a) (encReg b) 7)
  | .addI8x4 d a b => some (encF3 s 0x02 (encReg d) (encReg a) (encReg b) 8)
  | .subI16x2 d a b => some (encF3 s 0x02 (encReg d) (encReg a) (encReg b) 9)
  | .subI8x4 d a b => some (encF3 s 0x02 (encReg d) (encReg a) (encReg b) 10)
  | .minI16x2 d a b => some (encF3 s 0x02 (encReg d) (encReg a) (encReg b) 11)
  | .maxI16x2 d a b => some (encF3 s 0x02 (encReg d) (encReg a) (encReg b) 12)
  | .minI8x4 d a b => some (encF3 s 0x02 (encReg d) (encReg a) (encReg b) 13)
  | .maxI8x4 d a b => some (encF3 s 0x02 (encReg d) (encReg a) (encReg b) 14)
  | .clz d a => some (encF3 s 0x02 (encReg d) (encReg a) 0 6)
  | .popc d a => some (encF3 s 0x02 (encReg d) (encReg a) 1 6)
  | .brev d a => some (encF3 s 0x02 (encReg d) (encReg a) 2 6)
  | .not d a => some (encF3 s 0x02 (encReg d) (encReg a) 3 6)
  | .absI32 d a => some (encF3 s 0x02 (encReg d) (encReg a) 4 6)
  | .absI16x2 d a => some (encF3 s 0x02 (encReg d) (encReg a) 5 6)
  | .absI8x4 d a => some (encF3 s 0x02 (encReg d) (encReg a) 6 6)
  | .negI32 d a => some (encF3 s 0x02 (encReg d) (encReg a) 7 6)
  | .negI16x2 d a => some (encF3 s 0x02 (encReg d) (encReg a) 8 6)
  | .negI8x4 d a => some (encF3 s 0x02 (encReg d) (encReg a) 9 6)
  | .addImm d a i => some (encFI s 0x03 (encReg d) (encReg a) i)
  | .andImm d a i => some (encFI s 0x04 (encReg d) (encReg a) i)
  | .orImm d a i => some (encFI s 0x05 (encReg d) (encReg a) i)
  | .xorImm d a i => some (encFI s 0x06 (encReg d) (encReg a) i)
  | .shlImm d a k => some (encFI s 0x07 (encReg d) (encReg a) (0#4 ++ 0#2 ++ k))
  | .shrImm d a k => some (encFI s 0x07 (encReg d) (encReg a) (0#4 ++ 1#2 ++ k))
  | .sraImm d a k => some (encFI s 0x07 (encReg d) (encReg a) (0#4 ++ 2#2 ++ k))
  | .rotImm d a k => some (encFI s 0x07 (encReg d) (encReg a) (0#4 ++ 3#2 ++ k))
  | .li d i => some (encFL s 0x08 (encReg d) i)
  | .lih d i => some (encFL s 0x09 (encReg d) i)
  | .cmp c p a b => some (encF3 s 0x0A (encICond c ++ BitVec.ofNat 3 p.val) (encReg a) (encReg b) 0)
  | .cmpImm c p a i => some (encFI s 0x0B (encICond c ++ BitVec.ofNat 3 p.val) (encReg a) i)
  | .pand d a b => some (encF3 s 0x0C (BitVec.ofNat 7 d.val) (0#3 ++ encPred a) (0#3 ++ encPred b) 0)
  | .por d a b => some (encF3 s 0x0C (BitVec.ofNat 7 d.val) (0#3 ++ encPred a) (0#3 ++ encPred b) 1)
  | .pxor d a b => some (encF3 s 0x0C (BitVec.ofNat 7 d.val) (0#3 ++ encPred a) (0#3 ++ encPred b) 2)
  | .pnot d a => some (encF3 s 0x0C (BitVec.ofNat 7 d.val) (0#3 ++ encPred a) 0 3)
  | .sel d a b p => some (encF3 s 0x0D (encReg d) (encReg a) (encReg b) (encPred p))
  | .movs d a b => some (encF3 s 0x0E (encReg d) (encReg a) (encReg b) 0)
  | .rdl d a b => some (encF3 s 0x0E (encReg d) (encReg a) (encReg b) 1)
  | .fadd w d a b => some (encF3 s (0x08#5 ++ BitVec.ofBool w) (encReg d) (encReg a) (encReg b) 0)
  | .fsub w d a b => some (encF3 s (0x08#5 ++ BitVec.ofBool w) (encReg d) (encReg a) (encReg b) 1)
  | .fmul w d a b => some (encF3 s (0x08#5 ++ BitVec.ofBool w) (encReg d) (encReg a) (encReg b) 2)
  | .fmin w d a b => some (encF3 s (0x08#5 ++ BitVec.ofBool w) (encReg d) (encReg a) (encReg b) 3)
  | .fmax w d a b => some (encF3 s (0x08#5 ++ BitVec.ofBool w) (encReg d) (encReg a) (encReg b) 4)
  | .fabs w d a => some (encF3 s (0x08#5 ++ BitVec.ofBool w) (encReg d) (encReg a) 0 5)
  | .fneg w d a => some (encF3 s (0x08#5 ++ BitVec.ofBool w) (encReg d) (encReg a) 0 6)
  | .faddPacked f d a b => some (encF3 s 0x12 (encReg d) (encReg a) (encReg b) (BitVec.ofBool f ++ 0#3))
  | .fsubPacked f d a b => some (encF3 s 0x12 (encReg d) (encReg a) (encReg b) (BitVec.ofBool f ++ 1#3))
  | .fmulPacked f d a b => some (encF3 s 0x12 (encReg d) (encReg a) (encReg b) (BitVec.ofBool f ++ 2#3))
  | .fminPacked f d a b => some (encF3 s 0x12 (encReg d) (encReg a) (encReg b) (BitVec.ofBool f ++ 3#3))
  | .fmaxPacked f d a b => some (encF3 s 0x12 (encReg d) (encReg a) (encReg b) (BitVec.ofBool f ++ 4#3))
  | .fabsPacked f d a => some (encF3 s 0x12 (encReg d) (encReg a) 0 (BitVec.ofBool f ++ 5#3))
  | .fnegPacked f d a => some (encF3 s 0x12 (encReg d) (encReg a) 0 (BitVec.ofBool f ++ 6#3))
  | .ffmaPacked f d a b => some (encF3 s 0x12 (encReg d) (encReg a) (encReg b) (BitVec.ofBool f ++ 7#3))
  | .ffma w r d a b => some (encF3 s 0x13 (encReg d) (encReg a) (encReg b) (BitVec.ofBool w ++ encRnd3 r))
  | .fcmp w c p a b => some (encF3 s 0x14 (encFCond c ++ BitVec.ofNat 3 p.val) (encReg a) (encReg b) (0#3 ++ BitVec.ofBool w))
  | .frcp f d a n => some (encF3 s 0x15 (encReg d) (encReg a) (0#2 ++ encTFmt f ++ 0#3) n)
  | .frsq f d a n => some (encF3 s 0x15 (encReg d) (encReg a) (0#2 ++ encTFmt f ++ 1#3) n)
  | .fsqrt f d a n => some (encF3 s 0x15 (encReg d) (encReg a) (0#2 ++ encTFmt f ++ 2#3) n)
  | .fexp2 f d a n => some (encF3 s 0x15 (encReg d) (encReg a) (0#2 ++ encTFmt f ++ 3#3) n)
  | .flog2 f d a n => some (encF3 s 0x15 (encReg d) (encReg a) (0#2 ++ encTFmt f ++ 4#3) n)
  | .fsin f d a n => some (encF3 s 0x15 (encReg d) (encReg a) (0#2 ++ encTFmt f ++ 5#3) n)
  | .fcos f d a n => some (encF3 s 0x15 (encReg d) (encReg a) (0#2 ++ encTFmt f ++ 6#3) n)
  | .cvt x y r d a => some (encF3 s 0x16 (encReg d) (encReg a) (0#1 ++ encCvtTy x ++ encCvtTy y) (encRnd4 r))
  | .vote k d p => some (encF3 s 0x18 (encReg d) (0#3 ++ encPred p) 0 (encVote k))
  | .shfl k d a b => some (encF3 s 0x19 (encReg d) (encReg a) (encReg b) (encShfl k))
  | .red o t d a => some (encF3 s 0x1A (encReg d) (encReg a) (0#6 ++ BitVec.ofBool t) (0#1 ++ encRed o))
  | .scan o t x d a => some (encF3 s 0x1A (encReg d) (encReg a) (0#5 ++ BitVec.ofBool x ++ BitVec.ofBool t) (1#1 ++ encRed o))
  | .matchKey k r d a => some (encF3 s 0x1B (encReg d) (encReg a) 0 (0#1 ++ BitVec.ofBool r ++ encKey k))
  | .bind a => some (encF3 s 0x1C 0 (encReg a) 0 0)
  | .unbind => some (encF3 s 0x1C 0 0 0 1)
  | .ladd d a b => some (encF3 s 0x1D (encReg d) (encReg a) (encReg b) 0)
  | .lsub d a b => some (encF3 s 0x1D (encReg d) (encReg a) (encReg b) 1)
  | .lshl d a b => some (encF3 s 0x1D (encReg d) (encReg a) (encReg b) 4)
  | .lshr d a b => some (encF3 s 0x1D (encReg d) (encReg a) (encReg b) 5)
  | .lmul d a b => some (encF3 s 0x1D (encReg d) (encReg a) (encReg b) 6)
  | .lmulAddend d a b => some (encF3 s 0x1D (encReg d) (encReg a) (encReg b) 7)
  | .lneg d a => some (encF3 s 0x1D (encReg d) (encReg a) 0 2)
  | .lcmp a b => some (encF3 s 0x1D 0 (encReg a) (encReg b) 3)
  | .wbase a i => some (encFI s 0x1E 0 (encReg a) i)
  | .br o => some (encFL s 0x20 0 o)
  | .brc p o => some (encFL s 0x20 (1#3 ++ encPred p) o)
  | .call o => some (encFL s 0x21 0 o)
  | .ret => some (encFL s 0x21 0x10 0)
  | .jmp a => some (encFL s 0x21 0x20 (encReg a ++ 0#11))
  | .ifp p o => some (encFL s 0x22 (1#3 ++ encPred p) o)
  | .elsep o => some (encFL s 0x22 0x20 o)
  | .endif => some (encFL s 0x22 0x30 0)
  | .loopBeg => some (encFL s 0x23 0 0)
  | .loopEnd o => some (encFL s 0x23 0x10 o)
  | .brk p d => some (encFL s 0x23 (2#3 ++ encPred p) (0#10 ++ d))
  | .cont p d => some (encFL s 0x23 (3#3 ++ encPred p) (0#10 ++ d))
  | .ldB32 d a o n => some (encF3 s 0x24 (encReg d) (encBase a 0) o n)
  | .ldB8 d a o n => some (encF3 s 0x24 (encReg d) (encBase a 1) o n)
  | .ldB64 d a o n => some (encF3 s 0x25 (encReg d) (encBase a 0) o n)
  | .ldB16 d a o n => some (encF3 s 0x25 (encReg d) (encBase a 1) o n)
  | .ldB128 d a o n => some (encF3 s 0x26 (encReg d) (encBase a 0) o n)
  | .ldI8 d a o n => some (encF3 s 0x27 (encReg d) (encBase a 0) o n)
  | .ldI16 d a o n => some (encF3 s 0x27 (encReg d) (encBase a 1) o n)
  | .stB32 d a o n => some (encF3 s 0x28 (encReg d) (encBase a 0) o n)
  | .stB64 d a o n => some (encF3 s 0x29 (encReg d) (encBase a 0) o n)
  | .stB128 d a o n => some (encF3 s 0x2A (encReg d) (encBase a 0) o n)
  | .stB8 d a o n => some (encF3 s 0x2B (encReg d) (encBase a 0) o n)
  | .stB16 d a o n => some (encF3 s 0x2B (encReg d) (encBase a 1) o n)
  | .tld d a o n => some (encF3 s 0x2C (encReg d) (encBase a 0) o n)
  | .pf a o n => some (encF3 s 0x2D 0 (encBase a 0) o n)
  | .lrB32 d a o n => some (encF3 s 0x2E (encReg d) (encBase a 0) o n)
  | .lrB64 d a o n => some (encF3 s 0x2E (encReg d) (encBase a 1) o n)
  | .scB32 d a o n => some (encF3 s 0x2F (encReg d) (encBase a 0) o n)
  | .scB64 d a o n => some (encF3 s 0x2F (encReg d) (encBase a 1) o n)
  | .atom p c r d a n => some (encF3 s 0x30 (encReg d) (encReg a) (encAtom p ++ encScope c) (encOrdering r ++ n))
  | .monArm c d a n => some (encF3 s 0x31 (encReg d) (encReg a) (0#3 ++ encScope c) n)
  | .monWait => some (encF3 s 0x31 0 0 0x10 0)
  | .phase c => some (encFS s 0x32 0 (0#7 ++ encScope c) 0 0)
  | .wait p d => some (encFS s 0x33 (encReg d) (0#8 ++ encPath p) 0 0)
  | .rdcnt p d => some (encFS s 0x33 (encReg d) (0#8 ++ encPath p) 1 0)
  | .latInit l d => some (encFS s 0x34 (encReg d) (0#6 ++ l) 0 0)
  | .latArr l => some (encFS s 0x34 0 (0#6 ++ l) 1 0)
  | .latWait l d => some (encFS s 0x34 (encReg d) (0#6 ++ l) 2 0)
  | .latArw l => some (encFS s 0x34 0 (0#6 ++ l) 3 0)
  | .latGen l d => some (encFS s 0x34 (encReg d) (0#6 ++ l) 4 0)
  | .fork e => some (encFS s 0x35 0 (match e with | .mx => 0 | .cp => 1) 0 0)
  | .join e => some (encFS s 0x35 0 (match e with | .mx => 0 | .cp => 1) 1 0)
  | .cp l d n => some (encFS s 0x36 (encReg d) (0#6 ++ l) 0 n)
  | .mxPrec l d => some (encFS s 0x38 (encReg d) (0#6 ++ l) 0 0)
  | .mxLdb l d => some (encFS s 0x38 (encReg d) (0#6 ++ l) 1 0)
  | .mxMm l d => some (encFS s 0x38 (encReg d) (0#6 ++ l) 2 0)
  | .mxSt l d => some (encFS s 0x38 (encReg d) (0#6 ++ l) 3 0)
  | .mxZero l d => some (encFS s 0x38 (encReg d) (0#6 ++ l) 4 0)
  | .mxPost c l d n => some (encFS s 0x38 (encReg d) (0#3 ++ encMxCmd c ++ l) 5 n)
  | .qSig c d => some (encFS s 0x3A (encReg d) (0#7 ++ encScope c) 0 0)
  | .qWait c d => some (encFS s 0x3A (encReg d) (0#7 ++ encScope c) 1 0)
  | .perfSet d => some (encFL s 0x3B (encReg d) 0)
  | .mfsr x d => some (encFS s 0x3C (encReg d) x 0 0)
  | .mtsr x d => some (encFS s 0x3C (encReg d) x 1 0)
  | .trap c => some (encFS s 0x3D 0 c 0 0)
  | .eret => some (encFS s 0x3D 0 0 1 0)
  | .hngSet e d => some (encFS s 0x3E (encReg d) (0#7 ++ e) 0 0)
  | .hngClr e => some (encFS s 0x3E 0 (0#7 ++ e) 1 0)
  | .hngRd e d => some (encFS s 0x3E (encReg d) (0#7 ++ e) 2 0)
  | .tlbInv c d => some (encFS s 0x3E (encReg d) (0#7 ++ encScope c) 3 0)
  | _ => none

/-- The word of a well-formed instruction with the stop bit `s`. -/
def encode (s : Bool) (i : Instr) : Option Word := if i.wf then encodeRaw s i else none

end Sys2Proof
end

