-- ==== Sys2Proof/Config.lean ====
section
/-! DEFINITION. What one N4 fixes, and the free values: constants with no body, of which nothing can be proved but that they have some value. -/

namespace Sys2Proof.Config

/-- Cores of a package: 4 dies of 18 clusters of 8 cores (R1, R2). -/
def coresPerDie : Nat := 144
/-- Clusters of a die (R1). -/
def clustersPerDie : Nat := 18
/-- Cores of a package (R2). -/
def cores : Nat := 576
/-- Clusters of a package (R2). -/
def clusters : Nat := 72
/-- Command queues and token queues of a package (R42, R376). -/
def queues : Nat := 58
/-- Lines of 64 bytes in a core's instruction cache of 64 KiB (R2). -/
def textLines : Nat := 1024
/-- Bytes of main memory of a package: 512 GiB (R2). -/
def memBytes : Nat := 549755813888
/-- Bytes of a scratchpad (R2). -/
def spadBytes : Nat := 524288
/-- Bytes of the scratchpad that remain usable under race detection: 320 KiB (R262). -/
def spadUsableRace : Nat := 327680
/-- Bytes of the accumulator buffer (R143). -/
def accBytes : Nat := 262144
/-- Issue cycles after which a passed-over team is lifted (R202). -/
def liftAfter : Nat := 256
/-- The largest byte budget of a cluster for 1 µs (R291). -/
def budMax : Nat := 4194304
/-- The smallest byte budget of a cluster for 1 µs (R291). -/
def budMin : Nat := 4096
/-- The package power ceiling in watts (R276). -/
def powerCeiling : Nat := 3400
/-- The Eveno replay buffer, in packets (R283). -/
def replayPackets : Nat := 512
/-- Receiver buffer of one virtual channel, in flits, and the PAUSE and RESUME levels (R284). -/
def rxFlits : Nat := 4096
def pauseBelow : Nat := 3200
def resumeAt : Nat := 3584

/-- FREE VALUE (log 4): how many 1 GHz ticks TIME advances in the model's n-th step (R80 fixes the rate, no rule the ticks between two words). -/
opaque ticks : Nat → Nat
/-- FREE VALUE (log 27): the fused ceiling of the boiling-limit cap, in W per square centimetre (R276, R295). -/
opaque fluxCeiling : Nat
/-- FREE VALUE (log 27): the fused ceiling of the die cap, in watts (R276). -/
opaque dieCeiling : Nat
/-- FREE VALUE (log 28): the certificate chain bytes of slot 0 (R275). -/
opaque certificate : Nat → Sys2Proof.Byte
/-- FREE VALUE (log 28): the digest of the certificate chain (R275). -/
opaque certDigest : Nat → BitVec 512
/-- FREE VALUE (log 28): an ECDSA P-521 signature over the n-th reply (R2, R275). -/
opaque signature : Nat → BitVec 1056
/-- FREE VALUE (log 28): a world's encryption key at its n-th creation (R272). -/
opaque worldKey : Nat → BitVec 512
/-- FREE VALUE (log 28): the key shares of a KEY_EXCHANGE reply (R275). -/
opaque keyShare : Nat → BitVec 1056
/-- FREE VALUE (log 28): the nonce of a CHALLENGE reply (R275). -/
opaque nonce : Nat → BitVec 256
/-- FREE VALUE (log 35): byte `i` of a context image written at the model's n-th step (R225 gives its contents and no order). -/
opaque imageByte : Nat → Nat → Sys2Proof.Byte
/-- FREE VALUE (log 44): a byte of main memory whose page has another key or protection than it was written under (R272). -/
opaque staleByte : Nat → Nat → Sys2Proof.Byte
/-- FREE VALUE (log 34): the cause inside a cycle that a team, named by its key, meets at a snapshot latch (R232, R265), where its state allows one. -/
opaque cycleCause : Nat → Nat → Nat
/-- FREE VALUE (log 44): the first page of Tumbler's metadata region within the 64 GiB of an HBM4 stack (R272 gives its size and not its place). -/
opaque metaPage : Nat → Nat
/-- Pages of 64 KiB of one HBM4 stack: 64 GiB (R272). -/
def stackPages : Nat := 1048576
/-- Pages of the metadata region of one stack: 8 GiB (R272). -/
def metaPages : Nat := 131072

end Sys2Proof.Config
end

