-- ==== Sys2Proof/Machine/State.lean ====
section
/-! DEFINITION. The state of one N4 package, as plain data. The running program context, its block, its core and its launch stand in fields of their own (`team`, `blk`, `core`, `launch`); all the others stand in tables. -/

namespace Sys2Proof.Machine

/-- A program context is a team, or one of the two streams of a block (R20, R132, R163). -/
inductive CtxKind where
  | team | mxStream | cpStream
  deriving DecidableEq, Repr

/-- KIND of a control-level entry (R33). -/
inductive LevelKind where
  | thenPath | elsePath | loop
  deriving DecidableEq, Repr

/-- A control-level entry (R33), with the offset that its `if` recorded (R30) and the issue-cycle count at which it opened (R34). -/
structure Level where
  kind : LevelKind
  hasElse : Bool
  start : Nat := 0
  target : Nat := 0
  deriving DecidableEq, Repr

/-- The suspended-path slot (R34), with the depth of the control level it belongs to. -/
inductive PathSlot where
  | empty
  | held (threads : List Nat) (pc depth : Nat)
  | done (depth : Nat)
  deriving DecidableEq, Repr

/-- What trap entry saves and `eret` restores (R221, R319). -/
structure TrapCtx where
  resume : Nat
  cnt : Tbl Nat
  stack : List Level
  slot : PathSlot
  fair : Nat
  lastSwitch : Nat
  limbs : Nat
  limbf : BitVec 4
  deriving DecidableEq, Repr

/-- A 64-byte line at its home (R166): a line of a package's main memory, of the block's scratchpad, or of host memory. -/
inductive LineRef where
  | home (pkg line : Nat)
  | spad (blk line : Nat)
  | hostLine (line : Nat)
  deriving DecidableEq, Repr

/-- The level of R167 at which a home lies. -/
inductive Level3 where
  | coreView | cluster | home
  deriving DecidableEq, Repr

/-- A team's monitor state (R191). -/
inductive MonState where
  | idle | armed | triggered
  deriving DecidableEq, Repr

/-- An `lr` that a path has executed and whose matching `sc` it has not (R36): the threads of that path, the thread that reserved (1,024: the scalar front-end), and the line. -/
structure OpenLr where
  path : List Nat
  thread : Nat
  line : LineRef
  deriving DecidableEq, Repr

/-- A location of R166: one byte of one memory. -/
inductive Loc where
  | view (phys : Nat)
  | home (pkg phys : Nat)
  | spad (off : Nat)
  | acc (off : Nat)
  | priv (thread off : Nat)
  | hostMem (addr : Nat)
  deriving DecidableEq, Repr

/-- One byte of a store that its home has not accepted yet, with the thread that wrote it (1,024: the scalar front-end). -/
structure PendingByte where
  loc : Loc
  byte : Byte
  thread : Nat
  deriving DecidableEq, Repr

/-- What an in-flight access is (R27, R28). -/
inductive AccKind where
  | load | store | atomic | tld | pf | trans | copy | matrix
  deriving DecidableEq, Repr

/-- One in-flight access of a team, in issue order (R28): the paths on whose counters it still counts, whether all of it has completed, and the paths on which its part has; `ptr` the pointer of its lowest thread. -/
structure Access where
  kind : AccKind
  paths : List Path
  done : Bool := false
  donePaths : List Path := []
  pc : Nat := 0
  threads : List Nat := []
  writes : List PendingByte := []
  tag : Nat := 0
  ptr : DWord := 0
  deriving DecidableEq, Repr

/-- Where a register result goes: the first of `n` physical vector registers, or of `n` scalar registers. -/
inductive Dest where
  | vec (reg : Nat)
  | scal (reg : Nat)
  | none
  deriving DecidableEq, Repr

/-- An outstanding register result of a long-latency word (R25): its values by thread, the bits it writes (R82), the words after which it is written, and the word that issued it. -/
structure Pending where
  dst : Dest
  vals : List (Nat × List Word)
  left : Nat
  mask : Word := 0xFFFFFFFF
  pc : Nat := 0
  deriving DecidableEq, Repr

/-- What a parked context waits for (R206): `full` is a path counter at 255 (R28), `fifo` a full FIFO, `streamDone` a stream's own work (R133), `replay` a recorded party (R268), `link` a link that moves data (R285), `capture` the end of the hold after a captured execution (R239), as a step of the model, and `trap` the completion of the earlier accesses before a trap is entered (R221). -/
inductive Park where
  | path (p : Path) (k : Nat)
  | full (p : Path)
  | latch (l gen : Nat)
  | monitor
  | join (e : Engine)
  | fork (e : Engine)
  | qSend (q : Nat) (token : Word) (scope : Scope)
  | qRecv (q reg : Nat)
  | fifo (e : Engine)
  | streamDone
  | replay (loc party : Nat)
  | link
  | capture (deadline : Nat)
  | trap (c : TrapCause)
  deriving DecidableEq, Repr

/-- The origin of an engine command (R131, R161): a team of the block, by its key as it stands and its index in the block, which names it alone (R80), or a stream. -/
inductive Origin where
  | team (key index : Nat)
  | mxStream
  | cpStream
  deriving DecidableEq, Repr

/-- An engine fault that awaits delivery (R131, R133, R161): to a team at one of the words that take it. -/
structure EngFault where
  engine : Engine
  origin : Origin
  cause : TrapCause
  deriving DecidableEq, Repr

/-- A candidate's words that a team is running in place of its region (R245): what is left of them, and where the region ends. -/
structure CandRun where
  words : List Word
  entry : Nat
  regionEnd : Nat
  deriving DecidableEq, Repr

/-- One capture (R238): thread, block, live-in and live-out words, predicate bits and event counts. -/
structure CapRec where
  thread : Nat
  bix : Nat
  ins : List Word
  outs : List Word
  pin : Nat
  pout : Nat
  ev : Tbl Nat
  deriving DecidableEq, Repr

/-- A capture in progress (R237 to R239): slot, thread, region, where its last word stands, the live-ins read at its first word, and the thread's events so far. -/
structure CaptureRun where
  slot : Nat
  thread : Nat
  start : Nat
  last : Nat
  ins : List Word
  pin : Nat
  inTrap : Bool
  ev : Tbl Nat := []
  deriving DecidableEq, Repr

/-- What the front-end keeps of a scalar word that it has executed ahead of the team's queued vector words (R23, R222): where the fetch went on, the scalar registers that the word has written, and the entries of the undo log, which hold their old values. -/
structure RanWord where
  next : Nat
  regs : List (Nat × Word)
  old : List (Nat × Word)
  deriving DecidableEq, Repr

/-- A word that the front-end has taken ahead of the team's program counter, with its byte offset: a vector word in the decision queue (R20, R21), or a scalar word that has been executed ahead (R222). -/
structure QueueWord where
  pc : Nat
  word : Word
  ran : Option RanWord := none
  deriving DecidableEq, Repr

/-- A program context: a team (R10-R44), or a stream's sequencer seen as a team of one thread (R133, R299). `perfNow` is the REQ that its cluster's level counts, `promised` the FIFO of which an entry is promised to it (R136, R160), `raised` the tag of the copy that has raised the C counter and waits for its FIFO entry (R315), `shadow` how many words its open lookahead shadows still cover (R24, R237), `auditHeld` the region's first word at which an audit holds it (R244), `hitAt` the word at which a debugger has resumed it (R257), `awaited` the results, with their sizes in registers, that have just become due: a word that reads or writes one has waited for it (R25). `queue` is what the front-end has taken ahead, oldest first: the decision queue with its vector words (R20, R21), and between them the scalar words executed ahead with their undo log (R222); `pc`, `s` and all else stand where the queue's first word finds them. `issuing` is the number of passes of the word that runs, `issPc` and `issWord` the vector word that has issued last, and `owed` the issue cycles of those of its passes that have not issued yet (R13, R201); `holdFor` the length of a capture's hold that has not begun (R239). -/
structure Team where
  kind : CtxKind := .team
  key : Nat := 0
  coreId : Nat := 0
  qtr : Nat := 0
  slot : Nat := 0
  index : Nat := 0
  blkKey : Nat := 0
  launchUid : Nat := 0
  threads : Nat := 0
  regs : Nat := 0
  pc : Nat := 0
  v : Tbl (Tbl Word) := []
  s : Tbl Word := []
  p : Tbl Bool := []
  cnt : Tbl Nat := []
  exited : Tbl Bool := []
  stack : List Level := []
  pathSlot : PathSlot := .empty
  fair : Nat := 0
  lastSwitch : Nat := 0
  deferred : Option Nat := none
  openLr : List OpenLr := []
  wb : Nat := 0
  part : Nat := 32
  tprio : Nat := 0
  rnd : BitVec 2 := 0
  pen : BitVec 2 := 3
  limbs : Nat := 0
  limbf : BitVec 4 := 0
  perfReq : Nat := 15
  perfNow : Nat := 15
  faultMask : Tbl Word := []
  faultInfo : Tbl Word := []
  trapCtx : Option TrapCtx := none
  mon : MonState := .idle
  monLines : List (LineRef × Level3) := []
  resv : Tbl (Option LineRef) := []
  scalarResv : Option LineRef := none
  inflight : List Access := []
  pend : List Pending := []
  awaited : List (Dest × Nat) := []
  parked : Option Park := none
  joined : Bool := false
  promised : Option Engine := none
  raised : Option Nat := none
  shadow : Nat := 0
  stops : List StopCause := []
  stopped : Bool := false
  held : Bool := false
  fresh : Bool := false
  hitBps : List Nat := []
  hitAt : Option Nat := none
  queue : List QueueWord := []
  issuing : Nat := 1
  issPc : Nat := 0
  issWord : Instr := .nop
  owed : List Nat := []
  holdFor : Nat := 0
  passed : Nat := 0
  yielded : Bool := false
  engFaults : List EngFault := []
  escapes : List Nat := []
  cand : Option CandRun := none
  captured : Bool := false
  capturing : Option CaptureRun := none
  probation : Option (Nat × Nat) := none
  decided : Option Nat := none
  auditHeld : Option Nat := none
  priv : Mem := []
  ended : Bool := false
  deriving DecidableEq, Repr

/-- A latch word (R208). -/
structure Latch where
  gen : BitVec 16 := 0
  exp : BitVec 8 := 1
  arr : BitVec 8 := 0
  deriving DecidableEq, Repr

/-- An exponent-file entry (R116): a 12-bit signed group exponent and a NaN bit. -/
structure ExpEntry where
  exp : BitVec 12 := 0
  nan : Bool := false
  deriving DecidableEq, Repr

/-- A watch that an engine operation has hit (R260, R261): its index, whether the origin had exited before the write, TIME at the hit, and the space and lowest byte hit. -/
structure WatchNote where
  watch : Nat
  exited : Bool
  time : BitVec 64
  space : Nat
  low : Nat
  deriving DecidableEq, Repr

/-- A command in the matrix FIFO (R136): its kind, latch, operand words and origin; `started` once it has entered the engine, `checked` once its checks have passed, `finished` once it has run; `hits` the watches that its writes have hit. -/
structure MxEntry where
  cmd : MxCmd
  latch : Nat
  ops : List Word
  firstReg : Nat
  origin : Origin
  tag : Nat := 0
  pc : Nat := 0
  started : Bool := false
  checked : Bool := false
  finished : Bool := false
  fault : Option TrapCause := none
  hits : List WatchNote := []
  mtsr : Bool := false
  deriving DecidableEq, Repr

/-- A copy in the copy FIFO (R159, R160): record words, latch, origin, and the watches hit as for a matrix command. -/
structure CpEntry where
  record : List Word
  latch : Nat
  origin : Origin
  tag : Nat := 0
  pc : Nat := 0
  finished : Bool := false
  fault : Option TrapCause := none
  hits : List WatchNote := []
  deriving DecidableEq, Repr

/-- A shadow entry of the race detector (R262). -/
structure RaceEntry where
  v : Bool := false
  wslot : Nat := 0
  wgen : Nat := 0
  deriving DecidableEq, Repr

/-- A block and the engine set it claims (R39, R199, R225), its race detector's shadow (R262), and its snapshot set (R265; zeros before the first latch, log 37). -/
structure Block where
  key : Nat := 0
  launchUid : Nat := 0
  bix : Nat := 0
  coreId : Nat := 0
  origin : Nat := 0
  claims : Bool := false
  scratch : Nat := 0
  teamCount : Nat := 0
  teamsLeft : Nat := 0
  spad : Mem := []
  spadPoison : Tbl Nat := []
  acc : Mem := []
  planes : Mem := []
  signs : Mem := []
  exps : Tbl ExpEntry := []
  precb : Tbl QWord := []
  mxp : Word := 0x1708
  wovf : Bool := false
  mxprog : Nat := 0
  cpprog : Nat := 0
  mxFifo : List MxEntry := []
  cpFifo : List CpEntry := []
  latches : Tbl Latch := []
  mxRun : Bool := false
  cpRun : Bool := false
  mxEntry : Option Nat := none
  cpEntry : Option Nat := none
  streamFaults : List EngFault := []
  race : Tbl RaceEntry := []
  snap : List Word := List.replicate 70 0
  mxForkPc : Nat := 0
  cpForkPc : Nat := 0
  deriving DecidableEq, Repr

/-- A dirty byte of a view: a store that has reached the view and not yet the next level, with the thread that made it. -/
structure DirtyByte where
  byte : Byte
  team : Nat
  thread : Nat
  deriving DecidableEq, Repr

/-- A view of global and code memory (R167): the lines it holds (64 bytes each, by line number), the codes of their bytes that were lost when the line was read (R228), and the stores not yet written down. -/
structure View where
  lines : Tbl (Option (List Byte)) := []
  lost : Tbl Nat := []
  dirty : Tbl (Option DirtyByte) := []
  deriving DecidableEq, Repr

/-- A leaf of the translation tables as a buffer holds it (R226, R227). `base` is the first offset it covers; `big` a 16 MiB leaf. -/
structure TlbEntry where
  root : Nat
  base : Nat
  big : Bool
  frame : Nat
  rowlen : Nat
  efmt : Nat
  geo : Bool
  alias_ : Bool
  sa : Nat
  x : Bool
  w : Bool
  rd : Bool
  deriving DecidableEq, Repr

/-- A pending comparison of a hinge entry (R246): the team whose execution it compares, whether it is the audit, whether the two runs agree, and the cycles it has waited for an idle slot since the execution's last pass. -/
structure Comparison where
  team : Nat
  audit : Bool
  clean : Bool
  waited : Nat := 0
  deriving DecidableEq, Repr

/-- A hinge entry (R242, R250): descriptor, candidate text, owning launch, RAN bits, block record, comparisons made and pending. -/
structure Hinge where
  desc : QWord := 0
  text : List Word := []
  launchUid : Nat := 0
  ran : List Nat := []
  blocks : List Nat := []
  more : Bool := false
  made : Nat := 0
  pending : List Comparison := []
  deriving DecidableEq, Repr

/-- The capture unit (R237): whether it is armed, its launch, region start and length (words minus 1), captures taken. -/
structure CaptureUnit where
  armed : Bool
  launchUid : Nat
  start : Nat
  olen : Nat
  taken : Nat
  deriving DecidableEq, Repr

/-- What one quarter holds beside its teams (R202, R230). -/
structure Quarter where
  sampctl : Word := 0x00010000
  samplePtr : Nat := 0
  rp : Nat := 0
  deriving DecidableEq, Repr

/-- A core beside its teams and blocks: its view, translation buffer, pages (root, offset) whose next fill is a walk because a `tlb.inv` named them, hinge table, capture unit, samples, its scratchpad's queue of pending race records with their launches (R262), and the slot that its front-end served last, and the lines of text in its instruction cache, by physical line number, the newest first (R2, R20, R167, R227, R237, R242, R395). -/
structure Core where
  id : Nat := 0
  view : View := {}
  tlb : List TlbEntry := []
  walks : List (Nat × Nat) := []
  hinges : Tbl Hinge := []
  capUnit : Option CaptureUnit := none
  captures : List CapRec := []
  tested : List Word := []
  quarters : Tbl Quarter := []
  samples : List (Nat × Nat) := []
  raceQueue : List (Nat × List Word) := []
  lastServed : Nat := 63
  icache : List Nat := []
  deriving DecidableEq, Repr

/-- A cluster: its unit (R167), translation buffer (R227), level caps, the cap that CUR counts since the last evaluation (R292), CUR and the level that its driving clock runs at (R217, R290), the idle generator's target level and lock during a handover (R290), its body bias in millivolts (R289), and byte budget (R291). -/
structure Cluster where
  view : View := {}
  tlb : List TlbEntry := []
  cap : Nat := 15
  hostCap : Nat := 15
  capNow : Nat := 15
  cur : Nat := 15
  clock : Nat := 15
  idleGen : Option (Nat × Bool) := none
  bias : Nat := 0
  bud : Nat := 4194304
  spent : Nat := 0
  waiting : Nat := 0
  deriving DecidableEq, Repr

/-- A step of a die's controller (R292). -/
inductive CtlStep where
  | budget (cluster : Nat)
  | level (cluster : Nat)
  deriving DecidableEq, Repr

/-- A compute die's power state (R288, R289, R292, R295), with its quadrant power estimates in tenths of a watt. -/
structure Die where
  steps : List CtlStep := []
  railMv : Nat := 950
  cap : Nat := 760
  power : Nat := 0
  quads : List Nat := [0, 0, 0, 0]
  flux : Bool := false
  corrected : Nat := 0
  deriving DecidableEq, Repr

/-- The main memory of one package with its page owner table, the places whose data is lost (R2, R228, R270), and whether integrity was enabled at boot, so that 8 GiB of each stack hold Tumbler's metadata (R272). -/
structure PkgMem where
  bytes : Mem := []
  owners : Tbl (BitVec 16) := []
  poison : Tbl Nat := []
  integrity : Bool := false
  deriving DecidableEq, Repr

/-- A command queue (R42). -/
structure CmdQueue where
  base : DWord := 0
  size : Word := 0
  tail : BitVec 16 := 0
  head : BitVec 16 := 0
  done : Word := 0
  deriving DecidableEq, Repr

/-- A token with what R186 needs: the core that signalled it, or none for the host, and the scope that its `q.sig` named. -/
structure Token where
  word : Word
  core : Option Nat
  scope : Scope := .host
  deriving DecidableEq, Repr

/-- A token queue (R376, R377): tokens, NOTIFY, DROP, and waiters in the order in which they parked; the oldest tokens are promised to them in that order. -/
structure TokenQueue where
  tokens : List Token := []
  notify : Bool := false
  drop : Bool := false
  waiters : List Nat := []
  deriving DecidableEq, Repr

/-- A kernel of a code object (R63): its name's bytes, its first word, limits, streams, the ordinal of its first safe point, and whether it claims the engine set (R199). -/
structure Kernel where
  name : List Byte := []
  entry : Nat := 0
  team : Nat := 32
  block : Nat := 1
  regs : Nat := 32
  scratch : Nat := 0
  mxStream : Option Nat := none
  cpStream : Option Nat := none
  firstOrd : Nat := 0
  claims : Bool := false
  deriving DecidableEq, Repr

/-- A safe-point entry (R64): text offset in words, what put it there, the Excluded bit, and the 131 live bits as v0-v87, s0-s35, p0-p6. -/
structure SafePoint where
  off : Nat
  branchTarget : Bool := false
  loopHead : Bool := false
  explicit : Bool := false
  inserted : Bool := false
  excluded : Bool := false
  liveV : Nat := 0
  liveS : Nat := 0
  liveP : Nat := 0
  deriving DecidableEq, Repr

/-- A loaded code object (R61-R66): the protected world whose handle space it lies in, if any (R229, R278), its bytes, and the text offsets at which its streams end (R56, log 16). -/
structure CodeObj where
  owner : Option Nat := none
  handle : Nat := 0
  base : Nat := 0
  textOff : Nat := 0
  textBytes : Nat := 0
  image : List Byte := []
  streamEnds : List Nat := []
  kernels : List Kernel := []
  safePoints : List SafePoint := []
  deriving DecidableEq, Repr

/-- A launch's life (R42, R187, R229). -/
inductive LaunchStatus where
  | idle | accepted | running | ended | failed | refused
  deriving DecidableEq, Repr

/-- A Helolo buffer descriptor (R254). -/
structure HBuf where
  base : DWord := 0
  wptr : Nat := 0
  lost : Nat := 0
  wraps : Nat := 0
  fault : Bool := false
  sizel : Nat := 0
  mode : Bool := false
  en : Bool := false
  dropping : Bool := false
  deriving DecidableEq, Repr

/-- A run of atomic requests at one home that capture has not written yet (R267): its location, the words that name it in a record, and its parties in order. -/
structure AtomRun where
  loc : Nat
  words : List Word
  parties : List Nat
  deriving DecidableEq, Repr

/-- A launch: its descriptor (R43), its code object, and what belongs to the launch (R79, R101, R256, R259, R267). -/
structure Launch where
  uid : Nat := 0
  queue : Nat := 0
  launchid : Word := 0
  world : Nat := 0
  handle : Nat := 0
  gang : Nat := 1
  blocks : Nat := 0
  trapent : Option Nat := none
  fairt : Nat := 4096
  frqs : Nat := 6
  frqp : Nat := 8
  frqa : Nat := 10
  pol : Nat := 1
  out : Bool := false
  wen : Bool := false
  hinge : Nat := 0
  capture : Nat := 0
  rstop : Bool := false
  rlat : Nat := 0
  race : Bool := false
  replay : Nat := 0
  root : Nat := 0
  rwt : Nat := 0
  grant : Nat := 0
  thresh : Tbl Word := []
  localptr : Option Nat := none
  deps : List Nat := []
  sinit : Tbl Word := []
  code : CodeObj := {}
  kernel : Kernel := {}
  fpcnt : Tbl Word := []
  status : LaunchStatus := .idle
  placed : Nat := 0
  endedBlocks : Nat := 0
  bps : Tbl (BitVec 64) := []
  watches : Tbl QWord := []
  debugger : Bool := false
  debugBuf : HBuf := {}
  replayBuf : HBuf := {}
  recorded : List (Nat × List Nat) := []
  run : Option AtomRun := none
  placements : List (Nat × Nat × List Nat) := []
  rwtCopy : Mem := []
  inputs : Tbl QWord := []
  inputCopy : List (Nat × Mem) := []
  deriving DecidableEq, Repr

/-- The hub (R1, R42, R229, R254, R266, R280, R376), with the input ranges that the host names for the next captured or replayed launch (R267) and the posted writes on their way to host memory, oldest first, as (core, address, byte) (R185). -/
structure Hub where
  queues : Tbl CmdQueue := []
  lastQueue : Nat := 57
  tokenQueues : Tbl TokenQueue := []
  codeObjs : List CodeObj := []
  nextUid : Nat := 1
  msix : List Nat := []
  fpNotices : List (Nat × Nat) := []
  failures : List (List Word) := []
  frqh : Nat := 64
  sampleBufs : Tbl HBuf := []
  frequelLog : HBuf := {}
  armed : Bool := false
  snapDone : Bool := false
  firing : Option (BitVec 64) := none
  inputRanges : Tbl QWord := []
  posted : List (Nat × Nat × Byte) := []
  hostRead : Word := 0
  deriving DecidableEq, Repr

/-- The states of a world (R269). -/
inductive WorldState where
  | free | open_ | prot
  deriving DecidableEq, Repr

/-- An SPDM session (R275). -/
structure Session where
  id : Nat
  world : Nat
  finished : Bool
  deriving DecidableEq, Repr

/-- The SPDM error codes that R275 names. -/
inductive SpdmError where
  | busy | unsupported | unexpected | invalid
  deriving DecidableEq, Repr

/-- The statuses of CREATE_WORLD (R277) and of the other Tumbler commands. -/
inductive CmdStatus where
  | ok | busy | debugUnlocked | noSession | refused
  deriving DecidableEq, Repr

/-- What Tumbler answers (R275, R277). -/
inductive Reply where
  | version (minor : List Nat)
  | capabilities (names : List String)
  | algorithms (names : List String)
  | digests (slotMask : Nat) (d : BitVec 512)
  | certificate (bytes : List Byte)
  | challengeAuth (nonce : BitVec 256) (sig : BitVec 1056)
  | measurements (ms : List (Nat × BitVec 512)) (sig : BitVec 1056)
  | keyExchange (session : Nat) (share : BitVec 1056)
  | finished (session : Nat)
  | ideOk
  | error (e : SpdmError)
  | status (s : CmdStatus)
  deriving DecidableEq, Repr

/-- One key set of the IDE stream (R275): its key and whether it is in use. -/
structure IdeKey where
  key : BitVec 256 := 0
  programmed : Bool := false
  live : Bool := false
  deriving DecidableEq, Repr

/-- The security controller (R269-R277). -/
structure Tumbler where
  worlds : Tbl WorldState := [(0, .open_)]
  keys : Tbl (BitVec 512) := []
  unlocked : Bool := false
  mr : Tbl (BitVec 512) := []
  sessions : List Session := []
  ide : Tbl IdeKey := []
  ideStream : BitVec 8 := 0
  replies : List Reply := []
  integrity : Nat := 0
  deriving DecidableEq, Repr

/-- A lane's telemetry register EVLANE (R287). -/
structure Lane where
  eyeh : BitVec 8 := 0
  eyew : BitVec 8 := 0
  corr : BitVec 12 := 0
  fail : Bool := false
  warn : Bool := false
  deriving DecidableEq, Repr

/-- A control flit that a receiver sends (R282-R284); each carries the ACK. -/
inductive CtlFlit where
  | ack (seq : BitVec 32)
  | nak (seq : BitVec 32)
  | pause (vc : Nat) (ack : BitVec 32)
  | resume (vc : Nat) (ack : BitVec 32)
  | recovery (seq : BitVec 32)
  deriving DecidableEq, Repr

/-- What a packet carries for this package (R286): nothing that this package waits for, or a store of a context, by its key and the access's tag. -/
inductive Carried where
  | nothing
  | store (team tag : Nat)
  deriving DecidableEq, Repr

/-- A data packet that the sender keeps until it is acknowledged (R282, R283): its sequence number, its kind, its flits minus 1, and the access that it carries. -/
structure TxPacket where
  seq : BitVec 32
  kind : PacketKind
  cnt : Fin 8 := 0
  carries : Carried := .nothing
  deriving DecidableEq, Repr

/-- One Eveno link seen from this package (R281-R287); `doomed` once it has failed an access that its unacknowledged packets carried, so that it goes down (R286). -/
structure Link where
  lanes : Tbl Lane := []
  replays : Nat := 0
  tempc : BitVec 8 := 0
  width : Nat := 0
  seg : Nat := 0
  warn : Bool := false
  deg : Bool := false
  training : Bool := false
  up : Bool := false
  nextSeq : BitVec 32 := 1
  acked : BitVec 32 := 0
  replayBuf : List TxPacket := []
  toResend : List TxPacket := []
  rxLast : BitVec 32 := 0
  rxUsed : Tbl Nat := []
  rxPaused : List Nat := []
  txPaused : List Nat := []
  sinceAck : Nat := 0
  discarding : Bool := false
  recovering : Bool := false
  otherAck : Option (BitVec 32) := none
  farFailed : List Nat := []
  doomed : Bool := false
  sent : List CtlFlit := []
  deriving DecidableEq, Repr

/-- The package's power registers and telemetry (R288, R293-R295). -/
structure Power where
  pcap : Nat := 3400
  idleFloor : Nat := 0
  partitions : Tbl QWord := []
  fluxlim : Nat := 100
  breach : Bool := false
  floor : Bool := false
  ceil : Bool := false
  booted : Bool := false
  telemetry : PowerReading := {}
  deriving DecidableEq, Repr

/-- A gang as a context image holds it (R225): the context itself, without queue or G, S, X and A accesses, and where its image stands in the launch's global pages (R225, R273). -/
structure SavedGang where
  launchUid : Nat
  area : Nat
  len : Nat
  blocks : List Block
  teams : List Team
  streams : List Team
  deriving DecidableEq, Repr

/-- What an agenda entry makes happen next: a step of the table that the outside or the machine's timing decides, or one of the choices that the spec leaves to the hardware (log 1). -/
inductive Act where
  | event (i : Instr)
  | turn (key : Nat)
  | front (core : Nat)
  | writeDownCore (core line : Nat)
  | writeDownCluster (cluster line : Nat)
  | moveForward (core line : Nat)
  | evict (core base : Nat)
  | evictCluster (cluster base : Nat)
  | hostInvalidate (base : Nat)
  | corrupt (phys place : Nat)
  | corruptSpad (blk off : Nat)
  | corruptText (core line : Nat)
  | corruptHinge (core entry : Nat)
  | hostWrite (addr : Nat) (bytes : List Byte)
  | remoteWrite (phys : Nat) (bytes : List Byte)
  | linkSend (link : Nat) (kind : PacketKind) (cnt : Fin 8) (carries : Carried)
  | linkDrain (link vc flits : Nat)
  | corrected (die : Nat)
  | lostAccess (link : Nat) (threads : List Nat)
  | integrityStrap (on : Bool)
  | generatorLock (cluster : Nat)
  | railStep (die : Nat)
  deriving DecidableEq, Repr

/-- The state of one N4 package. -/
structure State where
  team : Team := {}
  blk : Block := {}
  core : Core := {}
  launch : Launch := {}
  teams : Tbl (Option Team) := []
  blocks : Tbl (Option Block) := []
  cores : Tbl Core := []
  launches : Tbl (Option Launch) := []
  clusters : Tbl Cluster := []
  dies : Tbl Die := []
  pkg : Nat := 0
  mem : Tbl PkgMem := []
  hostMem : Mem := []
  hub : Hub := {}
  tumbler : Tumbler := {}
  links : Tbl Link := []
  integrityNext : Bool := false
  evwarn : Word := 0x18404000
  power : Power := {}
  time : BitVec 64 := 0
  saved : List SavedGang := []
  agenda : List Act := []
  xLost : Option (Nat × List Nat) := none
  lastUnit : Nat := 0
  sinceAuto : Nat := 0
  autoCount : Nat := 0
  freeCount : Nat := 0
  deriving DecidableEq, Repr

/-- The machine right after package reset (R80, R274, R291): every field at its reset value, no launch, block or team. -/
def State.reset : State := {}

/-- Reasons for which the machine stops. -/
inductive Fault where
  /-- Raised by every access that a valid leaf or a descriptor sends to a physical address at or above 512 GiB, which the package does not have (R2). Safe: no claim about such an access can be proved beyond the stop. -/
  | physicalHole
  deriving DecidableEq, Repr

/-- Reasons for which a word has no meaning. -/
inductive Refusal where
  /-- Raised by exec's arm of an instruction that has no meaning yet. Safe. -/
  | notModelled (mnemonic : String)
  deriving DecidableEq, Repr

/-- The outcome type of exec and of every meaning. -/
abbrev Out := Host.Outcome State Fault Refusal

end Sys2Proof.Machine
end

