-- ==== Sys2Proof/Machine/Context.lean ====
section
/-! DEFINITION. Program contexts: threads, masks and registers of one team (R10-R19), and the tables of teams, blocks, cores, launches, clusters and dies around the running context. -/

namespace Sys2Proof.Machine

/-! ### Threads and masks -/

/-- Thread `t` is present and has not exited (R12). -/
def Team.live (tm : Team) (t : Nat) : Bool := decide (t < tm.threads) && !tget false tm.exited t
/-- Thread `t` is active (R12). -/
def Team.active (tm : Team) (t : Nat) : Bool := tm.live t && tget 0 tm.cnt t == 0
/-- The active threads in ascending order. -/
def Team.actives (tm : Team) : List Nat := (upList 0 tm.threads).filter tm.active
/-- The present unexited threads in ascending order. -/
def Team.lives (tm : Team) : List Nat := (upList 0 tm.threads).filter tm.live
/-- EXEC is entirely zero (R38). -/
def Team.execZero (tm : Team) : Bool := tm.actives.isEmpty
/-- The threads of mask word `w` (R11). -/
def wordThreads (w : Nat) : List Nat := upList (32 * w) 32
/-- The mask word that threads of a list give (R11). -/
def maskWord (ts : List Nat) (w : Nat) : Word :=
  BitVec.ofNat 32 (ts.foldl (fun n t => if t / 32 = w then n ||| 2 ^ (t % 32) else n) 0)
/-- Mask word `w` of EXEC (R12). -/
def Team.execWord (tm : Team) (w : Nat) : Word := maskWord tm.actives w
/-- The mask words in which some thread of a list lies, ascending (R13); a scalar access, of thread 1,024, is a pass of its own. -/
def wordsOf (ts : List Nat) : List Nat := (upList 0 33).filter fun w => ts.any fun t => t / 32 == w
/-- The passes of a vector word (R13). -/
def Team.passes (tm : Team) : Nat := (wordsOf tm.actives).length
/-- The lowest present unexited thread, t0 of R307. -/
def Team.t0 (tm : Team) : Nat := tm.lives.head?.getD 0
/-- The first thread of the group of thread `t` (R212). -/
def Team.gb (tm : Team) (t : Nat) : Nat := 32 * (t / 32) + tm.part * ((t % 32) / tm.part)
/-- The active threads of the group of thread `t` (R212). -/
def Team.group (tm : Team) (t : Nat) : List Nat := tm.actives.filter fun u => tm.gb u == tm.gb t
/-- The work of thread `t` may raise events: it does not lie beyond a binding's N (R100). -/
def Team.loud (tm : Team) (t : Nat) : Bool := tm.limbs == 0 || decide (t < tm.limbs)
/-- The running path has executed an `lr` and not yet the matching `sc` (R36). -/
def Team.lrOpen (tm : Team) : Bool := tm.openLr.any fun e => e.path.any tm.active
/-- The same of an `lr` of the front-end. -/
def Team.lrScalar (tm : Team) : Bool := tm.openLr.any fun e => e.thread == 1024 && e.path.any tm.active
/-- Whether the team runs a trap handler, which is privileged code (R79, R221). -/
def Team.priv? (tm : Team) : Bool := tm.trapCtx.isSome

/-! ### Registers -/

/-- Physical vector register `r` of thread `t`. -/
def Team.rdV (tm : Team) (t r : Nat) : Word := tget 0 (tget [] tm.v t) r
/-- Write it. -/
def Team.wrV (tm : Team) (t r : Nat) (x : Word) : Team := { tm with v := tput [] tm.v t (tput 0 (tget [] tm.v t) r x) }
/-- Scalar register `r`. -/
def Team.rdS (tm : Team) (r : Nat) : Word := tget 0 tm.s r
/-- Write it. -/
def Team.wrS (tm : Team) (r : Nat) (x : Word) : Team := { tm with s := tput 0 tm.s r x }
/-- Predicate `p` of thread `t`; p7 is true (R19). -/
def Team.rdP (tm : Team) (t : Nat) (p : Fin 8) : Bool := p == 7 || tget false tm.p (8 * t + p.val)
/-- Write it; a write to p7 is discarded (R19). -/
def Team.wrP (tm : Team) (t : Nat) (p : Fin 8) (b : Bool) : Team :=
  if p = 7 then tm else { tm with p := tput false tm.p (8 * t + p.val) b }
/-- A predicate field for thread `t` (R69). -/
def Team.pred (tm : Team) (t : Nat) (q : Pred) : Bool := tm.rdP t q.num != q.neg

/-- Word `k` of the operand that a register field names, for thread `t` (R14, R15, R18). -/
def Team.rd (tm : Team) (bix : Nat) (r : Reg) (k t : Nat) : Word :=
  match r with
  | .v i => tm.rdV t (8 * tm.wb + i.val + k)
  | .s i => tm.rdS (i.val + k)
  | .zr => 0
  | .tix => if k = 0 then BitVec.ofNat 32 t else 0
  | .bix => if k = 0 then BitVec.ofNat 32 bix else 0

/-- Write word `k` of a destination for thread `t`; `zr` discards (R14). -/
def Team.wr (tm : Team) (r : Reg) (k t : Nat) (x : Word) : Team :=
  match r with
  | .v i => tm.wrV t (8 * tm.wb + i.val + k) x
  | .s i => tm.wrS (i.val + k) x
  | _ => tm

/-- A 64-bit operand (R18). -/
def Team.rd64 (tm : Team) (bix : Nat) (r : Reg) (t : Nat) : DWord := pairOf (tm.rd bix r 0 t) (tm.rd bix r 1 t)
/-- Write a 64-bit destination (R18). -/
def Team.wr64 (tm : Team) (r : Reg) (t : Nat) (x : DWord) : Team := (tm.wr r 0 t (loWord x)).wr r 1 t (hiWord x)

/-- The `n` registers from field `r` lie inside the window (R15). -/
def Team.inWindow (tm : Team) (r : Reg) (n : Nat) : Bool :=
  match r with
  | .v i => decide (8 * tm.wb + i.val + n ≤ tm.regs)
  | _ => true

/-- The field value that a window fault names: the lowest of those outside (R15). -/
def Team.windowFail (tm : Team) (rs : List (Reg × Nat)) : Option (BitVec 7) :=
  ((rs.filter fun e => !tm.inWindow e.1 e.2).map fun e => encReg e.1).foldl
    (fun m f => match m with
      | none => some f
      | some g => if f.toNat < g.toNat then some f else some g) none

/-! ### The tables around the running context -/

/-- The key of a team of a core (TEAMID, R80). -/
def teamKey (core qtr slot : Nat) : Nat := 64 * core + 16 * qtr + slot
/-- The key of a stream's context (R132, R163). -/
def streamKey (core : Nat) (e : Engine) : Nat := 36864 + 2 * core + (match e with | .mx => 0 | .cp => 1)
/-- The key of a block. -/
def blockKey (uid bix : Nat) : Nat := uid * 16777216 + bix

/-- Every program context of the package. -/
def State.teamTbl (s : State) : Tbl (Option Team) :=
  if s.team.threads = 0 then s.teams else tinsert s.teams s.team.key (some s.team)
/-- Every resident block. -/
def State.blkTbl (s : State) : Tbl (Option Block) :=
  if s.blk.key = 0 then s.blocks else tinsert s.blocks s.blk.key (some s.blk)
/-- Every launch. -/
def State.launchTbl (s : State) : Tbl (Option Launch) :=
  if s.launch.uid = 0 then s.launches else tinsert s.launches s.launch.uid (some s.launch)
/-- Every core that differs from its power-up state. -/
def State.coreTbl (s : State) : Tbl Core := tput {} s.cores s.core.id { s.core with id := 0 }

/-- The context with key `k`. -/
def State.getTeam (s : State) (k : Nat) : Option Team :=
  if s.team.key = k ∧ s.team.threads ≠ 0 then some s.team else tget none s.teams k
/-- Store a context. -/
def State.setTeam (s : State) (tm : Team) : State :=
  if s.team.key = tm.key ∧ s.team.threads ≠ 0 then { s with team := tm }
  else { s with teams := tput none s.teams tm.key (some tm) }
/-- Remove a context. -/
def State.dropTeam (s : State) (k : Nat) : State :=
  if s.team.key = k ∧ s.team.threads ≠ 0 then { s with team := {} }
  else { s with teams := terase s.teams k }
/-- Change a context. -/
def State.modTeam (s : State) (k : Nat) (f : Team → Team) : State :=
  match s.getTeam k with
  | none => s
  | some tm => s.setTeam (f tm)

/-- The block with key `k`. -/
def State.getBlk (s : State) (k : Nat) : Option Block :=
  if s.blk.key = k ∧ k ≠ 0 then some s.blk else tget none s.blocks k
/-- Store a block. -/
def State.setBlk (s : State) (b : Block) : State :=
  if s.blk.key = b.key ∧ b.key ≠ 0 then { s with blk := b } else { s with blocks := tput none s.blocks b.key (some b) }
/-- Remove a block. -/
def State.dropBlk (s : State) (k : Nat) : State :=
  if s.blk.key = k ∧ k ≠ 0 then { s with blk := {} } else { s with blocks := terase s.blocks k }
/-- Change a block. -/
def State.modBlk (s : State) (k : Nat) (f : Block → Block) : State :=
  match s.getBlk k with
  | none => s
  | some b => s.setBlk (f b)

/-- The launch with number `k`. -/
def State.getLaunch (s : State) (k : Nat) : Option Launch :=
  if s.launch.uid = k ∧ k ≠ 0 then some s.launch else tget none s.launches k
/-- Store a launch. -/
def State.setLaunch (s : State) (l : Launch) : State :=
  if s.launch.uid = l.uid ∧ l.uid ≠ 0 then { s with launch := l }
  else { s with launches := tput none s.launches l.uid (some l) }
/-- Change a launch. -/
def State.modLaunch (s : State) (k : Nat) (f : Launch → Launch) : State :=
  match s.getLaunch k with
  | none => s
  | some l => s.setLaunch (f l)

/-- Core `k` of the package. -/
def State.getCore (s : State) (k : Nat) : Core := if s.core.id = k then s.core else { tget {} s.cores k with id := k }
/-- Store a core. -/
def State.setCore (s : State) (c : Core) : State :=
  if s.core.id = c.id then { s with core := c } else { s with cores := tput {} s.cores c.id { c with id := 0 } }
/-- Change core `k`. -/
def State.modCore (s : State) (k : Nat) (f : Core → Core) : State := s.setCore (f (s.getCore k))

/-- Cluster `k` of the package. -/
def State.getCluster (s : State) (k : Nat) : Cluster := tget {} s.clusters k
/-- Change cluster `k`. -/
def State.modCluster (s : State) (k : Nat) (f : Cluster → Cluster) : State :=
  { s with clusters := tput {} s.clusters k (f (s.getCluster k)) }
/-- Change die `k`. -/
def State.modDie (s : State) (k : Nat) (f : Die → Die) : State := { s with dies := tput {} s.dies k (f (tget {} s.dies k)) }
/-- Change quarter `q` of core `k`. -/
def State.modQuarter (s : State) (k q : Nat) (f : Quarter → Quarter) : State :=
  s.modCore k fun c => { c with quarters := tput {} c.quarters q (f (tget {} c.quarters q)) }

/-- The cluster of a core (R1). -/
def clusterOf (core : Nat) : Nat := core / 8
/-- The die of a core (R1). -/
def dieOf (core : Nat) : Nat := core / Config.coresPerDie

/-- The values of a table. -/
def tvals {α : Type} (m : Tbl (Option α)) : List α := m.filterMap fun e => e.2
/-- The contexts of one block. -/
def State.ctxsOf (s : State) (blk : Nat) : List Team := (tvals s.teamTbl).filter fun t => t.blkKey == blk
/-- The teams of one block, streams excluded. -/
def State.teamsOf (s : State) (blk : Nat) : List Team := (s.ctxsOf blk).filter fun t => decide (t.kind = .team)
/-- The blocks on one core. -/
def State.blksOn (s : State) (core : Nat) : List Block := (tvals s.blkTbl).filter fun b => b.coreId == core
/-- The block of a launch with a block index. -/
def State.blkAt (s : State) (uid bix : Nat) : Option Block := s.getBlk (blockKey uid bix)

/-- Make the context with key `k`, its block, core and launch the running ones. -/
def State.focus (s : State) (k : Nat) : State :=
  match s.getTeam k with
  | none => s
  | some tm =>
    { s with
      team := tm, teams := terase s.teamTbl k,
      blk := (tget none s.blkTbl tm.blkKey).getD {}, blocks := terase s.blkTbl tm.blkKey,
      core := { tget {} s.coreTbl tm.coreId with id := tm.coreId }, cores := terase s.coreTbl tm.coreId,
      launch := (tget none s.launchTbl tm.launchUid).getD {}, launches := terase s.launchTbl tm.launchUid }

/-- The level that R217 gives a cluster: the least of its cap and the greatest REQ of its resident teams, 0 without a team; of each the value that the last evaluation took (R292). -/
def State.wantLevel (s : State) (k : Nat) : Nat :=
  let reqs := ((tvals s.teamTbl).filter fun t => decide (t.kind = .team) && clusterOf t.coreId == k).map (·.perfNow)
  min (s.getCluster k).capNow (reqs.foldl max 0)

/-- CUR of a cluster takes a level (R217): on a change the idle generator starts to lock to it (R290). -/
def Cluster.setCur (c : Cluster) (level : Nat) : Cluster := if c.cur = level then c else { c with cur := level, idleGen := some (level, false) }
/-- CUR of a cluster takes its level (R217). -/
def State.relevel (s : State) (k : Nat) : State := s.modCluster k fun c => c.setCur (s.wantLevel k)

/-- Apply `f` to every context. -/
def State.mapTeams (s : State) (f : Team → Team) : State :=
  { s with team := if s.team.threads = 0 then s.team else f s.team, teams := s.teams.map fun e => (e.1, e.2.map f) }

/-- Apply `f` to every core, with its number. -/
def State.mapCores (s : State) (f : Nat → Core → Core) : State :=
  { s with core := f s.core.id s.core, cores := s.cores.foldl (fun t (e : Nat × Core) => tput {} t e.1 (f e.1 e.2)) [] }

/-- Apply `f` to every cluster, with its number. -/
def State.mapClusters (s : State) (f : Nat → Cluster → Cluster) : State :=
  { s with clusters := s.clusters.foldl (fun t (e : Nat × Cluster) => tput {} t e.1 (f e.1 e.2)) [] }

/-- The link moves data (R285). -/
def Link.live (l : Link) : Bool := l.up && !l.training && !l.recovering

/-- Links of a package: 3 for each die (R2). -/
def linkCount : Nat := 12

/-- Some link of the package moves data (R6, R285). No rule routes an access: any such link may carry it (log 38). -/
def State.linked (s : State) : Bool := s.links.any fun e => decide (e.1 < linkCount) && e.2.live

/-- Add one to a 32-bit event counter that stops at its maximum (R101). -/
def satInc (x : Word) : Word := if x = 0xFFFFFFFF then x else x + 1

/-- Count one event `k` of a launch (R101): a threshold reached for the first time raises one interrupt. -/
def Launch.count (l : Launch) (k : Nat) : Launch := { l with fpcnt := tput 0 l.fpcnt k (satInc (tget 0 l.fpcnt k)) }

/-- Count events of the running launch, with the threshold interrupts of R101 (vector 1, R280, which names launch and counter). -/
def State.countEvents (s : State) (es : List Nat) : State :=
  es.foldl (fun s k =>
    let l := s.launch.count k
    let hit := tget 0 l.thresh k ≠ 0 ∧ tget 0 l.fpcnt k = tget 0 l.thresh k ∧ tget 0 s.launch.fpcnt k ≠ tget 0 l.fpcnt k
    { s with launch := l, hub := if hit then { s.hub with msix := s.hub.msix ++ [1], fpNotices := s.hub.fpNotices ++ [(l.uid, k)] } else s.hub }) s

/-- `f` applied over a list from the left. -/
def foldS {α β : Type} (f : β → α → β) (xs : List α) (b : β) : β := xs.foldl f b

end Sys2Proof.Machine
end

