-- ==== Sys2Proof/Machine/Memory.lean ====
section
/-! DEFINITION. Memory: tagged pointers (R141-R143), translation (R226, R227), views and homes (R166-R169), format-typed pages (R148), and the writes that reach a home (R192, R197). -/

namespace Sys2Proof.Machine

/-- What an access meets instead of data (R218). `hole` is a physical address the package does not have; `uncorr` names the place of lost data, where 3 is a tag or counter mismatch, which reports as place 0 (R272). -/
inductive MemErr where
  | notPresent | permission | format | mixed | owner | alignment | partialBlock | hole
  | uncorr (place : Nat)
  deriving DecidableEq, Repr

/-- The class of a memory error (R218). -/
def MemErr.cls : MemErr → TrapClass
  | .owner => .pageOwner
  | .alignment => .alignment
  | .partialBlock => .partialBlock
  | .uncorr _ => .memError
  | _ => .translation

/-- DETAIL of a memory error (R218). -/
def MemErr.detail : MemErr → BitVec 16
  | .permission => 0x1000
  | .format => 0x2000
  | .mixed => 0x3000
  | .uncorr p => BitVec.ofNat 16 (p % 3)
  | _ => 0

/-! ### Pointers -/

/-- SPACE of a tagged pointer (R141). -/
def ptrSpace (q : DWord) : Nat := bitsOf q.toNat 63 60
/-- The owner field, bits [59:48] (R142). -/
def ptrOwner (q : DWord) : Nat := bitsOf q.toNat 59 48
/-- OFFSET of a tagged pointer (R141). -/
def ptrOff (q : DWord) : Nat := bitsOf q.toNat 47 0
/-- A tagged pointer from its fields. -/
def mkPtr (space owner off : Nat) : DWord := BitVec.ofNat 64 (space * 2 ^ 60 + owner * 2 ^ 48 + off)
/-- The owner field that names a core: DIE, CLUS, CORE over the two reserved bits (R80, R142). -/
def ownerField (core : Nat) : Nat := dieOf core * 1024 + core % Config.coresPerDie / 8 * 32 + core % 8 * 4

/-! ### Translation -/

/-- A leaf of the tables (R226), checked: formats must agree (R148), a 16 MiB leaf is aligned and raw. -/
def leafOf (root off e : Nat) (big : Bool) : Except MemErr TlbEntry :=
  let efmt := bitsOf e 10 9
  let geo := bitsOf e 8 8
  let rowlen := bitsOf e 22 11
  let sa := bitsOf e 6 5
  let frame := bitsOf e 63 32
  let alias1 := bitsOf e 7 7
  if bitsOf e 31 23 ≠ 0 ∨ sa = 3 then .error .format
  else if geo = 0 ∧ rowlen ≠ 0 ∨ efmt = 0 ∧ geo = 1 then .error .format
  else if geo = 1 ∧ ¬ (1 ≤ rowlen ∧ rowlen ≤ 256 ∧ 2 ^ rowlen.log2 = rowlen) then .error .format
  else if alias1 = 1 ∧ efmt ≠ 0 then .error .format
  else if big ∧ (frame % 256 ≠ 0 ∨ efmt ≠ 0) then .error .format
  else
    let size := if big then 2 ^ 24 else 2 ^ 16
    .ok { root := root, base := off / size * size, big := big, frame := frame, rowlen := rowlen, efmt := efmt,
          geo := geo == 1, alias_ := alias1 == 1, sa := sa, x := bitsOf e 3 3 == 1, w := bitsOf e 2 2 == 1,
          rd := bitsOf e 1 1 == 1 }

/-- The walk from a table down the levels whose shifts are listed (R226). It reads at the home slices: an entry whose tag or counter does not match is an uncorrectable error (R272), other lost bytes stand as they are (R228 names no walk; log 17). -/
def walkFrom (m : PkgMem) (root off : Nat) : List Nat → Nat → Except MemErr TlbEntry
  | [], _ => .error .notPresent
  | sh :: rest, table =>
    let a := table + 8 * (off / 2 ^ sh % 256)
    if Config.memBytes < a + 8 then .error .hole
    else if (upList a 8).any fun b => tget 0 m.poison b == 4 then .error (.uncorr 3)
    else
      let e := leNat (m.bytes.readBytes a 8)
      if bitsOf e 0 0 = 0 then .error .notPresent
      else if bitsOf e 4 4 = 1 then (if sh = 24 then leafOf root off e true else .error .format)
      else if rest.isEmpty then leafOf root off e false
      else if bitsOf e 63 48 ≠ 0 ∨ bitsOf e 10 1 ≠ 0 then .error .format
      else walkFrom m root off rest (bitsOf e 47 11 * 2048)

/-- The bytes of table entries that a walk requests (R226, R291). -/
def walkBytes (m : PkgMem) (off : Nat) : List Nat → Nat → Nat
  | [], _ => 0
  | sh :: rest, table =>
    let e := leNat (m.bytes.readBytes (table + 8 * (off / 2 ^ sh % 256)) 8)
    if bitsOf e 0 0 = 0 ∨ bitsOf e 4 4 = 1 then 8 else 8 + walkBytes m off rest (bitsOf e 47 11 * 2048)

/-- The four-level walk (R226). -/
def walk (m : PkgMem) (root off : Nat) : Except MemErr TlbEntry := walkFrom m root off [40, 32, 24, 16] root

/-- The page holds Tumbler's metadata, which no translation reaches (R272): with integrity enabled, 8 GiB of each stack of 64 GiB, wherever they lie in it (log 44). -/
def PkgMem.isMeta (m : PkgMem) (page : Nat) : Bool :=
  m.integrity && (
    let first := Config.metaPage (page / Config.stackPages) % (Config.stackPages - Config.metaPages + 1)
    decide (first ≤ page % Config.stackPages) && decide (page % Config.stackPages < first + Config.metaPages))

/-- The page-owner check of a fill, page by page in ascending order (R227, R270). -/
def fillCheck (m : PkgMem) (world : Nat) (e : TlbEntry) : Except MemErr TlbEntry :=
  (upList e.frame (if e.big then 256 else 1)).foldl (fun r p =>
    match r with
    | .error x => .error x
    | .ok l =>
      let o := tget 0 m.owners p
      let w := bitsOf o.toNat 5 0
      if m.isMeta p ∨ (w ≠ 0 ∧ w ≠ world) then .error .owner
      else if bitsOf o.toNat 7 6 ≠ e.sa then .error .mixed
      else .ok l) (.ok e)

/-- Whether a buffered leaf covers an offset under a root. -/
def TlbEntry.covers (e : TlbEntry) (root off : Nat) : Bool :=
  e.root == root && decide (e.base ≤ off) && decide (off < e.base + (if e.big then 2 ^ 24 else 2 ^ 16))

/-- The physical address that a leaf gives an offset. -/
def TlbEntry.phys (e : TlbEntry) (off : Nat) : Nat := e.frame * 65536 + (off - e.base)

/-- The main memory of package `p`. -/
def State.pm (s : State) (p : Nat) : PkgMem := tget {} s.mem p
/-- Change the main memory of a package. -/
def State.modPm (s : State) (p : Nat) (f : PkgMem → PkgMem) : State := { s with mem := tput {} s.mem p (f (s.pm p)) }
/-- The running core's cluster. -/
def State.clus (s : State) : Cluster := s.getCluster (clusterOf s.core.id)

/-- The cluster buffer's leaf for an offset, unless a `tlb.inv` of the core makes the next fill of that page a walk (R227, R395). -/
def State.clusterLeaf (s : State) (root off : Nat) : Option TlbEntry :=
  match s.clus.tlb.find? (·.covers root off) with
  | none => none
  | some e => if s.core.walks.any fun w => w.1 == root && e.covers root w.2 then none else some e

/-- The leaf for an offset: from the core's buffer, or a fill from the cluster buffer or from a walk, checked (R227). -/
def State.leaf (s : State) (off : Nat) : Except MemErr TlbEntry :=
  let root := s.launch.root
  match s.core.tlb.find? (·.covers root off) with
  | some e => .ok e
  | none =>
    match s.clusterLeaf root off with
    | some e => fillCheck (s.pm s.pkg) s.launch.world e
    | none =>
      match walk (s.pm s.pkg) root off with
      | .error x => .error x
      | .ok e => fillCheck (s.pm s.pkg) s.launch.world e

/-- A request of a cluster to a home slice counts against its budget; once the budget is spent, it and every later one wait for the next interval (R291). -/
def Cluster.charge (c : Cluster) (n : Nat) : Cluster :=
  if c.waiting = 0 ∧ c.spent + n ≤ c.bud then { c with spent := c.spent + n } else { c with waiting := c.waiting + n }

/-- Buffer the leaf for an offset, when its fill succeeds; a walk's leaf takes the place of the one the cluster buffer held (R227, R395), and the walk counts against the cluster's budget (R291). -/
def State.fill (s : State) (off : Nat) : State :=
  let root := s.launch.root
  match s.core.tlb.find? (·.covers root off) with
  | some _ => s
  | none =>
    let walked := (s.clusterLeaf root off).isNone
    let n := walkBytes (s.pm s.pkg) off [40, 32, 24, 16] root
    match s.leaf off with
    | .error _ => if walked then s.modCluster (clusterOf s.core.id) (·.charge n) else s
    | .ok e =>
      let s := if walked then s.modCluster (clusterOf s.core.id) (·.charge n) else s
      let s := { s with core := { s.core with tlb := (s.core.tlb ++ [e]).drop (s.core.tlb.length + 1 - 1024), walks := s.core.walks.filter fun w => !(w.1 == root && e.covers root w.2) } }
      if walked then s.modCluster (clusterOf s.core.id) fun c => let l := c.tlb.filter fun x => !x.covers root off
        { c with tlb := (l ++ [e]).drop (l.length + 1 - 16384) }
      else s

/-- The leaf for an offset on a target package, under the launch's own root (R151, R273). -/
def State.remoteLeaf (s : State) (pkg off : Nat) : Except MemErr TlbEntry :=
  match walk (s.pm pkg) s.launch.root off with
  | .error x => .error x
  | .ok e => fillCheck (s.pm pkg) s.launch.world e

/-! ### What an access reaches -/

/-- The kinds of access that R143 and R226 tell apart. -/
inductive Use where
  | ld | st | lr | sc | mon | pf | tld | cp
  | atom (op : AtomOp)
  deriving DecidableEq, Repr

/-- What a pointer reaches: a space, a package, a physical address or offset, and the leaf of a typed page. -/
structure Tgt where
  space : Nat
  pkg : Nat := 0
  addr : Nat
  leaf : Option TlbEntry := none
  voff : Nat := 0
  deriving DecidableEq, Repr

/-- The spaces each kind of access may touch (R143, R174). -/
def spaceAllows (space : Nat) (u : Use) : Bool :=
  match space, u with
  | 0, _ => true
  | 1, .pf | 1, .tld => false
  | 1, _ => true
  | 2, .ld | 2, .st | 2, .cp => true
  | 3, .ld => true
  | 4, .ld | 4, .st => true
  | 5, .mon | 5, .pf | 5, .tld => false
  | 5, _ => true
  | 6, .ld | 6, .st | 6, .cp => true
  | 6, .atom op => op == .add || op == .exch || op == .cas
  | 7, .ld | 7, .pf | 7, .tld | 7, .cp => true
  | _, _ => false

/-- The permission bits of a leaf that an access needs (R226). -/
def TlbEntry.permits (e : TlbEntry) : Use → Bool
  | .st | .sc => e.w
  | .atom _ => e.w && e.rd
  | _ => e.rd

/-- The page's permissions for an access (R226), with the alias rule of R150. -/
def pagePerm (e : TlbEntry) (u : Use) (raw : Bool) : Option MemErr :=
  if !e.permits u || (e.alias_ && !raw) then some .permission else none

/-- A typed page refuses the access (R148, R149, R173). -/
def TlbEntry.refuses (e : TlbEntry) (u : Use) (size : Nat) : Bool :=
  e.efmt != 0 && (match u with
    | .ld | .st => decide (size < 4)
    | .tld | .cp | .pf => false
    | _ => true)

/-- The share of a thread in private space (R146). -/
def privShare (threads : Nat) : Nat := max 8 (8 * (256 / (8 * ((threads + 31) / 32))))

/-- A target in main memory behind a leaf: its first byte lies in a page that the package has (R2). An access that crosses the page's end is misaligned, and its alignment is checked after this. -/
def memTgt (e : TlbEntry) (space pkg off : Nat) : Except MemErr Tgt :=
  if Config.memBytes ≤ e.phys off then .error .hole
  else if e.efmt ≠ 0 then .ok { space := space, pkg := pkg, addr := e.frame * 65536, leaf := some e, voff := off % 65536 }
  else .ok { space := space, pkg := pkg, addr := e.phys off }

/-- What thread `t`'s pointer reaches, or the error that R142, R143, R146, R148, R150, R151 and R199 give. `vec` says that the base is a vector, `raw` that the access may use an alias page (R150). -/
def State.resolve (s : State) (u : Use) (size : Nat) (vec raw : Bool) (t : Nat) (q : DWord) : Except MemErr Tgt :=
  let sp := ptrSpace q
  let off := ptrOff q
  if 7 < sp then .error .notPresent
  else if (1 ≤ sp ∧ sp ≤ 4 ∧ ptrOwner q ≠ ownerField s.blk.origin) ∨ ((sp = 6 ∨ sp = 7) ∧ ptrOwner q ≠ 0) then
    .error .permission
  else if !spaceAllows sp u then .error .permission
  else match sp with
    | 0 => match s.leaf off with
      | .error x => .error x
      | .ok e => match pagePerm e u raw with
        | some x => .error x
        | none => memTgt e 0 s.pkg off
    | 1 => if s.blk.scratch < off + size then .error .notPresent else .ok { space := 1, addr := off }
    | 2 => if !s.blk.claims then .error .notPresent
           else if Config.accBytes < off + size then .error .notPresent else .ok { space := 2, addr := off }
    | 3 => if !s.blk.claims then .error .notPresent
           else if 0x100080 < off + size then .error .notPresent
           else if off < 0x100000 ∨ size ≠ 16 then .error .permission else .ok { space := 3, addr := off - 0x100000 }
    | 4 => if !vec then .error .permission
           else if privShare s.team.threads < off + size then .error .notPresent
           else .ok { space := 4, addr := 256 * t + off }
    | 5 =>
      let a := s.launch.rwt + 16 * ptrOwner q
      if Config.memBytes < a + 16 then .error .hole
      else
        let e := leNat ((s.pm s.pkg).bytes.readBytes a 16)
        if bitsOf e 0 0 = 0 ∨ 65536 * bitsOf e 63 32 < off + size then .error .notPresent
        else
          let w := bitsOf e 2 2 == 1
          let rd := bitsOf e 1 1 == 1
          let ok := match u with
            | .st | .sc => w
            | .atom _ => w && rd
            | _ => rd
          if !ok then .error .permission
          else
            let pkg := bitsOf e 28 10
            let goff := (bitsOf e 111 64 + off) % 2 ^ 48
            match s.remoteLeaf pkg goff with
            | .error x => .error x
            | .ok l => match pagePerm l u raw with
              | some x => .error x
              | none => if l.sa ≠ 0 then .error .permission else memTgt l 5 pkg goff
    | 6 => .ok { space := 6, addr := off }
    | _ =>
      let goff := (s.launch.code.base + off) % 2 ^ 48
      match s.leaf goff with
      | .error x => .error x
      | .ok e => match pagePerm e u raw with
        | some x => .error x
        | none => memTgt e 7 s.pkg goff

/-- The package that a remote-window pointer names, if its window is present (R151). -/
def State.farPkg (s : State) (q : DWord) : Option Nat :=
  let a := s.launch.rwt + 16 * ptrOwner q
  if ptrSpace q ≠ 5 ∨ Config.memBytes < a + 16 then none
  else
    let e := leNat ((s.pm s.pkg).bytes.readBytes a 16)
    if bitsOf e 0 0 = 0 then none else some (bitsOf e 28 10)

/-- Some pointer names another package and no link moves data (R6, R285): the access waits at issue, unless it is one that goes down with its link (R286; log 38). -/
def State.linkWait (s : State) (qs : List DWord) : Bool :=
  !s.linked && s.xLost.isNone && qs.any fun q => (s.farPkg q).any fun p => p != s.pkg

/-- The global offset whose leaf an access uses, if it translates on this package. -/
def State.gOff (s : State) (q : DWord) : Option Nat :=
  if ptrSpace q = 0 then some (ptrOff q)
  else if ptrSpace q = 7 then some ((s.launch.code.base + ptrOff q) % 2 ^ 48) else none

/-- Buffer the translations that a list of pointers uses. -/
def State.fillAll (s : State) (qs : List DWord) : State :=
  qs.foldl (fun s q => match s.gOff q with
    | some o => s.fill o
    | none => s) s

/-- The access path of a space (R27). -/
def pathOf (space : Nat) : Path := if space = 0 ∨ space = 7 then .g else if space = 5 ∨ space = 6 then .x else .s

/-! ### Reading -/

/-- What a cluster unit holds of a byte, or the home slice's byte, its line's copy left out (R167). -/
def Cluster.newByte (cl : Cluster) (m : PkgMem) (a : Nat) : Byte :=
  match tget none cl.view.dirty a with
  | some d => d.byte
  | none => m.bytes.read a

/-- One byte as a cluster unit gives it (R167). -/
def Cluster.readByte (cl : Cluster) (m : PkgMem) (a : Nat) : Byte :=
  match tget none cl.view.dirty a with
  | some d => d.byte
  | none => match tget none cl.view.lines (a / 64) with
    | some l => l.getD (a % 64) 0
    | none => m.bytes.read a

/-- A core's own store to a byte, or the byte as the level below gives it: what a line brought into the view holds (R167, R180). -/
def Core.newByte (c : Core) (cl : Cluster) (m : PkgMem) (a : Nat) : Byte :=
  match tget none c.view.dirty a with
  | some d => d.byte
  | none => cl.readByte m a

/-- One byte as a core's view gives it (R167): its own stores, its snapshot, then the level below. -/
def Core.readByte (c : Core) (cl : Cluster) (m : PkgMem) (a : Nat) : Byte :=
  match tget none c.view.dirty a with
  | some d => d.byte
  | none => match tget none c.view.lines (a / 64) with
    | some l => l.getD (a % 64) 0
    | none => cl.readByte m a

/-- One byte of main memory through the running core's view. -/
def State.viewByte (s : State) (a : Nat) : Byte := s.core.readByte s.clus (s.pm s.pkg) a

/-- The lost-data code of a byte as a cluster unit gives it (R228): 0 none, else the place code plus 1. A line read while bytes of it were lost holds no data for them. -/
def Cluster.lostAt (cl : Cluster) (m : PkgMem) (a : Nat) : Nat :=
  if (tget none cl.view.dirty a).isSome then 0
  else if (tget none cl.view.lines (a / 64)).isSome then tget 0 cl.view.lost a
  else tget 0 m.poison a

/-- The lost-data code of a byte as a core's view gives it (R228). -/
def Core.lostAt (c : Core) (cl : Cluster) (m : PkgMem) (a : Nat) : Nat :=
  if (tget none c.view.dirty a).isSome then 0
  else if (tget none c.view.lines (a / 64)).isSome then tget 0 c.view.lost a
  else cl.lostAt m a

/-- The lost-data code of a byte of main memory through the running core's view. -/
def State.viewPoison (s : State) (a : Nat) : Nat := s.core.lostAt s.clus (s.pm s.pkg) a

/-- A view without its copy of a line. -/
def View.drop (v : View) (line : Nat) : View :=
  { v with lines := terase v.lines line, lost := v.lost.filter fun e => e.1 / 64 != line }

/-- A view that takes a copy of a line: its bytes, and the lost-data code of each byte. -/
def View.take (v : View) (line : Nat) (byte : Nat → Byte) (code : Nat → Nat) : View :=
  { v with
    lines := tinsert v.lines line (some ((upList (64 * line) 64).map byte)),
    lost := (upList (64 * line) 64).foldl (fun l a => tput 0 l a (code a)) v.lost }

/-- A view without its copies: its stores stay (R168). -/
def View.empty (v : View) : View := { v with lines := [], lost := [] }

/-- A byte of a location, with no store on its way. -/
def State.locByte (s : State) : Loc → Byte
  | .view a => s.viewByte a
  | .home p a => (s.pm p).bytes.read a
  | .spad o => s.blk.spad.read o
  | .acc o => s.blk.acc.read o
  | .priv t o => s.team.priv.read (256 * t + o)
  | .hostMem a => s.hostMem.read a

/-- The key under which a lost accumulator byte is listed beside the lost scratchpad bytes. -/
def accKey (o : Nat) : Nat := 0x80000 + o

/-- The lost-data code of a location (R228): 0 none, else the place code plus 1. -/
def State.locPoison (s : State) : Loc → Nat
  | .view a => s.viewPoison a
  | .home p a => tget 0 (s.pm p).poison a
  | .spad o => tget 0 s.blk.spadPoison o
  | .acc o => tget 0 s.blk.spadPoison (accKey o)
  | _ => 0

/-- The location is reached over the X path, whose accesses are in no order among themselves (R169, R184, R185). -/
def Loc.overX : Loc → Bool
  | .home _ _ => true
  | .hostMem _ => true
  | _ => false

/-- The path on which a location is reached (R27). -/
def Loc.path : Loc → Path
  | .view _ => .g
  | .home _ _ => .x
  | .hostMem _ => .x
  | _ => .s

/-- The latest store of the running context that is on its way to a location (R169). The bytes of a `tld` are seen when they land (R394); a store over the X path is not seen before its home has it (R184, R185). -/
def Team.pendingAt (tm : Team) (l : Loc) : Option Byte :=
  if l.overX then none
  else (tm.inflight.filter fun a => a.kind != .tld).foldl (fun r a => a.writes.foldl (fun r w => if w.loc = l then some w.byte else r) r) none

/-- A byte as the running context reads it (R169). -/
def State.readLoc (s : State) (l : Loc) : Byte := (s.team.pendingAt l).getD (s.locByte l)

/-- The location of byte `i` of a raw target, for thread `t`. -/
def Tgt.loc (g : Tgt) (t i : Nat) : Loc :=
  match g.space with
  | 1 => .spad (g.addr + i)
  | 2 => .acc (g.addr + i)
  | 4 => .priv t (g.addr - 256 * t + i)
  | 5 => .home g.pkg (g.addr + i)
  | 6 => .hostMem (g.addr + i)
  | _ => .view (g.addr + i)

/-- Block and position of an element of a typed page (R148). -/
def blockPos (e : TlbEntry) (el : Nat) : Nat × Nat :=
  if !e.geo then (el / 16, el % 16)
  else
    let l := 16 * e.rowlen
    let y := el / l
    let x := el % l
    (y / 4 * (l / 4) + x / 4, y % 4 * 4 + x % 4)

/-- The locations of a block of a typed page. -/
def Tgt.blockLocs (g : Tgt) (e : TlbEntry) (blk : Nat) : List Loc :=
  let n := dbBytes (dbM e.efmt)
  (upList (g.addr + blk * n) n).map fun a => if g.space = 5 then Loc.home g.pkg a else Loc.view a

/-- The locations whose bytes an access of `n` bytes reads. -/
def Tgt.locs (g : Tgt) (t n : Nat) : List Loc :=
  match g.leaf with
  | none => (upList 0 n).map (g.loc t)
  | some e => (upList (g.voff / 4) (n / 4)).flatMap fun el => g.blockLocs e (blockPos e el).1

/-- The `n` bytes that an access reads: raw, a PRECB (R120), or decoded elements (R148). -/
def State.readTgt (s : State) (g : Tgt) (t n : Nat) : List Byte :=
  if g.space = 3 then leBytes 16 (tget 0 s.blk.precb (g.addr / 16)).toNat
  else match g.leaf with
    | none => (upList 0 n).map fun i => s.readLoc (g.loc t i)
    | some e => (upList (g.voff / 4) (n / 4)).flatMap fun el =>
        let (b, p) := blockPos e el
        let blk := leNat ((g.blockLocs e b).map s.readLoc)
        leBytes 4 (FFmt.f32.enc .rne (dbDecode (dbM e.efmt) blk p)).1

/-- The link that carries the remote access of thread `t` of this word goes down under it (R286); 1,024 is the scalar front-end, 1,025 the copy engine. -/
def State.xDead (s : State) (t : Nat) : Bool :=
  match s.xLost with
  | some x => decide (t ∈ x.2)
  | none => false

/-- The lost-data code of an access of `n` bytes (R228): the lowest byte lost gives the place. A remote read whose packet a dead link held is lost at the far home slice (R286). -/
def State.tgtPoison (s : State) (g : Tgt) (t n : Nat) : Nat :=
  if g.space = 3 then 0
  else if g.space = 5 ∧ s.xDead t then 2
  else (((g.locs t n).filter fun l => (s.team.pendingAt l).isNone).map s.locPoison).find? (· ≠ 0) |>.getD 0

/-- The cluster unit of the running core reads a line from its home slice, unless it holds a copy (R167, R291). -/
def State.clusterTake (s : State) (line : Nat) : State :=
  match tget none s.clus.view.lines line with
  | some _ => s
  | none => s.modCluster (clusterOf s.core.id) fun c =>
    { (c.charge 64) with view := c.view.take line (c.newByte (s.pm s.pkg)) (c.lostAt (s.pm s.pkg)) }

/-- Bring the line of an address into the cluster unit and the core's snapshot (R167, R180); the copies hold the stores that the unit and the core have made to it. -/
def State.touchLine (s : State) (line : Nat) : State :=
  let s := s.clusterTake line
  match tget none s.core.view.lines line with
  | some _ => s
  | none =>
    let v := s.core.view.take line (s.core.newByte s.clus (s.pm s.pkg)) (s.core.lostAt s.clus (s.pm s.pkg))
    { s with core := { s.core with view := v } }

/-- Lines of text in an instruction cache after one is read: the newest first, at most 64 KiB of them (R2). -/
def cacheLine (line : Nat) (ls : List Nat) : List Nat := (line :: ls.filter (· ≠ line)).take Config.textLines

/-- The instruction cache holds a line; what it holds of a line is the core's snapshot of it (R167). -/
def Core.hasText (c : Core) (line : Nat) : Bool := decide (line ∈ c.icache) && (tget none c.view.lines line).isSome

/-- Fetch reads a line of text: it comes into the core's one view and into the instruction cache (R2, R167). -/
def State.fetchLine (s : State) (line : Nat) : State :=
  let s := s.touchLine line
  { s with core := { s.core with icache := cacheLine line s.core.icache } }

/-- Record in the snapshot the lines that an access reads through the view. -/
def State.touchTgt (s : State) (g : Tgt) (t n : Nat) : State :=
  if g.space = 3 then s
  else (g.locs t n).foldl (fun s l => match l with
    | .view a => s.touchLine (a / 64)
    | _ => s) s

/-! ### Writes reaching a level -/

/-- An Armed monitor that watches the line at that level becomes Triggered (R192). -/
def Team.hear (tm : Team) (r : LineRef) (lv : Level3) : Team :=
  if tm.mon = .armed ∧ (r, lv) ∈ tm.monLines then { tm with mon := .triggered } else tm

/-- A write by (context `k`, thread `th`) at a line's home ends the reservations of every other party (R197). -/
def Team.loseResv (tm : Team) (r : LineRef) (k th : Nat) : Team :=
  { tm with
    resv := tm.resv.filter fun e => e.2 ≠ some r || (tm.key == k && e.1 == th),
    scalarResv := if tm.scalarResv = some r ∧ ¬ (tm.key = k ∧ th = 1024) then none else tm.scalarResv }

/-- The monitors that hear a write at a level: those of one core, of one cluster, or of the package. -/
def State.alert (s : State) (r : LineRef) (lv : Level3) (inReach : Team → Bool) : State :=
  s.mapTeams fun tm => if inReach tm then tm.hear r lv else tm

/-- A byte reaches its home slice (R166): memory, monitors and reservations. -/
def State.homeWrite (s : State) (p a : Nat) (b : Byte) (k th : Nat) : State :=
  let s := s.modPm p fun m => { m with bytes := m.bytes.write a b, poison := terase m.poison a }
  s.mapTeams fun tm => (tm.hear (.home p (a / 64)) .home).loseResv (.home p (a / 64)) k th

/-- Replace byte `i` of a held line. -/
def setInLine (ls : Tbl (Option (List Byte))) (a : Nat) (b : Byte) : Tbl (Option (List Byte)) :=
  match tget none ls (a / 64) with
  | some l => tinsert ls (a / 64) (some (l.set (a % 64) b))
  | none => ls

/-- A view takes a stored byte. -/
def View.store (v : View) (a : Nat) (d : DirtyByte) : View :=
  { lines := setInLine v.lines a d.byte, lost := terase v.lost a, dirty := tinsert v.dirty a (some d) }

/-- A byte reaches a cluster unit (R167). -/
def State.clusWrite (s : State) (cl a : Nat) (d : DirtyByte) : State :=
  let s := s.modCluster cl fun c =>
    { c with view := c.view.store a d }
  s.alert (.home s.pkg (a / 64)) .cluster fun tm => clusterOf tm.coreId == cl

/-- A byte reaches the running core's view (R28). -/
def State.viewWrite (s : State) (a : Nat) (d : DirtyByte) : State :=
  let s := { s with core := { s.core with view := s.core.view.store a d } }
  s.alert (.home s.pkg (a / 64)) .coreView fun tm => tm.coreId == s.core.id

/-- A byte reaches a scratchpad bank of block `bk`. -/
def State.spadWriteAt (s : State) (bk o : Nat) (b : Byte) (k th : Nat) : State :=
  let s := s.modBlk bk fun x => { x with spad := x.spad.write o b, spadPoison := terase x.spadPoison o }
  s.mapTeams fun tm => (tm.hear (.spad bk (o / 64)) .home).loseResv (.spad bk (o / 64)) k th
/-- A byte reaches a scratchpad bank of the running block. -/
def State.spadWrite (s : State) (o : Nat) (b : Byte) (k th : Nat) : State := s.spadWriteAt s.blk.key o b k th

/-- A store's byte reaches the first place that serves other accesses (R28): the host interface, for host space (R185). -/
def State.land (s : State) (k : Nat) (w : PendingByte) : State :=
  match w.loc with
  | .view a => s.viewWrite a { byte := w.byte, team := k, thread := w.thread }
  | .home p a => s.homeWrite p a w.byte k w.thread
  | .spad o => s.spadWrite o w.byte k w.thread
  | .acc o => { s with blk := { s.blk with acc := s.blk.acc.write o w.byte, spadPoison := terase s.blk.spadPoison (accKey o) } }
  | .priv t o => { s with team := { s.team with priv := s.team.priv.write (256 * t + o) w.byte } }
  | .hostMem a => { s with hub := { s.hub with posted := s.hub.posted ++ [(s.core.id, a, w.byte)] } }

/-- Posted writes reach host memory in their order (R185). -/
def State.postAll (s : State) : State :=
  { s with hostMem := s.hub.posted.foldl (fun m e => m.write e.2.1 e.2.2) s.hostMem, hub := { s.hub with posted := [] } }

/-- The oldest posted write reaches host memory (R185): its bytes within one 64-byte line, after any step (log 3). -/
def State.postOne (s : State) : State :=
  match s.hub.posted with
  | [] => s
  | e :: r =>
    let same := fun (x : Nat × Nat × Byte) => x.1 == e.1 && x.2.1 / 64 == e.2.1 / 64
    { s with hostMem := (e :: r.takeWhile same).foldl (fun m x => m.write x.2.1 x.2.2) s.hostMem,
             hub := { s.hub with posted := r.dropWhile same } }

/-- A byte on its way to another package than `pkg`. -/
def PendingByte.far (pkg : Nat) (w : PendingByte) : Bool :=
  match w.loc with
  | .home p _ => p != pkg
  | _ => false

/-- The access has bytes on their way to another package, and no link moves data (R285). -/
def State.farHeld (s : State) (a : Access) : Bool := !s.linked && a.writes.any (PendingByte.far s.pkg)

/-- A byte on its way to host memory. -/
def PendingByte.toHost (w : PendingByte) : Bool :=
  match w.loc with
  | .hostMem _ => true
  | _ => false

/-- Every host-space store that the teams of the running core have issued is written into host memory (R185). -/
def State.hostFlush (s : State) : State :=
  let here := (tvals s.teamTbl).filter fun t => t.coreId == s.core.id
  let ws := here.flatMap fun t => t.inflight.flatMap fun a => a.writes.filter PendingByte.toHost
  let s := (ws.foldl (fun s w => s.land 0 w) s).postAll
  s.mapTeams fun t => if t.coreId = s.core.id then
      { t with inflight := t.inflight.map fun a => { a with writes := a.writes.filter fun w => !w.toHost } }
    else t

/-- Write down the dirty bytes of core `c` that pass `f` to its cluster unit (R167, R168). -/
def State.coreDown (s : State) (c : Nat) (f : Nat → Bool) : State :=
  let ds := (s.getCore c).view.dirty.filter fun e => f e.1
  let s := s.modCore c fun x => { x with view := { x.view with dirty := x.view.dirty.filter fun e => !f e.1 } }
  ds.foldl (fun s e => match e.2 with
    | some d => s.clusWrite (clusterOf c) e.1 d
    | none => s) s

/-- Write down the dirty bytes of a cluster unit that pass `f` to the home slices (R167, R168). -/
def State.clusDown (s : State) (cl : Nat) (f : Nat → Bool) : State :=
  let ds := (s.getCluster cl).view.dirty.filter fun e => f e.1
  let s := s.modCluster cl fun x => { x.charge ds.length with view := { x.view with dirty := x.view.dirty.filter fun e => !f e.1 } }
  ds.foldl (fun s e => match e.2 with
    | some d => s.homeWrite s.pkg e.1 d.byte d.team d.thread
    | none => s) s

/-- The level of a scope (R167). -/
def scopeLevel : Scope → Level3
  | .thr | .grp | .team | .core => .coreView
  | .quad | .clus => .cluster
  | _ => .home

/-- Publish at a level, for core `c` (R168). -/
def State.publish (s : State) (c : Nat) : Level3 → State
  | .coreView => s
  | .cluster => s.coreDown c fun _ => true
  | .home => (s.coreDown c fun _ => true).clusDown (clusterOf c) fun _ => true

/-- Refresh at a level, for core `c` (R168). -/
def State.refresh (s : State) (c : Nat) : Level3 → State
  | .coreView => s
  | .cluster => s.modCore c fun x => { x with view := x.view.empty }
  | .home =>
    let s := s.clusDown (clusterOf c) fun _ => true
    let s := s.modCore c fun x => { x with view := x.view.empty }
    s.modCluster (clusterOf c) fun x => { x with view := x.view.empty }

/-- The wider of two levels. -/
def Level3.max : Level3 → Level3 → Level3
  | .home, _ => .home
  | _, .home => .home
  | .cluster, _ => .cluster
  | _, .cluster => .cluster
  | _, _ => .coreView

/-! ### In-flight accesses -/

/-- The access's part on a path has completed (R28). -/
def Access.doneOn (a : Access) (p : Path) : Bool := a.done || decide (p ∈ a.donePaths)

/-- The access's part on a path completes; with its last part all of it has completed (R28). -/
def Access.finishPath (a : Access) (p : Path) : Access :=
  let ds := if p ∈ a.donePaths then a.donePaths else a.donePaths ++ [p]
  { a with donePaths := ds, done := a.paths.all (· ∈ ds) }

/-- The byte belongs to the access's part on a path: a store's bytes go each on its own path (R28). -/
def Access.partOf (a : Access) (p : Option Path) (w : PendingByte) : Bool :=
  match p with
  | none => true
  | some p => decide (a.kind ≠ .store) || decide (w.loc.path = p)

/-- Retire accesses in order of issue (R28): on each path an access's part falls when it has completed and every earlier access on that path has. -/
def retire : List Path → List Access → List Access
  | _, [] => []
  | held, a :: as =>
    let left := a.paths.filter fun p => !a.doneOn p || decide (p ∈ held)
    if a.done && left.isEmpty then retire held as
    else { a with paths := left } :: retire (held ++ left) as

/-- The path counter (R27, R28). -/
def Team.counter (tm : Team) (p : Path) : Nat := (tm.inflight.filter fun a => p ∈ a.paths).length

/-- Add one in-flight access. A sequencer counts on no path counter: its access is made at once (R133). -/
def State.issue (s : State) (a : Access) : State :=
  if s.team.kind = .team then { s with team := { s.team with inflight := s.team.inflight ++ [a] } }
  else a.writes.foldl (fun s w => s.land s.team.key w) s

/-! ### Fetch -/

/-- The word at a code-space offset, or the fetch error (R143, R227): fetch needs the X bit. A tag or counter mismatch of its bytes is an uncorrectable error (R272). A fetch, like a table walk, whose bytes are lost in HBM4 or a home slice reads them as stored and reports nothing: the table of R228 names neither (log 17). -/
def State.fetchWord (s : State) (pc : Nat) : Except MemErr Word :=
  let off := (s.launch.code.base + pc) % 2 ^ 48
  match s.leaf off with
  | .error x => .error x
  | .ok e =>
    if !e.x then .error .permission
    else if e.efmt ≠ 0 then .error .format
    else if e.alias_ && !s.team.priv? then .error .permission
    else if Config.memBytes < e.phys off + 4 then .error .hole
    else if (upList (e.phys off) 4).any fun a => s.viewPoison a == 4 then .error (.uncorr 3)
    else .ok (BitVec.ofNat 32 (leNat ((upList (e.phys off) 4).map s.viewByte)))

/-- The line that a fetch of the word at `pc` reads: that of the word's physical address, where the word may be fetched (R227). -/
def State.fetchedLine (s : State) (pc : Nat) : Option Nat :=
  match s.fetchWord pc, s.leaf ((s.launch.code.base + pc) % 2 ^ 48) with
  | .ok _, .ok e => some (e.phys ((s.launch.code.base + pc) % 2 ^ 48) / 64)
  | _, _ => none

/-- What a read of the text at `pc` leaves: the translation buffered (R227), the line in the core's view and its instruction cache (R2, R167), its requests charged (R291). -/
def State.readText (s : State) (pc : Nat) : State :=
  let line := s.fetchedLine pc
  let s := s.fill ((s.launch.code.base + pc) % 2 ^ 48)
  match line with
  | some n => s.fetchLine n
  | none => s

/-- Tumbler counts a word that meets a tag or counter mismatch (R272). -/
def State.noteMismatch (s : State) (yes : Bool) : State :=
  if yes then { s with tumbler := { s.tumbler with integrity := s.tumbler.integrity + 1 } } else s

end Sys2Proof.Machine
end

