-- ==== Sys2Proof/Machine/FrontEnd.lean ====
section
/-! DEFINITION. The scalar front-end (R20 to R22): which words it executes itself, the decision queue as it serves a team, and whether a context's next word is one of the front-end's. -/

namespace Sys2Proof.Machine

/-- Every register of a list is scalar (R20). -/
def allScalar (rs : List Reg) : Bool := rs.all Reg.isScalar

/-- The word is a scalar instruction, which the front-end executes itself (R20); every other word is a vector instruction. -/
def Instr.frontEnd : Instr → Bool
  | .add d a b | .sub d a b | .and d a b | .or d a b | .xor d a b | .andn d a b => allScalar [d, a, b]
  | .minSgn d a b | .maxSgn d a b | .minUns d a b | .maxUns d a b => allScalar [d, a, b]
  | .shl d a b | .shr d a b | .sra d a b | .rot d a b => allScalar [d, a, b]
  | .mulLo d a b | .mulHiSgn d a b | .mulHiUns d a b | .mad d a b | .bfx d a b | .bfi d a b => allScalar [d, a, b]
  | .mov d a | .clz d a | .popc d a | .brev d a | .not d a => allScalar [d, a]
  | .absI32 d a | .absI16x2 d a | .absI8x4 d a | .negI32 d a | .negI16x2 d a | .negI8x4 d a => allScalar [d, a]
  | .addI16x2 d a b | .addI8x4 d a b | .subI16x2 d a b | .subI8x4 d a b => allScalar [d, a, b]
  | .minI16x2 d a b | .maxI16x2 d a b | .minI8x4 d a b | .maxI8x4 d a b => allScalar [d, a, b]
  | .addImm d a _ | .andImm d a _ | .orImm d a _ | .xorImm d a _ => allScalar [d, a]
  | .shlImm d a _ | .shrImm d a _ | .sraImm d a _ | .rotImm d a _ => allScalar [d, a]
  | .li d _ | .lih d _ => d.isS
  | .cmp _ _ a b => allScalar [a, b]
  | .cmpImm _ _ a _ => a.isScalar
  | .sel d a b _ => allScalar [d, a, b]
  | .fadd _ d a b | .fsub _ d a b | .fmul _ d a b | .fmin _ d a b | .fmax _ d a b => allScalar [d, a, b]
  | .fabs _ d a | .fneg _ d a => allScalar [d, a]
  | .faddPacked _ d a b | .fsubPacked _ d a b | .fmulPacked _ d a b | .fminPacked _ d a b => allScalar [d, a, b]
  | .fmaxPacked _ d a b | .ffmaPacked _ d a b => allScalar [d, a, b]
  | .fabsPacked _ d a | .fnegPacked _ d a => allScalar [d, a]
  | .ffma _ _ d a b => allScalar [d, a, b]
  | .fcmp _ _ _ a b => allScalar [a, b]
  | .cvt _ _ _ d a => allScalar [d, a]
  | .frcp _ d a _ | .frsq _ d a _ | .fsqrt _ d a _ | .fexp2 _ d a _ | .flog2 _ d a _ => allScalar [d, a]
  | .fsin _ d a _ | .fcos _ d a _ => allScalar [d, a]
  | .ldB32 d a _ _ | .ldB8 d a _ _ | .ldB64 d a _ _ | .ldB16 d a _ _ | .ldB128 d a _ _ => allScalar [d, a]
  | .ldI8 d a _ _ | .ldI16 d a _ _ => allScalar [d, a]
  | .stB32 d a _ _ | .stB64 d a _ _ | .stB128 d a _ _ | .stB8 d a _ _ | .stB16 d a _ _ => allScalar [d, a]
  | .lrB32 d a _ _ | .lrB64 d a _ _ | .scB32 d a _ _ | .scB64 d a _ _ => allScalar [d, a]
  | .atom _ _ _ d a _ | .monArm _ d a _ => allScalar [d, a]
  | .pf a _ _ => a.isScalar
  | .nop | .brkpt _ | .wbase _ _ => true
  | .br _ | .brc _ _ | .call _ | .ret | .jmp _ => true
  | .monWait | .phase _ | .wait _ _ => true
  | .latInit _ _ | .latArr _ | .latWait _ _ | .latArw _ | .latGen _ _ => true
  | .qSig _ _ | .qWait _ _ | .perfSet _ | .trap _ | .eret => true
  | .mfsr x _ => !(decide (x.toNat < 0x20) || (decide (0x40 ≤ x.toNat) && decide (x.toNat < 0x54)) || x == 0x61 || x == 0x62)
  | .mtsr x _ => !(x == 0x61 || x == 0x62)
  | .hngSet _ _ | .hngClr _ | .hngRd _ _ | .tlbInv _ _ => true
  | _ => false

/-- The word is a rendezvous (R22, R78, R105, R358, R380). -/
def Instr.rendezvous : Instr → Bool
  | .rdl _ _ _ | .rdcnt _ _ | .illegalWord _ => true
  | .vote _ d _ | .red _ _ d _ => d.isScalar
  | .mfsr x d => !Instr.frontEnd (.mfsr x d)
  | .mtsr x d => !Instr.frontEnd (.mtsr x d)
  | _ => false

/-- The word waits for every outstanding result before it acts (R25): the waits, a rendezvous, an exit. -/
def Instr.flushes : Instr → Bool
  | .exit | .monWait | .wait _ _ | .latWait _ _ | .latArw _ | .join _ => true
  | i => Instr.rendezvous i

/-- The word drains the team's accesses in the front-end: a phase or an ordered atomic (R175, R232, R374). -/
def Instr.drains : Instr → Bool
  | .phase _ => true
  | .atom _ _ o _ _ _ => decide (o ≠ .rlx)
  | _ => false

/-- The limb instructions of R104, whose passes issue back to back (R112). -/
def Instr.limbWord : Instr → Bool
  | .ladd _ _ _ | .lsub _ _ _ | .lneg _ _ | .lcmp _ _ | .lshl _ _ _ | .lshr _ _ _ | .lmul _ _ _ | .lmulAddend _ _ _ => true
  | _ => false

/-! ### The decision queue -/

/-- What the front-end has taken ahead as it serves the team's next word (R21): it begins there with a vector word, or it was fetched for a way that the team has not taken. -/
def Team.ahead (tm : Team) : List QueueWord := if (tm.queue.head?.any fun e => e.pc == tm.pc && e.ran.isNone) then tm.queue else []

/-- The running context's next word: the head of its decision queue, or what a fetch reads (R20). -/
def State.nextWord (s : State) : Except MemErr Word :=
  match s.team.ahead with
  | e :: _ => .ok e.word
  | [] => s.fetchWord s.team.pc

/-- The next word of the running team is one that the front-end executes; a word that cannot be fetched faults there (R20, R227). -/
def State.frontNext (s : State) : Bool :=
  match s.nextWord with
  | .ok w => (decode w).any Instr.frontEnd
  | .error _ => true

/-- The word at which the team is: the one whose passes issue, else its next word (R201, R230). -/
def Team.current (tm : Team) : Nat := if tm.owed.isEmpty then tm.pc else tm.issPc

/-- The word that a sample names (R230, R245): the region's first word where the team runs a candidate, else the word whose passes issue, else the next word. -/
def Team.sampledPc (tm : Team) : Nat := (tm.cand.map (·.entry)).getD tm.current

/-- Where the front-end fetches next for a team: behind what it has taken ahead. -/
def Team.fetchPc (tm : Team) : Nat :=
  match tm.ahead.getLast? with
  | some e => (e.ran.map (·.next)).getD (e.pc + 4)
  | none => tm.pc

/-- The team may run: it is resident, not parked, not stopped, and has not ended (R201). -/
def Team.ready (tm : Team) : Bool :=
  decide (tm.kind = .team) && decide (tm.threads ≠ 0) && tm.parked.isNone && !tm.stopped && !tm.ended

/-! ### Waits at issue -/

/-- The accesses of a word: the active threads, or the scalar front-end (1,024), each with its pointer (R50, R346). -/
def State.reqs (s : State) (a : Reg) (scalar : Bool) (off : Int) : List (Nat × DWord) :=
  (if scalar then [1024] else s.team.actives).map fun t => (t, s.team.rd64 s.blk.bix a t + BitVec.ofInt 64 off)

/-- The paths that accesses count on, each once (R27, R28). -/
def pathsOf (rs : List (Nat × DWord)) : List Path := (rs.map fun r => pathOf (ptrSpace r.2)).eraseDups

/-- A path whose counter stands at 255: the word waits at issue until it falls (R28). -/
def Team.fullPath (tm : Team) (ps : List Path) : Option Path := ps.find? fun p => decide (255 ≤ tm.counter p)

/-- The paths on which a vector word of the running team counts (R27, R28). -/
def State.countsOn (s : State) (i : Instr) : List Path :=
  let via := fun (a : Reg) (n : Nat) (o : BitVec 7) => pathsOf (s.reqs a false (n * o.toInt))
  match i with
  | .ldB32 _ a o _ | .stB32 _ a o _ | .lrB32 _ a o _ | .scB32 _ a o _ => via a 4 o
  | .ldB8 _ a o _ | .ldI8 _ a o _ | .stB8 _ a o _ => via a 1 o
  | .ldB64 _ a o _ | .stB64 _ a o _ | .lrB64 _ a o _ | .scB64 _ a o _ => via a 8 o
  | .ldB16 _ a o _ | .ldI16 _ a o _ | .stB16 _ a o _ => via a 2 o
  | .ldB128 _ a o _ | .stB128 _ a o _ => via a 16 o
  | .tld _ _ _ _ | .pf _ _ _ => if s.team.execZero then [] else [.g]
  | .atom _ _ _ _ _ _ | .monArm _ _ _ _ => if s.team.execZero then [] else [.a]
  | .cp _ _ _ => [.c]
  | .mxPost _ _ _ _ => [.m]
  | _ => []

/-- An engine fault of the team's own command on an engine (R131, R161). -/
def EngFault.ownOf (e : Engine) (f : EngFault) : Bool :=
  decide (f.engine = e) && (match f.origin with
    | .team _ _ => true
    | _ => false)

/-- A fault of a matrix command that the team posted awaits delivery (R366): what it posts meanwhile is discarded. -/
def Team.discardsMx (tm : Team) : Bool := tm.engFaults.any (EngFault.ownOf .mx)

/-- A fault of a copy that the team issued awaits delivery (R161): what it issues meanwhile is discarded. -/
def Team.discardsCp (tm : Team) : Bool := tm.engFaults.any (EngFault.ownOf .cp)

/-- Free entries of the FIFO of an engine (R136, R160). -/
def Block.fifoRoom (b : Block) (e : Engine) : Nat :=
  match e with
  | .mx => 16 - b.mxFifo.length
  | .cp => 16 - b.cpFifo.length

/-- The order in which contexts of a block enter a FIFO when several may at once (R136, R160): the engine's own stream, the other stream, the teams by index. -/
def Team.fifoRank (tm : Team) (e : Engine) : Nat :=
  match tm.kind, e with
  | .mxStream, .mx => 0
  | .cpStream, .cp => 0
  | .team, _ => 2 + tm.index
  | _, _ => 1

/-- The context may enter a FIFO: an entry is free, none is promised to another context, which enters first, and no context that waits for one comes before it (R136, R160). -/
def State.mayEnter (s : State) (tm : Team) (e : Engine) : Bool :=
  let b := (s.getBlk tm.blkKey).getD {}
  let others := (s.ctxsOf tm.blkKey).filter fun o => o.key != tm.key
  decide (0 < b.fifoRoom e) && !(others.any fun o => decide (o.promised = some e)) && (decide (tm.promised = some e) ||
    !others.any fun o => decide (o.parked = some (.fifo e)) && !o.stopped && decide (o.fifoRank e < tm.fifoRank e))

/-- REASON of the wait at issue that a vector word of the running team meets, if any: a counter at 255 (R28), the FIFO of `mx.post` or of `cp` (R135, R159, R232). -/
def State.issueWait (s : State) (i : Instr) : Option Nat :=
  if (s.team.fullPath (s.countsOn i)).isSome then some 0x08
  else match i with
    | .mxPost _ _ _ _ => if s.team.discardsMx || s.mayEnter s.team .mx then none else some 0x09
    | .cp _ _ _ => if s.team.discardsCp || s.mayEnter s.team .cp then none else some 0x0A
    | _ => none

/-- The wait at issue of the head of the running team's decision queue. -/
def State.headWait (s : State) : Option Nat := (s.team.ahead.head?.bind fun e => decode e.word).bind s.issueWait

/-! ### Hinges at issue -/

/-- Fields of a hinge descriptor (R242). -/
def hgState (d : QWord) : Nat := bitsOf d.toNat 1 0
def hgHandle (d : QWord) : Nat := bitsOf d.toNat 39 25
def hgStart (d : QWord) : Nat := bitsOf d.toNat 63 40

/-- The core's shadow context holds a comparison (R240, R246). -/
def Core.comparing (c : Core) : Bool := c.hinges.any fun h => !h.2.pending.isEmpty

/-- A comparison of a team that has waited 64 cycles takes the team's own slots (R246). -/
def Core.holds (c : Core) (key : Nat) : Bool := c.hinges.any fun h => h.2.pending.any fun x => x.team == key && decide (64 ≤ x.waited)

/-- The entry that matches the running team's word (R244). -/
def State.hingeHere (s : State) : Option (Nat × Hinge) :=
  s.core.hinges.find? fun h => h.2.launchUid == s.launch.uid && (hgState h.2.desc == 1 || hgState h.2.desc == 2)
    && hgHandle h.2.desc == s.launch.handle && s.team.pc == s.launch.code.textOff + 4 * hgStart h.2.desc

/-- The running team may decide a hinge at its word: it is about to issue it, and no decision for this execution stands. -/
def State.decides (s : State) : Bool :=
  s.team.ready && s.team.owed.isEmpty && s.team.cand.isNone && s.team.decided != some s.team.pc && s.hingeHere.isSome

/-- The running team waits for a busy shadow context: its hinge decision is an audit, which has raised ACNT (R244, R246). -/
def State.auditWaits (s : State) : Bool :=
  s.decides && s.core.comparing && s.team.auditHeld == some s.team.pc && (s.hingeHere.any fun h => hgState h.2.desc == 2)

/-! ### Ready passes -/

/-- The team has a ready pass (R201): passes of its last word are left, or a candidate's word follows, or the head of its decision queue meets no wait at issue, and neither a comparison in its slots nor an audit holds it (R246). Results of long latency have returned when they are due (log 14), so that no operand is held by an interlock. -/
def State.passReady (s : State) (t : Team) : Bool :=
  t.ready && (!t.owed.isEmpty || t.cand.isSome || (!t.ahead.isEmpty && (s.focus t.key).headWait.isNone))
    && !(s.getCore t.coreId).holds t.key && !(s.focus t.key).auditWaits

end Sys2Proof.Machine
end

