-- ==== Sys2Proof/Machine/Records.lean ====
section
/-! DEFINITION. Helolo's records (R252-R264, R267): code positions, buffers, stop requests and stop records, watches, the race detector, and the order of arrivals that capture records and replay enforces. -/

namespace Sys2Proof.Machine

/-! ### Code positions -/

/-- The text offset in words of a code-space byte offset (R61, R64). -/
def textIdx (c : CodeObj) (pc : Nat) : Nat := (pc - c.textOff) / 4
/-- The ordinal of the last safe point at or before a word (R60). -/
def ordOf (c : CodeObj) (pc : Nat) : Nat := ((c.safePoints.filter fun p => decide (p.off ≤ textIdx c pc)).length) - 1
/-- The distance in words from that safe point (R230). -/
def distOf (c : CodeObj) (pc : Nat) : Nat :=
  match c.safePoints[ordOf c pc]? with
  | some p => textIdx c pc - p.off
  | none => textIdx c pc
/-- HANDLE and DIST of a record's word 1. -/
def codeWord (c : CodeObj) (pc : Nat) : Word := BitVec.ofNat 32 (c.handle % 32768 * 65536 + distOf c pc % 256 * 256)
/-- ORD of a record's word 2. -/
def ordWord (c : CodeObj) (pc : Nat) : Word := BitVec.ofNat 32 (ordOf c pc % 2 ^ 31)
/-- CSLOT, 16·QTR + SLOT. -/
def Team.cslot (tm : Team) : Nat := 16 * tm.qtr + tm.slot
/-- A record's header word (R253). -/
def header (len ty low : Nat) : Word := BitVec.ofNat 32 (2 ^ 31 + len * 2 ^ 28 + ty * 2 ^ 22 + low % 2 ^ 22)

/-- A launch of a protected world (R252). -/
def State.protectedLaunch (s : State) (l : Launch) : Bool := tget .free s.tumbler.worlds l.world == .prot

/-- A debugger is attached to the launch and may reach it: no debug facility reaches a protected world (R252, R277). -/
def State.debugged (s : State) (l : Launch) : Bool := l.debugger && !s.protectedLaunch l

/-! ### Buffers -/

/-- The page belongs to the world itself (R225, R273, R278). -/
def PkgMem.ownedBy (m : PkgMem) (world page : Nat) : Bool := bitsOf (tget 0 m.owners page).toNat 5 0 == world

/-- Write one word through a launch's translation and the owner check (R254); none where either fails. With `own`, the page must be one of the launch's own world (R278). -/
def State.recWord (s : State) (l : Launch) (own : Bool) (q : DWord) (w : Word) : Option State :=
  match walk (s.pm s.pkg) l.root (ptrOff q) with
  | .error _ => none
  | .ok e => match fillCheck (s.pm s.pkg) l.world e with
    | .error _ => none
    | .ok e =>
      if !e.w || Config.memBytes < e.phys (ptrOff q) + 4 || (own && !(s.pm s.pkg).ownedBy l.world (e.phys (ptrOff q) / 65536)) then none
      else some ((leBytes 4 w.toNat).zipIdx.foldl (fun s b => s.homeWrite s.pkg (e.phys (ptrOff q) + b.2) b.1 (2 ^ 32) 0) s)

/-- Write consecutive words; none where one fails. -/
def State.recWords (s : State) (l : Launch) (own : Bool) (base : DWord) : Nat → List Word → Option State
  | _, [] => some s
  | i, w :: ws => match s.recWord l own (base + BitVec.ofNat 64 (4 * i)) w with
    | none => none
    | some s' => s'.recWords l own base (i + 1) ws

/-- Tumbler counts a walk for one of some offsets under a launch's root that meets a tag or counter mismatch (R272). -/
def State.noteWalk (s : State) (l : Launch) (offs : List Nat) : State :=
  s.noteMismatch (offs.any fun o => match walk (s.pm s.pkg) l.root o with
    | .error x => x == .uncorr 3
    | .ok _ => false)

/-- A record that is dropped is counted (R254, R255). -/
def HBuf.drop1 (b : HBuf) : HBuf := { b with lost := min (b.lost + 1) 0xFFFF }

/-- Write one record to a buffer (R254, R255). -/
def State.putRec (s : State) (l : Launch) (b : HBuf) (stopMode : Bool) (rec : List Word) : State × HBuf :=
  let sz := 2 ^ (b.sizel + 10)
  let n := rec.length
  if b.dropping then (s, b.drop1)
  else if !b.en then (s, b)
  else
    let wrap := fun (x : HBuf) => if x.wptr = sz then { x with wptr := 0, wraps := (x.wraps + 1) % 65536 } else x
    let end_ := b.wptr + n
    let failed := (s.noteWalk l ((upList b.wptr (min end_ sz - b.wptr) ++ upList 0 (end_ - sz)).map fun k => ptrOff (b.base + BitVec.ofNat 64 (4 * k))), { b.drop1 with fault := true, en := false, dropping := true })
    if b.wptr + n ≤ sz then
      match s.recWords l false b.base b.wptr rec with
      | some s' => (s', wrap { b with wptr := b.wptr + n })
      | none => failed
    else if !stopMode then
      match s.recWords l false b.base b.wptr ((upList b.wptr (sz - b.wptr)).map fun _ => 0x8FC00000#32) with
      | none => failed
      | some s' => match s'.recWords l false b.base 0 rec with
        | some s'' => (s'', wrap { b with wptr := n, wraps := (b.wraps + 1) % 65536 })
        | none => failed
    else (s, { b.drop1 with dropping := true })

/-- Write a record to a launch's debug buffer; no debug facility reaches a launch of a protected world (R252, R277). -/
def State.debugRec (s : State) (uid : Nat) (rec : List Word) : State :=
  match s.getLaunch uid with
  | none => s
  | some l =>
    if s.protectedLaunch l then s
    else
      let (s, b) := s.putRec l l.debugBuf l.debugBuf.mode rec
      s.modLaunch uid fun l => { l with debugBuf := b }

/-- Write a record to a launch's replay buffer, which always runs in stop mode (R254); none of a protected world (R252). -/
def State.replayRec (s : State) (uid : Nat) (rec : List Word) : State :=
  match s.getLaunch uid with
  | none => s
  | some l =>
    if s.protectedLaunch l then s
    else
      let (s, b) := s.putRec l l.replayBuf true rec
      s.modLaunch uid fun l => { l with replayBuf := b }

/-! ### Stops -/

/-- A stop request for a context (R224); each cause is kept once. -/
def Team.requestStop (tm : Team) (c : StopCause) : Team :=
  if tm.kind = .team ∧ c ∉ tm.stops ∧ ¬ tm.ended then { tm with stops := tm.stops ++ [c] } else tm

/-- CAUSE and TAG of a stop record (R258). -/
def stopFields : StopCause → Option (Nat × Nat)
  | .breakpoint k => some (0, k)
  | .brkpt t => some (1, t)
  | .watch k => some (2, k)
  | .debugPort => some (3, 0)
  | .preempt => none

/-- The stop records of a team that stops at `tm.pc`, one per cause in ascending CAUSE (R258). -/
def State.stopRecords (s : State) (tm : Team) : State :=
  let l := (s.getLaunch tm.launchUid).getD {}
  let bix := ((s.getBlk tm.blkKey).getD {}).bix
  let fs := tm.stops.filterMap stopFields
  ((upList 0 4).flatMap fun c => fs.filter fun f => f.1 == c).foldl (fun s f =>
    s.debugRec tm.launchUid [header 3 2 (tm.cslot * 65536 + f.1 * 16384 + f.2 % 128 * 128), codeWord l.code tm.pc,
      ordWord l.code tm.pc, BitVec.ofNat 32 (bix % 2 ^ 31)]) s

/-- Fire the snapshot trigger at the current TIME (R266): ignored while ARM is 0, and while an earlier firing waits for its latch tick (log 37). -/
def State.fireSnapshot (s : State) : State :=
  if s.hub.armed && s.hub.firing.isNone then { s with hub := { s.hub with firing := some s.time } } else s

/-! ### Watches -/

/-- A watch entry's fields (R259). -/
def watchEn (w : QWord) : Bool := w.getLsbD 0
def watchEng (w : QWord) : Bool := w.getLsbD 1
def watchKind (w : QWord) : Nat := bitsOf w.toNat 3 2
def watchAct (w : QWord) : Nat := bitsOf w.toNat 5 4
def watchTrig (w : QWord) : Bool := w.getLsbD 6
def watchLen (w : QWord) : Nat := bitsOf w.toNat 47 32 + 1
def watchBase (w : QWord) : DWord := w.extractLsb' 64 64

/-- The lowest byte of an access of `n` bytes at pointer `q` that lies in a watch's range. -/
def watchHit (w : QWord) (q : DWord) (n : Nat) : Option Nat :=
  let b := watchBase w
  if ptrSpace b = ptrSpace q ∧ (ptrSpace q = 0 ∨ ptrOwner b = ptrOwner q) then
    let lo := max (ptrOff b) (ptrOff q)
    if lo < min (ptrOff b + watchLen w) (ptrOff q + n) then some lo else none
  else none

/-- Stop the teams that a watch's ACT names (R260, R261). -/
def State.watchStop (s : State) (k act : Nat) (origin : Option Nat) (blk : Nat) : State :=
  if act = 1 then (match origin with
    | some t => s.modTeam t fun tm => tm.requestStop (.watch k)
    | none => s)
  else if act = 2 then s.mapTeams fun tm => if tm.blkKey = blk then tm.requestStop (.watch k) else tm
  else s

/-- The word that a record of an engine's write names (R261): the posting word, or the `fork` of the stream. -/
def Block.issuer (b : Block) (o : Origin) (pc : Nat) : Nat :=
  match o with
  | .team _ _ => pc
  | .mxStream => b.mxForkPc
  | .cpStream => b.cpForkPc

/-- The origin of a context's engine commands. -/
def Team.origin (tm : Team) : Origin :=
  match tm.kind with
  | .team => .team tm.key tm.index
  | .mxStream => .mxStream
  | .cpStream => .cpStream

/-- Check a team's access against the watches of its launch (R260): groups of accesses as (thread, pointer), each group with whether it reads and writes, and the size. A stream's record names the `fork` that started it (R261). -/
def State.watchGroups (s : State) (gs : List (List (Nat × DWord) × Bool × Bool)) (n : Nat) : State :=
  if s.protectedLaunch s.launch then s
  else s.launch.watches.foldl (fun s e =>
    let w := e.2
    let kindOk := fun (g : List (Nat × DWord) × Bool × Bool) => (g.2.2 && watchKind w % 2 == 1) || (g.2.1 && 2 ≤ watchKind w)
    let hits := (gs.filter kindOk).flatMap fun g => g.1.filterMap fun a => (watchHit w a.2 n).map fun lo => (a.1, lo, g.2.2)
    match hits with
    | [] => s
    | (t, lo0, wr) :: more =>
      if !watchEn w then s
      else
        let lo := more.foldl (fun m h => min m h.2.1) lo0
        let tm := s.team
        let pc := s.blk.issuer tm.origin tm.pc
        let s := s.debugRec tm.launchUid [header 7 4 (e.1 * 2 ^ 19 + (if wr then 2 ^ 15 else 0)
            + (if tm.kind = .team then 0 else 2 ^ 14) + tm.cslot * 256),
          codeWord s.launch.code pc, ordWord s.launch.code pc, BitVec.ofNat 32 (s.blk.bix % 2 ^ 31),
          BitVec.ofNat 32 (lo % 2 ^ 31),
          BitVec.ofNat 32 (ptrSpace (watchBase w) % 16 * 2 ^ 27 + t % 1024 * 2 ^ 17 + lo / 2 ^ 31 % 2 ^ 17),
          BitVec.ofNat 32 (hits.length % 2 ^ 31), BitVec.ofNat 32 (s.time.toNat % 2 ^ 31)]
        let s := if watchTrig w then s.fireSnapshot else s
        s.watchStop e.1 (watchAct w) (if tm.kind = .team then some tm.key else none) tm.blkKey) s

/-- The same for accesses that all read, all write, or both. -/
def State.watchTeam (s : State) (accs : List (Nat × DWord)) (n : Nat) (rd wr : Bool) : State := s.watchGroups [(accs, rd, wr)] n

/-- The origin team of an engine operation of block `bk`, if it has not exited (R131, R261). -/
def State.originTeam (s : State) (bk : Nat) (o : Origin) : Option Team :=
  match o with
  | .team _ i => (s.teamsOf bk).find? fun t => t.index == i && !t.ended
  | _ => none

/-- The offsets of one space that an engine write into block `dst` hits in a watch's range (R260). -/
def engineHits (w : QWord) (dst : Block) (space : Nat) (offs : List Nat) : List Nat :=
  if !watchEn w || !watchEng w || ptrSpace (watchBase w) != space || ptrOwner (watchBase w) != ownerField dst.origin then []
  else offs.filter fun o => decide (ptrOff (watchBase w) ≤ o) && decide (o < ptrOff (watchBase w) + watchLen w)

/-- One watch and an engine's writes (R260, R261): its first hit is noted with the moment, fires its trigger and asks for its stops; a later one of the same operation may lower the byte that the note names. -/
def State.noteHit (s : State) (b : Block) (o : Origin) (k : Nat) (w : QWord) (space : Nat) (hits : List Nat) (ns : List WatchNote) : State × List WatchNote :=
  match hits with
  | [] => (s, ns)
  | h :: hs =>
    let lo := hs.foldl min h
    if ns.any fun n => n.watch == k then (s, ns.map fun n => if n.watch = k then { n with low := min n.low lo } else n)
    else
      let origin := s.originTeam b.key o
      let s' := if watchTrig w then s.fireSnapshot else s
      (s'.watchStop k (watchAct w) (origin.map (·.key)) b.key,
       ns ++ [{ watch := k, exited := origin.isNone, time := s.time, space := space, low := lo }])

/-- The watches of block `b`'s launch see what an engine operation of the block writes into block `dst` (R260, R261): offsets of one space. -/
def State.noteHits (s : State) (b dst : Block) (space : Nat) (offs : List Nat) (o : Origin) (ns : List WatchNote) : State × List WatchNote :=
  let l := (s.getLaunch b.launchUid).getD {}
  if s.protectedLaunch l then (s, ns)
  else l.watches.foldl (fun r w => r.1.noteHit b o w.1 w.2 space (engineHits w.2 dst space offs) r.2) (s, ns)

/-- An engine operation of block `b` is over: one record for each watch that it hit, in ascending index (R260, R261). CSLOT names a team's slot; a stream has none, and the rule gives the field no value for one: it is 0 (log 37). `src` is the engine (1 copy, 2 matrix), `pc` the word that issued it, `count` the bytes written. -/
def State.watchRecords (s : State) (b : Block) (src : Nat) (origin : Origin) (pc count : Nat) (ns : List WatchNote) : State :=
  match s.getLaunch b.launchUid with
  | none => s
  | some l =>
    let (str, slot) := match origin with
      | .team k _ => (false, k % 64)
      | _ => (true, 0)
    ((upList 0 8).flatMap fun k => ns.filter fun n => n.watch == k).foldl (fun s n =>
      s.debugRec l.uid [header 7 4 (n.watch * 2 ^ 19 + (if !str && n.exited then 2 ^ 18 else 0) + src * 2 ^ 16 + 2 ^ 15
          + (if str then 2 ^ 14 else 0) + slot * 256),
        codeWord l.code pc, ordWord l.code pc, BitVec.ofNat 32 (b.bix % 2 ^ 31), BitVec.ofNat 32 (n.low % 2 ^ 31),
        BitVec.ofNat 32 (n.space % 16 * 2 ^ 27 + n.low / 2 ^ 31 % 2 ^ 17), BitVec.ofNat 32 (count % 2 ^ 31),
        BitVec.ofNat 32 (n.time.toNat % 2 ^ 31)]) s

/-! ### Race detection -/

/-- GEN[4:0] of a block's race latch (R262). -/
def raceGen (l : Launch) (b : Block) : Nat := (tget {} b.latches l.rlat).gen.toNat % 32

/-- A race record enters the queue of the running core's scratchpad (R262): a full queue drops it, and the debug buffer's LOST counts it (R263). -/
def State.queueRace (s : State) (rec : List Word) : State :=
  if s.core.raceQueue.length < 1024 then { s with core := { s.core with raceQueue := s.core.raceQueue ++ [(s.launch.uid, rec)] } }
  else s.modLaunch s.launch.uid fun l => { l with debugBuf := l.debugBuf.drop1 }

/-- The oldest pending race record of a core goes to its launch's debug buffer (R262). -/
def State.raceOne (s : State) (core : Nat) : State :=
  match (s.getCore core).raceQueue with
  | [] => s
  | r :: rs => (s.modCore core fun c => { c with raceQueue := rs }).debugRec r.1 r.2

/-- Every pending race record of a core goes to its launch's debug buffer. -/
def State.raceAll (s : State) (core : Nat) : State :=
  (s.getCore core).raceQueue.foldl (fun s r => s.debugRec r.1 r.2) (s.modCore core fun c => { c with raceQueue := [] })

/-- Check one pass of a team's scratchpad access (R263), made by the word at `pc`: the words touched, and those of them that it writes, as (thread, word offset). A stream's access is no team access. The detector never acts on a protected world (R252, R277). -/
def State.racePass (s : State) (pc : Nat) (ws wrote : List (Nat × Nat)) : State :=
  if !s.launch.race || s.protectedLaunch s.launch || ws.isEmpty || decide (s.team.kind ≠ .team) then s
  else
    let g := raceGen s.launch s.blk
    let slot := s.team.cslot
    let bad := ws.filter fun w =>
      let e := tget ({} : RaceEntry) s.blk.race w.2
      e.v && e.wslot != slot && e.wgen == g
    let s := match bad.head? with
      | none => s
      | some w =>
        let e := tget ({} : RaceEntry) s.blk.race w.2
        let s := s.queueRace [header 3 5 (slot * 65536 + e.wslot * 1024 + (if wrote.isEmpty then 0 else 512)),
          codeWord s.launch.code pc, ordWord s.launch.code pc, BitVec.ofNat 32 (w.1 % 1024 * 2 ^ 19 + 4 * w.2 % 2 ^ 19)]
        if s.launch.rstop then { s with team := s.team.requestStop (.watch 0) } else s
    { s with blk := { s.blk with race := wrote.foldl (fun r w => tput ({} : RaceEntry) r w.2 { v := true, wslot := slot, wgen := g }) s.blk.race } }

/-- The words of a scratchpad access of `n` bytes at offset `o`. -/
def spadWords (o n : Nat) : List Nat := upList (o / 4) ((o + n + 3) / 4 - o / 4)

/-- Engine writes clear the shadow entries of the words written (R263). -/
def clearRace (b : Block) (offs : List Nat) : Block :=
  if b.race.isEmpty then b else { b with race := offs.foldl (fun r o => tput {} r (o / 4) {}) b.race }

/-! ### Capture and replay -/

/-- Append a party to the list of a location. -/
def addParty (loc p : Nat) : List (Nat × List Nat) → List (Nat × List Nat)
  | [] => [(loc, [p])]
  | (l, ps) :: r => if l = loc then (l, ps ++ [p]) :: r else (l, ps) :: addParty loc p r
/-- A party that stands first in the list of a location has acted. -/
def takeParty (loc p : Nat) : List (Nat × List Nat) → List (Nat × List Nat)
  | [] => []
  | (l, ps) :: r => if l = loc then (l, if ps.head? = some p then ps.tail else ps) :: r else (l, ps) :: takeParty loc p r

/-- Location keys: a latch, the copy FIFO and the matrix FIFO of a block's core, and an atomic's home line. -/
def latchLoc (b : Block) (l : Nat) : Nat := b.bix * 64 + l
def fifoLoc (b : Block) (e : Engine) : Nat := b.bix * 64 + (match e with | .cp => 32 | .mx => 33)
def lineLoc (r : LineRef) (bix : Nat) : Nat :=
  match r with
  | .home p n => 2 ^ 60 + p * 2 ^ 33 + n
  | .spad _ n => 2 ^ 50 + bix * 8192 + n
  | .hostLine n => 2 ^ 61 + n

/-- The party number of a context (R267): its slot, or a stream's. -/
def partyOf (tm : Team) : Nat :=
  match tm.kind with
  | .team => tm.cslot
  | .mxStream => 66
  | .cpStream => 67

/-- The party of a context in the model's lists of atomic requests: its key, which the recorded placement keeps (R268). A record names it as R267 does. -/
def Team.party (tm : Team) : Nat := tm.key

/-- Frequel leaves the launch alone: it has opted out, or it is captured or replayed (R236, R267). -/
def Launch.optedOut (l : Launch) : Bool := l.out || l.replay != 0

/-- Under replay, the party must stand first in the recorded list of the location (R268). -/
def Launch.mayAct (l : Launch) (loc p : Nat) : Bool :=
  l.replay != 2 || (match l.recorded.find? (·.1 == loc) with
    | some (_, q :: _) => q == p
    | _ => true)

/-- Note an ordered action: capture appends the party, replay consumes it (R267, R268). -/
def Launch.note (l : Launch) (loc p : Nat) : Launch :=
  if l.replay = 1 then { l with recorded := addParty loc p l.recorded }
  else if l.replay = 2 then { l with recorded := takeParty loc p l.recorded } else l

/-- A list cut into runs of at most `n`, by fuel. -/
def chunks {α : Type} (n : Nat) : Nat → List α → List (List α)
  | 0, _ => []
  | fuel + 1, xs => if xs.length ≤ n then [xs] else xs.take n :: chunks n fuel (xs.drop n)

/-- The arbitration records of one list of parties (R267): MORE marks that the next record continues the list. -/
def State.listRec (s : State) (uid kind : Nat) (ws : List Word) (parties : List Nat) : State :=
  let pack := fun (ps : List Nat) => BitVec.ofNat 32 (ps.getD 0 1023 + ps.getD 1 1023 * 1024 + ps.getD 2 1023 * 2 ^ 20)
  let cs := chunks (3 * (7 - ws.length)) 64 parties
  cs.zipIdx.foldl (fun s c =>
    let ids := (chunks 3 8 c.1).map pack
    let more := if c.2 + 1 < cs.length then 2 ^ 19 else 0
    s.replayRec uid (header (ws.length + ids.length) 7 (kind * 2 ^ 20 + more) :: (ws ++ ids))) s

/-- The open run of atomic requests of a captured launch ends: its list is written (R267). -/
def State.endRun (s : State) (uid : Nat) : State :=
  match (s.getLaunch uid).bind (·.run) with
  | none => s
  | some r => (s.modLaunch uid fun l => { l with run := none }).listRec uid 1 r.words r.parties

/-- The arbitration records of one list in capture mode (R267); what stands open before it is written first. -/
def State.arbRec (s : State) (uid kind : Nat) (ws : List Word) (parties : List Nat) : State :=
  if ((s.getLaunch uid).map (·.replay)) = some 1 then (s.endRun uid).listRec uid kind ws parties else s

/-- An atomic request of a captured launch joins the run at its home, or begins one there (R267, log 15); a list holds at most 960 parties. -/
def State.runRec (s : State) (uid loc : Nat) (ws : List Word) (party : Nat) : State :=
  if ((s.getLaunch uid).map (·.replay)) ≠ some 1 then s
  else match (s.getLaunch uid).bind (·.run) with
    | some r =>
      if r.loc = loc ∧ r.words = ws ∧ r.parties.length < 960 then s.modLaunch uid fun l => { l with run := some { r with parties := r.parties ++ [party] } }
      else (s.endRun uid).modLaunch uid fun l => { l with run := some { loc := loc, words := ws, parties := [party] } }
    | none => s.modLaunch uid fun l => { l with run := some { loc := loc, words := ws, parties := [party] } }

end Sys2Proof.Machine
end

