-- ==== Sys2Proof/Machine/Ops.lean ====
section
/-! DEFINITION. The shared operations of every word: outstanding results (R25, R26), the end of a word, parking and waking (R206, R207), launch failure (R229), taking a trap (R221) and returning from one (R319). -/

namespace Sys2Proof.Machine

/-! ### Accesses that complete -/

/-- An access of the running context lands: its bytes reach their places (R28), and a `tld` is checked for races pass by pass (R263). -/
def State.landAccess (s : State) (a : Access) : State :=
  let ws := a.writes.filterMap fun w => match w.loc with
    | .spad o => some (w.thread, o / 4)
    | _ => none
  let s := if a.kind = .tld then
      (wordsOf (ws.map (·.1))).foldl (fun s p =>
        let pw := (ws.filter fun w => w.1 / 32 == p).eraseDups
        s.racePass a.pc pw pw) s
    else s
  a.writes.foldl (fun s w => s.land s.team.key w) s

/-- Complete access `i` of the running context, or its part on one path (R28): earlier stores to the same locations land first (R169), of a `tld` that writes one of them all its bytes, with its checks (R263), and before a host-space store every earlier one (R185). -/
def State.completeAt (s : State) (i : Nat) (q : Option Path) : State :=
  match s.team.inflight[i]? with
  | none => s
  | some a =>
    let now := a.writes.filter (a.partOf q)
    let mine := now.map (·.loc)
    let first := fun (w : PendingByte) => decide (w.loc ∈ mine) || (w.toHost && now.any PendingByte.toHost)
    let early := fun (b : Access) => if b.kind = .tld ∧ b.writes.any first then b.writes else b.writes.filter first
    let fl := s.team.inflight.zipIdx.map fun p =>
      if p.2 = i then
        (match q with
          | none => { p.1 with done := true, writes := [] }
          | some q => { p.1.finishPath q with writes := a.writes.filter fun w => !a.partOf (some q) w })
      else if p.2 < i then { p.1 with writes := p.1.writes.filter fun w => decide (w ∉ early p.1) } else p.1
    let s := ((s.team.inflight.take i).foldl (fun s b => s.landAccess { b with writes := early b }) s).landAccess { a with writes := now }
    { s with team := { s.team with inflight := retire [] fl } }

/-- Complete every access of the running context on paths G, S, X and A (R168, R221). -/
def State.drain (s : State) : State :=
  let s := s.team.inflight.foldl State.landAccess s
  let fl := s.team.inflight.map fun a =>
    match a.kind with
    | .copy | .matrix => a
    | _ => { a with done := true, writes := [] }
  { s with team := { s.team with inflight := retire [] fl } }

/-- The bytes of an access that may reach their places now: a store into another package only while a link moves data (R184, R285). -/
def State.mayLand (s : State) (w : PendingByte) : Bool := s.linked || !w.far s.pkg

/-- Let the running context's stores reach their places, counters unchanged (R169). -/
def State.landStores (s : State) : State :=
  let now := s.team.inflight.map fun a => { a with writes := a.writes.filter s.mayLand }
  let later := s.team.inflight.map fun a => { a with writes := a.writes.filter fun w => !s.mayLand w }
  let s := now.foldl State.landAccess s
  { s with team := { s.team with inflight := later } }

/-! ### Outstanding results -/

/-- The bits of `m` from `x`, the others from `old`. -/
def merge (m old x : Word) : Word := (old &&& ~~~ m) ||| (x &&& m)

/-- Write an outstanding result (R25). -/
def Pending.write (p : Pending) (tm : Team) : Team :=
  p.vals.foldl (fun tm e => e.2.zipIdx.foldl (fun tm w => match p.dst with
    | .vec r => tm.wrV e.1 (r + w.2) (merge p.mask (tm.rdV e.1 (r + w.2)) w.1)
    | .scal r => tm.wrS (r + w.2) (merge p.mask (tm.rdS (r + w.2)) w.1)
    | .none => tm) tm) tm

/-- A written result has returned: the earliest access of its word that is still on its way completes (R25, R28). -/
def settle1 (pc : Nat) : List Access → List Access
  | [] => []
  | a :: as =>
    if a.pc = pc ∧ !a.done ∧ (a.kind = .load ∨ a.kind = .atomic ∨ a.kind = .trans) then { a with done := true } :: as else a :: settle1 pc as

/-- Write results, the one issued first last, and complete their accesses (R25, R26). -/
def Team.writeAll (tm : Team) (ps : List Pending) : Team :=
  let tm := ps.reverse.foldl (fun tm p => p.write tm) tm
  { tm with inflight := retire [] ((ps.filter fun p => p.dst != .none).foldl (fun l p => settle1 p.pc l) tm.inflight) }

/-- One word of the team has read its operands and acted: results whose shadow ends are written, the one issued first last; they have become due, and a word that reads or writes one may have to wait for it (R25, R26). -/
def Team.tick (tm : Team) : Team :=
  let ps := tm.pend.map fun p => { p with left := p.left - 1 }
  { tm.writeAll (ps.filter fun p => p.left == 0) with
    pend := ps.filter fun p => p.left != 0,
    awaited := tm.awaited ++ (ps.filter fun p => p.left == 0 && p.dst != .none).filterMap fun p => p.vals.head?.map fun v => (p.dst, v.2.length) }

/-- Write every outstanding result (R25). -/
def Team.flush (tm : Team) : Team := { tm.writeAll tm.pend with pend := [] }

/-- A lookahead shadow of n ≥ 1 is open: some of the n words after its own has not read its operands yet (R24, R237). -/
def Team.shadowOpen (tm : Team) : Bool := decide (0 < tm.shadow)

/-- Where a register field's result goes. -/
def Team.dest (tm : Team) (d : Reg) : Dest :=
  match d with
  | .v i => .vec (8 * tm.wb + i.val)
  | .s i => .scal i.val
  | _ => .none

/-- Add an outstanding result with lookahead `n`, whose shadow begins with the next word (R24, R25). A sequencer's result is written at once. -/
def State.later (s : State) (d : Dest) (vals : List (Nat × List Word)) (n : Nat) (mask : Word := 0xFFFFFFFF) : State :=
  let p : Pending := { dst := d, vals := vals, left := n + 1, mask := mask, pc := s.team.pc }
  { s with team := if s.team.kind = .team then { s.team with pend := s.team.pend ++ [p], shadow := max s.team.shadow (n + 1) } else p.write s.team }

/-! ### The end of a word -/

/-- The team is inside an execution that a hinge entry matched, whose last pass has not issued yet (R245). -/
def Team.hinging (tm : Team) : Bool :=
  tm.cand.isSome || (tm.probation.any fun r => decide (r.1 ≤ tm.current) && decide (tm.current < r.2))

/-- The breakpoint entries that do not hit again after a word: those of the word at which a debugger has resumed the context, while no other word has issued (R257). -/
def Team.keptHits (tm : Team) : List Nat := if tm.hitAt = some tm.pc then tm.hitBps else []

/-- What the front-end has taken ahead after a word that went on at `next`: the word's own entry has left, and another way than the words that follow it leaves nothing (R21). -/
def Team.queueAfter (tm : Team) (next : Nat) : List QueueWord := if next = tm.pc + 4 then tm.ahead.tail else []

/-- A word of the context ends: it has taken `cycles` issue cycles, and fetch continues at `next`. A hinged execution of the original is over once a word outside its region runs (R245). Breakpoint entries hit again from here on, unless the word is the one at which a debugger has resumed the context: only another word lifts that (R257). -/
def Team.pastWord (tm : Team) (cycles next : Nat) : Team :=
  { tm with pc := next, fair := tm.fair + cycles, deferred := tm.deferred.map (· - 1), decided := none, auditHeld := none, captured := false, fresh := false,
            hitBps := tm.keptHits, hitAt := if tm.hitAt = some tm.pc then tm.hitAt else none,
            promised := none, shadow := tm.shadow - 1,
            probation := tm.probation.filter fun r => decide (r.1 ≤ tm.current) && decide (tm.current < r.2) }.tick

/-- The scalar words that the front-end has executed ahead take their place in program order once no vector word comes before them: the entries of the undo log that guarded them leave it (R222). -/
def Team.settleRan : List QueueWord → Team → Team
  | [], tm => { tm with queue := [] }
  | e :: r, tm => match e.ran with
    | some x => if e.pc = tm.pc then Team.settleRan r ((x.regs.foldl (fun tm w => tm.wrS w.1 w.2) tm).pastWord 0 x.next) else { tm with queue := [] }
    | none => { tm with queue := e :: r }

/-- A word of the context ends, and the scalar words that have been executed ahead behind it follow. -/
def Team.finish (tm : Team) (cycles next : Nat) : Team := Team.settleRan (tm.queueAfter next) (tm.pastWord cycles next)

/-- Comparisons of a quarter's teams whose executions have issued their last pass wait while the quarter issues (R246). -/
def Core.waitShadow (c : Core) (qtr cycles : Nat) (hinging : Nat → Bool) : Core :=
  let wait := fun (x : Comparison) =>
    if x.team / 16 % 4 = qtr ∧ hinging x.team = false then { x with waited := min 64 (x.waited + cycles) } else x
  { c with hinges := c.hinges.map fun h => (h.1, { h.2 with pending := h.2.pending.map wait }) }

/-- The issue cycles of a word's passes (R13): shared evenly, but for what its last pass takes more; a word of fewer cycles than passes issues once (log 2). -/
def passCycles (cycles passes : Nat) : List Nat :=
  if passes ≤ 1 ∨ cycles < passes then [cycles] else List.replicate (passes - 1) (cycles / passes) ++ [cycles - (passes - 1) * (cycles / passes)]

/-- The issue cycles of `n` passes of `k` cycles, the last of which takes `more` besides. -/
def evenPasses (n k more : Nat) : List Nat := List.replicate (n - 1) k ++ [k + more]

/-- The hold of a capture begins once the last pass of its region has issued (R239). -/
def Team.beginHold (tm : Team) (count : Nat) : Team :=
  if tm.holdFor = 0 ∨ tm.owed ≠ [] then tm else { tm with parked := some (.capture (count + 1 + tm.holdFor)), holdFor := 0 }

/-- The running team issues the first of the passes that it owes (R201, R202): its quarter is held for the pass's cycles, and the other teams of the quarter with a ready pass are passed over. -/
def State.issuePass (s : State) : State :=
  let tm := s.team
  let n := tm.owed.headD 0
  { s with
    team := ({ tm with passed := 0, yielded := false, owed := tm.owed.tail } : Team).beginHold s.freeCount,
    core := ({ s.core with quarters := tput {} s.core.quarters tm.qtr { tget {} s.core.quarters tm.qtr with rp := tm.slot } } : Core).waitShadow
      tm.qtr n fun k => ((s.getTeam k).map Team.hinging).getD false,
    teams := s.teams.map fun e => (e.1, e.2.map fun o =>
      if o.coreId = tm.coreId ∧ o.qtr = tm.qtr ∧ s.passReady o then { o with passed := min 511 (o.passed + n) } else o) }

/-- A word ends (R13, R201, R202) with the issue cycles of each of its passes: the first of them issues, and the others are owed. A word of no pass, and a sequencer's, takes none of the quarter. -/
def State.finishPasses (s : State) (passes : List Nat) (next : Nat) : State :=
  let t : State := { s with team := s.team.finish passes.sum next }
  if passes = [] ∨ s.team.kind ≠ .team then t
  else ({ t with team := { t.team with owed := passes, issPc := s.team.pc } } : State).issuePass

/-- A word ends whose cycles its passes share evenly (R13). -/
def State.finishAt (s : State) (cycles next : Nat) : State :=
  s.finishPasses (if cycles = 0 then [] else passCycles cycles s.team.issuing) next

/-- A word ends and the next word follows it. -/
def State.finish (s : State) (cycles : Nat) : State := s.finishAt cycles (s.team.pc + 4)

/-- A word ends with the issue cycles of each of its passes, and the next word follows it. -/
def State.finishEach (s : State) (passes : List Nat) : State := s.finishPasses passes (s.team.pc + 4)

/-! ### Parking and waking -/

/-- A team's identity in a token queue, the same after a restore (R379). -/
def Team.wid (tm : Team) : Nat := 16 * tm.blkKey + tm.index

/-- The stream of an engine is running (R132, R163). -/
def Block.running (b : Block) (e : Engine) : Bool :=
  match e with
  | .mx => b.mxRun
  | .cp => b.cpRun

/-- The stream's origin of an engine. -/
def streamOrigin (e : Engine) : Origin :=
  match e with
  | .mx => .mxStream
  | .cp => .cpStream

/-- Some command or copy of an origin is still in a FIFO (R133, R134). -/
def Block.hasWork (b : Block) (o : Origin) : Bool := b.mxFifo.any (·.origin == o) || b.cpFifo.any (·.origin == o)

/-- The stream of an engine has ended and none of its commands remain (R134, R163). -/
def Block.joinHolds (b : Block) (e : Engine) : Bool :=
  !b.running e && (match e with
    | .mx => !(b.mxFifo.any fun x => x.origin == .mxStream && !x.mtsr)
    | .cp => !(b.cpFifo.any fun x => x.origin == .cpStream))

/-- The condition on which a context is parked holds (R206). -/
def State.parkHolds (s : State) (tm : Team) (c : Park) : Bool :=
  let b := (s.getBlk tm.blkKey).getD {}
  match c with
  | .path p k => decide (tm.counter p ≤ k)
  | .full p => decide (tm.counter p < 255)
  | .latch l g => (tget {} b.latches l).gen.toNat != g
  | .monitor => decide (tm.mon = .triggered)
  | .join e => b.joinHolds e
  | .fork _ => false
  | .qSend q _ _ => decide ((tget {} s.hub.tokenQueues q).tokens.length < 255)
  | .qRecv q _ =>
    let k := tget {} s.hub.tokenQueues q
    decide (k.waiters.idxOf tm.wid < k.waiters.length) && decide (k.waiters.idxOf tm.wid < k.tokens.length)
  | .fifo e => s.mayEnter tm e
  | .streamDone => !b.hasWork tm.origin
  | .replay loc p => ((s.getLaunch tm.launchUid).getD {}).mayAct loc p
  | .link => s.linked
  | .capture n => decide (n ≤ s.freeCount)
  | .trap _ => !tm.inflight.any s.farHeld

/-- Change a token queue. -/
def State.modQueue (s : State) (q : Nat) (f : TokenQueue → TokenQueue) : State :=
  { s with hub := { s.hub with tokenQueues := tput {} s.hub.tokenQueues q (f (tget {} s.hub.tokenQueues q)) } }

/-- A token enters a queue (R377). -/
def State.addToken (s : State) (q : Nat) (t : Token) : State :=
  let s := s.modQueue q fun k => { k with tokens := k.tokens ++ [t] }
  if (tget {} s.hub.tokenQueues q).notify then { s with hub := { s.hub with msix := s.hub.msix ++ [6 + q] } } else s

/-- The narrowest level whose scope encloses two cores as placed (R186). -/
def levelBetween (a b : Nat) : Level3 :=
  if a = b then .coreView else if clusterOf a = clusterOf b then .cluster else .home

/-- The level of E for a token and the core that takes it (R186, R379): the wider of the scope that `q.sig` named and the narrowest that encloses both cores; a host's token gives `.host`. -/
def Token.level (t : Token) (core : Nat) : Level3 :=
  match t.core with
  | some c => Level3.max (scopeLevel t.scope) (levelBetween c core)
  | none => .home

/-- The registers of a started stream (R132, R299, R334): a program context of one thread at the stream's first word, with the forking team's scalar registers. -/
def streamCtx (b : Block) (e : Engine) (first : Nat) (regs : Tbl Word) : Team :=
  { kind := match e with
      | .mx => .mxStream
      | .cp => .cpStream,
    key := streamKey b.coreId e, coreId := b.coreId, blkKey := b.key, launchUid := b.launchUid, threads := 1, pc := first, s := regs }

/-- Start a stream of the running context's block or of another resident block, as the `fork` at `pc` asks (R132, R163, R334). -/
def State.startStream (s : State) (bk : Nat) (e : Engine) (pc : Nat) (regs : Tbl Word) : State :=
  match s.getBlk bk with
  | none => s
  | some b =>
    let first := (match e with
      | .mx => b.mxEntry
      | .cp => b.cpEntry).getD 0
    let b' := match e with
      | .mx => { b with mxRun := true, mxForkPc := pc }
      | .cp => { b with cpRun := true, cpForkPc := pc }
    (s.setBlk b').setTeam (streamCtx b e first regs)

/-- The lowest-indexed team of a block that is parked on a condition and not stopped. -/
def State.firstParked (s : State) (bk : Nat) (c : Park) : Option Team :=
  let js := (s.teamsOf bk).filter fun t => t.parked == some c && !t.stopped
  js.find? fun t => js.all fun u => decide (t.index ≤ u.index)

/-- The running team's `fork` issues: it starts the stream anew (R132, R334). -/
def State.issueFork (s : State) (bk : Nat) (e : Engine) : State :=
  let tm := s.team
  (({ s with team := { tm with parked := none } }.finish 1).startStream bk e tm.pc tm.s)

/-- A stream has ended: of the teams parked at a `fork` of it the first starts it anew (R132, R334). -/
def State.giveFork (s : State) (e : Engine) (bk : Nat) : State :=
  match s.getBlk bk, s.firstParked bk (.fork e) with
  | some b, some t =>
    if b.running e then s
    else
      let r := (s.focus t.key).issueFork bk e
      if s.team.threads = 0 then r else r.focus s.team.key
  | _, _ => s

/-! ### Trap entry -/

/-- Class codes of R218. -/
def classCode : TrapClass → Nat
  | .illegal => 0x01
  | .window => 0x02
  | .nesting => 0x03
  | .boundDiv => 0x04
  | .translation => 0x05
  | .pageOwner => 0x06
  | .alignment => 0x07
  | .partialBlock => 0x08
  | .layout => 0x09
  | .rotation => 0x0A
  | .monitor => 0x0B
  | .memError => 0x0C
  | .escape => 0x0D
  | .software => 0x0E
  | .breakpoint => 0x0F

/-- FAULTINFO0 (R80). -/
def faultWord0 (c : TrapCause) : Word := c.detail ++ c.reg ++ BitVec.ofNat 8 (classCode c.cls)

/-- Trap entry steps 2 to 5 of R221, in the running team. The count of a deferred fairness switch is dropped, so that a switch deferred anew after `eret` counts 16 words again: neither R36 nor the trap context of R221 says what becomes of it (log 43). What the front-end has taken ahead goes, and the undo log is thereby unwound (R222). -/
def State.enterTrap (s : State) (c : TrapCause) (entry : Nat) : State :=
  let s := ({ s with team := s.team.flush }).drain
  let tm := s.team
  let ctx : TrapCtx :=
    { resume := match c.resume with
        | .atWord => tm.pc
        | .next => tm.pc + 4,
      cnt := tm.cnt, stack := tm.stack, slot := tm.pathSlot, fair := tm.fair, lastSwitch := tm.lastSwitch,
      limbs := tm.limbs, limbf := tm.limbf }
  let info : Tbl Word := tput 0 (tput 0 (tput 0 (tput 0 [] 0 (faultWord0 c)) 1 (BitVec.ofNat 32 (ordOf s.launch.code tm.pc)))
    2 (loWord c.addr)) 3 (hiWord c.addr)
  { s with team := { tm with
      trapCtx := some ctx, cnt := tm.cnt.filter fun e => !tm.live e.1, stack := [], pathSlot := .empty, limbs := 0,
      faultMask := (wordsOf c.threads).foldl (fun m w => tput 0 m w (maskWord c.threads w)) [], faultInfo := info,
      resv := [], scalarResv := none, deferred := none, cand := none, captured := false, decided := none, auditHeld := none, probation := none,
      promised := none, shadow := 0, parked := none, hitBps := [], hitAt := none, awaited := [], queue := [], owed := [], holdFor := 0, pc := s.launch.code.textOff + entry } }

/-! ### Waking -/

/-- A context parked on a condition that holds wakes (R207). `wait`, a latch wait and a queue word are finished here, `join` has joined, a free FIFO entry is promised, a trap that waited for the accesses before it is entered (R221); every other word is taken again at the context's turn. -/
def State.wakeOne (s : State) (k : Nat) : State :=
  match s.getTeam k with
  | none => s
  | some tm =>
    match tm.parked with
    | none => s
    | some c =>
      if tm.stopped || !s.parkHolds tm c then s
      else
        let free := { tm with parked := none }
        match c with
        | .path _ _ | .latch _ _ => s.setTeam (free.finish 0 (tm.pc + 4))
        | .join _ => s.setTeam { free with joined := true }
        | .fifo e => s.setTeam { free with promised := some e }
        | .qSend q t c => (s.addToken q { word := t, core := some tm.coreId, scope := c }).setTeam (free.finish 0 (tm.pc + 4))
        | .qRecv q r =>
          let tq := tget {} s.hub.tokenQueues q
          let i := tq.waiters.idxOf tm.wid
          let t := tq.tokens.getD i { word := 0, core := none }
          let s := s.modQueue q fun x => { x with tokens := x.tokens.eraseIdx i, waiters := x.waiters.eraseIdx i }
          let s := s.setTeam ((free.wrS r t.word).finish 0 (tm.pc + 4))
          s.refresh tm.coreId (t.level tm.coreId)
        | .trap c =>
          let f := s.focus k
          let r := ({ f with team := free } : State).enterTrap c (f.launch.trapent.getD 0)
          if s.team.threads = 0 then r else r.focus s.team.key
        | _ => s.setTeam free

/-- Stream faults that a join is about to take go to the joining team of lowest index (R341). -/
def State.giveJoinFaults (s : State) (e : Engine) (bk : Nat) : State :=
  match s.getBlk bk with
  | none => s
  | some b =>
    let fs := b.streamFaults.filter fun f => decide (f.engine = e)
    if fs.isEmpty || !b.joinHolds e then s
    else match s.firstParked bk (.join e) with
      | none => s
      | some t =>
        (s.modBlk bk fun b => { b with streamFaults := b.streamFaults.filter fun f => decide (f.engine ≠ e) }).modTeam t.key
          fun t => { t with engFaults := t.engFaults ++ fs }

/-- Wake every context whose condition holds, once over the package (R207). -/
def State.wakePass (s : State) : State :=
  let s := (tvals s.blkTbl).foldl (fun s b => (s.giveJoinFaults .mx b.key).giveJoinFaults .cp b.key) s
  let s := ((tvals s.teamTbl).filter fun t => t.parked.isSome).foldl (fun s t => s.wakeOne t.key) s
  (tvals s.blkTbl).foldl (fun s b => (s.giveFork .mx b.key).giveFork .cp b.key) s

/-- Wake every context whose condition holds (R207); the second pass wakes those whose condition a woken party made hold. -/
def State.wakeAll (s : State) : State := s.wakePass.wakePass

/-- The running context parks on a condition, at its word; a FIFO entry promised to it goes to others. -/
def State.park (s : State) (c : Park) : State := { s with team := { s.team with parked := some c, promised := none } }

/-! ### Blocks that leave, launches that fail -/

/-- Hinge entries and captures of a launch leave a core with its last block there (R242). -/
def State.clearHinges (s : State) (core uid : Nat) : State :=
  if (s.blksOn core).any fun b => b.launchUid == uid then s
  else s.modCore core fun c =>
    { c with hinges := c.hinges.filter fun e => e.2.launchUid != uid,
             capUnit := match c.capUnit with
               | some u => if u.launchUid = uid then none else some u
               | none => none }

/-- A team releases its slot: hinge records cease to name it (R250, R321), and its REQ leaves the cluster (R217). -/
def State.vacate (s : State) (tm : Team) : State :=
  ((s.modCore tm.coreId fun c =>
    { c with hinges := c.hinges.map fun e => (e.1, { e.2 with ran := e.2.ran.filter (· ≠ tm.cslot) }) }).dropTeam tm.key).relevel (clusterOf tm.coreId)

/-- A block and all its contexts leave their core. -/
def State.removeBlock (s : State) (bk : Nat) : State :=
  match s.getBlk bk with
  | none => s
  | some b =>
    let s := (s.ctxsOf bk).foldl (fun s t => if t.kind = .team then s.vacate t else s.dropTeam t.key) s
    (s.dropBlk bk).clearHinges b.coreId b.launchUid

/-- Reason codes of R229. -/
def failCode : FailReason → Nat
  | .noEntry => 0
  | .doubleFault => 1
  | .uncorrectable => 2
  | .exitedRecipient => 3
  | .escape2 => 4
  | .refused => 5
  | .dependence => 6

/-- A launch has ended, failed or been refused: CQDONE and vector 0 (R42). -/
def State.launchDone (s : State) (l : Launch) (st : LaunchStatus) : State :=
  let s := s.setLaunch { l with status := st }
  { s with hub := { s.hub with
      queues := tput {} s.hub.queues l.queue { tget {} s.hub.queues l.queue with done := l.launchid },
      msix := s.hub.msix ++ [0] } }

/-- The failure record of R229. -/
def failRecord (l : Launch) (time : BitVec 64) (cls : Nat) (r : FailReason) (core ord : Nat) (addr : DWord) : List Word :=
  [BitVec.ofNat 32 (l.world % 64 + cls * 2 ^ 8 + failCode r * 2 ^ 16 + l.queue * 2 ^ 24),
   BitVec.ofNat 32 (dieOf core + core % Config.coresPerDie / 8 * 4 + core % 8 * 128),
   BitVec.ofNat 32 ord, BitVec.ofNat 32 l.handle, loWord time, hiWord time,
   if l.world = 0 then loWord addr else 0, if l.world = 0 then hiWord addr else 0]

/-- One launch fails: the last run of a captured launch's atomic requests is recorded (R267), every block stops at once, one record goes to the host (R229). -/
def State.failOne (s : State) (uid cls : Nat) (r : FailReason) (core ord : Nat) (addr : DWord) : State :=
  match (s.endRun uid).getLaunch uid with
  | none => s
  | some l =>
    if l.status = .failed ∨ l.status = .ended ∨ l.status = .refused then s
    else
      let s := s.endRun uid
      let bks := (tvals s.blkTbl).filter fun b => b.launchUid == uid
      let s := bks.foldl (fun s b => s.removeBlock b.key) s
      let s := { s with saved := s.saved.filter fun g => g.launchUid != uid }
      let s := s.mapCores fun _ c => { c with raceQueue := c.raceQueue.filter fun r => r.1 != uid }
      let s := { s with hub := { s.hub with tokenQueues := s.hub.tokenQueues.foldl (fun q (e : Nat × TokenQueue) =>
        tput {} q e.1 { e.2 with waiters := e.2.waiters.filter fun w => w / 268435456 != uid }) [] } }
      let s := { s with hub := { s.hub with failures := s.hub.failures ++ [failRecord l s.time cls r core ord addr] } }
      s.launchDone { l with uid := uid } (if r = .refused then .refused else .failed)

/-- Launches that depend on a failed or refused one, and have placed no block, fail in turn (R187). -/
def State.failDependents : Nat → State → State
  | 0, s => s
  | fuel + 1, s =>
    let bad := fun (u : Nat) => match s.getLaunch u with
      | some l => decide (l.status = .failed ∨ l.status = .refused)
      | none => false
    match (tvals s.launchTbl).find? fun l => decide (l.status = .accepted) && l.placed == 0 && l.deps.any bad with
    | none => s
    | some l => State.failDependents fuel (s.failOne l.uid 0 .dependence 0 0 0)

/-- A launch fails, and its dependents with it (R187, R229). -/
def State.failLaunch (s : State) (uid cls : Nat) (r : FailReason) (core ord : Nat) (addr : DWord) : State :=
  State.failDependents s.launchTbl.length (s.failOne uid cls r core ord addr)

/-- The running team's launch fails. -/
def State.failHere (s : State) (cls : Nat) (r : FailReason) (addr : DWord) : State :=
  s.failLaunch s.team.launchUid cls r s.team.coreId (ordOf s.launch.code s.team.pc) addr

/-! ### Traps -/

/-- The stream of an engine ends (R133): its context goes, and parties parked on its end wake. -/
def State.endStream (s : State) (e : Engine) : State :=
  let s := { s with team := {} }
  let s := { s with blk := match e with
    | .mx => { s.blk with mxRun := false }
    | .cp => { s.blk with cpRun := false } }
  s.wakeAll

/-- DETAIL of a fault that a sequencer word raises (R133, R219). -/
def streamDetail (e : Engine) (c : TrapCause) : BitVec 16 :=
  0x800F#16 ||| (match e with
    | .mx => 0
    | .cp => 0x4000) |||
  (match c.cls with
    | .translation => c.detail &&& 0x3000
    | .memError => (c.detail &&& 3) <<< (10 : Nat)
    | _ => 0)

/-- A word of a sequencer faults (R133): the stream ends and its engine's next `join` takes the fault. When every team of the block has exited, the launch fails instead (R131, R138). -/
def State.streamFault (s : State) (c : TrapCause) : State :=
  let e : Engine := if s.team.kind = .cpStream then .cp else .mx
  let f : EngFault := { engine := e, origin := s.team.origin, cause := { c with threads := [], detail := streamDetail e c, resume := .atWord } }
  if s.blk.teamsLeft = 0 then s.failHere (classCode c.cls) .exitedRecipient c.addr
  else ({ s with blk := { s.blk with streamFaults := s.blk.streamFaults ++ [f] } }).endStream e

/-- Take a trap (R221): without an entry the launch fails with reason 0, inside a handler it is a double fault (R223), in a stream the sequencer's fault (R133). The entry waits for every earlier access, also for a store on its way to another package while no link moves data (R285). -/
def State.takeTrap (s : State) (c : TrapCause) : State :=
  if s.team.kind ≠ .team then s.streamFault c
  else match s.launch.trapent with
    | none => s.failHere (classCode c.cls) .noEntry c.addr
    | some e => if s.team.trapCtx.isSome then s.failHere (classCode c.cls) .doubleFault c.addr
    else if s.team.inflight.any s.farHeld then
      { s with team := { s.team with parked := some (.trap c), cand := none, promised := none, queue := [], owed := [] } }
    else s.enterTrap c e

/-- The fairness timer takes a count (R202). -/
def State.setFair (s : State) (n : Nat) : State := { s with team := { s.team with fair := n } }

/-- Return from a trap (R319): what R221 saved is restored, and fetch continues at the resume point. -/
def State.returnTrap (s : State) (x : TrapCtx) : State :=
  ({ s with team := { s.team with
      trapCtx := none, cnt := x.cnt, stack := x.stack, pathSlot := x.slot, lastSwitch := x.lastSwitch,
      limbs := x.limbs, limbf := x.limbf } }.finishAt 0 x.resume).setFair x.fair

/-- The illegal-instruction trap of a word with major opcode `m` (R218). -/
def State.illegal (s : State) (m : Nat) (scalar : Bool) : State :=
  s.takeTrap { cls := .illegal, threads := if scalar then [] else s.team.actives, detail := BitVec.ofNat 16 m }

/-- The register-out-of-window trap (R15, R218). -/
def State.windowTrap (s : State) (f : BitVec 7) : State :=
  s.takeTrap { cls := .window, threads := s.team.actives, reg := f.setWidth 8,
               detail := BitVec.ofNat 16 s.team.wb }

/-- A memory error as a trap of threads `ts`, with the pointer of the lowest (R218). -/
def State.memTrap (s : State) (e : MemErr) (ts : List Nat) (addr : DWord) : Out :=
  if e = .hole then .fault .physicalHole
  else .next ((s.noteMismatch (e == .uncorr 3)).takeTrap { cls := e.cls, threads := ts, addr := addr, detail := e.detail })

/-- An engine fault that awaits the running team is taken at this word (R131, R161, R219). -/
def State.takeEngFault (s : State) (p : EngFault → Bool) : Option State :=
  match s.team.engFaults.find? p with
  | none => none
  | some f => some (({ s with team := { s.team with engFaults := s.team.engFaults.erase f } }).takeTrap f.cause)

end Sys2Proof.Machine
end

