-- ==== Sys2Proof/Machine/Operands.lean ====
section
/-! DEFINITION. Operand forms: the scalar and vector forms of R296, what one thread's execution gives, and the one way in which every register-to-register word runs. -/

namespace Sys2Proof.Machine

/-- What the execution of a word in one thread gives: destination words, a predicate bit, floating-point events (indices of FPCNT, R79). -/
structure LaneRes where
  words : List Word := []
  pred : Option (Fin 8 × Bool) := none
  events : List Nat := []
  deriving DecidableEq, Repr

/-- A register-to-register word: its destination, its register fields with their widths in words, its issue cycles per pass, and its result in one thread of a team of block `bix`. `vector` marks the words that are vector whatever their operands (R20). -/
structure Alu where
  dst : Reg := .zr
  regs : List (Reg × Nat)
  vector : Bool := false
  cycles : Nat := 1
  result : Team → Nat → Nat → LaneRes

/-- The word takes its scalar form (R20, R296). -/
def Alu.scalarForm (a : Alu) : Bool := !a.vector && a.regs.all fun e => e.1.isScalar

/-- Write one thread's destination words. -/
def Team.wrWords (tm : Team) (d : Reg) (t : Nat) (ws : List Word) : Team :=
  ws.zipIdx.foldl (fun tm w => tm.wr d w.2 t w.1) tm

/-- Write one thread's result: destination words and predicate. -/
def Team.wrLane (tm : Team) (d : Reg) (t : Nat) (r : LaneRes) : Team :=
  let tm := tm.wrWords d t r.words
  match r.pred with
  | some (p, b) => tm.wrP t p b
  | none => tm

/-- The result of the scalar form: the destination once, a predicate in every present thread (R19, R296). -/
def Team.wrScalar (tm : Team) (d : Reg) (r : LaneRes) : Team :=
  let tm := tm.wrWords d 0 r.words
  match r.pred with
  | some (p, b) => (upList 0 tm.threads).foldl (fun tm t => tm.wrP t p b) tm
  | none => tm

/-- The word's effect on the registers of a team (no window check), with its events (R100: none while EXEC is zero, none of a thread beyond a binding's N). -/
def Alu.apply (a : Alu) (bix : Nat) (tm : Team) : Team × List Nat :=
  if a.scalarForm then
    let r := a.result tm bix tm.t0
    (tm.wrScalar a.dst r, if tm.execZero then [] else r.events)
  else
    let rs := tm.actives.map fun t => (t, a.result tm bix t)
    (rs.foldl (fun x e => x.wrLane a.dst e.1 e.2) tm, rs.flatMap fun e => if tm.loud e.1 then e.2.events else [])

/-- The issue cycles of the word on a quarter (R13, R296). -/
def Alu.cost (a : Alu) (tm : Team) : Nat := if a.scalarForm then 0 else a.cycles * tm.passes

/-- Run a register-to-register word: window check (R15), then the scalar or the vector form (R296). -/
def execAlu (a : Alu) (s : State) : Out :=
  match s.team.windowFail a.regs with
  | some f => .next (s.windowTrap f)
  | none =>
    let r := a.apply s.blk.bix s.team
    .next (({ s with team := r.1 }.countEvents r.2).finish (a.cost s.team))

/-- An 11-bit immediate sign-extended (R297). -/
def immOf (i : BitVec 11) : Word := i.signExtend 32

/-- A word with one 32-bit source. -/
def alu1 (f : Word → Word) (d a : Reg) : Alu :=
  { dst := d, regs := [(d, 1), (a, 1)], result := fun tm bix t => { words := [f (tm.rd bix a 0 t)] } }

/-- A word with two 32-bit sources. -/
def alu2 (f : Word → Word → Word) (d a b : Reg) : Alu :=
  { dst := d, regs := [(d, 1), (a, 1), (b, 1)],
    result := fun tm bix t => { words := [f (tm.rd bix a 0 t) (tm.rd bix b 0 t)] } }

/-- A word with two 32-bit sources that also reads its destination. -/
def alu3 (f : Word → Word → Word → Word) (d a b : Reg) : Alu :=
  { dst := d, regs := [(d, 1), (a, 1), (b, 1)],
    result := fun tm bix t => { words := [f (tm.rd bix a 0 t) (tm.rd bix b 0 t) (tm.rd bix d 0 t)] } }

/-- A word with one 32-bit source and an immediate. -/
def aluImm (f : Word → Word → Word) (d a : Reg) (i : Word) : Alu :=
  { dst := d, regs := [(d, 1), (a, 1)], result := fun tm bix t => { words := [f (tm.rd bix a 0 t) i] } }

end Sys2Proof.Machine
end

