-- ==== Sys2Proof/Machine/Flags.lean ====
section
/-! DEFINITION. Flags and conditions: the integer and floating conditions of R73, the floating-point events of R98, and the LIMBF flags of R108. -/

namespace Sys2Proof.Machine

/-- An integer condition (R73, R313). -/
def icond : ICond → Word → Word → Bool
  | .eq, x, y => x == y
  | .ne, x, y => x != y
  | .lt, x, y => x.slt y
  | .le, x, y => x.sle y
  | .gt, x, y => y.slt x
  | .ge, x, y => y.sle x
  | .lo, x, y => x.ult y
  | .ls, x, y => x.ule y
  | .hi, x, y => y.ult x
  | .hs, x, y => y.ule x

/-- A floating condition (R73, R326). -/
def fcond : FCond → FVal → FVal → Bool
  | .eq, x, y => x.eq y
  | .ne, x, y => !x.eq y
  | .lt, x, y => x.lt y
  | .le, x, y => x.lt y || x.eq y
  | .gt, x, y => y.lt x
  | .ge, x, y => y.lt x || x.eq y
  | .un, x, y => x.isNan || y.isNan

/-- The FPCNT index of an event of a format (R79, R98). -/
def evOf (f : FFmt) (e : FEv) : List Nat :=
  match e with
  | none => []
  | some k => [4 * f.idx + k]

/-- LIMBF from its flags (R80). -/
def limbFlags (n z v c : Bool) : BitVec 4 :=
  (if n then 8#4 else 0) ||| (if z then 4#4 else 0) ||| (if v then 2#4 else 0) ||| (if c then 1#4 else 0)

/-- A limb value as signed (R108). -/
def slimb (n x : Nat) : Int := if 2 ^ (32 * n - 1) ≤ x then (x : Int) - 2 ^ (32 * n) else x

/-- `InRange` of R108. -/
def limbInRange (n : Nat) (v : Int) : Bool := decide (-(2 ^ (32 * n - 1) : Int) ≤ v) && decide (v ≤ 2 ^ (32 * n - 1) - 1)

/-- What a limb operation gives: the value to put, none where no register is written, and C and V. -/
structure LimbRes where
  x : Nat
  z : Bool
  v : Bool
  c : Bool
  deriving DecidableEq, Repr

/-- LIMBF after a limb operation of N limbs: N and Z from the result (Z as the operation gives it), V and C as given. -/
def LimbRes.flags (r : LimbRes) (n : Nat) : BitVec 4 := limbFlags (r.x / 2 ^ (32 * n - 1) % 2 == 1) r.z r.v r.c

end Sys2Proof.Machine
end

