-- ==== Sys2Proof/Machine/Integer.lean ====
section
/-! DEFINITION. The integer words: majors 01 to 09 (R296, R297, R300-R304, R308, R312, R347, R348, R355, R357, R361, R364, R367, R369, R370, R375, R384, R390, R393, R401). -/

namespace Sys2Proof.Machine

/-! ### Operations -/

/-- Element `i` of width `w` (R82). -/
def elemAt (w : Nat) (x : Word) (i : Nat) : BitVec w := x.extractLsb' (w * i) w

/-- Apply an operation to each packed element (R82, R83). -/
def packInt (w : Nat) (f : BitVec w → BitVec w → BitVec w) (a b : Word) : Word :=
  (upList 0 (32 / w)).foldl (fun r i => r ||| ((f (elemAt w a i) (elemAt w b i)).setWidth 32 <<< (w * i))) 0

/-- The absolute value; the most negative value returns itself (R83, R300). -/
def absI {w : Nat} (x : BitVec w) : BitVec w := if x.slt 0 then -x else x
/-- The smaller of two signed values (R357). -/
def minS {w : Nat} (x y : BitVec w) : BitVec w := if x.slt y then x else y
/-- The larger of two signed values (R357). -/
def maxS {w : Nat} (x y : BitVec w) : BitVec w := if x.slt y then y else x
/-- The smaller of two unsigned values (R357). -/
def minU (x y : Word) : Word := if x.ult y then x else y
/-- The larger of two unsigned values (R357). -/
def maxU (x y : Word) : Word := if x.ult y then y else x

/-- A shift amount: the low five bits (R384, R390). -/
def amt (b : Word) : Nat := b.toNat % 32
/-- Shift left (R390). -/
def shlW (a b : Word) : Word := a <<< amt b
/-- Shift right with zeros (R390). -/
def shrW (a b : Word) : Word := a >>> amt b
/-- Shift right with copies of the sign (R390). -/
def sraW (a b : Word) : Word := a.sshiftRight (amt b)
/-- Rotate toward bit 31 (R384). -/
def rotW (a b : Word) : Word := a.rotateLeft (amt b)

/-- The high word of the signed product (R364). -/
def mulHiS (a b : Word) : Word := BitVec.ofInt 32 (a.toInt * b.toInt / 2 ^ 32)
/-- The high word of the unsigned product (R364). -/
def mulHiU (a b : Word) : Word := BitVec.ofNat 32 (a.toNat * b.toNat / 2 ^ 32)

/-- Position and width of a bit field (R304). -/
def fieldP (b : Word) : Nat := b.toNat % 32
def fieldW (b : Word) : Nat := min (bitsOf b.toNat 13 8) 32
/-- Extract a bit field (R304). -/
def bfxW (a b : Word) : Word := BitVec.ofNat 32 (a.toNat / 2 ^ fieldP b % 2 ^ fieldW b)
/-- The mask of a bit field (R304). -/
def fieldM (b : Word) : Word := BitVec.ofNat 32 ((2 ^ fieldW b - 1) * 2 ^ fieldP b)
/-- Insert a bit field (R304). -/
def bfiW (a b d : Word) : Word := (d &&& ~~~ fieldM b) ||| ((a <<< fieldP b) &&& fieldM b)

/-- Leading zero bits (R312). -/
def clzW (a : Word) : Word := if a = 0 then 32 else BitVec.ofNat 32 (31 - a.toNat.log2)
/-- The number of 1 bits (R375). -/
def popcW (a : Word) : Word := BitVec.ofNat 32 ((upList 0 32).filter fun i => a.getLsbD i).length
/-- The bits in reverse order (R308). -/
def brevW (a : Word) : Word := (upList 0 32).foldl (fun r i => if a.getLsbD i then r ||| (1#32 <<< (31 - i)) else r) 0

/-- `lih`: bits [31:14] from the immediate (R348). -/
def lihW (i : BitVec 18) (d : Word) : Word := i ++ d.extractLsb' 0 14

/-! ### The words -/

/-- `add` (R301). -/
def aluAdd (d a b : Reg) : Alu := alu2 (· + ·) d a b
/-- `add` (R301). -/
def execAdd (d a b : Reg) (s : State) : Out := execAlu (aluAdd d a b) s

/-- `sub` (R393). -/
def aluSub (d a b : Reg) : Alu := alu2 (· - ·) d a b
/-- `sub` (R393). -/
def execSub (d a b : Reg) (s : State) : Out := execAlu (aluSub d a b) s

/-- `and` (R302). -/
def aluAnd (d a b : Reg) : Alu := alu2 (· &&& ·) d a b
/-- `and` (R302). -/
def execAnd (d a b : Reg) (s : State) : Out := execAlu (aluAnd d a b) s

/-- `or` (R370). -/
def aluOr (d a b : Reg) : Alu := alu2 (· ||| ·) d a b
/-- `or` (R370). -/
def execOr (d a b : Reg) (s : State) : Out := execAlu (aluOr d a b) s

/-- `xor` (R401). -/
def aluXor (d a b : Reg) : Alu := alu2 (· ^^^ ·) d a b
/-- `xor` (R401). -/
def execXor (d a b : Reg) (s : State) : Out := execAlu (aluXor d a b) s

/-- `andn` (R302). -/
def aluAndn (d a b : Reg) : Alu := alu2 (fun x y => x &&& ~~~ y) d a b
/-- `andn` (R302). -/
def execAndn (d a b : Reg) (s : State) : Out := execAlu (aluAndn d a b) s

/-- `min.sgn` (R357). -/
def aluMinSgn (d a b : Reg) : Alu := alu2 minS d a b
/-- `min.sgn` (R357). -/
def execMinSgn (d a b : Reg) (s : State) : Out := execAlu (aluMinSgn d a b) s

/-- `max.sgn` (R357). -/
def aluMaxSgn (d a b : Reg) : Alu := alu2 maxS d a b
/-- `max.sgn` (R357). -/
def execMaxSgn (d a b : Reg) (s : State) : Out := execAlu (aluMaxSgn d a b) s

/-- `min.uns` (R357). -/
def aluMinUns (d a b : Reg) : Alu := alu2 minU d a b
/-- `min.uns` (R357). -/
def execMinUns (d a b : Reg) (s : State) : Out := execAlu (aluMinUns d a b) s

/-- `max.uns` (R357). -/
def aluMaxUns (d a b : Reg) : Alu := alu2 maxU d a b
/-- `max.uns` (R357). -/
def execMaxUns (d a b : Reg) (s : State) : Out := execAlu (aluMaxUns d a b) s

/-- `shl` (R390). -/
def aluShl (d a b : Reg) : Alu := alu2 shlW d a b
/-- `shl` (R390). -/
def execShl (d a b : Reg) (s : State) : Out := execAlu (aluShl d a b) s

/-- `shr` (R390). -/
def aluShr (d a b : Reg) : Alu := alu2 shrW d a b
/-- `shr` (R390). -/
def execShr (d a b : Reg) (s : State) : Out := execAlu (aluShr d a b) s

/-- `sra` (R390). -/
def aluSra (d a b : Reg) : Alu := alu2 sraW d a b
/-- `sra` (R390). -/
def execSra (d a b : Reg) (s : State) : Out := execAlu (aluSra d a b) s

/-- `rot` (R384). -/
def aluRot (d a b : Reg) : Alu := alu2 rotW d a b
/-- `rot` (R384). -/
def execRot (d a b : Reg) (s : State) : Out := execAlu (aluRot d a b) s

/-- `bfx` (R304). -/
def aluBfx (d a b : Reg) : Alu := alu2 bfxW d a b
/-- `bfx` (R304). -/
def execBfx (d a b : Reg) (s : State) : Out := execAlu (aluBfx d a b) s

/-- `add.i16x2` (R301). -/
def aluAddI16x2 (d a b : Reg) : Alu := alu2 (packInt 16 (· + ·)) d a b
/-- `add.i16x2` (R301). -/
def execAddI16x2 (d a b : Reg) (s : State) : Out := execAlu (aluAddI16x2 d a b) s

/-- `add.i8x4` (R301). -/
def aluAddI8x4 (d a b : Reg) : Alu := alu2 (packInt 8 (· + ·)) d a b
/-- `add.i8x4` (R301). -/
def execAddI8x4 (d a b : Reg) (s : State) : Out := execAlu (aluAddI8x4 d a b) s

/-- `sub.i16x2` (R393). -/
def aluSubI16x2 (d a b : Reg) : Alu := alu2 (packInt 16 (· - ·)) d a b
/-- `sub.i16x2` (R393). -/
def execSubI16x2 (d a b : Reg) (s : State) : Out := execAlu (aluSubI16x2 d a b) s

/-- `sub.i8x4` (R393). -/
def aluSubI8x4 (d a b : Reg) : Alu := alu2 (packInt 8 (· - ·)) d a b
/-- `sub.i8x4` (R393). -/
def execSubI8x4 (d a b : Reg) (s : State) : Out := execAlu (aluSubI8x4 d a b) s

/-- `min.i16x2` (R357). -/
def aluMinI16x2 (d a b : Reg) : Alu := alu2 (packInt 16 minS) d a b
/-- `min.i16x2` (R357). -/
def execMinI16x2 (d a b : Reg) (s : State) : Out := execAlu (aluMinI16x2 d a b) s

/-- `max.i16x2` (R357). -/
def aluMaxI16x2 (d a b : Reg) : Alu := alu2 (packInt 16 maxS) d a b
/-- `max.i16x2` (R357). -/
def execMaxI16x2 (d a b : Reg) (s : State) : Out := execAlu (aluMaxI16x2 d a b) s

/-- `min.i8x4` (R357). -/
def aluMinI8x4 (d a b : Reg) : Alu := alu2 (packInt 8 minS) d a b
/-- `min.i8x4` (R357). -/
def execMinI8x4 (d a b : Reg) (s : State) : Out := execAlu (aluMinI8x4 d a b) s

/-- `max.i8x4` (R357). -/
def aluMaxI8x4 (d a b : Reg) : Alu := alu2 (packInt 8 maxS) d a b
/-- `max.i8x4` (R357). -/
def execMaxI8x4 (d a b : Reg) (s : State) : Out := execAlu (aluMaxI8x4 d a b) s

/-- `mul.lo`: four issue cycles per pass (R13, R364). -/
def aluMulLo (d a b : Reg) : Alu := { alu2 (· * ·) d a b with cycles := 4 }
/-- `mul.lo`: four issue cycles per pass (R13, R364). -/
def execMulLo (d a b : Reg) (s : State) : Out := execAlu (aluMulLo d a b) s

/-- `mul.hi.sgn` (R364). -/
def aluMulHiSgn (d a b : Reg) : Alu := { alu2 mulHiS d a b with cycles := 4 }
/-- `mul.hi.sgn` (R364). -/
def execMulHiSgn (d a b : Reg) (s : State) : Out := execAlu (aluMulHiSgn d a b) s

/-- `mul.hi.uns` (R364). -/
def aluMulHiUns (d a b : Reg) : Alu := { alu2 mulHiU d a b with cycles := 4 }
/-- `mul.hi.uns` (R364). -/
def execMulHiUns (d a b : Reg) (s : State) : Out := execAlu (aluMulHiUns d a b) s

/-- `mad`: D is the addend (R355). -/
def aluMad (d a b : Reg) : Alu := { alu3 (fun x y z => x * y + z) d a b with cycles := 4 }
/-- `mad`: D is the addend (R355). -/
def execMad (d a b : Reg) (s : State) : Out := execAlu (aluMad d a b) s

/-- `bfi`: D is also a source (R304). -/
def aluBfi (d a b : Reg) : Alu := alu3 bfiW d a b
/-- `bfi`: D is also a source (R304). -/
def execBfi (d a b : Reg) (s : State) : Out := execAlu (aluBfi d a b) s

/-- `mov` (R361). -/
def aluMov (d a : Reg) : Alu := alu1 id d a
/-- `mov` (R361). -/
def execMov (d a : Reg) (s : State) : Out := execAlu (aluMov d a) s

/-- `clz` (R312). -/
def aluClz (d a : Reg) : Alu := alu1 clzW d a
/-- `clz` (R312). -/
def execClz (d a : Reg) (s : State) : Out := execAlu (aluClz d a) s

/-- `popc` (R375). -/
def aluPopc (d a : Reg) : Alu := alu1 popcW d a
/-- `popc` (R375). -/
def execPopc (d a : Reg) (s : State) : Out := execAlu (aluPopc d a) s

/-- `brev` (R308). -/
def aluBrev (d a : Reg) : Alu := alu1 brevW d a
/-- `brev` (R308). -/
def execBrev (d a : Reg) (s : State) : Out := execAlu (aluBrev d a) s

/-- `not` (R369). -/
def aluNot (d a : Reg) : Alu := alu1 (~~~ ·) d a
/-- `not` (R369). -/
def execNot (d a : Reg) (s : State) : Out := execAlu (aluNot d a) s

/-- `abs.i32` (R300). -/
def aluAbsI32 (d a : Reg) : Alu := alu1 absI d a
/-- `abs.i32` (R300). -/
def execAbsI32 (d a : Reg) (s : State) : Out := execAlu (aluAbsI32 d a) s

/-- `abs.i16x2` (R300). -/
def aluAbsI16x2 (d a : Reg) : Alu := alu1 (fun x => packInt 16 (fun e _ => absI e) x x) d a
/-- `abs.i16x2` (R300). -/
def execAbsI16x2 (d a : Reg) (s : State) : Out := execAlu (aluAbsI16x2 d a) s

/-- `abs.i8x4` (R300). -/
def aluAbsI8x4 (d a : Reg) : Alu := alu1 (fun x => packInt 8 (fun e _ => absI e) x x) d a
/-- `abs.i8x4` (R300). -/
def execAbsI8x4 (d a : Reg) (s : State) : Out := execAlu (aluAbsI8x4 d a) s

/-- `neg.i32` (R367). -/
def aluNegI32 (d a : Reg) : Alu := alu1 (- ·) d a
/-- `neg.i32` (R367). -/
def execNegI32 (d a : Reg) (s : State) : Out := execAlu (aluNegI32 d a) s

/-- `neg.i16x2` (R367). -/
def aluNegI16x2 (d a : Reg) : Alu := alu1 (fun x => packInt 16 (fun e _ => -e) x x) d a
/-- `neg.i16x2` (R367). -/
def execNegI16x2 (d a : Reg) (s : State) : Out := execAlu (aluNegI16x2 d a) s

/-- `neg.i8x4` (R367). -/
def aluNegI8x4 (d a : Reg) : Alu := alu1 (fun x => packInt 8 (fun e _ => -e) x x) d a
/-- `neg.i8x4` (R367). -/
def execNegI8x4 (d a : Reg) (s : State) : Out := execAlu (aluNegI8x4 d a) s

/-- `add` with an immediate (R297, R301). -/
def aluAddImm (d a : Reg) (i : BitVec 11) : Alu := aluImm (· + ·) d a (immOf i)
/-- `add` with an immediate (R297, R301). -/
def execAddImm (d a : Reg) (i : BitVec 11) (s : State) : Out := execAlu (aluAddImm d a i) s

/-- `and` with an immediate (R297, R302). -/
def aluAndImm (d a : Reg) (i : BitVec 11) : Alu := aluImm (· &&& ·) d a (immOf i)
/-- `and` with an immediate (R297, R302). -/
def execAndImm (d a : Reg) (i : BitVec 11) (s : State) : Out := execAlu (aluAndImm d a i) s

/-- `or` with an immediate (R297, R370). -/
def aluOrImm (d a : Reg) (i : BitVec 11) : Alu := aluImm (· ||| ·) d a (immOf i)
/-- `or` with an immediate (R297, R370). -/
def execOrImm (d a : Reg) (i : BitVec 11) (s : State) : Out := execAlu (aluOrImm d a i) s

/-- `xor` with an immediate (R297, R401). -/
def aluXorImm (d a : Reg) (i : BitVec 11) : Alu := aluImm (· ^^^ ·) d a (immOf i)
/-- `xor` with an immediate (R297, R401). -/
def execXorImm (d a : Reg) (i : BitVec 11) (s : State) : Out := execAlu (aluXorImm d a i) s

/-- `shl` by an immediate (R390). -/
def aluShlImm (d a : Reg) (k : BitVec 5) : Alu := aluImm shlW d a (k.setWidth 32)
/-- `shl` by an immediate (R390). -/
def execShlImm (d a : Reg) (k : BitVec 5) (s : State) : Out := execAlu (aluShlImm d a k) s

/-- `shr` by an immediate (R390). -/
def aluShrImm (d a : Reg) (k : BitVec 5) : Alu := aluImm shrW d a (k.setWidth 32)
/-- `shr` by an immediate (R390). -/
def execShrImm (d a : Reg) (k : BitVec 5) (s : State) : Out := execAlu (aluShrImm d a k) s

/-- `sra` by an immediate (R390). -/
def aluSraImm (d a : Reg) (k : BitVec 5) : Alu := aluImm sraW d a (k.setWidth 32)
/-- `sra` by an immediate (R390). -/
def execSraImm (d a : Reg) (k : BitVec 5) (s : State) : Out := execAlu (aluSraImm d a k) s

/-- `rot` by an immediate (R384). -/
def aluRotImm (d a : Reg) (k : BitVec 5) : Alu := aluImm rotW d a (k.setWidth 32)
/-- `rot` by an immediate (R384). -/
def execRotImm (d a : Reg) (k : BitVec 5) (s : State) : Out := execAlu (aluRotImm d a k) s

/-- `li` (R347): `zr` in D gives the vector form. -/
def aluLi (d : Reg) (i : BitVec 18) : Alu := { dst := d, regs := [(d, 1)], vector := decide (d = .zr), result := fun _ _ _ => { words := [i.signExtend 32] } }
/-- `li` (R347). -/
def execLi (d : Reg) (i : BitVec 18) (s : State) : Out := execAlu (aluLi d i) s

/-- `lih` (R348): `zr` in D gives the vector form. -/
def aluLih (d : Reg) (i : BitVec 18) : Alu := { dst := d, regs := [(d, 1)], vector := decide (d = .zr), result := fun tm bix t => { words := [lihW i (tm.rd bix d 0 t)] } }
/-- `lih` (R348). -/
def execLih (d : Reg) (i : BitVec 18) (s : State) : Out := execAlu (aluLih d i) s

end Sys2Proof.Machine
end

