-- ==== Sys2Proof/Machine/Predicates.lean ====
section
/-! DEFINITION. Compares, predicate words, selection and single-thread moves: majors 0A to 0E (R19, R22, R313, R362, R371, R381, R388). -/

namespace Sys2Proof.Machine

/-- `cmp` (R313). -/
def aluCmp (c : ICond) (p : Fin 8) (a b : Reg) : Alu :=
  { regs := [(a, 1), (b, 1)], result := fun tm bix t => { pred := some (p, icond c (tm.rd bix a 0 t) (tm.rd bix b 0 t)) } }
/-- `cmp` (R313). -/
def execCmp (c : ICond) (p : Fin 8) (a b : Reg) (s : State) : Out := execAlu (aluCmp c p a b) s

/-- `cmp` with an immediate (R297, R313). -/
def aluCmpImm (c : ICond) (p : Fin 8) (a : Reg) (i : BitVec 11) : Alu :=
  { regs := [(a, 1)], result := fun tm bix t => { pred := some (p, icond c (tm.rd bix a 0 t) (immOf i)) } }
/-- `cmp` with an immediate (R297, R313). -/
def execCmpImm (c : ICond) (p : Fin 8) (a : Reg) (i : BitVec 11) (s : State) : Out := execAlu (aluCmpImm c p a i) s

/-- A predicate word: vector whatever its operands (R371). -/
def aluPred (f : Bool → Bool → Bool) (d : Fin 8) (a b : Pred) : Alu :=
  { regs := [], vector := true, result := fun tm _ t => { pred := some (d, f (tm.pred t a) (tm.pred t b)) } }

/-- `pand` (R371). -/
def aluPand (d : Fin 8) (a b : Pred) : Alu := aluPred (· && ·) d a b
/-- `pand` (R371). -/
def execPand (d : Fin 8) (a b : Pred) (s : State) : Out := execAlu (aluPand d a b) s
/-- `por` (R371). -/
def aluPor (d : Fin 8) (a b : Pred) : Alu := aluPred (· || ·) d a b
/-- `por` (R371). -/
def execPor (d : Fin 8) (a b : Pred) (s : State) : Out := execAlu (aluPor d a b) s
/-- `pxor` (R371). -/
def aluPxor (d : Fin 8) (a b : Pred) : Alu := aluPred (· != ·) d a b
/-- `pxor` (R371). -/
def execPxor (d : Fin 8) (a b : Pred) (s : State) : Out := execAlu (aluPxor d a b) s
/-- `pnot` (R371). -/
def aluPnot (d : Fin 8) (a : Pred) : Alu := aluPred (fun x _ => !x) d a a
/-- `pnot` (R371). -/
def execPnot (d : Fin 8) (a : Pred) (s : State) : Out := execAlu (aluPnot d a) s

/-- `sel`: the scalar form reads the predicate of thread t0 (R388). -/
def aluSel (d a b : Reg) (p : Pred) : Alu :=
  { dst := d, regs := [(d, 1), (a, 1), (b, 1)],
    result := fun tm bix t => { words := [if tm.pred t p then tm.rd bix a 0 t else tm.rd bix b 0 t] } }
/-- `sel` (R388). -/
def execSel (d a b : Reg) (p : Pred) (s : State) : Out := execAlu (aluSel d a b p) s

/-- `movs`: the value goes to one thread, if it is active (R362). One issue cycle. -/
def execMovs (d a b : Reg) (s : State) : Out :=
  match s.team.windowFail [(d, 1)] with
  | some f => .next (s.windowTrap f)
  | none =>
    let i := (s.team.rd s.blk.bix b 0 0).toNat
    let x := s.team.rd s.blk.bix a 0 0
    .next ({ s with team := if s.team.active i then s.team.wr d 0 i x else s.team }.finish 1)

/-- `rdl`: a rendezvous that reads any thread's register (R22, R381). One issue cycle. -/
def execRdl (d a b : Reg) (s : State) : Out :=
  match s.team.windowFail [(a, 1)] with
  | some f => .next (s.windowTrap f)
  | none =>
    let tm := s.team.flush
    let i := (tm.rd s.blk.bix b 0 0).toNat
    let x := if i < tm.threads then tm.rd s.blk.bix a 0 i else 0
    .next ({ s with team := tm.wr d 0 0 x }.finish 1)

end Sys2Proof.Machine
end

