-- ==== Sys2Proof/Machine/Trans.lean ====
section
/-! DEFINITION. The transcendentals of R87: 2^x, log2 x, sin x and cos x in integer arithmetic with at least 200 bits below the last place, rounded once at nearest-even (R323, R327-R330, R336). -/

namespace Sys2Proof.Machine

/-- floor(pi * 2^1536). -/
def piFix : Nat :=
  0x3243F6A8885A308D313198A2E03707344A4093822299F31D0082EFA98EC4E6C89452821E638D01377BE5466CF34E90C6CC0AC29B7C97C50DD3F84D5B5B54709179216D5D98979FB1BD1310BA698DFB5AC2FFD72DBD01ADFB7B8E1AFED6A267E96BA7C9045F12C7F9924A19947B3916CF70801F2E2858EFC16636920D871574E69A458FEA3F4933D7E0D95748F728EB658718BCD5882154AEE7B54A41DC25A59B59C30D5392AF26013C5D1B023286085F0CA417918B8DB38EF8E79DCB0603A180E
/-- floor(ln 2 * 2^320). -/
def ln2Fix : Nat :=
  0xB17217F7D1CF79ABC9E3B39803F2F6AF40F343267298B62D8A0D175B8BAAFA2BE7B876206DEBAC98
/-- The fraction bits of the fixed-point work. -/
def fixBits : Nat := 320

/-- The product of two fixed-point numbers. -/
def fmulFix (a b : Nat) : Nat := a * b / 2 ^ fixBits

/-- The sum of y^n / n! from term `n` on, by fuel: exp y for 0 ≤ y < 1. -/
def expSum (y : Nat) : Nat → Nat → Nat → Nat
  | 0, _, _ => 0
  | fuel + 1, n, t => t + expSum y fuel (n + 1) (fmulFix t y / (n + 1))

/-- The alternating sum of a Taylor series whose next term is the last times z / ((k+1)(k+2)). -/
def altSum (z : Nat) : Nat → Nat → Int → Int
  | 0, _, _ => 0
  | fuel + 1, k, t => t - altSum z fuel (k + 2) (t * z / 2 ^ fixBits / ((k + 1) * (k + 2)))

/-- sin r and cos r for a fixed-point 0 ≤ r < 1. -/
def sinFix (r : Nat) : Nat := (altSum (fmulFix r r) 60 1 r).toNat
def cosFix (r : Nat) : Nat := (altSum (fmulFix r r) 60 0 (2 ^ fixBits)).toNat

/-- The sum of z^(2k+1) / (2k+1): atanh z for |z| below 1/5. -/
def atanhSum (z2 : Int) : Nat → Nat → Int → Int
  | 0, _, _ => 0
  | fuel + 1, k, t => t / (2 * k + 1) + atanhSum z2 fuel (k + 1) (t * z2 / 2 ^ fixBits)

/-- 2^x at nearest-even (R328). -/
def FFmt.exp2 (f : FFmt) : FVal → Nat × FEv
  | .nan => (f.nanBits, some 0)
  | .inf s => if s then (0, none) else (f.infBits, some 1)
  | .fin s m e =>
    if m = 0 then f.round .rne false 1 0
    else if e + m.log2 < -80 then
      f.round .rne false (if s then 2 ^ 90 - 1 else 2 ^ 90) (-90) true
    else if 13 < e + m.log2 then
      (if s then f.round .rne false 1 (-20000) true else f.round .rne false 1 20000)
    else
      let x : Int := FVal.scaled s m e (min e 0)
      let d : Nat := 2 ^ (-(min e 0)).toNat
      let n := x / d
      let fr := (x % d).toNat
      if fr = 0 then f.round .rne false 1 n
      else
        let y := fmulFix (fr * 2 ^ fixBits / d) ln2Fix
        f.round .rne false (expSum y 90 0 (2 ^ fixBits)) (n - fixBits) true

/-- log2 x at nearest-even (R330). -/
def FFmt.log2 (f : FFmt) : FVal → Nat × FEv
  | .nan => (f.nanBits, some 0)
  | .inf s => if s then (f.nanBits, some 0) else (f.infBits, some 1)
  | .fin s m e =>
    if m = 0 then (f.signBits true + f.infBits, some 1)
    else if s then (f.nanBits, some 0)
    else
      let l := m.log2
      if m = 2 ^ l then f.enc .rne (if e + l = 0 then .fin false 0 0 else FVal.ofInt (e + l))
      else
        -- m * 2^-l lies in (1, 2); halve it when it exceeds 1.4
        let big := decide (7 * 2 ^ l < 5 * m)
        let n : Int := if big then e + l + 1 else e + l
        let u : Int := m * 2 ^ (fixBits - l)
        let u := if big then u / 2 else u
        let one : Int := 2 ^ fixBits
        let z := (u - one) * one / (u + one)
        let ln := 2 * atanhSum (z * z / one) 80 0 z
        let v := n * one + ln * one / ln2Fix
        f.round .rne (decide (v < 0)) v.natAbs (-(fixBits : Int)) true

/-- x reduced by multiples of pi/2: the quadrant (mod 4) and the signed rest in fixed point, for the magnitude `man * 2^exp`. -/
def reducePi (m : Nat) (e : Int) : Nat × Int :=
  let x : Nat := m * 2 ^ (e + 1536).toNat
  let k := (2 * x + piFix / 2) / piFix
  let r : Int := 2 * (x : Int) - k * piFix
  (k % 4, r / 2 / 2 ^ (1536 - fixBits))

/-- sin or cos of a finite value at nearest-even (R327, R336). -/
def FFmt.sincos (f : FFmt) (cos : Bool) : FVal → Nat × FEv
  | .nan => (f.nanBits, some 0)
  | .inf _ => (f.nanBits, some 0)
  | .fin s m e =>
    if m = 0 then (if cos then f.round .rne false 1 0 else (f.signBits s, none))
    else if e + m.log2 < -60 then
      (if cos then f.round .rne false (2 ^ 130 - 1) (-130) true
       else f.round .rne s (m * 2 ^ 130 - 1) (e - 130) true)
    else
      let (k, r) := reducePi m e
      let k := if cos then (k + 1) % 4 else k
      let a := r.natAbs
      let v : Int := match k with
        | 0 => if r < 0 then -(sinFix a : Int) else sinFix a
        | 1 => cosFix a
        | 2 => if r < 0 then sinFix a else -(sinFix a : Int)
        | _ => -(cosFix a : Int)
      let v := if s && !cos then -v else v
      f.round .rne (decide (v < 0)) v.natAbs (-(fixBits : Int)) true

end Sys2Proof.Machine
end

