-- ==== Sys2Proof/Machine/FloatWords.lean ====
section
/-! DEFINITION. The floating words: majors 10 to 16 (R81-R88, R98, R316, R322-R337). -/

namespace Sys2Proof.Machine

/-! ### Operations on encodings -/

/-- An operation on two encodings of a format under a mode. -/
abbrev FOp2 := FFmt → Rnd → Nat → Nat → Nat × FEv

/-- Round(A + B) (R325). -/
def fopAdd : FOp2 := fun f r x y => f.enc r (FVal.add r (f.dec x) (f.dec y))
/-- Round(A - B) (R337). -/
def fopSub : FOp2 := fun f r x y => f.enc r (FVal.add r (f.dec x) (f.dec y).neg)
/-- Round(A * B) (R332). -/
def fopMul : FOp2 := fun f r x y => f.enc r (FVal.mul (f.dec x) (f.dec y))
/-- The smaller operand (R331). -/
def fopMin : FOp2 := fun f _ x y => f.minmax false x y
/-- The larger operand (R331). -/
def fopMax : FOp2 := fun f _ x y => f.minmax true x y
/-- Round(A * B + D), one rounding (R329). -/
def fopFma (f : FFmt) (r : Rnd) (x y z : Nat) : Nat × FEv := f.enc r (FVal.add r (FVal.mul (f.dec x) (f.dec y)) (f.dec z))
/-- The sign bit of a format. -/
def FFmt.signOf (f : FFmt) : Nat := f.signBits true
/-- The sign bit cleared (R324). -/
def fopAbs (f : FFmt) (x : Nat) : Nat := x % f.signOf
/-- The sign bit inverted (R333). -/
def fopNeg (f : FFmt) (x : Nat) : Nat := if x < f.signOf then x + f.signOf else x - f.signOf

/-! ### Single values -/

/-- The format of the `.f64` bit. -/
def fmtW (w : Bool) : FFmt := if w then .f64 else .f32
/-- The register words of a value. -/
def wordsW (w : Bool) : Nat := if w then 2 else 1
/-- A floating operand. -/
def Team.rdF (tm : Team) (bix : Nat) (w : Bool) (r : Reg) (t : Nat) : Nat :=
  if w then (tm.rd64 bix r t).toNat else (tm.rd bix r 0 t).toNat
/-- The register words of a result. -/
def outF (w : Bool) (x : Nat) : List Word := if w then [BitVec.ofNat 32 x, BitVec.ofNat 32 (x / 2 ^ 32)] else [BitVec.ofNat 32 x]

/-- A two-operand floating word (R322). -/
def aluF2 (op : FOp2) (w : Bool) (d a b : Reg) : Alu :=
  { dst := d, regs := [(d, wordsW w), (a, wordsW w), (b, wordsW w)], cycles := wordsW w,
    result := fun tm bix t =>
      let r := op (fmtW w) (rndOf tm.rnd) (tm.rdF bix w a t) (tm.rdF bix w b t)
      { words := outF w r.1, events := evOf (fmtW w) r.2 } }

/-- `fabs` or `fneg`: one cycle, no event (R322, R324, R333). -/
def aluF1 (op : FFmt → Nat → Nat) (w : Bool) (d a : Reg) : Alu :=
  { dst := d, regs := [(d, wordsW w), (a, wordsW w)],
    result := fun tm bix t => { words := outF w (op (fmtW w) (tm.rdF bix w a t)) } }

/-! ### Packed values -/

/-- The format of the `.bf16x2` bit. -/
def fmtP (f : Bool) : FFmt := if f then .bf16 else .f16

/-- Apply an operation to each enabled element; a disabled element keeps its old bits and raises no event (R82). -/
def packF (f : FFmt) (pen : BitVec 2) (op : (Word → Nat) → Nat × FEv) (old : Word) : Word × List Nat :=
  (upList 0 2).foldl (fun r i =>
    if pen.getLsbD i then
      let x := op fun v => (v.extractLsb' (16 * i) 16).toNat
      (merge (0xFFFF#32 <<< (16 * i)) r.1 (BitVec.ofNat 32 (x.1 * 2 ^ (16 * i))), r.2 ++ evOf f x.2)
    else r) (old, [])

/-- A two-operand packed word (R322). -/
def aluP2 (op : FOp2) (f : Bool) (d a b : Reg) : Alu :=
  { dst := d, regs := [(d, 1), (a, 1), (b, 1)],
    result := fun tm bix t =>
      let r := packF (fmtP f) tm.pen (fun e => op (fmtP f) (rndOf tm.rnd) (e (tm.rd bix a 0 t)) (e (tm.rd bix b 0 t))) (tm.rd bix d 0 t)
      { words := [r.1], events := r.2 } }

/-- A packed `fabs` or `fneg` (R324, R333). -/
def aluP1 (op : FFmt → Nat → Nat) (f : Bool) (d a : Reg) : Alu :=
  { dst := d, regs := [(d, 1), (a, 1)],
    result := fun tm bix t =>
      let r := packF (fmtP f) tm.pen (fun e => (op (fmtP f) (e (tm.rd bix a 0 t)), none)) (tm.rd bix d 0 t)
      { words := [r.1] } }

/-- The mode of a rounding code (R74, R84). -/
def Team.mode (tm : Team) : RndCode → Rnd
  | .fpctl => rndOf tm.rnd
  | .rn => .rne
  | .rz => .rz
  | .ru => .up
  | .rd => .down

/-! ### The words of majors 10 to 14 -/

/-- `fadd` (R325). -/
def aluFadd (w : Bool) (d a b : Reg) : Alu := aluF2 fopAdd w d a b
/-- `fadd` (R325). -/
def execFadd (w : Bool) (d a b : Reg) (s : State) : Out := execAlu (aluFadd w d a b) s

/-- `fsub` (R337). -/
def aluFsub (w : Bool) (d a b : Reg) : Alu := aluF2 fopSub w d a b
/-- `fsub` (R337). -/
def execFsub (w : Bool) (d a b : Reg) (s : State) : Out := execAlu (aluFsub w d a b) s

/-- `fmul` (R332). -/
def aluFmul (w : Bool) (d a b : Reg) : Alu := aluF2 fopMul w d a b
/-- `fmul` (R332). -/
def execFmul (w : Bool) (d a b : Reg) (s : State) : Out := execAlu (aluFmul w d a b) s

/-- `fmin` (R331). -/
def aluFmin (w : Bool) (d a b : Reg) : Alu := aluF2 fopMin w d a b
/-- `fmin` (R331). -/
def execFmin (w : Bool) (d a b : Reg) (s : State) : Out := execAlu (aluFmin w d a b) s

/-- `fmax` (R331). -/
def aluFmax (w : Bool) (d a b : Reg) : Alu := aluF2 fopMax w d a b
/-- `fmax` (R331). -/
def execFmax (w : Bool) (d a b : Reg) (s : State) : Out := execAlu (aluFmax w d a b) s

/-- `fabs` (R324). -/
def aluFabs (w : Bool) (d a : Reg) : Alu := aluF1 fopAbs w d a
/-- `fabs` (R324). -/
def execFabs (w : Bool) (d a : Reg) (s : State) : Out := execAlu (aluFabs w d a) s

/-- `fneg` (R333). -/
def aluFneg (w : Bool) (d a : Reg) : Alu := aluF1 fopNeg w d a
/-- `fneg` (R333). -/
def execFneg (w : Bool) (d a : Reg) (s : State) : Out := execAlu (aluFneg w d a) s

/-- Packed `fadd` (R82, R325). -/
def aluFaddPacked (f : Bool) (d a b : Reg) : Alu := aluP2 fopAdd f d a b
/-- Packed `fadd` (R82, R325). -/
def execFaddPacked (f : Bool) (d a b : Reg) (s : State) : Out := execAlu (aluFaddPacked f d a b) s

/-- Packed `fsub` (R82, R337). -/
def aluFsubPacked (f : Bool) (d a b : Reg) : Alu := aluP2 fopSub f d a b
/-- Packed `fsub` (R82, R337). -/
def execFsubPacked (f : Bool) (d a b : Reg) (s : State) : Out := execAlu (aluFsubPacked f d a b) s

/-- Packed `fmul` (R82, R332). -/
def aluFmulPacked (f : Bool) (d a b : Reg) : Alu := aluP2 fopMul f d a b
/-- Packed `fmul` (R82, R332). -/
def execFmulPacked (f : Bool) (d a b : Reg) (s : State) : Out := execAlu (aluFmulPacked f d a b) s

/-- Packed `fmin` (R82, R331). -/
def aluFminPacked (f : Bool) (d a b : Reg) : Alu := aluP2 fopMin f d a b
/-- Packed `fmin` (R82, R331). -/
def execFminPacked (f : Bool) (d a b : Reg) (s : State) : Out := execAlu (aluFminPacked f d a b) s

/-- Packed `fmax` (R82, R331). -/
def aluFmaxPacked (f : Bool) (d a b : Reg) : Alu := aluP2 fopMax f d a b
/-- Packed `fmax` (R82, R331). -/
def execFmaxPacked (f : Bool) (d a b : Reg) (s : State) : Out := execAlu (aluFmaxPacked f d a b) s

/-- Packed `fabs` (R82, R324). -/
def aluFabsPacked (f : Bool) (d a : Reg) : Alu := aluP1 fopAbs f d a
/-- Packed `fabs` (R82, R324). -/
def execFabsPacked (f : Bool) (d a : Reg) (s : State) : Out := execAlu (aluFabsPacked f d a) s

/-- Packed `fneg` (R82, R333). -/
def aluFnegPacked (f : Bool) (d a : Reg) : Alu := aluP1 fopNeg f d a
/-- Packed `fneg` (R82, R333). -/
def execFnegPacked (f : Bool) (d a : Reg) (s : State) : Out := execAlu (aluFnegPacked f d a) s

/-- Packed `ffma`, which rounds by FPCTL (R329). -/
def aluFfmaPacked (f : Bool) (d a b : Reg) : Alu := 
  { dst := d, regs := [(d, 1), (a, 1), (b, 1)],
    result := fun tm bix t =>
      let z := tm.rd bix d 0 t
      let r := packF (fmtP f) tm.pen (fun e => fopFma (fmtP f) (rndOf tm.rnd) (e (tm.rd bix a 0 t)) (e (tm.rd bix b 0 t)) (e z)) z
      { words := [r.1], events := r.2 } }
/-- Packed `ffma`, which rounds by FPCTL (R329). -/
def execFfmaPacked (f : Bool) (d a b : Reg) (s : State) : Out := execAlu (aluFfmaPacked f d a b) s

/-- `ffma` (R329). -/
def aluFfma (w : Bool) (r : RndCode) (d a b : Reg) : Alu := 
  { dst := d, regs := [(d, wordsW w), (a, wordsW w), (b, wordsW w)], cycles := wordsW w,
    result := fun tm bix t =>
      let x := fopFma (fmtW w) (tm.mode r) (tm.rdF bix w a t) (tm.rdF bix w b t) (tm.rdF bix w d t)
      { words := outF w x.1, events := evOf (fmtW w) x.2 } }
/-- `ffma` (R329). -/
def execFfma (w : Bool) (r : RndCode) (d a b : Reg) (s : State) : Out := execAlu (aluFfma w r d a b) s

/-- `fcmp`: no event (R326). -/
def aluFcmp (w : Bool) (c : FCond) (p : Fin 8) (a b : Reg) : Alu := 
  { regs := [(a, wordsW w), (b, wordsW w)], cycles := wordsW w,
    result := fun tm bix t =>
      { pred := some (p, fcond c ((fmtW w).dec (tm.rdF bix w a t)) ((fmtW w).dec (tm.rdF bix w b t))) } }
/-- `fcmp`: no event (R326). -/
def execFcmp (w : Bool) (c : FCond) (p : Fin 8) (a b : Reg) (s : State) : Out := execAlu (aluFcmp w c p a b) s

/-! ### Conversion -/

/-- The floating format of a `cvt` type. -/
def cvtFmt : CvtTy → Option FFmt
  | .f32 => some .f32
  | .f64 => some .f64
  | .f16x2 => some .f16
  | .bf16x2 => some .bf16
  | _ => none

/-- A packed type. -/
def cvtPacked : CvtTy → Bool
  | .f16x2 => true
  | .bf16x2 => true
  | _ => false

/-- Width in bits of an integer type, and whether it is signed (R74). -/
def cvtBits : CvtTy → Nat × Bool
  | .i32 => (32, true)
  | .n32 => (32, false)
  | .i64 => (64, true)
  | _ => (64, false)

/-- The limits of an integer type. -/
def cvtRange (y : CvtTy) : Int × Int :=
  let (n, sg) := cvtBits y
  if sg then (-(2 ^ (n - 1)), 2 ^ (n - 1) - 1) else (0, 2 ^ n - 1)

/-- An integer source's value. -/
def cvtSrcInt (y : CvtTy) (x : Nat) : Int :=
  let (n, sg) := cvtBits y
  let v := x % 2 ^ n
  if sg && decide (2 ^ (n - 1) ≤ v) then (v : Int) - 2 ^ n else v

/-- A result integer's bits. -/
def cvtBitsOf (y : CvtTy) (v : Int) : Nat := (v % 2 ^ (cvtBits y).1).toNat

/-- One value of type `y` to type `x` (R88, R316): the bits, and the events as FPCNT indices. -/
def cvtOne (x y : CvtTy) (r : Rnd) (src : Nat) : Nat × List Nat :=
  match cvtFmt x, cvtFmt y with
  | some f, some g =>
    let z := f.enc r (g.dec src)
    (z.1, evOf f z.2)
  | some f, none =>
    let z := f.enc r (FVal.ofInt (cvtSrcInt y src))
    (z.1, evOf f z.2)
  | none, some g =>
    let (lo, hi) := cvtRange x
    let z := (g.dec src).toInt r lo hi
    (cvtBitsOf x z.1, evOf g z.2)
  | none, none =>
    let (lo, hi) := cvtRange x
    (cvtBitsOf x (max lo (min hi (cvtSrcInt y src))), [])

/-- `cvt` in one thread (R82, R88): `src` is the source's bits, `old` the destination word. -/
def cvtLane (x y : CvtTy) (r : Rnd) (pen : BitVec 2) (src : Nat) (old : Word) : LaneRes :=
  let el := fun i => src / 2 ^ (16 * i) % 65536
  let into := fun (pick : Nat → Nat) =>
    (upList 0 2).foldl (fun (z : Word × List Nat) i =>
      if pen.getLsbD i then
        let o := cvtOne x y r (pick i)
        (merge (0xFFFF#32 <<< (16 * i)) z.1 (BitVec.ofNat 32 (o.1 * 2 ^ (16 * i))), z.2 ++ o.2)
      else z) (old, [])
  if cvtPacked x then
    let z := into fun i => if cvtPacked y then el i else src
    { words := [z.1], events := z.2 }
  else if cvtPacked y && pen = 0 then {}
  else
    let o := cvtOne x y r (if cvtPacked y then (if pen.getLsbD 0 then el 0 else el 1) else src)
    { words := outF x.wide o.1, events := o.2 }

/-- `cvt` (R88, R316). -/
def aluCvt (x y : CvtTy) (r : RndCode) (d a : Reg) : Alu := 
  { dst := d, regs := [(d, wordsW x.wide), (a, wordsW y.wide)], cycles := if x.wide || y.wide then 2 else 1,
    result := fun tm bix t => cvtLane x y (tm.mode r) tm.pen (tm.rdF bix y.wide a t) (tm.rd bix d 0 t) }
/-- `cvt` (R88, R316). -/
def execCvt (x y : CvtTy) (r : RndCode) (d a : Reg) (s : State) : Out := execAlu (aluCvt x y r d a) s

/-! ### Transcendentals -/

/-- A function of R87 in a format. -/
abbrev TransFn := FFmt → Rnd → FVal → Nat × FEv

/-- The format of a transcendental's element. -/
def transFmt : TFmt → FFmt
  | .f32 => .f32
  | .f64 => .f64
  | .f16x2 => .f16
  | .bf16x2 => .bf16

/-- The packed formats. -/
def transPacked : TFmt → Bool
  | .f16x2 => true
  | .bf16x2 => true
  | _ => false

/-- A packed element: the FP32 result, then one rounding at nearest-even into the element's format (R87). -/
def transElem (fn : TransFn) (f : FFmt) (r : Rnd) (x : Nat) : Nat × FEv :=
  let y := fn .f32 r (f.dec x)
  let z := f.enc .rne (FFmt.f32.dec y.1)
  (z.1, firstEvent y.2 z.2)

/-- The bits of a destination word that a transcendental writes (R82). -/
def transMask (f : TFmt) (pen : BitVec 2) : Word :=
  if transPacked f then (if pen.getLsbD 0 then 0xFFFF#32 else 0) ||| (if pen.getLsbD 1 then 0xFFFF0000#32 else 0) else 0xFFFFFFFF

/-- One thread's result of a transcendental (R323). -/
def transLane (fn : TransFn) (f : TFmt) (tm : Team) (bix : Nat) (a : Reg) (t : Nat) : LaneRes :=
  if transPacked f then
    let x := tm.rd bix a 0 t
    let r := packF (transFmt f) tm.pen (fun e => transElem fn (transFmt f) (rndOf tm.rnd) (e x)) 0
    { words := [r.1], events := r.2 }
  else
    let w := decide (f = TFmt.f64)
    let r := fn (transFmt f) (rndOf tm.rnd) ((transFmt f).dec (tm.rdF bix w a t))
    { words := outF w r.1, events := evOf (transFmt f) r.2 }

/-- A transcendental of major 15: its form by R296, its result at the moment of R25, its events at once (R323). -/
def execTrans (fn : TransFn) (f : TFmt) (d a : Reg) (n : BitVec 4) (s : State) : Out :=
  let tm := s.team
  let k := wordsW (decide (f = TFmt.f64))
  match tm.windowFail [(d, k), (a, k)] with
  | some x => .next (s.windowTrap x)
  | none =>
    let scalar := d.isScalar && a.isScalar
    let ts := if scalar then [tm.t0] else tm.actives
    let rs := ts.map fun t => (t, transLane fn f tm s.blk.bix a t)
    let evs := if scalar && tm.execZero then [] else rs.flatMap fun e => if scalar || tm.loud e.1 then e.2.events else []
    let s := (s.countEvents evs).later (tm.dest d) (rs.map fun e => (e.1, e.2.words)) n.toNat (transMask f tm.pen)
    let s := s.issue { kind := .trans, paths := [], pc := tm.pc, threads := ts }
    .next (s.finish (if scalar then 0 else 2 * k * tm.passes))

/-- `frcp` (R335). -/
def execFrcp (f : TFmt) (d a : Reg) (n : BitVec 4) (s : State) : Out := execTrans FFmt.rcp f d a n s

/-- `frsq` (R335). -/
def execFrsq (f : TFmt) (d a : Reg) (n : BitVec 4) (s : State) : Out := execTrans (fun f _ x => f.rsq .rne x) f d a n s

/-- `fsqrt` (R336). -/
def execFsqrt (f : TFmt) (d a : Reg) (n : BitVec 4) (s : State) : Out := execTrans FFmt.sqrt f d a n s

/-- `fexp2` (R328). -/
def execFexp2 (f : TFmt) (d a : Reg) (n : BitVec 4) (s : State) : Out := execTrans (fun f _ x => f.exp2 x) f d a n s

/-- `flog2` (R330). -/
def execFlog2 (f : TFmt) (d a : Reg) (n : BitVec 4) (s : State) : Out := execTrans (fun f _ x => f.log2 x) f d a n s

/-- `fsin` (R336). -/
def execFsin (f : TFmt) (d a : Reg) (n : BitVec 4) (s : State) : Out := execTrans (fun f _ x => f.sincos false x) f d a n s

/-- `fcos` (R327). -/
def execFcos (f : TFmt) (d a : Reg) (n : BitVec 4) (s : State) : Out := execTrans (fun f _ x => f.sincos true x) f d a n s

/-! ### Register-to-register words -/

/-- The register-to-register words of majors 01 to 0D, 10 to 14 and 16, as they run. -/
def regionAlu : Instr → Option Alu
  | .add d a b => some (aluAdd d a b)
  | .sub d a b => some (aluSub d a b)
  | .and d a b => some (aluAnd d a b)
  | .or d a b => some (aluOr d a b)
  | .xor d a b => some (aluXor d a b)
  | .andn d a b => some (aluAndn d a b)
  | .minSgn d a b => some (aluMinSgn d a b)
  | .maxSgn d a b => some (aluMaxSgn d a b)
  | .minUns d a b => some (aluMinUns d a b)
  | .maxUns d a b => some (aluMaxUns d a b)
  | .shl d a b => some (aluShl d a b)
  | .shr d a b => some (aluShr d a b)
  | .sra d a b => some (aluSra d a b)
  | .rot d a b => some (aluRot d a b)
  | .mov d a => some (aluMov d a)
  | .mulLo d a b => some (aluMulLo d a b)
  | .mulHiSgn d a b => some (aluMulHiSgn d a b)
  | .mulHiUns d a b => some (aluMulHiUns d a b)
  | .mad d a b => some (aluMad d a b)
  | .bfx d a b => some (aluBfx d a b)
  | .bfi d a b => some (aluBfi d a b)
  | .clz d a => some (aluClz d a)
  | .popc d a => some (aluPopc d a)
  | .brev d a => some (aluBrev d a)
  | .not d a => some (aluNot d a)
  | .absI32 d a => some (aluAbsI32 d a)
  | .absI16x2 d a => some (aluAbsI16x2 d a)
  | .absI8x4 d a => some (aluAbsI8x4 d a)
  | .negI32 d a => some (aluNegI32 d a)
  | .negI16x2 d a => some (aluNegI16x2 d a)
  | .negI8x4 d a => some (aluNegI8x4 d a)
  | .addI16x2 d a b => some (aluAddI16x2 d a b)
  | .addI8x4 d a b => some (aluAddI8x4 d a b)
  | .subI16x2 d a b => some (aluSubI16x2 d a b)
  | .subI8x4 d a b => some (aluSubI8x4 d a b)
  | .minI16x2 d a b => some (aluMinI16x2 d a b)
  | .maxI16x2 d a b => some (aluMaxI16x2 d a b)
  | .minI8x4 d a b => some (aluMinI8x4 d a b)
  | .maxI8x4 d a b => some (aluMaxI8x4 d a b)
  | .addImm d a i => some (aluAddImm d a i)
  | .andImm d a i => some (aluAndImm d a i)
  | .orImm d a i => some (aluOrImm d a i)
  | .xorImm d a i => some (aluXorImm d a i)
  | .shlImm d a k => some (aluShlImm d a k)
  | .shrImm d a k => some (aluShrImm d a k)
  | .sraImm d a k => some (aluSraImm d a k)
  | .rotImm d a k => some (aluRotImm d a k)
  | .li d i => some (aluLi d i)
  | .lih d i => some (aluLih d i)
  | .cmp c p a b => some (aluCmp c p a b)
  | .cmpImm c p a i => some (aluCmpImm c p a i)
  | .pand d a b => some (aluPand d a b)
  | .por d a b => some (aluPor d a b)
  | .pxor d a b => some (aluPxor d a b)
  | .pnot d a => some (aluPnot d a)
  | .sel d a b p => some (aluSel d a b p)
  | .fadd w d a b => some (aluFadd w d a b)
  | .fsub w d a b => some (aluFsub w d a b)
  | .fmul w d a b => some (aluFmul w d a b)
  | .fmin w d a b => some (aluFmin w d a b)
  | .fmax w d a b => some (aluFmax w d a b)
  | .fabs w d a => some (aluFabs w d a)
  | .fneg w d a => some (aluFneg w d a)
  | .faddPacked f d a b => some (aluFaddPacked f d a b)
  | .fsubPacked f d a b => some (aluFsubPacked f d a b)
  | .fmulPacked f d a b => some (aluFmulPacked f d a b)
  | .fminPacked f d a b => some (aluFminPacked f d a b)
  | .fmaxPacked f d a b => some (aluFmaxPacked f d a b)
  | .fabsPacked f d a => some (aluFabsPacked f d a)
  | .fnegPacked f d a => some (aluFnegPacked f d a)
  | .ffmaPacked f d a b => some (aluFfmaPacked f d a b)
  | .ffma w r d a b => some (aluFfma w r d a b)
  | .fcmp w c p a b => some (aluFcmp w c p a b)
  | .cvt x y r d a => some (aluCvt x y r d a)
  | _ => none

end Sys2Proof.Machine
end

