-- ==== Sys2Proof/Machine/TeamOps.lean ====
section
/-! DEFINITION. Team operations: `vote`, `shfl`, `red`, `scan`, `match` (majors 18 to 1B; R37, R212-R216, R356, R382, R387, R389, R398). -/

namespace Sys2Proof.Machine

/-- A destination that makes `vote` or `red` a rendezvous: a scalar register or `zr` (R212). -/
def scalarDst (d : Reg) : Bool := !d.isV

/-- Write one word per active thread. -/
def Team.wrEach (tm : Team) (d : Reg) (f : Nat → Word) : Team :=
  (tm.actives.map fun t => (t, f t)).foldl (fun x e => x.wr d 0 e.1 e.2) tm

/-- A 0 or 1 word. -/
def boolWord (b : Bool) : Word := if b then 1 else 0

/-- The answer of `vote` over the threads of a group (R213). -/
def voteOf (k : VoteKind) (tm : Team) (p : Pred) (g : List Nat) (bit : Nat → Nat) : Word :=
  let yes := g.filter fun t => tm.pred t p
  match k with
  | .some => boolWord (!yes.isEmpty)
  | .every => boolWord (yes.length == g.length)
  | .mask => BitVec.ofNat 32 (yes.foldl (fun m t => m ||| 2 ^ bit t) 0)
  | .count => BitVec.ofNat 32 yes.length

/-- `vote` (R213, R398). -/
def execVote (k : VoteKind) (d : Reg) (p : Pred) (s : State) : Out :=
  match s.team.windowFail [(d, 1)] with
  | some f => .next (s.windowTrap f)
  | none =>
    if scalarDst d then
      let tm := s.team.flush
      if tm.execZero then .next ({ s with team := tm }.finish 1)
      else .next ({ s with team := tm.wr d 0 0 (voteOf k tm p tm.actives (· / 32)) }.finish (tm.passes + 1))
    else
      let tm := s.team
      .next ({ s with team := tm.wrEach d fun t => voteOf k tm p (tm.group t) (· % 32) }.finish tm.passes)

/-- The source thread of a `shfl` in the group of thread `t` (R214). -/
def shflFrom (k : ShflKind) (part i b : Nat) : Nat :=
  match k with
  | .at => b % part
  | .below => if b ≤ i then i - b else i
  | .above => if i + b < part then i + b else i
  | .flip => i ^^^ (b % part)
  | .rot => (i + b) % part

/-- `shfl` (R214, R389). -/
def execShfl (k : ShflKind) (d a b : Reg) (s : State) : Out :=
  match s.team.windowFail [(d, 1), (a, 1), (b, 1)] with
  | some f => .next (s.windowTrap f)
  | none =>
    let tm := s.team
    let bix := s.blk.bix
    let src := fun t => tm.gb t + shflFrom k tm.part (t - tm.gb t) (tm.rd bix b 0 t).toNat
    .next ({ s with team := tm.wrEach d fun t => tm.rd bix a 0 (if tm.active (src t) then src t else t) }.finish tm.passes)

/-- One step of a reduction (R215), with its event. -/
def redStep (o : RedOp) (f32 : Bool) (r : Rnd) (x y : Word) : Word × FEv :=
  if f32 then
    let z := match o with
      | .add => fopAdd .f32 r x.toNat y.toNat
      | .min => fopMin .f32 r x.toNat y.toNat
      | _ => fopMax .f32 r x.toNat y.toNat
    (BitVec.ofNat 32 z.1, z.2)
  else (match o with
    | .add => x + y
    | .min => minS x y
    | .max => maxS x y
    | .and => x &&& y
    | .or => x ||| y
    | .xor => x ^^^ y, none)

/-- The identity of a reduction (R215). -/
def redIdentity (o : RedOp) (f32 : Bool) : Word :=
  match o, f32 with
  | .min, false => 0x7FFFFFFF
  | .max, false => 0x80000000
  | .min, true => 0x7F800000
  | .max, true => 0xFF800000
  | .and, _ => 0xFFFFFFFF
  | _, _ => 0

/-- The running values x1, x2, … with the event of the step that formed each (R215, R387). -/
def runsFrom (f : Word → Word → Word × FEv) : Word → List Word → List (Word × FEv)
  | _, [] => []
  | x, y :: ys => let z := f x y
    z :: runsFrom f z.1 ys

/-- The running values of a list. -/
def runsOf (f : Word → Word → Word × FEv) : List Word → List (Word × FEv)
  | [] => []
  | x :: xs => (x, none) :: runsFrom f x xs

/-- The running values of the threads of a group. -/
def Team.runsIn (tm : Team) (bix : Nat) (o : RedOp) (f32 : Bool) (a : Reg) (g : List Nat) : List (Word × FEv) :=
  runsOf (redStep o f32 (rndOf tm.rnd)) (g.map fun t => tm.rd bix a 0 t)

/-- The groups of the active threads, each once, ascending. -/
def Team.groups (tm : Team) : List (List Nat) :=
  (tm.actives.filter fun t => (tm.group t).head? == some t).map tm.group

/-- The events of a group's result: none where all its threads lie beyond a binding's N (R100, R215; log 19). -/
def Team.groupEvents (tm : Team) (g : List Nat) (e : FEv) : List Nat := if g.any tm.loud then evOf .f32 e else []

/-- `red` (R215, R382). -/
def execRed (o : RedOp) (f32 : Bool) (d a : Reg) (s : State) : Out :=
  match s.team.windowFail [(d, 1), (a, 1)] with
  | some f => .next (s.windowTrap f)
  | none =>
    let bix := s.blk.bix
    let per := if f32 then 6 else 2
    if scalarDst d then
      let tm := s.team.flush
      match (tm.runsIn bix o f32 a tm.actives).getLast? with
      | none => .next ({ s with team := tm }.finish 1)
      | some x => .next (({ s with team := tm.wr d 0 0 x.1 }.countEvents (tm.groupEvents tm.actives x.2)).finishEach (evenPasses tm.passes per 2))
    else
      let tm := s.team
      let rs : List (List Nat × Word × FEv) := tm.groups.filterMap fun g => ((tm.runsIn bix o f32 a g).getLast?).map fun x => (g, x)
      let team := rs.foldl (fun y e => e.1.foldl (fun y t => y.wr d 0 t e.2.1) y) tm
      let evs := rs.flatMap fun e => tm.groupEvents e.1 e.2.2
      .next (({ s with team := team }.countEvents evs).finish (per * tm.passes))

/-- `scan`: inclusive, or exclusive when `exc` (R215, R387). -/
def execScan (o : RedOp) (f32 exc : Bool) (d a : Reg) (s : State) : Out :=
  match s.team.windowFail [(d, 1), (a, 1)] with
  | some f => .next (s.windowTrap f)
  | none =>
    let tm := s.team
    let rs : List (List (Nat × Word × FEv)) := tm.groups.map fun g =>
      let xs := tm.runsIn s.blk.bix o f32 a g
      g.zip (if exc then (redIdentity o f32, none) :: xs else xs)
    let team := rs.foldl (fun y g => g.foldl (fun y e => y.wr d 0 e.1 e.2.1) y) tm
    let evs := rs.flatMap fun g => g.flatMap fun e => tm.groupEvents [e.1] e.2.2
    .next (({ s with team := team }.countEvents evs).finish ((if f32 then 6 else 2) * tm.passes))

/-- `Key` of R216: none for a NaN. -/
def matchKeyOf (k : KeyTy) (x : DWord) : Option Nat :=
  match k with
  | .b32 => some (loWord x).toNat
  | .f32 =>
    let n := (loWord x).toNat
    if (FFmt.f32.dec n).isNan then none else some (if n = FFmt.f32.signOf then 0 else n)
  | .f64 => if (FFmt.f64.dec x.toNat).isNan then none else some (if x.toNat = FFmt.f64.signOf then 0 else x.toNat)

/-- `match` (R216, R356). -/
def execMatchKey (k : KeyTy) (rank : Bool) (d a : Reg) (s : State) : Out :=
  match s.team.windowFail [(d, if rank then 2 else 1), (a, if k = KeyTy.f64 then 2 else 1)] with
  | some f => .next (s.windowTrap f)
  | none =>
    let tm := s.team
    let key := fun t => matchKeyOf k (if k = KeyTy.f64 then tm.rd64 s.blk.bix a t else pairOf (tm.rd s.blk.bix a 0 t) 0)
    let res := tm.actives.map fun t =>
      let m := match key t with
        | none => 2 ^ (t % 32)
        | some x => (tm.group t).foldl (fun m u => if key u = some x then m ||| 2 ^ (u % 32) else m) 0
      (t, m)
    let team := res.foldl (fun y e =>
      let y := y.wr d 0 e.1 (BitVec.ofNat 32 e.2)
      if rank then y.wr d 1 e.1 (popcW (BitVec.ofNat 32 (e.2 % 2 ^ (e.1 % 32)))) else y) tm
    .next ({ s with team := team }.finish (((if k = KeyTy.f64 then 4 else 2) + (if rank then 1 else 0)) * tm.passes))

end Sys2Proof.Machine
end

