-- ==== Sys2Proof/Machine/Limbs.lean ====
section
/-! DEFINITION. Threads as limbs and the register window: majors 1C, 1D and 1E (R17, R103-R111, R305, R342, R344, R349, R350, R353, R354, R397, R400). -/

namespace Sys2Proof.Machine

/-- `bind` (R103, R305): one issue cycle; while EXEC is zero it changes nothing. -/
def execBind (a : Reg) (s : State) : Out :=
  let tm := s.team
  let n := (tm.rd s.blk.bix a 0 0).toNat
  if tm.execZero then .next (s.finish 1)
  else if n < 2 ∨ 1024 < n ∨ tm.threads < n then .next (s.illegal 0x1C false)
  else
    let out := (upList 0 n).filter fun t => !tm.active t
    if !out.isEmpty then .next (s.takeTrap { cls := .boundDiv, threads := out })
    else .next ({ s with team := { tm with limbs := n, limbf := 0 } }.finish 1)

/-- `unbind` (R103, R397). -/
def execUnbind (s : State) : Out := .next ({ s with team := { s.team with limbs := 0 } }.finish 1)

/-- `Limb(X)` of R108. -/
def Team.limb (tm : Team) (bix : Nat) (r : Reg) : Nat :=
  (upList 0 tm.limbs).foldl (fun n t => n + (tm.rd bix r 0 t).toNat * 2 ^ (32 * t)) 0

/-- `Put(D, x)` of R108. -/
def Team.putLimbs (tm : Team) (d : Reg) (x : Nat) : Team :=
  (upList 0 tm.limbs).foldl (fun y t => y.wr d 0 t (BitVec.ofNat 32 (x / 2 ^ (32 * t)))) tm

/-- The sum of R108. -/
def limbAdd (n a b : Nat) : LimbRes :=
  let m := 2 ^ (32 * n)
  let x := (a + b) % m
  { x := x, z := x == 0, v := !limbInRange n (slimb n a + slimb n b), c := decide (m ≤ a + b) }

/-- The difference of R108. -/
def limbSub (n a b : Nat) : LimbRes :=
  let m := 2 ^ (32 * n)
  let x := (a + m - b) % m
  { x := x, z := x == 0, v := !limbInRange n (slimb n a - slimb n b), c := decide (b ≤ a) }

/-- `lcmp` of R108: no register written. -/
def limbCmp (n a b : Nat) : LimbRes :=
  { limbSub n a b with z := a == b, v := decide (slimb n a < slimb n b) }

/-- `lshl` of R108. -/
def limbShl (n a k : Nat) : LimbRes :=
  let x := a * 2 ^ k % 2 ^ (32 * n)
  { x := x, z := x == 0, v := !limbInRange n (slimb n a * 2 ^ k),
    c := decide (1 ≤ k ∧ k ≤ 32 * n) && a / 2 ^ (32 * n - k) % 2 == 1 }

/-- `lshr` of R108. -/
def limbShr (n a k : Nat) (ar : Bool) : LimbRes :=
  let x := if ar then (slimb n a / 2 ^ k % 2 ^ (32 * n)).toNat else a / 2 ^ k
  { x := x, z := x == 0, v := false,
    c := if k = 0 then false else if k ≤ 32 * n then a / 2 ^ (k - 1) % 2 == 1 else ar && a / 2 ^ (32 * n - 1) % 2 == 1 }

/-- `lmul` of R108. -/
def limbMul (n a b c : Nat) : LimbRes :=
  let x := (a * b + c) % 2 ^ (32 * n)
  { x := x, z := x == 0, v := false, c := decide (2 ^ (32 * n) ≤ a * b + c) }

/-- A limb word (R108, R109): window check, nothing while EXEC is zero, unbound trap, nothing while its limb threads are inactive, some of them or all (log 19), else the result is put and the flags written. `d` is none where no register is written; `cost` gives the issue cycles for W mask words. An unbound team's word that also names a register outside the window takes the window trap (log 19). -/
def execLimb (regs : List Reg) (d : Option Reg) (f : Team → Nat → LimbRes) (cost : Nat → Nat) (s : State) : Out :=
  let tm := s.team
  match tm.windowFail (regs.map fun r => (r, 1)) with
  | some x => .next (s.windowTrap x)
  | none =>
    if tm.execZero then .next (s.finish 1)
    else if tm.limbs = 0 then .next (s.illegal 0x1D false)
    else if !((upList 0 tm.limbs).all tm.active) then .next (s.finish 1)
    else
      let r := f tm tm.limbs
      let tm' := match d with
        | some d => tm.putLimbs d r.x
        | none => tm
      .next ({ s with team := { tm' with limbf := r.flags tm.limbs } }.finish (cost ((tm.limbs + 31) / 32)))

/-- `ladd` (R108, R342). -/
def execLadd (d a b : Reg) (s : State) : Out :=
  execLimb [d, a, b] (some d) (fun tm n => limbAdd n (tm.limb s.blk.bix a) (tm.limb s.blk.bix b)) (· + 1) s
/-- `lsub` (R108, R354). -/
def execLsub (d a b : Reg) (s : State) : Out :=
  execLimb [d, a, b] (some d) (fun tm n => limbSub n (tm.limb s.blk.bix a) (tm.limb s.blk.bix b)) (· + 1) s
/-- `lneg` (R108, R350). -/
def execLneg (d a : Reg) (s : State) : Out :=
  execLimb [d, a] (some d) (fun tm n => limbSub n 0 (tm.limb s.blk.bix a)) (· + 1) s
/-- `lcmp` (R108, R344). -/
def execLcmp (a b : Reg) (s : State) : Out :=
  execLimb [a, b] none (fun tm n => limbCmp n (tm.limb s.blk.bix a) (tm.limb s.blk.bix b)) (· + 1) s

/-- The issue cycles of a limb shift (R108, R111). -/
def shiftCost (k w : Nat) : Nat := if k < 32 then w + 1 else 2 * w + 1

/-- `lshl` (R108, R353). -/
def execLshl (d a b : Reg) (s : State) : Out :=
  let k := (s.team.rd s.blk.bix b 0 0).toNat % 65536
  execLimb [d, a] (some d) (fun tm n => limbShl n (tm.limb s.blk.bix a) k) (shiftCost k) s
/-- `lshr` (R108, R353). -/
def execLshr (d a b : Reg) (s : State) : Out :=
  let x := s.team.rd s.blk.bix b 0 0
  execLimb [d, a] (some d) (fun tm n => limbShr n (tm.limb s.blk.bix a) (x.toNat % 65536) x.msb) (shiftCost (x.toNat % 65536)) s
/-- `lmul` (R108, R349). -/
def execLmul (d a b : Reg) (s : State) : Out :=
  execLimb [d, a] (some d) (fun tm n => limbMul n (tm.limb s.blk.bix a) (tm.rd s.blk.bix b 0 0).toNat 0) (4 * · + 1) s
/-- `lmul` with addend (R108, R349). -/
def execLmulAddend (d a b : Reg) (s : State) : Out :=
  execLimb [d, a] (some d)
    (fun tm n => limbMul n (tm.limb s.blk.bix a) (tm.rd s.blk.bix b 0 0).toNat (tm.rd s.blk.bix b 1 0).toNat) (4 * · + 1) s

/-- `wbase` (R17, R400): scalar, no issue cycle. -/
def execWbase (a : Reg) (i : BitVec 11) (s : State) : Out :=
  let w := (s.team.rd s.blk.bix a 0 0 + i.setWidth 32).toNat
  if 128 ≤ w ∨ s.team.regs ≤ 8 * w then .next (s.windowTrap 0)
  else .next ({ s with team := { s.team with wb := w } }.finish 0)

end Sys2Proof.Machine
end

