-- ==== Sys2Proof/Machine/Control.lean ====
section
/-! DEFINITION. Control: major 00, uniform transfers and divergence, majors 20 to 23 (R30-R36, R107, R258, R298, R299, R306, R307, R309-R311, R314, R317, R318, R320, R339, R340, R351, R368, R383, R402), and the fairness switch of R34 to R36. -/

namespace Sys2Proof.Machine

/-! ### Major 00 -/

/-- `nop` (R368). -/
def execNop (s : State) : Out := .next (s.finish 0)

/-- `yield`: the team's effective level is -1 until its next issue (R204, R402). -/
def execYield (s : State) : Out :=
  let s := s.finish 1
  .next { s with team := { s.team with yielded := true } }

/-- The active threads exit (R320); the team unbinds when its limb threads have exited (R107). -/
def Team.exitActive (tm : Team) : Team :=
  let tm' := { tm with exited := tm.actives.foldl (fun m t => tput false m t true) tm.exited }
  if (upList 0 tm.limbs).all fun t => tget false tm'.exited t then { tm' with limbs := 0 } else tm'

/-- `exit` (R320): outstanding results first (R25); when no present thread remains the team has ended (R321), and in a stream the stream (R133). -/
def execExit (s : State) : Out :=
  let tm := s.team.flush
  if tm.kind ≠ .team then .next { s with team := { tm with ended := true } }
  else if tm.execZero then .next ({ s with team := tm }.finish 1)
  else
    let tm := tm.exitActive
    if tm.lives.isEmpty then
      let s := { s with team := tm }.finish 1
      .next { s with team := { s.team with ended := true } }
    else .next ({ s with team := tm }.finish 1)

/-- `brkpt`: class 0x0F without a debugger, a stop request with one (R258, R310). -/
def execBrkpt (t : BitVec 7) (s : State) : Out :=
  if s.debugged s.launch then .next ({ s with team := s.team.requestStop (.brkpt t.toNat) }.finish 1)
  else .next (s.takeTrap { cls := .breakpoint, detail := t.setWidth 16, resume := .next })

/-! ### Uniform transfers -/

/-- The code offset `o` words from the running word (R70). -/
def State.target (s : State) (o : BitVec 18) : Nat := (((s.team.pc : Int) + 4 * o.toInt) % 2 ^ 48).toNat

/-- `br` (R306). -/
def execBr (o : BitVec 18) (s : State) : Out := .next (s.finishAt 0 (s.target o))

/-- `brc`: the predicate of thread t0 (R307). -/
def execBrc (p : Pred) (o : BitVec 18) (s : State) : Out :=
  .next (if s.team.pred s.team.t0 p then s.finishAt 0 (s.target o) else s.finish 0)

/-- `call`: the return pointer goes to s32:s33 (R311). -/
def execCall (o : BitVec 18) (s : State) : Out :=
  .next ({ s with team := s.team.wr64 (.s 32) 0 (mkPtr 7 0 (s.team.pc + 4)) }.finishAt 0 (s.target o))

/-- A computed transfer (R340, R383): space, alignment and the S bit of the target; a fetch fault is raised on the target word. -/
def State.jumpTo (s : State) (q : DWord) : State :=
  if ptrSpace q ≠ 7 ∨ ptrOwner q ≠ 0 then s.takeTrap { cls := .translation, addr := q, detail := 0x1000 }
  else if ptrOff q % 4 ≠ 0 then s.takeTrap { cls := .alignment, addr := q }
  else match s.fetchWord (ptrOff q) with
    | .error _ => s.finishAt 0 (ptrOff q)
    | .ok w => if w.msb then s.finishAt 0 (ptrOff q) else s.illegal 0x21 true

/-- `ret` (R383). -/
def execRet (s : State) : Out := .next (s.jumpTo (s.team.rd64 s.blk.bix (.s 32) 0))
/-- `jmp` (R340). -/
def execJmp (a : Reg) (s : State) : Out := .next (s.jumpTo (s.team.rd64 s.blk.bix a 0))

/-! ### Divergence -/

/-- Change the counters of the present unexited threads. -/
def Team.mapCnt (tm : Team) (f : Nat → Nat → Nat) : Team :=
  { tm with cnt := tm.lives.foldl (fun m t => tput 0 m t (f t (tget 0 tm.cnt t))) tm.cnt }

/-- The issue cycles of a divergence word that has taken effect: one for every mask word that holds an active thread, or one (R298). -/
def Team.divPasses (tm : Team) : List Nat := List.replicate (max 1 tm.passes) 1

/-- The limb threads that a divergence word would leave inactive while others stay active (R107); empty when the word is allowed, also where they were inactive before it (log 19). -/
def boundFail (old new : Team) : List Nat :=
  let ls := upList 0 old.limbs
  if ls.all new.active || ls.all (fun t => !new.active t) then [] else ls.filter fun t => old.active t && !new.active t

/-- A word at a code offset is of one of the kinds a skip may land on (R298): none where the fetch fails. -/
def State.kindAt (s : State) (pc : Nat) (ok : Instr → Bool) : Option Bool :=
  match s.fetchWord pc with
  | .error _ => none
  | .ok w => some ((decode w).any ok)

/-- The word is an `else`. -/
def isElse : Instr → Bool
  | .elsep _ => true
  | _ => false
/-- The word is an `endif`. -/
def isEndif : Instr → Bool
  | .endif => true
  | _ => false

/-- Fetch goes from a divergence word to the word at `pc`, whether or not a thread is active: that word must be of the expected kind, or the divergence word takes an illegal-instruction trap (R35, R298). -/
def State.skipTo (s : State) (tm : Team) (pc : Nat) (ok : Instr → Bool) : State :=
  let s := { s with team := tm }
  match s.kindAt pc ok with
  | some false => s.illegal 0x22 false
  | _ => s.finishPasses tm.divPasses pc

/-- A divergence word ends: it has left the team as `tm` (R298). When no present thread is active fetch skips to `skip`, which must be of the expected kind, or the word takes an illegal-instruction trap (R298). -/
def State.divergeTo (s : State) (tm : Team) (skip : Option (Nat × (Instr → Bool))) (next : Nat) : State :=
  match skip with
  | none => ({ s with team := tm } : State).finishPasses tm.divPasses next
  | some (pc, ok) => if !tm.execZero then ({ s with team := tm } : State).finishPasses tm.divPasses next else s.skipTo tm pc ok

/-- The trap of a divergence word that may not take effect: bound divergence (R107). -/
def State.boundTrap (s : State) (ts : List Nat) : State := s.takeTrap { cls := .boundDiv, threads := ts }

/-- Nesting overflow (R32, R33). -/
def State.nestTrap (s : State) (ts : List Nat) : State := s.takeTrap { cls := .nesting, threads := ts }

/-- `if` (R30, R32, R33, R339). The rules are silent on two points (log 43): its own issue cycles count in the timer `since the innermost open if` (R34), and where it would both overflow the nesting and split the limb threads it takes nesting overflow, before bound divergence (R107). -/
def execIfp (p : Pred) (o : BitVec 18) (s : State) : Out :=
  let tm := s.team
  let above := tm.lives.filter fun t => decide (255 ≤ tget 0 tm.cnt t)
  let new := tm.mapCnt fun t c => if c = 0 then (if tm.pred t p then 0 else 1) else c + 1
  let t := s.target o
  if 255 ≤ tm.stack.length then .next (s.nestTrap tm.lives)
  else if !above.isEmpty then .next (s.nestTrap above)
  else if !(boundFail tm new).isEmpty then .next (s.boundTrap (boundFail tm new))
  else
    let lv : Level := { kind := .thenPath, hasElse := s.kindAt t isElse == some true, start := tm.fair, target := t }
    .next (s.divergeTo { new with stack := lv :: tm.stack } (some (t, fun i => isElse i || isEndif i)) (tm.pc + 4))

/-- The running threads give way to a suspended path (R35): running 0 to 1, the path's threads to 0. -/
def Team.exchange (tm : Team) (back : List Nat) : Team :=
  tm.mapCnt fun t c => if c = 0 then 1 else if t ∈ back then 0 else c

/-- KIND of the top control-level entry (R33, R35). -/
def Team.setKind (tm : Team) (k : LevelKind) : Team :=
  { tm with stack := match tm.stack with
    | [] => []
    | l :: r => { l with kind := k } :: r }

/-- `else` outside the rows of R35: counters 0 and 1 exchange (R30). -/
def State.plainElse (s : State) (o : BitVec 18) : State :=
  let new := (s.team.mapCnt fun _ c => if c = 0 then 1 else if c = 1 then 0 else c).setKind .elsePath
  s.divergeTo new (some (s.target o, isEndif)) (s.team.pc + 4)

/-- `else` (R30, R35, R317). -/
def execElsep (o : BitVec 18) (s : State) : Out :=
  let tm := s.team
  match tm.stack with
  | [] => .next (s.illegal 0x22 false)
  | l :: _ =>
    if l.kind ≠ .thenPath then .next (s.illegal 0x22 false)
    else match tm.pathSlot with
      | .held ths pc d =>
        if d = tm.stack.length then
          .next (s.divergeTo { (tm.exchange ths).setKind .elsePath with pathSlot := .done d } none pc)
        else .next (s.plainElse o)
      | .done d => .next (if d = tm.stack.length then s.skipTo tm (s.target o) isEndif else s.plainElse o)
      | .empty => .next (s.plainElse o)

/-- `endif` outside the held row of R35: every nonzero counter falls, and the level closes (R30, R33). -/
def State.plainEndif (s : State) (slot : PathSlot) : State :=
  let new := s.team.mapCnt fun _ c => c - 1
  s.divergeTo { new with stack := s.team.stack.tail, pathSlot := slot } none (s.team.pc + 4)

/-- `endif` (R30, R35, R318). -/
def execEndif (s : State) : Out :=
  let tm := s.team
  match tm.stack with
  | [] => .next (s.illegal 0x22 false)
  | l :: _ =>
    if l.kind = .loop then .next (s.illegal 0x22 false)
    else match tm.pathSlot with
      | .held ths pc d =>
        if d = tm.stack.length then
          .next (s.divergeTo { (tm.exchange ths).setKind .thenPath with pathSlot := .done d } none pc)
        else .next (s.plainEndif tm.pathSlot)
      | .done d => .next (s.plainEndif (if d = tm.stack.length then .empty else .done d))
      | .empty => .next (s.plainEndif .empty)

/-- `loop.beg` (R31, R32, R351). -/
def execLoopBeg (s : State) : Out :=
  let tm := s.team
  let above := tm.lives.filter fun t => decide (254 ≤ tget 0 tm.cnt t)
  if 255 ≤ tm.stack.length then .next (s.nestTrap tm.lives)
  else if !above.isEmpty then .next (s.nestTrap above)
  else
    let new := tm.mapCnt fun _ c => if c = 0 then 0 else c + 2
    let lv : Level := { kind := .loop, hasElse := false, start := tm.fair, target := tm.pc + 4 }
    .next (s.divergeTo { new with stack := lv :: tm.stack } none (tm.pc + 4))

/-- Some open level is a loop (R31). -/
def Team.inLoop (tm : Team) : Bool := tm.stack.any fun l => decide (l.kind = .loop)

/-- A word of major 23 outside a loop acts as an illegal word: nothing while EXEC is zero, else an illegal-instruction trap (R31, R78). A `loop.end` whose innermost level is an `if` and that no loop encloses is such a word also where R31 makes it a trap whatever EXEC holds: the model takes the no-op while EXEC is zero (log 43). -/
def State.noLoop (s : State) : State :=
  let s := { s with team := s.team.flush }
  if s.team.execZero then s.finish 1 else s.illegal 0x23 false

/-- `loop.end` (R31, R351). -/
def execLoopEnd (o : BitVec 18) (s : State) : Out :=
  let tm := s.team
  if !tm.inLoop then .next s.noLoop
  else match tm.stack with
    | [] => .next s.noLoop
    | l :: rest =>
      if l.kind ≠ .loop then .next (s.illegal 0x23 false)
      else
        let new := tm.mapCnt fun _ c => if c = 1 then 0 else c
        if !new.execZero then .next (s.divergeTo new none (s.target o))
        else .next (s.divergeTo { new.mapCnt (fun _ c => c - 2) with stack := rest } none (tm.pc + 4))

/-- `brk` and `cont`: the active threads whose predicate holds take counter `d + k` (R31, R107). -/
def State.leaveLoop (s : State) (p : Pred) (n : Nat) : State :=
  let tm := s.team
  if !tm.inLoop then s.noLoop
  else
    let new := tm.mapCnt fun t c => if c = 0 && tm.pred t p then n else c
    if !(boundFail tm new).isEmpty then s.boundTrap (boundFail tm new)
    else s.divergeTo new none (tm.pc + 4)

/-- `brk` (R31, R309). -/
def execBrk (p : Pred) (d : BitVec 8) (s : State) : Out := .next (s.leaveLoop p (d.toNat + 2))
/-- `cont` (R31, R314). -/
def execCont (p : Pred) (d : BitVec 8) (s : State) : Out := .next (s.leaveLoop p (d.toNat + 1))

/-! ### The fairness timer -/

/-- The timer of R34: issue cycles since the later of the last switch and the innermost open `if`. -/
def Team.fairTimer (tm : Team) : Nat :=
  match tm.stack with
  | [] => 0
  | l :: _ => tm.fair - max tm.lastSwitch l.start

/-- The threads that a switch would hand over to, and where they continue (R34, R35): none where no switch may happen. It waits for the last pass of the word that issues, and for the end of a hinged execution (R245). -/
def Team.fairOther (tm : Team) (fairt : Nat) : Option (List Nat × Nat) :=
  match tm.stack with
  | [] => none
  | l :: _ =>
    if l.kind = .loop ∨ !l.hasElse ∨ tm.fairTimer < fairt ∨ tm.hinging ∨ !tm.owed.isEmpty ∨ tm.parked.isSome then none
    else
      let go := fun (ths : List Nat) (pc : Nat) => if ths.isEmpty || tm.execZero then none else some (ths, pc)
      match tm.pathSlot with
      | .empty => if l.kind ≠ .thenPath then none else go (tm.lives.filter fun t => tget 0 tm.cnt t == 1) (l.target + 4)
      | .held ths pc d => if d = tm.stack.length then go (ths.filter tm.live) pc else none
      | .done _ => none

/-- The switch of R35: the running threads are held, the others run, and a reservation of an `lr` that the running path has not matched is lost (R36). -/
def State.fairSwitch (s : State) : State :=
  let tm := s.team
  match tm.fairOther s.launch.fairt with
  | none => { s with team := { tm with deferred := none } }
  | some (ths, pc) =>
    let run := tm.actives
    let k : LevelKind := match tm.stack with
      | l :: _ => if l.kind = .thenPath then .elsePath else .thenPath
      | [] => .thenPath
    { s with team := { (tm.exchange ths).setKind k with
        pathSlot := .held run tm.pc tm.stack.length, pc := pc, lastSwitch := tm.fair, deferred := none,
        resv := if tm.lrOpen then tm.resv.filter fun e => e.1 ∉ run else tm.resv,
        scalarResv := if tm.lrScalar then none else tm.scalarResv } }

/-- A fairness switch at the timer's expiry: at once, or deferred by an open `lr` of the running path (R34, R36). -/
def State.fairExpire (s : State) : State :=
  match s.team.fairOther s.launch.fairt with
  | none => s
  | some _ =>
    if s.team.deferred.isSome then s
    else if s.team.lrOpen then { s with team := { s.team with deferred := some 16 } } else s.fairSwitch

/-- The deferred switch: after the `sc`, or after the sixteenth word (R36), and not before a hinged execution has issued its last pass (R245). -/
def State.fairDeferred (s : State) : State :=
  match s.team.deferred with
  | none => s
  | some n => if (n = 0 ∨ !s.team.lrOpen) ∧ !s.team.hinging ∧ s.team.owed.isEmpty then s.fairSwitch else s

end Sys2Proof.Machine
end

