-- ==== Sys2Proof/Machine/MemWords.lean ====
section
/-! DEFINITION. Memory words: loads, stores, `tld`, `pf`, load-reserve and store-conditional, atomics and `mon.arm` (majors 24 to 31; R24-R28, R113, R145-R151, R165, R169-R177, R191-R198, R220, R345, R346, R352, R359, R373, R385, R391, R392, R394). -/

namespace Sys2Proof.Machine

/-! ### Shared parts -/

/-- One thread's access that has passed its checks. -/
structure Acc where
  t : Nat
  q : DWord
  g : Tgt
  deriving DecidableEq, Repr

/-- A thread whose access has failed: the thread, its pointer, the error. -/
abbrev Bad := Nat × DWord × MemErr

/-- The word checks a page's format before the alignment (R346, R352); the others check the alignment first (R173, R359, R385, R392). -/
def Use.formatFirst : Use → Bool
  | .ld | .lr => true
  | _ => false

/-- Check one thread's access: the pointer and the page (R142, R143, R146, R148, R151), the alignment, then lost data where the word reads it at issue (R228). -/
def State.check (s : State) (u : Use) (size : Nat) (vec lost : Bool) (t : Nat) (q : DWord) : Except MemErr Tgt :=
  match s.resolve u size vec s.team.priv? t q with
  | .error e => .error e
  | .ok g =>
    let typed := g.leaf.any fun e => e.refuses u size
    if u.formatFirst && typed then .error .format
    else if ptrOff q % size ≠ 0 then .error .alignment
    else if typed then .error .format
    else if lost && s.tgtPoison g t size != 0 then .error (.uncorr (s.tgtPoison g t size - 1))
    else .ok g

/-- The accesses that pass and those that fail. -/
def State.locate (s : State) (u : Use) (size : Nat) (vec lost : Bool) (rs : List (Nat × DWord)) : List Acc × List Bad :=
  let cs := rs.map fun r => (r, s.check u size vec lost r.1 r.2)
  (cs.filterMap fun c => match c.2 with
    | .ok g => some { t := c.1.1, q := c.1.2, g := g }
    | .error _ => none,
   cs.filterMap fun c => match c.2 with
    | .ok _ => none
    | .error e => some (c.1.1, c.1.2, e))

/-- The trap of failing threads: the class and the pointer are those of the lowest (R218). -/
def State.memFail (s : State) (bad : List Bad) (scalar : Bool) (resume : Resume := .atWord) : Out :=
  let ts := if scalar then [] else bad.map (·.1)
  if bad.any fun b => b.2.2 == .hole then .fault .physicalHole
  else match bad with
    | [] => .next s
    | (_, q, e) :: _ =>
    .next ((s.noteMismatch (bad.any fun b => b.2.2 == .uncorr 3)).takeTrap (TrapCause.mk e.cls ts q 0 e.detail resume))

/-- The largest number of distinct words that accesses ask of one bank (R145). -/
def bankCycles (ws : List Nat) (banks : Nat) : Nat :=
  let ws := ws.eraseDups
  (upList 0 banks).foldl (fun m b => max m (ws.filter fun w => w % banks == b).length) 0

/-- The units of `w` bytes that an access touches. -/
def unitsOf (w o n : Nat) : List Nat := upList (o / w) ((o + n - 1) / w + 1 - o / w)

/-- The accesses of each pass, ascending (R13). -/
def passesOf (as : List Acc) : List (List Acc) := (wordsOf (as.map (·.t))).map fun w => as.filter fun a => a.t / 32 == w

/-- The global page of an access, if it uses one (R227). -/
def State.pageOf (s : State) (q : DWord) : Option Nat := (s.gOff q).map (· / 65536)

/-- The distinct pages that a pass looks up (R227, R346). -/
def State.lookups (s : State) (qs : List DWord) : Nat := (qs.filterMap s.pageOf).eraseDups.length

/-- The bank cycles of a pass on the scratchpad and the accumulator (R145, R346). -/
def accBanks (n : Nat) (as : List Acc) : Nat :=
  bankCycles ((as.filter fun a => a.g.space == 1).flatMap fun a => unitsOf 4 a.g.addr n) 64
    + bankCycles ((as.filter fun a => a.g.space == 2).flatMap fun a => unitsOf 8 a.g.addr n) 32

/-- The issue cycles of one pass of a load or a store (R346, R392), and the race detector's (R264): 1 for a pass, which a scratchpad or accumulator pass spends in its banks; a pass over several spaces takes the sum of its bank and lookup cycles, at least 1. -/
def State.passCycles (s : State) (n race : Nat) (as : List Acc) : Nat :=
  let c := accBanks n as + s.lookups (as.map (·.q))
  let sps := (as.map (·.g.space)).eraseDups
  (if sps.length ≤ 1 && !as.any (fun a => a.g.space == 1 || a.g.space == 2) then 1 + c else max c 1)
    + (if s.launch.race && as.any (fun a => a.g.space == 1) then race else 0)

/-- The issue cycles of one pass of `lr`, `sc`, `atom` or `mon.arm` (R303, R352, R359, R385): 1, its bank cycles and its lookups. -/
def State.homePassCycles (s : State) (n race : Nat) (as : List Acc) : Nat :=
  1 + accBanks n as + s.lookups (as.map (·.q)) + (if s.launch.race && as.any (fun a => a.g.space == 1) then race else 0)

/-- The issue cycles of each of a word's passes (R13, R346); none in the scalar form. -/
def accPasses (scalar : Bool) (pass : List Acc → Nat) (as : List Acc) : List Nat := if scalar then [] else (passesOf as).map pass

/-- The scratchpad words that accesses touch, as (thread, word offset). -/
def accWords (n : Nat) (as : List Acc) : List (Nat × Nat) :=
  (as.filter fun a => a.g.space == 1).flatMap fun a => (unitsOf 4 a.g.addr n).map fun w => (a.t, w)

/-- Race checks of a word's scratchpad accesses, pass by pass; `wrote` tells the accesses that write (R263). -/
def State.raceWord (s : State) (n : Nat) (as : List Acc) (wrote : Acc → Bool) : State :=
  (passesOf as).foldl (fun s p => s.racePass s.team.pc (accWords n p) (accWords n (p.filter wrote))) s

/-- The translations that accesses used stay buffered (R227). -/
def State.fillAccs (s : State) (as : List Acc) : State := s.fillAll (as.map (·.q))

/-- The translations that a failing word's accesses asked for: those found stay buffered, and every walk counts against the budget (R227, R291). -/
def State.fillTried (s : State) (u : Use) (rs : List (Nat × DWord)) : State :=
  s.fillAll ((rs.map (·.2)).filter fun q => spaceAllows (ptrSpace q) u && decide (ptrSpace q = 0 ∨ ptrOwner q = 0))

/-- The accesses of the passes up to the one that failed (R165, R392). -/
def triedReqs (bad : List Bad) (rs : List (Nat × DWord)) : List (Nat × DWord) :=
  rs.filter fun r => bad.all fun b => decide (r.1 / 32 ≤ b.1 / 32)

/-- Requests of `n` bytes to home slices of target packages count against the issuing cluster's budget (R151, R291). -/
def State.chargeFar (s : State) (n : Nat) (as : List Acc) : State :=
  let far := (as.filter fun a => a.g.space == 5).length
  if far = 0 then s else s.modCluster (clusterOf s.core.id) (·.charge (n * far))

/-- The lines that accesses read through the view enter its snapshot (R167, R180); remote reads are charged (R291). -/
def State.touchAccs (s : State) (n : Nat) (as : List Acc) : State := (as.foldl (fun s a => s.touchTgt a.g a.t n) s).chargeFar n as

/-- Watches on a word's accesses (R260). -/
def State.watchAccs (s : State) (n : Nat) (rd wr : Bool) (as : List Acc) : State := s.watchTeam (as.map fun a => (a.t, a.q)) n rd wr

/-- A word that makes no access: its shadow still counts (R24, R38). -/
def State.noAccess (s : State) (d : Dest) (n : Nat) : State := (s.later d [] n).finish 0

/-! ### Loads -/

/-- The register words of loaded bytes: extended to whole words (R345). -/
def extend (sgn : Bool) (bs : List Byte) : List Word :=
  let x := leNat bs
  let n := bs.length
  if n < 4 then [BitVec.ofNat 32 (if sgn && decide (2 ^ (8 * n - 1) ≤ x) then x + 2 ^ 32 - 2 ^ (8 * n) else x)]
  else (upList 0 (n / 4)).map fun i => BitVec.ofNat 32 (x / 2 ^ (32 * i))

/-- `ld` (R345, R346): checks, one read per thread at issue, the result at the moment of R25. A faulting load has read, and been charged for (R291), the data of every thread that the checks let read, lost data too. -/
def execLoad (size : Nat) (sgn : Bool) (d a : Reg) (o : BitVec 7) (n : BitVec 4) (s : State) : Out :=
  let k := (size + 3) / 4
  match s.team.windowFail [(d, k), (a, 2)] with
  | some f => .next (s.windowTrap f)
  | none =>
    let scalar := d.isScalar && a.isScalar
    let rs := s.reqs a scalar (size * o.toInt)
    let ps := pathsOf rs
    match s.team.fullPath ps with
    | some p => .next (s.park (.full p))
    | none =>
      if s.linkWait (rs.map (·.2)) then .next (s.park .link)
      else if rs.isEmpty then .next (s.noAccess (s.team.dest d) n.toNat)
      else
        let (as, bad) := s.locate .ld size a.isV true rs
        if !bad.isEmpty then ((s.fillTried .ld rs).touchAccs size (s.locate .ld size a.isV false rs).1).memFail bad scalar
        else
          let vals := as.map fun x => (x.t, extend sgn (s.readTgt x.g x.t size))
          let cyc := accPasses scalar (s.passCycles size 1) as
          let s := (((s.fillAccs as).touchAccs size as).watchAccs size true false as).raceWord size as fun _ => false
          let s := s.issue { kind := .load, paths := ps, pc := s.team.pc, threads := as.map (·.t) }
          .next ((s.later (s.team.dest d) vals n.toNat).finishEach cyc)

/-- `ld.b32` (R345). -/
def execLdB32 (d a : Reg) (o : BitVec 7) (n : BitVec 4) (s : State) : Out := execLoad 4 false d a o n s
/-- `ld.b8` (R345). -/
def execLdB8 (d a : Reg) (o : BitVec 7) (n : BitVec 4) (s : State) : Out := execLoad 1 false d a o n s
/-- `ld.b64` (R345). -/
def execLdB64 (d a : Reg) (o : BitVec 7) (n : BitVec 4) (s : State) : Out := execLoad 8 false d a o n s
/-- `ld.b16` (R345). -/
def execLdB16 (d a : Reg) (o : BitVec 7) (n : BitVec 4) (s : State) : Out := execLoad 2 false d a o n s
/-- `ld.b128` (R345). -/
def execLdB128 (d a : Reg) (o : BitVec 7) (n : BitVec 4) (s : State) : Out := execLoad 16 false d a o n s
/-- `ld.i8` (R345). -/
def execLdI8 (d a : Reg) (o : BitVec 7) (n : BitVec 4) (s : State) : Out := execLoad 1 true d a o n s
/-- `ld.i16` (R345). -/
def execLdI16 (d a : Reg) (o : BitVec 7) (n : BitVec 4) (s : State) : Out := execLoad 2 true d a o n s

/-! ### Stores -/

/-- The `size` data bytes of thread `t` (R391). -/
def State.dataBytes (s : State) (d : Reg) (size t : Nat) : List Byte :=
  ((upList 0 ((size + 3) / 4)).flatMap fun k => leBytes 4 (s.team.rd s.blk.bix d k t).toNat).take size

/-- The bytes of a raw access on their way, in ascending thread order. -/
def accWrites (a : Acc) (bs : List Byte) : List PendingByte :=
  bs.zipIdx.map fun b => { loc := a.g.loc a.t b.2, byte := b.1, thread := a.t }

/-- Of several writes to one location the last is kept, the highest thread's (R171). -/
def keepLast : List PendingByte → List PendingByte
  | [] => []
  | w :: ws => if ws.any fun x => x.loc = w.loc then keepLast ws else w :: keepLast ws

/-- The writes of one store but for those to a location to which a higher thread writes too (R171). -/
def unbeaten (ws : List PendingByte) : List PendingByte :=
  ws.filter fun w => !ws.any fun x => decide (x.loc = w.loc) && decide (w.thread < x.thread)

/-- The raw and the typed writes of one store: each location keeps the value of the highest thread (R171). A block of a typed page is written whole (R149), by the highest thread that stored into it (log 20). -/
def mergeWrites (raw typed : List PendingByte) : List PendingByte := if typed.isEmpty then raw else keepLast (unbeaten (raw ++ typed))

/-- One view element that a typed store writes (R149): its page, its number, its FP32 value, its thread. -/
structure ElemWrite where
  g : Tgt
  e : TlbEntry
  el : Nat
  x : Word
  t : Nat
  deriving DecidableEq, Repr

/-- The elements of a typed access. -/
def State.elemsOf (s : State) (d : Reg) (size : Nat) (a : Acc) : List ElemWrite :=
  match a.g.leaf with
  | none => []
  | some e => (upList 0 (size / 4)).map fun i =>
      { g := { a.g with voff := 0 }, e := e, el := a.g.voff / 4 + i, x := s.team.rd s.blk.bix d i a.t, t := a.t }

/-- The block of an element write. -/
def ElemWrite.block (w : ElemWrite) : Tgt × Nat := (w.g, (blockPos w.e w.el).1)

/-- A typed store as a whole (R149): the threads of the blocks not fully covered, or the bytes of the quantised blocks with their events. An element raises none where its thread is not `loud` (R100). -/
def typedStore (loud : Nat → Bool) (ws : List ElemWrite) : List Nat × List PendingByte × List Nat :=
  let blocks := (ws.map ElemWrite.block).eraseDups
  let last := fun (b : Tgt × Nat) (p : Nat) => (ws.filter fun w => w.block = b ∧ (blockPos w.e w.el).2 = p).getLast?
  let short := blocks.filter fun b => (upList 0 16).any fun p => (last b p).isNone
  if !short.isEmpty then (((ws.filter fun w => w.block ∈ short).map (·.t)).eraseDups, [], [])
  else
    blocks.foldl (fun r b =>
      let mine := ws.filter fun w => w.block = b
      match mine.getLast? with
      | none => r
      | some w =>
        let m := dbM w.e.efmt
        let xs := (upList 0 16).map fun p => FFmt.f32.dec (((last b p).map ElemWrite.x).getD 0).toNat
        let (blk, evs) := quantise m xs fun p => (last b p).any fun w => !loud w.t
        let hi := mine.foldl (fun h x => max h x.t) 0
        let bytes := (w.g.blockLocs w.e b.2).zip (leBytes (dbBytes m) blk)
        ([], r.2.1 ++ bytes.map (fun y => { loc := y.1, byte := y.2, thread := hi }), r.2.2 ++ evs)) ([], [], [])

/-- The passes of a store before the first that fails, the good threads of that one, and its failing threads (R392). -/
def State.storeScan (s : State) (size : Nat) (vec : Bool) : List (List (Nat × DWord)) → List Acc × List Bad
  | [] => ([], [])
  | p :: ps =>
    let (as, bad) := s.locate .st size vec false p
    if !bad.isEmpty then (as, bad)
    else
      let r := s.storeScan size vec ps
      (as ++ r.1, r.2)

/-- The requests of each pass. -/
def reqPasses (rs : List (Nat × DWord)) : List (List (Nat × DWord)) :=
  (wordsOf (rs.map (·.1))).map fun w => rs.filter fun r => r.1 / 32 == w

/-- Some remote write among accesses is lost with its link (R286). -/
def State.writeLost (s : State) (as : List Acc) : Bool := as.any fun x => x.g.space == 5 && s.xDead x.t

/-- A remote write is lost: its launch fails (R229, R286). -/
def State.failLost (s : State) (as : List Acc) : State :=
  s.failHere 0x0C .uncorrectable (((as.find? fun x => x.g.space == 5 && s.xDead x.t).map (·.q)).getD 0)

/-- The writes of a store word that faults stand (R113, R392): they are checked, issued, and reach their places before the trap. -/
def State.standWrites (s : State) (size : Nat) (as : List Acc) (acc : Access) : State :=
  (((((s.fillAccs as).chargeFar size as).watchAccs size false true as).raceWord size as fun _ => true).issue acc).landStores

/-- `st` (R391, R392): pass by pass; the good threads of a failing pass are written before the fault; typed pages by R149. -/
def execStore (size : Nat) (d a : Reg) (o : BitVec 7) (n : BitVec 4) (s : State) : Out :=
  let k := (size + 3) / 4
  match s.team.windowFail [(d, k), (a, 2)] with
  | some f => .next (s.windowTrap f)
  | none =>
    let scalar := d.isScalar && a.isScalar
    let rs := s.reqs a scalar (size * o.toInt)
    let ps := pathsOf rs
    match s.team.fullPath ps with
    | some p => .next (s.park (.full p))
    | none =>
      if s.linkWait (rs.map (·.2)) then .next (s.park .link)
      else if rs.isEmpty then .next (s.noAccess .none n.toNat)
      else
        let (as, bad) := s.storeScan size a.isV (reqPasses rs)
        let raw := as.filter fun x => x.g.leaf.isNone
        let ws := keepLast (raw.flatMap fun x => accWrites x (s.dataBytes d size x.t))
        let cyc := accPasses scalar (s.passCycles size 2) as
        let acc : Access := { kind := .store, paths := ps, pc := s.team.pc, threads := as.map (·.t), writes := ws, tag := s.freeCount,
                              ptr := (rs.head?.map (·.2)).getD 0 }
        if s.writeLost raw then .next (s.failLost raw)
        else if !bad.isEmpty then ((s.fillTried .st (triedReqs bad rs)).standWrites size raw acc).memFail bad scalar
        else
          let (part, tws, evs) := typedStore s.team.loud (as.flatMap (s.elemsOf d size))
          if !part.isEmpty then
            let bads := (rs.filter fun r => r.1 ∈ part).map fun r => (r.1, r.2, MemErr.partialBlock)
            ((s.fillTried .st rs).standWrites size raw acc).memFail bads scalar
          else if s.writeLost as then .next (s.failLost as)
          else
            let s := (((s.fillAccs as).chargeFar size as).watchAccs size false true as).raceWord size raw fun _ => true
            let s := (s.countEvents evs).issue { acc with writes := mergeWrites ws tws }
            .next ((s.later .none [] n.toNat).finishEach cyc)

/-- `st.b32` (R391). -/
def execStB32 (d a : Reg) (o : BitVec 7) (n : BitVec 4) (s : State) : Out := execStore 4 d a o n s
/-- `st.b64` (R391). -/
def execStB64 (d a : Reg) (o : BitVec 7) (n : BitVec 4) (s : State) : Out := execStore 8 d a o n s
/-- `st.b128` (R391). -/
def execStB128 (d a : Reg) (o : BitVec 7) (n : BitVec 4) (s : State) : Out := execStore 16 d a o n s
/-- `st.b8` (R391). -/
def execStB8 (d a : Reg) (o : BitVec 7) (n : BitVec 4) (s : State) : Out := execStore 1 d a o n s
/-- `st.b16` (R391). -/
def execStB16 (d a : Reg) (o : BitVec 7) (n : BitVec 4) (s : State) : Out := execStore 2 d a o n s

/-! ### The tile load and the prefetch -/

/-- The passes of a `tld` before the first that fails, and the failing threads of that one (R165). -/
def State.tldScan (s : State) : List (List (Nat × DWord)) → List Acc × List Bad
  | [] => ([], [])
  | p :: ps =>
    let (as, bad) := s.locate .tld 16 true true p
    if !bad.isEmpty then ([], bad)
    else
      let r := s.tldScan ps
      (as ++ r.1, r.2)

/-- `tld` (R165, R394): 16 bytes a thread into the scratchpad, which they reach when the data arrives. The threads of a failing pass have read, lost data too (R291). A pass takes 1 cycle (R165, R394), without the lookup cycles that R346 adds to other words (log 20). With EXEC zero it makes no access and does not wait for its counter (log 20). -/
def execTld (d a : Reg) (o : BitVec 7) (n : BitVec 4) (s : State) : Out :=
  match s.team.windowFail [(a, 2)] with
  | some f => .next (s.windowTrap f)
  | none =>
    let rs := s.reqs a false (16 * o.toInt)
    match s.team.fullPath (if rs.isEmpty then [] else [.g]) with
    | some p => .next (s.park (.full p))
    | none =>
      let dst := (s.team.rd s.blk.bix d 0 0).toNat
      let hi := rs.foldl (fun h r => max h r.1) 0
      if rs.isEmpty then .next (s.noAccess .none n.toNat)
      else if dst % 16 ≠ 0 then s.memFail (rs.map fun r => (r.1, r.2, .alignment)) false
      else if s.blk.scratch < dst + 16 * (hi + 1) then s.memFail (rs.map fun r => (r.1, r.2, .notPresent)) false
      else
        let (as, bad) := s.tldScan (reqPasses rs)
        let ws := as.flatMap fun x => (s.readTgt x.g x.t 16).zipIdx.map fun b =>
          ({ loc := .spad (dst + 16 * x.t + b.2), byte := b.1, thread := x.t } : PendingByte)
        let spad := as.map fun x => (x.t, mkPtr 1 (ownerField s.blk.origin) (dst + 16 * x.t))
        let cyc := List.replicate s.team.passes 1
        let read := (s.locate .tld 16 true false (triedReqs bad rs)).1
        let s := (s.fillTried .tld (triedReqs bad rs)).touchAccs 16 read
        let s := s.watchGroups [(as.map fun x => (x.t, x.q), true, false), (spad, false, true)] 16
        let s := s.issue { kind := .tld, paths := [.g], pc := s.team.pc, threads := as.map (·.t), writes := ws }
        if !bad.isEmpty then s.landStores.memFail bad false
        else
          .next ((s.later .none [] n.toNat).finishEach cyc)

/-- `pf` (R373): it never faults; a thread whose line fails a check requests nothing. A line enters the issuing cluster unit, not the core's snapshot. No watch hears a prefetch (log 37). With EXEC zero it requests nothing and does not wait for its counter (log 20). -/
def execPf (a : Reg) (o : BitVec 7) (n : BitVec 4) (s : State) : Out :=
  match s.team.windowFail [(a, 2)] with
  | some f => .next (s.windowTrap f)
  | none =>
    let scalar := a.isScalar
    let rs := (s.reqs a scalar (64 * o.toInt)).map fun r => (r.1, BitVec.ofNat 64 (r.2.toNat / 64 * 64))
    match s.team.fullPath (if rs.isEmpty then [] else [.g]) with
    | some p => .next (s.park (.full p))
    | none =>
      if rs.isEmpty then .next (s.noAccess .none n.toNat)
      else
        let as := (s.locate .pf 64 a.isV false rs).1.filter fun x => x.g.space == 0 || x.g.space == 7
        let lines := (as.flatMap fun x => x.g.locs x.t 64).filterMap fun l => match l with
          | .view b => some (b / 64)
          | _ => none
        let cyc := if scalar then [] else (reqPasses rs).map fun p => 1 + s.lookups (p.map (·.2))
        let s := lines.eraseDups.foldl State.clusterTake (s.fillTried .pf rs)
        let s := s.issue { kind := .pf, paths := [.g], pc := s.team.pc, done := as.isEmpty }
        let s := { s with team := { s.team with inflight := retire [] s.team.inflight } }
        .next ((s.later .none [] n.toNat).finishEach cyc)

/-! ### Homes -/

/-- The 64-byte line of a target, at its home (R166). -/
def State.lineRef (s : State) (g : Tgt) : LineRef :=
  match g.space with
  | 1 => .spad s.blk.key (g.addr / 64)
  | 6 => .hostLine (g.addr / 64)
  | _ => .home g.pkg (g.addr / 64)

/-- The level at which a target's home lies for a scope (R174): the bank, the target's home slice and host memory have one. -/
def homeLevel (g : Tgt) (sc : Scope) : Level3 := if g.space = 0 then scopeLevel sc else .home

/-- The stores to one line that lie above a level are written down to it (R169). -/
def State.lineDown (s : State) (g : Tgt) (lv : Level3) : State :=
  if g.space ≠ 0 then s
  else
    let f := fun a => a / 64 == g.addr / 64
    match lv with
    | .coreView => s
    | .cluster => s.coreDown s.core.id f
    | .home => (s.coreDown s.core.id f).clusDown (clusterOf s.core.id) f

/-- The bytes at a target's home. -/
def State.homeBytes (s : State) (g : Tgt) (lv : Level3) (n : Nat) : List Byte :=
  (upList 0 n).map fun i => match g.space, lv with
    | 0, .coreView => s.viewByte (g.addr + i)
    | 0, .cluster => s.clus.readByte (s.pm s.pkg) (g.addr + i)
    | 1, _ => s.blk.spad.read (g.addr + i)
    | 6, _ => s.hostMem.read (g.addr + i)
    | _, _ => (s.pm g.pkg).bytes.read (g.addr + i)

/-- The lost-data code at a target's home for thread `t` (R228, R286). -/
def State.homePoison (s : State) (g : Tgt) (lv : Level3) (t n : Nat) : Nat :=
  (((upList 0 n).map fun i => match g.space, lv with
    | 0, .home => tget 0 (s.pm s.pkg).poison (g.addr + i)
    | 0, .cluster => s.clus.lostAt (s.pm s.pkg) (g.addr + i)
    | 0, .coreView => s.viewPoison (g.addr + i)
    | 1, _ => tget 0 s.blk.spadPoison (g.addr + i)
    | 6, _ => 0
    | 5, _ => if s.xDead t then 2 else tget 0 (s.pm g.pkg).poison (g.addr + i)
    | _, _ => tget 0 (s.pm g.pkg).poison (g.addr + i)).find? (· ≠ 0)).getD 0

/-- A value written at a home below the issuing core's view is placed in that view, and in the cluster unit where the home lies below it (R173, R180): monitors that watch the line there hear it (R192). -/
def State.heardAbove (s : State) (line : Nat) (lv : Level3) : State :=
  let r := LineRef.home s.pkg line
  let s := s.alert r .coreView fun tm => tm.coreId == s.core.id
  if lv = .home then s.alert r .cluster fun tm => clusterOf tm.coreId == clusterOf s.core.id else s

/-- Write bytes at a target's home, by thread `t` of the running context (R173, R192, R197). -/
def State.homePut (s : State) (g : Tgt) (lv : Level3) (t : Nat) (bs : List Byte) : State :=
  bs.zipIdx.foldl (fun s b =>
    let a := g.addr + b.2
    let d : DirtyByte := { byte := b.1, team := s.team.key, thread := t }
    match g.space, lv with
    | 0, .coreView => s.viewWrite a d
    | 0, .cluster => (s.clusWrite (clusterOf s.core.id) a d).heardAbove (a / 64) lv
    | 0, .home => (s.homeWrite s.pkg a b.1 s.team.key t).heardAbove (a / 64) lv
    | 1, _ => s.spadWrite a b.1 s.team.key t
    | 6, _ => { s with hostMem := s.hostMem.write a b.1 }
    | _, _ => s.homeWrite g.pkg a b.1 s.team.key t) s

/-- The issuing core's view takes the line as its home now holds it (R173, R180): older copies above that level are replaced. -/
def State.viewTake (s : State) (g : Tgt) (lv : Level3) : State :=
  if g.space ≠ 0 ∨ lv = .coreView then s
  else
    let line := g.addr / 64
    let s := { s with core := { s.core with view := s.core.view.drop line } }
    let s := if lv = .home then s.modCluster (clusterOf s.core.id) fun c => { c with view := c.view.drop line } else s
    s.touchLine line

/-- Bring every addressed line's earlier stores down to its home (R169); before a request to host memory the posted writes have reached it (R185; log 3). Each request of `n` bytes to a home slice, of this package or a target's, counts against the cluster's budget (R291). -/
def State.bringDown (s : State) (as : List Acc) (lv : Acc → Level3) (n : Nat) : State :=
  let s := as.foldl (fun s a => s.lineDown a.g (lv a)) s.landStores
  let s := if as.any fun a => a.g.space == 6 then s.postAll else s
  let far := (as.filter fun a => (a.g.space == 0 || a.g.space == 5) && lv a == .home).length
  if far = 0 then s else s.modCluster (clusterOf s.core.id) (·.charge (n * far))

/-- The LEVEL field of an atomic's arbitration record (R267). -/
def recLevel (g : Tgt) (lv : Level3) : Nat :=
  if g.space = 1 then 0 else match lv with
    | .coreView => 1
    | .cluster => 2
    | .home => 3

/-- Where an atomic request goes (R267): its location's key and the words of its arbitration record. -/
def State.atomPlace (s : State) (a : Acc) (lv : Level3) : Nat × Nat × List Word :=
  let level := recLevel a.g lv
  let line := a.g.addr / 64
  let core := if level ≤ 1 then s.core.id else if level = 2 then clusterOf s.core.id * 8 else 0
  (lineLoc (s.lineRef a.g) s.blk.bix, level, [BitVec.ofNat 32 (line % 2 ^ 31), BitVec.ofNat 32 (level * 2 ^ 29 + core % 576 * 2 ^ 19 + line / 2 ^ 31 % 4)])

/-- Capture or replay notes the requests of an `atom`, `lr` or `sc`, one a line, by the very team (R268); the record names the team's slot at a bank or a view, its core elsewhere (R267, log 33). -/
def State.noteAtom (s : State) (as : List Acc) (lv : Acc → Level3) : State :=
  if s.launch.replay = 0 then s
  else ((as.map fun a => s.atomPlace a (lv a)).eraseDups).foldl (fun s x =>
    let s := s.runRec s.launch.uid x.1 x.2.2 (if x.2.1 ≤ 1 then partyOf s.team else 68 + s.core.id)
    { s with launch := s.launch.note x.1 s.team.party }) s

/-- A replayed request must wait for the parties recorded before it (R268). -/
def State.atomTurn (s : State) (as : List Acc) : Option (Nat × Nat) :=
  (as.map fun a => (lineLoc (s.lineRef a.g) s.blk.bix, s.team.party)).find? fun x => !s.launch.mayAct x.1 x.2

/-! ### Load-reserve and store-conditional -/

/-- Place a reservation (R196). The running path has an `lr` to match from then on (R36); the one that the thread reserved by before is given up with its reservation (log 43). -/
def Team.reserve (tm : Team) (scalar : Bool) (t : Nat) (r : LineRef) : Team :=
  let tm := { tm with openLr := { path := tm.actives, thread := t, line := r } :: tm.openLr.filter fun e => e.thread != t }
  if scalar then { tm with scalarResv := some r } else { tm with resv := tput none tm.resv t (some r) }

/-- A `sc` of a thread to a line is the matching one of its `lr` to that line (R36, R198). -/
def Team.closeLr (tm : Team) (t : Nat) (r : LineRef) : Team :=
  { tm with openLr := tm.openLr.filter fun e => !(e.thread == t && decide (e.line = r)) }

/-- `lr` (R196, R352): the home's value, and a reservation on the line. -/
def execLr (size : Nat) (d a : Reg) (o : BitVec 7) (n : BitVec 4) (s : State) : Out :=
  match s.team.windowFail [(d, size / 4), (a, 2)] with
  | some f => .next (s.windowTrap f)
  | none =>
    let scalar := d.isScalar && a.isScalar
    let rs := s.reqs a scalar (size * o.toInt)
    let ps := pathsOf rs
    match s.team.fullPath ps with
    | some p => .next (s.park (.full p))
    | none =>
      if s.linkWait (rs.map (·.2)) then .next (s.park .link)
      else if rs.isEmpty then .next (s.noAccess (s.team.dest d) n.toNat)
      else
        let (as, bad) := s.locate .lr size a.isV false rs
        if !bad.isEmpty then (s.fillTried .lr rs).memFail bad scalar
        else match s.atomTurn as with
        | some w => .next (s.park (.replay w.1 w.2))
        | none =>
          let s' := s.bringDown as (fun _ => .home) size
          let lost := as.filter fun x => s'.homePoison x.g .home x.t size != 0
          if !lost.isEmpty then
            (s'.fillAccs as).memFail (lost.map fun x => (x.t, x.q, .uncorr (s'.homePoison x.g .home x.t size - 1))) scalar
          else
            let vals := as.map fun x => (x.t, extend false (s'.homeBytes x.g .home size))
            let cyc := accPasses scalar (s.homePassCycles size 1) as
            let s := as.foldl (fun s x => s.viewTake x.g .home) (s'.fillAccs as)
            let s := ((s.watchAccs size true false as).noteAtom as fun _ => .home).raceWord size as fun _ => false
            let tm := as.foldl (fun tm x => tm.reserve scalar x.t (s.lineRef x.g)) s.team
            let s := { s with team := tm }
            let s := s.issue { kind := .load, paths := ps, pc := s.team.pc, threads := as.map (·.t) }
            .next ((s.later (s.team.dest d) vals n.toNat).finishEach cyc)

/-- `lr.b32` (R352). -/
def execLrB32 (d a : Reg) (o : BitVec 7) (n : BitVec 4) (s : State) : Out := execLr 4 d a o n s
/-- `lr.b64` (R352). -/
def execLrB64 (d a : Reg) (o : BitVec 7) (n : BitVec 4) (s : State) : Out := execLr 8 d a o n s

/-- The reservation of a thread. -/
def Team.resvOf (tm : Team) (scalar : Bool) (t : Nat) : Option LineRef := if scalar then tm.scalarResv else tget none tm.resv t

/-- One thread's store-conditional (R197): the store at the home if its reservation holds; the reservation ends either way. -/
def State.scOne (s : State) (scalar : Bool) (a : Acc) (bs : List Byte) : State × Bool :=
  let ok := decide (s.team.resvOf scalar a.t = some (s.lineRef a.g))
  let s := if ok then s.homePut a.g .home a.t bs else s
  let tm := s.team
  ({ s with team := if scalar then { tm with scalarResv := none } else { tm with resv := terase tm.resv a.t } }, ok)

/-- `sc` (R197, R198, R385): ascending threads; status 0 or 1 in D. -/
def execSc (size : Nat) (d a : Reg) (o : BitVec 7) (n : BitVec 4) (s : State) : Out :=
  match s.team.windowFail [(d, size / 4), (a, 2)] with
  | some f => .next (s.windowTrap f)
  | none =>
    let scalar := d.isScalar && a.isScalar
    let rs := s.reqs a scalar (size * o.toInt)
    let ps := pathsOf rs
    match s.team.fullPath ps with
    | some p => .next (s.park (.full p))
    | none =>
      if s.linkWait (rs.map (·.2)) then .next (s.park .link)
      else if rs.isEmpty then .next (s.noAccess (s.team.dest d) n.toNat)
      else
        let (as, bad) := s.locate .sc size a.isV false rs
        if !bad.isEmpty then
          (({ s with team := { s.team with resv := [], scalarResv := none } } : State).fillTried .sc rs).memFail bad scalar
        else if s.writeLost as then .next (s.failLost as)
        else match s.atomTurn as with
        | some w => .next (s.park (.replay w.1 w.2))
        | none =>
          let cyc := accPasses scalar (s.homePassCycles size 1) as
          let data := fun x => s.dataBytes d size x
          let s0 := s.bringDown as (fun _ => .home) size
          let r := as.foldl (fun (r : State × List (Nat × List Word)) x =>
            let z := r.1.scOne scalar x (data x.t)
            (z.1, r.2 ++ [(x.t, (upList 0 (size / 4)).map fun _ => if z.2 then (0 : Word) else 1)])) (s0, [])
          let s := as.foldl (fun s x => s.viewTake x.g .home) (r.1.fillAccs as)
          let s := ((s.watchAccs size true true as).noteAtom as fun _ => .home).raceWord size as fun x => r.2.any fun e => e.1 == x.t && e.2.headD 1 == 0
          let tm := as.foldl (fun tm x => tm.closeLr x.t (s.lineRef x.g)) s.team
          let s := { s with team := tm }
          let s := s.issue { kind := .atomic, paths := ps, pc := s.team.pc, threads := as.map (·.t) }
          .next ((s.later (s.team.dest d) r.2 n.toNat).wakeAll.finishEach cyc)

/-- `sc.b32` (R385). -/
def execScB32 (d a : Reg) (o : BitVec 7) (n : BitVec 4) (s : State) : Out := execSc 4 d a o n s
/-- `sc.b64` (R385). -/
def execScB64 (d a : Reg) (o : BitVec 7) (n : BitVec 4) (s : State) : Out := execSc 8 d a o n s

/-! ### Atomics -/

/-- The new value of an atomic (R173): `x` and `y` are D and D+1. -/
def atomNew (p : AtomOp) (old x y : Word) : Word :=
  match p with
  | .add => old + x
  | .min => minS old x
  | .max => maxS old x
  | .and => old &&& x
  | .or => old ||| x
  | .xor => old ^^^ x
  | .exch => x
  | .cas => if old = x then y else old

/-- One thread's atomic (R173): the old value, or the place of the data lost at its home (R228). -/
def State.atomOne (s : State) (p : AtomOp) (lv : Level3) (a : Acc) (x y : Word) : State × Except Nat Word :=
  let lost := s.homePoison a.g lv a.t 4
  if lost ≠ 0 then (s, .error (lost - 1))
  else
    let old : Word := BitVec.ofNat 32 (leNat (s.homeBytes a.g lv 4))
    (s.homePut a.g lv a.t (leBytes 4 (atomNew p old x y).toNat), .ok old)

/-- The ordering releases (R175). -/
def isRel : Ordering4 → Bool
  | .rel => true
  | .ar => true
  | _ => false
/-- The ordering acquires (R175). -/
def isAcq : Ordering4 → Bool
  | .acq => true
  | .ar => true
  | _ => false

/-- `atom` (R173-R177, R303). With EXEC zero it makes no request: it does not wait for its counter, and an ordered one neither drains nor publishes nor refreshes (R38 beside R28 and R175; log 20). -/
def execAtom (p : AtomOp) (c : Scope) (r : Ordering4) (d a : Reg) (n : BitVec 2) (s : State) : Out :=
  let k := if p = .cas then 2 else 1
  match s.team.windowFail [(d, k), (a, 2)] with
  | some f => .next (s.windowTrap f)
  | none =>
    let scalar := d.isScalar && a.isScalar
    let rs := s.reqs a scalar 0
    match s.team.fullPath (if rs.isEmpty then [] else [.a]) with
    | some q => .next (s.park (.full q))
    | none =>
      if s.linkWait (rs.map (·.2)) || (isRel r && !rs.isEmpty && s.team.inflight.any s.farHeld) then .next (s.park .link)
      else if rs.isEmpty then .next (s.noAccess (s.team.dest d) n.toNat)
      else
        let (as, bad) := s.locate (.atom p) 4 a.isV false rs
        let lv := fun (x : Acc) => homeLevel x.g c
        if !bad.isEmpty then (s.fillTried (.atom p) rs).memFail bad scalar
        else match s.atomTurn as with
          | some w => .next (s.park (.replay w.1 w.2))
          | none =>
            let cyc := accPasses scalar (s.homePassCycles 4 0) as
            let ops := fun t => (s.team.rd s.blk.bix d 0 t, s.team.rd s.blk.bix d 1 t)
            let s0 := if isRel r then (s.drain).publish s.core.id (scopeLevel c) else s
            let z := as.foldl (fun (z : State × List (Acc × Except Nat Word)) x =>
              let y := z.1.atomOne p (lv x) x (ops x.t).1 (ops x.t).2
              (y.1, z.2 ++ [(x, y.2)])) (s0.bringDown as lv 4, [])
            let s := as.foldl (fun s x => s.viewTake x.g (lv x)) (z.1.fillAccs as)
            let s := if isAcq r then s.refresh s.core.id (scopeLevel c) else s
            let s := (s.watchAccs 4 true true as).noteAtom as lv
            let s := s.issue { kind := .atomic, paths := [.a], pc := s.team.pc, threads := as.map (·.t) }
            let vals := z.2.filterMap fun e => match e.2 with
              | .ok w => some (e.1.t, [w])
              | .error _ => none
            let lost := z.2.filterMap fun e => match e.2 with
              | .ok _ => none
              | .error k => some (e.1.t, e.1.q, MemErr.uncorr k)
            let s := (s.later (s.team.dest d) vals n.toNat).wakeAll
            if lost.isEmpty then .next (s.finishEach cyc) else s.memFail lost scalar .next

/-! ### Monitors -/

/-- `mon.arm` (R191, R194, R359). More than 8 lines of different spaces report DETAIL 2 (log 22). With EXEC zero it makes no request and does not wait for its counter (log 20). -/
def execMonArm (c : Scope) (d a : Reg) (n : BitVec 4) (s : State) : Out :=
  match s.team.windowFail [(d, 1), (a, 2)] with
  | some f => .next (s.windowTrap f)
  | none =>
    let scalar := d.isScalar && a.isScalar
    let rs := s.reqs a scalar 0
    match s.team.fullPath (if rs.isEmpty then [] else [.a]) with
    | some q => .next (s.park (.full q))
    | none =>
      if rs.isEmpty then
        .next (({ s with team := { s.team with mon := .triggered, monLines := [] } }).noAccess (s.team.dest d) n.toNat)
      else
        let (as, bad) := s.locate .mon 4 a.isV false rs
        let lv := fun (x : Acc) => homeLevel x.g c
        let lines := (as.map fun x => (s.lineRef x.g, lv x)).eraseDups
        let misuse := fun (k : BitVec 16) => s.takeTrap { cls := .monitor, threads := if scalar then [] else s.team.actives, detail := k }
        if !bad.isEmpty then (s.fillTried .mon rs).memFail bad scalar
        else if 8 < lines.length then .next (misuse 2)
        else if (as.map fun x => (x.g.space, x.g.pkg)).eraseDups.length ≠ 1 then .next (misuse 3)
        else
          let cyc := accPasses scalar (s.homePassCycles 4 0) as
          let s0 := s.bringDown as lv 4
          let lost := as.filter fun x => s0.homePoison x.g (lv x) x.t 4 != 0
          let vals := (as.filter fun x => s0.homePoison x.g (lv x) x.t 4 == 0).map fun x => (x.t, extend false (s0.homeBytes x.g (lv x) 4))
          let s := as.foldl (fun s x => s.viewTake x.g (lv x)) (s0.fillAccs as)
          let s := s.watchAccs 4 true true as
          let s := { s with team := { s.team with mon := .armed, monLines := lines } }
          let s := s.issue { kind := .atomic, paths := [.a], pc := s.team.pc, threads := as.map (·.t), tag := 1 }
          let s := s.later (s.team.dest d) vals n.toNat
          if lost.isEmpty then .next (s.finishEach cyc)
          else s.memFail (lost.map fun x => (x.t, x.q, .uncorr (s0.homePoison x.g (lv x) x.t 4 - 1))) scalar .next

end Sys2Proof.Machine
end

