-- ==== Sys2Proof/Machine/Sync.lean ====
section
/-! DEFINITION. Ordering, waiting and latches: `mon.wait`, `phase`, `wait`, `rdcnt` and the five latch words (majors 31 to 34; R25, R29, R133, R168, R185, R193, R194, R206 to R211, R343, R360, R374, R380, R399). -/

namespace Sys2Proof.Machine

/-- Some in-flight access that passes `f` completes (R28), the others stay. -/
def State.completeWhere (s : State) (f : Access → Bool) : State :=
  (upList 0 s.team.inflight.length).foldl (fun s _ =>
    match s.team.inflight.zipIdx.find? fun p => f p.1 && !p.1.done with
    | some p => s.completeAt p.2 none
    | none => s) s

/-- The parts on a path of every in-flight access complete (R28). -/
def State.completeOn (s : State) (q : Path) : State :=
  (upList 0 s.team.inflight.length).foldl (fun s _ =>
    match s.team.inflight.zipIdx.find? fun p => decide (q ∈ p.1.paths) && !p.1.doneOn q with
    | some p => s.completeAt p.2 (some q)
    | none => s) s

/-- Every earlier `mon.arm` of the team completes (R360). -/
def isMonArm (a : Access) : Bool := decide (a.kind = .atomic) && a.tag == 1

/-- `mon.wait` (R193, R194, R360): outstanding results are written (R25); Triggered returns, Armed parks, Idle is misuse. -/
def execMonWait (s : State) : Out :=
  let s := ({ s with team := s.team.flush }).completeWhere isMonArm
  match s.team.mon with
  | .idle => .next (s.takeTrap { cls := .monitor, threads := s.team.actives, detail := 1 })
  | .armed => .next (s.park .monitor)
  | .triggered => .next ({ s with team := { s.team with mon := .idle } }.finish 0)

/-- A stream's word of R133 that first waits for the stream's commands and copies must still wait. -/
def State.streamBusy (s : State) : Bool := s.team.kind ≠ .team && s.blk.hasWork s.team.origin

/-- `phase` (R168, R374): drain, publish, refresh; in a stream after its commands and copies (R133). A drain waits while a store is on its way to another package and no link moves data (R285). At `.host` every earlier host-space store of the core has been written into host memory (R185). -/
def execPhase (c : Scope) (s : State) : Out :=
  if s.streamBusy then .next (s.park .streamDone)
  else if s.team.inflight.any s.farHeld then .next (s.park .link)
  else
    let s := if c = .host then s.drain.hostFlush else s.drain
    let s := (s.publish s.core.id (scopeLevel c)).refresh s.core.id (scopeLevel c)
    .next (s.finish 0).wakeAll

/-- The engine whose faults a `wait` on a path takes (R399). -/
def pathEngine : Path → Option Engine
  | .c => some .cp
  | .m => some .mx
  | _ => none

/-- `wait` (R29, R399): outstanding results, then a waiting engine fault, then the counter. In a stream every counter reads 0. -/
def execWait (p : Path) (d : Reg) (s : State) : Out :=
  let s := { s with team := s.team.flush }
  let k := (s.team.rd s.blk.bix d 0 0).toNat
  match (pathEngine p).bind fun e => s.takeEngFault (EngFault.ownOf e) with
  | some t => .next t
  | none => if k < 255 ∧ k < s.team.counter p then .next (s.park (.path p k)) else .next (s.finish 0)

/-- `rdcnt` (R29, R380), a rendezvous. -/
def execRdcnt (p : Path) (d : Reg) (s : State) : Out :=
  let s := { s with team := s.team.flush }
  .next ({ s with team := s.team.wr d 0 0 (BitVec.ofNat 32 (s.team.counter p)) }.finish 1)

/-! ### Latches -/

/-- `Arrive` on one latch word (R210). -/
def Latch.arrive (l : Latch) : Latch :=
  if l.arr + 1 = l.exp then { l with arr := 0, gen := l.gen + 1 } else { l with arr := l.arr + 1 }

/-- An arrival on latch `l` of a block, by a party (R210, R211), with its replay bookkeeping (R267, R268): a generation that completes is recorded with its arrivers. -/
def State.arrive (s : State) (bk l party : Nat) : State :=
  match s.getBlk bk with
  | none => s
  | some b =>
    let x := tget {} b.latches l
    let s := s.setBlk { b with latches := tput {} b.latches l x.arrive }
    let s := s.modLaunch b.launchUid fun la => la.note (latchLoc b l) party
    if x.arrive.gen = x.gen then s
    else
      let all := (((s.getLaunch b.launchUid).getD {}).recorded.find? (·.1 == latchLoc b l)).map (·.2) |>.getD []
      s.arbRec b.launchUid 0 [BitVec.ofNat 32 (b.coreId * 2 ^ 21 + l * 2 ^ 16 + x.gen.toNat)]
        (all.drop (all.length - x.exp.toNat))

/-- `lat.init` (R210): a value outside 1 to 255 is refused. -/
def execLatInit (l : BitVec 5) (d : Reg) (s : State) : Out :=
  let v := s.team.rd s.blk.bix d 0 0
  if v = 0 ∨ 255 < v.toNat then .next (s.illegal 0x34 true)
  else
    let x := tget {} s.blk.latches l.toNat
    .next ({ s with blk := { s.blk with latches := tput {} s.blk.latches l.toNat { x with exp := v.setWidth 8, arr := 0 } } }.finish 0)

/-- The running context's arrival on a latch. -/
def State.arriveHere (s : State) (l : BitVec 5) : State := s.arrive s.blk.key l.toNat (partyOf s.team)

/-- A replayed launch must let the parties recorded earlier act first (R268). -/
def State.latchTurn (s : State) (l : BitVec 5) : Bool := s.launch.mayAct (latchLoc s.blk l.toNat) (partyOf s.team)

/-- `lat.arr` (R210); in a stream after its commands and copies (R133). -/
def execLatArr (l : BitVec 5) (s : State) : Out :=
  if s.streamBusy then .next (s.park .streamDone)
  else if !s.latchTurn l then .next (s.park (.replay (latchLoc s.blk l.toNat) (partyOf s.team)))
  else .next ((s.arriveHere l).finish 0).wakeAll

/-- The generation of a latch of the running block. -/
def State.latchGen (s : State) (l : BitVec 5) : BitVec 16 := (tget {} s.blk.latches l.toNat).gen

/-- `lat.wait` (R210): outstanding results first (R25). -/
def execLatWait (l : BitVec 5) (d : Reg) (s : State) : Out :=
  let s := { s with team := s.team.flush }
  let g := (s.team.rd s.blk.bix d 0 0).setWidth 16
  if s.latchGen l = g then .next (s.park (.latch l.toNat g.toNat)) else .next (s.finish 0)

/-- `lat.arw` (R210): arrive, then wait for the generation to change. -/
def execLatArw (l : BitVec 5) (s : State) : Out :=
  let s := { s with team := s.team.flush }
  if s.streamBusy then .next (s.park .streamDone)
  else if !s.latchTurn l then .next (s.park (.replay (latchLoc s.blk l.toNat) (partyOf s.team)))
  else
    let g := s.latchGen l
    let s := s.arriveHere l
    if s.latchGen l = g then .next (s.park (.latch l.toNat g.toNat)).wakeAll else .next (s.finish 0).wakeAll

/-- `lat.gen` (R210). -/
def execLatGen (l : BitVec 5) (d : Reg) (s : State) : Out :=
  .next ({ s with team := s.team.wr d 0 0 ((s.latchGen l).setWidth 32) }.finish 0)

end Sys2Proof.Machine
end

