-- ==== Sys2Proof/Machine/Engines.lean ====
section
/-! DEFINITION. The words that command the engines: `fork`, `join`, `cp`, the matrix commands and `mx.post` (majors 35, 36 and 38; R123, R124, R130 to R136, R152 to R154, R159, R160, R163, R315, R334, R341, R365, R366). -/

namespace Sys2Proof.Machine

/-! ### Streams -/

/-- The block has a stream for the engine (R62, R132). -/
def Block.hasStream (b : Block) (e : Engine) : Bool :=
  match e with
  | .mx => b.mxEntry.isSome
  | .cp => b.cpEntry.isSome

/-- Every earlier access of the team on the paths has completed (R28, R132, R135, R159). -/
def State.settle (s : State) (ps : List Path) : State := ps.foldl State.completeOn s

/-- `fork` (R132, R334): S-path accesses first; a running stream parks the team. -/
def execFork (e : Engine) (s : State) : Out :=
  let s := s.settle [.s]
  if !s.blk.hasStream e then .next (s.illegal 0x35 false)
  else if s.blk.running e then .next (s.park (.fork e))
  else .next ((s.startStream s.blk.key e s.team.pc s.team.s).finish 1)

/-- `join` (R134, R341): parks until the stream has ended and its commands are done, then takes a fault of that engine. A team that was woken has joined, whatever the stream does by now (R207). -/
def execJoin (e : Engine) (s : State) : Out :=
  let woken := s.team.joined
  let s := { s with team := { s.team.flush with joined := false } }
  if !woken && !s.blk.joinHolds e then .next (s.park (.join e))
  else match s.takeEngFault fun f => decide (f.engine = e) with
    | some t => .next t
    | none => match s.blk.streamFaults.find? fun f => decide (f.engine = e) with
      | some f => .next (({ s with blk := { s.blk with streamFaults := s.blk.streamFaults.erase f } }).takeTrap f.cause)
      | none => .next (s.finish 1)

/-! ### Entering a FIFO -/

/-- Under replay a FIFO entry waits for the parties recorded before it (R268). -/
def State.fifoTurn (s : State) (e : Engine) : Option Park :=
  if s.launch.mayAct (fifoLoc s.blk e) (partyOf s.team) then none else some (.replay (fifoLoc s.blk e) (partyOf s.team))

/-- Capture or replay notes a FIFO entry of the running context (R267). -/
def State.noteFifo (s : State) (e : Engine) : State :=
  let s := { s with launch := s.launch.note (fifoLoc s.blk e) (partyOf s.team) }
  s.arbRec s.launch.uid (match e with
    | .cp => 2
    | .mx => 3) [BitVec.ofNat 32 (s.core.id * 2 ^ 21)] [partyOf s.team]

/-- A command enters the matrix FIFO (R136): it starts where the engine is idle and no command waits. -/
def State.enterMx (s : State) (x : MxEntry) : State :=
  ({ s with blk := { s.blk with mxFifo := s.blk.mxFifo ++ [{ x with started := s.blk.mxFifo.isEmpty }] } }).noteFifo .mx

/-- A copy enters the copy FIFO (R160). -/
def State.enterCp (s : State) (x : CpEntry) : State :=
  ({ s with blk := { s.blk with cpFifo := s.blk.cpFifo ++ [x] } }).noteFifo .cp

/-- The condition on which a context must wait before it enters a FIFO: a free entry and its place among those that wait (R136, R160), its turn under replay (R268). -/
def State.fifoWait (s : State) (e : Engine) : Option Park := if s.mayEnter s.team e then s.fifoTurn e else some (.fifo e)

/-! ### Matrix commands -/

/-- Registers of a command's block (R124). -/
def mxLen : MxCmd → Nat
  | .prec => 1
  | .ldb => 6
  | .mm => 8
  | .st => 5
  | .zero => 2

/-- The operand words of a command whose block begins at D (R124). -/
def State.mxOps (s : State) (c : MxCmd) (d : Reg) : List Word := (upList 0 (mxLen c)).map fun k => s.team.rd s.blk.bix d k 0

/-- The register field of a block's first word. -/
def fieldOf (d : Reg) : Nat := (encReg d).toNat

/-- A matrix command of the running context as a FIFO entry (R136). -/
def State.mxEntryOf (s : State) (c : MxCmd) (l : BitVec 5) (d : Reg) : MxEntry :=
  { cmd := c, latch := l.toNat, ops := s.mxOps c d, firstReg := fieldOf d, origin := s.team.origin, tag := s.freeCount, pc := s.team.pc }

/-- A stream's matrix command (R133, R365): it enters the FIFO, or the sequencer waits while the FIFO is full. -/
def State.streamMx (s : State) (c : MxCmd) (l : BitVec 5) (d : Reg) : State :=
  match s.fifoWait .mx with
  | some p => s.park p
  | none => (s.enterMx (s.mxEntryOf c l d)).finish 1

/-- `mx.prec` (R123, R365). -/
def execMxPrec (l : BitVec 5) (d : Reg) (s : State) : Out := .next (s.streamMx .prec l d)
/-- `mx.ldb` (R123, R365). -/
def execMxLdb (l : BitVec 5) (d : Reg) (s : State) : Out := .next (s.streamMx .ldb l d)
/-- `mx.mm` (R123, R365). -/
def execMxMm (l : BitVec 5) (d : Reg) (s : State) : Out := .next (s.streamMx .mm l d)
/-- `mx.st` (R123, R365). -/
def execMxSt (l : BitVec 5) (d : Reg) (s : State) : Out := .next (s.streamMx .st l d)
/-- `mx.zero` (R123, R365). -/
def execMxZero (l : BitVec 5) (d : Reg) (s : State) : Out := .next (s.streamMx .zero l d)

/-- Under replay an engine's arrivals on latch `l` of the blocks named wait for the parties recorded before them (R268). -/
def State.arriveWait (s : State) (bs : List Block) (l party : Nat) : Option Park :=
  (bs.find? fun b => !((s.getLaunch b.launchUid).getD {}).mayAct (latchLoc b l) party).map fun b => .replay (latchLoc b l) party

/-- `mx.post` (R135, R366): waits at issue for the counter, the team's S-path accesses and a FIFO entry. -/
def execMxPost (c : MxCmd) (l : BitVec 5) (d : Reg) (n : BitVec 4) (s : State) : Out :=
  let x := s.mxEntryOf c l d
  if 255 ≤ s.team.counter .m then .next (s.park (.full .m))
  else
    let s := s.settle [.s]
    if s.team.discardsMx then
      match s.arriveWait [s.blk] l.toNat 64 with
      | some p => .next (s.park p)
      | none => .next (((s.arrive s.blk.key l.toNat 64).later .none [] n.toNat).finish 1).wakeAll
    else match s.fifoWait .mx with
      | some p => .next (s.park p)
      | none =>
        let s := (s.enterMx x).issue { kind := .matrix, paths := [.m], pc := s.team.pc, tag := x.tag }
        .next ((s.later .none [] n.toNat).finish 1)

/-! ### Copies -/

/-- The fields of a TLR (R152). -/
structure Tlr where
  ver : Nat
  fmt : Nat
  rank : Nat
  xf : Nat
  fill : Nat
  base : DWord
  dim : List Nat
  strideW : List Word
  org : List Int
  orgW : List Word
  ext : List Nat
  fval : Nat
  seed : Word
  dst : Nat
  skew : Nat
  mcast : Nat
  deriving DecidableEq, Repr

/-- Word `k` of a record. -/
def recW (r : List Word) (k : Nat) : Nat := (r.getD k 0).toNat

/-- Decode a record's fields (R152). -/
def tlrOf (r : List Word) : Tlr :=
  let w0 := recW r 0
  { ver := bitsOf w0 7 0, fmt := bitsOf w0 11 8, rank := bitsOf w0 14 12, xf := bitsOf w0 16 15, fill := bitsOf w0 18 17,
    base := pairOf (r.getD 1 0) (r.getD 2 0),
    dim := (upList 3 5).map (recW r), strideW := (upList 8 5).map fun k => r.getD k 0,
    org := (upList 13 5).map fun k => (r.getD k 0).toInt, orgW := (upList 13 5).map fun k => r.getD k 0,
    ext := [bitsOf (recW r 18) 11 0, bitsOf (recW r 18) 23 12, bitsOf (recW r 18) 31 24 + 256 * bitsOf (recW r 19) 3 0,
      bitsOf (recW r 19) 15 4, bitsOf (recW r 19) 27 16],
    fval := recW r 20, seed := r.getD 21 0, dst := bitsOf (recW r 22) 19 0, skew := bitsOf (recW r 22) 23 20,
    mcast := bitsOf (recW r 22) 31 24 }

/-- n of an XF code (R92, R152). -/
def xfN (xf : Nat) : Nat := if xf = 1 then 16 else if xf = 2 then 64 else if xf = 3 then 256 else 1

/-- The mantissa and shift of a stride word, in elements (R152). -/
def strideOf (w : Word) : Nat := w.toNat / 16 * 2 ^ (w.toNat % 16)

/-- The elements of the window. -/
def Tlr.count (t : Tlr) : Nat := (t.ext.take t.rank).foldl (· * ·) 1

/-- Destination bytes in the dense layout (R153). -/
def Tlr.bytes (t : Tlr) : Nat :=
  match elemDb t.fmt with
  | some m => t.count / 16 * dbBytes m
  | none => t.count * elemBits t.fmt / 8

/-- The lowest 1 bit of a number below 2^32, if any. -/
def lowBit (x : Nat) : Option Nat := (upList 0 32).find? fun b => x / 2 ^ b % 2 == 1

/-- A reserved field's offence: word and bit (R154). -/
def resvBad (r : List Word) (k lo : Nat) : List (Nat × Nat × Bool) :=
  match lowBit (recW r k / 2 ^ lo * 2 ^ lo) with
  | some b => [(k, b, false)]
  | none => []

/-- An excluded value's offence. -/
def exclBad (bad : Bool) (k b : Nat) : List (Nat × Nat × Bool) := if bad then [(k, b, true)] else []

/-- Per dimension: sizes and extents are nonzero below RANK, and DIM, STRIDE, ORG and EXT are 0 from RANK up (R152). -/
def Tlr.dimBad (t : Tlr) (d : Nat) : Bool := decide (d < t.rank) == (t.dim.getD d 0 == 0)
def Tlr.strideBad (t : Tlr) (d : Nat) : Bool := decide (t.rank ≤ d) && t.strideW.getD d 0 != 0
def Tlr.orgBad (t : Tlr) (d : Nat) : Bool := decide (t.rank ≤ d) && t.orgW.getD d 0 != 0
def Tlr.extBad (t : Tlr) (d : Nat) : Bool := decide (d < t.rank) == (t.ext.getD d 0 == 0)

/-- Bits of FVAL that R155 uses. -/
def fvalBits (fmt : Nat) : Nat := if elemDb fmt = none ∧ elemBits fmt ≤ 16 then elemBits fmt else 32

/-- The offences of a record in ascending word and bit order (R152, R153, R154): word, bit, whether an excluded value. -/
def tlrBad (r : List Word) (gang : Nat) : List (Nat × Nat × Bool) :=
  let t := tlrOf r
  let n := xfN t.xf
  exclBad (t.ver != 1) 0 0 ++
  exclBad (t.fmt == 15 || (t.xf != 0 && !(4 ≤ t.fmt && t.fmt ≤ 10))) 0 8 ++
  exclBad (t.rank == 0 || 5 < t.rank) 0 12 ++
  exclBad (t.fill == 3) 0 17 ++
  resvBad r 0 19 ++
  ((upList 0 5).flatMap fun d => exclBad (t.dimBad d) (3 + d) 0) ++
  ((upList 0 5).flatMap fun d => exclBad (t.strideBad d) (8 + d) 0) ++
  ((upList 0 5).flatMap fun d => exclBad (t.orgBad d || (d == 0 && t.org.getD 0 0 % n != 0)) (13 + d) 0) ++
  exclBad (t.extBad 0 || t.ext.getD 0 0 % n != 0 || ((elemDb t.fmt).isSome && t.ext.getD 0 0 % 16 != 0)
    || (t.fmt == 12 && t.ext.getD 0 0 % 2 == 1)) 18 0 ++
  exclBad (t.extBad 1) 18 12 ++
  exclBad (t.extBad 2) 18 24 ++
  exclBad (t.extBad 3) 19 4 ++
  exclBad (t.extBad 4) 19 16 ++
  resvBad r 19 28 ++
  exclBad (decide (2 ^ fvalBits t.fmt ≤ t.fval)) 20 0 ++
  exclBad (0xC0000 ≤ t.dst || t.dst % 4 != 0 || (t.skew != 0 && t.dst % 256 != 0)) 22 0 ++
  exclBad (decide (2 ^ gang ≤ t.mcast)) 22 24 ++
  resvBad r 23 0

/-- The destination's space, first offset and limit (R152, R154). -/
def Tlr.dest (t : Tlr) (b : Block) : Nat × Nat × Nat :=
  if t.dst < 0x80000 then (1, t.dst, b.scratch) else (2, t.dst - 0x80000, Config.accBytes)

/-- What `cp` checks at issue (R154): the record, the source pointer, the destination; the first failure. `field` is the register field of its first word. -/
def State.cpFault (s : State) (r : List Word) (field : Nat) : Option TrapCause :=
  let t := tlrOf r
  match tlrBad r s.launch.gang with
  | (w, b, x) :: _ =>
    some { cls := .layout, reg := BitVec.ofNat 8 (field + w), detail := BitVec.ofNat 16 (b + if x then 32 else 0) }
  | [] =>
    let sp := ptrSpace t.base
    if 7 < sp then some { cls := .translation, addr := t.base }
    else if (1 ≤ sp ∧ sp ≤ 4 ∧ ptrOwner t.base ≠ ownerField s.blk.origin) ∨ ((sp = 6 ∨ sp = 7) ∧ ptrOwner t.base ≠ 0)
        ∨ !spaceAllows sp .cp then some { cls := .translation, addr := t.base, detail := 0x1000 }
    else
      let (dsp, off, lim) := t.dest s.blk
      let n := if t.skew = 0 then t.bytes else (t.bytes + 255) / 256 * 256
      if lim < off + n then some { cls := .translation, addr := mkPtr dsp (ownerField s.blk.origin) (max off lim) } else none

/-- The core that a copy's mask names as gang member `i` is block `b` (R158). -/
def copyNames (issuer b : Block) (gang : Nat) (r : List Word) : Bool :=
  let m := bitsOf (recW r 22) 31 24
  b.launchUid == issuer.launchUid && b.bix / gang == issuer.bix / gang &&
    (if m = 0 then b.key == issuer.key else m / 2 ^ (b.bix % gang) % 2 == 1)

/-- The blocks that a copy of a block names (R158). -/
def State.targets (s : State) (b : Block) (record : List Word) : List Block :=
  let g := ((s.getLaunch b.launchUid).getD {}).gang
  ((tvals s.blkTbl).filter fun x => x.key == b.key && copyNames b x g record)
    ++ ((tvals s.blkTbl).filter fun x => x.key != b.key && copyNames b x g record)

/-- The copy that has raised the C counter and waits is discarded: its count falls (R161). -/
def Team.dropRaised (tm : Team) : Team :=
  { tm with raised := none, inflight := tm.inflight.filter fun a => decide (a.kind ≠ .copy) || some a.tag != tm.raised }

/-- A copy that has passed its checks raises the C counter, once, and enters the FIFO, or waits for an entry at issue (R159, R315). -/
def State.postCopy (s : State) (l : BitVec 5) (r : List Word) (n : BitVec 4) : State :=
  let tag := s.team.raised.getD s.freeCount
  let s := if s.team.raised.isSome then s else s.issue { kind := .copy, paths := [.c], pc := s.team.pc, tag := tag }
  match s.fifoWait .cp with
  | some p => ({ s with team := { s.team with raised := some tag } } : State).park p
  | none =>
    let s := s.enterCp { record := r, latch := l.toNat, origin := s.team.origin, tag := tag, pc := s.team.pc }
    (({ s with team := { s.team with raised := none } } : State).later .none [] n.toNat).finish 1

/-- `cp` (R159, R161, R315): it waits for the team's G, S and X accesses, of which a store on its way to another package completes only while a link moves data (R285); then it checks its record, raises the C counter and enters the FIFO. -/
def execCp (l : BitVec 5) (d : Reg) (n : BitVec 4) (s : State) : Out :=
  let r := (upList 0 24).map fun k => s.team.rd s.blk.bix d k 0
  if s.team.raised.isNone && decide (255 ≤ s.team.counter .c) then .next (s.park (.full .c))
  else if s.team.inflight.any s.farHeld then .next (s.park .link)
  else
    let s := s.settle [.g, .s, .x]
    match if s.team.raised.isSome then none else s.cpFault r (fieldOf d) with
    | some c => .next (s.takeTrap c)
    | none =>
    if s.team.discardsCp then
      let bs := s.targets s.blk r
      match s.arriveWait bs l.toNat 65 with
      | some p => .next (s.park p)
      | none =>
        let s := bs.foldl (fun s b => s.arrive b.key l.toNat 65) s
        .next ((({ s with team := s.team.dropRaised } : State).later .none [] n.toNat).finish 1).wakeAll
    else .next (s.postCopy l r n)

end Sys2Proof.Machine
end

