-- ==== Sys2Proof/Machine/System.lean ====
section
/-! DEFINITION. Token queues, performance requests, special registers, `trap` and `eret`, the hinge words and `tlb.inv` (majors 3A to 3E; R79, R80, R101, R105, R186, R217, R223, R227, R243, R319, R338, R358, R363, R372, R376 to R379, R395, R396). -/

namespace Sys2Proof.Machine

/-! ### Token queues -/

/-- The queue of a token is one of the 58 and granted to the launch (R376, R378). -/
def State.queueOk (s : State) (q : Nat) : Bool := decide (q < Config.queues) && s.launch.grant / 2 ^ q % 2 == 1

/-- The fault of a queue word whose queue may not be used (R378). -/
def State.queueTrap (s : State) : State := s.takeTrap { cls := .translation, detail := 0x1000 }

/-- `q.sig` (R186, R378): drain and publish at `.pkg` or wider, then append, or park on a full queue. The drain waits while a store is on its way to another package and no link moves data (R28, R168, R285). -/
def execQSig (c : Scope) (d : Reg) (s : State) : Out :=
  let w := s.team.rd s.blk.bix d 0 0
  let q := w.toNat / 2 ^ 26
  if !s.queueOk q then .next s.queueTrap
  else if s.team.inflight.any s.farHeld then .next (s.park .link)
  else
    let s := s.drain.publish s.core.id (Level3.max (scopeLevel c) (scopeLevel .pkg))
    if (tget {} s.hub.tokenQueues q).tokens.length < 255 then
      .next ((s.addToken q { word := w, core := some s.core.id, scope := c }).finish 0).wakeAll
    else .next (s.park (.qSend q w c)).wakeAll

/-- The register number of a scalar field. -/
def scalarNum : Reg → Nat
  | .s i => i.val
  | _ => 0

/-- `q.wait` (R186, R379): the oldest token not promised to another waiter, then a refresh at E, which the scope written on the word does not enter; or park. -/
def execQWait (_ : Scope) (d : Reg) (s : State) : Out :=
  let q := (s.team.rd s.blk.bix d 0 0).toNat / 2 ^ 26
  if !s.queueOk q then .next s.queueTrap
  else
    let k := tget {} s.hub.tokenQueues q
    match k.tokens[k.waiters.length]? with
    | some t =>
      let s := s.modQueue q fun x => { x with tokens := x.tokens.eraseIdx x.waiters.length }
      let s := { s with team := s.team.wr d 0 0 t.word }
      .next ((s.refresh s.core.id (t.level s.core.id)).finish 0).wakeAll
    | none =>
      let s := s.modQueue q fun x => { x with waiters := x.waiters ++ [s.team.wid] }
      .next (s.park (.qRecv q (scalarNum d)))

/-! ### Performance levels -/

/-- `perf.set` (R217, R372): CUR follows at the next evaluation of the die's controller (R292). -/
def execPerfSet (d : Reg) (s : State) : Out :=
  let v := (s.team.rd s.blk.bix d 0 0).toNat
  if 15 < v then .next (s.illegal 0x3B true) else .next ({ s with team := { s.team with perfReq := v } }.finish 0)

/-! ### Special registers -/

/-- MXSTAT (R80, R136). -/
def mxstat (b : Block) : Word :=
  BitVec.ofNat 32 (256 * (b.mxFifo.filter fun x => !x.started).length
    + (if b.mxFifo.any (·.started) then 2 else 0) + (if b.wovf then 1 else 0))

/-- BLOCKID (R80). -/
def State.blockId (s : State) (core : Nat) : Word :=
  BitVec.ofNat 32 (1024 * s.pkg + 256 * dieOf core + 8 * (core % Config.coresPerDie / 8) + core % 8)

/-- PERFLVL of the running context (R80, R217). A sequencer has no `perf.set`: its REQ reads 15 (log 30). -/
def State.perfLvl (s : State) : Word :=
  let k := clusterOf s.core.id
  BitVec.ofNat 32 (4096 * (s.getCluster k).cap + 256 * s.team.perfReq + (s.getCluster k).cur)

/-- The special register of a selector (R79, R80, R358); TIME has its own width. -/
def State.special (s : State) (x : Nat) : Word :=
  let tm := s.team
  if x < 0x20 then tm.execWord x
  else if x < 0x40 then tget 0 tm.faultMask (x - 0x20)
  else if x < 0x54 then tget 0 s.launch.fpcnt (x - 0x40)
  else if 0x58 ≤ x ∧ x < 0x5C then tget 0 tm.faultInfo (x - 0x58)
  else match x with
    | 0x60 => BitVec.ofNat 32 tm.part
    | 0x61 => BitVec.ofNat 32 tm.limbs
    | 0x62 => tm.limbf.setWidth 32
    | 0x63 => BitVec.ofNat 32 tm.wb
    | 0x64 => BitVec.ofNat 32 tm.tprio
    | 0x65 => (tm.pen ++ tm.rnd).setWidth 32
    | 0x66 => s.blk.mxp
    | 0x67 => mxstat s.blk
    | 0x68 => BitVec.ofNat 32 s.blk.mxprog
    | 0x69 => BitVec.ofNat 32 s.blk.cpprog
    | 0x6A => BitVec.ofNat 32 (64 * tm.slot + 16 * tm.qtr + tm.index)
    | 0x6B => s.blockId s.core.id
    | 0x6C => (tget {} s.core.quarters tm.qtr).sampctl
    | 0x6D => BitVec.ofNat 32 ((if s.launch.out then 4 else 0) + s.launch.pol)
    | 0x6E => s.perfLvl
    | 0x6F => BitVec.ofNat 32 (ownerField s.blk.origin)
    | _ => 0

/-- EXEC, FPCNT, LIMBS and LIMBF are read by a rendezvous (R358). -/
def rendezvousSel (x : Nat) : Bool := decide (x < 0x20) || (decide (0x40 ≤ x) && decide (x < 0x54)) || x == 0x61 || x == 0x62

/-- `mfsr` (R79, R358). -/
def execMfsr (x : BitVec 11) (d : Reg) (s : State) : Out :=
  if x = 0x70 then .next ({ s with team := s.team.wr64 d 0 s.time }.finish 0)
  else if rendezvousSel x.toNat then
    let s := { s with team := s.team.flush }
    .next ({ s with team := s.team.wr d 0 0 (s.special x.toNat) }.finish 1)
  else .next ({ s with team := s.team.wr d 0 0 (s.special x.toNat) }.finish 0)

/-- A value that MXP's map admits (R80, R125). -/
def mxpOk (v : Nat) : Bool :=
  v / 2 ^ 13 == 0 && bitsOf v 7 7 == 0 && (4 ≤ bitsOf v 11 8 && bitsOf v 11 8 ≤ 14) && (1 ≤ bitsOf v 6 0 && bitsOf v 6 0 ≤ 64)
    && (bitsOf v 12 12 == 1 || elemIsInt (bitsOf v 11 8))

/-- What an `mtsr` does: it is refused with nothing changed, it writes, or it must wait for a FIFO entry. -/
inductive SrWrite where
  | refused
  | wrote (s : State) (cycles : Nat)
  | waits (p : Park)

/-- `mtsr MXP`: the value enters the matrix FIFO as an `mx.prec` of the team (R125, R363). -/
def State.writeMxp (s : State) (v : Word) : SrWrite :=
  if !mxpOk v.toNat then .refused
  else if s.team.discardsMx then .wrote s 0
  else match s.fifoWait .mx with
    | some p => .waits p
    | none => .wrote (s.enterMx { cmd := .prec, latch := 0, ops := [v], firstReg := 0, origin := s.team.origin, tag := s.freeCount,
                                  pc := s.team.pc, mtsr := true }) 0

/-- The effect of an `mtsr` (R79, R80, R363). -/
def State.writeSpecial (s : State) (x : Nat) (v : Word) : SrWrite :=
  let n := v.toNat
  let put := fun (tm : Team) => SrWrite.wrote { s with team := tm } 0
  let priv := fun (ok : Bool) (t : State) => if s.team.priv? && ok then SrWrite.wrote t 0 else .refused
  match x with
  | 0x60 => if n ∈ [2, 4, 8, 16, 32] then put { s.team with part := n } else .refused
  | 0x62 => if n < 16 then .wrote { s with team := { s.team with limbf := v.setWidth 4 } } 1 else .refused
  | 0x64 => if n < 8 then put { s.team with tprio := n } else .refused
  | 0x65 => if n < 16 then put { s.team with rnd := v.setWidth 2, pen := v.extractLsb' 2 2 } else .refused
  | 0x66 => s.writeMxp v
  | 0x67 => if n < 2 then .wrote { s with blk := { s.blk with wovf := s.blk.wovf && n == 0 } } 0 else .refused
  | 0x68 => priv true { s with blk := { s.blk with mxprog := n } }
  | 0x69 => priv true { s with blk := { s.blk with cpprog := n } }
  | 0x6C => priv (bitsOf n 30 24 == 0 && 256 ≤ bitsOf n 23 0)
      { s with core := { s.core with quarters := tput {} s.core.quarters s.team.qtr { tget {} s.core.quarters s.team.qtr with sampctl := v } } }
  | 0x6D => priv (decide (n < 8) && bitsOf n 1 0 != 3) { s with launch := { s.launch with pol := n % 4 } }
  | _ => .refused

/-- Before a rendezvous reads its operands every outstanding result is written (R25): an `mtsr` to LIMBS or LIMBF is one (R22, R105). -/
def State.beforeMtsr (s : State) (x : Nat) : State := if x = 0x61 ∨ x = 0x62 then { s with team := s.team.flush } else s

/-- `mtsr` (R79, R105, R363). R20 makes a write of LIMBS or LIMBF a vector word and R363 calls `mtsr` scalar: the illegal trap of any of them reports no thread (log 19). -/
def execMtsr (x : BitVec 11) (d : Reg) (s : State) : Out :=
  let s := s.beforeMtsr x.toNat
  match s.writeSpecial x.toNat (s.team.rd s.blk.bix d 0 0) with
  | .refused => .next (s.illegal 0x3C true)
  | .waits p => .next (s.park p)
  | .wrote t k => .next (t.finish k)

/-! ### `trap` and `eret` -/

/-- `trap` (R223, R396). -/
def execTrap (c : BitVec 11) (s : State) : Out := .next (s.takeTrap { cls := .software, detail := c.setWidth 16, resume := .next })

/-- `eret` (R223, R319). -/
def execEret (s : State) : Out :=
  match s.team.trapCtx with
  | none => .next (s.illegal 0x3D true)
  | some x => .next (s.returnTrap x)

/-! ### Hinges -/

/-- More fields of a hinge descriptor (R242). -/
def hgOlen (d : QWord) : Nat := bitsOf d.toNat 83 80
def hgCoff (d : QWord) : Nat := bitsOf d.toNat 99 86
def hgClen (d : QWord) : Nat := bitsOf d.toNat 103 100
def hgPcnt (d : QWord) : Nat := bitsOf d.toNat 111 104
def hgAcnt (d : QWord) : Nat := bitsOf d.toNat 127 112

/-- Two regions overlap. -/
def hgOverlap (a b : QWord) : Bool := decide (hgStart a ≤ hgStart b + hgOlen b) && decide (hgStart b ≤ hgStart a + hgOlen a)

/-- The checks of `hng.set` on a descriptor for entry `e` (R243). -/
def State.hingeOk (s : State) (e : Nat) (d : QWord) : Bool :=
  bitsOf d.toNat 85 84 == 0 && bitsOf d.toNat 79 64 == 0 && bitsOf d.toNat 24 2 == 0 && hgState d == 1 && hgPcnt d == 0
    && hgAcnt d == 0
    && !s.core.hinges.any fun h => h.1 != e && h.2.launchUid == s.launch.uid && (hgState h.2.desc == 1 || hgState h.2.desc == 2)
      && hgHandle h.2.desc == hgHandle d && hgOverlap h.2.desc d

/-- The candidate text of a descriptor, fetched from the hinge area (R243): the words, or the failing pointer and its error. -/
def State.hingeText (s : State) (d : QWord) : Nat → Except (MemErr × DWord) (List Word)
  | 0 => .ok []
  | k + 1 =>
    let pc := s.launch.hinge + 4 * hgCoff d + 4 * (hgClen d - k)
    match s.fetchWord pc with
    | .error x => .error (x, mkPtr 7 0 pc)
    | .ok w => match s.hingeText d k with
      | .error x => .error x
      | .ok ws => .ok (w :: ws)

/-- What the reads of candidate text leave, up to the word that fails (R227, R291). -/
def State.readHinge (s : State) (d : QWord) (k : Nat) : State :=
  let pc := fun (i : Nat) => s.launch.hinge + 4 * hgCoff d + 4 * i
  let ok := ((upList 0 k).takeWhile fun i => (s.fetchWord (pc i)).toBool).length
  foldS (fun s i => s.readText (pc i)) (upList 0 (min k (ok + 1))) s

/-- The entry that a descriptor and its text install (R243). -/
def State.installHinge (s : State) (e : Nat) (d : QWord) (ws : List Word) : State :=
  { s with core := { s.core with hinges := tput {} s.core.hinges e { desc := d, text := ws, launchUid := s.launch.uid } } }

/-- The 128 bits of four words, word 0 first (R243). -/
def qwordOf (ws : List Word) : QWord := (ws.getD 3 0 ++ ws.getD 2 0 ++ ws.getD 1 0 ++ ws.getD 0 0 : BitVec 128)

/-- Word `k` of 128 bits. -/
def qwordW (d : QWord) (k : Nat) : Word := (d >>> (32 * k)).setWidth 32

/-- `hng.set` (R243, R338). -/
def execHngSet (e : BitVec 4) (d : Reg) (s : State) : Out :=
  let q := qwordOf ((upList 0 4).map fun k => s.team.rd s.blk.bix d k 0)
  if !s.team.priv? || !s.hingeOk e.toNat q then .next (s.illegal 0x3E true)
  else match s.hingeText q (hgClen q + 1) with
    | .error x => (s.readHinge q (hgClen q + 1)).memTrap x.1 [] x.2
    | .ok ws => .next (((s.readHinge q (hgClen q + 1)).installHinge e.toNat q ws).finish 0)

/-- `hng.clr` (R243, R338). -/
def execHngClr (e : BitVec 4) (s : State) : Out :=
  if !s.team.priv? then .next (s.illegal 0x3E true)
  else .next ({ s with core := { s.core with hinges := terase s.core.hinges e.toNat } }.finish 0)

/-- `hng.rd` (R243, R338). An entry that an escape or a withdrawal has emptied keeps its other bits (R249), which it reads back with STATE 0 (log 36). -/
def execHngRd (e : BitVec 4) (d : Reg) (s : State) : Out :=
  if !s.team.priv? then .next (s.illegal 0x3E true)
  else
    let q := (tget {} s.core.hinges e.toNat).desc
    let tm := (upList 0 4).foldl (fun tm k => tm.wr d k 0 (qwordW q k)) s.team
    .next ({ s with team := tm }.finish 0)

/-! ### Translation buffers -/

/-- The cores and clusters whose buffers a scope of `tlb.inv` reaches (R395). -/
def invCore (c : Scope) (here k : Nat) : Bool :=
  match c with
  | .thr | .grp | .team | .core => k == here
  | .quad | .clus => clusterOf k == clusterOf here
  | .die => dieOf k == dieOf here
  | _ => true
def invCluster (c : Scope) (here k : Nat) : Bool :=
  match c with
  | .thr | .grp | .team | .core => false
  | .quad | .clus => k == clusterOf here
  | .die => k / Config.clustersPerDie == dieOf here
  | _ => true

/-- Remove the entries of a root that cover an offset, from the buffers that a scope reaches; the issuing core's next fill of the page is a walk (R395). -/
def State.tlbDrop (s : State) (c : Scope) (root off : Nat) : State :=
  let here := s.core.id
  let page := off - off % 65536
  let s := { s with core := { s.core with walks := (root, page) :: s.core.walks.filter (· != (root, page)) } }
  let s := s.mapCores fun k x => if invCore c here k then { x with tlb := x.tlb.filter fun e => !e.covers root off } else x
  s.mapClusters fun k x => if invCluster c here k then { x with tlb := x.tlb.filter fun e => !e.covers root off } else x

/-- `tlb.inv` (R79, R395): a code pointer names the global offset to which it translates. -/
def execTlbInv (c : Scope) (d : Reg) (s : State) : Out :=
  if !s.team.priv? then .next (s.illegal 0x3E true)
  else
    match s.gOff (s.team.rd64 s.blk.bix d 0) with
    | some o => .next ((s.tlbDrop c s.launch.root o).finish 0)
    | none => .next (s.finish 0)

end Sys2Proof.Machine
end

