-- ==== Sys2Proof/Machine/Launch.lean ====
section
/-! DEFINITION. Launches: the doorbell, the descriptor check, placement, and the ends of teams, blocks and launches (R39 to R44, R55, R138, R144, R158, R187, R199, R200, R228, R229, R236, R262, R267 to R269, R321). -/

namespace Sys2Proof.Machine

/-! ### Descriptors -/

/-- The doorbell of a queue (R42). -/
def execCqtailWrite (q : Nat) (v : BitVec 16) (s : State) : Out :=
  if Config.queues ≤ q then .next s
  else .next { s with hub := { s.hub with queues := tput {} s.hub.queues q { tget {} s.hub.queues q with tail := v } } }

/-- log2 of a ring's length; none where the value stops the queue (R42). -/
def CmdQueue.log (c : CmdQueue) : Option Nat :=
  let n := c.size.toNat % 32
  if 4 ≤ n ∧ n ≤ 16 then some n else none

/-- A descriptor waits in the queue (R42). No rule says what a CQTAIL at or beyond the ring's length means: it is taken modulo that length (log 43). -/
def CmdQueue.waiting (c : CmdQueue) : Bool :=
  match c.log with
  | none => false
  | some n => c.head.toNat != c.tail.toNat % 2 ^ n

/-- The queue that the hub serves next: in rotation after the queue it served last (R42). -/
def Hub.nextQueue (h : Hub) : Option Nat :=
  ((upList 1 Config.queues).map fun k => (h.lastQueue + k) % Config.queues).find? fun q => (tget {} h.queues q).waiting

/-- Word `k` of a descriptor. -/
abbrev Desc := List Word
def Desc.w (d : Desc) (k : Nat) : Nat := (d.getD k 0).toNat
/-- Bits of word `k`. -/
def Desc.f (d : Desc) (k hi lo : Nat) : Nat := bitsOf (d.w k) hi lo
/-- Two words, low word first. -/
def Desc.w2 (d : Desc) (k : Nat) : Nat := d.w k + 2 ^ 32 * d.w (k + 1)

/-- The 384 bytes of a descriptor in host memory. -/
def State.readDesc (s : State) (a : Nat) : Desc := (upList 0 96).map fun k => s.hostMem.word (a + 4 * k)

/-- The handle space in which a world's handles lie: its own for a protected world, else the package's (R229, R252, R278). -/
def State.handleSpace (s : State) (world : Nat) : Option Nat := if tget .free s.tumbler.worlds world == .prot then some world else none

/-- The code object that a handle names in a world. -/
def State.code (s : State) (world handle : Nat) : Option CodeObj :=
  s.hub.codeObjs.find? fun c => decide (c.owner = s.handleSpace world) && c.handle == handle

/-- The most recent launch with a LAUNCHID among those that the package has seen (R44). -/
def State.seen (s : State) (id : Word) : Option Nat :=
  (tvals s.launchTbl).foldl (fun r l => if l.launchid = id then some l.uid else r) none

/-- The most recent capture launch of a kernel of a code object that is over, by its end or its failure (R268). -/
def State.captureOf (s : State) (c : CodeObj) (k : Kernel) : Option Launch :=
  ((tvals s.launchTbl).filter fun l => l.replay == 1 && decide (l.code = c) && decide (l.kernel = k) && (decide (l.status = .ended) || decide (l.status = .failed))).getLast?

/-- The world may read a physical page: it is world 0's or its own, and not Tumbler's (R252, R270, R272). -/
def PkgMem.readableBy (m : PkgMem) (world page : Nat) : Bool := !m.isMeta page && (m.ownedBy 0 page || m.ownedBy world page)

/-- The remote-window table as it stands in main memory, for a world: none of a page that the world may not read (R151, R252, R267). -/
def State.rwtBytes (s : State) (world rwt : Nat) : Mem :=
  tfilter (fun a _ => decide (rwt ≤ a) && decide (a < rwt + 65536) && (s.pm s.pkg).readableBy world (a / 65536)) (s.pm s.pkg).bytes

/-- The bytes of main memory that a page of global space names for a world under a root, by offset; none where it does not translate or the owner check fails (R227, R252). -/
def State.pageBytes (s : State) (world root page : Nat) : Mem :=
  match (walk (s.pm s.pkg) root (65536 * page)).bind (fillCheck (s.pm s.pkg) world) with
  | .error _ => []
  | .ok e =>
    let a := e.phys (65536 * page)
    (tfilter (fun x _ => decide (a ≤ x) && decide (x < a + 65536)) (s.pm s.pkg).bytes).map fun x => (65536 * page + (x.1 - a), x.2)

/-- What a global input range holds (R267): its first offset in bits [63:0], its length in bytes above (log 33). -/
def State.inputBytes (s : State) (world root : Nat) (r : QWord) : Mem :=
  let lo := bitsOf r.toNat 63 0
  let hi := lo + bitsOf r.toNat 127 64
  tfilter (fun o _ => decide (lo ≤ o) && decide (o < hi)) ((upList (lo / 65536) ((hi + 65535) / 65536 - lo / 65536)).flatMap (s.pageBytes world root))

/-- What the input ranges of a launch hold (R267). -/
def State.inputsOf (s : State) (l : Launch) : List (Nat × Mem) := l.inputs.map fun r => (r.1, s.inputBytes l.world l.root r.2)

/-- A replayed launch finds its capture (R268): the same code object and kernel, the same input ranges, no lost record. -/
def State.replayOk (s : State) (c : CodeObj) (k : Kernel) : Bool :=
  match s.captureOf c k with
  | none => false
  | some l => l.replayBuf.lost == 0 && decide (l.inputs = s.hub.inputRanges)

/-- At its start a replayed launch finds the captured window table and inputs (R267, R268). -/
def State.inputsSame (s : State) (l : Launch) : Bool :=
  match s.captureOf l.code l.kernel with
  | none => false
  | some c => decide (c.rwtCopy = s.rwtBytes l.world l.rwt) && decide (c.inputCopy = s.inputsOf l)

/-- The descriptor words that hold a failed check (R44, R229), not in order. A RACE bit holds the `.scratch` check to 320 KiB whatever the world, though the detector never acts on a protected one (R55 beside R252; log 32). -/
def State.descBad (s : State) (d : Desc) : List Nat :=
  let c := s.code (d.f 0 13 8) (d.f 2 14 0)
  let k := c.bind fun c => c.kernels[d.f 2 22 15]?
  let bad := fun (n : Nat) (b : Bool) => if b then [n] else []
  let nd := d.f 39 3 0
  let fair := d.f 5 16 0
  let lp := d.f 38 5 0
  bad 0 (d.f 0 31 14 != 0 || d.f 0 7 0 != 1 || tget .free s.tumbler.worlds (d.f 0 13 8) == .free) ++
  bad 2 (d.f 2 31 23 != 0 || k.isNone
    || (match k with
      | some k => decide ((if d.f 11 2 2 = 1 then Config.spadUsableRace else Config.spadBytes) < k.scratch)
      | none => false)) ++
  bad 3 (d.f 3 31 28 != 0 || d.f 3 27 24 == 0 || 8 < d.f 3 27 24 || d.f 3 23 0 == 0 || d.f 3 23 0 % d.f 3 27 24 != 0) ++
  bad 4 (d.w 4 != 0xFFFFFFFF && (match c with
    | some c => d.w 4 % 4 != 0 || decide (c.textBytes ≤ d.w 4)
    | none => false)) ++
  bad 5 (d.f 5 31 17 != 0 || (fair != 0 && (fair < 256 || 65536 < fair))) ++
  bad 6 (d.f 6 31 22 != 0 || (if d.f 6 21 21 = 1 then d.f 6 18 0 != 0
    else d.f 6 4 0 == 0 || 16 < d.f 6 4 0 || d.f 6 12 5 == 0 || d.f 6 18 17 == 3)) ++
  bad 7 (d.w2 7 % 65536 != 0) ++ bad 8 (65536 ≤ d.w 8) ++
  bad 9 (d.w2 9 % 8192 != 0) ++ bad 10 (65536 ≤ d.w 10) ++
  bad 11 (d.f 11 31 9 != 0 || d.f 11 1 0 == 3 || (d.f 11 1 0 == 2 && !(match c, k with
    | some c, some k => s.replayOk c k
    | _, _ => true))) ++
  bad 12 (d.w2 12 % 2048 != 0) ++ bad 14 (d.w2 14 % 65536 != 0) ++
  bad 17 (d.f 17 31 26 != 0) ++
  bad 38 (d.f 38 31 6 != 0 || !(lp == 63 || (lp % 2 == 0 && lp ≤ 34))) ++
  bad 39 (d.f 39 31 4 != 0 || 8 < nd) ++
  ((upList 0 8).flatMap fun i => bad (40 + i) (if i < nd then (s.seen (d.getD (40 + i) 0)).isNone else d.w (40 + i) != 0)) ++
  ((upList 84 12).flatMap fun i => bad i (d.w i != 0))

/-- The launch that a descriptor describes (R43, R236). Race detection and replay never act on a protected world (R252). -/
def State.launchOf (s : State) (d : Desc) (q : Nat) : Launch :=
  let prot := tget .free s.tumbler.worlds (d.f 0 13 8) == .prot
  let c := (s.code (d.f 0 13 8) (d.f 2 14 0)).getD {}
  let dflt := d.f 6 21 21 == 1
  { uid := s.hub.nextUid, queue := q, launchid := d.getD 1 0, world := d.f 0 13 8, handle := d.f 2 14 0, gang := d.f 3 27 24,
    blocks := d.f 3 23 0, trapent := if d.w 4 = 0xFFFFFFFF then none else some (d.w 4),
    fairt := if d.f 5 16 0 = 0 then 4096 else d.f 5 16 0,
    frqs := if dflt then 6 else d.f 6 4 0, frqp := if dflt then 8 else d.f 6 12 5, frqa := if dflt then 10 else d.f 6 16 13,
    pol := if dflt then 1 else d.f 6 18 17, out := d.f 6 19 19 == 1, wen := d.f 6 20 20 == 1,
    hinge := d.w2 7, capture := d.w2 9, rstop := d.f 11 8 8 == 1, rlat := d.f 11 7 3, race := d.f 11 2 2 == 1 && !prot,
    replay := if prot then 0 else d.f 11 1 0, root := d.w2 12, rwt := d.w2 14, grant := d.w2 16,
    thresh := (upList 0 20).foldl (fun t k => tput 0 t k (d.getD (18 + k) 0)) [],
    localptr := if d.f 38 5 0 = 63 then none else some (d.f 38 5 0),
    deps := (upList 0 (d.f 39 3 0)).filterMap fun i => s.seen (d.getD (40 + i) 0),
    sinit := (upList 0 36).foldl (fun t k => tput 0 t k (d.getD (48 + k) 0)) [],
    code := c, kernel := (c.kernels[d.f 2 22 15]?).getD {}, status := .accepted,
    inputs := if !prot && d.f 11 1 0 != 0 then s.hub.inputRanges else [] }

/-- At its start a captured launch copies its window table and inputs; a replayed one takes its capture's lists, and the launch registers that the capture has copied (R267, R268; log 33). -/
def State.withCapture (s : State) (l : Launch) : Launch :=
  if l.replay = 1 then { l with rwtCopy := s.rwtBytes l.world l.rwt, inputCopy := s.inputsOf l }
  else if l.replay = 2 then
    match s.captureOf l.code l.kernel with
    | some c => { l with recorded := c.recorded, trapent := c.trapent, fairt := c.fairt, thresh := c.thresh, localptr := c.localptr, sinit := c.sinit }
    | none => l
  else l

/-- The hub reads and checks one descriptor (R42, R44): it accepts the launch, or refuses it with reason 5. -/
def execLaunchDescriptorCheck (s : State) : Out :=
  match s.hub.nextQueue with
  | none => .next s
  | some q =>
    let cq := tget {} s.hub.queues q
    let d := s.readDesc (cq.base.toNat + 384 * cq.head.toNat)
    let n := cq.log.getD 4
    let bads := s.descBad d
    let l := s.launchOf d q
    let qs := tput {} s.hub.queues q { cq with head := BitVec.ofNat 16 ((cq.head.toNat + 1) % 2 ^ n) }
    let s := { s with hub := { s.hub with lastQueue := q, nextUid := s.hub.nextUid + 1, queues := qs } }
    match bads with
    | [] => .next (s.setLaunch l)
    | b :: bs => .next ((s.setLaunch l).failLaunch l.uid (bs.foldl min b) .refused 0 0 0)

/-! ### Placement -/

/-- A block of a kernel needs the engine set free of others, and shares a core with no claiming block (R199). -/
def State.claimFits (s : State) (core : Nat) (k : Kernel) : Bool :=
  (s.blksOn core).all fun b => !b.claims && !k.claims

/-- The `.scratch` bytes are free on the core (R40, R262). -/
def State.scratchFits (s : State) (core scratch : Nat) (race : Bool) : Bool :=
  let bs := s.blksOn core
  let anyRace := race || bs.any fun b => ((s.getLaunch b.launchUid).getD {}).race
  decide (bs.foldl (fun n b => n + b.scratch) scratch ≤ if anyRace then Config.spadUsableRace else Config.spadBytes)

/-- A quarter as placement sees it: free registers (R16) and occupied slots. -/
abbrev QFree := List (Nat × List Nat)

/-- The four quarters of a core. -/
def State.quartersOf (s : State) (core : Nat) : QFree :=
  let ts := (tvals s.teamTbl).filter fun t => decide (t.kind = .team) && t.coreId == core
  (upList 0 4).map fun q =>
    let mine := ts.filter fun t => t.qtr == q
    (65536 - mine.foldl (fun n t => n + t.threads * t.regs) 0, mine.map (·.slot))

/-- The quarter with the most free registers that can take a team, the lowest number of several (R40). -/
def bestQuarter (qs : QFree) (need : Nat) : Option Nat :=
  (qs.zipIdx.filter fun e => decide (need ≤ e.1.1) && decide (e.1.2.length < 16)).foldl (fun r e =>
    match r with
    | none => some e.2
    | some b => if (qs.getD b (0, [])).1 < e.1.1 then some e.2 else some b) none

/-- Quarter and slot of each of `n` teams, or none where some team fits on no quarter (R40). -/
def fitTeams (need : Nat) : Nat → QFree → Option (List (Nat × Nat))
  | 0, _ => some []
  | n + 1, qs =>
    match bestQuarter qs need with
    | none => none
    | some q =>
      let e := qs.getD q (0, [])
      let slot := ((upList 0 16).find? fun k => k ∉ e.2).getD 0
      match fitTeams need n (qs.set q (e.1 - need, slot :: e.2)) with
      | none => none
      | some r => some ((q, slot) :: r)

/-- The places of a block's teams on a core, if the core can take the block (R40, R199). -/
def State.fitCore (s : State) (core : Nat) (l : Launch) : Option (List (Nat × Nat)) :=
  if s.claimFits core l.kernel && s.scratchFits core l.kernel.scratch l.race then
    fitTeams (l.kernel.team * l.kernel.regs) l.kernel.block (s.quartersOf core)
  else none

/-- The first `n` cores of a list that can take a block each. -/
def State.pickCores (s : State) (l : Launch) : Nat → List Nat → List (Nat × List (Nat × Nat))
  | _, [] => []
  | 0, _ => []
  | n + 1, c :: cs =>
    match s.fitCore c l with
    | some p => (c, p) :: s.pickCores l n cs
    | none => s.pickCores l (n + 1) cs

/-- The cores of the next gang: distinct cores of one cluster, lowest numbers first (R158, R200). -/
def State.findGang (s : State) (l : Launch) : Option (List (Nat × List (Nat × Nat))) :=
  ((upList 0 Config.clusters).map fun c => upList (8 * c) 8).findSome? fun cs =>
    let p := s.pickCores l l.gang cs
    if p.length = l.gang then some p else none

/-- A launch may place its next block as far as its queue and its dependences allow (R42, R187). -/
def State.mayPlace (s : State) (l : Launch) : Bool :=
  (decide (l.status = .accepted) || decide (l.status = .running)) && decide (l.placed < l.blocks)
    && (l.placed != 0 || ((tvals s.launchTbl).all fun m =>
          !(m.queue == l.queue && decide (m.uid < l.uid) && m.placed == 0 && decide (m.status = .accepted)))
        && l.deps.all fun u => ((s.getLaunch u).map fun m => decide (m.status = .ended)).getD false)

/-- The recorded placement of the blocks that come next (R268). -/
def State.recordedGang (s : State) (l : Launch) : List (Nat × List Nat) :=
  match s.captureOf l.code l.kernel with
  | none => []
  | some c => (upList l.placed l.gang).filterMap fun b => (c.placements.find? (·.1 == b)).map (·.2)

/-- A block of the launch fits on a core with its teams at the places given, by CSLOT. -/
def State.fitsAt (s : State) (l : Launch) (core : Nat) (places : List Nat) : Bool :=
  s.claimFits core l.kernel && s.scratchFits core l.kernel.scratch l.race && decide (places.length = l.kernel.block)
    && (s.quartersOf core).zipIdx.all fun q =>
      let mine := places.filter fun p => p / 16 == q.2
      decide (mine.length * (l.kernel.team * l.kernel.regs) ≤ q.1.1) && mine.all fun p => decide (p % 16 ∉ q.1.2)

/-- Where the next gang of a launch goes, if its cores can take it: a replayed launch's exactly where its capture's stood (R268), any other by R40 and R200. -/
def State.gangPlaces (s : State) (l : Launch) : Option (List (Nat × List (Nat × Nat))) :=
  if l.replay ≠ 2 then s.findGang l
  else
    let g := s.recordedGang l
    if g.length = l.gang ∧ g.all fun p => s.fitsAt l p.1 p.2 then some (g.map fun p => (p.1, p.2.map fun c => (c / 16, c % 16))) else none

/-- A replay that has other inputs than its capture, or no recorded placement for its next gang, is refused (R268). -/
def State.replayBad (s : State) (l : Launch) : Bool :=
  l.replay == 2 && ((l.placed == 0 && !s.inputsSame l) || (s.recordedGang l).length != l.gang)

/-- The next gang of a launch can be placed, or the launch be refused for its replay. -/
def State.placeable (s : State) (l : Launch) : Bool := s.mayPlace l && ((s.gangPlaces l).isSome || s.replayBad l)

/-- A team of a placed block (R44). -/
def startTeam (l : Launch) (b : Block) (i q slot : Nat) : Team :=
  let s0 := l.sinit
  let ptr := mkPtr 1 (ownerField b.origin) 0
  let s1 := match l.localptr with
    | some r => tput 0 (tput 0 s0 r (loWord ptr)) (r + 1) (hiWord ptr)
    | none => s0
  { key := teamKey b.coreId q slot, coreId := b.coreId, qtr := q, slot := slot, index := i, blkKey := b.key, launchUid := l.uid,
    threads := l.kernel.team, regs := l.kernel.regs, pc := l.code.textOff + l.kernel.entry, s := s1, fresh := true }

/-- Place one block of a launch on a core (R40, R144, R200); the teams' REQ counts in the cluster from then on (R217). -/
def State.placeBlock (s : State) (l : Launch) (bix core : Nat) (places : List (Nat × Nat)) : State :=
  let b : Block :=
    { key := blockKey l.uid bix, launchUid := l.uid, bix := bix, coreId := core, origin := core, claims := l.kernel.claims,
      scratch := l.kernel.scratch, teamCount := l.kernel.block, teamsLeft := l.kernel.block,
      mxEntry := l.kernel.mxStream.map (l.code.textOff + ·), cpEntry := l.kernel.cpStream.map (l.code.textOff + ·) }
  let s := s.setBlk b
  let s := (places.zipIdx.foldl (fun s p => s.setTeam (startTeam l b p.2 p.1.1 p.1.2)) s).relevel (clusterOf core)
  s.modLaunch l.uid fun l => { l with placements := l.placements ++ [(bix, core, places.map fun p => 16 * p.1 + p.2)] }

/-- A consumer's core starts refreshed, with every producer's stores visible (R187). -/
def State.afterDeps (s : State) (l : Launch) (core : Nat) : State :=
  if l.deps.isEmpty then s
  else
    let cores := (l.deps.flatMap fun u => ((s.getLaunch u).getD {}).placements.map (·.2.1)).eraseDups
    (cores.foldl (fun s c => s.publish c .home) s).refresh core .home

/-- The launch unit places the next gang of a launch (R40, R42, R158, R187, R200): an earlier accepted launch that can place goes first. A replayed launch waits while its recorded places are taken (R268). -/
def execBlockPlacement (u : Nat) (s : State) : Out :=
  match s.getLaunch u with
  | none => .next s
  | some l =>
    if !s.mayPlace l then .next (State.failDependents s.launchTbl.length s)
    else if (tvals s.launchTbl).any fun m => decide (m.uid < u) && s.placeable m then .next s
    else if s.replayBad l then .next (s.failLaunch u 11 .refused 0 0 0)
    else match s.gangPlaces l with
      | none => .next s
      | some picks =>
        let l := if l.placed = 0 then s.withCapture l else l
        let s := s.setLaunch { l with placed := l.placed + l.gang, status := .running }
        let s := picks.zipIdx.foldl (fun s p => (s.afterDeps l p.1.1).placeBlock l (l.placed + p.2) p.1.1 p.1.2) s
        .next s.wakeAll

/-! ### Ends -/

/-- A team ends (R321): its accesses complete, a store on its way to another package only while a link moves data (R184, R285), a waiting engine fault fails the launch, and its slot is released; the last team of a block also answers for the stream faults that nobody joined (R131). -/
def execTeamEnd (t : Nat) (s : State) : Out :=
  let s := s.focus t
  if s.team.key ≠ t ∨ s.team.threads = 0 ∨ s.team.kind ≠ .team ∨ !s.team.ended ∨ s.team.stopped ∨ s.team.inflight.any s.farHeld then .next s
  else
    let s := s.drain
    let left := s.blk.teamsLeft - 1
    let faults := s.team.engFaults ++ if left = 0 then s.blk.streamFaults else []
    match faults with
    | f :: _ => .next (s.failHere (classCode f.cause.cls) .exitedRecipient f.cause.addr)
    | [] =>
      let s := { s with blk := { s.blk with teamsLeft := left } }
      .next (s.vacate s.team).wakeAll

/-- Some copy of the gang still names the block (R138, R158). -/
def State.named (s : State) (b : Block) : Bool :=
  let g := ((s.getLaunch b.launchUid).getD {}).gang
  (tvals s.blkTbl).any fun i => i.cpFifo.any fun x => copyNames i b g x.record

/-- Nothing holds the block on its core any more (R138, R158). -/
def State.blockDone (s : State) (b : Block) : Bool :=
  b.teamsLeft == 0 && !b.mxRun && !b.cpRun && b.mxFifo.isEmpty && b.cpFifo.isEmpty && !s.named b

/-- A block leaves its core (R138); its race records go to the debug buffer first (R262). -/
def execBlockEnd (k : Nat) (s : State) : Out :=
  match s.getBlk k with
  | none => .next s
  | some b =>
    if !s.blockDone b then .next s
    else .next (((s.raceAll b.coreId).removeBlock k).modLaunch b.launchUid fun l => { l with endedBlocks := l.endedBlocks + 1 })

/-- Every block of the launch has been placed and has ended. -/
def Launch.finished (l : Launch) : Bool :=
  decide (l.status = .running) && l.placed == l.blocks && l.endedBlocks == l.blocks

/-- The stores of the cores that a launch ran on are written down to their homes, as R167 lets them be at any time: with its end the launch's results stand in memory (R187, R321; log 29). -/
def State.writtenDown (s : State) (l : Launch) : State :=
  ((l.placements.map (·.2.1)).eraseDups).foldl (fun s c => s.publish c .home) s

/-- A launch ends (R42); the last run of a captured launch's atomic requests is recorded first (R267). -/
def execLaunchEnd (u : Nat) (s : State) : Out :=
  match s.getLaunch u with
  | none => .next s
  | some l =>
    if l.finished then
      let t := s.endRun u
      let l := (t.getLaunch u).getD l
      .next ((t.writtenDown l).launchDone l .ended)
    else .next s

/-- A launch fails (R229). -/
def execLaunchFailure (u : Nat) (cls : BitVec 8) (r : FailReason) (core ord : Nat) (addr : DWord) (s : State) : Out :=
  .next (s.failLaunch u cls.toNat r core ord addr)

/-- An uncorrectable error in a register file, decision queue, undo log, latch row or macro (R228): the launch fails with reason 2. The record's class field is 0x0C, as for every other lost data: no rule gives one to these places (log 17). -/
def execUncorrectableStateError (t : Nat) (_ : StatePlace) (s : State) : Out :=
  match s.getTeam t with
  | none => .next s
  | some tm =>
    let l := (s.getLaunch tm.launchUid).getD {}
    .next (s.failLaunch tm.launchUid 0x0C .uncorrectable tm.coreId (ordOf l.code tm.pc) 0)

end Sys2Proof.Machine
end

