-- ==== Sys2Proof/Machine/Sched.lean ====
section
/-! DEFINITION. Completions of accesses (R25, R28, R165, R173, R323, R373), scheduling (R34 to R36, R202, R230 to R232), trap entry (R221) and stops (R224, R258). -/

namespace Sys2Proof.Machine

/-! ### Completions -/

/-- Access `k` of context `t` completes, or its part on one path, if it is of the kind and still on its way (R28): a store into another package only while a link moves data (R184, R285). -/
def State.complete (s : State) (t k : Nat) (q : Option Path) (kind : AccKind) : State :=
  match s.getTeam t with
  | none => s
  | some tm =>
    match tm.inflight[k]? with
    | none => s
    | some a =>
      let left := match q with
        | none => !a.done
        | some p => decide (p ∈ a.paths) && !a.doneOn p
      if decide (a.kind = kind) && left && !(q == some .x && s.farHeld a) then ((s.focus t).completeAt k q).wakeAll else s

/-- The data of a load or `lr` has returned on one of its paths (R25, R28). -/
def execLoadDataReturn (t : Nat) (k : AccPart) (s : State) : Out := .next (s.complete t k.idx (some k.path) .load)
/-- A store's bytes on one of its paths are accepted at the first place that serves others (R28): they reach it. -/
def execStoreCompletion (t : Nat) (k : AccPart) (s : State) : Out := .next (s.complete t k.idx (some k.path) .store)
/-- An atomic's old value, or a `sc`'s status, has returned on one of its paths (R28, R173). -/
def execAtomicCompletion (t : Nat) (k : AccPart) (s : State) : Out := .next (s.complete t k.idx (some k.path) .atomic)
/-- A `tld`'s data has reached the scratchpad (R165, R190). -/
def execTldCompletion (t k : Nat) (s : State) : Out := .next (s.complete t k none .tld)
/-- Every line of a `pf` has arrived (R373). -/
def execPfCompletion (t k : Nat) (s : State) : Out := .next (s.complete t k none .pf)
/-- A transcendental's result is available (R323). -/
def execTranscendentalResult (t k : Nat) (s : State) : Out := .next (s.complete t k none .trans)

/-! ### Scheduling -/

/-- The fairness timer has reached FAIRT (R34 to R36). -/
def execFairnessSwitch (t : Nat) (s : State) : Out :=
  match s.getTeam t with
  | none => .next s
  | some _ => .next (s.focus t).fairExpire

/-- A deferred switch falls due (R36). -/
def execDeferredFairnessSwitch (t : Nat) (s : State) : Out :=
  match s.getTeam t with
  | none => .next s
  | some _ => .next (s.focus t).fairDeferred

/-- A team passed over for 256 cycles is chosen next (R202). -/
def execPassedLift (t : Nat) (s : State) : Out :=
  match s.getTeam t with
  | none => .next s
  | some tm => if Config.liftAfter ≤ tm.passed && s.passReady tm then .next (s.focus t) else .next s

/-- The level of R202: 8 when lifted, below every level after a `yield` (R204), else TPRIO; plus 1. -/
def Team.level (tm : Team) : Nat := if Config.liftAfter ≤ tm.passed then 9 else if tm.yielded then 0 else tm.tprio + 1

/-- The next resident slot after the one sampled last (R230). -/
def nextSlot (slots : List Nat) (last : Nat) : Option Nat :=
  ((upList 1 16).map fun k => (last + k) % 16).find? fun q => q ∈ slots

/-- The code of a parked team (R232). A word that waits for a queue's room or a recorded party is a scalar effect waiting, one that waits for a link waits for its long-latency result (log 34). -/
def Park.reason : Park → Nat
  | .full _ => 0x08
  | .path .g _ => 0x0F
  | .path .s _ => 0x10
  | .path .c _ => 0x11
  | .path .m _ => 0x12
  | .path .x _ => 0x13
  | .path .a _ => 0x14
  | .latch _ _ => 0x15
  | .monitor => 0x16
  | .join _ => 0x17
  | .fork _ => 0x18
  | .qRecv _ _ => 0x19
  | .fifo .mx => 0x09
  | .fifo .cp => 0x0A
  | .qSend _ _ _ | .streamDone | .replay _ _ => 0x0D
  | .link => 0x03
  | .capture _ => 0x1C
  | .trap _ => 0x1A

/-- A team waits at this condition with its word parked (R206, R378); at the others the word waits at issue, or in the front-end. -/
def Park.stops : Park → Bool
  | .path _ _ | .latch _ _ | .monitor | .join _ | .fork _ | .qRecv _ _ | .qSend _ _ _ => true
  | .full _ | .fifo _ | .streamDone | .replay _ _ | .link | .capture _ | .trap _ => false

/-- The running context's next word satisfies `f`. -/
def State.wordIs (s : State) (f : Instr → Bool) : Bool :=
  match s.nextWord with
  | .ok w => (decode w).any f
  | .error _ => false

/-- The register operands of a word with their sizes in registers, or none for a word of another kind than these: register-to-register words, transcendentals and memory words. -/
def Instr.operands : Instr → Option (List (Reg × Nat))
  | .frcp w d a _ | .frsq w d a _ | .fsqrt w d a _ | .fexp2 w d a _ | .flog2 w d a _ | .fsin w d a _ | .fcos w d a _ =>
    some [(d, wordsW (decide (w = TFmt.f64))), (a, wordsW (decide (w = TFmt.f64)))]
  | .ldB32 d a _ _ | .ldB8 d a _ _ | .ldB16 d a _ _ | .ldI8 d a _ _ | .ldI16 d a _ _ | .lrB32 d a _ _ => some [(d, 1), (a, 2)]
  | .ldB64 d a _ _ | .lrB64 d a _ _ => some [(d, 2), (a, 2)]
  | .ldB128 d a _ _ => some [(d, 4), (a, 2)]
  | .stB32 d a _ _ | .stB8 d a _ _ | .stB16 d a _ _ | .scB32 d a _ _ => some [(d, 1), (a, 2)]
  | .stB64 d a _ _ | .scB64 d a _ _ => some [(d, 2), (a, 2)]
  | .stB128 d a _ _ => some [(d, 4), (a, 2)]
  | .atom p _ _ d a _ => some [(d, if p = .cas then 2 else 1), (a, 2)]
  | .monArm _ d a _ | .tld d a _ _ => some [(d, 1), (a, 2)]
  | .pf a _ _ => some [(a, 2)]
  | i => (regionAlu i).map (·.regs)

/-- A register operand of `n` registers shares one with a result. -/
def Team.meets (tm : Team) (e : Reg × Nat) (r : Dest × Nat) : Bool :=
  match tm.dest e.1, r.1 with
  | .vec a, .vec b | .scal a, .scal b => decide (a < b + r.2) && decide (b < a + e.2)
  | _, _ => false

/-- The running team's next word waits for results of long latency (R25): it reads or writes a result that has just become due, or it waits for every outstanding one. Of a word whose operands `Instr.operands` does not list, the sample says which. -/
def State.interlocks (s : State) : Bool :=
  (!s.team.awaited.isEmpty && s.wordIs fun i => match Instr.operands i with
    | some es => es.any fun e => s.team.awaited.any (s.team.meets e)
    | none => true)
  || (s.team.pend.any (fun p => p.dst != .none && !p.vals.isEmpty) && s.wordIs Instr.flushes)

/-- The word that the front-end fetches next for the running team satisfies `f`. -/
def State.frontWordIs (s : State) (f : Instr → Bool) : Bool :=
  match s.fetchWord s.team.fetchPc with
  | .ok w => (decode w).any f
  | .error _ => false

/-- The front-end has stalled the running team at a word that satisfies `f`, queued or issuing, or is about to. -/
def State.stallsAt (s : State) (f : Instr → Bool) : Bool :=
  (match s.team.ahead.getLast? with
    | some e => (decode e.word).any f
    | none => !s.team.owed.isEmpty && f s.team.issWord) || s.frontWordIs f

/-- The line of text that holds the running team's next word is in the core's instruction cache (R2, R232). -/
def State.textHeld (s : State) : Bool :=
  let off := (s.launch.code.base + s.team.pc) % 2 ^ 48
  match s.leaf off with
  | .ok e => s.core.hasText (e.phys off / 64)
  | .error _ => false

/-- A cause inside a cycle, which the sample itself brings (log 34), may hold for the running team, which is not parked: fetch, a miss of the instruction cache, interlock, another team's held pass, a front-end stall at a word that makes one, translation, trap entry (R232). The hold of a capture is a park of its own. -/
def State.mayHold (s : State) (held : Bool) (why : Nat) : Bool :=
  let between := !s.team.owed.isEmpty
  s.team.parked.isNone && !s.team.fresh && !s.team.stopped &&
    (match why with
      | 0x01 => s.team.ahead.isEmpty && !between
      | 0x0E => !between
      | 0x02 => s.team.ahead.isEmpty && !between && !s.textHeld
      | 0x03 => !between && s.interlocks
      | 0x04 => held
      | 0x0B => s.stallsAt Instr.rendezvous
      | 0x0C => s.stallsAt Instr.drains
      | 0x0D => s.frontWordIs Instr.frontEnd
      | 0x1A => !between && s.team.trapCtx.isSome
      | _ => false)

/-- The causes that leave a team without a ready pass (R201). -/
def starves (why : Nat) : Bool := why ∈ [0x01, 0x02, 0x03, 0x0C, 0x0E, 0x1A]

/-! ### Safe points and stops in progress -/

/-- The front-end has reached a word with its stop bit set: nothing is queued before it, and the word before it has issued its passes (R58, R224). -/
def State.atSafe (s : State) : Bool :=
  s.team.ahead.isEmpty && s.team.owed.isEmpty && (match s.nextWord with
    | .ok w => w.msb
    | .error _ => false)

/-- Comparisons of a team that are pending when it stops are completed first: the entry's text decides nothing more for it (R246). -/
def State.hasPending (s : State) : Bool := s.core.hinges.any fun h => h.2.pending.any fun c => c.team == s.team.key

/-- What a stop of the running team waits for: the comparisons of its executions (R246), and the completion of its accesses, of which a store on its way to another package completes only while a link moves data (R221, R224, R285). -/
def State.stopHeld (s : State) : Bool := s.hasPending || s.team.inflight.any s.farHeld

/-- A stop of the running team is in progress at its safe point (R224). -/
def State.stopWaits (s : State) : Bool := !s.team.stops.isEmpty && s.stopHeld && s.atSafe && s.team.cand.isNone

/-- REASON of a sample of the running team (R232): the first cause of the table that holds. `iss` says that its quarter's issue is the team's, held or taken last, which is code 0 unless a cause holds that keeps it from issuing (log 34); `held` that the issue is another team's; `why` is the cause that the sample brings. A yielding team shows 7 (R402). -/
def State.reason (s : State) (iss held : Bool) (why : Nat) (rivals : List Team) : Nat :=
  let tm := s.team
  let when := fun (b : Bool) (k : Nat) => if b then [k] else []
  let brought := s.mayHold held why
  let free := !tm.fresh && !s.stopWaits && !(brought && starves why)
  let ready := tm.ready && free && !s.auditWaits && !s.core.holds tm.key && s.headWait.isNone
  let pass := s.passReady tm && free
  if tm.ended then 0x01
  else if tm.yielded then 0x07
  else if iss && ready && !brought then 0x00
  else
    let causes := when brought why ++ when (pass && rivals.any fun r => decide (tm.level < r.level)) 0x05
      ++ when (pass && (rivals.any fun r => decide (r.level = tm.level)) && rivals.all fun r => decide (r.level ≤ tm.level)) 0x06
      ++ (if tm.ready then s.headWait.toList else []) ++ (tm.parked.map Park.reason).toList ++ when (tm.stopped || s.stopWaits) 0x1B
      ++ when s.auditWaits 0x1D ++ when (s.core.holds tm.key) 0x1E ++ when tm.fresh 0x1F
    causes.foldl min (causes.headD (if pass && held then 0x04 else 0x01))

/-- A sample's compute class (R232). -/
def computeReason (r : Nat) : Bool := r == 0 || (3 ≤ r && r ≤ 6)

/-- What tells code objects apart in a core's list of compute samples (R232): the handle and its space; 0 marks a sample of no compute class. -/
def CodeObj.mark (c : CodeObj) : Nat := 1 + c.handle + 32768 * (c.owner.map (· + 1)).getD 0

/-- One scheduler sample of a quarter (R230, R231): the next resident slot's team, written to the quarter's sample buffer; Frequel counts it. `p.why` is a cause inside the cycle. A team whose word still owes passes is sampled at that word, and a parked team at the word at which it is parked, which no rule settles (R230; log 34). -/
def execSchedulerSample (core : Nat) (p : SamplePoint) (s : State) : Out :=
  let qtr := p.qtr
  let q := tget {} (s.getCore core).quarters qtr
  let ts := (tvals s.teamTbl).filter fun t => decide (t.kind = .team) && t.coreId == core && t.qtr == qtr
  match nextSlot (ts.map (·.slot)) q.samplePtr with
  | none => .next s
  | some slot =>
    if !q.sampctl.msb then .next s
    else
      let held := ts.any fun t => t.slot == q.rp && t.slot != slot
      let s := s.focus (teamKey core qtr slot)
      let tm := s.team
      let c := s.launch.code
      let r := s.reason (decide (q.rp = slot)) held p.why (ts.filter fun t => t.slot != slot && s.passReady t)
      let pc := tm.sampledPc
      let rec3 : List Word :=
        [header 2 1 ((if r = 0 then 2 ^ 21 else 0) + (if tm.cand.isSome then 2 ^ 20 else 0) + r * 2 ^ 15 + slot * 2 ^ 11 + qtr * 2 ^ 9),
         codeWord c pc, ordWord c pc]
      let k := 4 * core + qtr
      let b := tget {} s.hub.sampleBufs k
      let (s, b) := s.putRec s.launch b b.mode rec3
      let s := { s with hub := { s.hub with sampleBufs := tput {} s.hub.sampleBufs k b } }
      let mark := (if computeReason r then c.mark else 0, textIdx c pc)
      let s := { s with core := { s.core with samples := (s.core.samples ++ [mark]).drop (s.core.samples.length + 1 - 65536) } }
      .next (s.modQuarter core qtr fun x => { x with samplePtr := slot })

/-! ### Traps -/

/-- Trap entry of the running team (R221): an engine fault or a Frequel escape that awaited delivery is thereby delivered. -/
def execTrapEntry (c : TrapCause) (s : State) : Out :=
  if s.team.threads = 0 ∨ s.team.ended then .next s
  else
    let tm := s.team
    let tm := { tm with engFaults := tm.engFaults.eraseP fun f => decide (f.cause = c),
                        escapes := if c.cls = .escape then tm.escapes.erase c.detail.toNat else tm.escapes }
    .next ({ s with team := tm }.takeTrap c)

/-! ### Stops -/

/-- A request to stop a team (R224). A debugger's facilities never reach a protected world (R252), and pre-emption of a captured or replayed launch waits until it ends (R267). -/
def execStopRequest (t : Nat) (c : StopCause) (s : State) : Out :=
  match s.getTeam t with
  | none => .next s
  | some tm =>
    let l := (s.getLaunch tm.launchUid).getD {}
    if (c ≠ .preempt ∧ s.protectedLaunch l) ∨ (c = .preempt ∧ l.replay ≠ 0) then .next s
    else .next (s.setTeam (tm.requestStop c))

/-- The running team may meet a stop request where it is (R206, R224): at a safe point, or parked. -/
def State.stopsHere (s : State) : Bool :=
  match s.team.parked with
  | some c => c.stops
  | none => s.atSafe

/-- A team with a pending request stops at a safe point, or where it is parked (R206, R224), but not where its word waits at issue; the stop waits for the comparisons of its executions (R246) and for its accesses. Its results are written, its accesses complete, a stop record is written for each cause (R258), and its reservations are lost (R197). A stop for another cause than pre-emption holds until the debugger resumes the team (R257). -/
def execTeamStop (t : Nat) (s : State) : Out :=
  match s.getTeam t with
  | none => .next s
  | some _ =>
    let s := s.focus t
    if s.team.stops.isEmpty ∨ s.team.stopped ∨ s.team.ended ∨ s.team.cand.isSome ∨ s.stopHeld
        ∨ ¬ s.stopsHere then .next s
    else
      let s := ({ s with team := s.team.flush }).drain
      let s := s.stopRecords s.team
      let tm := s.team
      .next { s with team := { tm with
        stopped := true, promised := none, held := tm.stops.any (fun c => decide (c ≠ .preempt)), stops := tm.stops.filter fun c => decide (c = .preempt), resv := [], scalarResv := none } }

end Sys2Proof.Machine
end

