-- ==== Sys2Proof/Machine/MatrixEngine.lean ====
section
/-! DEFINITION. The matrix engine at work (R94 to R99, R116 to R131, R136): the five commands at the head of the FIFO, their completion, and the end of a stream (R133). -/

namespace Sys2Proof.Machine

/-! ### Events of an engine -/

/-- Count one event of a launch that need not be the running one (R101). -/
def State.countFor (s : State) (uid : Nat) (es : List Nat) : State :=
  es.foldl (fun s k =>
    match s.getLaunch uid with
    | none => s
    | some old =>
      let l := old.count k
      let s := s.setLaunch l
      if tget 0 l.thresh k ≠ 0 ∧ tget 0 l.fpcnt k = tget 0 l.thresh k ∧ tget 0 old.fpcnt k ≠ tget 0 l.fpcnt k then
        { s with hub := { s.hub with msix := s.hub.msix ++ [1], fpNotices := s.hub.fpNotices ++ [(l.uid, k)] } }
      else s) s

/-! ### Operands of a command -/

/-- Operand word `k` of a command. -/
def MxEntry.o (x : MxEntry) (k : Nat) : Nat := (x.ops.getD k 0).toNat
/-- Bits of operand word `k` (R124). -/
def MxEntry.f (x : MxEntry) (k hi lo : Nat) : Nat := bitsOf (x.o k) hi lo

/-- The bits that R124 names in each operand word; the others are reserved. -/
def mxNamed : MxCmd → List Nat
  | .prec => [0x1F7F]
  | .ldb => [0x7FFFFFF, 0x7FFFF, 0x7FFFF, 3, 0xFFFFFFFF, 0xFFFFFFFF]
  | .mm => [0x3FFF7, 0x7FFFF, 0x7FFFF, 0x3FFFF, 0x3FFFF, 3, 0xFFFFFFFF, 0xFFFFFFFF]
  | .st => [0x1FFFFFF, 0x3FFFF, 0x3FFFF, 0x7FFFF, 0x7FFFF]
  | .zero => [0x3FFFF, 0x7FFFF]

/-- The first operand word with a reserved bit set. -/
def MxEntry.reserved (x : MxEntry) : Option Nat :=
  (mxNamed x.cmd).zipIdx.findSome? fun m => if x.o m.2 &&& m.1 = x.o m.2 then none else some m.2

/-- Element size of an accumulator format CF (R124). -/
def accSize (cf : Nat) : Nat := if cf % 2 = 0 then 4 else 8
/-- Bytes of a run of `n` elements of a format (R124). -/
def runBytes (fmt n : Nat) : Nat :=
  match elemDb fmt with
  | some m => n / 16 * dbBytes m
  | none => n * elemBits fmt / 8

/-- The fields of a PRECB (R120). -/
structure Tile where
  korg : Nat
  seed : Nat
  v : Bool
  xf : Nat
  sgn : Bool
  fmt : Nat
  wid : Nat
  pbase : Nat
  kg : Nat
  ng : Nat
  deriving DecidableEq, Repr

/-- Read a PRECB (R120). -/
def tileOf (q : QWord) : Tile :=
  let n := q.toNat
  { korg := bitsOf n 127 96, seed := bitsOf n 95 64, v := bitsOf n 31 31 == 1, xf := bitsOf n 30 29, sgn := bitsOf n 28 28 == 1,
    fmt := bitsOf n 27 24, wid := bitsOf n 22 16, pbase := bitsOf n 15 10, kg := 2 ^ bitsOf n 9 7, ng := 2 ^ bitsOf n 6 4 }

/-- The PRECB that an `mx.ldb` leaves (R120, R126). -/
def precbOf (x : MxEntry) : QWord :=
  BitVec.ofNat 128 (x.o 5 * 2 ^ 96 + x.o 4 * 2 ^ 64 + 2 ^ 31 + x.f 3 1 0 * 2 ^ 29 + x.f 0 4 4 * 2 ^ 28 + x.f 0 3 0 * 2 ^ 24
    + x.f 0 11 5 * 2 ^ 16 + x.f 0 17 12 * 2 ^ 10 + x.f 0 23 21 * 2 ^ 7 + x.f 0 26 24 * 2 ^ 4)

/-! ### Checks at the head of the FIFO (R130) -/

/-- A format that MXP or a tile may name, with its signedness (R80, R121). -/
def mxFmtOk (fmt : Nat) (sgn : Bool) : Bool := 4 ≤ fmt && fmt ≤ 14 && (sgn || elemIsInt fmt)

/-- Operand values out of range (R130, second row). -/
def MxEntry.illegal (x : MxEntry) : Bool :=
  match x.cmd with
  | .prec => !mxpOk (x.o 0)
  | .ldb => !mxFmtOk (x.f 0 3 0) (x.f 0 4 4 == 1) || x.f 0 11 5 == 0 || 64 < x.f 0 11 5 || 64 < x.f 0 17 12 + x.f 0 11 5
      || 6 < x.f 0 23 21 + x.f 0 26 24
  | .mm => x.f 0 17 6 == 0
  | .st => x.f 0 12 6 == 0 || 64 < x.f 0 12 6 || x.f 0 24 13 == 0
  | .zero => x.o 1 < 256 || Config.accBytes < x.o 1 || x.o 1 % 256 != 0

/-- The pairings of R121 and R128 that a command breaks (R130, third row). -/
def Block.mispaired (b : Block) (x : MxEntry) : Bool :=
  match x.cmd with
  | .mm =>
    let t := tileOf (tget 0 b.precb (x.f 0 2 0))
    let a := elemIsInt (bitsOf b.mxp.toNat 11 8)
    let ci := 2 ≤ x.f 0 5 4
    !t.v || a != elemIsInt t.fmt || a != ci
  | .st => if x.f 0 1 0 < 2 then !(4 ≤ x.f 0 5 2 && x.f 0 5 2 ≤ 7) else !(x.f 0 5 2 == 14 || x.f 0 5 2 == 3)
  | _ => false

/-- The rotation check (R93, R130). -/
def Block.misrotated (b : Block) (x : MxEntry) : Bool :=
  match x.cmd with
  | .mm =>
    let t := tileOf (tget 0 b.precb (x.f 0 2 0))
    (x.f 5 1 0 != 0 || t.xf != 0) && (x.f 5 1 0 != t.xf || x.o 6 != t.seed || x.o 7 != t.korg)
  | _ => false

/-- The first operand that breaks an alignment rule (R130): its value is the ADDR of the fault, also where it is a pitch (R131 names the offending offset, or 0; log 31). -/
def MxEntry.unaligned (x : MxEntry) : Option Nat :=
  let four := fun (ks : List Nat) => (ks.map x.o).find? fun v => v % 4 != 0
  let acc := fun (k cf : Nat) => if x.o k % accSize cf = 0 then none else some (x.o k)
  match x.cmd with
  | .prec => none
  | .ldb => four [1, 2]
  | .mm => (four [1, 2, 3, 4]).or (acc 3 (x.f 0 5 4))
  | .st => (four [1, 2, 3, 4]).or (acc 1 (x.f 0 1 0))
  | .zero => if x.o 0 % 256 = 0 then none else some (x.o 0)

/-- Bytes of a destination element of `mx.st` (R128). -/
def stSize (fmt : Nat) : Nat := elemBits fmt / 8

/-- The extents a command touches: first offset, end, limit (R130). -/
def Block.extents (b : Block) (x : MxEntry) : List (Nat × Nat × Nat) :=
  match x.cmd with
  | .prec => []
  | .ldb =>
    let ng := 2 ^ x.f 0 26 24
    let kg := 2 ^ x.f 0 23 21
    [(x.o 1, x.o 1 + (32 * ng - 1) * x.o 2 + runBytes (x.f 0 3 0) (64 * kg), b.scratch)]
  | .mm =>
    let t := tileOf (tget 0 b.precb (x.f 0 2 0))
    let m := x.f 0 17 6
    [(x.o 1, x.o 1 + (m - 1) * x.o 2 + runBytes (bitsOf b.mxp.toNat 11 8) (64 * t.kg), b.scratch),
     (x.o 3, x.o 3 + (m - 1) * x.o 4 + 32 * t.ng * accSize (x.f 0 5 4), Config.accBytes)]
  | .st =>
    let m := x.f 0 24 13
    let n := 32 * x.f 0 12 6
    [(x.o 1, x.o 1 + (m - 1) * x.o 2 + n * accSize (x.f 0 1 0), Config.accBytes),
     (x.o 3, x.o 3 + (m - 1) * x.o 4 + n * stSize (x.f 0 5 2), b.scratch)]
  | .zero => [(x.o 0, x.o 0 + x.o 1, Config.accBytes)]

/-- What a command's check finds at the head of the FIFO: the first fault of R130's table. -/
def Block.mxCheck (b : Block) (x : MxEntry) : Option TrapCause :=
  match x.reserved with
  | some k => some { cls := .layout, reg := BitVec.ofNat 8 (x.firstReg + k) }
  | none =>
    if x.illegal || b.mispaired x then some { cls := .illegal }
    else if b.misrotated x then some { cls := .rotation }
    else match x.unaligned with
      | some o => some { cls := .alignment, addr := BitVec.ofNat 64 o }
      | none => match (b.extents x).find? fun e => decide (e.2.2 < e.2.1) with
        | some e => some { cls := .translation, addr := BitVec.ofNat 64 (max e.1 e.2.2) }
        | none => none

/-- Lost data in a scratchpad range that a command reads (R228). -/
def Block.spadLost (b : Block) (lo n : Nat) : Option TrapCause :=
  if b.spadPoison.isEmpty then none
  else match (upList lo n).find? fun o => tget 0 b.spadPoison o != 0 with
    | some o => some { cls := .memError, addr := BitVec.ofNat 64 o, detail := BitVec.ofNat 16 (tget 0 b.spadPoison o - 1) }
    | none => none

/-- Lost data in an accumulator range that a command reads (R228). -/
def Block.accLost (b : Block) (lo n : Nat) : Option TrapCause :=
  (b.spadLost (accKey lo) n).map fun c => { c with addr := c.addr - BitVec.ofNat 64 (accKey 0) }

/-! ### Operands at a width (R94, R95) -/

/-- Element `k` of a run held as one number, its value (R89, R90). -/
def elemVal (fmt run k : Nat) : FVal :=
  match elemDb fmt, elemF fmt with
  | some m, _ => dbDecode m (run / 2 ^ (8 * dbBytes m * (k / 16)) % 2 ^ (8 * dbBytes m)) (k % 16)
  | none, some f => f.dec (run / 2 ^ (elemBits fmt * k) % 2 ^ elemBits fmt)
  | none, none => .fin false 0 0

/-- Element `k` of an integer run (R94). -/
def elemInt (fmt : Nat) (sgn : Bool) (run k : Nat) : Int :=
  let w := elemBits fmt
  let x := run / 2 ^ (w * k) % 2 ^ w
  if sgn && 2 ^ (w - 1) ≤ x then (x : Int) - 2 ^ w else x

/-- An integer clamped to a width (R94). -/
def clampTo (w : Nat) (sgn : Bool) (x : Int) : Int :=
  if sgn then max (-(2 ^ (w - 1))) (min (2 ^ (w - 1) - 1) x) else max 0 (min (2 ^ w - 1) x)

/-- Element `k` of a floating or DB run carries a minus sign (R89, R90, R117): the canonical NaN and the +0 of a DB block carry none. -/
def elemSign (fmt run k : Nat) : Bool :=
  match elemDb fmt, elemF fmt with
  | none, some _ => run / 2 ^ (elemBits fmt * (k + 1) - 1) % 2 == 1
  | _, _ => (elemVal fmt run k).sgn

/-- Sixty-four elements of a k-group at width `w`: the NaN bit, the group exponent, the signed magnitudes, the elements' own signs, and whether one was clamped (R94, R95, R117). -/
structure Group where
  nan : Bool := false
  exp : Int := 0
  qs : List Int := []
  signs : List Bool := []
  clamped : Bool := false
  deriving DecidableEq, Repr

/-- Align a floating or DB group (R95). A group with a NaN or an infinity has planes and exponent 0, of which R95 does not speak (log 31). -/
def alignF (w : Nat) (vs : List FVal) : Group :=
  if vs.any FVal.isBad then { nan := true, qs := vs.map fun _ => 0 }
  else match emaxOf vs with
    | none => { qs := vs.map fun _ => 0 }
    | some e => { exp := e, qs := vs.map fun v =>
        let q : Int := min (magAt v (e + 1 - w)) (2 ^ w - 1)
        if v.sgn then -q else q }

/-- Read k-group `g` of a run at width `w` (R94, R95). -/
def groupOf (fmt : Nat) (sgn : Bool) (w run g : Nat) : Group :=
  if elemIsInt fmt then
    let xs := (upList (64 * g) 64).map (elemInt fmt sgn run)
    { qs := xs.map (clampTo w sgn), clamped := xs.any fun x => clampTo w sgn x != x }
  else { alignF w ((upList (64 * g) 64).map (elemVal fmt run)) with signs := (upList (64 * g) 64).map (elemSign fmt run) }

/-! ### The weight store (R116, R117) -/

/-- Bit planes of one macro's 32 columns, each a list of 64 numbers below 2^64: the 256 bytes of plane `j`. -/
def planeBytes (cols : List (List Nat)) (j : Nat) : List Byte :=
  (upList 0 64).flatMap fun k => (upList 0 4).map fun c =>
    BitVec.ofNat 8 ((upList 0 8).foldl (fun (b : Nat) i => b + (cols.getD (8 * c + i) []).getD k 0 / 2 ^ j % 2 * 2 ^ i) 0)

/-- What the planes of a column hold of a group: magnitudes, or two's complement for an integer tile (R117). -/
def planeVals (isInt : Bool) (wid : Nat) (g : Group) : List Nat :=
  g.qs.map fun q => if isInt then (q % 2 ^ wid).toNat else q.natAbs

/-- Store one macro of a tile (R117, R126). -/
def Block.storeMacro (b : Block) (tile : Nat) (isInt : Bool) (wid pbase mac : Nat) (gs : List Group) : Block :=
  let cols := gs.map (planeVals isInt wid)
  let signs := gs.map fun g => g.signs.map Bool.toNat
  { b with
    planes := (upList 0 wid).foldl (fun m j => Mem.writeBytes m ((mac * 64 + pbase + j) * 256) (planeBytes cols j)) b.planes,
    signs := Mem.writeBytes b.signs ((mac * 8 + tile) * 256) (planeBytes signs 0),
    exps := gs.zipIdx.foldl (fun m g => tput {} m (mac * 256 + tile * 32 + g.2)
      (if isInt then {} else { exp := BitVec.ofInt 12 g.1.exp, nan := g.1.nan })) b.exps }

/-- One bit of a plane. -/
def planeBit (m : Mem) (plane k n : Nat) : Nat := (m.read (plane * 256 + (32 * k + n) / 8)).toNat / 2 ^ (n % 8) % 2

/-- Column `n` of k-group `g` of a tile as the engine multiplies it (R117, R118). -/
def Block.tileCol (b : Block) (tile : Nat) (t : Tile) (g n : Nat) : Group :=
  let mac := n / 32 * t.kg + g
  let c := n % 32
  let mag := fun k => (upList 0 t.wid).foldl (fun (x : Nat) j => x + planeBit b.planes (mac * 64 + t.pbase + j) k c * 2 ^ j) 0
  if elemIsInt t.fmt then
    { qs := (upList 0 64).map fun k => if t.sgn && 2 ^ (t.wid - 1) ≤ mag k then (mag k : Int) - 2 ^ t.wid else mag k }
  else
    let e := tget {} b.exps (mac * 256 + tile * 32 + c)
    { nan := e.nan, exp := e.exp.toInt,
      qs := (upList 0 64).map fun k => if planeBit b.signs (mac * 8 + tile) k c = 1 then -(mag k : Int) else mag k }

/-! ### Accumulation (R96, R97, R99) -/

/-- The exact group sum S (R96). -/
def groupSum (a b : Group) : Int := (a.qs.zip b.qs).foldl (fun x p => x + p.1 * p.2) 0

/-- A floating accumulator element under its k-groups: the bits, whether a rounding overflowed, whether one was inexact (R96). -/
def accFloat (f : FFmt) (wa wb : Nat) (gs : List (Group × Group)) (c : Nat) : Nat × Bool × Bool :=
  gs.foldl (fun (st : Nat × Bool × Bool) p =>
    let sum := groupSum p.1 p.2
    let x : FVal := if p.1.nan || p.2.nan then .nan else .fin (decide (sum < 0)) sum.natAbs (p.1.exp + 1 - wa + (p.2.exp + 1 - wb))
    let (g, eg) := f.enc .rne x
    let y := FVal.add .rne (f.dec st.1) (f.dec g)
    let (c, ec) := f.enc .rne y
    let inexact := fun (v : FVal) (bits : Nat) => !v.isBad && !(f.dec bits).isBad && !FVal.eq v (f.dec bits)
    (c, st.2.1 || eg == some 2 || ec == some 2, st.2.2 || inexact x g || inexact y c)) (c, false, false)

/-- The event of a C element (R99), as a counter number. -/
def accEvent (f : FFmt) (r : Nat × Bool × Bool) : List Nat :=
  let v := f.dec r.1
  if v.isNan then [4 * f.idx]
  else if r.2.1 then [4 * f.idx + 2]
  else if v.isBad then [4 * f.idx + 1]
  else if v.nonzero && r.1 % 2 ^ (f.eb + f.fb) < 2 ^ f.fb && r.2.2 then [4 * f.idx + 3] else []

/-- The accumulator's format for CF 0 and 1. -/
def accFmt (cf : Nat) : FFmt := if cf = 0 then .f32 else .f64

/-! ### The commands -/

/-- The block that claims a core's engine set (R199); a block that only wrote MXP has its command served too (R363). -/
def State.claimer (s : State) (core : Nat) : Option Block := (s.blksOn core).find? fun b => b.claims || !b.mxFifo.isEmpty

/-- The command at the head of a core's matrix FIFO, if it is of the kind and has not finished (R136). -/
def State.mxHead (s : State) (core : Nat) (c : MxCmd) : Option (Block × MxEntry) :=
  match s.claimer core with
  | none => none
  | some b => match b.mxFifo.head? with
    | none => none
    | some x => if x.cmd = c ∧ ¬ x.finished then some (b, x) else none

/-- Put the head command back. -/
def Block.setHead (b : Block) (x : MxEntry) : Block := { b with mxFifo := x :: b.mxFifo.drop 1 }

/-- The head command has failed: it changes no state but its own entry (R130, R131). -/
def Block.failHead (b : Block) (x : MxEntry) (c : TrapCause) : Block := b.setHead { x with started := true, finished := true, fault := some c }

/-- A team's word waits at issue for an engine: for a FIFO entry, or for its counter (R28, R135, R159). -/
def Team.awaitsEngine (tm : Team) : Bool :=
  !tm.stopped && (match tm.parked with
    | some (.fifo _) | some (.full _) => true
    | _ => false)

/-- Pre-emption is stopping the block: its sequencers and engines take nothing up (R139, R162), but while a word of a team waits at issue for an engine, which R224 lets issue first (log 35). -/
def State.preempting (s : State) (bk : Nat) : Bool :=
  ((s.teamsOf bk).any fun t => decide (StopCause.preempt ∈ t.stops)) && !(s.teamsOf bk).any Team.awaitsEngine

/-- Run a command's check once; on failure it is over, else it does its work (R130). Under pre-emption no command starts, and no further row of an `mx.mm` (R139). -/
def State.mxRun (s : State) (core : Nat) (c : MxCmd) (f : State → Block → MxEntry → State) : State :=
  match s.mxHead core c with
  | none => s
  | some (b, x) =>
    if s.preempting b.key && (!x.started || decide (c = .mm)) then s
    else if x.checked then f s b x
    else match b.mxCheck x with
      | some e => s.setBlk (b.failHead x e)
      | none => f s b { x with started := true, checked := true }

/-- `mx.prec` (R125). -/
def execMxPrecCommand (core : Nat) (s : State) : Out :=
  .next (s.mxRun core .prec fun s b x => s.setBlk { b.setHead { x with finished := true } with mxp := x.ops.getD 0 0 })

/-- The loaded tile (R126): planes, signs, exponents, PRECB, and V of the tiles it overlaps. -/
def Block.loadTile (b : Block) (x : MxEntry) : Block :=
  let fmt := x.f 0 3 0
  let sgn := x.f 0 4 4 == 1
  let wid := x.f 0 11 5
  let pbase := x.f 0 17 12
  let tile := x.f 0 20 18
  let kg := 2 ^ x.f 0 23 21
  let ng := 2 ^ x.f 0 26 24
  let col := fun n => leNat (b.spad.readBytes (x.o 1 + n * x.o 2) (runBytes fmt (64 * kg)))
  let groups := (upList 0 ng).flatMap fun nb => (upList 0 kg).map fun g =>
    (nb * kg + g, (upList (32 * nb) 32).map fun n => groupOf fmt sgn wid (col n) g)
  let b := groups.foldl (fun b p => b.storeMacro tile (elemIsInt fmt) wid pbase p.1 p.2) b
  let precb := (upList 0 8).foldl (fun m u =>
    let t := tileOf (tget 0 m u)
    if u ≠ tile ∧ t.pbase < pbase + wid ∧ pbase < t.pbase + t.wid then tput 0 m u (tget 0 m u &&& ~~~ 0x80000000#128) else m) b.precb
  { b with wovf := b.wovf || groups.any (fun p => p.2.any (·.clamped)), precb := tput 0 precb tile (precbOf x) }

/-- `mx.ldb` (R126). -/
def execMxLdbCommand (core : Nat) (s : State) : Out :=
  .next (s.mxRun core .ldb fun s b x =>
    let run := runBytes (x.f 0 3 0) (64 * 2 ^ x.f 0 23 21)
    match (upList 0 (32 * 2 ^ x.f 0 26 24)).findSome? fun n => b.spadLost (x.o 1 + n * x.o 2) run with
    | some e => s.setBlk (b.failHead x e)
    | none => s.setBlk (b.setHead { x with finished := true } |>.loadTile x))

/-- One row of `mx.mm` (R127): the block with the row's C elements, and the events. -/
def Block.mmRow (b : Block) (x : MxEntry) (i : Nat) : Block × List Nat :=
  let tile := x.f 0 2 0
  let t := tileOf (tget 0 b.precb tile)
  let fmt := bitsOf b.mxp.toNat 11 8
  let wa := bitsOf b.mxp.toNat 6 0
  let sgn := bitsOf b.mxp.toNat 12 12 == 1
  let cf := x.f 0 5 4
  let n := accSize cf
  let run := leNat (b.spad.readBytes (x.o 1 + i * x.o 2) (runBytes fmt (64 * t.kg)))
  let arow := (upList 0 t.kg).map fun g => groupOf fmt sgn wa run g
  let r := (upList 0 (32 * t.ng)).foldl (fun (st : Mem × List Nat) j =>
    let o := x.o 3 + i * x.o 4 + j * n
    let c := leNat (st.1.readBytes o n)
    let gs := arow.zipIdx.map fun a => (a.1, b.tileCol tile t a.2 j)
    if 2 ≤ cf then
      let y : Int := gs.foldl (fun (y : Int) p => y + groupSum p.1 p.2) c
      (st.1.writeBytes o (leBytes n (y % 2 ^ (8 * n)).toNat), st.2)
    else
      let y := accFloat (accFmt cf) wa t.wid gs c
      (st.1.writeBytes o (leBytes n y.1), st.2 ++ accEvent (accFmt cf) y)) (b.acc, [])
  ({ b with acc := r.1, wovf := b.wovf || arow.any (·.clamped) }, r.2)

/-- The bytes of C that row `i` of an `mx.mm` writes. -/
def mmRowOffs (x : MxEntry) (t : Tile) (i : Nat) : List Nat := upList (x.o 3 + i * x.o 4) (32 * t.ng * accSize (x.f 0 5 4))
/-- How many bytes of C the first `m` rows of an `mx.mm` write. -/
def mmBytes (x : MxEntry) (t : Tile) (m : Nat) : Nat := ((upList 0 m).flatMap (mmRowOffs x t)).length

/-- An operation of the matrix engine is over: the watches that its writes hit get their records; it has written `count` bytes (R260, R261). -/
def State.mxWatch (s : State) (b : Block) (x : MxEntry) (count : Nat) : State :=
  s.watchRecords b 2 x.origin (b.issuer x.origin x.pc) count x.hits

/-- `mx.mm` (R127): one row, or the end after its last row. Lost operand data part-way ends it with MXPROG 0 (R228; log 31). -/
def execMxMmCommand (core : Nat) (s : State) : Out :=
  .next (s.mxRun core .mm fun s b x =>
    let t := tileOf (tget 0 b.precb (x.f 0 2 0))
    let i := b.mxprog
    let m := x.f 0 17 6
    if m ≤ i then (s.setBlk { b.setHead { x with finished := true } with mxprog := 0 }).mxWatch b x (mmBytes x t m)
    else match (b.spadLost (x.o 1 + i * x.o 2) (runBytes (bitsOf b.mxp.toNat 11 8) (64 * t.kg))).or
        (b.accLost (x.o 3 + i * x.o 4) (32 * t.ng * accSize (x.f 0 5 4))) with
      | some e => (s.setBlk { b.failHead x e with mxprog := 0 }).mxWatch b x (mmBytes x t i)
      | none =>
        let (s, ns) := s.noteHits b b 2 (mmRowOffs x t i) x.origin x.hits
        let x := { x with hits := ns }
        let (b, evs) := b.mmRow x i
        let s := s.countFor b.launchUid evs
        if i + 1 < m then s.setBlk { b.setHead x with mxprog := i + 1 }
        else (s.setBlk { b.setHead { x with finished := true } with mxprog := 0 }).mxWatch b x (mmBytes x t m))

/-- One C element in a destination format (R128): its bits, its events, whether it clamped. -/
def stElem (cf fmt c : Nat) : Nat × List Nat × Bool :=
  match elemF fmt with
  | some d =>
    let (y, e) := d.enc .rne ((accFmt cf).dec c)
    (y, (e.map fun k => 4 * d.idx + k).toList, false)
  | none =>
    let w := 8 * accSize cf
    let x : Int := if 2 ^ (w - 1) ≤ c then (c : Int) - 2 ^ w else c
    if fmt = 14 then ((clampTo 32 true x % 2 ^ 32).toNat, [], clampTo 32 true x != x) else ((x % 2 ^ 64).toNat, [], false)

/-- Bytes written into the scratchpad of a block by an engine (R166, R192, R197, R263). -/
def State.engineWrite (s : State) (bk : Nat) (ws : List (Nat × Byte)) : State :=
  let s := ws.foldl (fun s w => s.spadWriteAt bk w.1 w.2 (2 ^ 32) 0) s
  s.modBlk bk fun b => clearRace b (ws.map (·.1))

/-- `mx.st` (R128). -/
def execMxStCommand (core : Nat) (s : State) : Out :=
  .next (s.mxRun core .st fun s b x =>
    let cf := x.f 0 1 0
    let fmt := x.f 0 5 2
    let n := accSize cf
    let d := stSize fmt
    match (upList 0 (x.f 0 24 13)).findSome? fun i => b.accLost (x.o 1 + i * x.o 2) (32 * x.f 0 12 6 * n) with
    | some e => s.setBlk (b.failHead x e)
    | none =>
    let cells := (upList 0 (x.f 0 24 13)).flatMap fun i => (upList 0 (32 * x.f 0 12 6)).map fun j =>
      (x.o 3 + i * x.o 4 + j * d, stElem cf fmt (leNat (b.acc.readBytes (x.o 1 + i * x.o 2 + j * n) n)))
    let ws := cells.flatMap fun c => (leBytes d c.2.1).zipIdx.map fun y => (c.1 + y.2, y.1)
    let s := s.countFor b.launchUid (cells.flatMap fun c => c.2.2.1)
    let s := s.setBlk { b.setHead { x with finished := true } with wovf := b.wovf || cells.any fun c => c.2.2.2 }
    let (s, ns) := s.noteHits b b 1 (ws.map (·.1)) x.origin x.hits
    (s.engineWrite b.key ws).mxWatch b { x with hits := ns } ws.length)

/-- `mx.zero` (R129). -/
def execMxZeroCommand (core : Nat) (s : State) : Out :=
  .next (s.mxRun core .zero fun s b x =>
    let s := s.setBlk { b.setHead { x with finished := true } with
      acc := b.acc.filter fun e => !(decide (x.o 0 ≤ e.1) && decide (e.1 < x.o 0 + x.o 1)),
      spadPoison := b.spadPoison.filter fun e => !(decide (accKey (x.o 0) ≤ e.1) && decide (e.1 < accKey (x.o 0) + x.o 1)) }
    let (s, ns) := s.noteHits b b 2 (upList (x.o 0) (x.o 1)) x.origin x.hits
    s.mxWatch b { x with hits := ns } (x.o 1))

/-! ### Completion -/

/-- An access of a posting team of block `bk` that its engine has finished completes (R28, R135, R160). -/
def State.engineDone (s : State) (bk : Nat) (o : Origin) (kind : AccKind) (tag : Nat) : State :=
  match s.originTeam bk o with
  | some t => s.modTeam t.key fun tm =>
      { tm with inflight := retire [] (tm.inflight.map fun a => if a.kind = kind ∧ a.tag = tag then { a with done := true } else a) }
  | none => s

/-- A command makes its arrival and leaves its counter (R131, R136); an `mtsr` entry makes none (R125). -/
def State.mxArrive (s : State) (bk : Nat) (x : MxEntry) : State :=
  if x.mtsr then s else (s.arrive bk x.latch 64).engineDone bk x.origin .matrix x.tag

/-- DETAIL of an engine fault (R131, R161, R219). -/
def engineDetail (e : Engine) (c : TrapCause) (o : Origin) (sub : Nat) : BitVec 16 :=
  0x8000#16 ||| (match e with
    | .mx => 0#16
    | .cp => 0x4000#16) |||
  (match c.cls with
    | .translation => c.detail &&& 0x3000
    | .memError => (c.detail &&& 3) <<< (10 : Nat)
    | _ => 0) |||
  (match o with
    | .team _ _ => 0
    | _ => 8) ||| BitVec.ofNat 16 sub

/-- The engine whose `join` ends a stream. -/
def Origin.engine : Origin → Engine
  | .cpStream => .cp
  | _ => .mx

/-- A stream's sequencer stops: its context goes (R131, R133, R161). -/
def State.stopStream (s : State) (bk : Nat) (o : Origin) : State :=
  match o with
  | .team _ _ => s
  | _ => match s.getBlk bk with
    | none => s
    | some b =>
      if !b.running o.engine then s
      else
        let s := s.setBlk (match o.engine with
          | .mx => { b with mxRun := false }
          | .cp => { b with cpRun := false })
        s.dropTeam (streamKey b.coreId o.engine)

/-- An engine fault goes to the party that R131 and R161 name, or fails the launch. -/
def State.deliver (s : State) (bk : Nat) (e : Engine) (o : Origin) (c : TrapCause) (pc : Nat) : State :=
  match s.getBlk bk with
  | none => s
  | some b =>
    let l := (s.getLaunch b.launchUid).getD {}
    let fail := fun (_ : Unit) => s.failLaunch b.launchUid (classCode c.cls) .exitedRecipient b.coreId (ordOf l.code (b.issuer o pc)) c.addr
    match o with
    | .team _ _ => match s.originTeam bk o with
      | none => fail ()
      | some tm => s.setTeam { tm with engFaults := tm.engFaults ++ [{ engine := e, origin := o, cause := c }] }
    | _ =>
      if b.teamsLeft = 0 then fail ()
      else (s.setBlk { b with streamFaults := b.streamFaults ++ [{ engine := o.engine, origin := o, cause := c }] }).stopStream bk o

/-- SUB3 of a command (R123). -/
def mxSub : MxCmd → Nat
  | .prec => 0
  | .ldb => 1
  | .mm => 2
  | .st => 3
  | .zero => 4

/-- The command that reaches the head of the FIFO enters the engine (R136). -/
def startHead : List MxEntry → List MxEntry
  | [] => []
  | x :: r => { x with started := true } :: r

/-- What is left of a block's FIFO when its head has gone: the next command starts, unless pre-emption stops the engine (R136, R139). -/
def State.nextHead (s : State) (bk : Nat) (l : List MxEntry) : List MxEntry := if s.preempting bk then l else startHead l

/-- The head command of a core's matrix FIFO completes (R131, R136): its arrival, its counter; on a fault the later entries of its origin go with the same effect. Under replay the arrivals wait for their turn (R268). -/
def execMatrixCommandCompletion (core : Nat) (s : State) : Out :=
  match s.claimer core with
  | none => .next s
  | some b => match b.mxFifo with
    | [] => .next s
    | x :: rest =>
      let gone := if x.fault.isSome then rest.filter fun y => y.origin == x.origin else []
      let left := if x.fault.isSome then rest.filter fun y => y.origin != x.origin else rest
      if !x.finished || (x :: gone).any (fun y => !y.mtsr && (s.arriveWait [b] y.latch 64).isSome) then .next s
      else match x.fault with
        | none => .next ((s.setBlk { b with mxFifo := s.nextHead b.key left }).mxArrive b.key x).wakeAll
        | some c =>
          let s := s.setBlk { b with mxFifo := s.nextHead b.key left }
          let s := gone.foldl (fun s y => s.mxArrive b.key y) (s.mxArrive b.key x)
          .next (s.deliver b.key .mx x.origin { c with detail := engineDetail .mx c x.origin (mxSub x.cmd) } x.pc).wakeAll

/-! ### Commands of one cycle -/

/-- The command takes one cycle and is in the engine: an `mx.prec`, or one that fails its check (R124, R131). -/
def Block.oneCycle (b : Block) (x : MxEntry) : Bool :=
  x.started && !x.checked && !x.finished && (decide (x.cmd = .prec) || (b.mxCheck x).isSome)

/-- The engine's work on a command (R125 to R129). -/
def mxWork (c : MxCmd) (core : Nat) (s : State) : Out :=
  match c with
  | .prec => execMxPrecCommand core s
  | .ldb => execMxLdbCommand core s
  | .mm => execMxMmCommand core s
  | .st => execMxStCommand core s
  | .zero => execMxZeroCommand core s

/-- The state that an outcome gives, or the state before it. -/
def stateAfter (o : Out) (s : State) : State :=
  match o with
  | .next t => t
  | _ => s

/-- A command of one cycle runs and arrives in the cycle in which it starts (R131, R136): it is over before any other party acts. -/
def State.mxPrompt (s : State) (bk : Nat) : State :=
  match s.getBlk bk with
  | none => s
  | some b => match b.mxFifo with
    | [] => s
    | x :: _ =>
      if !b.oneCycle x then s
      else
        let s := stateAfter (mxWork x.cmd b.coreId s) s
        stateAfter (execMatrixCommandCompletion b.coreId s) s

/-- The commands of one cycle at the heads of the matrix FIFOs run and arrive (R136). -/
def State.engines (s : State) : State := foldS (fun s b => s.mxPrompt b.key) (tvals s.blkTbl) s

/-- A stream ends when its `exit` completes (R133). -/
def execStreamEnd (core : Nat) (e : Engine) (s : State) : Out :=
  match s.getTeam (streamKey core e) with
  | none => .next s
  | some tm =>
    match s.getBlk tm.blkKey with
    | none => .next s
    | some b => if tm.ended && !b.hasWork tm.origin then .next (s.stopStream b.key tm.origin).wakeAll else .next s

end Sys2Proof.Machine
end

