-- ==== Sys2Proof/Machine/CopyEngine.lean ====
section
/-! DEFINITION. The copy engine at work (R100, R155 to R158, R160 to R162, R189): the copy at the head of the FIFO, unit by unit, and its completion. -/

namespace Sys2Proof.Machine

/-! ### Engines and the running context -/

/-- Make a block, its core and its launch the running ones, with no program context running: an engine acts. -/
def State.focusBlock (s : State) (b : Block) : State :=
  let s' := { s with
    team := {}, teams := s.teamTbl,
    blk := b, blocks := terase s.blkTbl b.key,
    core := { tget ({} : Core) s.coreTbl b.coreId with id := b.coreId }, cores := terase s.coreTbl b.coreId }
  { s' with launch := (tget none s.launchTbl b.launchUid).getD {}, launches := terase s.launchTbl b.launchUid }

/-! ### Elements -/

/-- The fill in a source's element size (R155). -/
def Tlr.fillRaw (t : Tlr) : Nat :=
  if t.fill = 0 then 0
  else if (elemDb t.fmt).isNone ∧ elemBits t.fmt = 64 then t.fval * 2 ^ 32 else t.fval

/-- The digits of an element number, index 0 fastest (R155). -/
def digits : List Nat → Nat → List Nat
  | [], _ => []
  | n :: ns, e => e % n :: digits ns (e / n)

/-- The tensor index of a window element, whether it lies inside, and the index clamped into the tensor (R155). -/
def Tlr.index (t : Tlr) (e : Nat) : List (Int × Nat) :=
  let is := digits (t.ext.take t.rank) e
  is.zipIdx.map fun d => (t.org.getD d.2 0 + d.1, t.dim.getD d.2 0)

/-- The element number in the source of an index (R155). -/
def Tlr.sourceNo (t : Tlr) (cs : List Int) : Nat :=
  (cs.zipIdx.foldl (fun (a : Int) c => a + c.1 * (strideOf (t.strideW.getD c.2 0) : Nat)) 0).toNat

/-- Bits of a source element: DB formats read FP32 (R157). -/
def Tlr.srcBits (t : Tlr) : Nat := if (elemDb t.fmt).isSome then 32 else elemBits t.fmt

/-- The pieces in which a copy reads `n` bytes at a pointer: one, or byte by byte across the end of a page (log 31). -/
def copyPieces (q : DWord) (n : Nat) : List (DWord × Nat) :=
  if ptrOff q % 65536 + n ≤ 65536 then [(q, n)]
  else (upList 0 n).map fun i => (mkPtr (ptrSpace q) (ptrOwner q) ((ptrOff q + i) % 2 ^ 48), 1)

/-- `n` bytes of a copy's source at a pointer (R143, R148, R150, R189): through the issuing core's view, also by an alias page; narrow elements of a typed page are a format fault. An element across the end of a page is read byte by byte, so that on a typed page it is a format fault. A pointer into a typed page that is no multiple of 4 reads the element in which it lies: no rule asks copy sources for an alignment (log 31). -/
def State.copyRead (s : State) (q : DWord) (n : Nat) : Except MemErr (List Byte) :=
  let piece := fun (q : DWord) (n : Nat) =>
    match s.resolve .cp n false true 1025 q with
    | .error x => Except.error x
    | .ok g =>
      if g.leaf.isSome && n < 4 then .error .format
      else
        let p := s.tgtPoison g 1025 n
        if p ≠ 0 then .error (.uncorr (p - 1)) else .ok (s.readTgt g 1025 n)
  (copyPieces q n).foldl (fun r p => match r with
    | .error x => .error x
    | .ok bs => match piece p.1 p.2 with
      | .error x => .error x
      | .ok b => .ok (bs ++ b)) (.ok [])

/-- The snapshot and the translation buffers note what a copy read, up to the piece that fails (R167, R227); walks and remote reads are charged (R291). With `data` false only the translations were asked for. -/
def State.copyTouch (data : Bool) : List (DWord × Nat) → State → State
  | [], s => s
  | (q, n) :: ps, s =>
    let s := s.fillAll [q]
    match s.resolve .cp n false true 1025 q with
    | .ok g => State.copyTouch data ps (if data then (s.touchTgt g 1025 n).chargeFar n [{ t := 1025, q := q, g := g }] else s)
    | .error _ => s

/-- The pointer of a source element and the bytes it lies in (R155). The offset wraps at 2^48, space and owner stay (log 31). -/
def Tlr.sourcePtr (t : Tlr) (k : Nat) : DWord × Nat :=
  let w := t.srcBits
  let off := if w = 4 then k / 2 else k * w / 8
  (mkPtr (ptrSpace t.base) (ptrOwner t.base) ((ptrOff t.base + off) % 2 ^ 48), if w = 4 then 1 else w / 8)

/-- One window element: the state after its read, its raw bits, and whether it is fill (R155); or the fault with its pointer. -/
def State.copyElem (s : State) (t : Tlr) (e : Nat) : Except (MemErr × DWord) (State × Nat × Bool) :=
  let ix := t.index e
  let inside := ix.all fun c => decide (0 ≤ c.1) && decide (c.1 < c.2)
  if !inside && t.fill < 2 then .ok (s, t.fillRaw, true)
  else
    let k := t.sourceNo (ix.map fun c => min (max c.1 0) ((c.2 : Int) - 1))
    let (q, n) := t.sourcePtr k
    match s.copyRead q n with
    | .error x => .error (x, q)
    | .ok bs =>
      let v := leNat bs
      .ok (s.copyTouch true (copyPieces q n), if t.srcBits = 4 then v / 2 ^ (4 * (k % 2)) % 16 else v, !inside)

/-- What a copy's faulting read leaves: the data was asked for where it was lost (R228, R291), else its translation alone (R227). -/
def State.copyTried (s : State) (t : Tlr) (m : MemErr) (q : DWord) : State :=
  s.copyTouch (match m with
    | .uncorr _ => true
    | _ => false) (copyPieces q (if t.srcBits = 4 then 1 else t.srcBits / 8))

/-- The copy reads the source for its element `e`: the element lies in the tensor, or is filled from its edge (R155). -/
def Tlr.reads (t : Tlr) (e : Nat) : Bool := 2 ≤ t.fill || (t.index e).all fun c => decide (0 ≤ c.1) && decide (c.1 < c.2)

/-- Up to `n` elements from `e` in ascending order: those read before the first fault, and the fault. -/
def State.copyElems (s : State) (t : Tlr) (e : Nat) : Nat → State × List (Nat × Bool) × Option (MemErr × DWord)
  | 0 => (s, [], none)
  | n + 1 => match s.copyElems t e n with
    | (s, xs, some x) => (s, xs, some x)
    | (s, xs, none) => match s.copyElem t (e + n) with
      | .error x => (s.copyTried t x.1 x.2, xs, some x)
      | .ok (s, v, f) => (s, xs ++ [(v, f)], none)

/-! ### Units -/

/-- The elements that a copy converts together (R157, R161). -/
def Tlr.unit (t : Tlr) : Nat := if (elemDb t.fmt).isSome then max (xfN t.xf) 16 else xfN t.xf

/-- The elements that a step of a copy writes: the least number of whole units that fills whole destination words (R160). -/
def Tlr.step (t : Tlr) : Nat :=
  match elemDb t.fmt with
  | some m => if m = 7 then max t.unit 32 else t.unit
  | none => max t.unit (if elemBits t.fmt < 32 then 32 / elemBits t.fmt else 1)

/-- Cut a list into pieces of `n`, `k` of them. -/
def pieces {α : Type} (n : Nat) : Nat → List α → List (List α)
  | 0, _ => []
  | k + 1, xs => xs.take n :: pieces n k (xs.drop n)

/-- What whole units from element `e` write: their bits in destination order, as (number, width), and their events (R92, R157). -/
def Tlr.convert (t : Tlr) (e : Nat) (raw : List (Nat × Bool)) : List (Nat × Nat) × List Nat :=
  let rot := fun (f : FFmt) =>
    let vs := raw.map fun x => f.dec x.1
    if t.xf = 0 then vs
    else
      let n := xfN t.xf
      let c0 := fun (k : Nat) => t.org.getD 0 0 + ((e + n * k) % t.ext.getD 0 1 : Nat)
      (pieces n (raw.length / n) vs).zipIdx.flatMap fun p => rotate n t.seed (c0 p.2 / n % 2 ^ 32).toNat p.1
  match elemDb t.fmt, elemF t.fmt with
  | some m, _ =>
    let bs := (pieces 16 (raw.length / 16) (rot .f32)).zipIdx.map fun p =>
      quantise m p.1 fun i => t.xf == 0 && ((raw.getD (16 * p.2 + i) (0, false)).2)
    (bs.map fun b => (b.1, 8 * dbBytes m), bs.flatMap (·.2))
  | none, some f =>
    if t.xf = 0 then (raw.map fun x => (x.1, elemBits t.fmt), [])
    else
      let rs := (rot f).map (f.enc .rne)
      (rs.map fun r => (r.1, elemBits t.fmt), rs.flatMap fun r => (r.2.map fun k => 4 * f.idx + k).toList)
  | none, none => (raw.map fun x => (x.1, elemBits t.fmt), [])

/-- Where byte `u` of the dense layout goes, as an offset of its space (R156). -/
def Tlr.place (t : Tlr) (u : Nat) : Nat :=
  let line := u / 256
  (if t.dst < 0x80000 then t.dst else t.dst - 0x80000) + 256 * line + 4 * ((u / 4 + line * t.skew) % 64) + u % 4

/-- First bit of an element in the dense layout (R153). -/
def Tlr.bitPos (t : Tlr) (e : Nat) : Nat :=
  match elemDb t.fmt with
  | some m => e / 16 * (8 * dbBytes m)
  | none => e * elemBits t.fmt

/-- The bytes that values of whole bytes give, from byte `u` of the dense layout upward. -/
def spread : Nat → List (Nat × Nat) → List (Nat × Byte)
  | _, [] => []
  | u, (v, w) :: r => ((leBytes (w / 8) v).zipIdx.map fun b => (u + b.2, b.1)) ++ spread (u + w / 8) r

/-- The bytes that 4-bit values from element `e` upward give; half bytes join what stands there. -/
def nibbles (e : Nat) (vs : List Nat) (old : Nat → Nat) : List (Nat × Byte) :=
  (upList (e / 2) ((e + vs.length + 1) / 2 - e / 2)).map fun u =>
    let lo := if e ≤ 2 * u then vs.getD (2 * u - e) 0 % 16 else old u % 16
    let hi := if 2 * u + 1 < e + vs.length then vs.getD (2 * u + 1 - e) 0 % 16 else old u / 16
    (u, BitVec.ofNat 8 (16 * hi + lo))

/-- The writes of values from element `e` upward: dense byte and value. -/
def Tlr.writes (t : Tlr) (e : Nat) (vals : List (Nat × Nat)) (old : Nat → Byte) : List (Nat × Byte) :=
  if vals.isEmpty then []
  else if t.fmt = 12 then nibbles e (vals.map (·.1)) fun u => (old (t.place u)).toNat
  else spread (t.bitPos e / 8) vals

/-! ### The copy at the head -/

/-- The copy at the head of a core's copy FIFO that has not finished (R160). -/
def State.cpHead (s : State) (core : Nat) : Option (Block × CpEntry) :=
  match (s.blksOn core).find? fun b => !b.cpFifo.isEmpty with
  | none => none
  | some b => match b.cpFifo.head? with
    | none => none
    | some x => if x.finished then none else some (b, x)

/-- Write a byte in a named block's scratchpad or accumulator buffer. -/
def State.copyWrite (s : State) (t : Tlr) (bk : Nat) (w : Nat × Byte) : State :=
  if t.dst < 0x80000 then (s.spadWriteAt bk (t.place w.1) w.2 (2 ^ 32) 0).modBlk bk fun b => clearRace b [t.place w.1]
  else s.modBlk bk fun b =>
    { b with acc := b.acc.write (t.place w.1) w.2, spadPoison := terase b.spadPoison (accKey (t.place w.1)) }

/-- Replace the head of the running block's copy FIFO. -/
def State.setCpHead (s : State) (x : CpEntry) : State := { s with blk := { s.blk with cpFifo := x :: s.blk.cpFifo.drop 1 } }

/-- The space of a copy's destination (R152). -/
def Tlr.space (t : Tlr) : Nat := if t.dst < 0x80000 then 1 else 2

/-- A copy has written its last element, or stopped at a fault after `e` elements (R161): the watches that its writes hit get their records (R260, R261). -/
def State.copyOver (s : State) (t : Tlr) (x : CpEntry) (e : Nat) (c : Option TrapCause) : State :=
  let s := s.watchRecords s.blk 1 x.origin (s.blk.issuer x.origin x.pc) ((t.bitPos e + 7) / 8 * (s.targets s.blk x.record).length) x.hits
  { s with blk := { s.blk with cpFifo := { x with finished := true, fault := c } :: s.blk.cpFifo.drop 1, cpprog := 0 } }

/-- The head copy of the running block writes elements from `e` in every named core: the bytes of the dense layout below `lim`; its entry notes the watches hit (R155 to R158, R261). -/
def State.copyPut (s : State) (t : Tlr) (x : CpEntry) (e : Nat) (raw : List (Nat × Bool)) (lim : Nat) : State × CpEntry :=
  let vals := (t.convert e raw).1
  (s.targets s.blk x.record).foldl (fun r b =>
    let mem := if t.dst < 0x80000 then b.spad else b.acc
    let ws := (t.writes e vals mem.read).filter fun w => decide (w.1 < lim)
    let (s, ns) := r.1.noteHits r.1.blk b t.space (ws.map fun w => t.place w.1) x.origin r.2.hits
    (ws.foldl (fun s w => s.copyWrite t b.key w) s, { r.2 with hits := ns })) (s, x)

/-- The first element of the unit at which the running block's copy stands. -/
def State.copyAt (s : State) (t : Tlr) : Nat := s.blk.cpprog / t.unit * t.unit

/-- The running block's copy waits for a link before it can read the unit from element `e` (R285). -/
def State.copyWaits (s : State) (t : Tlr) (e : Nat) : Bool := s.linkWait [t.base] && (upList e t.unit).any t.reads

/-- The head copy of the running block reads one unit's elements, converts and writes them: the element-by-element copy of R155, whole units where R161 asks for them. A unit that another package holds waits for a link (R285). None where it meets a physical hole. The events are counted whatever EXEC held at the `cp` (R100; log 31). -/
def State.copyOne (s : State) (t : Tlr) (x : CpEntry) : Option State :=
  let e := s.copyAt t
  if t.count ≤ e then some (s.copyOver t x t.count none)
  else if s.copyWaits t e then some s
  else
    match s.copyElems t e t.unit with
    | (_, _, some (.hole, _)) => none
    | (s, _, some (m, q)) => some ((s.noteMismatch (m == .uncorr 3)).copyOver t x e (some { cls := m.cls, addr := q, detail := m.detail }))
    | (s, raw, none) =>
      let (s, x) := (s.countEvents (t.convert e raw).2).copyPut t x e raw (t.bitPos t.count + 1)
      let s := s.setCpHead x
      let s := { s with blk := { s.blk with cpprog := e + t.unit } }
      some (if t.count ≤ e + t.unit then s.copyOver t x t.count none else s)

/-- Units of the head copy up to the end of a step, which fills whole destination words (R160), or the copy's end. -/
def State.copyUnit (s : State) (t : Tlr) : Nat → Option State
  | 0 => some s
  | n + 1 => match s.blk.cpFifo.head? with
    | none => some s
    | some x =>
      if x.finished then some s
      else match s.copyOne t x with
        | none => none
        | some s => if s.blk.cpprog % t.step = 0 then some s else s.copyUnit t n

/-- Up to `n` steps. -/
def State.copyUnits (s : State) (t : Tlr) : Nat → Option State
  | 0 => some s
  | n + 1 => match s.copyUnit t t.step with
    | none => none
    | some s => s.copyUnits t n

/-- The copy engine of a core moves up to `n` steps of the copy at the head of its FIFO (R155, R160). -/
def execCopyStart (core n : Nat) (s : State) : Out :=
  match s.cpHead core with
  | none => .next s
  | some (b, x) => match (s.focusBlock b).copyUnits (tlrOf x.record) n with
    | none => .fault .physicalHole
    | some s => .next s

/-- A destination line boundary of a copy lies at bit `p` of the dense layout (R156, R162): lines count from DST. -/
def lineStart (p : Nat) : Bool := p % 2048 == 0

/-- The first element of the unit in which the destination line of bit `p` begins (R161, R162). -/
def Tlr.lineElem (t : Tlr) (p : Nat) : Nat :=
  (match elemDb t.fmt with
    | some m => p / 2048 * 2048 / (8 * dbBytes m) * 16
    | none => p / 2048 * 2048 / elemBits t.fmt) / t.unit * t.unit

/-- A running copy of the running block stops for pre-emption (R162): it goes on, unit by unit, to a destination line boundary; of a unit that crosses the boundary it writes the bytes below it, and CPPROG names the unit's first element. A read that waits for a link does not hold the stop: CPPROG falls back to the start of the line. By fuel; none at a physical hole. -/
def State.copyStop (s : State) (t : Tlr) : Nat → Option State
  | 0 => some s
  | n + 1 => match s.blk.cpFifo.head? with
    | none => some s
    | some x =>
      let e := s.copyAt t
      if x.finished || lineStart (t.bitPos e) then some { s with blk := { s.blk with cpprog := if x.finished then s.blk.cpprog else e } }
      else if decide (e < t.count) && s.copyWaits t e then some { s with blk := { s.blk with cpprog := t.lineElem (t.bitPos e) } }
      else
        let line := (t.bitPos e / 2048 + 1) * 256
        if e < t.count ∧ 8 * line < t.bitPos (e + t.unit) then
          match s.copyElems t e t.unit with
          | (s, raw, none) =>
            let (s, x) := s.copyPut t x e raw line
            let s := s.setCpHead x
            some { s with blk := { s.blk with cpprog := e } }
          | _ => s.copyOne t x
        else match s.copyOne t x with
          | none => none
          | some s => s.copyStop t n

/-! ### Completion -/

/-- A copy's arrivals, in its own core first, and its counter (R158, R160). -/
def State.cpArrive (s : State) (b : Block) (x : CpEntry) : State :=
  ((s.targets b x.record).foldl (fun s t => s.arrive t.key x.latch 65) s).engineDone b.key x.origin .copy x.tag

/-- The head copy of a core completes (R160, R161): its arrivals, its counter; on a fault the later entries of its origin go with the same effect. Under replay the arrivals wait for their turn (R268). -/
def execCopyCompletion (core : Nat) (s : State) : Out :=
  match (s.blksOn core).find? fun b => !b.cpFifo.isEmpty with
  | none => .next s
  | some b => match b.cpFifo with
    | [] => .next s
    | x :: rest =>
      let gone := if x.fault.isSome then rest.filter fun y => y.origin == x.origin else []
      if !x.finished || (x :: gone).any (fun y => (s.arriveWait (s.targets b y.record) y.latch 65).isSome) then .next s
      else match x.fault with
        | none => .next ((s.setBlk { b with cpFifo := rest }).cpArrive b x).wakeAll
        | some c =>
          let s := s.setBlk { b with cpFifo := rest.filter fun y => y.origin != x.origin }
          let s := gone.foldl (fun s y => s.cpArrive b y) (s.cpArrive b x)
          .next (s.deliver b.key .cp x.origin { c with detail := engineDetail .cp c x.origin 0 } x.pc).wakeAll

end Sys2Proof.Machine
end

