-- ==== Sys2Proof/Machine/Preempt.lean ====
section
/-! DEFINITION. Context save and restore of a block's gang (R41, R139, R158, R162, R187, R195, R225, R257, R273). -/

namespace Sys2Proof.Machine

/-- The blocks of a block's gang that are resident (R158). -/
def State.gangOf (s : State) (b : Block) : List Block :=
  let g := ((s.getLaunch b.launchUid).getD {}).gang
  (tvals s.blkTbl).filter fun x => x.launchUid == b.launchUid && x.bix / g == b.bix / g

/-- The gang may be saved: its launch is neither captured nor replayed (R267), and its teams have stopped (R224). -/
def State.gangStopped (s : State) (bs : List Block) : Bool :=
  bs.all fun b => ((s.getLaunch b.launchUid).getD {}).replay == 0 && (s.teamsOf b.key).all fun t => t.stopped

/-- The engines of the blocks have stopped (R139, R162): no command or copy is between its last effect and its arrival, and no command but an `mx.mm` is running. -/
def engineSettled (bs : List Block) : Bool :=
  bs.all fun b => (b.mxFifo.all fun x => !x.finished && (!x.started || decide (x.cmd = .mm))) && b.cpFifo.all fun x => !x.finished

/-- A team as its image holds it (R225): queue and paths G, S, X and A are empty. -/
def Team.image (tm : Team) : Team :=
  { tm with passed := 0, yielded := false, cand := none, decided := none, captured := false, probation := none,
            resv := [], scalarResv := none }

/-- The physical address of a byte of the image area (R225, R273): the page must translate for the launch, be writable and raw, and belong to the launch's own world with that world's attribute. -/
def State.imageAt (s : State) (l : Launch) (off : Nat) : Option Nat :=
  match walk (s.pm s.pkg) l.root off with
  | .error _ => none
  | .ok e => match fillCheck (s.pm s.pkg) l.world e with
    | .error _ => none
    | .ok e =>
      let a := e.phys off
      if e.w && e.efmt == 0 && decide (a < Config.memBytes) && (s.pm s.pkg).ownedBy l.world (a / 65536) then some a else none

/-- The image area translates as R225 asks, byte for byte. -/
def State.imageOkAt (s : State) (l : Launch) (area len : Nat) : Bool := (upList area len).all fun o => (s.imageAt l o).isSome

/-- The bytes of an image are written at their places (R225); no rule gives their order, so each is a free value (log 35). -/
def State.writeImage (s : State) (places : List Nat) : State :=
  places.zipIdx.foldl (fun s a => s.homeWrite s.pkg a.1 (Config.imageByte s.freeCount a.2) (2 ^ 32) 0) s

/-- The running copies of blocks stop at a destination line boundary (R162); none at a physical hole. -/
def State.stopCopies (s : State) : List Block → Option State
  | [] => some s
  | b :: bs => match s.getBlk b.key with
    | none => s.stopCopies bs
    | some b => match b.cpFifo with
      | [] => s.stopCopies bs
      | x :: _ => match (s.focusBlock b).copyStop (tlrOf x.record) 65536 with
        | none => none
        | some s => s.stopCopies bs

/-- A stopped gang leaves its cores: what its teams have stored is published (R169; log 35), race records reach the debug buffer, the contexts are kept as saved. -/
def State.saveGang (s : State) (bs : List Block) (uid area len : Nat) : State :=
  let ts := bs.flatMap fun b => s.ctxsOf b.key
  let g : SavedGang :=
    { launchUid := uid, area := area, len := len, blocks := bs,
      teams := (ts.filter fun t => decide (t.kind = .team)).map Team.image, streams := ts.filter fun t => decide (t.kind ≠ .team) }
  let s := bs.foldl (fun s b => ((s.publish b.coreId .home).raceAll b.coreId).removeBlock b.key) s
  { s with saved := s.saved ++ [g] }

/-- Pre-emption stops a gang's copies, writes its context image to the area of the launch's global space, where that translates when the save begins, and frees its cores (R158, R162, R225). -/
def execContextSave (o : SaveOrder) (s : State) : Out :=
  match s.getBlk o.block with
  | none => .next s
  | some b =>
    let l := (s.getLaunch b.launchUid).getD {}
    let places := (upList o.area o.len).filterMap (s.imageAt l)
    if !s.gangStopped (s.gangOf b) || o.len = 0 then .next s
    else if !s.imageOkAt l o.area o.len then .next (s.noteWalk l (upList o.area o.len))
    else match s.stopCopies (s.gangOf b) with
      | none => .fault .physicalHole
      | some s =>
        let bs := s.gangOf b
        if !engineSettled bs then .next s else .next ((s.saveGang bs b.launchUid o.area o.len).writeImage places)

/-- The origin of a command under a change of team keys. -/
def Origin.rekey (o : Origin) (f : Nat → Nat) : Origin :=
  match o with
  | .team k i => .team (f k) i
  | x => x

/-- A restored team (R41, R195, R224): an Armed monitor is Triggered, and it stands still only where a debugger holds it (R257). -/
def Team.restored (tm : Team) (core q slot : Nat) (f : Nat → Nat) : Team :=
  { tm with key := teamKey core q slot, coreId := core, qtr := q, slot := slot, stopped := tm.held, stops := tm.stops.filter (fun c => decide (c ≠ .preempt)), fresh := true, perfNow := tm.perfReq, queue := [],
            mon := if tm.mon = .armed then .triggered else tm.mon,
            engFaults := tm.engFaults.map fun e => { e with origin := e.origin.rekey f } }

/-- A restored block (R41): its origin core stays, its commands name its teams as they stand now, and the one at the head of the matrix FIFO starts (R139). -/
def Block.restored (b : Block) (core : Nat) (f : Nat → Nat) : Block :=
  { b with coreId := core,
           mxFifo := startHead (b.mxFifo.map fun x => { x with origin := x.origin.rekey f }),
           cpFifo := b.cpFifo.map fun x => { x with origin := x.origin.rekey f },
           streamFaults := b.streamFaults.map fun e => { e with origin := e.origin.rekey f } }

/-- Put a saved block and its contexts on a core, its teams at the given places: the launch has now also run there (R187), and their REQ counts in the cluster (R217). The core refreshes, so that they read what they had stored (R169; log 35). -/
def State.restoreBlock (s : State) (g : SavedGang) (b : Block) (core : Nat) (places : List (Nat × Nat)) : State :=
  let ts := g.teams.filter fun t => t.blkKey == b.key
  let keys := (ts.zip places).map fun p => (p.1.key, teamKey core p.2.1 p.2.2)
  let f := fun k => ((keys.find? fun e => e.1 == k).map (·.2)).getD k
  let s := s.setBlk (b.restored core f)
  let s := (ts.zip places).foldl (fun s p => s.setTeam (p.1.restored core p.2.1 p.2.2 f)) s
  let s := (g.streams.filter fun t => t.blkKey == b.key).foldl (fun s t =>
    s.setTeam { t with key := streamKey core (if t.kind = .cpStream then .cp else .mx), coreId := core }) s
  ((s.modLaunch b.launchUid fun l => { l with placements := l.placements ++ [(b.bix, core, places.map fun p => 16 * p.1 + p.2)] }).refresh core .home).relevel (clusterOf core)

/-- The places of a saved block's remaining teams on a core, if the core can take it (R41, R199). -/
def State.fitSaved (s : State) (g : SavedGang) (l : Launch) (b : Block) (core : Nat) : Option (List (Nat × Nat)) :=
  if s.claimFits core l.kernel && s.scratchFits core b.scratch l.race then
    fitTeams (l.kernel.team * l.kernel.regs) (g.teams.filter fun t => t.blkKey == b.key).length (s.quartersOf core)
  else none

/-- Restore the blocks of a gang, one to a core, on the cores listed (R41, R158); none where one does not fit. -/
def State.restoreAll (s : State) (g : SavedGang) (l : Launch) : List Block → List Nat → Option State
  | [], _ => some s
  | _ :: _, [] => none
  | b :: bs, c :: cs =>
    match s.fitSaved g l b c with
    | some p => (s.restoreBlock g b c p).restoreAll g l bs cs
    | none => s.restoreAll g l (b :: bs) cs

/-- A saved gang is restored from a core of a cluster upward (R41, R158, R225), where its image can still be read. -/
def execContextRestore (k core : Nat) (s : State) : Out :=
  match s.saved[k]? with
  | none => .next s
  | some g =>
    if Config.cores ≤ core then .next s
    else
      let l := (s.getLaunch g.launchUid).getD {}
      if !s.imageOkAt l g.area g.len then .next (s.noteWalk l (upList g.area g.len))
      else match ({ s with saved := s.saved.eraseIdx k }).restoreAll g l g.blocks (upList core (8 - core % 8)) with
      | some t => .next t.wakeAll
      | none => .next s

end Sys2Proof.Machine
end

