-- ==== Sys2Proof/Machine/Frequel.lean ====
section
/-! DEFINITION. Frequel (R232 to R251): regions, capture, candidate tests, hinges, comparisons, escapes. -/

namespace Sys2Proof.Machine

/-! ### What a region may hold (R233) -/

/-- The word reads its destination register: it names a third operand there, or may leave bits of it (R82). -/
def readsDest : Instr → Bool
  | .mad _ _ _ | .bfi _ _ _ | .lih _ _ | .ffma _ _ _ _ _ | .ffmaPacked _ _ _ _ => true
  | .faddPacked _ _ _ _ | .fsubPacked _ _ _ _ | .fmulPacked _ _ _ _ | .fminPacked _ _ _ _ | .fmaxPacked _ _ _ _ => true
  | .fabsPacked _ _ _ | .fnegPacked _ _ _ => true
  | .cvt x y _ _ _ => cvtPacked x || cvtPacked y
  | _ => false

/-- The predicates that a word reads and the one it writes, p7 left out. -/
def wordPreds (i : Instr) : List Nat × List Nat :=
  let keep := fun (ps : List (Fin 8)) => (ps.map (·.val)).filter (· ≠ 7)
  match i with
  | .sel _ _ _ p => (keep [p.num], [])
  | .pand d a b | .por d a b | .pxor d a b => (keep [a.num, b.num], keep [d])
  | .pnot d a => (keep [a.num], keep [d])
  | .cmp _ p _ _ | .cmpImm _ p _ _ | .fcmp _ _ p _ _ => ([], keep [p])
  | _ => ([], [])

/-- The fields of a register operand of `n` words that a region's maps know: v-fields and s-fields (R14, R64). -/
def fieldsOf (e : Reg × Nat) : List Nat :=
  match e.1 with
  | .v i => upList i.val e.2
  | .s i => upList (88 + i.val) e.2
  | _ => []

/-- Register fields and predicates that a word reads and writes. -/
structure WordUse where
  reads : List Nat := []
  writes : List Nat := []
  preads : List Nat := []
  pwrites : List Nat := []
  deriving DecidableEq, Repr

/-- What a region word reads and writes. -/
def useOf (i : Instr) (a : Alu) : WordUse :=
  let hasDst := a.dst != .zr
  let d := (if hasDst then a.regs.take 1 else []).flatMap fieldsOf
  { reads := (if readsDest i then d else []) ++ (if hasDst then a.regs.drop 1 else a.regs).flatMap fieldsOf,
    writes := d, preads := (wordPreds i).1, pwrites := (wordPreds i).2 }

/-- A word of a region or of a candidate (R233, R235): a vector word of the majors named, with S = 0. -/
def regionWord (w : Word) : Option (Instr × Alu) :=
  if w.msb then none
  else match decode w with
    | none => none
    | some i => match regionAlu i with
      | some a => if a.scalarForm then none else some (i, a)
      | none => none

/-- All words of a list as region words; none where one is not. -/
def regionWords : List Word → Option (List (Instr × Alu))
  | [] => some []
  | w :: ws => match regionWord w, regionWords ws with
    | some i, some is => some (i :: is)
    | _, _ => none

/-- Issue cost per pass (R241). -/
def costOf (is : List (Instr × Alu)) : Nat := is.foldl (fun n i => n + i.2.cycles) 0

/-! ### Regions (R233, R234) -/

/-- A region: its first word, its words, and its live-ins and live-outs in ascending field value. -/
structure Region where
  start : Nat
  words : List (Instr × Alu)
  ins : List Nat
  outs : List Nat
  pin : List Nat
  pout : List Nat
  next : SafePoint

/-- The numbers below `n` that pass. -/
def below (n : Nat) (f : Nat → Bool) : List Nat := (upList 0 n).filter f

/-- A safe point's live bit of a field (R64). -/
def SafePoint.liveField (p : SafePoint) (f : Nat) : Bool :=
  if f < 88 then p.liveV / 2 ^ f % 2 == 1 else p.liveS / 2 ^ (f - 88) % 2 == 1
/-- A safe point's live bit of a predicate. -/
def SafePoint.livePred (p : SafePoint) (k : Nat) : Bool := p.liveP / 2 ^ k % 2 == 1

/-- Fields that words read before any write of their own, and all that they write. -/
def flow (us : List WordUse) : WordUse :=
  us.foldl (fun (a : WordUse) u =>
    { reads := a.reads ++ u.reads.filter fun f => f ∉ a.writes, writes := a.writes ++ u.writes,
      preads := a.preads ++ u.preads.filter fun f => f ∉ a.pwrites, pwrites := a.pwrites ++ u.pwrites }) {}

/-- The words of the running launch's text from a word index on, through the running core's view. -/
def State.codeWords (s : State) (idx n : Nat) : Option (List Word) :=
  (upList 0 n).foldl (fun (r : Option (List Word)) k =>
    match r, s.fetchWord (s.launch.code.textOff + 4 * (idx + k)) with
    | some ws, .ok w => some (ws ++ [w])
    | _, _ => none) (some [])

/-- The run of words from `start` up to the safe point `p` meets the conditions of R233, length apart. -/
def State.runOk (s : State) (start : Nat) (p : SafePoint) : Option Region :=
  match (s.codeWords start (p.off - start)).bind regionWords with
  | none => none
  | some is =>
    let u := flow (is.map fun i => useOf i.1 i.2)
    let sp := s.launch.code.safePoints[ordOf s.launch.code (s.launch.code.textOff + 4 * start)]?
    let r : Region :=
      { start := start, words := is, ins := below 124 fun f => decide (f ∈ u.reads),
        outs := below 88 fun f => decide (f ∈ u.writes) && p.liveField f,
        pin := below 7 fun k => decide (k ∈ u.preads), pout := below 7 fun k => decide (k ∈ u.pwrites) && p.livePred k, next := p }
    if (sp.map (·.excluded)).getD true || 24 < r.ins.length || 16 < r.outs.length then none else some r

/-- The region that begins at a word index: the longest run of 1 to 16 words before the next safe point that meets the conditions (R233). -/
def State.regionAt (s : State) (start : Nat) : Option Region :=
  match s.launch.code.safePoints.find? fun p => decide (start < p.off) with
  | none => none
  | some p =>
    let n := p.off - start
    if 16 < n then none
    else if (upList (n + 1) (16 - n)).any fun m => decide (m ≤ p.off) && (s.runOk (p.off - m) p).isSome then none
    else s.runOk start p

/-- A candidate's words under R235, for a region. -/
def Region.admits (r : Region) (ws : List Word) : Option (List (Instr × Alu)) :=
  if ws.isEmpty || 16 < ws.length then none
  else match regionWords ws with
    | none => none
    | some is =>
      let u := flow (is.map fun i => useOf i.1 i.2)
      let dead := fun f => !r.next.liveField f && decide (f ∉ r.ins)
      let pdead := fun k => !r.next.livePred k && decide (k ∉ r.pin)
      if u.reads.all (fun f => decide (f ∈ r.ins)) && u.writes.all (fun f => decide (f ∈ r.outs) || dead f)
          && u.preads.all (fun k => decide (k ∈ r.pin)) && u.pwrites.all (fun k => decide (k ∈ r.pout) || pdead k)
      then some is else none

/-! ### Runs in the shadow context -/

/-- The team with only the listed threads active. -/
def Team.onlyThreads (tm : Team) (ts : List Nat) : Team :=
  { tm with cnt := (upList 0 tm.threads).foldl (fun c t => if t ∈ ts then c else tput 0 c t (max 1 (tget 0 c t))) tm.cnt }

/-- Run region words on a copy of a team: its registers, and the events of its active threads (R240, R246). -/
def shadowRun (bix : Nat) (tm : Team) (is : List (Instr × Alu)) : Team × List Nat :=
  is.foldl (fun (r : Team × List Nat) i => let x := i.2.apply bix r.1; (x.1, r.2 ++ x.2)) (tm, [])

/-- A register field of a thread. -/
def Team.field (tm : Team) (t f : Nat) : Word := if f < 88 then tm.rdV t (8 * tm.wb + f) else tm.rdS (f - 88)
/-- A predicate of a thread by number. -/
def Team.predBit (tm : Team) (t k : Nat) : Bool := tget false tm.p (8 * t + k)

/-- Live-out values and predicates of a thread, with the event counts of a run of it alone (R241, R246). -/
def outcome (r : Region) (t : Nat) (x : Team × List Nat) : List Word × List Bool × List Nat :=
  (r.outs.map (x.1.field t), r.pout.map (x.1.predBit t), (upList 0 20).map fun k => x.2.count k)

/-! ### The capture unit -/

/-- Make a core and a launch the running ones, with no block and no context. -/
def State.focusCore (s : State) (core uid : Nat) : State :=
  let s' := { s with
    team := {}, teams := s.teamTbl, blk := {}, blocks := s.blkTbl,
    core := { tget ({} : Core) s.coreTbl core with id := core }, cores := terase s.coreTbl core }
  { s' with launch := (tget none s.launchTbl uid).getD {}, launches := terase s.launchTbl uid }

/-- Frequel may work on a launch (R233, R236): it is running, has not opted out, and a protected world has enabled it. -/
def State.frequelOn (s : State) (l : Launch) : Bool :=
  decide (l.status = .running) && !l.optedOut && (!s.protectedLaunch l || l.wen)

/-- Compute samples of a code object's region among the core's last samples (R232). -/
def Core.heat (c : Core) (mark start olen : Nat) : Nat :=
  (c.samples.filter fun x => x.1 == mark && decide (start ≤ x.2) && decide (x.2 ≤ start + olen)).length

/-- The capture unit of a core is armed for a hot region (R232, R237). -/
def execCaptureArm (core launch start : Nat) (s : State) : Out :=
  let t := s.focusCore core launch
  let busy : Bool := match t.core.capUnit with
    | some u => u.armed
    | none => false
  match t.regionAt start with
  | none => .next s
  | some r =>
    if Config.cores ≤ core ∨ busy ∨ launch = 0 ∨ !t.frequelOn t.launch ∨ t.core.heat t.launch.code.mark start (r.words.length - 1) < t.hub.frqh
        ∨ !(s.blksOn core).any fun b => b.launchUid == launch then .next s
    else .next (s.modCore core fun c => { c with
      capUnit := some { armed := true, launchUid := launch, start := start, olen := r.words.length - 1, taken := 0 },
      captures := [], tested := [] })

/-- The first active thread at or above a start, wrapping (R237). -/
def Team.nextActive (tm : Team) (lo : Nat) : Option Nat := (tm.actives.find? fun t => decide (lo ≤ t)).or tm.actives.head?

/-- The words of a capture slot (R238). -/
def slotWords (c : CapRec) (k start handle : Nat) (r : Region) : List Word :=
  let bits := fun (n : Nat) => (upList 0 20).foldl (fun (a : Nat) j => a + min 31 (tget 0 c.ev j) * 2 ^ (5 * j)) 0 / 2 ^ (32 * n) % 2 ^ 32
  let pad := fun (n : Nat) (ws : List Word) => ((upList 0 n).map fun i => ws.getD i 0)
  [BitVec.ofNat 32 start, BitVec.ofNat 32 (k * 2 ^ 25 + c.thread * 2 ^ 15 + handle % 2 ^ 15),
   BitVec.ofNat 32 (r.outs.length * 2 ^ 24 + r.ins.length * 2 ^ 16 + c.pout * 2 ^ 8 + c.pin)]
  ++ ((upList 0 4).map fun n => BitVec.ofNat 32 (bits n)) ++ [BitVec.ofNat 32 c.bix] ++ pad 24 c.ins ++ pad 16 c.outs ++ pad 16 []

/-- Predicate values as the bits of a capture (R238). -/
def Team.predBits (tm : Team) (t : Nat) (ps : List Nat) : Nat := ps.foldl (fun (a : Nat) k => a + (if tm.predBit t k then 2 ^ k else 0)) 0

/-- The capture unit takes one execution of its region, whose first word the team is about to issue: the live-ins are read here (R237 to R239). A hinge on the region is decided first: candidate words are no execution of the region. Scalar words that the front-end has executed ahead come again in program order. -/
def execCapture (t : Nat) (s0 : State) : Out :=
  let s := s0.focus t
  match s.core.capUnit, s.regionAt (textIdx s.launch.code s.team.pc) with
  | some u, some r =>
    if s.team.key ≠ t ∨ s.team.threads = 0 ∨ !s.team.ready ∨ !u.armed ∨ u.launchUid ≠ s.launch.uid ∨ u.start ≠ r.start
        ∨ s.team.captured ∨ s.team.cand.isSome ∨ s.decides ∨ s.team.execZero ∨ s.team.shadowOpen then .next s0
    else match s.team.nextActive (37 * u.taken % s.team.threads) with
      | none => .next s0
      | some th =>
        let c : CaptureRun :=
          { slot := u.taken, thread := th, start := r.start, last := r.start + r.words.length - 1, ins := r.ins.map (s.team.field th),
            pin := s.team.predBits th r.pin, inTrap := s.team.priv? }
        let u := { u with taken := u.taken + 1, armed := decide (u.taken + 1 < s.launch.frqs) }
        .next { s with core := { s.core with capUnit := some u }, team := { s.team with captured := true, capturing := some c, queue := s.team.ahead.takeWhile fun x => x.ran.isNone } }
  | _, _ => .next s0

/-- The cycles for which a captured team has no ready pass after its region's last pass: 4 values a cycle (R239). -/
def Region.hold (r : Region) : Nat := (r.ins.length + r.outs.length + (if r.pin.isEmpty && r.pout.isEmpty then 0 else 1) + 3) / 4

/-- The last word of a captured execution has written its results: the live-outs are read and the slot is written (R238), and the team is held while the unit takes the values (R239), a cycle being a step of the model (log 36). A slot that cannot be written ends the capture (R278). -/
def State.captureEnd (s : State) (c : CaptureRun) : State :=
  let s := { s with team := { s.team with capturing := none } }
  match s.core.capUnit, s.regionAt c.start with
  | some u, some r =>
    if u.launchUid ≠ s.launch.uid ∨ u.start ≠ c.start ∨ u.taken ≤ c.slot then s
    else
      let k : CapRec :=
        { thread := c.thread, bix := s.blk.bix, ins := c.ins, outs := r.outs.map (s.team.field c.thread), pin := c.pin,
          pout := s.team.predBits c.thread r.pout, ev := c.ev }
      let s := { s with team := ({ s.team with holdFor := r.hold } : Team).beginHold s.freeCount }
      let base := BitVec.ofNat 64 (s.launch.capture + 8192 * s.core.id + 256 * c.slot)
      match s.recWords s.launch true base 0 (slotWords k c.slot r.start s.launch.handle r) with
      | none => { s.noteWalk s.launch ((slotWords k c.slot r.start s.launch.handle r).zipIdx.map fun w => ptrOff base + 4 * w.2) with core := { s.core with capUnit := none } }
      | some s => { s with core := { s.core with captures := s.core.captures ++ [k] } }
  | _, _ => s

/-- A word of a context has been executed, from `pre` on: where it belongs to a captured execution, the captured thread's events are counted, and the last word ends the capture (R238, R239). -/
def State.captureWord (s : State) (pre : Team) (i : Instr) : State :=
  match pre.capturing, regionAlu i with
  | some c, some a =>
    let idx := textIdx s.launch.code pre.pc
    if s.team.key ≠ pre.key ∨ s.team.priv? ≠ pre.priv? ∨ s.team.parked.isSome ∨ idx < c.start ∨ c.last < idx ∨ pre.priv? ≠ c.inTrap ∨ !pre.active c.thread then s
    else
      let es := if pre.loud c.thread then (a.result pre s.blk.bix c.thread).events else []
      let c := { c with ev := es.foldl (fun m k => tput 0 m k (tget 0 m k + 1)) c.ev }
      if idx < c.last then { s with team := { s.team with capturing := some c } } else s.captureEnd c
  | _, _ => s

/-! ### Idle slots (R205) -/

/-- A quarter has no ready pass: shadow work may use its slots (R205). A team that waits for the shadow context has none (R201, R246). -/
def State.idleQuarter (s : State) (core q : Nat) : Bool :=
  !(tvals s.teamTbl).any fun t => t.coreId == core && t.qtr == q && s.passReady t

/-- A team of the core is inside a captured execution. -/
def State.capturingOn (s : State) (core : Nat) : Bool := (tvals s.teamTbl).any fun t => t.coreId == core && t.capturing.isSome

/-- A comparison may run: in an idle slot of its team's quarter, or in the team's own slots after 64 cycles, or because the team is to stop (R246). -/
def State.mayCompare (s : State) (x : Comparison) : Bool :=
  s.idleQuarter (x.team / 64) (x.team / 16 % 4) || decide (64 ≤ x.waited) || (match s.getTeam x.team with
    | some t => !t.stops.isEmpty
    | none => true)

/-! ### Candidates -/

/-- The shadow context loaded with one sample: one thread, its live-ins in their fields (R240). -/
def sampleTeam (r : Region) (c : CapRec) : Team :=
  let tm : Team := { threads := c.thread + 1, regs := 88 }
  let tm := (r.ins.zip c.ins).foldl (fun (tm : Team) x => if x.1 < 88 then tm.wrV c.thread x.1 x.2 else tm.wrS (x.1 - 88) x.2) tm
  let tm := r.pin.foldl (fun (tm : Team) k => { tm with p := tput false tm.p (8 * c.thread + k) (c.pin / 2 ^ k % 2 == 1) }) tm
  tm.onlyThreads [c.thread]

/-- A candidate gives the recorded values, predicates and events on a sample (R241). -/
def passes (r : Region) (is : List (Instr × Alu)) (c : CapRec) : Bool :=
  let x := shadowRun c.bix (sampleTeam r c) is
  decide (r.outs.map (x.1.field c.thread) = c.outs) && r.pout.all (fun k => x.1.predBit c.thread k == (c.pout / 2 ^ k % 2 == 1))
    && (upList 0 20).all fun k => x.2.count k == tget 0 c.ev k

/-- The core's shadow context tests a proposed candidate against the captures, in idle slots (R205, R240, R241). -/
def execCandidateTest (core : Nat) (ws : List Word) (s : State) : Out :=
  match (s.getCore core).capUnit with
  | none => .next s
  | some u =>
    let t := s.focusCore core u.launchUid
    match t.regionAt u.start with
    | none => .next s
    | some r =>
      if u.armed || Config.cores ≤ core || s.capturingOn core || !(upList 0 4).any (s.idleQuarter core) then .next s
      else match r.admits ws with
        | none => .next (s.modCore core fun c => { c with tested := [] })
        | some is =>
          let ok := t.core.captures.all (passes r is) && !t.core.captures.isEmpty && decide (costOf is < costOf r.words)
          .next (s.modCore core fun c => { c with tested := if ok then ws else [] })

/-- The management cores install a tested candidate, with the checks and the effect of `hng.set` (R241, R243). -/
def execHingeInstall (core launch e : Nat) (d : QWord) (s : State) : Out :=
  let t := s.focusCore core launch
  match t.core.capUnit with
  | none => .next s
  | some u =>
    if u.launchUid ≠ launch ∨ 16 ≤ e ∨ launch = 0 ∨ Config.cores ≤ core ∨ !t.frequelOn t.launch ∨ !t.hingeOk e d ∨ hgHandle d ≠ t.launch.handle
        ∨ hgStart d ≠ u.start ∨ hgOlen d ≠ u.olen ∨ !(s.blksOn core).any fun b => b.launchUid == launch then .next s
    else match t.hingeText d (hgClen d + 1) with
      | .error _ => .next s
      | .ok ws => if ws = t.core.tested ∧ ws ≠ [] then .next (t.installHinge e d ws) else .next s

/-! ### Taking a hinge (R244 to R246) -/

/-- Set a hinge entry. -/
def State.putHinge (s : State) (e : Nat) (h : Hinge) : State := { s with core := { s.core with hinges := tput {} s.core.hinges e h } }

/-- A descriptor with STATE, PCNT or ACNT replaced (R242). -/
def hgSetState (d : QWord) (x : Nat) : QWord := (d &&& ~~~ 3#128) ||| BitVec.ofNat 128 (x % 4)
def hgSetPcnt (d : QWord) (x : Nat) : QWord := (d &&& ~~~ (0xFF#128 <<< (104 : Nat))) ||| (BitVec.ofNat 128 (x % 256) <<< (104 : Nat))
def hgSetAcnt (d : QWord) (x : Nat) : QWord := (d &&& ~~~ (0xFFFF#128 <<< (112 : Nat))) ||| (BitVec.ofNat 128 (x % 65536) <<< (112 : Nat))

/-- The window check of R244 on words. -/
def State.fitsWindow (s : State) (is : List (Instr × Alu)) : Bool := is.all fun i => (s.team.windowFail i.2.regs).isNone

/-- The mask word that the next comparison takes (R246). -/
def Team.compareWord (tm : Team) (made : Nat) : Nat :=
  let ws := wordsOf tm.actives
  ((upList 0 32).map fun k => (made + k) % 32).find? (fun w => decide (w ∈ ws)) |>.getD 0

/-- The two runs of an execution agree on every active thread of its mask word: values, predicates and the thread's own event counts (R246). -/
def State.agrees (s : State) (r : Region) (a b : List (Instr × Alu)) (made : Nat) : Bool :=
  let w := s.team.compareWord made
  (s.team.actives.filter fun t => t / 32 == w).all fun t =>
    let tm := s.team.onlyThreads [t]
    decide (outcome r t (shadowRun s.blk.bix tm a) = outcome r t (shadowRun s.blk.bix tm b))

/-- The entry notes that a block's team issues candidate words (R250). -/
def Hinge.used (h : Hinge) (cslot bix : Nat) : Hinge :=
  let h := { h with ran := if cslot ∈ h.ran then h.ran else h.ran ++ [cslot] }
  if bix ∈ h.blocks then h else if h.blocks.length < 4 then { h with blocks := h.blocks ++ [bix] } else { h with more := true }

/-- The original runs, and this execution is decided. -/
def State.original (s : State) : State := { s with team := { s.team with decided := some s.team.pc } }

/-- A comparison of this execution begins (R246). -/
def State.compare (s : State) (e : Nat) (h : Hinge) (audit clean : Bool) : State :=
  let h := { h with made := h.made + 1, pending := h.pending ++ [{ team := s.team.key, audit := audit, clean := clean }] }
  { s with core := { s.core with hinges := tput {} s.core.hinges e h } }

/-- The candidate's words issue in place of the region, also of its words that are queued (R245, R250). -/
def State.substitute (s : State) (e : Nat) (h : Hinge) (r : Region) (fire : Hinge → State → State) : State :=
  let h := h.used s.team.cslot s.blk.bix
  let s := fire h (s.putHinge e h)
  { s with team := { s.team with
      cand := some { words := h.text, entry := s.team.pc, regionEnd := s.team.pc + 4 * r.words.length }, decided := some s.team.pc, queue := [] } }

/-- This execution of a region's own words is hinged (R245). -/
def State.onProbation (s : State) (r : Region) : State :=
  { s with team := { s.team with probation := some (s.team.pc, s.team.pc + 4 * r.words.length) } }

/-- The hinge decision at a region's first word (R244). An audit raises ACNT, then waits while the shadow context is busy; ACNT at or above 2^FRQA is an audit (log 36). A Helolo debugger holds every team of a launch to which it is attached: no rule says when a debugger holds a team (log 36). -/
def execHingeDecision (t : Nat) (s0 : State) : Out :=
  let s := s0.focus t
  match s.hingeHere with
  | none => .next s0
  | some (e, h) =>
    if s.team.key ≠ t ∨ s.team.threads = 0 ∨ !s.decides then .next s0
    else if s.team.execZero ∨ s.team.shadowOpen ∨ s.launch.debugger ∨ s.launch.optedOut then .next s.original
    else match s.regionAt (hgStart h.desc), regionWords h.text with
      | some r, some cand =>
        if !s.fitsWindow r.words ∨ !s.fitsWindow cand then .next s.original
        else if (r.admits h.text).isNone ∨ r.words.length ≠ hgOlen h.desc + 1 then
          .next (s.putHinge e { h with desc := hgSetState h.desc 0 }).original
        else if hgState h.desc = 1 then
          if s.core.comparing then .next (s.original.onProbation r)
          else .next ((s.compare e h false (s.agrees r cand r.words h.made)).original.onProbation r)
        else
          let held := decide (s.team.auditHeld = some s.team.pc)
          let n := if held then hgAcnt h.desc else min (hgAcnt h.desc + 1) 0xFFFF
          let h' := { h with desc := hgSetAcnt h.desc n }
          if !held && decide (n < 2 ^ s.launch.frqa) then .next (s.substitute e h' r fun _ s => s)
          else if s.core.comparing then
            .next { s.putHinge e h' with team := { s.team with auditHeld := some s.team.pc } }
          else .next (s.substitute e h' r fun h s => s.compare e h true (s.agrees r cand r.words h.made))
      | _, _ => .next (s.putHinge e { h with desc := hgSetState h.desc 0 }).original

/-! ### Comparisons and escapes (R247 to R250) -/

/-- The escape record (R250). -/
def escapeRec (core e : Nat) (l : Launch) (h : Hinge) (open_ : Bool) : List Word :=
  let pc := l.code.textOff + 4 * hgStart h.desc
  [BitVec.ofNat 32 (2 ^ 31 + 7 * 2 ^ 28 + 3 * 2 ^ 22 + e * 2 ^ 18 + l.world % 64 * 2 ^ 12 + dieOf core * 2 ^ 10
      + core % Config.coresPerDie / 8 * 2 ^ 5 + core % 8 * 4),
   codeWord l.code pc, ordWord l.code pc,
   if open_ then BitVec.ofNat 32 ((if h.more then 2 ^ 30 else 0) + hgAcnt h.desc) else 0]
  ++ (upList 0 4).map fun k => if open_ then BitVec.ofNat 32 (h.blocks.getD k 0x7FFFFFFF % 2 ^ 31) else 0x7FFFFFFF#32

/-- An escape (R249, R250): its record and interrupt, the withdrawal, and the launch's response. -/
def State.escape (s : State) (core e : Nat) (h : Hinge) : State :=
  let l := (s.getLaunch h.launchUid).getD {}
  let prot := s.protectedLaunch l
  let (s, b) := s.putRec l s.hub.frequelLog s.hub.frequelLog.mode (escapeRec core e l h (!prot))
  let s := { s with hub := { s.hub with frequelLog := b, msix := s.hub.msix ++ [2] } }
  let s := if prot then
      (s.recWords l true (BitVec.ofNat 64 (l.capture + 8192 * core + 0x1000 + 32 * e)) 0 (escapeRec core e l h true)).getD (s.noteWalk l ((upList 0 8).map fun i => l.capture + 8192 * core + 0x1000 + 32 * e + 4 * i))
    else s
  let s := s.modCore core fun c => { c with hinges := tput {} c.hinges e { h with desc := hgSetState h.desc 0 } }
  if l.pol = 1 then
    s.mapTeams fun tm => if tm.coreId = core ∧ tm.kind = .team ∧ tm.launchUid = l.uid ∧ tm.cslot ∈ h.ran then { tm with escapes := tm.escapes ++ [e] } else tm
  else if l.pol = 2 then
    s.failLaunch l.uid (classCode .escape) .escape2 core (ordOf l.code (l.code.textOff + 4 * hgStart h.desc)) 0
  else s

/-- The oldest pending comparison of a hinge entry completes, where it may run (R205, R246 to R249). A withdrawn entry's comparisons decide nothing. -/
def execShadowComparison (core e : Nat) (s : State) : Out :=
  let c := s.getCore core
  let h := tget {} c.hinges e
  match h.pending with
  | [] => .next s
  | x :: rest =>
    let h := { h with pending := rest }
    let put := fun (h : Hinge) => s.modCore core fun c => { c with hinges := tput {} c.hinges e h }
    if !s.mayCompare x then .next s
    else if hgState h.desc = 0 then .next (put h)
    else if x.audit then
      if x.clean then .next (put { h with desc := hgSetAcnt h.desc 0, blocks := [], more := false, ran := [] })
      else .next ((put h).escape core e h)
    else if !x.clean then .next (put { h with desc := hgSetState h.desc 0 })
    else
      let n := min (hgPcnt h.desc + 1) 255
      let d := hgSetPcnt h.desc n
      let frqp := ((s.getLaunch h.launchUid).getD {}).frqp
      .next (put { h with desc := if frqp ≤ n ∧ rest = [] then hgSetState d 2 else d })

end Sys2Proof.Machine
end

