-- ==== Sys2Proof/Machine/Loader.lean ====
section
/-! DEFINITION. The loader (R55, R61 to R66, R199): what it accepts of a code object, and the object as the hub keeps it. -/

namespace Sys2Proof.Machine

/-- Word at byte offset `a` of an image (R61). -/
def imgWord (img : List Byte) (a : Nat) : Nat := leNat ((img.drop a).take 4)

/-- Header word `k` (R62). -/
def hdr (img : List Byte) (k : Nat) : Nat := imgWord img (4 * k)
/-- Word `k`, 8 to 15, of kernel descriptor `i` (R63). -/
def kdWord (img : List Byte) (i k : Nat) : Nat := imgWord img (64 + 64 * i + 4 * k)
/-- Word `k` of safe-point entry `i` (R64). -/
def spWord (img : List Byte) (i k : Nat) : Nat := imgWord img (hdr img 7 + 28 * i + 4 * k)

/-- The parts of an object, as first byte and end (R61). -/
def imgParts (img : List Byte) : List (Nat × Nat) :=
  let p := fun (o n : Nat) => (o, o + n)
  [p 0 64, p 64 (64 * hdr img 2), p (hdr img 3) (hdr img 4), p (hdr img 5) (hdr img 6), p (hdr img 7) (28 * hdr img 8),
   p (hdr img 9) (72 * hdr img 10)]

/-- Two parts share a byte. -/
def partsMeet (a b : Nat × Nat) : Bool := decide (max a.1 b.1 < min a.2 b.2)

/-- No two parts of a list share a byte. -/
def partsApart : List (Nat × Nat) → Bool
  | [] => true
  | p :: ps => ps.all (fun q => !partsMeet p q) && partsApart ps

/-- A text byte offset that names a word of the text (R66). -/
def namesWord (img : List Byte) (o : Nat) : Bool := o % 4 == 0 && decide (o + 4 ≤ hdr img 4)

/-- The name bytes of kernel descriptor `i` (R63). -/
def kdName (img : List Byte) (i : Nat) : List Byte := (img.drop (64 + 64 * i)).take 32

/-- A name of at most 31 characters, padded with NULs to the field's end (R55, R63). -/
def nameOk (n : List Byte) : Bool := n.getLast? == some 0 && (n.dropWhile fun c => c != 0).all fun c => c == 0

/-- The ordinal of the first safe point at or after a text byte offset (R60, R63). -/
def ordFrom (img : List Byte) (o : Nat) : Nat := ((upList 0 (hdr img 8)).filter fun i => decide (4 * bitsOf (spWord img i 1) 23 0 < o)).length

/-- A kernel descriptor within R55's limits, its offsets naming words and its first ordinal that of its first safe point (R63, R66). -/
def kernelOk (img : List Byte) (i : Nat) : Bool :=
  let w := kdWord img i
  namesWord img (w 8) && (1 ≤ w 9 && w 9 ≤ 1024) && (1 ≤ w 10 && w 10 ≤ 16) && (8 ≤ w 11 && w 11 ≤ 1024 && w 11 % 8 == 0)
    && decide (w 9 * w 11 ≤ 65536) && (decide (w 12 ≤ Config.spadBytes) && w 12 % 256 == 0)
    && (w 13 == 0xFFFFFFFF || namesWord img (w 13)) && (w 14 == 0xFFFFFFFF || namesWord img (w 14))
    && w 15 == ordFrom img (w 8) && nameOk (kdName img i)

/-- A safe-point entry: ordinals in sequence, offsets rising, reserved fields 0 (R64, R66). -/
def safePointOk (img : List Byte) (i : Nat) : Bool :=
  let w := spWord img i
  w 0 == i && namesWord img (4 * bitsOf (w 1) 23 0) && bitsOf (w 1) 31 29 == 0 && bitsOf (w 4) 31 31 == 0 && bitsOf (w 6) 31 4 == 0
    && (i == 0 || decide (bitsOf (spWord img (i - 1) 1) 23 0 < bitsOf (w 1) 23 0))

/-- The loader accepts the object (R66). -/
def imageOk (img : List Byte) : Bool :=
  hdr img 0 == 0x4E474F31 && hdr img 1 == 1 && (upList 11 5).all (fun k => hdr img k == 0)
    && (1 ≤ hdr img 2 && hdr img 2 ≤ 256)
    && (imgParts img).all (fun p => decide (p.2 ≤ img.length)) && partsApart (imgParts img)
    && (upList 0 (hdr img 2)).all (kernelOk img) && (upList 0 (hdr img 8)).all (safePointOk img)

/-- Word `k` of the text. -/
def textWord (img : List Byte) (k : Nat) : Word := BitVec.ofNat 32 (imgWord img (hdr img 3 + 4 * k))

/-- A word that claims the engine set: one that decodes to a `lat.*`, `cp`, `fork`, `join` or `mx.*` (R199). -/
def claimWord (w : Word) : Bool :=
  match decode w with
  | some (.latInit _ _) | some (.latArr _) | some (.latWait _ _) | some (.latArw _) | some (.latGen _ _) => true
  | some (.cp _ _ _) | some (.fork _) | some (.join _) => true
  | some (.mxPrec _ _) | some (.mxLdb _ _) | some (.mxMm _ _) | some (.mxSt _ _) | some (.mxZero _ _) | some (.mxPost _ _ _ _) => true
  | _ => false

/-- The first text byte of kernel `i`: its first word, or a stream of its own that stands before it (R55, R63). -/
def kernelStart (img : List Byte) (i : Nat) : Nat := min (kdWord img i 8) (min (kdWord img i 13) (kdWord img i 14))

/-- Kernel `i` of an object: its text, streams included, runs to the next kernel's first byte (R63, R199). -/
def kernelOf (img : List Byte) (i : Nat) : Kernel :=
  let w := kdWord img i
  let first := kernelStart img i
  let stop := (((upList 0 (hdr img 2)).map (kernelStart img)).filter fun o => decide (first < o)).foldl min (hdr img 4)
  let stream := fun (o : Nat) => if o = 0xFFFFFFFF then none else some o
  { name := kdName img i, entry := w 8, team := w 9, block := w 10, regs := w 11, scratch := w 12, mxStream := stream (w 13),
    cpStream := stream (w 14), firstOrd := w 15, claims := (upList (first / 4) ((stop - first) / 4)).any fun k => claimWord (textWord img k) }

/-- Safe-point entry `i` (R64). -/
def safePointOf (img : List Byte) (i : Nat) : SafePoint :=
  let w := spWord img i
  { off := bitsOf (w 1) 23 0, branchTarget := bitsOf (w 1) 24 24 == 1, loopHead := bitsOf (w 1) 25 25 == 1,
    explicit := bitsOf (w 1) 26 26 == 1, inserted := bitsOf (w 1) 27 27 == 1, excluded := bitsOf (w 1) 28 28 == 1,
    liveV := w 2 + w 3 * 2 ^ 32 + bitsOf (w 4) 23 0 * 2 ^ 64, liveS := w 5 + bitsOf (w 6) 3 0 * 2 ^ 32, liveP := bitsOf (w 4) 30 24 }

/-- The object as the hub keeps it: in the handle space `owner`, with the text offsets at which its streams end. -/
def codeObjOf (img : List Byte) (owner : Option Nat) (handle base : Nat) (ends : List Nat) : CodeObj :=
  { owner := owner, handle := handle, base := base, textOff := hdr img 3, textBytes := hdr img 4, image := img, streamEnds := ends,
    kernels := (upList 0 (hdr img 2)).map (kernelOf img), safePoints := (upList 0 (hdr img 8)).map (safePointOf img) }

/-- The loader takes a code object for a world (R66): it stands in main memory from `phys` on, reached from global offset `base`, and its handle lies in the world's own space where the world is protected (R229, R278). No byte of it may fall on a page of Tumbler's (R272). A rejected object changes nothing. -/
def execCodeObjectLoad (name : ObjectName) (base phys : Nat) (file : ObjectFile) (s : State) : Out :=
  let image := file.bytes
  if 2 ^ 15 ≤ name.handle ∨ base % 65536 ≠ 0 ∨ phys % 65536 ≠ 0 ∨ Config.memBytes < phys + image.length ∨ !imageOk image
      ∨ tget .free s.tumbler.worlds name.world = .free
      ∨ (upList (phys / 65536) ((image.length + 65535) / 65536)).any (s.pm s.pkg).isMeta then .next s
  else
    let s := image.zipIdx.foldl (fun s b => s.homeWrite s.pkg (phys + b.2) b.1 (2 ^ 32) 0) s
    let o := s.handleSpace name.world
    .next { s with hub := { s.hub with
      codeObjs := s.hub.codeObjs.filter (fun c => decide (c.owner ≠ o) || c.handle != name.handle) ++ [codeObjOf image o name.handle base file.ends] } }

end Sys2Proof.Machine
end

