-- ==== Sys2Proof/Machine/Helolo.lean ====
section
/-! DEFINITION. Helolo (R252 to R261, R265, R266): breakpoints, debugger requests, descriptors of buffers and watches, and snapshots. -/

namespace Sys2Proof.Machine

/-! ### Breakpoints (R256, R257) -/

/-- Fields of a breakpoint entry (R256). -/
def bpHandle (e : BitVec 64) : Nat := bitsOf e.toNat 63 49
def bpAct (e : BitVec 64) : Nat := bitsOf e.toNat 48 47
def bpTrig (e : BitVec 64) : Bool := e.getLsbD 46
def bpEn (e : BitVec 64) : Bool := e.getLsbD 45
def bpOrd (e : BitVec 64) : Nat := bitsOf e.toNat 30 0

/-- The entries that the running team's word hits and has not hit yet (R257). -/
def State.bpHits (s : State) : List (Nat × BitVec 64) :=
  if s.protectedLaunch s.launch || !s.atSafe then []
  else s.launch.bps.filter fun e => bpEn e.2 && bpHandle e.2 == s.launch.code.handle % 32768
    && bpOrd e.2 == ordOf s.launch.code s.team.pc && decide (e.1 ∉ s.team.hitBps)

/-- Ask teams to stop, those of saved gangs too, which meet the request when they are restored (R257). -/
def State.stopWhere (s : State) (f : Team → Bool) (c : StopCause) : State :=
  let ask := fun (tm : Team) => if f tm then tm.requestStop c else tm
  ({ s with saved := s.saved.map fun g => { g with teams := g.teams.map ask } } : State).mapTeams ask

/-- One entry's action (R257): stop the team, its block or its launch, or a record alone. -/
def State.bpAction (s : State) (e : Nat × BitVec 64) : State :=
  let s := if bpTrig e.2 then s.fireSnapshot else s
  let c := StopCause.breakpoint e.1
  let tm := s.team
  match bpAct e.2 with
  | 0 => { s with team := s.team.requestStop c }
  | 1 => s.stopWhere (fun x => x.blkKey == tm.blkKey) c
  | 2 => s.stopWhere (fun x => x.launchUid == tm.launchUid) c
  | _ => s.stopRecords { tm with stops := [c] }

/-- The front-end reaches a safe point that matches enabled entries (R257). -/
def execBreakpointHit (t : Nat) (s0 : State) : Out :=
  let s := s0.focus t
  if s.team.key ≠ t ∨ !s.team.ready then .next s0
  else
    let hits := s.bpHits
    let s := hits.foldl State.bpAction s
    .next { s with team := { s.team with hitBps := s.team.hitBps ++ hits.map (·.1) } }

/-! ### The debug port -/

/-- The debug port asks a team to stop (R258). -/
def execDebugStopRequest (t : Nat) (s : State) : Out :=
  match s.getTeam t with
  | none => .next s
  | some tm => if s.protectedLaunch ((s.getLaunch tm.launchUid).getD {}) then .next s else .next (s.setTeam (tm.requestStop .debugPort))

/-- The debugger resumes a stopped team, wherever it has been restored to: its resume word does not hit the same entries again until another word has issued (R257). A team that pre-emption holds stays stopped, and a team of a protected world is out of reach (R252). -/
def execDebuggerResume (t : Nat) (s : State) : Out :=
  match s.getTeam t with
  | none => .next s
  | some tm =>
    if s.protectedLaunch ((s.getLaunch tm.launchUid).getD {}) then .next s
    else .next (s.setTeam { tm with hitAt := if tm.hitBps = [] then none else some tm.pc, held := false, stopped := tm.stopped && decide (StopCause.preempt ∈ tm.stops) })

/-- The launch has been accepted and has not ended. -/
def Launch.alive (l : Launch) : Bool := decide (l.status = .accepted) || decide (l.status = .running)

/-- A debugger attaches to a launch of a world that is not protected (R252, R258). -/
def execDebuggerAttach (l : Nat) (s : State) : Out :=
  match s.getLaunch l with
  | none => .next s
  | some x => if x.alive && !s.protectedLaunch x then .next (s.setLaunch { x with debugger := true }) else .next s

/-- A debugger leaves a launch (R258). -/
def execDebuggerDetach (l : Nat) (s : State) : Out := .next (s.modLaunch l fun x => { x with debugger := false })

/-! ### Descriptors (R254, R259) -/

/-- What a descriptor write leaves (R254). Any BASE is kept as written, and its OFFSET is what the buffer uses (log 37). -/
def HBuf.write (b : HBuf) (d : QWord) : HBuf :=
  let n := d.toNat
  if bitsOf n 5 2 = 15 ∨ bitsOf n 7 7 ≠ 0 then b
  else
    let en := bitsOf n 0 0 == 1
    let b' : HBuf := { b with base := d.extractLsb' 64 64, sizel := bitsOf n 5 2, mode := bitsOf n 1 1 == 1, en := en }
    if en && !b.en then { b' with wptr := 0, lost := 0, wraps := 0, fault := false, dropping := false }
    else { b' with dropping := b.dropping && en }

/-- The host writes a buffer's descriptor (R254). -/
def execBufferDescriptorWrite (b : BufRef) (d : QWord) (s : State) : Out :=
  match b with
  | .sample c q =>
    if Config.cores ≤ c ∨ 4 ≤ q then .next s
    else .next { s with hub := { s.hub with sampleBufs := tput {} s.hub.sampleBufs (4 * c + q) ((tget {} s.hub.sampleBufs (4 * c + q)).write d) } }
  | .debug l => .next (s.modLaunch l fun x => { x with debugBuf := x.debugBuf.write d })
  | .replay l => .next (s.modLaunch l fun x => { x with replayBuf := x.replayBuf.write d })
  | .frequelLog => .next { s with hub := { s.hub with frequelLog := s.hub.frequelLog.write d } }

/-- A watch entry that R259 accepts. -/
def watchOk (d : QWord) : Bool :=
  bitsOf d.toNat 63 48 == 0 && bitsOf d.toNat 31 7 == 0 && watchAct d != 3 && watchKind d != 0 && decide (ptrSpace (watchBase d) ≤ 2)

/-- The debugger writes a watch entry; an entry that R259 refuses changes nothing. -/
def execWatchEntryWrite (launch k : Nat) (d : QWord) (s : State) : Out :=
  if 8 ≤ k ∨ !watchOk d then .next s else .next (s.modLaunch launch fun l => { l with watches := tput 0 l.watches k d })

/-! ### Snapshots (R265, R266) -/

/-- A debug-port request fires the trigger (R266). -/
def execSnapshotTrigger (s : State) : Out := .next s.fireSnapshot

/-- The debug port writes ARM and DONE (R266). -/
def execSnapshotArmWrite (arm done : Bool) (s : State) : Out := .next { s with hub := { s.hub with armed := arm, snapDone := done } }

/-- The two words of a team in a snapshot set (R265). A cause inside the cycle is a free value, as a sample's is the sample's own (log 34). -/
def State.snapTeam (s : State) (tm : Team) : List Word :=
  let s := s.focus tm.key
  let c := s.launch.code
  let others := (tvals s.teamTbl).filter fun o => decide (o.kind = .team) && o.coreId == tm.coreId && o.qtr == tm.qtr && o.slot != tm.slot
  let rp := (tget {} s.core.quarters tm.qtr).rp
  let r := s.reason (decide (rp = tm.slot)) (others.any fun o => o.slot == rp) (Config.cycleCause s.freeCount tm.key) (others.filter s.passReady)
  [ordWord c tm.sampledPc, BitVec.ofNat 32 (2 ^ 31 + distOf c tm.sampledPc % 256 * 2 ^ 20 + r * 2 ^ 15 + tm.cslot * 2 ^ 9)]

/-- A block's snapshot set at a latch tick (R265). -/
def State.snapOf (s : State) (tick : BitVec 64) (b : Block) : List Word :=
  let ts := s.teamsOf b.key
  [loWord tick, hiWord tick, BitVec.ofNat 32 b.bix, mxstat b, BitVec.ofNat 32 b.mxprog, BitVec.ofNat 32 b.cpprog]
  ++ ((upList 0 32).map fun l => let x := tget {} b.latches l; x.gen ++ x.exp ++ x.arr)
  ++ (upList 0 16).flatMap fun j => match ts.find? fun t => t.index == j with
    | some t => s.snapTeam t
    | none => [0, 0]

/-- The latch tick of a firing (R266): the first tick at least 128 ns after it, once TIME has reached it. -/
def State.latchTick (s : State) : Option (BitVec 64) :=
  match s.hub.firing with
  | some f => if 128 ≤ (s.time - f).toNat then some (f + 128) else none
  | none => none

/-- A firing's latch tick (R266): every resident block's set, ARM and DONE, and a marker in each launch's debug buffer. Blocks and launches of protected worlds are left alone (R252). -/
def execSnapshotLatch (s : State) : Out :=
  match s.latchTick with
  | none => .next s
  | some tick =>
    let hidden := fun (uid : Nat) => s.protectedLaunch ((s.getLaunch uid).getD {})
    let sets := ((tvals s.blkTbl).filter fun b => !hidden b.launchUid).map fun b => (b.key, s.snapOf tick b)
    let live := (tvals s.launchTbl).filter fun l => l.alive && !s.protectedLaunch l
    let s := sets.foldl (fun s x => s.modBlk x.1 fun b => { b with snap := x.2 }) s
    let s := live.foldl (fun s l => s.debugRec l.uid [header 1 6 0, BitVec.ofNat 32 (tick.toNat % 2 ^ 31)]) s
    .next { s with hub := { s.hub with armed := false, snapDone := true, firing := none } }

/-- A latch whose tick TIME has just passed is taken before anything else happens (R266; log 37). -/
def State.latchNow (s : State) : State := stateAfter (execSnapshotLatch s) s

end Sys2Proof.Machine
end

