-- ==== Sys2Proof/Machine/HostRegs.lean ====
section
/-! DEFINITION. Host registers (R42, R279, R287, R293 to R295, R377) and the illegal word (R78). -/

namespace Sys2Proof.Machine

/-! ### Token queues (R377) -/

/-- A host write to TQINq: the token enters the queue, or sets DROP. -/
def execTqinWrite (q : Nat) (payload : BitVec 26) (s : State) : Out :=
  if Config.queues ≤ q then .next s
  else if (tget {} s.hub.tokenQueues q).tokens.length < 255 then
    .next (s.addToken q { word := BitVec.ofNat 32 (q * 2 ^ 26 + payload.toNat), core := none }).wakeAll
  else .next (s.modQueue q fun k => { k with drop := true })

/-- A host read of TQTAKEq: the oldest token not promised to a waiter, which leaves the queue; all ones when there is none. -/
def execTqtakeRead (q : Nat) (s : State) : Out :=
  let k := tget {} s.hub.tokenQueues q
  match k.tokens[k.waiters.length]? with
  | none => .next { s with hub := { s.hub with hostRead := 0xFFFFFFFF } }
  | some t =>
    let s := s.modQueue q fun k => { k with tokens := k.tokens.eraseIdx k.waiters.length }
    .next ({ s with hub := { s.hub with hostRead := t.word } }).wakeAll

/-- TQSTATq as the host reads it (R377). -/
def State.tqstat (s : State) (q : Nat) : Word :=
  let k := tget {} s.hub.tokenQueues q
  let sigw := (tvals s.teamTbl).any fun t => match t.parked with
    | some (.qSend p _ _) => p == q
    | _ => false
  BitVec.ofNat 32 ((if k.notify then 2 ^ 31 else 0) + (if k.drop then 512 else 0) + (if sigw then 256 else 0) + k.tokens.length)

/-! ### Power and link registers -/

/-- A host write to PCAP (R293): clamped to the ceiling, with CEIL telling whether it was. -/
def execPcapWrite (v : BitVec 12) (s : State) : Out :=
  .next { s with power := { s.power with pcap := min v.toNat Config.powerCeiling, ceil := decide (Config.powerCeiling < v.toNat) } }

/-- PWRSTAT as the host reads it (R295). -/
def State.pwrstat (s : State) : Word :=
  BitVec.ofNat 32 ((if s.dies.any fun d => d.2.flux then 8 else 0) + (if s.power.breach then 4 else 0) + (if s.power.floor then 2 else 0)
    + (if s.power.ceil then 1 else 0))

/-- Link `k`. -/
def State.link (s : State) (k : Nat) : Link := tget {} s.links k
/-- Change a link. -/
def State.modLink (s : State) (k : Nat) (f : Link → Link) : State :=
  if linkCount ≤ k then s else { s with links := tput {} s.links k (f (s.link k)) }
/-- Raise an MSI-X vector (R280). -/
def State.raise (s : State) (v : Nat) : State := { s with hub := { s.hub with msix := s.hub.msix ++ [v] } }

/-- An unacknowledged packet's store is lost with its link: the launch fails (R286), with the pointer of the store's lowest thread. -/
def State.loseStore (s : State) (c : Carried) : State :=
  match c with
  | .nothing => s
  | .store t tag => match s.getTeam t with
    | none => s
    | some tm => match tm.inflight.find? fun a => a.tag == tag && decide (a.kind = .store) && decide (Path.x ∈ a.paths) && !a.doneOn .x with
      | none => s
      | some a => s.failLaunch tm.launchUid (classCode .memError) .uncorrectable tm.coreId
          (ordOf ((s.getLaunch tm.launchUid).getD {}).code a.pc) a.ptr

/-- A link goes down (R285, R286): vector 4, and the stores that its unacknowledged packets carry are lost. Sequence numbers, the last acknowledgement, the receiver's buffers and the pauses stay as they are for the link's next training, and the numbers of the lost packets are not used again: no rule says what they hold then (log 38). -/
def State.linkFalls (s : State) (k : Nat) : State :=
  let lost := (s.link k).replayBuf
  let s := (s.modLink k fun l => { l with up := false, width := 0, recovering := false, otherAck := none, farFailed := [], doomed := false,
                                          deg := true, replayBuf := [], toResend := [] }).raise 4
  lost.foldl (fun s x => s.loseStore x.carries) s

/-- All 16 lanes train again: no data moves meanwhile (R285). -/
def Link.train (l : Link) : Link := { l with training := true, recovering := false, otherAck := none, farFailed := [] }

/-- RETRAIN is written with 1 (R285): the link trains. A link that has failed accesses, and so is going down, goes down first (R286). -/
def State.retrain (s : State) (k : Nat) : State := (if (s.link k).doomed then s.linkFalls k else s).modLink k Link.train

/-- The clusters of a partition's mask (R294). -/
def partMask (p : QWord) : Nat := bitsOf p.toNat 71 0

/-- A host write to a register that has no other step (R42, R217, R232, R256, R267, R275, R276, R287, R292 to R295, R377). The spec gives a CQBASE that is not 4 KiB aligned no effect of its own: it is stored and used as written (log 43). IDLEFLOOR is read-only: its write is the measurement at boot, once (R293). A cluster's level cap is the host's unless the controller has lowered it: then it follows a host cap below it at once, and one above it by the controller's steps (R80, R292; log 26). -/
def execRegisterWrite (r : BarReg) (v : QWord) (s : State) : Out :=
  let n := v.toNat
  let bit := fun (k : Nat) => bitsOf n k k == 1
  match r with
  | .cqbase q => if Config.queues ≤ q then .next s else
      .next { s with hub := { s.hub with queues := tput {} s.hub.queues q { tget {} s.hub.queues q with base := v.setWidth 64 } } }
  | .cqsize q => if Config.queues ≤ q then .next s else
      .next { s with hub := { s.hub with queues := tput {} s.hub.queues q { tget {} s.hub.queues q with size := BitVec.ofNat 32 (n % 32) } } }
  | .tqstat q => if Config.queues ≤ q then .next s else
      .next (s.modQueue q fun k => { k with notify := bit 31, drop := k.drop && !bit 9 })
  | .frqh => if n = 0 ∨ 65535 < n then .next s else .next { s with hub := { s.hub with frqh := n } }
  | .evlane k lane => .next (s.modLink k fun l =>
      if 16 ≤ lane then l else { l with lanes := tput {} l.lanes lane { tget {} l.lanes lane with warn := (tget {} l.lanes lane).warn && !bit 2 } })
  | .evlink k =>
    let s := s.modLink k fun l => { l with warn := l.warn && !bit 3, deg := l.deg && !bit 2 }
    .next (if bit 1 && decide (k < linkCount) then s.retrain k else s)
  | .evwarn => .next { s with evwarn := BitVec.ofNat 32 (n % 2 ^ 32 / 16 * 16) }
  | .fluxlim => .next { s with power := { s.power with fluxlim := min (n % 256) Config.fluxCeiling } }
  | .dieCap d => if 4 ≤ d then .next s else .next (s.modDie d fun x => { x with cap := min n Config.dieCeiling })
  | .levelCap k => if Config.clusters ≤ k then .next s else
      .next (s.modCluster k fun c => { c with hostCap := n % 16, cap := if c.cap = c.hostCap then n % 16 else min c.cap (n % 16) })
  | .partition k =>
    let p := BitVec.ofNat 128 (n % 2 ^ 84)
    if 8 ≤ k ∨ s.power.partitions.any (fun e => e.1 != k && partMask e.2 &&& partMask p != 0) then .next s
    else .next { s with power := { s.power with partitions := tput 0 s.power.partitions k p } }
  | .pwrstat => .next { s with power := { s.power with breach := s.power.breach && !bit 2, floor := s.power.floor && !bit 1 } }
  | .breakpointEntry l k =>
    if 64 ≤ k then .next s
    else .next (s.modLaunch l fun x => { x with bps := tput 0 x.bps k (BitVec.ofNat 64 (n % 2 ^ 64 / 2 ^ 45 * 2 ^ 45 + n % 2 ^ 31)) })
  | .bootFloor => if s.power.booted then .next s else .next { s with power := { s.power with idleFloor := n % 4096, booted := true } }
  | .inputRange k => if 16 ≤ k then .next s else .next { s with hub := { s.hub with inputRanges := tput 0 s.hub.inputRanges k v } }
  | .ideStream => .next { s with tumbler := { s.tumbler with ideStream := BitVec.ofNat 8 (n % 256) } }

/-- EVLANE as the host reads it (R287). -/
def Lane.word (l : Lane) : Word :=
  BitVec.ofNat 32 (l.eyeh.toNat * 2 ^ 24 + l.eyew.toNat * 2 ^ 16 + l.corr.toNat * 16 + (if l.fail then 8 else 0) + (if l.warn then 4 else 0))

/-- EVLINK as the host reads it (R287). -/
def Link.word (l : Link) : Word :=
  BitVec.ofNat 32 (l.replays * 2 ^ 16 + l.tempc.toNat * 256 + l.width * 64 + l.seg * 16 + (if l.warn then 8 else 0) + (if l.deg then 4 else 0)
    + (if l.training then 2 else 0) + (if l.up then 1 else 0))

/-! ### The illegal word (R78) -/

/-- A word that no encoding admits, or that the context may not execute: a no-op while EXEC is zero, else the illegal-instruction trap. It is a rendezvous, so every outstanding result is written first (R25); as a no-op it takes one issue cycle, of which no rule speaks (log 43). -/
def execIllegalWord (w : Word) (s : State) : Out :=
  let s := { s with team := s.team.flush }
  if s.team.kind = .team ∧ s.team.execZero then .next (s.finish 1) else .next (s.illegal (bitsOf w.toNat 30 25) false)

end Sys2Proof.Machine
end

