-- ==== Sys2Proof/Machine/Links.lean ====
section
/-! DEFINITION. Eveno links as this package sees them (R281 to R287): sequencing and replay, flow control, recovery, training and telemetry. -/

namespace Sys2Proof.Machine

/-! ### Training -/

/-- Writing 1 to EVLINK.RETRAIN (R285). -/
def execRetrain (link : Nat) (s : State) : Out := .next (if link < linkCount then s.retrain link else s)

/-- Training ends (R285): all 16 lanes carry data again. A link that was down goes on with the sequence numbers, acknowledgements, receiver buffers and pauses that it had, of which no rule speaks (log 38). -/
def execRetrainComplete (link : Nat) (s : State) : Out :=
  .next (s.modLink link fun l =>
    if !l.training then l
    else { l with training := false, up := true, width := 3, seg := 0, lanes := l.lanes.foldl (fun t (e : Nat × Lane) => tput {} t e.1 { e.2 with fail := false }) [] })

/-! ### The receiver (R283, R284) -/

/-- The receiver sends a control flit. -/
def Link.emit (l : Link) (f : CtlFlit) : Link := { l with sent := l.sent ++ [f] }

/-- An acknowledgement of everything up to the last accepted packet. -/
def Link.sendAck (l : Link) : Link := { l.emit (.ack l.rxLast) with sinceAck := 0 }

/-- A packet enters the receiver's buffer: PAUSE, with the ACK, when the free space falls below its level (R284). -/
def Link.fillRx (l : Link) (vc flits : Nat) : Link :=
  let used := tget 0 l.rxUsed vc + flits
  let l := { l with rxUsed := tput 0 l.rxUsed vc used }
  if Config.rxFlits - used < Config.pauseBelow ∧ vc ∉ l.rxPaused then { l.emit (.pause vc l.rxLast) with rxPaused := l.rxPaused ++ [vc] } else l

/-- The receiver takes flits out of its buffer: RESUME when the free space reaches its level (R284). -/
def Link.drainRx (l : Link) (vc flits : Nat) : Link :=
  let used := tget 0 l.rxUsed vc - flits
  let l := { l with rxUsed := tput 0 l.rxUsed vc used }
  if Config.resumeAt ≤ Config.rxFlits - used ∧ vc ∈ l.rxPaused then { l.emit (.resume vc l.rxLast) with rxPaused := l.rxPaused.filter (· ≠ vc) } else l

/-! ### The sender (R283) -/

/-- Sequence number `x` lies at or before `y`, modulo 2^32 (R283). -/
def seqLe (x y : BitVec 32) : Bool := decide ((y - x).toNat < 2 ^ 31)

/-- A cumulative acknowledgement up to `seq` (R283): the packets it covers leave the replay buffer. -/
def Link.acknowledge (l : Link) (seq : BitVec 32) : Link :=
  if seqLe l.acked seq && seqLe seq (l.nextSeq - 1) then
    { l with acked := seq, replayBuf := l.replayBuf.filter fun x => !seqLe x.seq seq, toResend := l.toResend.filter fun x => !seqLe x.seq seq }
  else l

/-- Every unacknowledged packet is sent again, in order (R283): one replay episode. -/
def Link.resend (l : Link) : Link :=
  if l.replayBuf.isEmpty then l else { l with toResend := l.replayBuf, replays := min (l.replays + 1) 0xFFFF }

/-- The sender sends (R283): first, in order, what it must resend; with nothing to resend, a new packet of a channel while the replay buffer has room. A paused channel sends no packet, and the other channel does not wait for it (R284). -/
def Link.send (l : Link) (kind : PacketKind) (cnt : Fin 8) (carries : Carried) : Link :=
  if !l.live then l
  else match l.toResend.find? fun x => decide (x.kind.vc ∉ l.txPaused) with
    | some x => { l with toResend := l.toResend.erase x }
    | none =>
      if Config.replayPackets ≤ l.replayBuf.length ∨ kind.vc ∈ l.txPaused then l
      else { l with replayBuf := l.replayBuf ++ [{ seq := l.nextSeq, kind := kind, cnt := cnt, carries := carries }], nextSeq := l.nextSeq + 1 }

/-- A data packet arrives (R282 to R284): accepted when it is the one expected and intact; a duplicate is acknowledged; any other starts a discard with one NAK. The ACK of an intact packet counts, whatever its SEQ. During recovery and training it is discarded. -/
def execDataPacket (link : Nat) (p : Packet) (s : State) : Out :=
  .next (s.modLink link fun l =>
    if !l.live then l
    else
      let l := if p.crcOk then l.acknowledge p.ack else l
      if p.crcOk ∧ p.seq = l.rxLast + 1 then
        let l := ({ l with rxLast := p.seq, discarding := false, sinceAck := l.sinceAck + 1 } : Link).fillRx p.kind.vc (p.cnt.val + 1)
        if 8 ≤ l.sinceAck then l.sendAck else l
      else if p.crcOk ∧ seqLe p.seq l.rxLast then l.sendAck
      else if l.discarding then l
      else { l.emit (.nak l.rxLast) with discarding := true, sinceAck := 0 })

/-- An ACK flit arrives (R283). -/
def execAck (link : Nat) (seq : BitVec 32) (s : State) : Out := .next (s.modLink link fun l => l.acknowledge seq)
/-- A NAK flit arrives (R283). -/
def execNak (link : Nat) (seq : BitVec 32) (s : State) : Out := .next (s.modLink link fun l => (l.acknowledge seq).resend)
/-- A PAUSE flit arrives (R284), with its ACK (R283). -/
def execPause (link : Nat) (f : FlowFlit) (s : State) : Out :=
  .next (s.modLink link fun l =>
    let l := l.acknowledge f.ack
    if f.vc.toNat ∈ l.txPaused then l else { l with txPaused := l.txPaused ++ [f.vc.toNat] })
/-- A RESUME flit arrives (R284), with its ACK (R283). -/
def execResume (link : Nat) (f : FlowFlit) (s : State) : Out :=
  .next (s.modLink link fun l => let l := l.acknowledge f.ack; { l with txPaused := l.txPaused.filter (· ≠ f.vc.toNat) })
/-- The acknowledgement falls due (R283). -/
def execAckTimer (link : Nat) (s : State) : Out := .next (s.modLink link fun l => if l.up then l.sendAck else l)
/-- No progress in ACK for 2 µs (R283). -/
def execReplayTimeout (link : Nat) (s : State) : Out := .next (s.modLink link Link.resend)

/-! ### Recovery (R285) -/

/-- This end enters recovery: its recovery flits name the last packet accepted. -/
def Link.enterRecovery (l : Link) : Link := if l.recovering || !l.up then l else { l.emit (.recovery l.rxLast) with recovering := true }

/-- A lane fails (R285). -/
def execLaneFailure (link lane : Nat) (s : State) : Out :=
  .next (s.modLink link fun l =>
    if 16 ≤ lane then l else { l with lanes := tput {} l.lanes lane { tget ({} : Lane) l.lanes lane with fail := true } }.enterRecovery)

/-- The other end's recovery flit arrives (R285): its ACK and its failed lanes. -/
def execRecovery (link : Nat) (seq : BitVec 32) (lanes : List Nat) (s : State) : Out :=
  .next (s.modLink link fun l => if l.up then { l.enterRecovery with otherAck := some seq, farFailed := lanes } else l)

/-- The lanes of a half (width 2) or quarter (width 1), or all (width 3). -/
def segLanes (w seg : Nat) : List Nat := if w = 3 then upList 0 16 else if w = 2 then upList (8 * seg) 8 else upList (4 * seg) 4

/-- The width and segment after recovery (R285): never wider than before; the lowest clean half, else the lowest clean quarter, else down. -/
def newWidth (w seg : Nat) (bad : List Nat) : Nat × Nat :=
  let clean := fun (w seg : Nat) => (segLanes w seg).all fun k => decide (k ∉ bad)
  if clean w seg then (w, seg)
  else
    let halves := if 2 ≤ w then (upList 0 2).map fun k => (2, k) else []
    let all := halves ++ (upList 0 4).map fun k => (1, k)
    (all.find? fun x => clean x.1 x.2).getD (0, 0)

/-- A link is going down (R285): it is in recovery, and its failed lanes leave it no clean quarter. -/
def Link.dying (l : Link) : Bool :=
  l.up && l.recovering && decide ((newWidth l.width l.seg (((l.lanes.filter fun e => e.2.fail).map (·.1)) ++ l.farFailed)).1 = 0)

/-- Recovery completes (R285): the width settles, for a link that has failed accesses at none (R286), vector 4 tells of a narrower width or a link that is down, and the sender resends. -/
def execRecoveryComplete (link : Nat) (s : State) : Out :=
  let l := s.link link
  match l.otherAck with
  | none => .next s
  | some a =>
    if linkCount ≤ link ∨ !l.recovering then .next s
    else
      let bad := ((l.lanes.filter fun e => e.2.fail).map (·.1)) ++ l.farFailed
      let (w, seg) := if l.doomed then (0, 0) else newWidth l.width l.seg bad
      let l' := { l.acknowledge a with recovering := false, otherAck := none, farFailed := [], width := w, seg := seg,
                                       deg := l.deg || decide (w < l.width) }
      if w = 0 then .next ((s.modLink link fun _ => l').linkFalls link)
      else
        let s := s.modLink link fun _ => l'.resend
        .next (if w < l.width then s.raise 4 else s)

/-! ### Telemetry (R287) -/

/-- A lane's reading crosses a threshold of EVWARN (R287). -/
def laneBad (evwarn : Word) (r : LaneReading) : Bool :=
  decide (r.eyeh.toNat < bitsOf evwarn.toNat 31 24) || decide (r.eyew.toNat < bitsOf evwarn.toNat 23 16) || decide (bitsOf evwarn.toNat 15 4 < r.corr.toNat)

/-- Telemetry is refreshed (R287): warnings of active lanes, and vector 3 at each rising edge of the link's WARN. -/
def execTelemetryRefresh (link : Nat) (r : LinkReading) (s : State) : Out :=
  if linkCount ≤ link then .next s
  else
    let l := s.link link
    let act := segLanes l.width l.seg
    let warned := fun (k : Nat) (x : LaneReading) => decide (l.width ≠ 0) && decide (k ∈ act) && laneBad s.evwarn x
    let rs := r.lanes.zipIdx.filter fun x => decide (x.2 < 16)
    let lanes := rs.foldl (fun t x =>
      let o := tget {} t x.2
      tput {} t x.2 { o with eyeh := x.1.eyeh, eyew := x.1.eyew, corr := x.1.corr, warn := o.warn || warned x.2 x.1 }) l.lanes
    let w := l.warn || rs.any fun x => warned x.2 x.1
    let s := s.modLink link fun l => { l with lanes := lanes, tempc := r.tempc, warn := w }
    .next (if w && !l.warn then s.raise 3 else s)

end Sys2Proof.Machine
end

