-- ==== Sys2Proof/Machine/Power.lean ====
section
/-! DEFINITION. Power and heat (R288 to R295): telemetry, the die controllers, budgets, and the clock handover. -/

namespace Sys2Proof.Machine

/-- Both power stages report (R288). -/
def execPowerTelemetry (r : PowerReading) (s : State) : Out := .next { s with power := { s.power with telemetry := r } }

/-! ### The package cap and its shares (R293, R294) -/

/-- The clusters of a partition. -/
def partClusters (p : QWord) : List Nat := (upList 0 Config.clusters).filter fun k => partMask p / 2 ^ k % 2 == 1
/-- FLOOR of a partition, in watts. -/
def partFloor (p : QWord) : Nat := bitsOf p.toNat 83 72

/-- The cap that the controller uses (R293). -/
def Power.capUsed (p : Power) : Nat := max p.pcap p.idleFloor
/-- The sum of the floors (R294). -/
def Power.floorSum (p : Power) : Nat := p.partitions.foldl (fun n e => n + partFloor e.2) 0
/-- A partition's floor, scaled where the floors exceed the cap (R294). -/
def Power.floorOf (p : Power) (q : QWord) : Nat :=
  if p.capUsed < p.floorSum then partFloor q * p.capUsed / p.floorSum else partFloor q

/-- A cluster wants more than its floor: some team is resident there (log 26). -/
def State.wants (s : State) (k : Nat) : Bool := (tvals s.teamTbl).any fun t => decide (t.kind = .team) && clusterOf t.coreId == k

/-- A cluster's part of the cap, in tenths of a watt (R294): its part of its partition's floor, and its share of the rest. The rule divides no floor among clusters, and says not who has the rest when no cluster wants more: a floor is divided equally over the clusters of the mask, and that rest equally over all 72 (log 26). -/
def State.clusterShare (s : State) (k : Nat) : Nat :=
  let floors := s.power.partitions.map fun e => (partClusters e.2, s.power.floorOf e.2)
  let mine := match floors.find? fun f => decide (k ∈ f.1) with
    | some f => 10 * f.2 / f.1.length
    | none => 0
  let rest := s.power.capUsed - floors.foldl (fun n f => n + f.2) 0
  let wanting := (upList 0 Config.clusters).filter s.wants
  mine + (if wanting.isEmpty then 10 * rest / Config.clusters else if k ∈ wanting then 10 * rest / wanting.length else 0)

/-- A die's share of the package cap, in tenths of a watt. -/
def State.dieShare (s : State) (d : Nat) : Nat :=
  (upList (d * Config.clustersPerDie) Config.clustersPerDie).foldl (fun n k => n + s.clusterShare k) 0

/-! ### Heat (R295) -/

/-- The quadrant of a cluster of a die (R295). -/
def quadrantOf (c : Nat) : Nat := if c ≤ 4 then 0 else if c ≤ 8 then 1 else if c ≤ 13 then 2 else 3

/-- Estimated power of a quadrant, in tenths of a watt (R295). With every activity counter at 0, where the rule divides by zero, each quadrant has a quarter (log 26). -/
def quadPower (r : DieReading) (q : Nat) : Nat :=
  let total := r.activity.foldl (· + ·) 0
  let mine := (r.activity.zipIdx.filter fun x => quadrantOf x.2 == q).foldl (fun n x => n + x.1) 0
  (if total = 0 then (r.power - r.uncore) / 4 else (r.power - r.uncore) * mine / total) + r.uncore / 4

/-- The hottest quadrant (R295). -/
def hotQuad (r : DieReading) : Nat :=
  (upList 1 3).foldl (fun b q => if quadPower r b < quadPower r q then q else b) 0

/-- The heat-flux estimate exceeds the limit (R295): the greatest quadrant power over 1.9 square centimetres. -/
def fluxOver (r : DieReading) (lim : Nat) : Bool := decide (19 * lim < quadPower r (hotQuad r))

/-! ### The controller (R291, R292) -/

/-- One eighth is cut from a budget, or at the least budget one level from the cap (R292). The eighth is rounded down: the rule rounds the undo alone (log 26). -/
def Cluster.cut (c : Cluster) (k : Nat) : Cluster × Option CtlStep :=
  if Config.budMin < c.bud then ({ c with bud := max Config.budMin (c.bud - c.bud / 8) }, some (.budget k))
  else if 0 < c.cap then ({ c with cap := c.cap - 1 }, some (.level k)) else (c, none)

/-- A budget times 8/7, rounded up to a byte and limited (R292); the rise by one seventh with no step left is rounded in the same way, of which the rule says nothing (log 26). -/
def grow (bud : Nat) : Nat := min Config.budMax ((8 * bud + 6) / 7)

/-- Cut the clusters of a list, newest step first. -/
def State.cutAll (s : State) (d : Nat) : List Nat → State
  | [] => s
  | k :: ks =>
    let (c, st) := (s.getCluster k).cut k
    let s := s.modCluster k fun _ => c
    let s := match st with
      | some x => s.modDie d fun y => { y with steps := (x :: y.steps).take 256 }
      | none => s
    s.cutAll d ks

/-- Undo the most recent step not yet undone; with none left, every budget, by one seventh rounded up (log 26), and every level cap below its limit rises (R292). -/
def State.undo (s : State) (d : Nat) : State :=
  match (tget {} s.dies d).steps with
  | .budget k :: r => (s.modCluster k fun c => { c with bud := grow c.bud }).modDie d fun x => { x with steps := r }
  | .level k :: r => (s.modCluster k fun c => { c with cap := min c.hostCap (c.cap + 1) }).modDie d fun x => { x with steps := r }
  | [] => (upList (d * Config.clustersPerDie) Config.clustersPerDie).foldl (fun s k =>
      s.modCluster k fun c => { c with bud := grow c.bud, cap := if c.cap < c.hostCap then c.cap + 1 else c.cap }) s

/-- The clusters that consume most (R292), of the hottest quadrant where the boiling limit governs. -/
def topClusters (d : Nat) (r : DieReading) (hot : Bool) : List Nat :=
  let cs := r.activity.zipIdx.filter fun x => decide (x.2 < Config.clustersPerDie) && (!hot || quadrantOf x.2 == hotQuad r)
  let m := cs.foldl (fun n x => max n x.1) 0
  (cs.filter fun x => x.1 == m).map fun x => d * Config.clustersPerDie + x.2

/-- The allowed power of a die, in tenths of a watt (R292). -/
def State.allowed (s : State) (d : Nat) : Nat := min (min (76 * s.power.fluxlim) (10 * (tget {} s.dies d).cap)) (s.dieShare d)

/-- The status bits that an evaluation sets, with vector 5 at each newly set bit (R293, R294). -/
def State.capStatus (s : State) : State :=
  let low := decide (s.power.pcap < s.power.idleFloor)
  let breach := decide (s.power.capUsed < s.power.floorSum)
  let s' := { s with power := { s.power with floor := s.power.floor || low, breach := s.power.breach || breach } }
  let s' := if low && !s.power.floor then s'.raise 5 else s'
  if breach && !s.power.breach then s'.raise 5 else s'

/-- The clusters of a die. -/
def dieClusters (d : Nat) : List Nat := upList (d * Config.clustersPerDie) Config.clustersPerDie

/-- The caps and `perf.set`s of the interval begin to count on a die (R217, R292). -/
def State.latchLevels (s : State) (d : Nat) : State :=
  let s := s.mapTeams fun tm => if clusterOf tm.coreId ∈ dieClusters d then { tm with perfNow := tm.perfReq } else tm
  foldS (fun s k => s.modCluster k fun c => { c with capNow := c.cap }) (dieClusters d) s

/-- CUR of each of a die's clusters takes its level: caps and `perf.set`s of the interval take effect together (R217, R292). -/
def State.relevelDie (s : State) (d : Nat) : State := foldS (fun s k => s.relevel k) (dieClusters d) (s.latchLevels d)

/-- The controller's step (R292): the boiling limit first, then the least of the bounds. -/
def State.control (s : State) (d : Nat) (r : DieReading) (hot : Bool) : State :=
  let allowed := s.allowed d
  if hot ∨ allowed < r.power then s.cutAll d (topClusters d r hot)
  else if 10 * r.power < 9 * allowed then s.undo d else s

/-- A die's controller evaluates (R292): its status bits, its estimates (R295), its step, then the levels of its clusters. -/
def execControllerEvaluation (d : Nat) (r : DieReading) (s : State) : Out :=
  if 4 ≤ d then .next s
  else
    let hot := fluxOver r s.power.fluxlim
    let s := s.capStatus.modDie d fun x => { x with power := r.power, quads := (upList 0 4).map (quadPower r), flux := hot }
    .next ((s.control d r hot).relevelDie d)

/-- A budget interval begins (R291): waiting requests are served first. -/
def execBudgetInterval (s : State) : Out :=
  .next (s.mapClusters fun _ c => { c with spent := min c.waiting c.bud, waiting := c.waiting - min c.waiting c.bud })

/-- The rail voltage of a level in millivolts, rounded up to 5 mV (R289). -/
def railMv (level : Nat) : Nat := 5 * ((9000 + 350 * level + 74) / 75)

/-- The reverse body bias of a cluster at level `k` on a die whose highest level is `h`, in millivolts (R289). -/
def bodyBias (h k : Nat) : Nat := min 300 (20 * (h - k))

/-- The frequency of a level, in megahertz (R289). -/
def levelMhz (level : Nat) : Nat := 1200 + 140 * level

/-- The highest level that a die's clusters run at, or are about to (R289, R290). -/
def State.topLevel (s : State) (d : Nat) (next : Bool) : Nat :=
  (dieClusters d).foldl (fun n k =>
    let c := s.getCluster k
    max n (max c.clock (if next then (c.idleGen.map (·.1)).getD 0 else 0))) 0

/-- The rail of a die moves (R290): up by 10 mV toward the voltage that its clusters need or are about to need, or down to it. -/
def State.railStep (s : State) (d : Nat) : State :=
  let need := railMv (s.topLevel d true)
  s.modDie d fun x => { x with railMv := if x.railMv < need then min need (x.railMv + 10) else need }

/-- The idle generator of a cluster has locked to its target (R290). -/
def State.generatorLock (s : State) (k : Nat) : State :=
  s.modCluster k fun c => { c with idleGen := c.idleGen.map fun g => (g.1, true) }

/-- The body biases of a die's clusters follow its highest level (R289). -/
def State.rebias (s : State) (d : Nat) : State :=
  let h := s.topLevel d false
  foldS (fun s k => s.modCluster k fun c => { c with bias := bodyBias h c.clock }) (dieClusters d) s

/-- The clock of a cluster switches over, once its idle generator has locked and the rail carries the new level (R289, R290). -/
def execClockSwitch (k : Nat) (s : State) : Out :=
  let d := k / Config.clustersPerDie
  match (s.getCluster k).idleGen with
  | some (t, true) =>
    if Config.clusters ≤ k ∨ (tget {} s.dies d).railMv < railMv t then .next s
    else .next ((s.modCluster k fun c => { c with clock := t, idleGen := none }).rebias d)
  | _ => .next s

end Sys2Proof.Machine
end

