-- ==== Sys2Proof/Machine/Sha.lean ====
section
/-! DEFINITION. SHA-512, with which Tumbler extends its measurement registers (R274). The spec names the function; its definition is taken from FIPS 180-4 (log 25, PRESUMED). -/

namespace Sys2Proof.Machine

/-- The greatest `x` below `x0 + 2 ^ b` with `x ^ k ≤ n`, bit by bit from `b - 1` downward. -/
def rootFrom (k n : Nat) : Nat → Nat → Nat
  | 0, x => x
  | b + 1, x => rootFrom k n b (if (x + 2 ^ b) ^ k ≤ n then x + 2 ^ b else x)

/-- The first 64 bits of the fraction of a `k`-th root of a number below 512. -/
def rootFraction (k p : Nat) : BitVec 64 := BitVec.ofNat 64 (rootFrom k (p * 2 ^ (64 * k)) 69 0)

/-- The 80 primes below 410. -/
def shaPrimes : List Nat := (upList 2 408).filter fun p => (upList 2 19).all fun d => p == d || p % d != 0

/-- The constant of each round: the cube root of its prime. -/
def shaRoundConsts : List (BitVec 64) := shaPrimes.map (rootFraction 3)

/-- The initial hash value: the square roots of the first eight primes. -/
def shaInit : List (BitVec 64) := (shaPrimes.take 8).map (rootFraction 2)

/-- Word `k` of a list. -/
def shaAt (ws : List (BitVec 64)) (k : Nat) : BitVec 64 := ws.getD k 0

/-- The message schedule, newest word first: 64 words more than the block's 16. -/
def shaSchedule : Nat → List (BitVec 64) → List (BitVec 64)
  | 0, ws => ws
  | n + 1, ws =>
    let a := shaAt ws 14
    let b := shaAt ws 1
    let s0 := a.rotateRight 1 ^^^ a.rotateRight 8 ^^^ (a >>> (7 : Nat))
    let s1 := b.rotateRight 19 ^^^ b.rotateRight 61 ^^^ (b >>> (6 : Nat))
    shaSchedule n ((shaAt ws 15 + s0 + shaAt ws 6 + s1) :: ws)

/-- One round. -/
def shaRound (v : List (BitVec 64)) (kw : BitVec 64 × BitVec 64) : List (BitVec 64) :=
  let e := shaAt v 4
  let a := shaAt v 0
  let s1 := e.rotateRight 14 ^^^ e.rotateRight 18 ^^^ e.rotateRight 41
  let ch := (e &&& shaAt v 5) ^^^ (~~~ e &&& shaAt v 6)
  let t1 := shaAt v 7 + s1 + ch + kw.1 + kw.2
  let s0 := a.rotateRight 28 ^^^ a.rotateRight 34 ^^^ a.rotateRight 39
  let maj := (a &&& shaAt v 1) ^^^ (a &&& shaAt v 2) ^^^ (shaAt v 1 &&& shaAt v 2)
  [t1 + s0 + maj, a, shaAt v 1, shaAt v 2, shaAt v 3 + t1, e, shaAt v 5, shaAt v 6]

/-- One block of 16 words, first word first. -/
def shaBlock (h blk : List (BitVec 64)) : List (BitVec 64) :=
  let ws := (shaSchedule 64 blk.reverse).reverse
  let v := (shaRoundConsts.zip ws).foldl shaRound h
  (h.zip v).map fun p => p.1 + p.2

/-- The eight 64-bit words of 512 bits, most significant first. -/
def words512 (x : BitVec 512) : List (BitVec 64) := (upList 0 8).map fun k => x.extractLsb' (64 * (7 - k)) 64

/-- SHA-512 of the concatenation of two 512-bit values (R274). -/
def sha512Pair (a b : BitVec 512) : BitVec 512 :=
  let pad : List (BitVec 64) := [0x8000000000000000#64] ++ ((upList 0 14).map fun _ => 0#64) ++ [1024#64]
  let h := shaBlock (shaBlock shaInit (words512 a ++ words512 b)) pad
  BitVec.ofNat 512 (h.foldl (fun n w => n * 2 ^ 64 + w.toNat) 0)

end Sys2Proof.Machine
end

