-- ==== Sys2Proof/Machine/Trust.lean ====
section
/-! DEFINITION. Package reset (R80, R274, R291) and Tumbler: worlds, the page owner table, measurements, SPDM and IDE keys (R269 to R278). -/

namespace Sys2Proof.Machine

/-- Package reset: every register of the package at its reset value. Host memory, the other packages' memory, and the model's own agenda stay (log 41). The boot reads the integrity strap: with it on, the metadata region of SA 2 is taken (R272, log 44). -/
def execPackageReset (s : State) : Out :=
  .next { State.reset with
    pkg := s.pkg, hostMem := s.hostMem, mem := tput {} s.mem s.pkg { integrity := s.integrityNext }, integrityNext := s.integrityNext, agenda := s.agenda, freeCount := s.freeCount }

/-! ### Tumbler's answers -/

/-- The state of a world (R269). -/
def State.world (s : State) (w : Nat) : WorldState := tget .free s.tumbler.worlds w

/-- Tumbler answers. -/
def State.reply (s : State) (r : Reply) : State := { s with tumbler := { s.tumbler with replies := s.tumbler.replies ++ [r] } }

/-- A session that FINISH has completed, by its id (R275). -/
def State.sessionOf (s : State) (k : Nat) : Option Session := s.tumbler.sessions.find? fun x => x.id == k && x.finished

/-- A finished session of a world (R270, R275). -/
def State.inSession (s : State) (k w : Nat) : Bool :=
  match s.sessionOf k with
  | none => false
  | some x => x.world == w

/-! ### Worlds (R269, R272, R277) -/

/-- The bytes of a page, whose key or protection has changed: each is a free value, and under SA 2 its tag no longer matches; without it there is no tag (R272, log 44). -/
def PkgMem.stalePage (m : PkgMem) (n page : Nat) : PkgMem :=
  let addrs := upList (65536 * page) 65536
  { m with
    bytes := m.bytes.writeBytes (65536 * page) (addrs.map (Config.staleByte n)),
    poison := if bitsOf (tget 0 m.owners page).toNat 7 6 = 2 then foldS (fun l a => tput 0 l a 4) addrs m.poison
      else m.poison.filter fun e => !(e.1 / 65536 == page && e.2 == 4) }

/-- A world's keys have changed: its encrypted pages no longer hold its data (R272). -/
def State.staleWorld (s : State) (w : Nat) : State :=
  let pages := ((s.pm s.pkg).owners.filter fun e => bitsOf e.2.toNat 5 0 == w && bitsOf e.2.toNat 7 6 != 0).map (·.1)
  s.modPm s.pkg fun m => foldS (fun m p => m.stalePage s.freeCount p) pages m

/-- What a debug facility has asked of a team is dropped: the stops that are pending, and the hold of a stop that stands (R252). -/
def Team.unseen (tm : Team) : Team :=
  { tm with stops := tm.stops.filter (fun c => decide (c = .preempt)), held := false, stopped := tm.stopped && decide (StopCause.preempt ∈ tm.stops) }

/-- World `w` has become Protected: no debug facility reaches a launch that runs on under its number from an earlier world (R252, R277; log 39). Its capture or replay, its race detection and its debugger end, and its teams go on. -/
def State.hideWorld (s : State) (w : Nat) : State :=
  let hidden := fun (uid : Nat) => ((s.getLaunch uid).getD {}).world == w
  let hide := fun (t : Team) => if hidden t.launchUid then t.unseen else t
  let s : State := { s with saved := s.saved.map fun (g : SavedGang) => { g with teams := g.teams.map hide } }
  let s := s.mapTeams hide
  foldS (fun (s : State) (l : Launch) => s.modLaunch l.uid fun l => { l with replay := 0, race := false, debugger := false }) ((tvals s.launchTbl).filter fun l => l.world == w) s

/-- CREATE_WORLD: refused while the package is unlocked, for a world that is not Free, and for a Protected world outside its session; the world's keys are made. -/
def execCreateWorld (w : Nat) (prot : Bool) (session : Nat) (s : State) : Out :=
  if s.tumbler.unlocked then .next (s.reply (.status .debugUnlocked))
  else if w = 0 ∨ 63 < w ∨ s.world w ≠ .free then .next (s.reply (.status .busy))
  else if prot ∧ ¬ s.inSession session w then .next (s.reply (.status .noSession))
  else
    let t := { s.tumbler with
      worlds := tput .free s.tumbler.worlds w (if prot then .prot else .open_),
      keys := tput 0 s.tumbler.keys w (Config.worldKey s.freeCount) }
    let s : State := { s with tumbler := t }
    .next (((if prot then s.hideWorld w else s).staleWorld w).reply (.status .ok))

/-- DESTROY_WORLD: a Protected world only in its session; its keys are destroyed, and its handle space goes with it. R269 says nothing of its launches: accepted, running and saved ones go on under the world's number; nor of its SPDM sessions: they stay open, and serve a world that is created later under that number (log 39). -/
def execDestroyWorld (w session : Nat) (s : State) : Out :=
  if w = 0 ∨ 63 < w ∨ s.world w = .free then .next (s.reply (.status .refused))
  else if s.world w = .prot ∧ ¬ s.inSession session w then .next (s.reply (.status .noSession))
  else
    let t := { s.tumbler with worlds := tput .free s.tumbler.worlds w .free, keys := terase s.tumbler.keys w }
    let h := { s.hub with codeObjs := s.hub.codeObjs.filter fun c => decide (c.owner ≠ some w) }
    .next ((({ s with tumbler := t, hub := h } : State).staleWorld w).reply (.status .ok))

/-! ### Measurements (R274, R277) -/

/-- Extend measurement register `k`. -/
def State.extendMr (s : State) (k : Nat) (d : BitVec 512) : State :=
  { s with tumbler := { s.tumbler with mr := tput 0 s.tumbler.mr k (sha512Pair (tget 0 s.tumbler.mr k) d) } }

/-- Who may extend which register (R274); MR5 is extended by a debug unlock alone. -/
def mayExtend (src : MrSource) (k : Nat) : Bool :=
  match src with
  | .bootRom => k == 0
  | .tumbler => decide (1 ≤ k) && decide (k ≤ 4)
  | .firmware => decide (6 ≤ k) && decide (k ≤ 15)

/-- EXTEND: one of the registers that its source extends. -/
def execExtend (port : MrPort) (digest : BitVec 512) (s : State) : Out :=
  if mayExtend port.src port.mr then .next (s.extendMr port.mr digest) else .next s

/-- DEBUG_UNLOCK: a valid token sets the unlocked state until reset and extends MR5. -/
def execDebugUnlock (valid : Bool) (digest : BitVec 512) (s : State) : Out :=
  if !valid then .next (s.reply (.status .refused))
  else .next ((({ s with tumbler := { s.tumbler with unlocked := true } } : State).extendMr 5 digest).reply (.status .ok))

/-! ### The page owner table (R270, R271) -/

/-- The entry is one that Tumbler may write: no reserved bit, no SA 3, no attribute for world 0. -/
def ownerOk (e : BitVec 16) : Bool :=
  let n := e.toNat
  n < 256 && bitsOf n 7 6 != 3 && (bitsOf n 5 0 != 0 || bitsOf n 7 6 == 0)

/-- The command may change the entry: in the session of each Protected world that it concerns. R270 names no Free world: the host may change an entry that names one, and give a page to one (log 39). -/
def State.mayOwn (s : State) (old new : BitVec 16) (session : Nat) : Bool :=
  [bitsOf old.toNat 5 0, bitsOf new.toNat 5 0].all fun w => s.world w != .prot || s.inSession session w

/-- The leaf covers the physical page. -/
def TlbEntry.onPage (e : TlbEntry) (page : Nat) : Bool :=
  decide (e.frame ≤ page) && decide (page < e.frame + (if e.big then 256 else 1))

/-- A store on its way to the page of this package. -/
def PendingByte.onPage (w : PendingByte) (pkg page : Nat) : Bool :=
  match w.loc with
  | .view a => a / 65536 == page
  | .home p a => p == pkg && a / 65536 == page
  | _ => false

/-- Stores of every context to the page land (R271, step 3). -/
def State.landOnPage (s : State) (page : Nat) : State :=
  let ts := (tvals s.teamTbl).filter fun t => t.inflight.any fun a => a.writes.any fun w => w.onPage s.pkg page
  let r := ts.foldl (fun r t => (r.focus t.key).landStores) s
  if s.team.threads = 0 then r else r.focus s.team.key

/-- Bytes of the page that core views and cluster units hold go to the home slices, and their copies of its lines go (R167, R271). -/
def State.viewsOffPage (s : State) (page : Nat) : State :=
  let on := fun (a : Nat) => a / 65536 == page
  let cores := s.core.id :: s.cores.map (·.1)
  let s := cores.foldl (fun s c => s.coreDown c on) s
  let s := (s.clusters.map (·.1)).foldl (fun s k => s.clusDown k on) s
  let keep := fun (v : View) =>
    { v with lines := v.lines.filter fun e => e.1 / 1024 != page, lost := v.lost.filter fun e => e.1 / 65536 != page }
  let s := s.mapCores fun _ x => { x with view := keep x.view }
  s.mapClusters fun _ x => { x with view := keep x.view }

/-- The page of a line at its home on a package. -/
def LineRef.onPage (pkg page : Nat) : LineRef → Bool
  | .home p l => p == pkg && l / 1024 == page
  | _ => false

/-- A context hears the write of a whole page (R192, R197). -/
def Team.hearPage (tm : Team) (pkg page : Nat) : Team :=
  { tm with
    mon := if tm.mon = .armed ∧ tm.monLines.any (fun l => l.1.onPage pkg page) then .triggered else tm.mon,
    resv := tm.resv.filter fun e => match e.2 with
      | some r => !r.onPage pkg page
      | none => true,
    scalarResv := tm.scalarResv.filter fun r => !r.onPage pkg page }

/-- Zeros over the whole page (R271, step 4). -/
def State.zeroPage (s : State) (page : Nat) : State :=
  (s.modPm s.pkg fun m => { m with
    bytes := m.bytes.filter fun e => e.1 / 65536 != page,
    poison := m.poison.filter fun e => e.1 / 65536 != page }).mapTeams fun tm => tm.hearPage s.pkg page

/-- The page's data no longer reads as it was written: some attribute is not clear, and the key or the attribute has changed (R272). -/
def rekeyed (old new : BitVec 16) : Bool := old != new && (bitsOf old.toNat 7 6 != 0 || bitsOf new.toNat 7 6 != 0)

/-- PAGE_OWNER_CHANGE: the five steps of R271. SA 2 needs the tags that a boot with integrity makes, and Tumbler's own pages have no entry to change (R272, log 44). A page that still names a destroyed Protected world is not zeroed when its entry changes (log 39). -/
def execPageOwnerChange (page : Nat) (entry : BitVec 16) (session : Nat) (s : State) : Out :=
  let old := tget 0 (s.pm s.pkg).owners page
  if Config.memBytes / 65536 ≤ page ∨ !ownerOk entry ∨ (bitsOf entry.toNat 7 6 = 2 ∧ (s.pm s.pkg).integrity = false) ∨ (s.pm s.pkg).isMeta page then .next (s.reply (.status .refused))
  else if !s.mayOwn old entry session then .next (s.reply (.status .noSession))
  else
    let s := s.mapCores fun _ x => { x with tlb := x.tlb.filter fun e => !e.onPage page }
    let s := s.mapClusters fun _ x => { x with tlb := x.tlb.filter fun e => !e.onPage page }
    let s := (s.landOnPage page).viewsOffPage page
    let ow := bitsOf old.toNat 5 0
    let leaves := decide (s.world ow = .prot) && bitsOf entry.toNat 5 0 != ow
    let s := s.modPm s.pkg fun m => { m with owners := tput 0 m.owners page entry }
    let s := if leaves then s.zeroPage page else if rekeyed old entry then s.modPm s.pkg fun m => m.stalePage s.freeCount page else s
    .next (s.reply (.status .ok))

/-! ### SPDM (R275) -/

/-- GET_VERSION: SPDM 1.2 and 1.3. -/
def execGetVersion (s : State) : Out := .next (s.reply (.version [2, 3]))

/-- GET_CAPABILITIES. -/
def execGetCapabilities (s : State) : Out := .next (s.reply (.capabilities ["CERT", "CHAL", "MEAS_SIG", "KEY_EX", "ENCRYPT", "MAC"]))

/-- NEGOTIATE_ALGORITHMS: the one set that Tumbler has, whatever the offer. -/
def execNegotiateAlgorithms (_ : Nat) (s : State) : Out :=
  .next (s.reply (.algorithms ["ECDSA_P521", "SHA_512", "SECP_521_R1", "AES_256_GCM"]))

/-- GET_DIGESTS: slot 0 alone holds a chain. -/
def execGetDigests (s : State) : Out := .next (s.reply (.digests 1 (Config.certDigest 0)))

/-- GET_CERTIFICATE: a part of the chain of slot 0; the other slots are empty. -/
def execGetCertificate (slot offset length : Nat) (s : State) : Out :=
  .next (s.reply (if slot = 0 then .certificate ((upList offset length).map Config.certificate) else .error .invalid))

/-- CHALLENGE: a signed answer for slot 0. -/
def execChallenge (slot : Nat) (_ : BitVec 256) (s : State) : Out :=
  .next (s.reply (if slot = 0 then .challengeAuth (Config.nonce s.freeCount) (Config.signature s.freeCount) else .error .invalid))

/-- GET_MEASUREMENTS: indices 1 to 16 carry MR0 to MR15, 0xFF carries all. -/
def execGetMeasurements (index : Nat) (_ : BitVec 256) (s : State) : Out :=
  let mrs := (upList 0 16).map fun k => (k + 1, tget 0 s.tumbler.mr k)
  let pick := if index = 255 then mrs else mrs.filter fun m => m.1 == index
  .next (s.reply (if pick.isEmpty then .error .invalid else .measurements pick (Config.signature s.freeCount)))

/-- KEY_EXCHANGE: opens a session for a world; a fifth receives Busy. -/
def execKeyExchange (session world : Nat) (s : State) : Out :=
  if 4 ≤ s.tumbler.sessions.length then .next (s.reply (.error .busy))
  else if s.tumbler.sessions.any (fun x => x.id == session) then .next (s.reply (.error .invalid))
  else
    let t := { s.tumbler with sessions := s.tumbler.sessions ++ [({ id := session, world := world, finished := false } : Session)] }
    .next (({ s with tumbler := t } : State).reply (.keyExchange session (Config.keyShare s.freeCount)))

/-- FINISH: completes a session that KEY_EXCHANGE opened. -/
def execFinish (session : Nat) (valid : Bool) (s : State) : Out :=
  if !valid || !(s.tumbler.sessions.any fun x => x.id == session && !x.finished) then .next (s.reply (.error .invalid))
  else
    let t := { s.tumbler with sessions := s.tumbler.sessions.map fun x => if x.id = session then { x with finished := true } else x }
    .next (({ s with tumbler := t } : State).reply (.finished session))

/-- Every other request code. -/
def execUnsupportedRequest (_ : BitVec 8) (s : State) : Out := .next (s.reply (.error .unsupported))

/-! ### IDE key management (R275) -/

/-- A secured message: only inside a session, else UnexpectedRequest. -/
def State.secured (s : State) (session : Nat) (r : State) : Out :=
  if (s.sessionOf session).isNone then .next (s.reply (.error .unexpected)) else .next (r.reply .ideOk)

/-- Change the key set of one direction and sub-stream. -/
def State.modIde (s : State) (dir sub : Nat) (f : IdeKey → IdeKey) : State :=
  let k := 2 * sub + dir
  { s with tumbler := { s.tumbler with ide := tput {} s.tumbler.ide k (f (tget {} s.tumbler.ide k)) } }

/-- QUERY. -/
def execQuery (session : Nat) (s : State) : Out := s.secured session s

/-- A secured message for a key set of the stream that the host has chosen. -/
def State.ideMessage (s : State) (port : IdePort) (dir : Nat) (ok : Bool) (r : State) : Out :=
  if (s.sessionOf port.session).isSome ∧ (port.stream ≠ s.tumbler.ideStream ∨ 2 ≤ dir ∨ !ok) then .next (s.reply (.error .invalid))
  else s.secured port.session r

/-- KEY_PROG: a key for one direction and sub-stream. -/
def execKeyProg (port : IdePort) (dir sub : Nat) (key : BitVec 256) (s : State) : Out :=
  s.ideMessage port dir true (s.modIde dir sub fun x => { x with key := key, programmed := true })

/-- K_SET_GO: a programmed key set comes into use. -/
def execKSetGo (port : IdePort) (dir sub : Nat) (s : State) : Out :=
  s.ideMessage port dir (tget {} s.tumbler.ide (2 * sub + dir)).programmed (s.modIde dir sub fun x => { x with live := true })

/-- K_SET_STOP: a key set goes out of use. -/
def execKSetStop (port : IdePort) (dir sub : Nat) (s : State) : Out :=
  s.ideMessage port dir true (s.modIde dir sub fun x => { x with live := false })

end Sys2Proof.Machine
end

