-- ==== Sys2Proof/Machine/Dispatch.lean ====
section
/-! DEFINITION. Dispatch: every constructor of the instruction type to its meaning. -/

namespace Sys2Proof.Machine

/-- The meaning of an instruction. -/
def exec (i : Instr) (s : State) : Host.Outcome State Fault Refusal :=
  match i with
  | .exit => Sys2Proof.Machine.execExit s
  | .brkpt t => Sys2Proof.Machine.execBrkpt t s
  | .add d a b => Sys2Proof.Machine.execAdd d a b s
  | .sub d a b => Sys2Proof.Machine.execSub d a b s
  | .and d a b => Sys2Proof.Machine.execAnd d a b s
  | .or d a b => Sys2Proof.Machine.execOr d a b s
  | .xor d a b => Sys2Proof.Machine.execXor d a b s
  | .andn d a b => Sys2Proof.Machine.execAndn d a b s
  | .minSgn d a b => Sys2Proof.Machine.execMinSgn d a b s
  | .maxSgn d a b => Sys2Proof.Machine.execMaxSgn d a b s
  | .minUns d a b => Sys2Proof.Machine.execMinUns d a b s
  | .maxUns d a b => Sys2Proof.Machine.execMaxUns d a b s
  | .shl d a b => Sys2Proof.Machine.execShl d a b s
  | .shr d a b => Sys2Proof.Machine.execShr d a b s
  | .sra d a b => Sys2Proof.Machine.execSra d a b s
  | .rot d a b => Sys2Proof.Machine.execRot d a b s
  | .mov d a => Sys2Proof.Machine.execMov d a s
  | .mulLo d a b => Sys2Proof.Machine.execMulLo d a b s
  | .mulHiSgn d a b => Sys2Proof.Machine.execMulHiSgn d a b s
  | .mulHiUns d a b => Sys2Proof.Machine.execMulHiUns d a b s
  | .mad d a b => Sys2Proof.Machine.execMad d a b s
  | .bfx d a b => Sys2Proof.Machine.execBfx d a b s
  | .bfi d a b => Sys2Proof.Machine.execBfi d a b s
  | .clz d a => Sys2Proof.Machine.execClz d a s
  | .popc d a => Sys2Proof.Machine.execPopc d a s
  | .brev d a => Sys2Proof.Machine.execBrev d a s
  | .not d a => Sys2Proof.Machine.execNot d a s
  | .absI32 d a => Sys2Proof.Machine.execAbsI32 d a s
  | .absI16x2 d a => Sys2Proof.Machine.execAbsI16x2 d a s
  | .absI8x4 d a => Sys2Proof.Machine.execAbsI8x4 d a s
  | .negI32 d a => Sys2Proof.Machine.execNegI32 d a s
  | .negI16x2 d a => Sys2Proof.Machine.execNegI16x2 d a s
  | .negI8x4 d a => Sys2Proof.Machine.execNegI8x4 d a s
  | .addI16x2 d a b => Sys2Proof.Machine.execAddI16x2 d a b s
  | .addI8x4 d a b => Sys2Proof.Machine.execAddI8x4 d a b s
  | .subI16x2 d a b => Sys2Proof.Machine.execSubI16x2 d a b s
  | .subI8x4 d a b => Sys2Proof.Machine.execSubI8x4 d a b s
  | .minI16x2 d a b => Sys2Proof.Machine.execMinI16x2 d a b s
  | .maxI16x2 d a b => Sys2Proof.Machine.execMaxI16x2 d a b s
  | .minI8x4 d a b => Sys2Proof.Machine.execMinI8x4 d a b s
  | .maxI8x4 d a b => Sys2Proof.Machine.execMaxI8x4 d a b s
  | .addImm d a imm => Sys2Proof.Machine.execAddImm d a imm s
  | .andImm d a imm => Sys2Proof.Machine.execAndImm d a imm s
  | .orImm d a imm => Sys2Proof.Machine.execOrImm d a imm s
  | .xorImm d a imm => Sys2Proof.Machine.execXorImm d a imm s
  | .shlImm d a k => Sys2Proof.Machine.execShlImm d a k s
  | .shrImm d a k => Sys2Proof.Machine.execShrImm d a k s
  | .sraImm d a k => Sys2Proof.Machine.execSraImm d a k s
  | .rotImm d a k => Sys2Proof.Machine.execRotImm d a k s
  | .li d imm => Sys2Proof.Machine.execLi d imm s
  | .lih d imm => Sys2Proof.Machine.execLih d imm s
  | .cmp c p a b => Sys2Proof.Machine.execCmp c p a b s
  | .cmpImm c p a imm => Sys2Proof.Machine.execCmpImm c p a imm s
  | .pand d a b => Sys2Proof.Machine.execPand d a b s
  | .por d a b => Sys2Proof.Machine.execPor d a b s
  | .pxor d a b => Sys2Proof.Machine.execPxor d a b s
  | .pnot d a => Sys2Proof.Machine.execPnot d a s
  | .sel d a b p => Sys2Proof.Machine.execSel d a b p s
  | .movs d a b => Sys2Proof.Machine.execMovs d a b s
  | .rdl d a b => Sys2Proof.Machine.execRdl d a b s
  | .fadd w d a b => Sys2Proof.Machine.execFadd w d a b s
  | .fsub w d a b => Sys2Proof.Machine.execFsub w d a b s
  | .fmul w d a b => Sys2Proof.Machine.execFmul w d a b s
  | .fmin w d a b => Sys2Proof.Machine.execFmin w d a b s
  | .fmax w d a b => Sys2Proof.Machine.execFmax w d a b s
  | .fabs w d a => Sys2Proof.Machine.execFabs w d a s
  | .fneg w d a => Sys2Proof.Machine.execFneg w d a s
  | .faddPacked f d a b => Sys2Proof.Machine.execFaddPacked f d a b s
  | .fsubPacked f d a b => Sys2Proof.Machine.execFsubPacked f d a b s
  | .fmulPacked f d a b => Sys2Proof.Machine.execFmulPacked f d a b s
  | .fminPacked f d a b => Sys2Proof.Machine.execFminPacked f d a b s
  | .fmaxPacked f d a b => Sys2Proof.Machine.execFmaxPacked f d a b s
  | .fabsPacked f d a => Sys2Proof.Machine.execFabsPacked f d a s
  | .fnegPacked f d a => Sys2Proof.Machine.execFnegPacked f d a s
  | .ffmaPacked f d a b => Sys2Proof.Machine.execFfmaPacked f d a b s
  | .ffma w r d a b => Sys2Proof.Machine.execFfma w r d a b s
  | .fcmp w c p a b => Sys2Proof.Machine.execFcmp w c p a b s
  | .frcp f d a n => Sys2Proof.Machine.execFrcp f d a n s
  | .frsq f d a n => Sys2Proof.Machine.execFrsq f d a n s
  | .fsqrt f d a n => Sys2Proof.Machine.execFsqrt f d a n s
  | .fexp2 f d a n => Sys2Proof.Machine.execFexp2 f d a n s
  | .flog2 f d a n => Sys2Proof.Machine.execFlog2 f d a n s
  | .fsin f d a n => Sys2Proof.Machine.execFsin f d a n s
  | .fcos f d a n => Sys2Proof.Machine.execFcos f d a n s
  | .cvt x y r d a => Sys2Proof.Machine.execCvt x y r d a s
  | .vote k d p => Sys2Proof.Machine.execVote k d p s
  | .shfl k d a b => Sys2Proof.Machine.execShfl k d a b s
  | .red o t d a => Sys2Proof.Machine.execRed o t d a s
  | .scan o t x d a => Sys2Proof.Machine.execScan o t x d a s
  | .matchKey k r d a => Sys2Proof.Machine.execMatchKey k r d a s
  | .bind a => Sys2Proof.Machine.execBind a s
  | .ladd d a b => Sys2Proof.Machine.execLadd d a b s
  | .lsub d a b => Sys2Proof.Machine.execLsub d a b s
  | .lneg d a => Sys2Proof.Machine.execLneg d a s
  | .lcmp a b => Sys2Proof.Machine.execLcmp a b s
  | .lshl d a b => Sys2Proof.Machine.execLshl d a b s
  | .lshr d a b => Sys2Proof.Machine.execLshr d a b s
  | .lmul d a b => Sys2Proof.Machine.execLmul d a b s
  | .lmulAddend d a b => Sys2Proof.Machine.execLmulAddend d a b s
  | .wbase a imm => Sys2Proof.Machine.execWbase a imm s
  | .br o => Sys2Proof.Machine.execBr o s
  | .brc p o => Sys2Proof.Machine.execBrc p o s
  | .call o => Sys2Proof.Machine.execCall o s
  | .ret => Sys2Proof.Machine.execRet s
  | .jmp a => Sys2Proof.Machine.execJmp a s
  | .ifp p o => Sys2Proof.Machine.execIfp p o s
  | .elsep o => Sys2Proof.Machine.execElsep o s
  | .endif => Sys2Proof.Machine.execEndif s
  | .loopBeg => Sys2Proof.Machine.execLoopBeg s
  | .loopEnd o => Sys2Proof.Machine.execLoopEnd o s
  | .brk p d => Sys2Proof.Machine.execBrk p d s
  | .cont p d => Sys2Proof.Machine.execCont p d s
  | .ldB32 d a o n => Sys2Proof.Machine.execLdB32 d a o n s
  | .ldB8 d a o n => Sys2Proof.Machine.execLdB8 d a o n s
  | .ldB64 d a o n => Sys2Proof.Machine.execLdB64 d a o n s
  | .ldB16 d a o n => Sys2Proof.Machine.execLdB16 d a o n s
  | .ldB128 d a o n => Sys2Proof.Machine.execLdB128 d a o n s
  | .ldI8 d a o n => Sys2Proof.Machine.execLdI8 d a o n s
  | .ldI16 d a o n => Sys2Proof.Machine.execLdI16 d a o n s
  | .stB32 d a o n => Sys2Proof.Machine.execStB32 d a o n s
  | .stB64 d a o n => Sys2Proof.Machine.execStB64 d a o n s
  | .stB128 d a o n => Sys2Proof.Machine.execStB128 d a o n s
  | .stB8 d a o n => Sys2Proof.Machine.execStB8 d a o n s
  | .stB16 d a o n => Sys2Proof.Machine.execStB16 d a o n s
  | .tld d a o n => Sys2Proof.Machine.execTld d a o n s
  | .pf a o n => Sys2Proof.Machine.execPf a o n s
  | .lrB32 d a o n => Sys2Proof.Machine.execLrB32 d a o n s
  | .lrB64 d a o n => Sys2Proof.Machine.execLrB64 d a o n s
  | .scB32 d a o n => Sys2Proof.Machine.execScB32 d a o n s
  | .scB64 d a o n => Sys2Proof.Machine.execScB64 d a o n s
  | .atom p c r d a n => Sys2Proof.Machine.execAtom p c r d a n s
  | .monArm c d a n => Sys2Proof.Machine.execMonArm c d a n s
  | .phase c => Sys2Proof.Machine.execPhase c s
  | .wait p d => Sys2Proof.Machine.execWait p d s
  | .rdcnt p d => Sys2Proof.Machine.execRdcnt p d s
  | .latInit l d => Sys2Proof.Machine.execLatInit l d s
  | .latArr l => Sys2Proof.Machine.execLatArr l s
  | .latWait l d => Sys2Proof.Machine.execLatWait l d s
  | .latArw l => Sys2Proof.Machine.execLatArw l s
  | .latGen l d => Sys2Proof.Machine.execLatGen l d s
  | .fork e => Sys2Proof.Machine.execFork e s
  | .join e => Sys2Proof.Machine.execJoin e s
  | .cp l d n => Sys2Proof.Machine.execCp l d n s
  | .mxPrec l d => Sys2Proof.Machine.execMxPrec l d s
  | .mxLdb l d => Sys2Proof.Machine.execMxLdb l d s
  | .mxMm l d => Sys2Proof.Machine.execMxMm l d s
  | .mxSt l d => Sys2Proof.Machine.execMxSt l d s
  | .mxZero l d => Sys2Proof.Machine.execMxZero l d s
  | .mxPost c l d n => Sys2Proof.Machine.execMxPost c l d n s
  | .qSig c d => Sys2Proof.Machine.execQSig c d s
  | .qWait c d => Sys2Proof.Machine.execQWait c d s
  | .perfSet d => Sys2Proof.Machine.execPerfSet d s
  | .mfsr x d => Sys2Proof.Machine.execMfsr x d s
  | .mtsr x d => Sys2Proof.Machine.execMtsr x d s
  | .trap c => Sys2Proof.Machine.execTrap c s
  | .hngSet e d => Sys2Proof.Machine.execHngSet e d s
  | .hngClr e => Sys2Proof.Machine.execHngClr e s
  | .hngRd e d => Sys2Proof.Machine.execHngRd e d s
  | .tlbInv c d => Sys2Proof.Machine.execTlbInv c d s
  | .cqtailWrite q v => Sys2Proof.Machine.execCqtailWrite q v s
  | .blockPlacement l => Sys2Proof.Machine.execBlockPlacement l s
  | .teamEnd t => Sys2Proof.Machine.execTeamEnd t s
  | .blockEnd b => Sys2Proof.Machine.execBlockEnd b s
  | .launchEnd l => Sys2Proof.Machine.execLaunchEnd l s
  | .launchFailure l cls r core ord addr => Sys2Proof.Machine.execLaunchFailure l cls r core ord addr s
  | .uncorrectableStateError t p => Sys2Proof.Machine.execUncorrectableStateError t p s
  | .loadDataReturn t k => Sys2Proof.Machine.execLoadDataReturn t k s
  | .storeCompletion t k => Sys2Proof.Machine.execStoreCompletion t k s
  | .atomicCompletion t k => Sys2Proof.Machine.execAtomicCompletion t k s
  | .tldCompletion t k => Sys2Proof.Machine.execTldCompletion t k s
  | .pfCompletion t k => Sys2Proof.Machine.execPfCompletion t k s
  | .transcendentalResult t k => Sys2Proof.Machine.execTranscendentalResult t k s
  | .fairnessSwitch t => Sys2Proof.Machine.execFairnessSwitch t s
  | .deferredFairnessSwitch t => Sys2Proof.Machine.execDeferredFairnessSwitch t s
  | .passedLift t => Sys2Proof.Machine.execPassedLift t s
  | .schedulerSample core p => Sys2Proof.Machine.execSchedulerSample core p s
  | .trapEntry c => Sys2Proof.Machine.execTrapEntry c s
  | .stopRequest t c => Sys2Proof.Machine.execStopRequest t c s
  | .teamStop t => Sys2Proof.Machine.execTeamStop t s
  | .contextSave b => Sys2Proof.Machine.execContextSave b s
  | .contextRestore k core => Sys2Proof.Machine.execContextRestore k core s
  | .mxPrecCommand core => Sys2Proof.Machine.execMxPrecCommand core s
  | .mxLdbCommand core => Sys2Proof.Machine.execMxLdbCommand core s
  | .mxMmCommand core => Sys2Proof.Machine.execMxMmCommand core s
  | .mxStCommand core => Sys2Proof.Machine.execMxStCommand core s
  | .mxZeroCommand core => Sys2Proof.Machine.execMxZeroCommand core s
  | .matrixCommandCompletion core => Sys2Proof.Machine.execMatrixCommandCompletion core s
  | .streamEnd core e => Sys2Proof.Machine.execStreamEnd core e s
  | .copyStart core n => Sys2Proof.Machine.execCopyStart core n s
  | .copyCompletion core => Sys2Proof.Machine.execCopyCompletion core s
  | .codeObjectLoad name base phys file => Sys2Proof.Machine.execCodeObjectLoad name base phys file s
  | .captureArm core launch start => Sys2Proof.Machine.execCaptureArm core launch start s
  | .capture t => Sys2Proof.Machine.execCapture t s
  | .candidateTest core words => Sys2Proof.Machine.execCandidateTest core words s
  | .hingeInstall core launch e d => Sys2Proof.Machine.execHingeInstall core launch e d s
  | .hingeDecision t => Sys2Proof.Machine.execHingeDecision t s
  | .shadowComparison core e => Sys2Proof.Machine.execShadowComparison core e s
  | .breakpointHit t => Sys2Proof.Machine.execBreakpointHit t s
  | .debugStopRequest t => Sys2Proof.Machine.execDebugStopRequest t s
  | .debuggerResume t => Sys2Proof.Machine.execDebuggerResume t s
  | .bufferDescriptorWrite b d => Sys2Proof.Machine.execBufferDescriptorWrite b d s
  | .watchEntryWrite launch k d => Sys2Proof.Machine.execWatchEntryWrite launch k d s
  | .snapshotArmWrite arm done => Sys2Proof.Machine.execSnapshotArmWrite arm done s
  | .tqinWrite q payload => Sys2Proof.Machine.execTqinWrite q payload s
  | .tqtakeRead q => Sys2Proof.Machine.execTqtakeRead q s
  | .pcapWrite v => Sys2Proof.Machine.execPcapWrite v s
  | .registerWrite r v => Sys2Proof.Machine.execRegisterWrite r v s
  | .retrain link => Sys2Proof.Machine.execRetrain link s
  | .retrainComplete link => Sys2Proof.Machine.execRetrainComplete link s
  | .dataPacket link p => Sys2Proof.Machine.execDataPacket link p s
  | .ack link seq => Sys2Proof.Machine.execAck link seq s
  | .nak link seq => Sys2Proof.Machine.execNak link seq s
  | .pause link f => Sys2Proof.Machine.execPause link f s
  | .resume link f => Sys2Proof.Machine.execResume link f s
  | .ackTimer link => Sys2Proof.Machine.execAckTimer link s
  | .replayTimeout link => Sys2Proof.Machine.execReplayTimeout link s
  | .laneFailure link lane => Sys2Proof.Machine.execLaneFailure link lane s
  | .recovery link seq lanes => Sys2Proof.Machine.execRecovery link seq lanes s
  | .recoveryComplete link => Sys2Proof.Machine.execRecoveryComplete link s
  | .telemetryRefresh link r => Sys2Proof.Machine.execTelemetryRefresh link r s
  | .powerTelemetry r => Sys2Proof.Machine.execPowerTelemetry r s
  | .controllerEvaluation die r => Sys2Proof.Machine.execControllerEvaluation die r s
  | .clockSwitch cluster => Sys2Proof.Machine.execClockSwitch cluster s
  | .createWorld w prot session => Sys2Proof.Machine.execCreateWorld w prot session s
  | .destroyWorld w session => Sys2Proof.Machine.execDestroyWorld w session s
  | .debugUnlock valid digest => Sys2Proof.Machine.execDebugUnlock valid digest s
  | .pageOwnerChange page entry session => Sys2Proof.Machine.execPageOwnerChange page entry session s
  | .extend port digest => Sys2Proof.Machine.execExtend port digest s
  | .negotiateAlgorithms offer => Sys2Proof.Machine.execNegotiateAlgorithms offer s
  | .getCertificate slot offset length => Sys2Proof.Machine.execGetCertificate slot offset length s
  | .challenge slot nonce => Sys2Proof.Machine.execChallenge slot nonce s
  | .getMeasurements index nonce => Sys2Proof.Machine.execGetMeasurements index nonce s
  | .keyExchange session world => Sys2Proof.Machine.execKeyExchange session world s
  | .finish session valid => Sys2Proof.Machine.execFinish session valid s
  | .unsupportedRequest code => Sys2Proof.Machine.execUnsupportedRequest code s
  | .query session => Sys2Proof.Machine.execQuery session s
  | .keyProg port dir sub key => Sys2Proof.Machine.execKeyProg port dir sub key s
  | .kSetGo port dir sub => Sys2Proof.Machine.execKSetGo port dir sub s
  | .kSetStop port dir sub => Sys2Proof.Machine.execKSetStop port dir sub s
  | .illegalWord w => Sys2Proof.Machine.execIllegalWord w s
  | .debuggerAttach l => Sys2Proof.Machine.execDebuggerAttach l s
  | .debuggerDetach l => Sys2Proof.Machine.execDebuggerDetach l s
  | .nop => Sys2Proof.Machine.execNop s
  | .yield => Sys2Proof.Machine.execYield s
  | .unbind => Sys2Proof.Machine.execUnbind s
  | .monWait => Sys2Proof.Machine.execMonWait s
  | .eret => Sys2Proof.Machine.execEret s
  | .launchDescriptorCheck => Sys2Proof.Machine.execLaunchDescriptorCheck s
  | .snapshotTrigger => Sys2Proof.Machine.execSnapshotTrigger s
  | .snapshotLatch => Sys2Proof.Machine.execSnapshotLatch s
  | .budgetInterval => Sys2Proof.Machine.execBudgetInterval s
  | .packageReset => Sys2Proof.Machine.execPackageReset s
  | .getVersion => Sys2Proof.Machine.execGetVersion s
  | .getCapabilities => Sys2Proof.Machine.execGetCapabilities s
  | .getDigests => Sys2Proof.Machine.execGetDigests s

end Sys2Proof.Machine
end

