-- ==== Sys2Proof/Machine/Fetch.lean ====
section
/-! DEFINITION. What the machine does next: the scalar front-end and how far it runs ahead (R20 to R23, R222), the choices that agenda entries make, the events that follow by themselves, the word that the running context executes (R20, R56, R78, R123, R133, R202, R224, R227, R299, R358), and the choice of the next context. -/

namespace Sys2Proof.Machine

/-! ### Fetch -/

/-- What a fetch of the running context's word at `pc` leaves: its text read, and the slot that the front-end has served (R20). -/
def State.fetchAt (s : State) (pc : Nat) : State :=
  (if s.team.kind = .team then { s with core := { s.core with lastServed := s.team.cslot } } else s).readText pc

/-- The first of some contexts by a measure. -/
def firstBy (f : Team → Nat) (ts : List Team) : Option Team :=
  ts.foldl (fun r t => match r with
    | none => some t
    | some b => if f t < f b then some t else some b) none

/-- Of a core's teams the one that the front-end's rotation visits first (R20). -/
def State.frontChoice (s : State) (ts : List Team) : Option Team :=
  firstBy (fun t => (t.cslot + 63 - (s.getCore t.coreId).lastServed) % 64) ts

/-! ### The word of a context -/

/-- The words that a sequencer executes (R56, R123, R133, R299, R358). -/
def Instr.inStream (i : Instr) (matrix : Bool) : Bool :=
  match i with
  | .pand _ _ _ | .por _ _ _ | .pxor _ _ _ | .pnot _ _ => true
  | .nop | .exit | .br _ | .brc _ _ | .call _ | .ret | .jmp _ => true
  | .cp _ _ _ | .phase _ | .wait _ _ | .monWait => true
  | .latInit _ _ | .latArr _ | .latWait _ _ | .latArw _ | .latGen _ _ => true
  | .mxPrec _ _ | .mxLdb _ _ | .mxMm _ _ | .mxSt _ _ | .mxZero _ _ => matrix
  | .frcp _ d a _ | .frsq _ d a _ | .fsqrt _ d a _ | .fexp2 _ d a _ | .flog2 _ d a _ | .fsin _ d a _ | .fcos _ d a _ =>
    d.isScalar && a.isScalar
  | .ldB32 d a _ _ | .ldB8 d a _ _ | .ldB64 d a _ _ | .ldB16 d a _ _ | .ldB128 d a _ _ | .ldI8 d a _ _ | .ldI16 d a _ _ => d.isScalar && a.isScalar
  | .stB32 d a _ _ | .stB64 d a _ _ | .stB128 d a _ _ | .stB8 d a _ _ | .stB16 d a _ _ => d.isScalar && a.isScalar
  | .lrB32 d a _ _ | .lrB64 d a _ _ | .scB32 d a _ _ | .scB64 d a _ _ => d.isScalar && a.isScalar
  | .atom _ _ _ d a _ => d.isScalar && a.isScalar
  | .monArm _ d a _ => d.isScalar && a.isScalar
  | .pf a _ _ => a.isScalar
  | .mfsr x _ => x.toNat ∈ [0x66, 0x67, 0x68, 0x69, 0x6B, 0x6E, 0x70]
  | .mtsr x _ => x.toNat == 0x67
  | i => (regionAlu i).any fun a => a.scalarForm

/-- The words that a team executes: the matrix commands are a stream's (R123). -/
def Instr.inTeam (i : Instr) : Bool :=
  match i with
  | .mxPrec _ _ | .mxLdb _ _ | .mxMm _ _ | .mxSt _ _ | .mxZero _ _ => false
  | _ => true

/-- The word may run in a context of the kind. -/
def Instr.allowedIn (i : Instr) (k : CtxKind) : Bool :=
  match k with
  | .team => Instr.inTeam i
  | .mxStream => Instr.inStream i true
  | .cpStream => Instr.inStream i false

/-- The instruction that a fetched word is in a context; every other word is illegal there (R78). -/
def instrOf (k : CtxKind) (w : Word) : Instr :=
  match decode w with
  | some i => if Instr.allowedIn i k then i else .illegalWord w
  | none => .illegalWord w

/-- Where the text of a stream ends (R56): at its own end where the loader knows it, at the next kernel, stream or safe point, or at the end of the text (log 16). -/
def CodeObj.streamLimit (c : CodeObj) (first : Nat) : Nat :=
  let ends := (c.kernels.flatMap fun k => k.entry :: (k.mxStream.toList ++ k.cpStream.toList)) ++ c.streamEnds
    ++ c.safePoints.map fun p => 4 * p.off
  c.textOff + (ends.filter fun e => decide (first < c.textOff + e)).foldl min c.textBytes

/-- The running sequencer has passed the last word of its stream (R56). -/
def State.streamOver (s : State) : Bool :=
  match s.team.kind with
  | .team => false
  | .mxStream => s.team.pc == s.launch.code.streamLimit (s.blk.mxEntry.getD 0)
  | .cpStream => s.team.pc == s.launch.code.streamLimit (s.blk.cpEntry.getD 0)

/-- An engine fault of the running team's own command that its next safe point takes (R131, R161). -/
def State.safeFault (s : State) : Option TrapCause :=
  (s.team.engFaults.find? fun f => match f.origin with
    | .team _ _ => true
    | _ => false).map (·.cause)

/-! ### Running ahead (R20 to R23, R222) -/

/-- Entries of a decision queue (R21). -/
def queueEntries : Nat := 32
/-- Entries of a team's undo log (R222). -/
def undoEntries : Nat := 32

/-- The front-end queues the word and stalls the team until it has issued: a rendezvous and an illegal word (R22), an ordered atomic, which drains (R175), the divergence words and `exit`, which are fetch barriers (R298, R320). -/
def Instr.stalls : Instr → Bool
  | .ifp _ _ | .elsep _ | .endif | .loopBeg | .loopEnd _ | .brk _ _ | .cont _ _ | .exit => true
  | i => Instr.rendezvous i || Instr.drains i

/-- The predicate that a word writes (R19). -/
def Instr.setsPred : Instr → Option (Fin 8)
  | .cmp _ p _ _ | .cmpImm _ p _ _ | .fcmp _ _ p _ _ | .pand p _ _ | .por p _ _ | .pxor p _ _ | .pnot p _ => some p
  | _ => none

/-- The predicate that a word of the front-end reads (R307). -/
def Instr.usesPred : Instr → Option (Fin 8)
  | .brc p _ | .sel _ _ _ p => some p.num
  | _ => none

/-- The scalar registers of a destination of `n` registers. -/
def scalarRegs (d : Reg) (n : Nat) : List Nat :=
  match d with
  | .s i => upList i.val n
  | _ => []

/-- The scalar registers that a word of the front-end writes, if it has no other effect: such a word may execute ahead of the team's queued vector words (R23, R222). -/
def Instr.scalarDests : Instr → Option (List Nat)
  | .nop | .br _ | .brc _ _ | .ret | .jmp _ => some []
  | .call _ => some [32, 33]
  | .mfsr x d => if Instr.frontEnd (.mfsr x d) then some (scalarRegs d (if x = 0x70 then 2 else 1)) else none
  | .hngRd _ d => some (scalarRegs d 4)
  | i => match Instr.setsPred i, regionAlu i with
    | none, some a => if a.scalarForm then some (scalarRegs a.dst (((a.regs.find? fun e => e.1 == a.dst).map (·.2)).getD 1)) else none
    | _, _ => none

/-- The context as the front-end finds it behind some words that it has taken ahead. -/
def Team.frontOver : List QueueWord → Team → Team
  | [], tm => tm
  | e :: r, tm => Team.frontOver r (match e.ran with
    | some x => (x.regs.foldl (fun tm w => tm.wrS w.1 w.2) tm).pastWord 0 x.next
    | none => tm.pastWord 0 (e.pc + 4))

/-- The state as the front-end finds it for the running team, behind everything that it has taken ahead. -/
def State.frontView (s : State) : State :=
  { s with team := { Team.frontOver s.team.ahead s.team with queue := [], owed := [], pend := [], parked := none } }

/-- Something is to happen to the running team at its word, a safe point, before it: a breakpoint (R257), a stop (R224), an engine fault (R131) or an escape (R249). The front-end does not take the word. -/
def State.safeHeld (s : State) : Bool :=
  s.atSafe && (!s.bpHits.isEmpty || !s.team.stops.isEmpty || s.safeFault.isSome || !s.team.escapes.isEmpty)

/-- The capture unit takes the execution that the running team begins (R237); a hinge there is decided first. -/
def State.captures (s : State) : Bool :=
  match s.core.capUnit with
  | none => false
  | some u =>
    let idx := textIdx s.launch.code s.team.pc
    u.armed && u.launchUid == s.launch.uid && u.start == idx && s.team.ready && !s.team.captured && s.team.capturing.isNone && s.team.cand.isNone && !s.decides
      && !s.team.execZero && !s.team.shadowOpen && (match s.regionAt idx with
        | some r => r.start == u.start
        | none => false)

/-- The front-end has stalled the running team at the last word that it has queued (R22, R298). -/
def State.barred (s : State) : Bool :=
  match s.team.ahead.getLast? with
  | some e => e.ran.isNone && Instr.stalls (instrOf .team e.word)
  | none => !s.team.owed.isEmpty && Instr.stalls s.team.issWord

/-- A vector word that writes predicate `p` has not issued yet, or not all of its passes (R307). -/
def State.predQueued (s : State) (p : Fin 8) : Bool :=
  (!s.team.owed.isEmpty && Instr.setsPred s.team.issWord == some p) ||
    s.team.ahead.any fun e => e.ran.isNone && Instr.setsPred (instrOf .team e.word) == some p

/-- Frequel has to do with a scalar word of the running team, which comes to it at `v`: the word begins a region whose hinge is decided or whose execution is captured there, or lies in a captured execution (R237, R239, R244). The front-end leaves it for its turn in program order. -/
def State.inFrequel (s v : State) : Bool := s.team.capturing.isSome || v.decides || v.captures

/-- Entries of the running team's undo log (R222). -/
def Team.logged (tm : Team) : Nat := (tm.ahead.map fun e => ((e.ran.map (·.old)).getD []).length).sum

/-- The running context has executed a scalar word from `v` on and stands at `u`: nothing has happened but the write of scalar registers (R222). A trap, the end of a launch and an event of R100 come in program order. -/
def ranClean (v u : State) : Bool :=
  decide (u.team.key = v.team.key) && decide (u.team.threads ≠ 0) && u.team.priv? == v.team.priv? && u.team.parked.isNone && decide (u.launch.fpcnt = v.launch.fpcnt)

/-- The word that the front-end takes next for the running team behind the queue (R20 to R23, R222, R298, R307): a vector word, or a scalar word with the scalar registers that it writes and their old values; none while the queue or the undo log is full, the front-end has stalled the team, the word is held at a safe point, cannot be fetched, or is a scalar word that must wait. -/
def State.frontTake (s : State) : Option QueueWord :=
  let v := s.frontView
  if s.team.cand.isSome || s.barred || queueEntries ≤ (s.team.ahead.filter fun e => e.ran.isNone).length || v.safeHeld then none
  else match v.fetchWord v.team.pc with
  | .error _ => none
  | .ok w =>
    let i := instrOf .team w
    if !Instr.frontEnd i then some { pc := v.team.pc, word := w }
    else match Instr.scalarDests i with
    | none => none
    | some ds =>
      if s.inFrequel v || (Instr.usesPred i).any s.predQueued || undoEntries < s.team.logged + ds.length then none
      else match exec i v with
      | .next u =>
        if ranClean v u then
          some { pc := v.team.pc, word := w, ran := some { next := u.team.pc, regs := ds.map fun r => (r, u.team.rdS r), old := ds.map fun r => (r, v.team.rdS r) } }
        else none
      | _ => none

/-- The front-end takes the next word of the running team: a vector word enters the decision queue; a scalar word has executed, and its old values are logged while a vector word stands before it (R20, R21, R222). -/
def State.takeAhead (s : State) : State :=
  match s.frontTake with
  | none => s
  | some e =>
    let s := s.fetchAt e.pc
    let tm := s.team
    { s with team := if e.ran.isSome && tm.ahead.isEmpty then Team.settleRan [e] tm else { tm with queue := tm.ahead ++ [e] } }

/-! ### Agenda entries (log 1) -/

/-- The steps of the table that an agenda entry may name: those without an encoding, but for the three that always have a cause in the machine. -/
def Instr.isEvent (i : Instr) : Bool :=
  match i with
  | .trapEntry _ | .illegalWord _ | .launchFailure _ _ _ _ _ _ => false
  | i => (encodeRaw false i).isNone

/-- A core's copy of a line moves forward (R167, R180): the cluster unit's copy, by a request that is charged (R291), then the core's, are read again, each with the stores made to it; the core's line comes by a charged request where the cluster unit holds no copy. -/
def State.moveForward (s : State) (core line : Nat) : State :=
  let k := clusterOf core
  let m := s.pm s.pkg
  let s := match tget none (s.getCluster k).view.lines line with
    | none => s
    | some _ => s.modCluster k fun c =>
      let c := { c with view := c.view.drop line }
      { c.charge 64 with view := c.view.take line (c.newByte m) (c.lostAt m) }
  match tget none (s.getCore core).view.lines line with
  | none => s
  | some _ =>
    let s := if (tget none (s.getCluster k).view.lines line).isNone then s.modCluster k fun c => c.charge 64 else s
    s.modCore core fun c =>
      let c := { c with view := c.view.drop line }
      { c with view := c.view.take line (c.newByte (s.getCluster k) m) (c.lostAt (s.getCluster k) m) }

/-- SA of a page of this package (R270). -/
def State.pageSa (s : State) (page : Nat) : Nat := bitsOf (tget 0 (s.pm s.pkg).owners page).toNat 7 6

/-- A captured or replayed launch that has not ended has run on the core, whose view then writes down only what a publish requires (R267). -/
def State.holdsLines (s : State) (core : Nat) : Bool :=
  (tvals s.launchTbl).any fun l => l.replay != 0 && decide (l.status = .running) && l.placements.any fun p => p.2.1 == core

/-- A place of lost data comes to be (R228, R272): in HBM4 (0), in a home slice (1), or as a tag or counter that no longer matches (2), which only a page of SA 2 has. What Tumbler keeps in its metadata region is its own. -/
def State.corrupt (s : State) (phys place : Nat) : State :=
  if (s.pm s.pkg).isMeta (phys / 65536) ∨ (place = 2 ∧ s.pageSa (phys / 65536) ≠ 2) then s
  else s.modPm s.pkg fun m => { m with poison := tput 0 m.poison phys (if place = 2 then 4 else if place = 1 then 2 else 1) }

/-- An uncorrectable error in a core's copy of a line of text (R228): the line leaves the instruction cache and the view, and is fetched again; nothing is reported. -/
def State.corruptText (s : State) (core line : Nat) : State :=
  s.modCore core fun c => if c.hasText line then { c with icache := c.icache.filter (· ≠ line), view := c.view.drop line } else c

/-- An uncorrectable error in the candidate text of a hinge entry (R228, R251): the text is fetched again from the hinge area, with its requests charged (R291); nothing is reported. Where it can no longer be fetched, the entry keeps what it has (log 36). -/
def State.corruptHinge (s : State) (core entry : Nat) : State :=
  match (s.getCore core).hinges.find? fun h => h.1 == entry with
  | none => s
  | some (_, h) =>
    let f := s.focusCore core h.launchUid
    let n := hgClen h.desc + 1
    match f.hingeText h.desc n with
    | .error _ => s
    | .ok ws =>
      let r := (f.readHinge h.desc n).putHinge entry { h with text := ws }
      if s.team.threads = 0 then r else r.focus s.team.key

/-- What an agenda entry that names no step of the table does. -/
def State.doAct (s : State) (a : Act) : State :=
  match a with
  | .event _ | .turn _ | .front _ => s
  | .writeDownCore core line => if s.holdsLines core then s else s.coreDown core fun a => a / 64 == line
  | .writeDownCluster k line => s.clusDown k fun a => a / 64 == line
  | .moveForward core line => s.moveForward core line
  | .evict core base => s.modCore core fun c => { c with tlb := c.tlb.filter fun e => e.base != base }
  | .evictCluster k base => s.modCluster k fun c => { c with tlb := c.tlb.filter fun e => e.base != base }
  | .hostInvalidate base =>
    let f := fun (l : List TlbEntry) => l.filter fun e => !e.covers e.root base
    (s.mapCores fun _ c => { c with tlb := f c.tlb }).mapClusters fun _ c => { c with tlb := f c.tlb }
  | .corrupt phys place => s.corrupt phys place
  | .corruptSpad b off => s.modBlk b fun b => { b with spadPoison := tput 0 b.spadPoison off 3 }
  | .corruptText core line => s.corruptText core line
  | .corruptHinge core entry => s.corruptHinge core entry
  | .hostWrite addr bytes =>
    let s := { s with hostMem := s.hostMem.writeBytes addr bytes }
    bytes.zipIdx.foldl (fun s b => s.mapTeams fun tm => tm.loseResv (.hostLine ((addr + b.2) / 64)) (2 ^ 32) 0) s
  | .remoteWrite phys bytes =>
    if !s.linked then s else bytes.zipIdx.foldl (fun s b => if s.pageSa ((phys + b.2) / 65536) = 0 ∧ (s.pm s.pkg).isMeta ((phys + b.2) / 65536) = false then s.homeWrite s.pkg (phys + b.2) b.1 (2 ^ 32) 0 else s) s
  | .linkSend k kind cnt carries => s.modLink k fun l => l.send kind cnt carries
  | .linkDrain k vc flits => s.modLink k fun l => l.drainRx vc flits
  | .corrected d => if 4 ≤ d then s else s.modDie d fun x => { x with corrected := x.corrected + 1 }
  | .lostAccess k ts => if k < linkCount ∧ (s.link k).dying then { s with xLost := some (k, ts) } else s
  | .integrityStrap on => { s with integrityNext := on }
  | .generatorLock k => if Config.clusters ≤ k then s else s.generatorLock k
  | .railStep d => if 4 ≤ d then s else s.railStep d

/-! ### Events that follow by themselves -/

/-- The completion of access `k` of a context, or of its part on the first path where it is still on its way. -/
def completionOf (t k : Nat) (a : Access) : Option Instr :=
  let part := fun (f : Nat → AccPart → Instr) => (a.paths.find? fun p => !a.doneOn p).map fun p => f t { idx := k, path := p }
  match a.kind with
  | .load => part .loadDataReturn
  | .store => part .storeCompletion
  | .atomic => part .atomicCompletion
  | .tld => some (.tldCompletion t k)
  | .pf => some (.pfCompletion t k)
  | .trans => some (.transcendentalResult t k)
  | _ => none

/-- The completion of the first access of a context that is still on its way; a store into another package waits for a link (R184, R285). -/
def State.nextCompletion (s : State) (tm : Team) : Option Instr :=
  tm.inflight.zipIdx.findSome? fun a => if a.1.done || s.farHeld a.1 then none else completionOf tm.key a.2 a.1

/-- What one context has coming: its end, its stop where it is parked (R206, R224), or a completion. Its end and its stop wait for stores on their way to other packages (R224, R321). -/
def State.autoTeam (s : State) (tm : Team) : List Instr :=
  if tm.ended then
    match tm.kind with
    | .team => if tm.stopped then [] else if tm.inflight.any s.farHeld then (s.nextCompletion tm).toList else [.teamEnd tm.key]
    | _ => if ((s.getBlk tm.blkKey).getD {}).hasWork tm.origin then [] else [.streamEnd tm.coreId tm.origin.engine]
  else
    let pending := (s.focus tm.key).stopHeld
    (if !tm.stops.isEmpty && !tm.stopped && tm.parked.any Park.stops && !pending then [.teamStop tm.key] else []) ++ (s.nextCompletion tm).toList

/-- The step that a matrix command takes. -/
def mxEvent (c : MxCmd) (core : Nat) : Instr :=
  match c with
  | .prec => .mxPrecCommand core
  | .ldb => .mxLdbCommand core
  | .mm => .mxMmCommand core
  | .st => .mxStCommand core
  | .zero => .mxZeroCommand core

/-- What a block has coming: its end, and its engines' work. Under pre-emption a running command completes, but for an `mx.mm`, which stops between rows (R139). -/
def State.autoBlock (s : State) (b : Block) : List Instr :=
  let stop := s.preempting b.key
  (if s.blockDone b then [Instr.blockEnd b.key] else []) ++
  (match b.mxFifo with
    | [] => []
    | x :: _ => if x.finished then [Instr.matrixCommandCompletion b.coreId]
      else if stop && (!x.started || decide (x.cmd = .mm)) then [] else [mxEvent x.cmd b.coreId]) ++
  (match b.cpFifo with
    | [] => []
    | x :: _ => if x.finished then [Instr.copyCompletion b.coreId] else if stop then [] else [Instr.copyStart b.coreId 64])

/-- Comparisons of a core that may run (R246). -/
def State.autoCore (s : State) (e : Nat × Core) : List Instr :=
  (e.2.hinges.filter fun h => h.2.pending.head?.any s.mayCompare).map fun h => .shadowComparison e.1 h.1

/-- A launch that depends on one that has failed or was refused (R187). -/
def State.orphan (s : State) (l : Launch) : Bool :=
  decide (l.status = .accepted) && l.placed == 0 && l.deps.any fun u => match s.getLaunch u with
    | some m => decide (m.status = .failed) || decide (m.status = .refused)
    | none => false

/-- Everything that the machine may do by itself, beside the running context. -/
def State.autos (s : State) : List Instr :=
  (if s.hub.nextQueue.isSome then [Instr.launchDescriptorCheck] else []) ++
  (match (tvals s.launchTbl).find? fun l => s.placeable l || s.orphan l with
    | some l => [Instr.blockPlacement l.uid]
    | none => []) ++
  (tvals s.teamTbl).flatMap s.autoTeam ++ (tvals s.blkTbl).flatMap s.autoBlock ++
  ((tvals s.launchTbl).filter Launch.finished).map (fun l => Instr.launchEnd l.uid) ++
  s.coreTbl.flatMap s.autoCore ++ (if s.latchTick.isSome then [Instr.snapshotLatch] else [])

/-- The next of these, in rotation. -/
def State.auto (s : State) : Option Instr :=
  let l := s.autos
  l[s.autoCount % l.length]?

/-! ### The word of the running context -/

/-- A fairness switch of the running team is due (R34, R36). -/
def State.fairDue (s : State) : Option Instr :=
  match s.team.deferred with
  | some n => if !s.team.hinging && s.team.owed.isEmpty && (n == 0 || !s.team.lrOpen) then some (.deferredFairnessSwitch s.team.key) else none
  | none => if (s.team.fairOther s.launch.fairt).isSome then some (.fairnessSwitch s.team.key) else none

/-- The step that comes before the running team's word at a safe point: a breakpoint (R257), a stop (R224), a fault (R131) or an escape (R249). -/
def State.safeDue (s : State) : Option Instr :=
  if !s.atSafe then none
  else if !s.bpHits.isEmpty then some (.breakpointHit s.team.key)
  else if !s.team.stops.isEmpty && !s.stopHeld then some (.teamStop s.team.key)
  else match s.safeFault with
    | some c => some (.trapEntry c)
    | none => s.team.escapes.head?.map fun e => .trapEntry { cls := .escape, detail := BitVec.ofNat 16 e }

/-- The step that comes before the running context's word, if any. -/
def State.due (s : State) : Option Instr :=
  if s.team.kind ≠ .team ∨ s.team.cand.isSome then none
  else
    (s.fairDue.or s.safeDue).or
      (if s.decides then some (.hingeDecision s.team.key) else if s.captures then some (.capture s.team.key) else none)

/-- A context that may execute a word: not a team whose slots a comparison takes, none that an audit holds (R246), and none whose stop is in progress (R224). -/
def State.runnable (s : State) (tm : Team) : Bool :=
  match tm.kind with
  | .team => tm.ready && !(s.getCore tm.coreId).holds tm.key && !(s.focus tm.key).auditWaits && !(s.focus tm.key).stopWaits
  | _ => decide (tm.threads ≠ 0) && tm.parked.isNone && !tm.ended && !s.preempting tm.blkKey

/-- The quarter has something of the team to issue: passes of its last word, a candidate's word, or a queued word. -/
def State.quarterReady (s : State) (tm : Team) : Bool := s.runnable tm && (!tm.owed.isEmpty || tm.cand.isSome || !tm.ahead.isEmpty)

/-- The word at which a context is parked waits at issue (R28, R135, R159): the front-end may go on behind it. -/
def Park.atIssue : Park → Bool
  | .full _ | .fifo _ | .link | .replay _ _ | .capture _ => true
  | _ => false

/-- The front-end has something of the team to take (R20): its next word, with nothing queued before it, or a word behind those that it has taken ahead. -/
def State.frontReady (s : State) (tm : Team) : Bool :=
  if tm.ready && tm.ahead.isEmpty && tm.owed.isEmpty then s.runnable tm && tm.cand.isNone
  else decide (tm.kind = .team) && decide (tm.threads ≠ 0) && !tm.stopped && !tm.ended && tm.parked.all Park.atIssue && (s.focus tm.key).frontTake.isSome

/-- Of a quarter's teams the one that R202 chooses: of those with a ready pass the highest level, then the first slot after RP. -/
def State.choice (s : State) (ts : List Team) : Option Team :=
  let top := (ts.map Team.level).foldl max 0
  let rp := fun (t : Team) => (tget {} (s.getCore t.coreId).quarters t.qtr).rp
  firstBy (fun t => (t.slot + 15 - rp t) % 16) (ts.filter fun t => t.level == top)

/-- Of the contexts that a unit may run the one that it runs. A quarter's team whose head meets a wait at issue is found to wait before the choice, without a cycle. -/
def State.unitChoice (s : State) (u : Nat) (ts : List Team) : Option Team :=
  if u % 7 = 6 then s.frontChoice ts
  else (ts.find? fun t => decide (t.kind = .team) && !s.passReady t).or (s.choice ts)

/-- The units of a core: its four quarters, its two sequencers and its scalar front-end (R20). -/
def quarterUnit (tm : Team) : Nat := 7 * tm.coreId + match tm.kind with
  | .team => tm.qtr
  | .mxStream => 4
  | .cpStream => 5
def frontUnit (core : Nat) : Nat := 7 * core + 6

/-- The contexts that the units may run, each with its unit. -/
def State.offers (s : State) : List (Nat × Team) :=
  (tvals s.teamTbl).flatMap fun t =>
    (if (if t.kind = .team then s.quarterReady t else s.runnable t) then [(quarterUnit t, t)] else [])
    ++ if t.kind = .team && s.frontReady t then [(frontUnit t.coreId, t)] else []

/-- The context that a unit would run now. -/
def State.unitPick (s : State) (u : Nat) : Option Team := s.unitChoice u ((s.offers.filter fun x => x.1 == u).map (·.2))

/-- The context is the one that its quarter or sequencer would run now: an agenda entry may move a unit's turn, not its choice. -/
def State.chosen (s : State) (k : Nat) : Bool :=
  match s.getTeam k with
  | none => false
  | some tm => (s.unitPick (quarterUnit tm)).any fun t => t.key == k

/-- The running turn is that of the running team's front-end (R20). -/
def State.frontTurn (s : State) : Bool := decide (s.team.kind = .team) && s.lastUnit == frontUnit s.team.coreId && s.team.cand.isNone

/-- The running team's vector word, with nothing queued before it, passes through the decision queue at once: its quarter would choose it (R20, R202). -/
def State.passesThrough (s : State) (w : Word) : Bool :=
  let s : State := { s with team := { s.team with queue := [{ pc := s.team.pc, word := w }] } }
  (s.choice ((tvals s.teamTbl).filter fun t => t.coreId == s.team.coreId && t.qtr == s.team.qtr && s.passReady t)).any fun t => t.key == s.team.key

/-- What the machine does in one step with nothing on its agenda. -/
inductive Todo where
  | auto (i : Instr)
  | owed
  | ahead
  | due (i : Instr)
  | word (i : Instr)
  | noFetch (e : MemErr)
  | idle
  deriving DecidableEq, Repr

/-- What the running context does with its next word, or before it. -/
def State.wordTodo (s : State) : Todo :=
  match s.due with
  | some i => .due i
  | none =>
    match s.team.cand.bind fun c => c.words.head? with
    | some w => .due (instrOf .team w)
    | none =>
      if s.streamOver then .due .exit
      else match s.nextWord with
        | .error e => .noFetch e
        | .ok w => if s.frontTurn && !Instr.frontEnd (instrOf s.team.kind w) && !s.passesThrough w then .ahead else .word (instrOf s.team.kind w)

/-- What the running context does: on its front-end's turn the front-end takes a word behind those that wait to issue, if any; else the passes that it owes come before its next word. -/
def State.contextTodo (s : State) : Todo :=
  if s.frontTurn && (!s.team.ready || !s.team.ahead.isEmpty || !s.team.owed.isEmpty) then .ahead
  else if !s.team.owed.isEmpty then .owed else s.wordTodo

/-- The running context may move. -/
def State.mayRun (s : State) : Bool := s.runnable s.team || (s.frontTurn && s.frontReady s.team)

/-- The next step with nothing on the agenda: the running context's, but every sixteenth step at the latest something else that is possible. -/
def State.todo (s : State) : Todo :=
  if s.mayRun && decide (s.sinceAuto < 16) then s.contextTodo
  else match s.auto with
    | some i => .auto i
    | none => if s.mayRun then s.contextTodo else .idle

/-- The results due that a word has waited for (R25): those that it reads or writes, all where it waits for every one, or where `Instr.operands` does not list its operands. -/
def Team.pastWaits (tm : Team) (i : Instr) : List (Dest × Nat) :=
  match Instr.operands i with
  | some es => if Instr.flushes i then [] else tm.awaited.filter fun r => !es.any fun e => tm.meets e r
  | none => []

/-- The running context's next word begins: its passes, of which other teams' may fall between, but those of a limb instruction issue back to back (R112, R201); what it has waited for; and the word itself. -/
def State.beginWord (s : State) (i : Instr) : State :=
  { s with team := { s.team with issuing := if Instr.limbWord i then 1 else s.team.passes, issWord := i, awaited := s.team.pastWaits i } }

/-- What the running context's next word leaves before it acts: nothing where it comes from the decision queue, else what its fetch leaves. -/
def State.fetchFill (s : State) : State :=
  if s.team.ahead.isEmpty then s.fetchAt s.team.pc else s

/-! ### After a step -/

/-- A candidate's word has issued its passes: the next one follows, or fetch continues after the region (R245). -/
def State.candNext (s : State) : State :=
  match s.team.cand with
  | none => s
  | some c => match c.words with
    | _ :: w :: ws => { s with team := { s.team with pc := c.entry, cand := some { c with words := w :: ws } } }
    | _ => { s with team := { s.team with pc := c.regionEnd, cand := none } }

/-- The running team issues the next pass that it owes (R201, R202); behind the last one a candidate's next word follows. -/
def State.owedPass (s : State) : State :=
  let s := s.issuePass
  if s.team.owed.isEmpty then s.candNext else s

/-- The context that runs next, with its unit: units take turns. -/
def State.pick (s : State) : Option (Nat × Team) :=
  let us := s.offers
  let later := us.filter fun u => decide (s.lastUnit < u.1)
  let ts := if later.isEmpty then us else later
  match ts with
  | [] => none
  | t :: r =>
    let u := (r.map (·.1)).foldl min t.1
    (s.unitChoice u ((us.filter fun x => x.1 == u).map (·.2))).map fun t => (u, t)

/-- A unit's turn: its number is kept. -/
def State.serve (s : State) (u : Nat) : State := { s with lastUnit := u }

/-- Give the turn to the next context. -/
def State.rotate (s : State) : State :=
  match s.pick with
  | none => s
  | some (u, t) => (if t.key = s.team.key ∧ s.team.threads ≠ 0 then s else s.focus t.key).serve u

/-- Time passes, and the model's own counters move on (log 4). -/
def State.advance (s : State) (auto : Bool) : State :=
  { s with
    time := s.time + BitVec.ofNat 64 (Config.ticks s.freeCount), freeCount := s.freeCount + 1,
    sinceAuto := if auto then 0 else s.sinceAuto + 1, autoCount := if auto then s.autoCount + 1 else s.autoCount }

/-- The last word's remote access has failed with its link (R286): the link, whose failed lanes leave it no clean quarter (R285), goes down when its recovery ends, and other accesses may fail with it before. -/
def State.dropLink (s : State) : State :=
  match s.xLost with
  | some x => ({ s with xLost := none } : State).modLink x.1 fun l => { l with doomed := true }
  | none => s

/-- The work of the queues that no instruction waits for: a posted write reaches host memory (R185; log 3), and each core's oldest race record its debug buffer (R262). -/
def State.background (s : State) : State := foldS (fun s c => s.raceOne c) (s.coreTbl.map (·.1)) s.postOne

/-- What follows every step of a context or of the machine: the engines' commands of one cycle, a snapshot whose tick has come, parties whose condition holds wake, and the next context takes its turn. -/
def State.tail (s : State) (auto : Bool) : State := (s.engines.advance auto).latchNow.dropLink.background.wakeAll.rotate

/-- What follows an agenda entry that names no step. -/
def State.pass (s : State) : State := (s.advance false).latchNow.wakeAll

/-- The outcome of a step with its tail. -/
def after (auto : Bool) (o : Out) : Out :=
  match o with
  | .next s => .next (s.tail auto)
  | x => x

/-- The same for a word that may be a candidate's. -/
def afterWord (cand : Option CandRun) (o : Out) : Out :=
  match o with
  | .next s => .next (if cand.isSome && decide (s.team.cand = cand) && s.team.owed.isEmpty then s.candNext.tail false else s.tail false)
  | x => x

/-- The trap of a word that cannot be fetched (R227): FAULTMASK zero, ADDR the word's pointer. -/
def State.noFetch (s : State) (e : MemErr) : Out := s.memTrap e [] (mkPtr 7 0 s.team.pc)

end Sys2Proof.Machine
end

