-- ==== Sys2Proof/Machine/Step.lean ====
section
/-! DEFINITION. One step of the machine: the agenda's next entry, or, with nothing on the agenda, what follows by itself (log 1). -/

namespace Sys2Proof.Machine

/-- The outcome of a word of the context `pre`, with what the capture unit notes of it (R239). -/
def captured (pre : Team) (i : Instr) (o : Out) : Out :=
  match o with
  | .next s => .next (s.captureWord pre i)
  | x => x

/-- A step with nothing on the agenda: the running context's word, or an event that the machine makes by itself. -/
def turn (s : State) : Host.Outcome State Fault Refusal :=
  match s.todo with
  | .auto i => after true (exec i s)
  | .owed => .next (s.owedPass.tail false)
  | .ahead => .next (s.takeAhead.tail false)
  | .due i => afterWord s.team.cand (exec i (if s.team.cand.isSome then s.beginWord i else s))
  | .word i => after false (captured s.team i (exec i (s.fetchFill.beginWord i)))
  | .noFetch e => after false (s.fetchFill.noFetch e)
  | .idle => .next (s.tail false)

/-- One step. -/
def step (s : State) : Host.Outcome State Fault Refusal :=
  match s.agenda with
  | [] => turn s
  | .event i :: r =>
    if Instr.isEvent i then after true (exec i { s with agenda := r }) else .next ({ s with agenda := r } : State).pass
  | .turn k :: r =>
    let s : State := { s with agenda := r }
    if s.chosen k then turn ((s.focus k).serve (quarterUnit ((s.getTeam k).getD {}))) else .next s.pass
  | .front core :: r =>
    let s : State := { s with agenda := r }
    match s.unitPick (frontUnit core) with
    | some t => turn ((s.focus t.key).serve (frontUnit core))
    | none => .next s.pass
  | a :: r => .next (({ s with agenda := r } : State).doAct a).pass

/-- The matrix commands, which only a matrix stream runs (R123). -/
def streamWord (w : Nat) : Bool := w / 2 ^ 25 % 64 == 0x38 && decide (w / 16 % 8 < 5)

/-- A launch that runs, for a state that holds none: world 0, one block, no trap entry. -/
def hostLaunch (l : Launch) : Launch :=
  if l.uid ≠ 0 then l else { l with uid := 1, status := .running, blocks := 1, placed := 1 }

/-- A block of the launch that claims its core's engine set, for a state that runs none. -/
def hostBlock (b : Block) (l : Launch) (core : Nat) : Block :=
  if b.key ≠ 0 then b
  else { b with key := blockKey l.uid 0, launchUid := l.uid, coreId := core, origin := core, claims := true, teamCount := 1, teamsLeft := 1 }

/-- The running context made ready to fetch its next word, with nothing due before it. -/
def readyTeam (t : Team) (b : Block) (l : Launch) (core : Nat) (mx : Bool) : Team :=
  { t with
    kind := if mx then .mxStream else if t.kind = .mxStream then .team else t.kind,
    key := if mx then streamKey core .mx else t.key, coreId := core, blkKey := b.key, launchUid := l.uid,
    threads := max 1 t.threads, regs := max 8 t.regs, parked := none, stopped := false, ended := false, stops := [], engFaults := [],
    escapes := [], cand := none, capturing := none, probation := none, deferred := none, lastSwitch := t.fair, captured := true, decided := some t.pc,
    hitBps := l.bps.map (·.1), hitAt := some t.pc, queue := [], owed := [], holdFor := 0, raised := none, awaited := [] }

/-- The state with one instruction stored where the next step fetches: a context of a running launch, a buffered translation of its program counter to page 0 of main memory, and the word there (log 7). -/
def State.withFetchWord (s : State) (nbits w : Nat) : State :=
  let word := w % 2 ^ min nbits 32
  let mx := streamWord word
  let pc := s.team.pc
  let l := hostLaunch s.launch
  let l := { l with code := { l.code with textBytes := max l.code.textBytes (pc + 4 - l.code.textOff) } }
  let b := hostBlock s.blk l s.core.id
  let b := if mx then { b with mxRun := true, mxEntry := some pc } else b
  let off := (l.code.base + pc) % 2 ^ 48
  let a := off % 65536
  let e : TlbEntry :=
    { root := l.root, base := off - a, big := false, frame := 0, rowlen := 0, efmt := 0, geo := false, alias_ := false, sa := 0,
      x := true, w := true, rd := true }
  let clean := fun (v : View) =>
    { v.drop (a / 64) with dirty := terase (terase (terase (terase v.dirty a) (a + 1)) (a + 2)) (a + 3) }
  let s := { s with
    team := readyTeam s.team b l s.core.id mx, blk := b, launch := l, core := { s.core with tlb := e :: s.core.tlb, view := clean s.core.view },
    agenda := [], sinceAuto := 0, lastUnit := quarterUnit (readyTeam s.team b l s.core.id mx) }
  let s := { s with hub := { s.hub with nextUid := max 2 s.hub.nextUid } }
  let s := s.modCluster (clusterOf s.core.id) fun c => { c with view := clean c.view }
  s.modPm s.pkg fun m => { m with bytes := m.bytes.writeBytes a (leBytes 4 word), poison := m.poison.filter fun e => e.1 < a || a + 4 ≤ e.1 }

end Sys2Proof.Machine
end

