-- ==== Sys2Proof/Safety.lean ====
section
/-! DEFINITION. What claims are stated in: runs and runs that never stop, the invariants of the machine, completion, and what a register word leaves. -/

namespace Sys2Proof.Machine

/-! ### Runs and invariants -/

/-- `t` follows from `s` by any number of steps that each give a next state. -/
inductive Run : State → State → Prop where
  | here (s : State) : Run s s
  | more (s t u : State) (h : Run s t) (k : step t = .next u) : Run s u

/-- No run from `s` stops. -/
def Safe (s : State) : Prop := ∀ t, Run s t → ∃ u, step t = .next u

/-- The memories that programs of every package share are in their canonical form: main memory and host memory. -/
def State.memOk (s : State) : Prop := (∀ p, (s.pm p).bytes.wf = true) ∧ s.hostMem.wf = true

/-- World 0 is open (R269). -/
def State.worldOk (s : State) : Prop := s.world 0 = .open_

/-- The package cap lies at or below its fused ceiling (R276, R293). -/
def State.capOk (s : State) : Prop := s.power.pcap ≤ Config.powerCeiling

/-- The page owner entry of a page (R270). -/
def State.ownerOf (s : State) (pkg page : Nat) : BitVec 16 := tget 0 (s.pm pkg).owners page

/-- The entries of the page owner table that Tumbler accepts: no reserved bit, no SA 3, no attribute for world 0 (R270). -/
def State.ownersOk (s : State) : Prop := ∀ page, ownerOk (s.ownerOf s.pkg page) = true

/-- Measurement register `k` (R274). -/
def State.mr (s : State) (k : Nat) : BitVec 512 := tget 0 s.tumbler.mr k

/-- The entry at the head of the agenda, when it names a step of the table. -/
def State.headEvent (s : State) : Option Instr :=
  match s.agenda with
  | .event i :: _ => some i
  | _ => none

/-! ### Completion -/

/-- The instruction answers a next state, of which `P` holds. -/
def Completes (i : Instr) (s : State) (P : State → Prop) : Prop := ∃ t, exec i s = .next t ∧ P t

/-! ### Register words (R296) -/

/-- The word takes its scalar form: no register field names a vector register or `tix` (R20, R296). -/
def scalarFields (fs : List (Reg × Nat)) : Bool := fs.all fun e => e.1.isScalar

/-- Which word of an `n`-word destination the physical vector register `r` is (R15). -/
def Team.destV (tm : Team) (d : Reg) (n r : Nat) : Option Nat :=
  match d with
  | .v b => if 8 * tm.wb + b.val ≤ r ∧ r < 8 * tm.wb + b.val + n then some (r - (8 * tm.wb + b.val)) else none
  | _ => none

/-- Which word of an `n`-word destination the scalar register `r` is. -/
def destS (d : Reg) (n r : Nat) : Option Nat :=
  match d with
  | .s b => if b.val ≤ r ∧ r < b.val + n then some (r - b.val) else none
  | _ => none

/-- The registers of `new` are those of `old`, but for the `n` words of destination `d`: in each active thread of `old` the vector destination holds `val thread word`, and a scalar destination holds `val t0 word`. A destination `zr` leaves every register as it was (R14). -/
structure RegsAre (old new : Team) (d : Reg) (n : Nat) (val : Nat → Nat → Word) : Prop where
  vector : ∀ t r, new.rdV t r = match old.destV d n r with
    | some k => if old.active t then val t k else old.rdV t r
    | none => old.rdV t r
  scalar : ∀ r, new.rdS r = match destS d n r with
    | some k => val old.t0 k
    | none => old.rdS r
  preds : ∀ t p, new.rdP t p = old.rdP t p

/-- Besides, nothing else of the team differs. -/
structure RegsWritten (old new : Team) (d : Reg) (n : Nat) (val : Nat → Nat → Word) : Prop where
  frame : new = { old with v := new.v, s := new.s }
  regs : RegsAre old new d n val

/-- The predicate bits of `new` are those of `old`, but for predicate `p`: it holds `val thread` in each active thread, or in the scalar form `val t0` in every present thread; p7 is never written (R19). Nothing else of the team differs. -/
structure PredWritten (old new : Team) (p : Fin 8) (scalar : Bool) (val : Nat → Bool) : Prop where
  frame : new = { old with p := new.p }
  bits : ∀ t q, new.rdP t q =
    if q = p ∧ p ≠ 7 then
      if scalar then (if t < old.threads then val old.t0 else old.rdP t q) else (if old.active t then val t else old.rdP t q)
    else old.rdP t q

/-- The events that a register word counts: those of each active thread in the vector form, those of t0 in the scalar form unless EXEC is zero; a thread at or above a binding's N raises none (R100). -/
def laneEvents (tm : Team) (scalar : Bool) (evs : Nat → List Nat) : List Nat :=
  if scalar then (if tm.execZero then [] else evs tm.t0) else tm.actives.flatMap fun t => if tm.loud t then evs t else []

/-- The issue cycles of a register word: none in the scalar form, `cycles` a pass in the vector form (R13, R296). -/
def wordCost (tm : Team) (fs : List (Reg × Nat)) (cycles : Nat) : Nat := if scalarFields fs then 0 else cycles * tm.passes

/-- What R15 and R296 say of a register word with fields `fs`, an `n`-word destination `d`, its values and its events: outside the window it takes the trap of R15 and nothing else; inside it completes, writes its destination, counts its events and ends after its issue cycles. -/
def RunsAs (i : Instr) (d : Reg) (n : Nat) (fs : List (Reg × Nat)) (cycles : Nat)
    (val : Team → Nat → Nat → Nat → Word) (evs : Team → Nat → Nat → List Nat) : Prop :=
  ∀ s : State,
    (∀ f, s.team.windowFail fs = some f → exec i s = .next (s.windowTrap f)) ∧
    (s.team.windowFail fs = none → ∃ tm, RegsWritten s.team tm d n (val s.team s.blk.bix) ∧
      exec i s = .next ((({ s with team := tm } : State).countEvents (laneEvents s.team (scalarFields fs) (evs s.team s.blk.bix))).finish
        (wordCost s.team fs cycles)))

/-- A word of two 32-bit sources whose result is `g` of them (R296). -/
def Runs2 (i : Instr) (d a b : Reg) (cycles : Nat) (g : Word → Word → Word) : Prop :=
  RunsAs i d 1 [(d, 1), (a, 1), (b, 1)] cycles (fun tm bix t _ => g (tm.rd bix a 0 t) (tm.rd bix b 0 t)) fun _ _ _ => []

/-- A word of two 32-bit sources that also reads its destination (R296). -/
def Runs3 (i : Instr) (d a b : Reg) (cycles : Nat) (g : Word → Word → Word → Word) : Prop :=
  RunsAs i d 1 [(d, 1), (a, 1), (b, 1)] cycles (fun tm bix t _ => g (tm.rd bix a 0 t) (tm.rd bix b 0 t) (tm.rd bix d 0 t)) fun _ _ _ => []

/-- A word of one 32-bit source (R296). -/
def Runs1 (i : Instr) (d a : Reg) (g : Word → Word) : Prop :=
  RunsAs i d 1 [(d, 1), (a, 1)] 1 (fun tm bix t _ => g (tm.rd bix a 0 t)) fun _ _ _ => []

/-- A word that writes one predicate (R19, R313, R326, R371): `vector` marks the words that are vector whatever their operands. -/
def RunsPred (i : Instr) (p : Fin 8) (vector : Bool) (fs : List (Reg × Nat)) (cycles : Nat) (val : Team → Nat → Nat → Bool) : Prop :=
  ∀ s : State,
    (∀ f, s.team.windowFail fs = some f → exec i s = .next (s.windowTrap f)) ∧
    (s.team.windowFail fs = none → ∃ tm, PredWritten s.team tm p (!vector && scalarFields fs) (val s.team s.blk.bix) ∧
      exec i s = .next (({ s with team := tm } : State).finish (if vector then cycles * s.team.passes else wordCost s.team fs cycles)))

/-! ### Quiet states -/

/-- Nothing follows the running context's word but the words after it: no scalar word that the front-end has executed ahead stands behind it, and no capture's hold is due (what follows then is `EndOfWord`). -/
def Team.inOrder (tm : Team) : Prop := (∀ e ∈ tm.queue, e.ran = none) ∧ tm.holdFor = 0

/-- No access and no result of the running context is outstanding, and nothing follows its word but the words after it. -/
def State.settled (s : State) : Prop := (s.team.inflight = [] ∧ s.team.pend = []) ∧ s.team.inOrder

/-- The running launch has no watch and no race detection, and neither captures nor replays. -/
def State.unwatched (s : State) : Prop := s.launch.watches = [] ∧ s.launch.race = false ∧ s.launch.replay = 0

/-- Everything that a word of the running context may touch beside its team and its core's bookkeeping is as before: every byte of memory, the block, the launch, the hub, the engines' and controllers' state. -/
def SameWorld (s t : State) : Prop :=
  t.mem = s.mem ∧ t.hostMem = s.hostMem ∧ t.blk = s.blk ∧ t.blocks = s.blocks ∧ t.launch = s.launch ∧ t.launches = s.launches ∧
  t.hub = s.hub ∧ t.dies = s.dies ∧ t.tumbler = s.tumbler ∧ t.links = s.links ∧ t.power = s.power ∧ t.pkg = s.pkg ∧
  t.time = s.time ∧ t.saved = s.saved ∧ t.evwarn = s.evwarn

end Sys2Proof.Machine
end

