-- ==== Sys2Proof/Certificates/Slice0/Obligations.lean ====
section
/-! DEFINITION. The statements for the provers. Names of `Sys2Proof.Claim` say in the spec's terms what a value or a state is; each `Obligations.<Name>` is one statement. -/

namespace Sys2Proof.Claim
end Sys2Proof.Claim

open Sys2Proof Sys2Proof.Machine Sys2Proof.Claim

/-! ### Integer words -/

/-- R301, R302, R370, R393, R401 with R296 and R297: the sum, the difference and the bitwise words, of registers and of an immediate. -/
def Obligations.AddSubtractLogicWords : Prop :=
  (∀ d a b : Reg, mixOk d [a, b] = true →
    Runs2 (.add d a b) d a b 1 (fun x y => x + y) ∧ Runs2 (.sub d a b) d a b 1 (fun x y => x - y) ∧
    Runs2 (.and d a b) d a b 1 (fun x y => x &&& y) ∧ Runs2 (.or d a b) d a b 1 (fun x y => x ||| y) ∧
    Runs2 (.xor d a b) d a b 1 (fun x y => x ^^^ y) ∧ Runs2 (.andn d a b) d a b 1 (fun x y => x &&& ~~~ y)) ∧
  (∀ (d a : Reg) (imm : BitVec 11), mixOk d [a] = true →
    Runs1 (.addImm d a imm) d a (fun x => x + imm.signExtend 32) ∧ Runs1 (.andImm d a imm) d a (fun x => x &&& imm.signExtend 32) ∧
    Runs1 (.orImm d a imm) d a (fun x => x ||| imm.signExtend 32) ∧ Runs1 (.xorImm d a imm) d a (fun x => x ^^^ imm.signExtend 32))

/-- R357, R364, R355: the smaller and the larger of two values, signed and unsigned, and the products, in terms of the integers that the words stand for. -/
def Obligations.MinMaxMultiplyWords : Prop :=
  ∀ d a b : Reg, mixOk d [a, b] = true →
    Runs2 (.minSgn d a b) d a b 1 (fun x y => if x.toInt ≤ y.toInt then x else y) ∧
    Runs2 (.maxSgn d a b) d a b 1 (fun x y => if x.toInt ≤ y.toInt then y else x) ∧
    Runs2 (.minUns d a b) d a b 1 (fun x y => if x.toNat ≤ y.toNat then x else y) ∧
    Runs2 (.maxUns d a b) d a b 1 (fun x y => if x.toNat ≤ y.toNat then y else x) ∧
    Runs2 (.mulLo d a b) d a b 4 (fun x y => BitVec.ofNat 32 (x.toNat * y.toNat)) ∧
    Runs2 (.mulHiSgn d a b) d a b 4 (fun x y => BitVec.ofInt 32 (x.toInt * y.toInt / 2 ^ 32)) ∧
    Runs2 (.mulHiUns d a b) d a b 4 (fun x y => BitVec.ofNat 32 (x.toNat * y.toNat / 2 ^ 32)) ∧
    Runs3 (.mad d a b) d a b 4 (fun x y z => BitVec.ofNat 32 (x.toNat * y.toNat + z.toNat))

/-- R384, R390, R304: shifts and rotates by the low five bits of the amount, with a register or an immediate amount, and the bit-field words with P in bits [4:0] and W in bits [13:8] of B, at most 32. -/
def Sys2Proof.Claim.ShiftAndFieldWordsClaim : Prop :=
  (∀ d a b : Reg, mixOk d [a, b] = true →
    Runs2 (.shl d a b) d a b 1 (fun x y => BitVec.ofNat 32 (x.toNat * 2 ^ (y.toNat % 32))) ∧
    Runs2 (.shr d a b) d a b 1 (fun x y => BitVec.ofNat 32 (x.toNat / 2 ^ (y.toNat % 32))) ∧
    Runs2 (.sra d a b) d a b 1 (fun x y => BitVec.ofInt 32 (x.toInt / 2 ^ (y.toNat % 32))) ∧
    Runs2 (.rot d a b) d a b 1
      (fun x y => BitVec.ofNat 32 (x.toNat * 2 ^ (y.toNat % 32)) ||| BitVec.ofNat 32 (x.toNat / 2 ^ (32 - y.toNat % 32))) ∧
    Runs2 (.bfx d a b) d a b 1
      (fun x y => BitVec.ofNat 32 (x.toNat / 2 ^ (y.toNat % 32) % 2 ^ min (y.toNat / 256 % 64) 32)) ∧
    Runs3 (.bfi d a b) d a b 1
      (fun x y z =>
        let m : Word := BitVec.ofNat 32 ((2 ^ min (y.toNat / 256 % 64) 32 - 1) * 2 ^ (y.toNat % 32))
        (z &&& ~~~ m) ||| (BitVec.ofNat 32 (x.toNat * 2 ^ (y.toNat % 32)) &&& m))) ∧
  (∀ (d a : Reg) (k : BitVec 5), mixOk d [a] = true →
    Runs1 (.shlImm d a k) d a (fun x => BitVec.ofNat 32 (x.toNat * 2 ^ k.toNat)) ∧
    Runs1 (.shrImm d a k) d a (fun x => BitVec.ofNat 32 (x.toNat / 2 ^ k.toNat)) ∧
    Runs1 (.sraImm d a k) d a (fun x => BitVec.ofInt 32 (x.toInt / 2 ^ k.toNat)) ∧
    Runs1 (.rotImm d a k) d a (fun x => BitVec.ofNat 32 (x.toNat * 2 ^ k.toNat) ||| BitVec.ofNat 32 (x.toNat / 2 ^ (32 - k.toNat))))

/-- R308, R312, R369, R375: bit reversal, leading zeros, complement and population count. -/
def Obligations.BitWords : Prop :=
  ∀ d a : Reg, mixOk d [a] = true →
    Runs1 (.not d a) d a (fun x => ~~~ x) ∧
    Runs1 (.brev d a) d a (fun x => x.reverse) ∧
    Runs1 (.clz d a) d a (fun x => BitVec.ofNat 32 ((List.range 32).takeWhile fun j => !x.getLsbD (31 - j)).length) ∧
    Runs1 (.popc d a) d a (fun x => BitVec.ofNat 32 ((List.range 32).countP fun j => x.getLsbD j))

/-- R347, R348, R361: `mov` copies; `li` writes the 18-bit immediate sign-extended; `lih` writes it to bits [31:14] and keeps bits [13:0]. `zr` in D selects the vector form, which writes no register and takes one issue cycle per pass. -/
def Sys2Proof.Claim.MoveWordsClaim : Prop :=
  (∀ d a : Reg, mixOk d [a] = true → Runs1 (.mov d a) d a fun x => x) ∧
  (∀ (d : Reg) (imm : BitVec 18), d.isV = true ∨ d.isS = true →
    RunsAs (.li d imm) d 1 [(d, 1)] 1 (fun _ _ _ _ => imm.signExtend 32) (fun _ _ _ => []) ∧
    RunsAs (.lih d imm) d 1 [(d, 1)] 1
      (fun tm bix t _ => BitVec.ofNat 32 (imm.toNat * 2 ^ 14 + (tm.rd bix d 0 t).toNat % 2 ^ 14)) (fun _ _ _ => [])) ∧
  (∀ (imm : BitVec 18) (s : State),
    exec (.li .zr imm) s = .next (s.finish s.team.passes) ∧ exec (.lih .zr imm) s = .next (s.finish s.team.passes))

/-- Shifts and bit fields (R304, R384, R390), and `mov`, `li` and `lih` (R347, R348, R361). -/
def Obligations.ShiftFieldMoveWords : Prop := ShiftAndFieldWordsClaim ∧ MoveWordsClaim

/-- Element `i` of `w` bits (R82). -/
def Sys2Proof.Claim.elemNat (w : Nat) (x : Word) (i : Nat) : Nat := x.toNat / 2 ^ (w * i) % 2 ^ w
/-- The element as a signed number. -/
def Sys2Proof.Claim.elemInt (w : Nat) (x : Word) (i : Nat) : Int := if 2 ^ (w - 1) ≤ elemNat w x i then (elemNat w x i : Int) - 2 ^ w else elemNat w x i
/-- The word whose elements of `w` bits are the integers `f 0`, `f 1`, … modulo 2^w (R82, R83). -/
def Sys2Proof.Claim.packed (w : Nat) (f : Nat → Int) : Word :=
  BitVec.ofNat 32 (((List.range (32 / w)).map fun i => (f i % 2 ^ w).toNat * 2 ^ (w * i)).sum)

/-- R300, R301, R357, R367, R393 on packed elements (R82, R83): every element on its own, modulo its width; `abs` and `neg` of all three types. -/
def Obligations.PackedIntegerWords : Prop :=
  (∀ d a b : Reg, mixOk d [a, b] = true →
    Runs2 (.addI16x2 d a b) d a b 1 (fun x y => packed 16 fun i => elemInt 16 x i + elemInt 16 y i) ∧
    Runs2 (.addI8x4 d a b) d a b 1 (fun x y => packed 8 fun i => elemInt 8 x i + elemInt 8 y i) ∧
    Runs2 (.subI16x2 d a b) d a b 1 (fun x y => packed 16 fun i => elemInt 16 x i - elemInt 16 y i) ∧
    Runs2 (.subI8x4 d a b) d a b 1 (fun x y => packed 8 fun i => elemInt 8 x i - elemInt 8 y i) ∧
    Runs2 (.minI16x2 d a b) d a b 1 (fun x y => packed 16 fun i => min (elemInt 16 x i) (elemInt 16 y i)) ∧
    Runs2 (.minI8x4 d a b) d a b 1 (fun x y => packed 8 fun i => min (elemInt 8 x i) (elemInt 8 y i)) ∧
    Runs2 (.maxI16x2 d a b) d a b 1 (fun x y => packed 16 fun i => max (elemInt 16 x i) (elemInt 16 y i)) ∧
    Runs2 (.maxI8x4 d a b) d a b 1 (fun x y => packed 8 fun i => max (elemInt 8 x i) (elemInt 8 y i))) ∧
  (∀ d a : Reg, mixOk d [a] = true →
    Runs1 (.absI32 d a) d a (fun x => packed 32 fun i => |elemInt 32 x i|) ∧
    Runs1 (.absI16x2 d a) d a (fun x => packed 16 fun i => |elemInt 16 x i|) ∧
    Runs1 (.absI8x4 d a) d a (fun x => packed 8 fun i => |elemInt 8 x i|) ∧
    Runs1 (.negI32 d a) d a (fun x => packed 32 fun i => -elemInt 32 x i) ∧
    Runs1 (.negI16x2 d a) d a (fun x => packed 16 fun i => -elemInt 16 x i) ∧
    Runs1 (.negI8x4 d a) d a (fun x => packed 8 fun i => -elemInt 8 x i))

/-! ### Predicates and selection -/

/-- The conditions of R73 on 32-bit words. -/
def Sys2Proof.Claim.condHolds (c : ICond) (x y : Word) : Bool :=
  match c with
  | .eq => decide (x = y)
  | .ne => decide (x ≠ y)
  | .lt => decide (x.toInt < y.toInt)
  | .le => decide (x.toInt ≤ y.toInt)
  | .gt => decide (x.toInt > y.toInt)
  | .ge => decide (x.toInt ≥ y.toInt)
  | .lo => decide (x.toNat < y.toNat)
  | .ls => decide (x.toNat ≤ y.toNat)
  | .hi => decide (x.toNat > y.toNat)
  | .hs => decide (x.toNat ≥ y.toNat)

/-- R19, R73, R297, R313: `cmp` of registers and with a sign-extended immediate writes the predicate of the active threads, or in the scalar form of every present thread. -/
def Sys2Proof.Claim.CompareWordsClaim : Prop :=
  (∀ (c : ICond) (p : Fin 8) (a b : Reg),
    RunsPred (.cmp c p a b) p false [(a, 1), (b, 1)] 1 fun tm bix t => condHolds c (tm.rd bix a 0 t) (tm.rd bix b 0 t)) ∧
  (∀ (c : ICond) (p : Fin 8) (a : Reg) (imm : BitVec 11),
    RunsPred (.cmpImm c p a imm) p false [(a, 1)] 1 fun tm bix t => condHolds c (tm.rd bix a 0 t) (imm.signExtend 32))

/-- A predicate field read in thread `t`: p7 is true, a complemented field is inverted (R19, R69). -/
def Sys2Proof.Claim.predOf (tm : Team) (t : Nat) (q : Pred) : Bool := xor q.neg (decide (q.num = 7) || tget false tm.p (8 * t + q.num.val))

/-- R19, R371: the predicate words are vector words; only active threads change, and p7 never. -/
def Sys2Proof.Claim.PredicateWordsClaim : Prop :=
  ∀ (d : Fin 8) (a b : Pred),
    RunsPred (.pand d a b) d true [] 1 (fun tm _ t => predOf tm t a && predOf tm t b) ∧
    RunsPred (.por d a b) d true [] 1 (fun tm _ t => predOf tm t a || predOf tm t b) ∧
    RunsPred (.pxor d a b) d true [] 1 (fun tm _ t => xor (predOf tm t a) (predOf tm t b)) ∧
    RunsPred (.pnot d a) d true [] 1 (fun tm _ t => !predOf tm t a)

/-- Integer comparisons (R73, R297, R313) and the predicate words (R19, R371). -/
def Obligations.CompareAndPredicateWords : Prop := CompareWordsClaim ∧ PredicateWordsClaim

/-- R362, R381, R388 with R14, R15 and R22: `sel` selects by each thread's predicate, in the scalar form by t0's; `movs` writes one thread, if it is active; `rdl`, a rendezvous, reads any present thread's register once every outstanding result is written, and 0 beyond the team. -/
def Obligations.SelectionWords : Prop :=
  (∀ (d a b : Reg) (p : Pred), mixOk d [a, b] = true →
    RunsAs (.sel d a b p) d 1 [(d, 1), (a, 1), (b, 1)] 1
      (fun tm bix t _ => if predOf tm t p then tm.rd bix a 0 t else tm.rd bix b 0 t) (fun _ _ _ => [])) ∧
  (∀ (k : Fin 88) (a b : Reg) (s : State), a.isScalar = true → b.isScalar = true → 8 * s.team.wb + k.val < s.team.regs →
    ∃ tm : Team, tm = { s.team with v := tm.v } ∧ exec (.movs (.v k) a b) s = .next (({ s with team := tm } : State).finish 1) ∧
      ∀ t r, tm.rdV t r =
        if t = (s.team.rd s.blk.bix b 0 0).toNat ∧ s.team.active t ∧ r = 8 * s.team.wb + k.val then s.team.rd s.blk.bix a 0 0
        else s.team.rdV t r) ∧
  (∀ (d a b : Reg) (s : State), d.isSZ = true → (a.isV = true ∨ a = .tix) → b.isScalar = true → s.team.inWindow a 1 = true →
    ∃ tm, RegsWritten s.team.flush tm d 1
        (fun _ _ => let u := (s.team.flush.rd s.blk.bix b 0 0).toNat; if u < s.team.threads then s.team.flush.rd s.blk.bix a 0 u else 0) ∧
      exec (.rdl d a b) s = .next (({ s with team := tm } : State).finish 1))

/-! ### Floating words -/

/-- The value that the register words of an operand hold: two for `.f64`, low word first (R18). -/
def Sys2Proof.Claim.floatBits (tm : Team) (bix : Nat) (w : Bool) (r : Reg) (t : Nat) : Nat :=
  (tm.rd bix r 0 t).toNat + if w then 2 ^ 32 * (tm.rd bix r 1 t).toNat else 0
/-- Word `k` of a result. -/
def Sys2Proof.Claim.bitsWord (x k : Nat) : Word := BitVec.ofNat 32 (x / 2 ^ (32 * k))

/-- A floating word of two operands, `f32` or `f64` (R322): its result is the encoding and its event the event of `op` under FPCTL's mode. -/
def Sys2Proof.Claim.RunsF2 (i : Instr) (w : Bool) (d a b : Reg) (op : FFmt → Rnd → FVal → FVal → Nat × FEv) : Prop :=
  let f := if w then FFmt.f64 else FFmt.f32
  let n := if w then 2 else 1
  let r := fun (tm : Team) (bix t : Nat) => op f (rndOf tm.rnd) (f.dec (floatBits tm bix w a t)) (f.dec (floatBits tm bix w b t))
  RunsAs i d n [(d, n), (a, n), (b, n)] n (fun tm bix t k => bitsWord (r tm bix t).1 k)
    fun tm bix t => ((r tm bix t).2.map fun e => 4 * f.idx + e).toList

/-- R322, R325, R329, R332, R337 with R84, R85, R98: the exact sum, difference, product and fused product-sum, rounded once (`FFmt.enc`), with the event of that rounding; `ffma` in the mode of its code. -/
def Sys2Proof.Claim.FloatArithmeticWordsClaim : Prop :=
  ∀ (w : Bool) (d a b : Reg), floatOk w d [a, b] = true →
    RunsF2 (.fadd w d a b) w d a b (fun f r x y => f.enc r (FVal.add r x y)) ∧
    RunsF2 (.fsub w d a b) w d a b (fun f r x y => f.enc r (FVal.add r x y.neg)) ∧
    RunsF2 (.fmul w d a b) w d a b (fun f r x y => f.enc r (FVal.mul x y)) ∧
    ∀ c : RndCode,
      let f := if w then FFmt.f64 else FFmt.f32
      let n := if w then 2 else 1
      let r := fun (tm : Team) (bix t : Nat) => f.enc (tm.mode c) (FVal.add (tm.mode c)
        (FVal.mul (f.dec (floatBits tm bix w a t)) (f.dec (floatBits tm bix w b t))) (f.dec (floatBits tm bix w d t)))
      RunsAs (.ffma w c d a b) d n [(d, n), (a, n), (b, n)] n (fun tm bix t k => bitsWord (r tm bix t).1 k)
        fun tm bix t => ((r tm bix t).2.map fun e => 4 * f.idx + e).toList

/-- R326, R331 with R86: `fmin` and `fmax` return one operand's bits by `FFmt.minmax`, and `fcmp` writes the truth of its condition, which counts no event. -/
def Sys2Proof.Claim.FloatCompareWordsClaim : Prop :=
  (∀ (w : Bool) (d a b : Reg), floatOk w d [a, b] = true →
    let f := if w then FFmt.f64 else FFmt.f32
    let n := if w then 2 else 1
    let r := fun (big : Bool) (tm : Team) (bix t : Nat) => f.minmax big (floatBits tm bix w a t) (floatBits tm bix w b t)
    RunsAs (.fmin w d a b) d n [(d, n), (a, n), (b, n)] n (fun tm bix t k => bitsWord (r false tm bix t).1 k)
      (fun tm bix t => ((r false tm bix t).2.map fun e => 4 * f.idx + e).toList) ∧
    RunsAs (.fmax w d a b) d n [(d, n), (a, n), (b, n)] n (fun tm bix t k => bitsWord (r true tm bix t).1 k)
      (fun tm bix t => ((r true tm bix t).2.map fun e => 4 * f.idx + e).toList)) ∧
  (∀ (w : Bool) (c : FCond) (p : Fin 8) (a b : Reg),
    let f := if w then FFmt.f64 else FFmt.f32
    let n := if w then 2 else 1
    RunsPred (.fcmp w c p a b) p false [(a, n), (b, n)] n fun tm bix t =>
      let x := f.dec (floatBits tm bix w a t)
      let y := f.dec (floatBits tm bix w b t)
      match c with
      | .eq => x.eq y
      | .ne => !x.eq y
      | .lt => x.lt y
      | .le => x.lt y || x.eq y
      | .gt => y.lt x
      | .ge => y.lt x || x.eq y
      | .un => x.isNan || y.isNan)

/-- Floating arithmetic (R322, R325, R329, R332, R337), minima, maxima and comparisons (R326, R331). -/
def Obligations.FloatWords : Prop := FloatArithmeticWordsClaim ∧ FloatCompareWordsClaim

/-- R324, R333: `fabs` clears and `fneg` inverts the sign bit of each value, and of each enabled packed element; every other bit is A's, a disabled element keeps D's bits (R82), and no event is counted. -/
def Obligations.FloatSignWords : Prop :=
  (∀ (w : Bool) (d a : Reg), floatOk w d [a] = true →
    let n := if w then 2 else 1
    let sign := fun (k : Nat) => if k + 1 = n then (0x80000000 : Word) else 0
    RunsAs (.fabs w d a) d n [(d, n), (a, n)] 1 (fun tm bix t k => tm.rd bix a k t &&& ~~~ sign k) (fun _ _ _ => []) ∧
    RunsAs (.fneg w d a) d n [(d, n), (a, n)] 1 (fun tm bix t k => tm.rd bix a k t ^^^ sign k) (fun _ _ _ => [])) ∧
  (∀ (f : Bool) (d a : Reg), mixOk d [a] = true →
    let on := fun (tm : Team) => (if tm.pen.getLsbD 0 then (0xFFFF : Word) else 0) ||| (if tm.pen.getLsbD 1 then 0xFFFF0000 else 0)
    RunsAs (.fabsPacked f d a) d 1 [(d, 1), (a, 1)] 1
      (fun tm bix t _ => (tm.rd bix d 0 t &&& ~~~ on tm) ||| ((tm.rd bix a 0 t &&& ~~~ 0x80008000) &&& on tm)) (fun _ _ _ => []) ∧
    RunsAs (.fnegPacked f d a) d 1 [(d, 1), (a, 1)] 1
      (fun tm bix t _ => (tm.rd bix d 0 t &&& ~~~ on tm) ||| ((tm.rd bix a 0 t ^^^ 0x80008000) &&& on tm)) (fun _ _ _ => []))

/-- Element `i` of a packed floating word. -/
def Sys2Proof.Claim.half (x : Word) (i : Nat) : Nat := x.toNat / 2 ^ (16 * i) % 2 ^ 16
/-- The word whose elements are `f 0` and `f 1` where PEN enables them, and those of `old` elsewhere (R82). -/
def Sys2Proof.Claim.halves (pen : BitVec 2) (old : Word) (f : Nat → Nat) : Word :=
  BitVec.ofNat 32 ((if pen.getLsbD 0 then f 0 % 2 ^ 16 else half old 0) + 2 ^ 16 * (if pen.getLsbD 1 then f 1 % 2 ^ 16 else half old 1))

/-- A packed floating word (R82, R322): each enabled element on its own, `op` giving the encoding and event of one. -/
def Sys2Proof.Claim.RunsPacked (i : Instr) (f : Bool) (d a b : Reg) (op : FFmt → Rnd → Nat → Nat → Nat → Nat × FEv) : Prop :=
  let g := if f then FFmt.bf16 else FFmt.f16
  let r := fun (tm : Team) (bix t k : Nat) =>
    op g (rndOf tm.rnd) (half (tm.rd bix a 0 t) k) (half (tm.rd bix b 0 t) k) (half (tm.rd bix d 0 t) k)
  RunsAs i d 1 [(d, 1), (a, 1), (b, 1)] 1 (fun tm bix t _ => halves tm.pen (tm.rd bix d 0 t) fun k => (r tm bix t k).1)
    fun tm bix t => ((List.range 2).filter fun k => tm.pen.getLsbD k).flatMap fun k => ((r tm bix t k).2.map fun e => 4 * g.idx + e).toList

/-- R82, R322, R325, R329, R331, R332, R337: the packed words, element by element. -/
def Sys2Proof.Claim.PackedFloatWordsClaim : Prop :=
  ∀ (f : Bool) (d a b : Reg), mixOk d [a, b] = true →
    RunsPacked (.faddPacked f d a b) f d a b (fun g r x y _ => g.enc r (FVal.add r (g.dec x) (g.dec y))) ∧
    RunsPacked (.fsubPacked f d a b) f d a b (fun g r x y _ => g.enc r (FVal.add r (g.dec x) (g.dec y).neg)) ∧
    RunsPacked (.fmulPacked f d a b) f d a b (fun g r x y _ => g.enc r (FVal.mul (g.dec x) (g.dec y))) ∧
    RunsPacked (.fminPacked f d a b) f d a b (fun g _ x y _ => g.minmax false x y) ∧
    RunsPacked (.fmaxPacked f d a b) f d a b (fun g _ x y _ => g.minmax true x y) ∧
    RunsPacked (.ffmaPacked f d a b) f d a b
      (fun g r x y z => g.enc r (FVal.add r (FVal.mul (g.dec x) (g.dec y)) (g.dec z)))

/-! ### Conversion and transcendentals -/

/-- R82, R88, R98, R316: `cvt` converts one value with one rounding (`cvtOne`); a packed destination takes each enabled element, a packed source with a single destination gives its lowest enabled element, and with none enabled nothing is written. -/
def Sys2Proof.Claim.ConvertWordsClaim : Prop :=
  ∀ (x y : CvtTy) (c : RndCode) (d a : Reg), Instr.wf (.cvt x y c d a) = true →
    let fs := [(d, if x.wide then 2 else 1), (a, if y.wide then 2 else 1)]
    let cyc := if x.wide || y.wide then 2 else 1
    let n := if x.wide then 2 else 1
    (cvtPacked x = false → cvtPacked y = false →
      RunsAs (.cvt x y c d a) d n fs cyc (fun tm bix t k => bitsWord (cvtOne x y (tm.mode c) (floatBits tm bix y.wide a t)).1 k)
        fun tm bix t => (cvtOne x y (tm.mode c) (floatBits tm bix y.wide a t)).2) ∧
    (cvtPacked x = true →
      let el := fun (tm : Team) (bix t k : Nat) =>
        cvtOne x y (tm.mode c) (if cvtPacked y then half (tm.rd bix a 0 t) k else floatBits tm bix y.wide a t)
      RunsAs (.cvt x y c d a) d 1 fs cyc (fun tm bix t _ => halves tm.pen (tm.rd bix d 0 t) fun k => (el tm bix t k).1)
        fun tm bix t => ((List.range 2).filter fun k => tm.pen.getLsbD k).flatMap fun k => (el tm bix t k).2) ∧
    (cvtPacked x = false → cvtPacked y = true → ∀ s : State, s.team.windowFail fs = none →
      (s.team.pen = 0 → exec (.cvt x y c d a) s = .next (s.finish (wordCost s.team fs cyc))) ∧
      (s.team.pen ≠ 0 →
        let el := fun (t : Nat) => cvtOne x y (s.team.mode c) (half (s.team.rd s.blk.bix a 0 t) (if s.team.pen.getLsbD 0 then 0 else 1))
        ∃ tm, RegsWritten s.team tm d n (fun t k => bitsWord (el t).1 k) ∧
          exec (.cvt x y c d a) s =
            .next ((({ s with team := tm } : State).countEvents (laneEvents s.team (scalarFields fs) fun t => (el t).2)).finish
              (wordCost s.team fs cyc))))

/-- Packed floating words (R82, R322) and conversions (R316). -/
def Obligations.PackedFloatAndConvertWords : Prop := PackedFloatWordsClaim ∧ ConvertWordsClaim

/-- A team's word has issued: of the team only registers, outstanding results and accesses, and the bookkeeping of issue have changed. -/
def Sys2Proof.Claim.Issued (a b : Team) : Prop :=
  b = { a with v := b.v, s := b.s, pc := a.pc + 4, fair := b.fair, deferred := b.deferred, hitBps := if a.hitAt = some a.pc then a.hitBps else [],
               hitAt := if a.hitAt = some a.pc then a.hitAt else none, awaited := b.awaited, decided := none, auditHeld := none, captured := false,
               fresh := false, promised := none, shadow := b.shadow, probation := b.probation, inflight := b.inflight, pend := b.pend, passed := b.passed,
               yielded := b.yielded, queue := a.queueAfter (a.pc + 4), owed := b.owed, issPc := b.issPc }

/-- Beside the running context only its core's record of what issued last and the teams' counts of words that passed them over have changed (R202, R246). -/
def Sys2Proof.Claim.IssueBooks (s t : State) : Prop :=
  t.core = { s.core with quarters := t.core.quarters, hinges := t.core.hinges } ∧
  ∀ k, ∃ p, tget none t.teams k = (tget none s.teams k).map fun o => { o with passed := p }

/-- What R25, R82 and R323 say of a transcendental: with no result outstanding it completes, and once its result is written the destination holds `fn` of the operand, each enabled packed element by way of FP32; its events count at once, and nothing else of the machine changes but the bookkeeping of issue. -/
def Sys2Proof.Claim.TransRuns (i : TFmt → Reg → Reg → BitVec 4 → Instr) (fn : FFmt → Rnd → FVal → Nat × FEv) : Prop :=
  ∀ (f : TFmt) (d a : Reg) (n : BitVec 4) (s : State), transOk f d a = true →
    let k := if f = TFmt.f64 then 2 else 1
    let g := transFmt f
    let r := rndOf s.team.rnd
    let one := fun (t : Nat) => fn g r (g.dec (floatBits s.team s.blk.bix (decide (f = TFmt.f64)) a t))
    let el := fun (t j : Nat) => transElem fn g r (half (s.team.rd s.blk.bix a 0 t) j)
    let evs := fun (t : Nat) =>
      if transPacked f then
        ((List.range 2).filter fun j => s.team.pen.getLsbD j).flatMap fun j => ((el t j).2.map fun e => 4 * g.idx + e).toList
      else ((one t).2.map fun e => 4 * g.idx + e).toList
    s.team.windowFail [(d, k), (a, k)] = none → s.team.pend = [] → s.team.inOrder →
      Completes (i f d a n) s fun t =>
        RegsAre s.team t.team.flush d k (fun th j =>
          if transPacked f then halves s.team.pen (s.team.rd s.blk.bix d 0 th) (fun e => (el th e).1) else bitsWord (one th).1 j) ∧
        t = { s.countEvents (laneEvents s.team (scalarFields [(d, k), (a, k)]) evs) with team := t.team, core := t.core, teams := t.teams } ∧
        Issued s.team t.team ∧ IssueBooks s t

/-- R323, R327, R328, R330, R335, R336 with R87: the seven transcendentals. -/
def Obligations.TranscendentalWords : Prop :=
  TransRuns .frcp (fun f r x => f.rcp r x) ∧ TransRuns .frsq (fun f _ x => f.rsq .rne x) ∧ TransRuns .fsqrt (fun f r x => f.sqrt r x) ∧
  TransRuns .fexp2 (fun f _ x => f.exp2 x) ∧ TransRuns .flog2 (fun f _ x => f.log2 x) ∧
  TransRuns .fsin (fun f _ x => f.sincos false x) ∧ TransRuns .fcos (fun f _ x => f.sincos true x)

/-! ### Team operations -/

/-- The active threads of the group of thread `t`: those of its mask word and partition, ascending (R212). -/
def Sys2Proof.Claim.groupOfThread (tm : Team) (t : Nat) : List Nat :=
  tm.actives.filter fun u => decide (u / 32 = t / 32) && decide (u % 32 / tm.part = t % 32 / tm.part)

/-- The answer of a vote among threads `g`, where `bit` numbers the bits of a mask (R213). -/
def Sys2Proof.Claim.voteValue (k : VoteKind) (g : List Nat) (yes : Nat → Bool) (bit : Nat → Nat) : Word :=
  match k with
  | .some => if g.any yes then 1 else 0
  | .every => if g.all yes then 1 else 0
  | .count => BitVec.ofNat 32 (g.countP yes)
  | .mask => BitVec.ofNat 32 (((List.range 32).filter fun j => g.any fun t => yes t && bit t == j).map fun j => 2 ^ j).sum

/-- R22, R212, R213, R398: a vote answers each active thread for its group; with a scalar destination it is a rendezvous over all active threads, and while EXEC is zero it writes nothing. -/
def Sys2Proof.Claim.VoteWordClaim : Prop :=
  ∀ (k : VoteKind) (d : Reg) (p : Pred) (s : State), s.team.inWindow d 1 = true →
    (d.isV = true → ∃ tm,
      RegsWritten s.team tm d 1 (fun t _ => voteValue k (groupOfThread s.team t) (fun u => predOf s.team u p) (· % 32)) ∧
      exec (.vote k d p) s = .next (({ s with team := tm } : State).finish s.team.passes)) ∧
    (d.isSZ = true → s.team.flush.execZero = true → exec (.vote k d p) s = .next (({ s with team := s.team.flush } : State).finish 1)) ∧
    (d.isSZ = true → s.team.flush.execZero = false → (∀ t, s.team.active t = true → t < 1024) → ∃ tm,
      RegsWritten s.team.flush tm d 1 (fun _ _ => voteValue k s.team.actives (fun u => predOf s.team.flush u p) (· / 32)) ∧
      exec (.vote k d p) s = .next (({ s with team := tm } : State).finish (s.team.passes + 1)))

/-- The source of a shuffle at place `i` of a group of `part` threads (R214). -/
def Sys2Proof.Claim.shuffleFrom (k : ShflKind) (part i b : Nat) : Nat :=
  match k with
  | .at => b % part
  | .below => if i < b then i else i - b
  | .above => if i + b < part then i + b else i
  | .flip => i ^^^ (b % part)
  | .rot => (i + b) % part

/-- R214, R389: each active thread takes A of its source in its group, or its own A where that thread is not active. -/
def Sys2Proof.Claim.ShuffleWordClaim : Prop :=
  ∀ (k : ShflKind) (i : Fin 88) (a b : Reg) (s : State), s.team.windowFail [(.v i, 1), (a, 1), (b, 1)] = none →
    let first := fun (t : Nat) => t - t % 32 % s.team.part
    let src := fun (t : Nat) => first t + shuffleFrom k s.team.part (t - first t) (s.team.rd s.blk.bix b 0 t).toNat
    0 < s.team.part → s.team.part ∣ 32 →
    ∃ tm, RegsWritten s.team tm (.v i) 1
        (fun t _ => s.team.rd s.blk.bix a 0 (if s.team.active (src t) then src t else t)) ∧
      exec (.shfl k (.v i) a b) s = .next (({ s with team := tm } : State).finish s.team.passes)

/-- One step of a reduction (R215). -/
def Sys2Proof.Claim.reduceOp (o : RedOp) (f32 : Bool) (r : Rnd) (x y : Word) : Word :=
  match o, f32 with
  | .add, false => x + y
  | .min, false => if x.toInt ≤ y.toInt then x else y
  | .max, false => if x.toInt ≤ y.toInt then y else x
  | .and, _ => x &&& y
  | .or, _ => x ||| y
  | .xor, _ => x ^^^ y
  | .add, true => BitVec.ofNat 32 (FFmt.f32.enc r (FVal.add r (FFmt.f32.dec x.toNat) (FFmt.f32.dec y.toNat))).1
  | .min, true => BitVec.ofNat 32 (FFmt.f32.minmax false x.toNat y.toNat).1
  | .max, true => BitVec.ofNat 32 (FFmt.f32.minmax true x.toNat y.toNat).1

/-- The values of a list combined from the first to the last; the identity for none (R215). -/
def Sys2Proof.Claim.reduceList (o : RedOp) (f32 : Bool) (r : Rnd) : List Word → Word
  | [] => match o, f32 with
    | .min, false => 0x7FFFFFFF
    | .max, false => 0x80000000
    | .min, true => 0x7F800000
    | .max, true => 0xFF800000
    | .and, _ => 0xFFFFFFFF
    | _, _ => 0
  | x :: xs => xs.foldl (reduceOp o f32 r) x

/-- The event of the last combination of a list of `.f32` values, none where no step formed the value (R98, R215, R387). -/
def Sys2Proof.Claim.combineEvent (o : RedOp) (f32 : Bool) (r : Rnd) (xs : List Word) : List Nat :=
  let x := reduceList o true r xs.dropLast
  let y := xs.getLastD 0
  let e := match o with
    | .add => (FFmt.f32.enc r (FVal.add r (FFmt.f32.dec x.toNat) (FFmt.f32.dec y.toNat))).2
    | .min => (FFmt.f32.minmax false x.toNat y.toNat).2
    | _ => (FFmt.f32.minmax true x.toNat y.toNat).2
  if f32 && decide (2 ≤ xs.length) then (e.map fun k => 4 * FFmt.f32.idx + k).toList else []

/-- The active threads that are the first of their groups. -/
def Sys2Proof.Claim.groupFirsts (tm : Team) : List Nat := tm.actives.filter fun t => (groupOfThread tm t).head? == some t

/-- Some thread of a list lies below a binding's N, or the team is unbound (R100). -/
def Sys2Proof.Claim.counts (tm : Team) (g : List Nat) : Bool := g.any fun t => decide (tm.limbs = 0) || decide (t < tm.limbs)

/-- R215, R382, R387: `red` gives every active thread its group's values combined in ascending thread order, or a scalar destination those of all active threads, and counts one event per group; `scan` gives each thread those up to its own, or in the exclusive form those before its own, and counts the event of the step that formed each value. While EXEC is zero a scalar destination keeps its value. A group whose threads all lie beyond a binding's N counts no event (the model's choice, log 19). -/
def Sys2Proof.Claim.ReduceAndScanWordsClaim : Prop :=
  ∀ (o : RedOp) (f32 : Bool) (a : Reg) (s : State), (f32 = true → o.hasF32 = true) →
    let vals := fun (tm : Team) (g : List Nat) => g.map fun t => tm.rd s.blk.bix a 0 t
    let cost := if f32 then 6 else 2
    let r := rndOf s.team.rnd
    let evs := fun (g xs : List Nat) (tm : Team) => if counts s.team g then combineEvent o f32 r (vals tm xs) else []
    (∀ i : Fin 88, s.team.windowFail [(.v i, 1), (a, 1)] = none → ∃ tm,
      RegsWritten s.team tm (.v i) 1 (fun t _ => reduceList o f32 r (vals s.team (groupOfThread s.team t))) ∧
      exec (.red o f32 (.v i) a) s = .next ((({ s with team := tm } : State).countEvents
        ((groupFirsts s.team).flatMap fun l => evs (groupOfThread s.team l) (groupOfThread s.team l) s.team)).finish (cost * s.team.passes))) ∧
    (∀ d : Reg, d.isSZ = true → s.team.inWindow a 1 = true → s.team.execZero = false → ∃ tm,
      RegsWritten s.team.flush tm d 1 (fun _ _ => reduceList o f32 r (vals s.team.flush s.team.actives)) ∧
      exec (.red o f32 d a) s = .next ((({ s with team := tm } : State).countEvents (evs s.team.actives s.team.actives s.team.flush)).finishEach
        (List.replicate (s.team.passes - 1) cost ++ [cost + 2]))) ∧
    (∀ d : Reg, d.isSZ = true → s.team.inWindow a 1 = true → s.team.execZero = true →
      exec (.red o f32 d a) s = .next (({ s with team := s.team.flush } : State).finish 1)) ∧
    (∀ (exc : Bool) (i : Fin 88), s.team.windowFail [(.v i, 1), (a, 1)] = none →
      let upTo := fun (t : Nat) => (groupOfThread s.team t).filter fun u => decide (u < t) || (!exc && decide (u = t))
      ∃ tm, RegsWritten s.team tm (.v i) 1 (fun t _ => reduceList o f32 r (vals s.team (upTo t))) ∧
        exec (.scan o f32 exc (.v i) a) s = .next ((({ s with team := tm } : State).countEvents
          ((groupFirsts s.team).flatMap fun l => (groupOfThread s.team l).flatMap fun t => evs [t] (upTo t) s.team)).finish (cost * s.team.passes)))

/-- `shfl` (R214, R389), `red` (R215, R382) and `scan` (R215, R387). -/
def Obligations.ShuffleReduceScanWords : Prop := ShuffleWordClaim ∧ ReduceAndScanWordsClaim

/-- Two keys match (R216): equal bits, +0 and -0 alike, a NaN with none. -/
def Sys2Proof.Claim.keysMatch (k : KeyTy) (x y : DWord) : Bool :=
  match k with
  | .b32 => decide (loWord x = loWord y)
  | .f32 =>
    let f := fun (w : DWord) => FFmt.f32.dec (loWord w).toNat
    !(f x).isNan && !(f y).isNan && (decide (loWord x = loWord y) || (decide ((loWord x).toNat % 2 ^ 31 = 0) && decide ((loWord y).toNat % 2 ^ 31 = 0)))
  | .f64 =>
    let f := fun (w : DWord) => FFmt.f64.dec w.toNat
    !(f x).isNan && !(f y).isNan && (decide (x = y) || (decide (x.toNat % 2 ^ 63 = 0) && decide (y.toNat % 2 ^ 63 = 0)))

/-- R216, R356: each active thread's mask of the threads of its group whose key matches its own, itself included, and with `rank` the number of them below it. -/
def Sys2Proof.Claim.MatchWordClaim : Prop :=
  ∀ (k : KeyTy) (rank : Bool) (i : Fin 88) (a : Reg) (s : State),
    let n := if rank then 2 else 1
    let m := if k = KeyTy.f64 then 2 else 1
    s.team.windowFail [(.v i, n), (a, m)] = none →
    let key := fun (t : Nat) => pairOf (s.team.rd s.blk.bix a 0 t) (if k = KeyTy.f64 then s.team.rd s.blk.bix a 1 t else 0)
    let same := fun (t : Nat) => (groupOfThread s.team t).filter fun u => decide (u = t) || keysMatch k (key t) (key u)
    ∃ tm, RegsWritten s.team tm (.v i) n
        (fun t j => if j = 0 then BitVec.ofNat 32 ((same t).map fun u => 2 ^ (u % 32)).sum
          else BitVec.ofNat 32 ((same t).countP fun u => decide (u < t))) ∧
      exec (.matchKey k rank (.v i) a) s =
        .next (({ s with team := tm } : State).finish (((if k = KeyTy.f64 then 4 else 2) + if rank then 1 else 0) * s.team.passes))

/-- `vote` (R22, R213, R398) and `match` (R216, R356). -/
def Obligations.VoteAndMatchWords : Prop := VoteWordClaim ∧ MatchWordClaim

/-! ### Threads as limbs, and the window -/

/-- R103, R107, R305, R397: `bind` of a legal number of active threads sets LIMBS and clears LIMBF; a number outside 2 to 1,024 or above the team's threads is illegal, and a thread of the new number that is not active makes it a bound-divergence fault; `unbind` clears LIMBS; neither changes anything else of the team. -/
def Sys2Proof.Claim.BindWordsClaim : Prop :=
  (∀ (a : Reg) (s : State),
    let n := (s.team.rd s.blk.bix a 0 0).toNat
    s.team.execZero = false → 2 ≤ n → n ≤ 1024 → n ≤ s.team.threads →
      ((∀ t, t < n → s.team.active t = true) →
        exec (.bind a) s = .next (({ s with team := { s.team with limbs := n, limbf := 0 } } : State).finish 1)) ∧
      (¬ (∀ t, t < n → s.team.active t = true) → ∃ ts, (∀ t, t ∈ ts ↔ t < n ∧ s.team.active t = false) ∧
        exec (.bind a) s = .next (s.takeTrap { cls := .boundDiv, threads := ts }))) ∧
  (∀ (a : Reg) (s : State),
    let n := (s.team.rd s.blk.bix a 0 0).toNat
    s.team.execZero = false → n < 2 ∨ 1024 < n ∨ s.team.threads < n → exec (.bind a) s = .next (s.illegal 0x1C false)) ∧
  (∀ (a : Reg) (s : State), s.team.execZero = true → exec (.bind a) s = .next (s.finish 1)) ∧
  (∀ s : State, exec .unbind s = .next (({ s with team := { s.team with limbs := 0 } } : State).finish 1))

/-- A limb operand as one number of N limbs, thread 0 lowest (R108). -/
def Sys2Proof.Claim.limbValue (tm : Team) (bix : Nat) (r : Reg) : Nat := ((List.range tm.limbs).map fun t => (tm.rd bix r 0 t).toNat * 2 ^ (32 * t)).sum
/-- A number of N limbs as a signed number (R108). -/
def Sys2Proof.Claim.limbSigned (n x : Nat) : Int := if 2 ^ (32 * n) ≤ 2 * x then (x : Int) - 2 ^ (32 * n) else x
/-- An integer that N limbs cannot hold as a signed number (R108). -/
def Sys2Proof.Claim.limbOverflow (n : Nat) (x : Int) : Bool := decide (2 * x < -(2 ^ (32 * n) : Int)) || decide ((2 ^ (32 * n) : Int) ≤ 2 * x)

/-- What R15, R78, R103 and R109 say of a limb word of vector fields `fs`: a window fault (before the trap of an unbound team, the model's choice, log 19), nothing while EXEC is zero, a trap while unbound, nothing while its limb threads are not all active; else its result `x` mod 2^(32 N) goes to the limbs of `d`, and LIMBF takes N from the top bit, Z, V and C. `cost` is in mask words of limbs. -/
def Sys2Proof.Claim.LimbRuns (i : Instr) (fs : List Reg) (d : Reg) (x : Team → Nat → Nat) (z v c : Team → Nat → Bool) (cost : Team → Nat → Nat → Nat) : Prop :=
  ∀ s : State,
    let tm := s.team
    let n := tm.limbs
    (∀ f, tm.windowFail (fs.map fun r => (r, 1)) = some f → exec i s = .next (s.windowTrap f)) ∧
    (tm.windowFail (fs.map fun r => (r, 1)) = none → tm.execZero = true → exec i s = .next (s.finish 1)) ∧
    (tm.windowFail (fs.map fun r => (r, 1)) = none → tm.execZero = false → n = 0 → exec i s = .next (s.illegal 0x1D false)) ∧
    (tm.windowFail (fs.map fun r => (r, 1)) = none → n ≠ 0 → (¬ ∀ t, t < n → tm.active t = true) → exec i s = .next (s.finish 1)) ∧
    (tm.windowFail (fs.map fun r => (r, 1)) = none → n ≠ 0 → (∀ t, t < n → tm.active t = true) →
      ∃ y : Team, y = { tm with v := y.v, limbf := y.limbf } ∧
        (∀ t r, y.rdV t r = match tm.destV d 1 r with
          | some _ => if t < n then BitVec.ofNat 32 (x tm s.blk.bix / 2 ^ (32 * t)) else tm.rdV t r
          | none => tm.rdV t r) ∧
        y.limbf.toNat = 8 * (x tm s.blk.bix / 2 ^ (32 * n - 1) % 2) + (if z tm s.blk.bix then 4 else 0) + (if v tm s.blk.bix then 2 else 0)
          + (if c tm s.blk.bix then 1 else 0) ∧
        exec i s = .next (({ s with team := y } : State).finish (cost tm s.blk.bix ((n + 31) / 32))))

/-- R108, R342, R344, R350, R354: the limb sum, difference, negation and comparison. -/
def Sys2Proof.Claim.LimbAddWordsClaim : Prop :=
  ∀ d a b : Reg, limbOk d a = true → (b.isVZ || b == .tix) = true →
    let A := fun (tm : Team) (bix : Nat) => limbValue tm bix a
    let B := fun (tm : Team) (bix : Nat) => limbValue tm bix b
    let M := fun (tm : Team) => 2 ^ (32 * tm.limbs)
    let S := fun (tm : Team) (x : Nat) => limbSigned tm.limbs x
    let one := fun (_ : Team) (_ w : Nat) => w + 1
    LimbRuns (.ladd d a b) [d, a, b] d (fun tm k => (A tm k + B tm k) % M tm) (fun tm k => decide ((A tm k + B tm k) % M tm = 0))
      (fun tm k => limbOverflow tm.limbs (S tm (A tm k) + S tm (B tm k))) (fun tm k => decide (M tm ≤ A tm k + B tm k)) one ∧
    LimbRuns (.lsub d a b) [d, a, b] d (fun tm k => (A tm k + M tm - B tm k) % M tm) (fun tm k => decide (A tm k = B tm k))
      (fun tm k => limbOverflow tm.limbs (S tm (A tm k) - S tm (B tm k))) (fun tm k => decide (B tm k ≤ A tm k)) one ∧
    LimbRuns (.lneg d a) [d, a] d (fun tm k => (M tm - A tm k) % M tm) (fun tm k => decide (A tm k = 0))
      (fun tm k => limbOverflow tm.limbs (-(S tm (A tm k)))) (fun tm k => decide (A tm k = 0)) one ∧
    LimbRuns (.lcmp a b) [a, b] .zr (fun tm k => (A tm k + M tm - B tm k) % M tm) (fun tm k => decide (A tm k = B tm k))
      (fun tm k => decide (S tm (A tm k) < S tm (B tm k))) (fun tm k => decide (B tm k ≤ A tm k)) one

/-- R108, R111, R349, R353: the limb shifts, by bits [15:0] of the scalar operand and arithmetic where its bit 31 is set, and the products by a scalar, with an addend from the next register. -/
def Sys2Proof.Claim.LimbShiftMultiplyWordsClaim : Prop :=
  ∀ d a b : Reg, limbOk d a = true →
    let A := fun (tm : Team) (bix : Nat) => limbValue tm bix a
    let M := fun (tm : Team) => 2 ^ (32 * tm.limbs)
    let K := fun (tm : Team) (bix : Nat) => (tm.rd bix b 0 0).toNat % 65536
    let R := fun (tm : Team) (bix : Nat) =>
      if 2 ^ 31 ≤ (tm.rd bix b 0 0).toNat then (limbSigned tm.limbs (A tm bix) / 2 ^ K tm bix % 2 ^ (32 * tm.limbs)).toNat else A tm bix / 2 ^ K tm bix
    let shift := fun (tm : Team) (bix w : Nat) => if K tm bix < 32 then w + 1 else 2 * w + 1
    let P := fun (tm : Team) (bix : Nat) => A tm bix * (tm.rd bix b 0 0).toNat
    let Q := fun (tm : Team) (bix : Nat) => P tm bix + (tm.rd bix b 1 0).toNat
    let mul := fun (_ : Team) (_ w : Nat) => 4 * w + 1
    LimbRuns (.lshl d a b) [d, a] d (fun tm k => A tm k * 2 ^ K tm k % M tm) (fun tm k => decide (A tm k * 2 ^ K tm k % M tm = 0))
      (fun tm k => limbOverflow tm.limbs (limbSigned tm.limbs (A tm k) * 2 ^ K tm k))
      (fun tm k => decide (1 ≤ K tm k) && decide (K tm k ≤ 32 * tm.limbs) && decide (A tm k / 2 ^ (32 * tm.limbs - K tm k) % 2 = 1)) shift ∧
    LimbRuns (.lshr d a b) [d, a] d R (fun tm k => decide (R tm k = 0)) (fun _ _ => false)
      (fun tm k => decide (1 ≤ K tm k) && (if K tm k ≤ 32 * tm.limbs then decide (A tm k / 2 ^ (K tm k - 1) % 2 = 1)
        else decide (2 ^ 31 ≤ (tm.rd k b 0 0).toNat) && decide (A tm k / 2 ^ (32 * tm.limbs - 1) % 2 = 1))) shift ∧
    LimbRuns (.lmul d a b) [d, a] d (fun tm k => P tm k % M tm) (fun tm k => decide (P tm k % M tm = 0)) (fun _ _ => false)
      (fun tm k => decide (M tm ≤ P tm k)) mul ∧
    LimbRuns (.lmulAddend d a b) [d, a] d (fun tm k => Q tm k % M tm) (fun tm k => decide (Q tm k % M tm = 0)) (fun _ _ => false)
      (fun tm k => decide (M tm ≤ Q tm k)) mul

/-- Limb sums, differences, negation, comparison, shifts and products (R103, R108 to R111). -/
def Obligations.LimbWords : Prop := LimbAddWordsClaim ∧ LimbShiftMultiplyWordsClaim

/-- R15, R17, R400: `wbase` sets WB to the 32-bit sum of its operands when that is below 128 and its first register lies in the allocation, and is a window fault of field 0 otherwise. That this fault names every active thread is the model's reading (log 22). -/
def Sys2Proof.Claim.WindowBaseWordClaim : Prop :=
  ∀ (a : Reg) (i : BitVec 11) (s : State),
    let w := ((s.team.rd s.blk.bix a 0 0).toNat + i.toNat) % 2 ^ 32
    (w < 128 → 8 * w < s.team.regs → exec (.wbase a i) s = .next (({ s with team := { s.team with wb := w } } : State).finish 0)) ∧
    (¬ (w < 128 ∧ 8 * w < s.team.regs) → exec (.wbase a i) s = .next (s.windowTrap 0))

/-- `bind` and `unbind` (R103, R107, R305, R397), and `wbase` (R17, R400). -/
def Obligations.BindAndWindowWords : Prop := BindWordsClaim ∧ WindowBaseWordClaim

/-! ### The end of a word -/

/-- The registers of two contexts agree. -/
def Sys2Proof.Claim.SameRegs (a b : Team) : Prop := (∀ t r, b.rdV t r = a.rdV t r) ∧ (∀ r, b.rdS r = a.rdS r) ∧ ∀ t p, b.rdP t p = a.rdP t p

/-- R13, R20 to R23, R25, R202, R222, R239, R257: a word whose passes took the cycles `ps` and that is followed by `next` changes, beside its own effect, the pc, the timer, the words left of each shadow, the in-flight list (only accesses that had completed leave it) and its quarter's bookkeeping; a result is written after the words of its shadow and not before; breakpoint entries that the context has hit hit again, but for those of the word at which a debugger has resumed it, while no other word has issued; its entry leaves the decision queue, and with another way all that was taken ahead does. A scalar word that the front-end had executed ahead behind it follows at no cost: its registers hold what it has written, and the team goes on where it has gone. A team's word has issued the first of its passes and owes the others, each with its own cycles: the other teams of the quarter that have a ready pass were passed over for the first alone; a capture's hold begins when none is owed. How a word whose cycles the rules give as a whole shares them among its passes is the model's (log 2). -/
def Obligations.EndOfWord : Prop :=
  ∀ (s : State) (ps : List Nat) (next : Nat),
    let t := s.finishPasses ps next
    let behind := s.team.queueAfter next
    let ended := s.team.pastWord ps.sum next
    SameWorld s t ∧
    behind = (if next = s.team.pc + 4 then s.team.ahead.tail else []) ∧
    (∀ e r, s.team.queue = e :: r → s.team.ahead = if e.pc = s.team.pc ∧ e.ran = none then e :: r else []) ∧
    ended = { s.team with v := ended.v, s := ended.s, pc := next, fair := s.team.fair + ps.sum, deferred := s.team.deferred.map (· - 1),
                          hitBps := if s.team.hitAt = some s.team.pc then s.team.hitBps else [],
                          hitAt := if s.team.hitAt = some s.team.pc then s.team.hitAt else none, awaited := ended.awaited,
                          decided := none, auditHeld := none, captured := false, fresh := false, promised := none, shadow := s.team.shadow - 1,
                          probation := s.team.probation.filter (fun r => decide (r.1 ≤ s.team.current ∧ s.team.current < r.2)), inflight := ended.inflight, pend := ended.pend } ∧
    ((∀ a ∈ s.team.inflight, a.done = false ∧ a.donePaths = []) → s.team.pend = [] → ended.inflight = s.team.inflight) ∧
    (s.team.pend = [] → SameRegs s.team ended ∧ ended.pend = [] ∧ ended.awaited = s.team.awaited) ∧
    (∀ p, s.team.pend = [p] → 2 ≤ p.left → SameRegs s.team ended ∧ ended.pend = [{ p with left := p.left - 1 }]) ∧
    (∀ p, s.team.pend = [p] → p.left = 1 → SameRegs (p.write s.team) ended ∧ ended.pend = []) ∧
    (let issued := ps ≠ [] ∧ s.team.kind = .team
     ∃ last : Team,
      ((∀ e ∈ behind.head?, e.ran = none) → last = { ended with queue := behind }) ∧
      (∀ e x r, behind = e :: r → e.ran = some x → e.pc = next →
        last = Team.settleRan r ((x.regs.foldl (fun tm w => tm.wrS w.1 w.2) ended).pastWord 0 x.next)) ∧
      (∀ e x r, behind = e :: r → e.ran = some x → e.pc ≠ next → last = { ended with queue := [] }) ∧
      (¬ issued → t = { s with team := last }) ∧
      (issued → let owing : State := { s with team := { last with owed := ps, issPc := s.team.pc } }
        (last.holdFor = 0 ∨ ps.length ≠ 1 → t.team = { owing.team with passed := 0, yielded := false, owed := ps.tail }) ∧
        (last.holdFor ≠ 0 → ps.length = 1 → t.team = { owing.team with passed := 0, yielded := false, owed := [], holdFor := 0, parked := some (.capture (s.freeCount + 1 + last.holdFor)) }) ∧
        (tget {} t.core.quarters s.team.qtr).rp = s.team.slot ∧
        ∀ k o, tget none s.teams k = some o → tget none t.teams k =
          some (if o.coreId = s.team.coreId ∧ o.qtr = s.team.qtr ∧ owing.passReady o then { o with passed := min 511 (o.passed + ps.headD 0) } else o))) ∧
    ∀ c, ∃ qs, s.finishAt c next = s.finishPasses qs next ∧ qs.sum = c ∧ (∀ x ∈ qs, 1 ≤ x) ∧
      (1 ≤ s.team.issuing → s.team.issuing ≤ c → qs.length = s.team.issuing)

/-! ### Uniform transfers -/

/-- The offset of a word `o` words from the running word (R70). -/
def Sys2Proof.Claim.branchTarget (s : State) (o : BitVec 18) : Nat := (((s.team.pc : Int) + 4 * o.toInt) % 2 ^ 48).toNat

/-- R70, R204, R306, R307, R311, R368, R402: `nop` and `yield` only go on; `br` transfers, `brc` by the predicate of thread t0, and `call` writes the return pointer to s32:s33 first. -/
def Sys2Proof.Claim.TransferWordsClaim : Prop :=
  ∀ s : State,
    exec .nop s = .next (s.finish 0) ∧
    (∃ t, exec .yield s = .next t ∧ t = { s.finish 1 with team := { (s.finish 1).team with yielded := true } }) ∧
    ∀ o : BitVec 18,
      exec (.br o) s = .next (s.finishAt 0 (branchTarget s o)) ∧
      (∀ p, exec (.brc p o) s = .next (if predOf s.team s.team.t0 p then s.finishAt 0 (branchTarget s o) else s.finish 0)) ∧
      ∃ tm, RegsWritten s.team tm (.s 32) 2 (fun _ k => bitsWord (7 * 2 ^ 60 + (s.team.pc + 4)) k) ∧
        exec (.call o) s = .next (({ s with team := tm } : State).finishAt 0 (branchTarget s o))

/-- What R340 and R383 say of a computed transfer to pointer `q`: code space and owner 0, else a permission fault; a multiple of 4, else an alignment fault; a word with S set, or one whose fetch faults there, is gone to, and any other is an illegal instruction. -/
def Sys2Proof.Claim.JumpsTo (i : Instr) (q : State → DWord) : Prop :=
  ∀ s : State,
    let x := (q s).toNat
    let off := x % 2 ^ 48
    (¬ (x / 2 ^ 60 = 7 ∧ x / 2 ^ 48 % 2 ^ 12 = 0) → exec i s = .next (s.takeTrap { cls := .translation, addr := q s, detail := 0x1000 })) ∧
    (x / 2 ^ 60 = 7 → x / 2 ^ 48 % 2 ^ 12 = 0 → off % 4 ≠ 0 → exec i s = .next (s.takeTrap { cls := .alignment, addr := q s })) ∧
    (x / 2 ^ 60 = 7 → x / 2 ^ 48 % 2 ^ 12 = 0 → off % 4 = 0 → (∀ w, s.fetchWord off = .ok w → w.getLsbD 31 = true) →
      exec i s = .next (s.finishAt 0 off)) ∧
    (x / 2 ^ 60 = 7 → x / 2 ^ 48 % 2 ^ 12 = 0 → off % 4 = 0 → ∀ w, s.fetchWord off = .ok w → w.getLsbD 31 = false →
      exec i s = .next (s.takeTrap { cls := .illegal, detail := 0x21 }))

/-- R340, R383: `ret` goes to the pointer in s32:s33, `jmp` to that in its register pair. -/
def Sys2Proof.Claim.ComputedTransferWordsClaim : Prop :=
  JumpsTo .ret (fun s => pairOf (s.team.rdS 32) (s.team.rdS 33)) ∧
  ∀ a : Reg, JumpsTo (.jmp a) fun s => pairOf (s.team.rd s.blk.bix a 0 0) (s.team.rd s.blk.bix a 1 0)

/-- Uniform transfers (R299) and computed transfers (R340, R383). -/
def Obligations.TransferWords : Prop := TransferWordsClaim ∧ ComputedTransferWordsClaim

/-- R25, R107, R133, R320, R321: `exit` writes outstanding results; the active threads exit, the team unbinds once all its limb threads have exited, and with no present thread left it has ended; in a stream the stream has ended. -/
def Obligations.ExitWord : Prop :=
  ∀ s : State,
    (s.team.kind ≠ .team → exec .exit s = .next { s with team := { s.team.flush with ended := true } }) ∧
    (s.team.kind = .team → s.team.execZero = true → exec .exit s = .next (({ s with team := s.team.flush } : State).finish 1)) ∧
    (s.team.kind = .team → s.team.execZero = false → s.team.inOrder → Completes .exit s fun t =>
      SameRegs s.team.flush t.team ∧ SameWorld s t ∧ t.team.pc = s.team.pc + 4 ∧ t.team.pend = [] ∧
      (∀ th, t.team.live th = (s.team.live th && !s.team.active th)) ∧
      (∀ th, tget 0 t.team.cnt th = tget 0 s.team.cnt th) ∧
      (t.team.limbs = if (∀ th, th < s.team.limbs → s.team.active th = true ∨ tget false s.team.exited th = true) then 0 else s.team.limbs) ∧
      (s.team.ended = false → (t.team.ended = true ↔ ∀ th, s.team.live th = true → s.team.active th = true)))

/-! ### Traps -/

/-- No link of the package moves data (R285). -/
def Sys2Proof.Claim.noLink (s : State) : Prop := ∀ e ∈ s.links, e.1 < 12 → ¬ (e.2.up = true ∧ e.2.training = false ∧ e.2.recovering = false)

/-- A store of the team is on its way to another package, and no link moves data (R28, R285). -/
def Sys2Proof.Claim.storeHeld (s : State) : Prop := noLink s ∧ ∃ a ∈ s.team.inflight, ∃ w ∈ a.writes, ∃ p x, w.loc = .home p x ∧ p ≠ s.pkg

/-- Trap entry (R218, R219, R221) of cause `c` from `s`, by a handler at text offset `e`, has led to `t`: what the handler's return restores is saved, every present thread is active with no level, path or binding, the reservations are lost, FAULTMASK and FAULTINFO0 to 3 hold the cause, and fetch goes to the entry. The registers are those of the outstanding results written. -/
structure Sys2Proof.Claim.Entered (s t : State) (c : TrapCause) (e : Nat) : Prop where
  saved : t.team.trapCtx = some
    { resume := match c.resume with
        | .atWord => s.team.pc
        | .next => s.team.pc + 4,
      cnt := s.team.cnt, stack := s.team.stack, slot := s.team.pathSlot, fair := s.team.fair, lastSwitch := s.team.lastSwitch,
      limbs := s.team.limbs, limbf := s.team.limbf }
  threads : ∀ th, t.team.active th = s.team.live th
  entry : t.team.pc = s.launch.code.textOff + e
  mask : ∀ w j, w < 33 → j < 32 → ((tget 0 t.team.faultMask w).getLsbD j = true ↔ 32 * w + j ∈ c.threads)
  info0 : tget 0 t.team.faultInfo 0 = BitVec.ofNat 32 (2 ^ 16 * c.detail.toNat + 2 ^ 8 * c.reg.toNat + classCode c.cls)
  info1 : tget 0 t.team.faultInfo 1 = BitVec.ofNat 32 (ordOf s.launch.code s.team.pc)
  info23 : tget 0 t.team.faultInfo 2 = bitsWord c.addr.toNat 0 ∧ tget 0 t.team.faultInfo 3 = bitsWord c.addr.toNat 1
  regs : SameRegs s.team.flush t.team
  frame : t.team = { s.team with
    v := t.team.v, s := t.team.s, pend := [], trapCtx := t.team.trapCtx, cnt := t.team.cnt, stack := [], pathSlot := .empty, limbs := 0,
    faultMask := t.team.faultMask, faultInfo := t.team.faultInfo, resv := [], scalarResv := none, deferred := none,
    cand := none, captured := false, decided := none, auditHeld := none, promised := none, shadow := 0, probation := none, parked := none, hitBps := [], hitAt := none,
    awaited := [], queue := [], owed := [], holdFor := 0, pc := t.team.pc }
  world : t = { s with team := t.team }

/-- R78, R218, R221, R223, R258, R310, R396 (log 13), R222, R285: the words whose effect is a trap, and the step of trap entry, enter the handler when the launch has one and the team is not in it: `trap` with its code and `brkpt` without a debugger resume after the word; an illegal word reports its major opcode, and while EXEC is zero only writes the outstanding results (one issue cycle, log 43). With a debugger, which no protected world has (R252, R277), `brkpt` is a stop request. While an earlier store is on its way to another package and no link moves data, the team waits for it at its word, what it has taken ahead unwound (log 38). -/
def Obligations.TrapEntryWords : Prop :=
  (∀ (s : State) (e : Nat), s.team.kind = .team → s.team.trapCtx = none → s.launch.trapent = some e → s.team.inflight = [] →
    (∀ c : BitVec 11, Completes (.trap c) s fun t => Entered s t { cls := .software, detail := c.setWidth 16, resume := .next } e) ∧
    (∀ b : BitVec 7, s.launch.debugger = false ∨ s.world s.launch.world = .prot → Completes (.brkpt b) s fun t =>
      Entered s t { cls := .breakpoint, detail := b.setWidth 16, resume := .next } e) ∧
    (∀ b : BitVec 7, s.launch.debugger = true → s.world s.launch.world ≠ .prot → s.team.ended = false → Completes (.brkpt b) s fun t =>
      t = ({ s with team := { s.team with stops := t.team.stops } } : State).finish 1 ∧ StopCause.brkpt b.toNat ∈ t.team.stops ∧
        ∀ c ∈ s.team.stops, c ∈ t.team.stops) ∧
    (∀ w : Word, s.team.execZero = false → Completes (.illegalWord w) s fun t =>
      Entered s t { cls := .illegal, threads := s.team.actives, detail := BitVec.ofNat 16 (w.toNat / 2 ^ 25 % 64) } e) ∧
    (∀ w : Word, s.team.execZero = true → exec (.illegalWord w) s = .next (({ s with team := s.team.flush } : State).finish 1)) ∧
    (∀ c : TrapCause, s.team.threads ≠ 0 → s.team.ended = false → s.team.engFaults = [] → s.team.escapes = [] →
      Completes (.trapEntry c) s fun t => Entered s t c e)) ∧
  ∀ (s : State) (e : Nat) (c : BitVec 11), s.team.kind = .team → s.team.trapCtx = none → s.launch.trapent = some e → storeHeld s →
    exec (.trap c) s = .next { s with team := { s.team with parked := some (.trap { cls := .software, detail := c.setWidth 16, resume := .next }),
                                                            cand := none, promised := none, queue := [], owed := [] } }

/-- R223, R319: `eret` outside a handler is an illegal instruction; in one it restores what trap entry saved and goes to the resume point, and with no result outstanding every register and everything beside the team is as before. -/
def Sys2Proof.Claim.ReturnWordClaim : Prop :=
  ∀ s : State,
    (s.team.trapCtx = none → exec .eret s = .next (s.takeTrap { cls := .illegal, detail := 0x3D })) ∧
    (∀ x, s.team.trapCtx = some x → s.team.inOrder → Completes .eret s fun t =>
      t.team.trapCtx = none ∧ t.team.pc = x.resume ∧ t.team.cnt = x.cnt ∧ t.team.stack = x.stack ∧ t.team.pathSlot = x.slot ∧
      t.team.fair = x.fair ∧ t.team.lastSwitch = x.lastSwitch ∧ t.team.limbs = x.limbs ∧ t.team.limbf = x.limbf ∧
      t = { s with team := t.team } ∧ (s.team.pend = [] → SameRegs s.team t.team))

/-- R218, R221, R319: a software trap whose handler returns at once leaves the team at the word after it, its threads, levels, timer, binding and registers as they were; the reservations are lost. -/
def Sys2Proof.Claim.TrapThenReturnClaim : Prop :=
  ∀ (s : State) (e : Nat) (c : BitVec 11), s.team.kind = .team → s.team.trapCtx = none → s.launch.trapent = some e → s.settled →
    ∃ h t, exec (.trap c) s = .next h ∧ exec .eret h = .next t ∧ t.team.pc = s.team.pc + 4 ∧ SameRegs s.team t.team ∧
      t.team.trapCtx = none ∧ t.team.cnt = s.team.cnt ∧ t.team.stack = s.team.stack ∧ t.team.pathSlot = s.team.pathSlot ∧
      t.team.fair = s.team.fair ∧ t.team.limbs = s.team.limbs ∧ t.team.limbf = s.team.limbf ∧ t.team.resv = [] ∧
      t = { s with team := t.team }

/-- `eret` (R319), and a trap with its return (R221). -/
def Obligations.ReturnWords : Prop := ReturnWordClaim ∧ TrapThenReturnClaim

/-! ### Divergence -/

/-- A divergence word takes effect (R12, R30 to R35, R298): the counters of the present unexited threads, the levels and the path slot become these, and the word ends after an issue cycle per pass, at least one, before `next`. Nothing else changes. -/
def Sys2Proof.Claim.Diverges (i : Instr) (s : State) (cnt : Nat → Nat) (stack : List Level) (slot : PathSlot) (next : Team → Nat) : Prop :=
  ∃ tm : Team, tm = { s.team with cnt := tm.cnt, stack := stack, pathSlot := slot } ∧
    (∀ th, tget 0 tm.cnt th = if s.team.live th then cnt th else tget 0 s.team.cnt th) ∧
    exec i s = .next (({ s with team := tm } : State).finishPasses (List.replicate (max 1 tm.passes) 1) (next tm))

/-- The word at an offset is of a kind, or cannot be fetched (R298). -/
def Sys2Proof.Claim.landsOn (s : State) (pc : Nat) (ok : Instr → Bool) : Prop := ∀ w, s.fetchWord pc = .ok w → ∃ i, decode w = some i ∧ ok i = true

/-- With the counters `cnt` the limb threads of the team are all active or all inactive (R107). -/
def Sys2Proof.Claim.boundKept (s : State) (cnt : Nat → Nat) : Prop :=
  (∀ th, th < s.team.limbs → s.team.live th = true ∧ cnt th = 0) ∨ ∀ th, th < s.team.limbs → ¬ (s.team.live th = true ∧ cnt th = 0)

/-- With the counters `cnt` some limb threads of the team would be active and `ts`, which are active now, would not (R107). -/
def Sys2Proof.Claim.boundSplit (s : State) (cnt : Nat → Nat) (ts : List Nat) : Prop :=
  ts = (upList 0 s.team.limbs).filter (fun th => s.team.active th && decide (cnt th ≠ 0)) ∧ ts ≠ [] ∧
    ∃ th, th < s.team.limbs ∧ s.team.live th = true ∧ cnt th = 0

/-- The suspended-path slot is empty or belongs to another level than the innermost (R34). -/
def Sys2Proof.Claim.slotElsewhere (s : State) : Prop :=
  ∀ d, (s.team.pathSlot = .done d ∨ ∃ ths pc, s.team.pathSlot = .held ths pc d) → d ≠ s.team.stack.length

/-- A word that has left no present thread active skips to a word of no expected kind (R298): it takes an illegal-instruction trap, the counters and levels as the word left them. -/
def Sys2Proof.Claim.LandsWrong (i : Instr) (s : State) (cnt : Nat → Nat) (stack : List Level) : Prop :=
  ∃ tm : Team, tm = { s.team with cnt := tm.cnt, stack := stack } ∧
    (∀ th, tget 0 tm.cnt th = if s.team.live th then cnt th else tget 0 s.team.cnt th) ∧
    exec i s = .next (({ s with team := tm } : State).takeTrap { cls := .illegal, detail := 0x22 })

/-- R30, R32, R33, R107, R298, R317, R318, R339: `if` opens a level and stops the threads whose predicate does not hold, `else` exchanges counters 0 and 1, `endif` lowers every nonzero counter and closes the level; with no thread left active `if` and `else` skip to their target, and trap where that is a word of another kind. At 255 levels or a counter of 255 `if` is a nesting fault, and where it would split the limb threads a bound-divergence fault that names those it would stop (where both hold, nesting overflow: log 43). `else` outside a then-path and `endif` outside an `if` are illegal. That the cycles of the `if` itself count in its level's timer is log 43. -/
def Sys2Proof.Claim.IfElseWordsClaim : Prop :=
  ∀ s : State,
    let cnt := fun (th : Nat) => tget 0 s.team.cnt th
    (∀ (p : Pred) (o : BitVec 18),
      let new := fun (th : Nat) => if cnt th = 0 then (if predOf s.team th p then 0 else 1) else cnt th + 1
      let tgt := branchTarget s o
      let lv : Level := { kind := .thenPath, hasElse := (s.fetchWord tgt).toOption.any fun w => (decode w).any isElse, start := s.team.fair, target := tgt }
      (s.team.stack.length < 255 → (∀ th, s.team.live th = true → cnt th < 255) → boundKept s new →
        landsOn s tgt (fun i => isElse i || isEndif i) →
        Diverges (.ifp p o) s new (lv :: s.team.stack) s.team.pathSlot fun tm => if tm.execZero then tgt else s.team.pc + 4) ∧
      (s.team.stack.length < 255 → (∀ th, s.team.live th = true → cnt th < 255) → boundKept s new →
        (∀ th, s.team.live th = true → new th ≠ 0) → ¬ landsOn s tgt (fun i => isElse i || isEndif i) →
        LandsWrong (.ifp p o) s new (lv :: s.team.stack)) ∧
      (s.team.stack.length < 255 → (∀ th, s.team.live th = true → cnt th < 255) → ∀ ts, boundSplit s new ts →
        exec (.ifp p o) s = .next (s.takeTrap { cls := .boundDiv, threads := ts })) ∧
      (255 ≤ s.team.stack.length → exec (.ifp p o) s = .next (s.takeTrap { cls := .nesting, threads := s.team.lives })) ∧
      (s.team.stack.length < 255 → ∀ ts, ts = s.team.lives.filter (fun th => decide (255 ≤ cnt th)) → ts ≠ [] →
        exec (.ifp p o) s = .next (s.takeTrap { cls := .nesting, threads := ts }))) ∧
    (∀ (o : BitVec 18) (l : Level) (r : List Level), s.team.stack = l :: r → l.kind = .thenPath → slotElsewhere s →
      let new := fun (th : Nat) => if cnt th = 0 then 1 else if cnt th = 1 then 0 else cnt th
      (landsOn s (branchTarget s o) isEndif →
        Diverges (.elsep o) s new ({ l with kind := .elsePath } :: r) s.team.pathSlot
          fun tm => if tm.execZero then branchTarget s o else s.team.pc + 4) ∧
      ((∀ th, s.team.live th = true → new th ≠ 0) → ¬ landsOn s (branchTarget s o) isEndif →
        LandsWrong (.elsep o) s new ({ l with kind := .elsePath } :: r))) ∧
    (∀ (l : Level) (r : List Level), s.team.stack = l :: r → l.kind ≠ .loop → slotElsewhere s →
      Diverges .endif s (fun th => cnt th - 1) r s.team.pathSlot fun _ => s.team.pc + 4) ∧
    ((∀ l ∈ s.team.stack.head?, l.kind ≠ .thenPath) → ∀ o : BitVec 18,
      exec (.elsep o) s = .next (s.takeTrap { cls := .illegal, threads := s.team.actives, detail := 0x22 })) ∧
    ((∀ l ∈ s.team.stack.head?, l.kind = .loop) →
      exec .endif s = .next (s.takeTrap { cls := .illegal, threads := s.team.actives, detail := 0x22 }))

/-- R35, R298: at the end of a path of a level whose other path is held, `else` and `endif` give the turn to the held path, which goes on where it stopped; and the `else` of a level whose then path has been left so is gone over to its `endif`, or traps where its offset names a word of another kind (R298). -/
def Sys2Proof.Claim.HeldPathWordsClaim : Prop :=
  ∀ (s : State) (l : Level) (r : List Level) (ths : List Nat) (pc : Nat), s.team.stack = l :: r →
    let cnt := fun (th : Nat) => tget 0 s.team.cnt th
    let turn := fun (th : Nat) => if cnt th = 0 then 1 else if th ∈ ths then 0 else cnt th
    let d := r.length + 1
    (s.team.pathSlot = .held ths pc d → l.kind = .thenPath → ∀ o : BitVec 18,
      Diverges (.elsep o) s turn ({ l with kind := .elsePath } :: r) (.done d) fun _ => pc) ∧
    (s.team.pathSlot = .held ths pc d → l.kind ≠ .loop →
      Diverges .endif s turn ({ l with kind := .thenPath } :: r) (.done d) fun _ => pc) ∧
    (s.team.pathSlot = .done d → l.kind = .thenPath → ∀ o : BitVec 18,
      (landsOn s (branchTarget s o) isEndif → Diverges (.elsep o) s cnt s.team.stack (.done d) fun _ => branchTarget s o) ∧
      (¬ landsOn s (branchTarget s o) isEndif → LandsWrong (.elsep o) s cnt s.team.stack)) ∧
    (s.team.pathSlot = .done d → l.kind ≠ .loop → Diverges .endif s (fun th => cnt th - 1) r .empty fun _ => s.team.pc + 4)

/-- `if`, `else` and `endif` (R30 to R35), with the held path of a fairness switch. -/
def Obligations.IfElseWords : Prop := IfElseWordsClaim ∧ HeldPathWordsClaim

/-- R31, R32, R107, R309, R314, R351: `loop.beg` opens a loop level and adds 2 to the nonzero counters; `brk` and `cont` of the loop `d` give the threads whose predicate holds the counters d + 2 and d + 1; `loop.end` wakes the continued threads and goes back while a thread is active, and otherwise lowers the counters by 2 and closes the level. A counter that would pass 255 is a nesting fault of its threads, limb threads that would part a bound-divergence fault of those that would stop, a `loop.end` whose innermost level is an `if` illegal, and so is each word outside a loop, unless EXEC is zero. -/
def Obligations.LoopWords : Prop :=
  ∀ s : State,
    let cnt := fun (th : Nat) => tget 0 s.team.cnt th
    (s.team.stack.length < 255 → (∀ th, s.team.live th = true → cnt th < 254) →
      Diverges .loopBeg s (fun th => if cnt th = 0 then 0 else cnt th + 2)
        ({ kind := .loop, hasElse := false, start := s.team.fair, target := s.team.pc + 4 } :: s.team.stack) s.team.pathSlot fun _ => s.team.pc + 4) ∧
    (255 ≤ s.team.stack.length → exec .loopBeg s = .next (s.takeTrap { cls := .nesting, threads := s.team.lives })) ∧
    (s.team.stack.length < 255 → ∀ ts, ts = s.team.lives.filter (fun th => decide (254 ≤ cnt th)) → ts ≠ [] →
      exec .loopBeg s = .next (s.takeTrap { cls := .nesting, threads := ts })) ∧
    (∀ (l : Level) (r : List Level) (o : BitVec 18), s.team.stack = l :: r → l.kind ≠ .loop → (∃ x ∈ r, x.kind = .loop) →
      exec (.loopEnd o) s = .next (s.takeTrap { cls := .illegal, threads := s.team.actives, detail := 0x23 })) ∧
    (∀ (l : Level) (r : List Level) (o : BitVec 18), s.team.stack = l :: r → l.kind = .loop →
      let woken := fun (th : Nat) => if cnt th = 1 then 0 else cnt th
      ((∃ th, s.team.live th = true ∧ cnt th ≤ 1) → Diverges (.loopEnd o) s woken s.team.stack s.team.pathSlot fun _ => branchTarget s o) ∧
      (¬ (∃ th, s.team.live th = true ∧ cnt th ≤ 1) → Diverges (.loopEnd o) s (fun th => cnt th - 2) r s.team.pathSlot fun _ => s.team.pc + 4)) ∧
    (∀ (p : Pred) (d : BitVec 8), (∃ l ∈ s.team.stack, l.kind = .loop) →
      let left := fun (k th : Nat) => if cnt th = 0 ∧ predOf s.team th p = true then d.toNat + k else cnt th
      (boundKept s (left 2) → Diverges (.brk p d) s (left 2) s.team.stack s.team.pathSlot fun _ => s.team.pc + 4) ∧
      (boundKept s (left 1) → Diverges (.cont p d) s (left 1) s.team.stack s.team.pathSlot fun _ => s.team.pc + 4) ∧
      (∀ ts, boundSplit s (left 2) ts → exec (.brk p d) s = .next (s.takeTrap { cls := .boundDiv, threads := ts })) ∧
      (∀ ts, boundSplit s (left 1) ts → exec (.cont p d) s = .next (s.takeTrap { cls := .boundDiv, threads := ts }))) ∧
    (∀ (p : Pred) (d : BitVec 8) (o : BitVec 18), (¬ ∃ l ∈ s.team.stack, l.kind = .loop) →
      ∀ i ∈ [Instr.brk p d, Instr.cont p d, Instr.loopEnd o],
        (s.team.execZero = true → exec i s = .next (({ s with team := s.team.flush } : State).finish 1)) ∧
        (s.settled → s.team.execZero = false →
          exec i s = .next (s.takeTrap { cls := .illegal, threads := s.team.actives, detail := 0x23 })))

/-! ### Memory words -/

/-- The threads whose accesses a memory word makes: the active ones, or in the scalar form the scalar front-end, numbered 1,024 (R20, R346). -/
def Sys2Proof.Claim.accessors (s : State) (scalar : Bool) : List Nat := if scalar then [1024] else s.team.actives

/-- The pointer of a thread's access: the register pair plus the scaled offset (R50, R345). -/
def Sys2Proof.Claim.pointerOf (s : State) (a : Reg) (off : Int) (t : Nat) : DWord :=
  pairOf (s.team.rd s.blk.bix a 0 t) (s.team.rd s.blk.bix a 1 t) + BitVec.ofInt 64 off

/-- Some access of the word goes to another package, no link moves data, and none goes down with an access of the word (R6, R285, R286): the word waits at issue (log 38). -/
def Sys2Proof.Claim.waitsForLink (s : State) (a : Reg) (scalar : Bool) (off : Int) : Prop :=
  noLink s ∧ s.xLost = none ∧ ∃ t ∈ accessors s scalar, ∃ p, s.farPkg (pointerOf s a off t) = some p ∧ p ≠ s.pkg

/-- The word waits at issue for a link, and has no other effect. -/
def Sys2Proof.Claim.LinkWaits (i : Instr) (s : State) (a : Reg) (scalar : Bool) (off : Int) : Prop :=
  waitsForLink s a scalar off → exec i s = .next { s with team := { s.team with parked := some .link, promised := none } }

/-- The checked accesses of a word (R142, R143, R218, R228). -/
def Sys2Proof.Claim.accessesOf (s : State) (u : Use) (size : Nat) (lost : Bool) (a : Reg) (scalar : Bool) (off : Int) : List Acc :=
  (accessors s scalar).filterMap fun t => match s.check u size a.isV lost t (pointerOf s a off t) with
    | .ok g => some { t := t, q := pointerOf s a off t, g := g }
    | .error _ => none

/-- No access of the word fails its checks. -/
def Sys2Proof.Claim.allPass (s : State) (u : Use) (size : Nat) (lost : Bool) (a : Reg) (scalar : Bool) (off : Int) : Prop :=
  ∀ t ∈ accessors s scalar, ∃ g, s.check u size a.isV lost t (pointerOf s a off t) = .ok g

/-- Word `j` of loaded bytes: a value of fewer than four is extended by zeros, or by its sign (R345). -/
def Sys2Proof.Claim.loadedWord (sgn : Bool) (size : Nat) (bs : List Byte) (j : Nat) : Word :=
  if size < 4 then (if sgn then (BitVec.ofNat (8 * size) (leNat bs)).signExtend 32 else BitVec.ofNat 32 (leNat bs)) else bitsWord (leNat bs) j

/-- What R25, R345 and R346 say of a load of `size` bytes: where it needs a link and none moves data it waits (R6, R285); else, with nothing outstanding and every access passing its checks it completes; once its result is written the destination holds what each thread's pointer reaches, and memory and everything else beside the team is as before. That the bytes are those of the moment of issue, and that the result is read here after every outstanding one is written, is the model's choice (log 3). -/
def Sys2Proof.Claim.LoadRuns (mk : Reg → Reg → BitVec 7 → BitVec 4 → Instr) (size : Nat) (sgn : Bool) : Prop :=
  ∀ (d a : Reg) (o : BitVec 7) (n : BitVec 4) (s : State), (mk d a o n).wf = true →
    let k := (size + 3) / 4
    let scalar := d.isScalar && a.isScalar
    let off := size * o.toInt
    s.team.kind = .team → s.settled → s.unwatched → s.team.windowFail [(d, k), (a, 2)] = none →
    LinkWaits (mk d a o n) s a scalar off ∧ (¬ waitsForLink s a scalar off → allPass s .ld size true a scalar off →
    Completes (mk d a o n) s fun t =>
      RegsAre s.team t.team.flush d k (fun th j =>
        let me := if scalar then 1024 else th
        match s.check .ld size a.isV true me (pointerOf s a off me) with
        | .ok g => loadedWord sgn size (s.readTgt g me size) j
        | .error _ => 0) ∧
      SameWorld s t ∧ Issued s.team t.team)

/-- R25, R345, R346: the seven loads. -/
def Sys2Proof.Claim.LoadWordsClaim : Prop :=
  LoadRuns .ldB32 4 false ∧ LoadRuns .ldB8 1 false ∧ LoadRuns .ldB64 8 false ∧ LoadRuns .ldB16 2 false ∧ LoadRuns .ldB128 16 false ∧
  LoadRuns .ldI8 1 true ∧ LoadRuns .ldI16 2 true

/-- R8, R28, R169, R184, R185: what a load reads of a raw target is, byte by byte, the latest store of the context that is on its way there on a path of the core, or else the byte that the view, the bank, the private memory, the far home or host memory holds. It is read at issue (log 3). -/
def Sys2Proof.Claim.RawReadWordsClaim : Prop :=
  ∀ (s : State) (g : Tgt) (t n : Nat), g.leaf = none → g.space ≠ 3 →
    (s.readTgt g t n).length = n ∧ ∀ i, i < n → (s.readTgt g t n)[i]? = some (
      match g.loc t i with
      | .home p a => (s.pm p).bytes.read a
      | .hostMem a => s.hostMem.read a
      | l => (s.team.pendingAt l).getD (s.locByte l))

/-- Loads (R149, R170, R345), and what a load reads of one location (R28, R169). -/
def Obligations.LoadWords : Prop := LoadWordsClaim ∧ RawReadWordsClaim

/-- The byte that writes of a store leave at a location: the highest thread's, and of one thread's the last (R171). -/
def Sys2Proof.Claim.topAt (ws : List PendingByte) (l : Loc) : Option Byte :=
  ((ws.filter fun w => decide (w.loc = l)).foldl (fun (best : Option PendingByte) w => match best with
    | none => some w
    | some b => if b.thread ≤ w.thread then some w else some b) none).map (·.byte)

/-- The bytes that a store sends to raw targets: location, byte and thread (R171, R391). -/
def Sys2Proof.Claim.rawSent (s : State) (d : Reg) (size : Nat) (as : List Acc) : List PendingByte :=
  (as.filter fun x => x.g.leaf.isNone).flatMap fun x => (List.range size).map fun i =>
    { loc := x.g.loc x.t i, byte := BitVec.ofNat 8 ((s.team.rd s.blk.bix d (i / 4) x.t).toNat / 2 ^ (8 * (i % 4))), thread := x.t }

/-- The bytes that a store sends: location and byte, thread by thread (R171, R391). -/
def Sys2Proof.Claim.rawStores (s : State) (d : Reg) (size : Nat) (as : List Acc) : List (Loc × Byte) :=
  (as.filter fun x => x.g.leaf.isNone).flatMap fun x =>
    (List.range size).map fun i => (x.g.loc x.t i, BitVec.ofNat 8 ((s.team.rd s.blk.bix d (i / 4) x.t).toNat / 2 ^ (8 * (i % 4))))

/-- The byte that a list of writes leaves at a location: the last one's. -/
def Sys2Proof.Claim.lastAt (ws : List (Loc × Byte)) (l : Loc) : Option Byte := (ws.reverse.find? fun w => decide (w.1 = l)).map (·.2)

/-- What R28, R149, R169, R171, R184, R185 and R391 say of a store of `size` bytes: with nothing outstanding, every access passing, a link where it needs one, none dead under it and every block of a typed page fully covered it completes; its access in flight brings each location the byte of the highest thread that stored there, whether raw or, as the highest of its block's threads (log 13), on a typed page; the team reads that byte from now on, but over the X path only once it has landed, and at every other location what it read before; the quantised blocks of typed pages count their events; nothing else changes. -/
def Sys2Proof.Claim.StoreRuns (mk : Reg → Reg → BitVec 7 → BitVec 4 → Instr) (size : Nat) : Prop :=
  ∀ (d a : Reg) (o : BitVec 7) (n : BitVec 4) (s : State), (mk d a o n).wf = true →
    let scalar := d.isScalar && a.isScalar
    let off := size * o.toInt
    let as := accessesOf s .st size false a scalar off
    let typed := typedStore s.team.loud (as.flatMap (s.elemsOf d size))
    let sent := rawSent s d size as ++ typed.2.1
    s.team.kind = .team → s.team.threads ≤ 1024 → s.settled → s.unwatched → s.team.windowFail [(d, (size + 3) / 4), (a, 2)] = none →
    LinkWaits (mk d a o n) s a scalar off ∧ (¬ waitsForLink s a scalar off → allPass s .st size false a scalar off → typed.1 = [] → (∀ x ∈ as, x.g.space = 5 → s.xDead x.t = false) →
    Completes (mk d a o n) s fun t =>
      (∀ l, t.readLoc l = match l with
        | .home _ _ | .hostMem _ => s.readLoc l
        | _ => (topAt sent l).getD (s.readLoc l)) ∧
      (as = [] → t.team.inflight = []) ∧
      (as ≠ [] → ∃ x : Access, t.team.inflight = [x] ∧ x.kind = .store ∧ x.done = false ∧
        ∀ l, lastAt (x.writes.map fun w => (w.loc, w.byte)) l = topAt sent l) ∧
      SameRegs s.team t.team ∧ SameWorld (s.countEvents typed.2.2) t ∧ Issued s.team t.team)

/-- R149, R171, R391, R392: the five stores. -/
def Obligations.StoreWords : Prop :=
  StoreRuns .stB32 4 ∧ StoreRuns .stB64 8 ∧ StoreRuns .stB128 16 ∧ StoreRuns .stB8 1 ∧ StoreRuns .stB16 2

/-- R165, R373, R394: `tld` sends 16 bytes of each active thread's pointer to its place in the scratchpad, where they are seen once they arrive; `pf` never faults and requests lines only; neither changes a register or memory when it issues. That the bytes of a `tld` are read at issue is the model's choice (log 3, log 20). -/
def Obligations.TileLoadAndPrefetchWords : Prop :=
  (∀ (d a : Reg) (o : BitVec 7) (n : BitVec 4) (s : State), Instr.wf (.tld d a o n) = true →
    let dst := (s.team.rd s.blk.bix d 0 0).toNat
    let as := accessesOf s .tld 16 true a false (16 * o.toInt)
    s.team.kind = .team → s.team.threads ≤ 1024 → s.settled → s.unwatched → s.team.windowFail [(a, 2)] = none →
    allPass s .tld 16 true a false (16 * o.toInt) → dst % 16 = 0 → (∀ t ∈ s.team.actives, dst + 16 * t + 16 ≤ s.blk.scratch) →
    Completes (.tld d a o n) s fun t =>
      SameRegs s.team t.team ∧ SameWorld s t ∧ Issued s.team t.team ∧
      (s.team.actives = [] → t.team.inflight = []) ∧
      (s.team.actives ≠ [] → ∃ x : Access, t.team.inflight = [x] ∧ x.kind = .tld ∧ x.done = false ∧ x.paths = [.g] ∧
        x.writes = as.flatMap fun y => (s.readTgt y.g y.t 16).zipIdx.map fun b => { loc := .spad (dst + 16 * y.t + b.2), byte := b.1, thread := y.t })) ∧
  (∀ (a : Reg) (o : BitVec 7) (n : BitVec 4) (s : State), Instr.wf (.pf a o n) = true →
    s.team.kind = .team → s.settled → s.team.windowFail [(a, 2)] = none →
    Completes (.pf a o n) s fun t =>
      SameRegs s.team t.team ∧ SameWorld s t ∧ Issued s.team t.team ∧ t.core.view = s.core.view)

/-- The threads of a word whose accesses fail, with their errors. -/
def Sys2Proof.Claim.failing (s : State) (u : Use) (size : Nat) (lost : Bool) (a : Reg) (scalar : Bool) (off : Int) : List (Nat × MemErr) :=
  (accessors s scalar).filterMap fun t => match s.check u size a.isV lost t (pointerOf s a off t) with
    | .ok _ => none
    | .error e => some (t, e)

/-- The state of a trap that `bad` raises: Tumbler has counted a tag or counter mismatch (R272). -/
def Sys2Proof.Claim.noted (s : State) (bad : List (Nat × MemErr)) : State :=
  { s with tumbler := { s.tumbler with integrity := s.tumbler.integrity + if bad.any (fun b => decide (b.2 = .uncorr 3)) then 1 else 0 } }

/-- The threads `bad` of a word trap in state `s'`, the pointers those of `s` (R218): every failing thread is named, none in the scalar form, and class, pointer and detail are the lowest one's. An access to a physical address that the package does not have stops the machine (R2; the model's choice, log 11). -/
def Sys2Proof.Claim.TrapsIn (i : Instr) (s s' : State) (bad : List (Nat × MemErr)) (a : Reg) (scalar : Bool) (off : Int) : Prop :=
  (∀ t e r, bad = (t, e) :: r → (∀ b ∈ bad, b.2 ≠ .hole) → exec i s = .next ((noted s' bad).takeTrap
    { cls := e.cls, threads := if scalar then [] else bad.map (·.1), addr := pointerOf s a off t, detail := e.detail })) ∧
  ((∃ b ∈ bad, b.2 = .hole) → exec i s = .fault .physicalHole)

/-- The accesses of a word have only been looked up (R227, R291): translations have entered the core's and the clusters' buffers and counted against the clusters' budgets. -/
def Sys2Proof.Claim.LookedUp (s s' : State) : Prop :=
  s' = { s with core := { s.core with tlb := s'.core.tlb, walks := s'.core.walks }, clusters := s'.clusters } ∧
  ∀ k, s'.getCluster k = { s.getCluster k with tlb := (s'.getCluster k).tlb, spent := (s'.getCluster k).spent, waiting := (s'.getCluster k).waiting }

/-- The threads `bad` of a word trap when its accesses, from `s0`, have only been looked up. -/
def Sys2Proof.Claim.TrapsAfter (i : Instr) (s s0 : State) (bad : List (Nat × MemErr)) (a : Reg) (scalar : Bool) (off : Int) : Prop :=
  ∃ s', LookedUp s0 s' ∧ TrapsIn i s s' bad a scalar off

/-- A word whose accesses fail their checks traps, with no other effect than that they were looked up; where it needs a link and none moves data it waits first. -/
def Sys2Proof.Claim.FaultsAs (i : Instr) (s : State) (u : Use) (size : Nat) (lost : Bool) (a : Reg) (scalar : Bool) (off : Int) : Prop :=
  ¬ waitsForLink s a scalar off → TrapsAfter i s s (failing s u size lost a scalar off) a scalar off

/-- A failing load has looked its accesses up and read what their checks let it read (R227, R291, R346): lines have also come into the core's view and its cluster's, whose stores stay as they were. -/
def Sys2Proof.Claim.ReadUp (s s' : State) : Prop :=
  s' = { s with core := { s.core with tlb := s'.core.tlb, walks := s'.core.walks, view := s'.core.view }, clusters := s'.clusters } ∧
  s'.core.view.dirty = s.core.view.dirty ∧
  ∀ k, s'.getCluster k = { s.getCluster k with tlb := (s'.getCluster k).tlb, spent := (s'.getCluster k).spent,
                                               waiting := (s'.getCluster k).waiting, view := (s'.getCluster k).view } ∧
    (s'.getCluster k).view.dirty = (s.getCluster k).view.dirty

/-- A load whose accesses fail their checks traps, having read. -/
def Sys2Proof.Claim.LoadFaults (i : Instr) (s : State) (size : Nat) (a : Reg) (scalar : Bool) (off : Int) : Prop :=
  ¬ waitsForLink s a scalar off → ∃ s', ReadUp s s' ∧ TrapsIn i s s' (failing s .ld size true a scalar off) a scalar off

/-- Of a pass-by-pass word the failing threads of the first pass that fails (R165, R392). -/
def Sys2Proof.Claim.firstBad (bad : List (Nat × MemErr)) : List (Nat × MemErr) := bad.filter fun b => decide (b.1 / 32 = (bad.map (·.1)).head?.getD 0 / 32)

/-- A word whose writes stand although it traps (R113, R392, R394) has led from `s` to `s'`: the written locations hold the last byte written there (in host space it is posted, R185), and without a remote write every other one reads as before; of the rest only monitors, reservations and what the accesses bring into views and buffers differ. -/
structure Sys2Proof.Claim.Stands (s s' : State) (ws : List (Loc × Byte)) : Prop where
  written : ∀ l b, lastAt ws l = some b → match l with
    | .hostMem a => (s.core.id, a, b) ∈ s'.hub.posted
    | _ => s'.readLoc l = b
  others : (∀ w ∈ ws, ∀ p a, w.1 ≠ .home p a) → ∀ l, lastAt ws l = none → s'.readLoc l = s.readLoc l
  posted : (∀ w ∈ ws, ∀ a, w.1 ≠ .hostMem a) → s'.hub = s.hub
  regs : SameRegs s.team s'.team
  team : s'.team = { s.team with priv := s'.team.priv, inflight := s'.team.inflight, mon := s'.team.mon, resv := s'.team.resv,
                                 scalarResv := s'.team.scalarResv }
  flights : ∀ x ∈ s'.team.inflight, x.writes = []
  hostMem : s'.hostMem = s.hostMem
  launch : s'.launch = s.launch

/-- What R218, R286 and R392 say of a store that traps: it acts pass by pass up to the first pass that fails, whose good threads' raw writes stand; a block of a typed page that is not fully covered is a partial-block fault of its threads, no typed page written. -/
def Sys2Proof.Claim.StoreFaults (mk : Reg → Reg → BitVec 7 → BitVec 4 → Instr) (size : Nat) : Prop :=
  ∀ (d a : Reg) (o : BitVec 7) (n : BitVec 4) (s : State), s.blk.key ≠ 0 → s.team.kind = .team → s.team.threads ≤ 1024 →
    s.settled → s.unwatched →
    let scalar := d.isScalar && a.isScalar
    let off := size * o.toInt
    s.team.windowFail [(d, (size + 3) / 4), (a, 2)] = none →
    let bad := firstBad (failing s .st size false a scalar off)
    let done := (accessesOf s .st size false a scalar off).filter fun x => bad = [] ∨ x.t / 32 ≤ (bad.map (·.1)).head?.getD 0 / 32
    let part := (typedStore s.team.loud (done.flatMap (s.elemsOf d size))).1
    (∀ x ∈ done, x.g.space = 5 → s.xDead x.t = false) → ¬ waitsForLink s a scalar off → s.xLost = none ∨ ¬ noLink s →
    (bad ≠ [] → ∃ s', Stands s s' (rawStores s d size done) ∧ TrapsIn (mk d a o n) s s' bad a scalar off) ∧
    (bad = [] → part ≠ [] → ∃ s', Stands s s' (rawStores s d size done) ∧
      TrapsIn (mk d a o n) s s' (((accessors s scalar).filter fun t => t ∈ part).map fun t => (t, MemErr.partialBlock)) a scalar off)

/-- R15, R113, R142, R143, R165, R194, R218, R345, R352, R359, R385, R392, R394: where an `lr`, atomic or `mon.arm` traps, before any of its accesses is made, and a load, having read; where a store or `tld` traps, pass by pass, what it has written standing; where an `sc` traps, its team's reservations gone; and that more than eight lines or lines of two memories misuse a monitor. The model's choices: that a `tld` whose destination fails names every active thread, with the source pointer of the lowest (log 20), and that a `mon.arm` to which both misuses apply reports the number of lines (log 22). -/
def Obligations.MemoryFaultWords : Prop :=
  (StoreFaults .stB32 4 ∧ StoreFaults .stB64 8 ∧ StoreFaults .stB128 16 ∧ StoreFaults .stB8 1 ∧ StoreFaults .stB16 2) ∧
  ∀ (d a : Reg) (o : BitVec 7) (n : BitVec 4) (s : State), s.settled →
    let sc := d.isScalar && a.isScalar
    (s.team.windowFail [(d, 1), (a, 2)] = none →
      LoadFaults (.ldB32 d a o n) s 4 a sc (4 * o.toInt) ∧ LoadFaults (.ldB8 d a o n) s 1 a sc o.toInt ∧
      LoadFaults (.ldB16 d a o n) s 2 a sc (2 * o.toInt) ∧ LoadFaults (.ldI8 d a o n) s 1 a sc o.toInt ∧
      LoadFaults (.ldI16 d a o n) s 2 a sc (2 * o.toInt) ∧ FaultsAs (.lrB32 d a o n) s .lr 4 false a sc (4 * o.toInt) ∧
      (∀ (c : Scope), TrapsAfter (.monArm c d a n) s s (failing s .mon 4 false a sc 0) a sc 0) ∧
      (∀ (p : AtomOp) (c : Scope) (r : Ordering4) (m : BitVec 2), p ≠ .cas → FaultsAs (.atom p c r d a m) s (.atom p) 4 false a sc 0) ∧
      (¬ waitsForLink s a sc (4 * o.toInt) → TrapsAfter (.scB32 d a o n) s ({ s with team := { s.team with resv := [], scalarResv := none } } : State)
        (failing s .sc 4 false a sc (4 * o.toInt)) a sc (4 * o.toInt)) ∧
      ∀ (c : Scope), allPass s .mon 4 false a sc 0 →
        let as := accessesOf s .mon 4 false a sc 0
        let lines := (as.map fun x => (s.lineRef x.g, homeLevel x.g c)).eraseDups
        let misuse := fun (k : BitVec 16) => exec (.monArm c d a n) s =
          .next (s.takeTrap { cls := .monitor, threads := if sc then [] else s.team.actives, detail := k })
        (8 < lines.length → misuse 2) ∧
        (lines.length ≤ 8 → (∃ x ∈ as, ∃ y ∈ as, ¬ (x.g.space = y.g.space ∧ x.g.pkg = y.g.pkg)) → misuse 3)) ∧
    (s.team.windowFail [(d, 2), (a, 2)] = none →
      LoadFaults (.ldB64 d a o n) s 8 a sc (8 * o.toInt) ∧ FaultsAs (.lrB64 d a o n) s .lr 8 false a sc (8 * o.toInt) ∧
      (¬ waitsForLink s a sc (8 * o.toInt) → TrapsAfter (.scB64 d a o n) s ({ s with team := { s.team with resv := [], scalarResv := none } } : State)
        (failing s .sc 8 false a sc (8 * o.toInt)) a sc (8 * o.toInt)) ∧
      ∀ (c : Scope) (r : Ordering4) (m : BitVec 2), FaultsAs (.atom .cas c r d a m) s (.atom .cas) 4 false a sc 0) ∧
    (s.team.windowFail [(d, 4), (a, 2)] = none → LoadFaults (.ldB128 d a o n) s 16 a sc (16 * o.toInt)) ∧
    (s.team.windowFail [(a, 2)] = none → s.blk.key ≠ 0 → s.team.kind = .team → s.team.threads ≤ 1024 → s.unwatched →
      let dst := (s.team.rd s.blk.bix d 0 0).toNat
      let ptr := pointerOf s a (16 * o.toInt)
      let trap := fun (c : TrapClass) => ∀ t r, s.team.actives = t :: r →
        exec (.tld d a o n) s = .next (s.takeTrap { cls := c, threads := s.team.actives, addr := ptr t })
      let bad := firstBad (failing s .tld 16 true a false (16 * o.toInt))
      let done := (accessesOf s .tld 16 true a false (16 * o.toInt)).filter fun x => x.t / 32 < (bad.map (·.1)).head?.getD 0 / 32
      (dst % 16 ≠ 0 → trap .alignment) ∧
      (dst % 16 = 0 → (∃ t ∈ s.team.actives, s.blk.scratch < dst + 16 * t + 16) → trap .translation) ∧
      (dst % 16 = 0 → (∀ t ∈ s.team.actives, dst + 16 * t + 16 ≤ s.blk.scratch) → bad ≠ [] →
        ∃ s', Stands s s' (done.flatMap fun y => (s.readTgt y.g y.t 16).zipIdx.map fun b => (Loc.spad (dst + 16 * y.t + b.2), b.1)) ∧
          TrapsIn (.tld d a o n) s s' bad a false (16 * o.toInt)))

/-! ### Reservations, atomics, monitors -/

/-- No context of the package is parked. -/
def Sys2Proof.Claim.NoneParked (s : State) : Prop := s.team.parked = none ∧ ∀ e ∈ s.teams, ∀ tm, e.2 = some tm → tm.parked = none

/-- The running context's block and launch are the running ones, resident under their own numbers, and no context of the package is parked. -/
def Sys2Proof.Claim.Placed (s : State) : Prop :=
  s.blk.key ≠ 0 ∧ s.launch.uid ≠ 0 ∧ s.blk.launchUid = s.launch.uid ∧ s.team.blkKey = s.blk.key ∧ NoneParked s

/-- An access covers byte `a` of package `p`'s main memory. -/
def Sys2Proof.Claim.coversHome (x : Acc) (size p a : Nat) : Prop := x.g.space ≠ 1 ∧ x.g.space ≠ 6 ∧ p = x.g.pkg ∧ x.g.addr ≤ a ∧ a < x.g.addr + size
/-- An access covers byte `o` of the scratchpad. -/
def Sys2Proof.Claim.coversSpad (x : Acc) (size o : Nat) : Prop := x.g.space = 1 ∧ x.g.addr ≤ o ∧ o < x.g.addr + size

/-- R6, R36, R169, R196, R285, R352: `lr` waits where it needs a link and none moves data; else it brings the line's earlier stores of this core to their home, reads there, and reserves the line, which the running path has from then on to match by an `sc`. -/
def Sys2Proof.Claim.LrRuns (mk : Reg → Reg → BitVec 7 → BitVec 4 → Instr) (size : Nat) : Prop :=
  ∀ (d a : Reg) (o : BitVec 7) (n : BitVec 4) (s : State), (mk d a o n).wf = true →
    let scalar := d.isScalar && a.isScalar
    let off := size * o.toInt
    let as := accessesOf s .lr size false a scalar off
    let s1 := s.bringDown as (fun _ => .home) size
    s.team.kind = .team → s.settled → s.unwatched → s.team.windowFail [(d, size / 4), (a, 2)] = none →
    LinkWaits (mk d a o n) s a scalar off ∧ (¬ waitsForLink s a scalar off → allPass s .lr size false a scalar off →
    (∀ x ∈ as, s1.homePoison x.g .home x.t size = 0) →
    Completes (mk d a o n) s fun t =>
      RegsAre s.team t.team.flush d (size / 4) (fun th j =>
        let me := if scalar then 1024 else th
        match s.check .lr size a.isV false me (pointerOf s a off me) with
        | .ok g => bitsWord (leNat (s1.homeBytes g .home size)) j
        | .error _ => 0) ∧
      (∀ x ∈ as, t.team.resvOf scalar x.t = some (s.lineRef x.g)) ∧ 
      (∀ x ∈ as, ∃ e ∈ t.team.openLr, e.path = s.team.actives ∧ e.thread = x.t ∧ e.line = s.lineRef x.g) ∧
      t.mem = s1.mem ∧ t.hostMem = s.hostMem ∧ t.blk = s.blk ∧ t.launch = s.launch ∧ t.team.pc = s.team.pc + 4 ∧
      ∀ p b, (∀ x ∈ as, ¬ (x.g.space = 0 ∧ p = s.pkg ∧ b / 64 = x.g.addr / 64)) → (t.pm p).bytes.read b = (s.pm p).bytes.read b)

/-- Any two accesses of `size` bytes of a word reach the same bytes or bytes apart. -/
def Sys2Proof.Claim.Apart (as : List Acc) (size : Nat) : Prop :=
  ∀ x ∈ as, ∀ y ∈ as, x.g.space = y.g.space ∧ (x.g = y.g ∨ x.g.pkg ≠ y.g.pkg ∨ x.g.addr + size ≤ y.g.addr ∨ y.g.addr + size ≤ x.g.addr)

/-- R6, R36, R169, R197, R198, R285, R385: `sc` waits where it needs a link and none moves data; else it stores at the home and answers 0 in the threads whose reservation of the line still stands and is not ended by a lower thread's store, answers 1 and stores nothing in the others, and ends every reservation of its threads; the `lr` of its threads that it matches, those on its lines, are matched, and no others. -/
def Sys2Proof.Claim.ScRuns (mk : Reg → Reg → BitVec 7 → BitVec 4 → Instr) (size : Nat) : Prop :=
  ∀ (d a : Reg) (o : BitVec 7) (n : BitVec 4) (s : State), (mk d a o n).wf = true →
    let scalar := d.isScalar && a.isScalar
    let off := size * o.toInt
    let as := accessesOf s .sc size false a scalar off
    let s1 := s.bringDown as (fun _ => .home) size
    let holds := fun (x : Acc) => s1.team.resvOf scalar x.t = some (s.lineRef x.g)
    let wins := fun (x : Acc) => holds x ∧ ∀ y ∈ as, y.t < x.t → holds y → s.lineRef y.g ≠ s.lineRef x.g
    s.team.kind = .team → s.team.threads ≠ 0 → s.settled → s.unwatched → Placed s → s.team.windowFail [(d, size / 4), (a, 2)] = none →
    LinkWaits (mk d a o n) s a scalar off ∧ (¬ waitsForLink s a scalar off → allPass s .sc size false a scalar off → (∀ x ∈ as, x.g.space = 5 → s.xDead x.t = false) →
    Completes (mk d a o n) s fun t =>
      RegsAre s.team t.team.flush d (size / 4) (fun th _ => if (∃ x ∈ as, x.t = (if scalar then 1024 else th) ∧ wins x) then 0 else 1) ∧
      (Apart as size → ∀ x ∈ as, wins x → t.homeBytes x.g .home size = s.dataBytes d size x.t) ∧
      (∀ p b, (∀ x ∈ as, wins x → ¬ coversHome x size p b) → (t.pm p).bytes.read b = (s1.pm p).bytes.read b) ∧
      (∀ b, (∀ x ∈ as, wins x → ¬ coversSpad x size b) → t.blk.spad.read b = s.blk.spad.read b) ∧
      (∀ x ∈ as, t.team.resvOf scalar x.t = none) ∧ 
      (∀ e, e ∈ t.team.openLr ↔ e ∈ s.team.openLr ∧ ∀ x ∈ as, ¬ (e.thread = x.t ∧ e.line = s.lineRef x.g)) ∧
      t.hostMem = s.hostMem ∧ t.launch = s.launch ∧ t.team.pc = s.team.pc + 4)

/-- R196, R197, R198, R352, R385: load-reserve and store-conditional of both widths. -/
def Obligations.ReserveWords : Prop := LrRuns .lrB32 4 ∧ LrRuns .lrB64 8 ∧ ScRuns .scB32 4 ∧ ScRuns .scB64 8

/-- The new value of an atomic of operation `p` with operands `x` and `y` (R173). -/
def Sys2Proof.Claim.atomValue (p : AtomOp) (old x y : Word) : Word :=
  match p with
  | .add => old + x
  | .min => if old.toInt ≤ x.toInt then old else x
  | .max => if old.toInt ≤ x.toInt then x else old
  | .and => old &&& x
  | .or => old ||| x
  | .xor => old ^^^ x
  | .exch => x
  | .cas => if old = x then y else old

/-- R6, R169, R173 to R175, R285, R303: `atom` waits where it needs a link and none moves data; else it acts at the home of its scope after what its ordering publishes, thread by thread in ascending order on each word: each thread's result is the word as the lower threads of the word left it, the word ends as the last one leaves it, and without an acquire no other byte changes from what was brought down. -/
def Obligations.AtomicWord : Prop :=
  ∀ (p : AtomOp) (c : Scope) (r : Ordering4) (d a : Reg) (n : BitVec 2) (s : State), Instr.wf (.atom p c r d a n) = true →
    let scalar := d.isScalar && a.isScalar
    let as := accessesOf s (.atom p) 4 false a scalar 0
    let lv := fun (x : Acc) => homeLevel x.g c
    let s1 := (if isRel r then s.drain.publish s.core.id (scopeLevel c) else s).bringDown as lv 4
    let word := fun (x : Acc) => (BitVec.ofNat 32 (leNat (s1.homeBytes x.g (lv x) 4)) : Word)
    let act := fun (ys : List Acc) (w : Word) =>
      ys.foldl (fun w y => atomValue p w (s.team.rd s.blk.bix d 0 y.t) (s.team.rd s.blk.bix d 1 y.t)) w
    s.team.kind = .team → s.settled → s.unwatched → Placed s → s.team.windowFail [(d, if p = .cas then 2 else 1), (a, 2)] = none →
    LinkWaits (.atom p c r d a n) s a scalar 0 ∧ (¬ waitsForLink s a scalar 0 → allPass s (.atom p) 4 false a scalar 0 → (∀ x ∈ as, s1.homePoison x.g (lv x) x.t 4 = 0) →
    Completes (.atom p c r d a n) s fun t =>
      t.team.pc = s.team.pc + 4 ∧
      (Apart as 4 →
        RegsAre s.team t.team.flush d 1 (fun th _ =>
          let me := if scalar then 1024 else th
          match s.check (.atom p) 4 a.isV false me (pointerOf s a 0 me) with
          | .ok g => act (as.filter fun y => decide (y.t < me) && decide (y.g = g)) (word { t := me, q := 0, g := g })
          | .error _ => 0) ∧
        ((isAcq r = false ∨ ∀ x ∈ as, x.g.space ≠ 5) → ∀ x ∈ as, t.homeBytes x.g (lv x) 4 = leBytes 4 (act (as.filter fun y => decide (y.g = x.g)) (word x)).toNat) ∧
        (isAcq r = false → (∀ q b, (∀ x ∈ as, ¬ coversHome x 4 q b) → (t.pm q).bytes.read b = (s1.pm q).bytes.read b) ∧
          (∀ b, (∀ x ∈ as, ¬ coversSpad x 4 b) → t.blk.spad.read b = s.blk.spad.read b) ∧
          ∀ b, (∀ x ∈ as, ¬ (x.g.space = 6 ∧ x.g.addr ≤ b ∧ b < x.g.addr + 4)) → t.hostMem.read b = s1.hostMem.read b)))

/-- R169, R191, R193, R194, R218, R359, R360: `mon.arm` reads the words at their homes and arms on their lines, of one memory and eight at most; `mon.wait` returns from Triggered to Idle, parks while Armed, and is a monitor misuse in Idle, which names every active thread (the model's reading, log 22). -/
def Obligations.MonitorWords : Prop :=
  (∀ (c : Scope) (d a : Reg) (n : BitVec 4) (s : State), Instr.wf (.monArm c d a n) = true →
    let scalar := d.isScalar && a.isScalar
    let as := accessesOf s .mon 4 false a scalar 0
    let lv := fun (x : Acc) => homeLevel x.g c
    let s1 := s.bringDown as lv 4
    let lines := (as.map fun x => (s.lineRef x.g, lv x)).eraseDups
    s.team.kind = .team → s.settled → s.unwatched → s.team.windowFail [(d, 1), (a, 2)] = none → allPass s .mon 4 false a scalar 0 →
    as ≠ [] → lines.length ≤ 8 → (∀ x ∈ as, ∀ y ∈ as, x.g.space = y.g.space ∧ x.g.pkg = y.g.pkg) →
    (∀ x ∈ as, s1.homePoison x.g (lv x) x.t 4 = 0) →
    Completes (.monArm c d a n) s fun t =>
      RegsAre s.team t.team.flush d 1 (fun th _ =>
        let me := if scalar then 1024 else th
        match s.check .mon 4 a.isV false me (pointerOf s a 0 me) with
        | .ok g => BitVec.ofNat 32 (leNat (s1.homeBytes g (homeLevel g c) 4))
        | .error _ => 0) ∧
      t.team.mon = .armed ∧ t.team.monLines = lines ∧ t.mem = s1.mem ∧ t.hostMem = s.hostMem ∧ t.blk = s.blk ∧ t.team.pc = s.team.pc + 4) ∧
  (∀ (c : Scope) (d a : Reg) (n : BitVec 4) (s : State), s.settled → s.team.windowFail [(d, 1), (a, 2)] = none →
    accessors s (d.isScalar && a.isScalar) = [] → Completes (.monArm c d a n) s fun t =>
      t.team.mon = .triggered ∧ SameWorld s t ∧ t.team.pc = s.team.pc + 4) ∧
  (∀ s : State, s.settled →
    (s.team.mon = .triggered → exec .monWait s = .next (({ s with team := { s.team with mon := .idle } } : State).finish 0)) ∧
    (s.team.mon = .armed → exec .monWait s = .next { s with team := { s.team with parked := some .monitor, promised := none } }) ∧
    (s.team.mon = .idle → exec .monWait s = .next (s.takeTrap { cls := .monitor, threads := s.team.actives, detail := 1 })))

/-! ### Ordering, waiting, latches -/

/-- The dirty bytes of a view at an address all hold `b`, and there is one. -/
def Sys2Proof.Claim.dirtyByte (v : View) (a : Nat) (b : Byte) : Prop := (∃ e ∈ v.dirty, e.1 = a) ∧ ∀ e ∈ v.dirty, e.1 = a → ∃ d, e.2 = some d ∧ d.byte = b
/-- No dirty byte of a view lies at an address. -/
def Sys2Proof.Claim.cleanByte (v : View) (a : Nat) : Prop := ∀ e ∈ v.dirty, e.1 ≠ a

/-- R168: with a publish at home level the core's stores, and the older ones of its cluster unit, stand at their homes, no other byte of the package's memory has changed, and neither view holds a store any more. -/
def Sys2Proof.Claim.StoresHome (s t : State) : Prop :=
  t.core.view.dirty = [] ∧ t.clus.view.dirty = [] ∧
  (∀ a b, dirtyByte s.core.view a b → cleanByte s.clus.view a ∨ twf none s.clus.view.dirty = true → (t.pm s.pkg).bytes.read a = b) ∧
  (∀ a b, cleanByte s.core.view a → dirtyByte s.clus.view a b → (t.pm s.pkg).bytes.read a = b) ∧
  (∀ a, cleanByte s.core.view a → cleanByte s.clus.view a → (t.pm s.pkg).bytes.read a = (s.pm s.pkg).bytes.read a) ∧
  ∀ p, p ≠ s.pkg → (t.pm p).bytes = (s.pm p).bytes

/-- R168: after the refresh that follows a publish at home level the views hold no line either. -/
def Sys2Proof.Claim.PublishedHome (s t : State) : Prop := t.core.view = {} ∧ t.clus.view = {} ∧ StoresHome s t

/-- The bytes on their way to host memory from core `c`, in the order in which they reach it (R185): what the host interface holds, then what the core's teams have issued. -/
def Sys2Proof.Claim.hostBound (s : State) (c : Nat) : List (Loc × Byte) :=
  (s.hub.posted.map fun e => (Loc.hostMem e.2.1, e.2.2)) ++
    (((tvals s.teamTbl).filter fun t => decide (t.coreId = c)).flatMap fun t => t.inflight.flatMap fun a =>
      (a.writes.filter PendingByte.toHost).map fun w => (w.loc, w.byte))

/-- R29, R168, R185, R374, R380, R399: `phase` of a core's scopes only drains, of a cluster's scopes hands the core's stores to the cluster unit and drops its snapshot, of wider scopes brings them to their homes, and at `.host` every host-space store of the core's teams into host memory, and waits while a store is on its way to another package and no link moves data (log 38); `wait` parks while the counter is above its operand, of which 255 and more never waits, or takes a waiting fault of its engine; `rdcnt` reads the counter; the last two first write outstanding results. -/
def Obligations.OrderingWords : Prop :=
  (∀ (c : Scope) (s : State), s.settled → s.team.kind = .team → Placed s →
    Completes (.phase c) s fun t =>
      SameRegs s.team t.team ∧ t.team.pc = s.team.pc + 4 ∧ t.blk = s.blk ∧ t.launch = s.launch ∧
      (c ≠ .host → t.hostMem = s.hostMem) ∧
      (c = .host → t.hub.posted = [] ∧ hostBound t s.core.id = [] ∧
        ∀ a, t.hostMem.read a = (lastAt (hostBound s s.core.id) (.hostMem a)).getD (s.hostMem.read a)) ∧
      (scopeLevel c = .coreView → t = s.finish 0) ∧
      (scopeLevel c = .cluster → t.core.view = {} ∧ t.mem = s.mem ∧ ∀ a b, dirtyByte s.core.view a b →
        cleanByte s.clus.view a ∨ twf none s.clus.view.dirty = true → dirtyByte t.clus.view a b) ∧
      (scopeLevel c = .home → PublishedHome s t)) ∧
  (∀ (c : Scope) (s : State), s.team.kind = .team → storeHeld s →
    exec (.phase c) s = .next { s with team := { s.team with parked := some .link, promised := none } }) ∧
  (∀ (p : Path) (d : Reg) (s : State),
    let f := s.team.flush
    let k := (f.rd s.blk.bix d 0 0).toNat
    (s.team.engFaults = [] → k < 255 → k < f.counter p →
      exec (.wait p d) s = .next { s with team := { f with parked := some (.path p k), promised := none } }) ∧
    (s.team.engFaults = [] → ¬ (k < 255 ∧ k < f.counter p) → exec (.wait p d) s = .next (({ s with team := f } : State).finish 0)) ∧
    (∀ (e : Engine) (x : EngFault), s.team.engFaults = [x] → x.engine = e → x.origin = .team s.team.key s.team.index →
      exec (.wait (match e with
        | .mx => .m
        | .cp => .c) d) s = .next (({ s with team := { f with engFaults := [] } } : State).takeTrap x.cause)) ∧
    (d.isSZ = true → ∃ tm, RegsWritten f tm d 1 (fun _ _ => BitVec.ofNat 32 (f.counter p)) ∧
      exec (.rdcnt p d) s = .next (({ s with team := tm } : State).finish 1)))

/-- A latch of the running block after a word, and nothing else of the block changed. -/
def Sys2Proof.Claim.LatchIs (s t : State) (l : Nat) (x : Latch) : Prop :=
  t.blk = { s.blk with latches := t.blk.latches } ∧ ∀ k, tget {} t.blk.latches k = if k = l then x else tget {} s.blk.latches k

/-- A latch after an arrival (R208, R210): the generation advances, and ARR returns to 0, with the arrival that makes ARR equal EXP. -/
def Sys2Proof.Claim.arrived (x : Latch) : Latch := if x.arr + 1 = x.exp then { x with arr := 0, gen := x.gen + 1 } else { x with arr := x.arr + 1 }

/-- R25, R208 to R211, R343: the five latch words on a block that is neither captured nor replayed. -/
def Obligations.LatchWords : Prop :=
  ∀ (l : BitVec 5) (d : Reg) (s : State), s.team.kind = .team → s.unwatched → Placed s → s.settled →
    let x := tget {} s.blk.latches l.toNat
    let v := s.team.rd s.blk.bix d 0 0
    (1 ≤ v.toNat → v.toNat ≤ 255 → ∃ b, LatchIs s { s with blk := b } l.toNat { x with exp := v.setWidth 8, arr := 0 } ∧
      exec (.latInit l d) s = .next (({ s with blk := b } : State).finish 0)) ∧
    (¬ (1 ≤ v.toNat ∧ v.toNat ≤ 255) → exec (.latInit l d) s = .next (s.takeTrap { cls := .illegal, detail := 0x34 })) ∧
    (∃ b, LatchIs s { s with blk := b } l.toNat (arrived x) ∧
      exec (.latArr l) s = .next (({ s with blk := b } : State).finish 0) ∧
      ((arrived x).gen ≠ x.gen → exec (.latArw l) s = .next (({ s with blk := b } : State).finish 0)) ∧
      ((arrived x).gen = x.gen → Completes (.latArw l) s fun t =>
        t.blk = b ∧ t.team = { s.team with parked := some (.latch l.toNat x.gen.toNat), promised := none })) ∧
    (x.gen ≠ v.setWidth 16 → exec (.latWait l d) s = .next (s.finish 0)) ∧
    (x.gen = v.setWidth 16 → exec (.latWait l d) s = .next { s with team := { s.team with parked := some (.latch l.toNat x.gen.toNat), promised := none } }) ∧
    (d.isSZ = true → ∃ tm, RegsWritten s.team tm d 1 (fun _ _ => x.gen.setWidth 32) ∧ exec (.latGen l d) s = .next (({ s with team := tm } : State).finish 0))

/-! ### Engines -/

/-- The command or copy at the end of a FIFO came from the running context (R131, R161). -/
def Sys2Proof.Claim.commandOrigin (tm : Team) : Origin :=
  match tm.kind with
  | .team => .team tm.key tm.index
  | .mxStream => .mxStream
  | .cpStream => .cpStream

/-- R132, R134, R163, R334, R341: `fork` starts the block's stream of the engine, a context of one thread at its first word with the team's scalar registers, parks while the stream runs, and is illegal without a stream; `join` goes on once the stream has ended and none of its commands remain, and parks before. -/
def Sys2Proof.Claim.StreamWordsClaim : Prop :=
  ∀ (e : Engine) (s : State), s.settled → s.team.joined = false → s.blk.key ≠ 0 → s.team.key ≠ streamKey s.blk.coreId e →
    let has := match e with
      | .mx => s.blk.mxEntry
      | .cp => s.blk.cpEntry
    let runs := match e with
      | .mx => s.blk.mxRun
      | .cp => s.blk.cpRun
    let left := match e with
      | .mx => s.blk.mxFifo.any fun x => decide (x.origin = .mxStream) && !x.mtsr
      | .cp => s.blk.cpFifo.any fun x => decide (x.origin = .cpStream)
    (has = none → exec (.fork e) s = .next (s.takeTrap { cls := .illegal, threads := s.team.actives, detail := 0x35 })) ∧
    (has ≠ none → runs = true → exec (.fork e) s = .next { s with team := { s.team with parked := some (.fork e), promised := none } }) ∧
    (∀ first, has = some first → runs = false → ∃ b x,
      (match e with
        | .mx => b = { s.blk with mxRun := true, mxForkPc := s.team.pc }
        | .cp => b = { s.blk with cpRun := true, cpForkPc := s.team.pc }) ∧
      x = { kind := match e with
              | .mx => .mxStream
              | .cp => .cpStream,
            key := streamKey s.blk.coreId e, coreId := s.blk.coreId, blkKey := s.blk.key, launchUid := s.blk.launchUid, threads := 1,
            pc := first, s := s.team.s : Team } ∧
      exec (.fork e) s = .next (({ s with blk := b, teams := tput none s.teams x.key (some x) } : State).finish 1)) ∧
    ((runs = true ∨ left = true) → exec (.join e) s = .next { s with team := { s.team with parked := some (.join e), promised := none } }) ∧
    (runs = false → left = false → s.team.engFaults = [] → s.blk.streamFaults = [] → exec (.join e) s = .next (s.finish 1)) ∧
    (runs = false → left = false → s.team.engFaults = [] → ∀ f, s.blk.streamFaults = [f] → f.engine = e →
      exec (.join e) s = .next (({ s with blk := { s.blk with streamFaults := [] } } : State).takeTrap f.cause))

/-- The other contexts of the running context's block. -/
def Sys2Proof.Claim.otherCtxs (s : State) : List Team := (s.ctxsOf s.team.blkKey).filter fun o => o.key != s.team.key

/-- R136, R160: of two contexts that wait for an entry of an engine's FIFO the engine's own stream enters first, and teams enter by ascending index. Where the other engine's stream stands between them is the model's choice (log 21). -/
def Sys2Proof.Claim.entersBefore (e : Engine) (o tm : Team) : Prop :=
  let own := match e with
    | .mx => CtxKind.mxStream
    | .cp => CtxKind.cpStream
  (o.kind = own ∧ tm.kind ≠ own) ∨ (o.kind ≠ .team ∧ o.kind ≠ own ∧ tm.kind = .team) ∨ (o.kind = .team ∧ tm.kind = .team ∧ o.index < tm.index)

/-- R136, R160: the running context finds an entry of a FIFO that holds `n` of 16: one is free that has come to no other context, and it has come to this one or no context that waits for it enters first. -/
def Sys2Proof.Claim.entryFree (s : State) (e : Engine) (n : Nat) : Prop :=
  n < 16 ∧ (∀ o ∈ otherCtxs s, o.promised ≠ some e) ∧
    (s.team.promised = some e ∨ ∀ o ∈ otherCtxs s, o.parked = some (.fifo e) → o.stopped = false → ¬ entersBefore e o s.team)

/-- A matrix command of a stream (R133, R365): with an entry of the FIFO for it it enters with its latch and operand registers, started at once in an empty FIFO (R136), else the sequencer waits. -/
def Sys2Proof.Claim.StreamCommand (i : BitVec 5 → Reg → Instr) (c : MxCmd) (n : Nat) : Prop :=
  ∀ (l : BitVec 5) (d : Reg) (s : State), s.launch.replay = 0 → s.launch.uid ≠ 0 → s.blk.key ≠ 0 → s.team.blkKey = s.blk.key →
    (entryFree s .mx s.blk.mxFifo.length → ∃ x : MxEntry, x.cmd = c ∧ x.latch = l.toNat ∧
      x.ops = (List.range n).map (fun k => s.team.rd s.blk.bix d k 0) ∧ x.origin = commandOrigin s.team ∧ x.pc = s.team.pc ∧
      x.started = s.blk.mxFifo.isEmpty ∧ x.finished = false ∧ x.fault = none ∧ x.mtsr = false ∧
      exec (i l d) s = .next (({ s with blk := { s.blk with mxFifo := s.blk.mxFifo ++ [x] } } : State).finish 1)) ∧
    (¬ entryFree s .mx s.blk.mxFifo.length → exec (i l d) s = .next { s with team := { s.team with parked := some (.fifo .mx), promised := none } })

/-- R123, R124, R136, R365: the five matrix commands of a stream. -/
def Sys2Proof.Claim.StreamCommandWordsClaim : Prop :=
  StreamCommand .mxPrec .prec 1 ∧ StreamCommand .mxLdb .ldb 6 ∧ StreamCommand .mxMm .mm 8 ∧ StreamCommand .mxSt .st 5 ∧
  StreamCommand .mxZero .zero 2

/-- `fork` and `join` (R334, R341), and the matrix commands of a stream (R365). -/
def Obligations.StreamWords : Prop := StreamWordsClaim ∧ StreamCommandWordsClaim

/-- R135, R136, R159 to R161, R315, R366: a team's `mx.post` and `cp` append the command with its registers and latch to the engine's FIFO and count on path M or C; a record that fails its checks at issue traps instead; without an entry for it the team waits, a `cp` with its count raised, which it is once; `cp` waits before that for the team's earlier stores, also while one is on its way to another package and no link moves data (R285); and while a fault of its own copies awaits it a team's `cp` is discarded. -/
def Obligations.PostWords : Prop :=
  ∀ (l : BitVec 5) (d : Reg) (n : BitVec 4) (s : State), s.team.kind = .team → s.team.pend = [] → s.team.inOrder → s.launch.replay = 0 → s.launch.uid ≠ 0 →
    s.blk.key ≠ 0 → s.team.blkKey = s.blk.key →
    let r := (List.range 24).map fun k => s.team.rd s.blk.bix d k 0
    (s.team.inflight = [] →
     (∀ c : MxCmd, s.team.engFaults = [] → entryFree s .mx s.blk.mxFifo.length → Completes (.mxPost c l d n) s fun t =>
      ∃ x : MxEntry, t.blk = { s.blk with mxFifo := s.blk.mxFifo ++ [x] } ∧ x.cmd = c ∧ x.latch = l.toNat ∧
        x.ops = (List.range c.len).map (fun k => s.team.rd s.blk.bix d k 0) ∧ x.origin = .team s.team.key s.team.index ∧
        t.team.counter .m = 1 ∧ SameRegs s.team t.team ∧ Issued s.team t.team ∧ t.mem = s.mem ∧ t.hostMem = s.hostMem ∧ t.launch = s.launch) ∧
     (∀ c : MxCmd, s.team.engFaults = [] → ¬ entryFree s .mx s.blk.mxFifo.length →
      exec (.mxPost c l d n) s = .next { s with team := { s.team with parked := some (.fifo .mx), promised := none } })) ∧
    (s.team.inflight = [] → s.team.raised = none →
     (s.cpFault r (encReg d).toNat = none → s.team.engFaults = [] → entryFree s .cp s.blk.cpFifo.length → Completes (.cp l d n) s fun t =>
      ∃ x : CpEntry, t.blk = { s.blk with cpFifo := s.blk.cpFifo ++ [x] } ∧ x.record = r ∧ x.latch = l.toNat ∧ x.origin = .team s.team.key s.team.index ∧
        t.team.counter .c = 1 ∧ SameRegs s.team t.team ∧ Issued s.team t.team ∧ t.mem = s.mem ∧ t.hostMem = s.hostMem ∧ t.launch = s.launch) ∧
     (s.cpFault r (encReg d).toNat = none → s.team.engFaults = [] → ¬ entryFree s .cp s.blk.cpFifo.length → Completes (.cp l d n) s fun t =>
      ∃ k x, t.team = { s.team with parked := some (.fifo .cp), promised := none, raised := some k, inflight := [x] } ∧
        x.kind = .copy ∧ x.paths = [.c] ∧ x.done = false ∧ x.tag = k ∧ t.team.counter .c = 1 ∧ t.blk = s.blk ∧ SameWorld s t) ∧
     (∀ f, s.cpFault r (encReg d).toNat = none → s.team.engFaults = [f] → f.engine = .cp → f.origin = .team s.team.key s.team.index → Placed s →
      Completes (.cp l d n) s fun t => t.blk.cpFifo = s.blk.cpFifo ∧ t.team.counter .c = 0 ∧ SameRegs s.team t.team ∧ t.mem = s.mem) ∧
     ∀ c, s.cpFault r (encReg d).toNat = some c → exec (.cp l d n) s = .next (s.takeTrap c)) ∧
    (∀ (k : Nat) (y : Access), s.team.raised = some k → s.team.inflight = [y] → y.kind = .copy → y.paths = [.c] → y.done = false → y.donePaths = [] → y.writes = [] → y.tag = k →
      s.team.engFaults = [] → entryFree s .cp s.blk.cpFifo.length → Completes (.cp l d n) s fun t =>
        ∃ x : CpEntry, t.blk = { s.blk with cpFifo := s.blk.cpFifo ++ [x] } ∧ x.record = r ∧ x.latch = l.toNat ∧ x.tag = k ∧
          t.team.counter .c = 1 ∧ t.team.raised = none ∧ SameRegs s.team t.team) ∧
    (storeHeld s → s.team.counter .c < 255 → exec (.cp l d n) s = .next { s with team := { s.team with parked := some .link, promised := none } })

/-! ### Queues and system words -/

/-- The queue of a token word (R376): bits [31:26]. -/
def Sys2Proof.Claim.queueOf (w : Word) : Nat := w.toNat / 2 ^ 26

/-- E of R186 for a token taken on core `here`: the wider of the scope on `q.sig` and the narrowest scope around both cores; a host's token gives `.host`. -/
def Sys2Proof.Claim.tokenReach (x : Token) (here : Nat) : Level3 :=
  match x.core with
  | none => .home
  | some c =>
    if scopeLevel x.scope = .home ∨ c / 8 ≠ here / 8 then .home else if scopeLevel x.scope = .cluster ∨ c ≠ here then .cluster else .coreView

/-- A refresh at a level (R168, R186): the core's lines are dropped below core level; at home level the cluster unit's lines too, its stores first brought to their homes. -/
def Sys2Proof.Claim.Refreshed (s t : State) (e : Level3) : Prop :=
  (e = .coreView → t.core.view = s.core.view ∧ t.clus.view = s.clus.view ∧ t.mem = s.mem) ∧
  (e = .cluster → t.core.view = { s.core.view with lines := [], lost := [] } ∧ t.clus.view = s.clus.view ∧ t.mem = s.mem) ∧
  (e = .home → t.core.view = { s.core.view with lines := [], lost := [] } ∧ t.clus.view = {} ∧
    (∀ a b, dirtyByte s.clus.view a b → (t.pm s.pkg).bytes.read a = b) ∧
    (∀ a, cleanByte s.clus.view a → (t.pm s.pkg).bytes.read a = (s.pm s.pkg).bytes.read a))

/-- A token queue after a word, and no other queue changed. -/
def Sys2Proof.Claim.QueueIs (s t : State) (q : Nat) (k : TokenQueue) : Prop :=
  ∀ j, tget {} t.hub.tokenQueues j = if j = q then k else tget {} s.hub.tokenQueues j

/-- R186, R376 to R379: `q.sig` brings the core's stores and its cluster unit's to their homes and appends its word, with vector 6 + q where NOTIFY asks, and on a queue of 255 tokens parks after the publish; `q.wait` takes the oldest token that no earlier waiter has coming and refreshes at E, or parks behind the waiters; a queue that is not granted is a permission fault; a `q.sig` waits while a store of the team is on its way to another package and no link moves data (R28, R285). -/
def Obligations.QueueWords : Prop :=
  (∀ (c : Scope) (d : Reg) (s : State), d.isS = true → s.team.kind = .team → storeHeld s →
    queueOf (s.team.rd s.blk.bix d 0 0) < 58 → s.launch.grant / 2 ^ queueOf (s.team.rd s.blk.bix d 0 0) % 2 = 1 →
    exec (.qSig c d) s = .next { s with team := { s.team with parked := some .link, promised := none } }) ∧
  ∀ (c : Scope) (d : Reg) (s : State), d.isS = true → s.settled → s.team.kind = .team → Placed s →
    let w := s.team.rd s.blk.bix d 0 0
    let q := queueOf w
    let k := tget {} s.hub.tokenQueues q
    (¬ (q < 58 ∧ s.launch.grant / 2 ^ q % 2 = 1) →
      exec (.qSig c d) s = .next (s.takeTrap { cls := .translation, detail := 0x1000 }) ∧
      exec (.qWait c d) s = .next (s.takeTrap { cls := .translation, detail := 0x1000 })) ∧
    (q < 58 → s.launch.grant / 2 ^ q % 2 = 1 →
      (k.tokens.length < 255 → Completes (.qSig c d) s fun t =>
        QueueIs s t q { k with tokens := k.tokens ++ [{ word := w, core := some s.core.id, scope := c }] } ∧
        t.hub.msix = s.hub.msix ++ (if k.notify then [6 + q] else []) ∧ SameRegs s.team t.team ∧ t.team.pc = s.team.pc + 4 ∧
        StoresHome s t ∧ t.hostMem = s.hostMem ∧ t.blk = s.blk) ∧
      (¬ k.tokens.length < 255 → Completes (.qSig c d) s fun t => t.hub = s.hub ∧ t.team.parked = some (.qSend q w c) ∧ SameRegs s.team t.team ∧
        t.team.pc = s.team.pc ∧ StoresHome s t ∧ t.hostMem = s.hostMem ∧ t.blk = s.blk) ∧
      (∀ x, k.tokens[k.waiters.length]? = some x → Completes (.qWait c d) s fun t =>
        QueueIs s t q { k with tokens := k.tokens.eraseIdx k.waiters.length } ∧ Refreshed s t (tokenReach x s.core.id) ∧ RegsAre s.team t.team d 1 (fun _ _ => x.word) ∧ t.team.pc = s.team.pc + 4 ∧
        t.hostMem = s.hostMem ∧ t.blk = s.blk) ∧
      (k.tokens.length ≤ k.waiters.length → Completes (.qWait c d) s fun t =>
        QueueIs s t q { k with waiters := k.waiters ++ [s.team.wid] } ∧ t.team = { s.team with parked := t.team.parked, promised := none } ∧
        (∃ i, d = .s i ∧ t.team.parked = some (.qRecv q i.val)) ∧ t.mem = s.mem ∧ t.blk = s.blk))

/-- The special registers of a team, its block, launch and core by selector (R79, R80); TIME has two words. -/
def Sys2Proof.Claim.specialValue (s : State) (x : Nat) : Word :=
  if x < 0x20 then BitVec.ofNat 32 (((List.range 32).filter fun j => s.team.active (32 * x + j)).map fun j => 2 ^ j).sum
  else if x < 0x40 then tget 0 s.team.faultMask (x - 0x20)
  else if x < 0x54 then tget 0 s.launch.fpcnt (x - 0x40)
  else if x < 0x5C then tget 0 s.team.faultInfo (x - 0x58)
  else if x = 0x60 then BitVec.ofNat 32 s.team.part
  else if x = 0x61 then BitVec.ofNat 32 s.team.limbs
  else if x = 0x62 then BitVec.ofNat 32 s.team.limbf.toNat
  else if x = 0x63 then BitVec.ofNat 32 s.team.wb
  else if x = 0x64 then BitVec.ofNat 32 s.team.tprio
  else if x = 0x65 then BitVec.ofNat 32 (4 * s.team.pen.toNat + s.team.rnd.toNat)
  else if x = 0x66 then s.blk.mxp
  else if x = 0x67 then BitVec.ofNat 32 (256 * (s.blk.mxFifo.countP fun e => !e.started) + (if s.blk.mxFifo.any (·.started) then 2 else 0)
    + if s.blk.wovf then 1 else 0)
  else if x = 0x68 then BitVec.ofNat 32 s.blk.mxprog
  else if x = 0x69 then BitVec.ofNat 32 s.blk.cpprog
  else if x = 0x6A then BitVec.ofNat 32 (64 * s.team.slot + 16 * s.team.qtr + s.team.index)
  else if x = 0x6B then BitVec.ofNat 32 (1024 * s.pkg + 256 * (s.core.id / 144) + 8 * (s.core.id % 144 / 8) + s.core.id % 8)
  else if x = 0x6C then (tget {} s.core.quarters s.team.qtr).sampctl
  else if x = 0x6D then BitVec.ofNat 32 ((if s.launch.out then 4 else 0) + s.launch.pol)
  else if x = 0x6E then BitVec.ofNat 32 (4096 * (s.getCluster (s.core.id / 8)).cap + 256 * s.team.perfReq + (s.getCluster (s.core.id / 8)).cur)
  else BitVec.ofNat 32 (1024 * (s.blk.origin / 144) + 32 * (s.blk.origin % 144 / 8) + 4 * (s.blk.origin % 8))

/-- The selectors whose read is a rendezvous (R358). -/
def Sys2Proof.Claim.readsLate (x : Nat) : Bool := decide (x < 0x20) || (decide (0x40 ≤ x) && decide (x < 0x54)) || decide (x = 0x61) || decide (x = 0x62)

/-- R79, R80, R217, R358, R363, R372: `mfsr` reads every special register; `mtsr` writes those that a program may write with the values their fields admit, the privileged ones in a handler only, and is illegal otherwise; `perf.set` requests levels 0 to 15. LIMBS and LIMBF are written by a rendezvous (R22, R105); that their illegal trap names no thread is log 19. CUR changes at an evaluation (log 26). -/
def Obligations.SpecialRegisterWords : Prop :=
  ∀ (x : BitVec 11) (d : Reg) (s : State),
    let v := (s.team.rd s.blk.bix d 0 0).toNat
    let f := s.team.flush
    let late := (f.rd s.blk.bix d 0 0).toNat
    let refusedLate := exec (.mtsr x d) s = .next (({ s with team := f } : State).takeTrap { cls := .illegal, detail := 0x3C })
    let refused := exec (.mtsr x d) s = .next (s.takeTrap { cls := .illegal, detail := 0x3C })
    let put := fun (tm : Team) => exec (.mtsr x d) s = .next (({ s with team := tm } : State).finish 0)
    (d.isSZ = true → selectorListed x.toNat = true → x ≠ 0x70 → readsLate x.toNat = false →
      ∃ tm, RegsWritten s.team tm d 1 (fun _ _ => specialValue s x.toNat) ∧ exec (.mfsr x d) s = .next (({ s with team := tm } : State).finish 0)) ∧
    (d.isSZ = true → selectorListed x.toNat = true → readsLate x.toNat = true →
      ∃ tm, RegsWritten s.team.flush tm d 1 (fun _ _ => specialValue s x.toNat) ∧ exec (.mfsr x d) s = .next (({ s with team := tm } : State).finish 1)) ∧
    (d.isSZ = true → x = 0x70 → ∃ tm, RegsWritten s.team tm d 2 (fun _ k => bitsWord s.time.toNat k) ∧ exec (.mfsr x d) s = .next (({ s with team := tm } : State).finish 0)) ∧
    (x = 0x60 → if v ∈ [2, 4, 8, 16, 32] then put { s.team with part := v } else refused) ∧
    (x = 0x62 → if late < 16 then exec (.mtsr x d) s = .next (({ s with team := { f with limbf := BitVec.ofNat 4 late } } : State).finish 1) else refusedLate) ∧
    (x = 0x61 → refusedLate) ∧
    (x = 0x64 → if v < 8 then put { s.team with tprio := v } else refused) ∧
    (x = 0x65 → if v < 16 then put { s.team with rnd := BitVec.ofNat 2 v, pen := BitVec.ofNat 2 (v / 4) } else refused) ∧
    (x = 0x66 → let legal := v < 2 ^ 13 ∧ v / 2 ^ 7 % 2 = 0 ∧ 4 ≤ v / 2 ^ 8 % 16 ∧ v / 2 ^ 8 % 16 ≤ 14 ∧ 1 ≤ v % 2 ^ 7 ∧ v % 2 ^ 7 ≤ 64 ∧
        (v / 2 ^ 12 = 1 ∨ 11 ≤ v / 2 ^ 8 % 16)
      (¬ legal → refused) ∧ (legal → s.team.engFaults = [] → s.launch.replay = 0 → s.launch.uid ≠ 0 → s.blk.key ≠ 0 → s.team.blkKey = s.blk.key →
        (¬ entryFree s .mx s.blk.mxFifo.length → exec (.mtsr x d) s = .next { s with team := { s.team with parked := some (.fifo .mx), promised := none } }) ∧
        (entryFree s .mx s.blk.mxFifo.length → ∃ y : MxEntry, y.cmd = .prec ∧ y.ops = [BitVec.ofNat 32 v] ∧ y.mtsr = true ∧ y.origin = commandOrigin s.team ∧
          exec (.mtsr x d) s = .next (({ s with blk := { s.blk with mxFifo := s.blk.mxFifo ++ [y] } } : State).finish 0)))) ∧
    (x = 0x67 → v = 0 → exec (.mtsr x d) s = .next (s.finish 0)) ∧
    (x = 0x67 → v = 1 → exec (.mtsr x d) s = .next (({ s with blk := { s.blk with wovf := false } } : State).finish 0)) ∧
    (x = 0x68 → if s.team.trapCtx ≠ none then exec (.mtsr x d) s = .next (({ s with blk := { s.blk with mxprog := v } } : State).finish 0) else refused) ∧
    (x = 0x69 → if s.team.trapCtx ≠ none then exec (.mtsr x d) s = .next (({ s with blk := { s.blk with cpprog := v } } : State).finish 0) else refused) ∧
    (x = 0x6D → if s.team.trapCtx ≠ none ∧ v < 8 ∧ v % 4 ≠ 3 then
        exec (.mtsr x d) s = .next (({ s with launch := { s.launch with pol := v % 4 } } : State).finish 0) else refused) ∧
    (x = 0x6C → if s.team.trapCtx ≠ none ∧ v / 2 ^ 24 % 2 ^ 7 = 0 ∧ 256 ≤ v % 2 ^ 24 then
        Completes (.mtsr x d) s fun t => (tget {} t.core.quarters s.team.qtr).sampctl = BitVec.ofNat 32 v ∧ t.team = s.team.finish 0 (s.team.pc + 4) ∧ SameWorld s t
      else refused) ∧
    (¬ x.toNat ∈ [0x60, 0x61, 0x62, 0x64, 0x65, 0x66, 0x67, 0x68, 0x69, 0x6C, 0x6D] → refused) ∧
    (if v ≤ 15 then exec (.perfSet d) s = .next (({ s with team := { s.team with perfReq := v } } : State).finish 0)
     else exec (.perfSet d) s = .next (s.takeTrap { cls := .illegal, detail := 0x3B }))

/-- The core buffers that a scope of `tlb.inv` reaches from core `here` (R395). -/
def Sys2Proof.Claim.reachesCore (c : Scope) (here k : Nat) : Prop :=
  match c with
  | .thr | .grp | .team | .core => k = here
  | .quad | .clus => k / 8 = here / 8
  | .die => k / 144 = here / 144
  | _ => True
/-- The cluster buffers that it reaches. -/
def Sys2Proof.Claim.reachesCluster (c : Scope) (here k : Nat) : Prop :=
  match c with
  | .thr | .grp | .team | .core => False
  | .quad | .clus => k = here / 8
  | .die => k / 18 = here / 144
  | _ => True

/-- Bits [hi:lo] of a hinge descriptor (R242). -/
def Sys2Proof.Claim.hingeBits (q : QWord) (hi lo : Nat) : Nat := q.toNat / 2 ^ lo % 2 ^ (hi - lo + 1)

/-- What `hng.set` asks of a descriptor for entry `e` (R242, R243): the unused bits are 0, STATE is 1, both counters are 0, and no other entry of the launch in STATE 1 or 2 of the same handle covers a word of its region. -/
def Sys2Proof.Claim.hingeLegal (s : State) (e : Nat) (q : QWord) : Prop :=
  hingeBits q 85 84 = 0 ∧ hingeBits q 79 64 = 0 ∧ hingeBits q 24 2 = 0 ∧ hingeBits q 1 0 = 1 ∧ hingeBits q 111 104 = 0 ∧ hingeBits q 127 112 = 0 ∧
  ∀ h ∈ s.core.hinges, h.1 ≠ e → h.2.launchUid = s.launch.uid → hingeBits h.2.desc 1 0 = 1 ∨ hingeBits h.2.desc 1 0 = 2 →
    hingeBits h.2.desc 39 25 = hingeBits q 39 25 →
    hingeBits h.2.desc 63 40 + hingeBits h.2.desc 83 80 < hingeBits q 63 40 ∨ hingeBits q 63 40 + hingeBits q 83 80 < hingeBits h.2.desc 63 40

/-- R79, R227, R243, R338, R395: the hinge words and `tlb.inv` are illegal outside a handler; in one, `hng.set` installs a descriptor that passes its checks with the candidate text it names, `hng.clr` clears the entry, `hng.rd` reads its descriptor, and `tlb.inv` leaves no entry for the offset in any core or cluster buffer of its scope and every other entry where it was; a candidate text that cannot be fetched traps by the error of its first such word. That `tlb.inv` goes by the offset of a global pointer, by the text offset of a code pointer, and does nothing for any other space is the model's choice (`gOff`, log 24), and so is the pointer that the trap reports. -/
def Obligations.PrivilegedWords : Prop :=
  ∀ (e : BitVec 4) (c : Scope) (d : Reg) (s : State),
    let q := qwordOf ((List.range 4).map fun k => s.team.rd s.blk.bix d k 0)
    let illegal := s.takeTrap { cls := .illegal, detail := 0x3E }
    (s.team.trapCtx = none → exec (.hngSet e d) s = .next illegal ∧ exec (.hngClr e) s = .next illegal ∧
      exec (.hngRd e d) s = .next illegal ∧ exec (.tlbInv c d) s = .next illegal) ∧
    (s.team.trapCtx ≠ none →
      (¬ hingeLegal s e.toNat q → exec (.hngSet e d) s = .next illegal) ∧
      (∀ ws, hingeLegal s e.toNat q → s.hingeText q (hgClen q + 1) = .ok ws → Completes (.hngSet e d) s fun t =>
        (∀ k, tget {} t.core.hinges k = if k = e.toNat then { desc := q, text := ws, launchUid := s.launch.uid } else tget {} s.core.hinges k) ∧
        t.team = s.team.finish 0 (s.team.pc + 4) ∧ SameWorld s t) ∧
      (∀ x p, hingeLegal s e.toNat q → s.hingeText q (hgClen q + 1) = .error (x, p) →
        (x ≠ .hole → ∃ s', s'.team = s.team ∧ SameWorld s s' ∧ s'.core.hinges = s.core.hinges ∧
          exec (.hngSet e d) s = .next ((noted s' [(0, x)]).takeTrap { cls := x.cls, addr := p, detail := x.detail })) ∧
        (x = .hole → exec (.hngSet e d) s = .fault .physicalHole)) ∧
      (Completes (.hngClr e) s fun t =>
        (∀ k, tget {} t.core.hinges k = if k = e.toNat then {} else tget {} s.core.hinges k) ∧ t.team = s.team.finish 0 (s.team.pc + 4) ∧ SameWorld s t) ∧
      (d.isS = true → ∃ tm, RegsWritten s.team tm d 4 (fun _ k => bitsWord (tget {} s.core.hinges e.toNat).desc.toNat k) ∧
        exec (.hngRd e d) s = .next (({ s with team := tm } : State).finish 0)) ∧
      (∀ o, s.gOff (pairOf (s.team.rd s.blk.bix d 0 0) (s.team.rd s.blk.bix d 1 0)) = some o → Completes (.tlbInv c d) s fun t =>
        (∀ k, reachesCore c s.core.id k → ∀ x ∈ (t.getCore k).tlb, x.covers s.launch.root o = false) ∧
        (∀ k, reachesCluster c s.core.id k → ∀ x ∈ (t.getCluster k).tlb, x.covers s.launch.root o = false) ∧
        (∀ x ∈ s.core.tlb, x.covers s.launch.root o = false → x ∈ t.core.tlb) ∧
        (twf {} s.cores = true → ∀ k x, x ∈ (s.getCore k).tlb → (x.covers s.launch.root o = false ∨ ¬ reachesCore c s.core.id k) → x ∈ (t.getCore k).tlb) ∧
        (twf {} s.clusters = true → ∀ k x, x ∈ (s.getCluster k).tlb → (x.covers s.launch.root o = false ∨ ¬ reachesCluster c s.core.id k) → x ∈ (t.getCluster k).tlb) ∧
        t.team = s.team.finish 0 (s.team.pc + 4) ∧ SameWorld s t) ∧
      (s.gOff (pairOf (s.team.rd s.blk.bix d 0 0) (s.team.rd s.blk.bix d 1 0)) = none → exec (.tlbInv c d) s = .next (s.finish 0)))

/-! ### The host's registers and queues -/

/-- A command queue's registers after a step, and nothing else changed. -/
def Sys2Proof.Claim.CommandQueueIs (s t : State) (q : Nat) (c : CmdQueue) : Prop :=
  t = { s with hub := { s.hub with queues := t.hub.queues } } ∧ ∀ j, tget {} t.hub.queues j = if j = q then c else tget {} s.hub.queues j

/-- R42, R280, R377: the doorbell and the queue's base and size; the token registers TQIN, TQTAKE and TQSTAT. A queue number above 57 does nothing (log 12); that an unaligned base is kept as written is the model's choice (log 43). -/
def Sys2Proof.Claim.QueueRegisterEventsClaim : Prop :=
  ∀ (q : Nat) (s : State),
    let c := tget {} s.hub.queues q
    let k := tget {} s.hub.tokenQueues q
    (∀ v : BitVec 16, q < 58 → Completes (.cqtailWrite q v) s fun t => CommandQueueIs s t q { c with tail := v }) ∧
    (∀ v : QWord, q < 58 → Completes (.registerWrite (.cqbase q) v) s fun t => CommandQueueIs s t q { c with base := BitVec.ofNat 64 v.toNat }) ∧
    (∀ v : QWord, q < 58 → Completes (.registerWrite (.cqsize q) v) s fun t =>
      CommandQueueIs s t q { c with size := BitVec.ofNat 32 (v.toNat % 32) }) ∧
    (∀ v : QWord, q < 58 → Completes (.registerWrite (.tqstat q) v) s fun t =>
      QueueIs s t q { k with notify := v.getLsbD 31, drop := k.drop && !v.getLsbD 9 }) ∧
    (∀ v : BitVec 26, q < 58 → k.tokens.length < 255 → NoneParked s → Completes (.tqinWrite q v) s fun t =>
      QueueIs s t q { k with tokens := k.tokens ++ [{ word := BitVec.ofNat 32 (2 ^ 26 * q + v.toNat), core := none }] } ∧
      t.hub.msix = s.hub.msix ++ (if k.notify then [6 + q] else []) ∧ t.team = s.team ∧ t.mem = s.mem) ∧
    (∀ v : BitVec 26, q < 58 → ¬ k.tokens.length < 255 → Completes (.tqinWrite q v) s fun t => QueueIs s t q { k with drop := true }) ∧
    (∀ x r, k.tokens = x :: r → k.waiters = [] → NoneParked s → Completes (.tqtakeRead q) s fun t =>
      t.hub.hostRead = x.word ∧ QueueIs s t q { k with tokens := r } ∧ t.team = s.team ∧ t.mem = s.mem) ∧
    (k.tokens = [] → exec (.tqtakeRead q) s = .next { s with hub := { s.hub with hostRead := 0xFFFFFFFF } }) ∧
    (58 ≤ q → ∀ (v : BitVec 16) (w : BitVec 26), exec (.cqtailWrite q v) s = .next s ∧ exec (.tqinWrite q w) s = .next s)

/-- A link that has failed accesses is to train (R285, R286): it goes down with its unacknowledged packets and one interrupt of vector 4, and then trains; a lost store's launch fails besides. -/
def Sys2Proof.Claim.TrainsAfterFall (s t : State) (k : Nat) (l : Link) : Prop :=
  t.link k = { l with up := false, width := 0, training := true, recovering := false, otherAck := none, farFailed := [], doomed := false, deg := true,
                      replayBuf := [], toResend := [] } ∧
  (∀ i, i ≠ k → t.link i = s.link i) ∧ t.mem = s.mem ∧
  ((∀ x ∈ l.replayBuf, x.carries = .nothing) → t = { s with links := t.links, hub := { s.hub with msix := s.hub.msix ++ [4] } })

/-- R217, R232, R256, R267, R275, R276, R287, R292 to R295: the other host registers: the fields that the host writes, clamped to the fused ceilings, write-1-to-clear bits, and EVLINK's RETRAIN bit, which starts training, but where the link has failed accesses after it has gone down with them (R286); nothing else changes. The model's choices: a level cap that the controller has cut follows a host's rise by its own steps (log 26), CEIL follows the last PCAP write, how the captured input ranges and the IDE stream ID reach the package, what RETRAIN leaves (log 37, log 33, log 40, log 38), and the clamping at ceilings whose value is free (log 27). IDLEFLOOR is written once, by the measurement at boot (R293). -/
def Sys2Proof.Claim.HostRegisterEventsClaim : Prop :=
  ∀ (v : QWord) (k j : Nat) (s : State),
    let n := v.toNat
    (∀ w : BitVec 12, exec (.pcapWrite w) s = .next { s with power := { s.power with pcap := min w.toNat 3400, ceil := decide (3400 < w.toNat) } }) ∧
    (1 ≤ n → n ≤ 65535 → exec (.registerWrite .frqh v) s = .next { s with hub := { s.hub with frqh := n } }) ∧
    (exec (.registerWrite .evwarn v) s = .next { s with evwarn := BitVec.ofNat 32 (n - n % 16) }) ∧
    (exec (.registerWrite .fluxlim v) s = .next { s with power := { s.power with fluxlim := min (n % 256) Config.fluxCeiling } }) ∧
    (s.power.booted = false → exec (.registerWrite .bootFloor v) s = .next { s with power := { s.power with idleFloor := n % 4096, booted := true } }) ∧
    (s.power.booted = true → exec (.registerWrite .bootFloor v) s = .next s) ∧
    (k < 16 → Completes (.registerWrite (.inputRange k) v) s fun t => t = { s with hub := { s.hub with inputRanges := t.hub.inputRanges } } ∧
      ∀ i, tget 0 t.hub.inputRanges i = if i = k then v else tget 0 s.hub.inputRanges i) ∧
    (exec (.registerWrite .ideStream v) s = .next { s with tumbler := { s.tumbler with ideStream := BitVec.ofNat 8 n } }) ∧
    (exec (.registerWrite .pwrstat v) s =
      .next { s with power := { s.power with breach := s.power.breach && !v.getLsbD 2, floor := s.power.floor && !v.getLsbD 1 } }) ∧
    (k < 4 → Completes (.registerWrite (.dieCap k) v) s fun t => t = { s with dies := t.dies } ∧
      ∀ i, tget {} t.dies i = if i = k then { tget {} s.dies k with cap := min n Config.dieCeiling } else tget {} s.dies i) ∧
    (k < 72 → Completes (.registerWrite (.levelCap k) v) s fun t => t = { s with clusters := t.clusters } ∧
      ∀ i, t.getCluster i = if i = k then { s.getCluster k with hostCap := n % 16, cap := if (s.getCluster k).cap = (s.getCluster k).hostCap then n % 16 else min (s.getCluster k).cap (n % 16) } else s.getCluster i) ∧
    (k < 8 → (∀ e ∈ s.power.partitions, e.1 ≠ k → partMask e.2 &&& n % 2 ^ 72 = 0) → Completes (.registerWrite (.partition k) v) s fun t =>
      t = { s with power := { s.power with partitions := t.power.partitions } } ∧
      ∀ i, tget 0 t.power.partitions i = if i = k then BitVec.ofNat 128 (n % 2 ^ 84) else tget 0 s.power.partitions i) ∧
    (k < 64 → ∀ l, s.getLaunch j = some l → Completes (.registerWrite (.breakpointEntry j k) v) s fun t => ∃ x, t = s.setLaunch { l with bps := x } ∧
      ∀ i, tget 0 x i = if i = k then v.setWidth 64 &&& 0xFFFFE0007FFFFFFF else tget 0 l.bps i) ∧
    (k < 12 → j < 16 → Completes (.registerWrite (.evlane k j) v) s fun t => t = { s with links := t.links } ∧
      tget {} (t.link k).lanes j = { tget {} (s.link k).lanes j with warn := (tget {} (s.link k).lanes j).warn && !v.getLsbD 2 } ∧
      ∀ i, i ≠ k → t.link i = s.link i) ∧
    (k < 12 → let l := { s.link k with warn := (s.link k).warn && !v.getLsbD 3, deg := (s.link k).deg && !v.getLsbD 2 }
      (v.getLsbD 1 = false ∨ l.doomed = false → Completes (.registerWrite (.evlink k) v) s fun t => t = { s with links := t.links } ∧
        (∀ i, i ≠ k → t.link i = s.link i) ∧
        t.link k = if v.getLsbD 1 = true then { l with training := true, recovering := false, otherAck := none, farFailed := [] } else l) ∧
      (v.getLsbD 1 = true → l.doomed = true → Completes (.registerWrite (.evlink k) v) s fun t => TrainsAfterFall s t k l))

/-- The queue registers (R42, R377) and the other host registers. -/
def Obligations.HostRegisterEvents : Prop := QueueRegisterEventsClaim ∧ HostRegisterEventsClaim

/-! ### Launches, blocks, ends -/

/-- A record of R229 whose first word names world, class, reason and queue. -/
def Sys2Proof.Claim.failureOf (l : Launch) (cls reason : Nat) (r : List Word) : Prop :=
  r.length = 8 ∧ r.head? = some (BitVec.ofNat 32 (l.world % 64 + 2 ^ 8 * cls + 2 ^ 16 * reason + 2 ^ 24 * l.queue))

/-- Launch `u` ended with a status: a captured one's last run of atomic requests is recorded (R267), and its own record and one interrupt of vector 0 came first; launches that depend on it may have failed with it (R42, R187, R229). -/
def Sys2Proof.Claim.LaunchOver (s t : State) (u : Nat) (l : Launch) (st : LaunchStatus) (cls reason : Nat) : Prop :=
  (∃ m : Launch, t.getLaunch u = some { m with status := st } ∧ m.run = none ∧ (l.run = none → m = l) ∧
    (l.run ≠ none → (s.endRun u).getLaunch u = some m)) ∧ ∃ r more n, failureOf l cls reason r ∧
    t.hub.failures = s.hub.failures ++ r :: more ∧ t.hub.msix = s.hub.msix ++ 0 :: n

/-- Bits [hi:lo] of word `k` of a descriptor. -/
def Sys2Proof.Claim.descField (d : Desc) (k hi lo : Nat) : Nat := (d.getD k 0).toNat / 2 ^ lo % 2 ^ (hi - lo + 1)

/-- Word `n` of a descriptor passes its checks (R43, R44): reserved fields are 0, and every field lies in the range that R34, R55, R236, R262, R268 and R43 give it. -/
def Sys2Proof.Claim.descWordOk (s : State) (d : Desc) (n : Nat) : Prop :=
  let f := descField d
  let code := s.code (f 0 13 8) (f 2 14 0)
  let kernel := code.bind fun c => c.kernels[f 2 22 15]?
  if n = 0 then f 0 31 14 = 0 ∧ f 0 7 0 = 1 ∧ s.world (f 0 13 8) ≠ .free
  else if n = 2 then f 2 31 23 = 0 ∧ ∃ k, kernel = some k ∧ k.scratch ≤ if f 11 2 2 = 1 then 327680 else 524288
  else if n = 3 then f 3 31 28 = 0 ∧ 1 ≤ f 3 27 24 ∧ f 3 27 24 ≤ 8 ∧ f 3 23 0 ≠ 0 ∧ f 3 23 0 % f 3 27 24 = 0
  else if n = 4 then f 4 31 0 = 2 ^ 32 - 1 ∨ ∀ c, code = some c → f 4 31 0 % 4 = 0 ∧ f 4 31 0 < c.textBytes
  else if n = 5 then f 5 31 17 = 0 ∧ (f 5 16 0 = 0 ∨ 256 ≤ f 5 16 0 ∧ f 5 16 0 ≤ 65536)
  else if n = 6 then f 6 31 22 = 0 ∧ if f 6 21 21 = 1 then f 6 18 0 = 0
    else 1 ≤ f 6 4 0 ∧ f 6 4 0 ≤ 16 ∧ 1 ≤ f 6 12 5 ∧ f 6 18 17 ≠ 3
  else if n = 7 then f 7 15 0 = 0
  else if n = 8 ∨ n = 10 then f n 31 16 = 0
  else if n = 9 then f 9 12 0 = 0
  else if n = 11 then f 11 31 9 = 0 ∧ f 11 1 0 ≠ 3 ∧ (f 11 1 0 = 2 → ∀ c k, code = some c → kernel = some k → s.replayOk c k = true)
  else if n = 12 then f 12 10 0 = 0
  else if n = 14 then f 14 15 0 = 0
  else if n = 17 then f 17 31 26 = 0
  else if n = 38 then f 38 31 6 = 0 ∧ (f 38 5 0 = 63 ∨ f 38 5 0 % 2 = 0 ∧ f 38 5 0 ≤ 34)
  else if n = 39 then f 39 31 4 = 0 ∧ f 39 3 0 ≤ 8
  else if 40 ≤ n ∧ n < 48 then (if n - 40 < f 39 3 0 then ∃ l ∈ tvals s.launchTbl, l.launchid = d.getD n 0 else d.getD n 0 = 0)
  else if 84 ≤ n ∧ n < 96 then d.getD n 0 = 0
  else True

/-- R42 to R44, R229: with a descriptor waiting the hub takes it from the queue served next, numbers the launch, and accepts it when every check passes, or refuses it with reason 5 and the number of the least word that fails; with none waiting nothing changes. A word fails exactly where R44 says so, but for two readings of the model: the limit of 327,680 scratchpad bytes for a race launch (log 32), and a replay that the package cannot follow as a failure of word 11 (log 33). -/
def Sys2Proof.Claim.DescriptorCheckEventClaim : Prop :=
  ∀ s : State,
    (s.hub.nextQueue = none → exec .launchDescriptorCheck s = .next s) ∧
    (∀ q, s.hub.nextQueue = some q →
      let c := tget {} s.hub.queues q
      let d := s.readDesc (c.base.toNat + 384 * c.head.toNat)
      let l := s.launchOf d q
      (∀ n, n ∈ s.descBad d ↔ ¬ descWordOk s d n) ∧
      (s.descBad d = [] → Completes .launchDescriptorCheck s fun t =>
        t.getLaunch s.hub.nextUid = some l ∧ l.status = .accepted ∧ l.queue = q ∧ t.hub.nextUid = s.hub.nextUid + 1 ∧ t.hub.lastQueue = q ∧
        tget {} t.hub.queues q = { c with head := BitVec.ofNat 16 ((c.head.toNat + 1) % 2 ^ c.log.getD 4) } ∧ t.mem = s.mem ∧ t.team = s.team ∧
        ∀ u, u ≠ s.hub.nextUid → t.getLaunch u = s.getLaunch u) ∧
      (∀ w r, s.descBad d = w :: r → Completes .launchDescriptorCheck s fun t =>
        LaunchOver s t s.hub.nextUid l .refused (r.foldl min w) 5))

/-- The free vector registers of quarter `q` of a core once `before` teams of `need` registers each have places there (R16, R40). -/
def Sys2Proof.Claim.regsFree (s : State) (core need : Nat) (before : List (Nat × Nat)) (q : Nat) : Nat :=
  65536 - ((tvals s.teamTbl).filter fun t => decide (t.kind = .team) && t.coreId == core && t.qtr == q).foldl (fun n t => n + t.threads * t.regs) 0
    - need * before.countP fun p => p.1 == q

/-- The slots of the quarter that are then taken. -/
def Sys2Proof.Claim.slotsTaken (s : State) (core : Nat) (before : List (Nat × Nat)) (q : Nat) : List Nat :=
  (((tvals s.teamTbl).filter fun t => decide (t.kind = .team) && t.coreId == core && t.qtr == q).map (·.slot)) ++
    (before.filter fun p => p.1 == q).map (·.2)

/-- The teams of a block fit on a core at these places (R40, R199, R262; the limit of a core with a race launch is log 32): the engine set and the scratchpad bytes are free, and each team in turn takes the lowest free slot of the quarter with the most free registers, the lowest of several, of those that can take it. -/
def Sys2Proof.Claim.FitsAt (s : State) (core : Nat) (l : Launch) (places : List (Nat × Nat)) : Prop :=
  let need := l.kernel.team * l.kernel.regs
  let can := fun (b : List (Nat × Nat)) (q : Nat) => q < 4 ∧ need ≤ regsFree s core need b q ∧ (slotsTaken s core b q).length < 16
  (∀ b ∈ s.blksOn core, b.claims = false ∧ l.kernel.claims = false) ∧
  ((s.blksOn core).map (·.scratch)).sum + l.kernel.scratch ≤
    (if l.race = true ∨ ∃ b ∈ s.blksOn core, ∃ m, s.getLaunch b.launchUid = some m ∧ m.race = true then 327680 else 524288) ∧
  places.length = l.kernel.block ∧
  ∀ (j q slot : Nat), places[j]? = some (q, slot) →
    let b := places.take j
    can b q ∧ (∀ r, can b r → regsFree s core need b r ≤ regsFree s core need b q ∧ (r < q → regsFree s core need b r < regsFree s core need b q)) ∧
      slot < 16 ∧ slot ∉ slotsTaken s core b q ∧ ∀ k, k < slot → k ∈ slotsTaken s core b q

/-- The cores of a gang (R158, R200; that the first cluster that can take the gang takes it on its lowest cores is the model's reading, log 32): as many as the gang has blocks, ascending, in one cluster, the lowest of it that can take a block each; the clusters below cannot take the gang. -/
def Sys2Proof.Claim.GangAt (s : State) (l : Launch) (picks : List (Nat × List (Nat × Nat))) : Prop :=
  picks.length = l.gang ∧ (picks.map (·.1)).Pairwise (· < ·) ∧ (∀ p ∈ picks, s.fitCore p.1 l = some p.2) ∧
  ∃ cl, cl < 72 ∧ (∀ p ∈ picks, p.1 / 8 = cl) ∧
    (∀ k, k / 8 = cl → (∃ p ∈ picks, k < p.1) → (∀ p ∈ picks, p.1 ≠ k) → s.fitCore k l = none) ∧
    ∀ c, c < cl → ((List.range 8).countP fun k => (s.fitCore (8 * c + k) l).isSome) < l.gang

/-- R40, R42, R144, R200: a launch that may place, finds a gang of cores and waits for no earlier launch is placed: each block of the gang stands on its core, with its teams on the places found, at the entry with the descriptor's scalar registers and every other register and predicate 0, its special registers at their reset values (R80; PERFLVL.REQ 15 is log 6), no level, path or access open and its monitor idle, and the launch runs. The places on a core are those of R40; which cluster and cores the gang takes, and the scratchpad limit beside a race launch, are the model's readings (log 32). A replayed launch goes where its capture stood, waits while these places are taken, and is refused where its inputs differ (R268, log 33). -/
def Sys2Proof.Claim.BlockPlacementEventClaim : Prop :=
  (∀ (u : Nat) (l : Launch) (s : State), s.getLaunch u = some l → l.replay = 2 → s.mayPlace l = true → (∀ m ∈ tvals s.launchTbl, m.uid < u → s.placeable m = false) →
    (s.replayBad l = true → exec (.blockPlacement u) s = .next (s.failLaunch u 11 .refused 0 0 0)) ∧
    (s.replayBad l = false → s.gangPlaces l = none → exec (.blockPlacement u) s = .next s) ∧
    ∀ picks, s.gangPlaces l = some picks → picks.map (fun p => (p.1, p.2.map fun q => 16 * q.1 + q.2)) = s.recordedGang l) ∧
  ∀ (u : Nat) (l : Launch) (picks : List (Nat × List (Nat × Nat))) (s : State), s.getLaunch u = some l → l.uid = u → u ≠ 0 → l.replay ≠ 2 →
    s.mayPlace l = true → (∀ m ∈ tvals s.launchTbl, m.uid < u → s.placeable m = false) → s.findGang l = some picks →
    NoneParked s → l.gang ≤ 8 → l.blocks < 2 ^ 24 → 0 < l.kernel.team → l.deps = [] →
    GangAt s l picks ∧ (∀ core places, s.fitCore core l = some places → FitsAt s core l places) ∧ Completes (.blockPlacement u) s fun t =>
      (∃ m, t.getLaunch u = some m ∧ m.status = .running ∧ m.placed = l.placed + l.gang ∧ m.endedBlocks = l.endedBlocks) ∧
      ∀ i core places, picks[i]? = some (core, places) →
        (∃ b, t.getBlk (blockKey u (l.placed + i)) = some b ∧ b.bix = l.placed + i ∧ b.coreId = core ∧ b.origin = core ∧ b.launchUid = u ∧
          b.scratch = l.kernel.scratch ∧ b.teamsLeft = l.kernel.block ∧ b.spad = [] ∧ b.mxp = 0x1708) ∧
        ∀ j q slot, places[j]? = some (q, slot) → ∃ tm, t.getTeam (teamKey core q slot) = some tm ∧ tm.index = j ∧ tm.threads = l.kernel.team ∧
          tm.regs = l.kernel.regs ∧ tm.pc = l.code.textOff + l.kernel.entry ∧ (∀ th r, tm.rdV th r = 0) ∧ (∀ th p, p ≠ 7 → tm.rdP th p = false) ∧ (∀ th, tm.active th = decide (th < l.kernel.team)) ∧
          tm.wb = 0 ∧ tm.part = 32 ∧ tm.tprio = 0 ∧ tm.rnd = 0 ∧ tm.pen = 3 ∧ tm.limbs = 0 ∧ tm.limbf = 0 ∧ tm.perfReq = 15 ∧
          tm.stack = [] ∧ tm.pathSlot = .empty ∧ tm.inflight = [] ∧ tm.mon = .idle ∧ tm.monLines = [] ∧
          ∀ r, tm.rdS r = match l.localptr with
            | some p => if r = p then 0 else if r = p + 1 then BitVec.ofNat 32 (2 ^ 28 + 2 ^ 16 * ownerField core) else tget 0 l.sinit r
            | none => tget 0 l.sinit r

/-- The descriptor check (R42 to R44) and the placement of blocks (R40, R144, R200). -/
def Obligations.LaunchStartEvents : Prop := DescriptorCheckEventClaim ∧ BlockPlacementEventClaim

/-- The stores of cores and of their cluster units have been brought to their homes (R167, R168), but for bytes of `image`: no view of these holds a store any more; a byte that one core, or else one cluster unit, held a store of stands in memory, and one that none held is as before. -/
def Sys2Proof.Claim.WrittenDown (s t : State) (cores : List Nat) (image : Nat → Prop) : Prop :=
  let unit := fun (k : Nat) => (s.getCluster (k / 8)).view
  (∀ c ∈ cores, (t.getCore c).view.dirty = [] ∧ (t.getCluster (c / 8)).view.dirty = []) ∧
  (∀ c ∈ cores, ∀ a b, ¬ image a → dirtyByte (s.getCore c).view a b →
    (∀ k ∈ cores, (k ≠ c → cleanByte (s.getCore k).view a) ∧ cleanByte (unit k) a) → (t.pm s.pkg).bytes.read a = b) ∧
  (∀ c ∈ cores, ∀ a b, ¬ image a → dirtyByte (unit c) a b →
    (∀ k ∈ cores, cleanByte (s.getCore k).view a ∧ (k / 8 ≠ c / 8 → cleanByte (unit k) a)) → (t.pm s.pkg).bytes.read a = b) ∧
  ∀ a, ¬ image a → (∀ k ∈ cores, cleanByte (s.getCore k).view a ∧ cleanByte (unit k) a) → (t.pm s.pkg).bytes.read a = (s.pm s.pkg).bytes.read a

/-- R138, R224, R228, R229, R285, R321: a team that has ended leaves its slot, which waits, as a stop does, while a store of it is on its way to another package and no link moves data; a block that nothing holds leaves its core and is counted; a launch whose blocks have all ended reports its end, the stores of its cores written down to their homes (log 29); a failing launch is removed with its record. -/
def Obligations.EndEvents : Prop :=
  (∀ (k : Nat) (s : State), NoneParked s →
    let f := s.focus k
    f.team.key = k → f.team.threads ≠ 0 → f.team.kind = .team → f.team.ended = true → f.team.stopped = false → f.team.inflight = [] →
    f.team.engFaults = [] → f.blk.streamFaults = [] → Completes (.teamEnd k) s fun t =>
      t.getTeam k = none ∧ (∀ j, j ≠ k → t.getTeam j = f.getTeam j) ∧ t.blk = { f.blk with teamsLeft := f.blk.teamsLeft - 1 } ∧
      t.mem = s.mem ∧ t.hub = s.hub) ∧
  (∀ (k : Nat) (s : State), storeHeld (s.focus k) → exec (.teamEnd k) s = .next (s.focus k) ∧ exec (.teamStop k) s = .next (match s.getTeam k with
    | none => s
    | some _ => s.focus k)) ∧
  (∀ (k : Nat) (b : Block) (s : State), s.getBlk k = some b → b.key = k → (s.blk.key = k → tget none s.blocks k = none) → s.blockDone b = true → (s.getCore b.coreId).raceQueue = [] →
    Completes (.blockEnd k) s fun t =>
      t.getBlk k = none ∧ (∀ j, j ≠ k → t.getBlk j = s.getBlk j) ∧ t.mem = s.mem ∧ t.hub = s.hub ∧
      ∀ l, s.getLaunch b.launchUid = some l → l.uid = b.launchUid → t.getLaunch b.launchUid = some { l with endedBlocks := l.endedBlocks + 1 }) ∧
  (∀ (u : Nat) (l : Launch) (s : State), s.getLaunch u = some l → l.uid = u → l.status = .running → l.placed = l.blocks → l.endedBlocks = l.blocks →
    l.run = none → Completes (.launchEnd u) s fun t =>
      t.getLaunch u = some { l with status := .ended } ∧ (tget {} t.hub.queues l.queue).done = l.launchid ∧ t.hub.msix = s.hub.msix ++ [0] ∧
      WrittenDown s t (l.placements.map (·.2.1)) fun _ => False) ∧
  (∀ (u : Nat) (l : Launch) (s : State) (cls : BitVec 8) (r : FailReason) (core ord : Nat) (addr : DWord), s.getLaunch u = some l → l.uid = u →
    l.status ≠ .failed → l.status ≠ .ended → l.status ≠ .refused →
    Completes (.launchFailure u cls r core ord addr) s fun t =>
      LaunchOver s t u l (if r = .refused then .refused else .failed) cls.toNat (failCode r)) ∧
  (∀ (k : Nat) (tm : Team) (l : Launch) (p : StatePlace) (s : State), s.getTeam k = some tm → s.getLaunch tm.launchUid = some l → l.uid = tm.launchUid →
    l.status = .running → Completes (.uncorrectableStateError k p) s fun t => LaunchOver s t l.uid l .failed 0x0C 2)

/-! ### Completions -/

/-- The last byte that an access writes at a location. -/
def Sys2Proof.Claim.lastWrite (a : Access) (l : Loc) : Option Byte := (a.writes.reverse.find? fun w => decide (w.loc = l)).map (·.byte)

/-- What is left in flight of an access when its part on path `p` has completed, with the bytes `ws` still on their way (R28). -/
def Sys2Proof.Claim.leftOn (a : Access) (p : Path) (ws : List PendingByte) : List Access :=
  let ps := a.paths.filter fun q => decide (q ≠ p)
  if ps = [] then [] else [{ a with paths := ps, donePaths := [p], writes := ws }]

/-- R28, R165, R173, R323, R373: the one access in flight of a context completes, a load, store or atomic path by path: the counter of that path returns to zero, and the registers stay; the bytes that a store sends on the path, or a `tld`, stand where they go, and no other location changes; a store into another package waits while no link moves data (R184, R285; log 38). A store in host space is then posted, and reaches host memory later, in order (R185). -/
def Obligations.CompletionEvents : Prop :=
  ∀ (k : Nat) (tm : Team) (a : Access) (s : State), s.getTeam k = some tm → tm.threads ≠ 0 → tm.inflight = [a] → a.done = false → a.donePaths = [] →
    NoneParked s →
    let f := s.focus k
    let far := noLink s ∧ ∃ w ∈ a.writes, ∃ q x, w.loc = .home q x ∧ q ≠ s.pkg
    let quiet := fun (i : Instr) (left : List Access) => Completes i s fun t =>
      t.team = { f.team with inflight := left } ∧ SameWorld f t
    let lands := fun (i : Instr) (ws : List PendingByte) (left : List Access) =>
      f.blk.key ≠ 0 → f.launch.race = false → (∀ w ∈ ws, ∀ th o, w.loc = .priv th o → o < 256) → Completes i s fun t =>
        t.team.inflight = left ∧ SameRegs f.team t.team ∧ t.team.pc = f.team.pc ∧ t.launch = f.launch ∧ t.hostMem = f.hostMem ∧
        t.hub = { f.hub with posted := f.hub.posted ++ ws.filterMap fun w => match w.loc with
          | .hostMem x => some (f.core.id, x, w.byte)
          | _ => none } ∧
        ∀ l, (∀ x, l ≠ .hostMem x) → (∀ th o, l = .priv th o → o < 256) → (∀ x, l = .view x → ∀ w ∈ ws, w.loc ≠ .home f.pkg x) →
          t.locByte l = (lastWrite { a with writes := ws } l).getD (f.locByte l)
    (∀ p ∈ a.paths, a.kind = .load → a.writes = [] → quiet (.loadDataReturn k ⟨0, p⟩) (leftOn a p [])) ∧
    (∀ p ∈ a.paths, a.kind = .atomic → a.writes = [] → quiet (.atomicCompletion k ⟨0, p⟩) (leftOn a p [])) ∧
    (a.kind = .store → far → Path.x ∈ a.paths → exec (.storeCompletion k ⟨0, .x⟩) s = .next s) ∧
    (∀ p ∈ a.paths, a.kind = .store → p ≠ .x ∨ ¬ far → lands (.storeCompletion k ⟨0, p⟩) (a.writes.filter fun w => decide (w.loc.path = p))
      (leftOn a p (a.writes.filter fun w => decide (w.loc.path ≠ p)))) ∧
    (a.kind = .pf → a.writes = [] → quiet (.pfCompletion k 0) []) ∧
    (a.kind = .trans → a.writes = [] → quiet (.transcendentalResult k 0) []) ∧
    (a.kind = .tld → lands (.tldCompletion k 0) a.writes [])

/-! ### Scheduling, stops, contexts -/

/-- The running context after the switch of R35 to the threads `ths` at `pc`: its threads wait with counter 1, the others run, KIND names the path that runs, and the path slot holds what was left. -/
def Sys2Proof.Claim.Switched (f t : State) (ths : List Nat) (pc : Nat) : Prop :=
  (∀ th, tget 0 t.team.cnt th = if f.team.live th then (if tget 0 f.team.cnt th = 0 then 1 else if th ∈ ths then 0 else tget 0 f.team.cnt th)
    else tget 0 f.team.cnt th) ∧
  t.team.pathSlot = .held f.team.actives f.team.pc f.team.stack.length ∧ t.team.pc = pc ∧ t.team.lastSwitch = f.team.fair ∧
  t.team.deferred = none ∧ t.team.openLr = f.team.openLr ∧ SameRegs f.team t.team ∧
  (∀ l r, f.team.stack = l :: r → t.team.stack = { l with kind := if l.kind = .thenPath then .elsePath else .thenPath } :: r) ∧
  t = { f with team := t.team }

/-- The code of R232 of a team that is parked, on a condition that the table names. -/
def Sys2Proof.Claim.parkedCode : Park → Option Nat
  | .full _ => some 0x08
  | .fifo .mx => some 0x09
  | .fifo .cp => some 0x0A
  | .path .g _ => some 0x0F
  | .path .s _ => some 0x10
  | .path .c _ => some 0x11
  | .path .m _ => some 0x12
  | .path .x _ => some 0x13
  | .path .a _ => some 0x14
  | .latch _ _ => some 0x15
  | .monitor => some 0x16
  | .join _ => some 0x17
  | .fork _ => some 0x18
  | .qRecv _ _ => some 0x19
  | .capture _ => some 0x1C
  | .qSend _ _ _ | .streamDone | .replay _ _ | .link | .trap _ => none

/-- REASON of R232 where the state settles it: yielded; parked; stopping or stopped; not yet fetched; with a ready pass, issued by the quarter that took this team last; or, of a quarter that took another, passed over for a ready team of a higher level. The sample brings no cause of its own, and the head of the queue meets no wait at issue. -/
def Sys2Proof.Claim.sampleReason (f : State) (rp : Nat) (others : List Team) : Option Nat :=
  let tm := f.team
  if tm.ended then none
  else if tm.yielded then some 0x07
  else match tm.parked with
    | some c => if tm.stopped ∨ f.stopWaits = true then none else parkedCode c
    | none =>
      if tm.stopped then some 0x1B
      else if f.headWait ≠ none then none
      else if f.stopWaits then some 0x1B
      else if tm.fresh then some 0x1F
      else if tm.ready = false then none
      else if rp = tm.slot then some 0x00
      else if f.passReady tm && others.any fun o => f.passReady o && decide (tm.level < o.level) then some 0x05
      else none

/-- A sample's record in its quarter's buffer and its mark (R230 to R232): three words with REASON `r`, at the word whose passes the team issues, else the one that it would issue next, or at the start of a hinged region; the core's list of samples ends with it and keeps 65,536, naming a compute sample's code object and word. -/
def Sys2Proof.Claim.SampleTaken (s t : State) (core qtr slot r : Nat) : Prop :=
  let f := s.focus (teamKey core qtr slot)
  let code := f.launch.code
  let pc := (f.team.cand.map (·.entry)).getD (if f.team.owed = [] then f.team.pc else f.team.issPc)
  let rec3 : List Word := [BitVec.ofNat 32 (2 ^ 31 + 2 * 2 ^ 28 + 2 ^ 22 + (if r = 0 then 2 ^ 21 else 0) + (if f.team.cand.isSome then 2 ^ 20 else 0) +
    2 ^ 15 * r + 2 ^ 11 * slot + 2 ^ 9 * qtr), codeWord code pc, ordWord code pc]
  let b := tget {} s.hub.sampleBufs (4 * core + qtr)
  let put := f.putRec f.launch b b.mode rec3
  let old := (s.getCore core).samples
  t.mem = put.1.mem ∧ (∀ k, tget {} t.hub.sampleBufs k = if k = 4 * core + qtr then put.2 else tget {} s.hub.sampleBufs k) ∧
  (t.getCore core).samples = (old ++ [(if r ∈ [0x00, 0x03, 0x04, 0x05, 0x06] then code.mark else 0, textIdx code pc)]).drop (old.length + 1 - 65536)

/-- R34 to R36, R202, R230 to R232: the fairness switch, its deferral by an open `lr` of the running path, the deferred switch, neither inside a hinged execution nor between the passes of a word (R245), the lift of a team passed over for 256 cycles, and one sample of a quarter: the next resident slot's record, with its REASON where the state settles it. A cause inside the cycle is the sample's own, and a parked team's word is the one at which it is parked (log 34). -/
def Sys2Proof.Claim.SchedulerEventsClaim : Prop :=
  (∀ (k : Nat) (tm : Team) (s : State) (ths : List Nat) (pc : Nat), s.getTeam k = some tm →
    let f := s.focus k
    let open_ := ∃ e ∈ f.team.openLr, ∃ th ∈ e.path, f.team.active th = true
    f.team.fairOther f.launch.fairt = some (ths, pc) →
    (f.team.deferred = none → ¬ open_ → Completes (.fairnessSwitch k) s fun t => Switched f t ths pc ∧ t.team.resv = f.team.resv) ∧
    (f.team.deferred = none → open_ →
      exec (.fairnessSwitch k) s = .next { f with team := { f.team with deferred := some 16 } }) ∧
    (∀ n, f.team.deferred = some n → n = 0 ∨ ¬ open_ → f.team.hinging = false → f.team.owed = [] → Completes (.deferredFairnessSwitch k) s fun t =>
      Switched f t ths pc ∧ (open_ → ∀ th, f.team.active th = true → tget none t.team.resv th = none) ∧ (¬ open_ → t.team.resv = f.team.resv) ∧
      ((∃ e ∈ f.team.openLr, e.thread = 1024 ∧ ∃ th ∈ e.path, f.team.active th = true) → t.team.scalarResv = none)) ∧
    (∀ n, f.team.deferred = some n → n ≠ 0 → open_ → exec (.deferredFairnessSwitch k) s = .next f)) ∧
  (∀ (k : Nat) (tm : Team) (s : State), s.getTeam k = some tm → (s.focus k).team.hinging = true ∨ (s.focus k).team.owed ≠ [] →
    (s.focus k).team.fairOther (s.focus k).launch.fairt = none ∧ exec (.deferredFairnessSwitch k) s = .next (s.focus k)) ∧
  (∀ (k : Nat) (tm : Team) (s : State), s.getTeam k = some tm → (s.focus k).team.fairOther (s.focus k).launch.fairt = none →
    exec (.fairnessSwitch k) s = .next (s.focus k)) ∧
  (∀ (k : Nat) (tm : Team) (s : State), s.getTeam k = some tm → 256 ≤ tm.passed → s.passReady tm = true → Completes (.passedLift k) s fun t =>
    t.team = tm ∧ t = s.focus k) ∧
  (∀ (core qtr why : Nat) (s : State),
    let q := tget {} (s.getCore core).quarters qtr
    let ts := (tvals s.teamTbl).filter fun t => decide (t.kind = .team) && t.coreId == core && t.qtr == qtr
    let slots := ts.map (·.slot)
    (slots = [] → exec (.schedulerSample core ⟨qtr, why⟩) s = .next s) ∧
    (q.sampctl.msb = false → exec (.schedulerSample core ⟨qtr, why⟩) s = .next s) ∧
    (∀ slot, nextSlot slots q.samplePtr = some slot → q.sampctl.msb = true → Completes (.schedulerSample core ⟨qtr, why⟩) s fun t =>
      (tget {} (t.getCore core).quarters qtr).samplePtr = slot) ∧
    (∀ slot tm, nextSlot slots q.samplePtr = some slot → q.sampctl.msb = true → qtr < 4 →
      s.getTeam (teamKey core qtr slot) = some tm → tm.coreId = core → tm.slot = slot → Completes (.schedulerSample core ⟨qtr, why⟩) s fun t =>
        ∃ r, r < 32 ∧ SampleTaken s t core qtr slot r ∧
          ∀ k, why = 0 → (s.getCore core).hinges = [] →
            sampleReason (s.focus (teamKey core qtr slot)) q.rp (ts.filter fun o => decide (o.slot ≠ slot)) = some k → r = k))

/-- R20 to R23, R222, R298, R307, R320: how far the front-end runs ahead of a team's vector words. It takes the word behind those it has taken, with at most 32 vector words queued and 32 old values logged, not behind a word that stalls it, nor one that reads a predicate which a queued word writes; a vector word enters the decision queue; a scalar word has executed, and writes the scalar registers listed and no other, whose old values are logged; nothing else of the team changes while a word stands before it, and with none it takes its place at once; a trap discards all of it (`Entered`). Of the teams that a core's front-end can serve it serves the first after the slot served last. -/
def Sys2Proof.Claim.FetchesAheadClaim : Prop :=
  (∀ (s : State) (e : QueueWord), s.frontTake = some e →
    let v := s.frontView
    let i := instrOf .team e.word
    let logged := (s.team.ahead.map fun y => ((y.ran.map (·.old)).getD []).length).sum
    s.team.cand = none ∧ (s.team.ahead.countP fun y => y.ran.isNone) < 32 ∧ e.pc = v.team.pc ∧ v.fetchWord e.pc = .ok e.word ∧
    (∀ y, s.team.ahead.getLast? = some y → y.ran = none → Instr.stalls (instrOf .team y.word) = false) ∧
    (s.team.ahead = [] → s.team.owed ≠ [] → Instr.stalls s.team.issWord = false) ∧
    (e.ran = none ↔ Instr.frontEnd i = false) ∧
    ∀ x, e.ran = some x → x.old.map (·.1) = x.regs.map (·.1) ∧ logged + x.old.length ≤ 32 ∧ (∀ r ∈ x.old, r.2 = v.team.rdS r.1) ∧
      (∀ p, Instr.usesPred i = some p → s.predQueued p = false) ∧
      ∃ u, exec i v = .next u ∧ u.team.pc = x.next ∧ (∀ r ∈ x.regs, r.2 = u.team.rdS r.1) ∧ ∀ r, r ∉ x.regs.map (·.1) → u.team.rdS r = v.team.rdS r) ∧
  (∀ s : State, s.frontTake = none → s.takeAhead = s) ∧
  (∀ (s : State) (e : QueueWord), s.frontTake = some e →
    let f := s.fetchAt e.pc
    f.team = s.team ∧ SameWorld s f ∧
    (e.ran = none ∨ s.team.ahead ≠ [] → s.takeAhead = { f with team := { s.team with queue := s.team.ahead ++ [e] } }) ∧
    ∀ x, e.ran = some x → s.team.ahead = [] → ∃ u : Team, s.takeAhead = { f with team := u } ∧ u.queue = [] ∧
      (e.pc = s.team.pc → u = { (x.regs.foldl (fun tm w => tm.wrS w.1 w.2) s.team).pastWord 0 x.next with queue := [] })) ∧
  ∀ (s : State) (core : Nat) (ts : List Team) (t : Team), t ∈ ts →
    (∀ o ∈ ts, o ≠ t → (t.cslot + 63 - (s.getCore t.coreId).lastServed) % 64 < (o.cslot + 63 - (s.getCore o.coreId).lastServed) % 64) →
    s.unitChoice (frontUnit core) ts = some t

/-- CAUSE and TAG of a stop cause (R258); pre-emption has none. -/
def Sys2Proof.Claim.stopCode : StopCause → Option (Nat × Nat)
  | .breakpoint k => some (0, k)
  | .brkpt n => some (1, n)
  | .watch k => some (2, k)
  | .debugPort => some (3, 0)
  | .preempt => none

/-- The stop records of the running team, one for each cause in ascending CAUSE (R258). -/
def Sys2Proof.Claim.stopWords (f : State) : List (List Word) :=
  let tm := f.team
  ([0, 1, 2, 3].flatMap fun c => (tm.stops.filterMap stopCode).filter fun x => decide (x.1 = c)).map fun x =>
    [BitVec.ofNat 32 (2 ^ 31 + 3 * 2 ^ 28 + 2 * 2 ^ 22 + 2 ^ 16 * (16 * tm.qtr + tm.slot) + 2 ^ 14 * x.1 + 2 ^ 7 * (x.2 % 128)),
     codeWord f.launch.code tm.pc, ordWord f.launch.code tm.pc, BitVec.ofNat 32 (f.blk.bix % 2 ^ 31)]

/-- A team waits at such a condition with its word parked (R206, R378); elsewhere its word waits at issue or in the front-end. -/
def Sys2Proof.Claim.parkedWord : Park → Prop
  | .path _ _ | .latch _ _ | .monitor | .join _ | .fork _ | .qRecv _ _ | .qSend _ _ _ => True
  | .full _ | .fifo _ | .streamDone | .replay _ _ | .link | .trap _ | .capture _ => False

/-- R101, R224, R252, R257, R258, R267: a stop request is kept once for each cause, and a pre-emption not taken by a captured or replayed launch; a team with a request stops at a safe point or where it is parked, not where its word waits at issue, its results written, its reservations lost, a stop record written for each cause; the debug port's request; a resumed team runs again unless pre-emption holds it, and a team of a protected world is out of reach; a debugger attaches to a live launch of a world that is not protected, and leaves; a breakpoint entry with ACT 0 asks its own team to stop. -/
def Sys2Proof.Claim.StopEventsClaim : Prop :=
  (∀ (k : Nat) (tm : Team) (c : StopCause) (s : State), s.getTeam k = some tm → tm.kind = .team → tm.ended = false →
    let with_ := fun (c : StopCause) => Host.Outcome.next (s.setTeam { tm with stops := if c ∈ tm.stops then tm.stops else tm.stops ++ [c] })
    let l := (s.getLaunch tm.launchUid).getD {}
    let hidden := s.protectedLaunch l = true
    (c = .preempt ∧ l.replay = 0 ∨ c ≠ .preempt ∧ ¬ hidden → exec (.stopRequest k c) s = with_ c) ∧
    (c ≠ .preempt ∧ hidden ∨ c = .preempt ∧ l.replay ≠ 0 → exec (.stopRequest k c) s = .next s) ∧
    (¬ hidden → exec (.debugStopRequest k) s = with_ .debugPort) ∧ (hidden → exec (.debugStopRequest k) s = .next s) ∧
    let resumed := { tm with held := false, hitAt := if tm.hitBps = [] then none else some tm.pc }
    (hidden → exec (.debuggerResume k) s = .next s) ∧
    (¬ hidden → .preempt ∉ tm.stops → exec (.debuggerResume k) s = .next (s.setTeam { resumed with stopped := false })) ∧
    (¬ hidden → .preempt ∈ tm.stops → exec (.debuggerResume k) s = .next (s.setTeam resumed))) ∧
  (∀ (k : Nat) (tm : Team) (s : State), s.getTeam k = some tm →
    let f := s.focus k
    f.team.stops ≠ [] → f.team.stopped = false → f.team.ended = false → f.team.cand = none → f.hasPending = false →
    (f.team.parked = none ∧ f.atSafe = true) ∨ (∃ c, f.team.parked = some c ∧ parkedWord c) → f.team.inflight = [] → Completes (.teamStop k) s fun t =>
      t.team.stopped = true ∧ (t.team.held = true ↔ ∃ c ∈ f.team.stops, c ≠ .preempt) ∧ t.team.stops = f.team.stops.filter (fun c => decide (c = .preempt)) ∧ t.team.pend = [] ∧ t.team.pc = f.team.pc ∧
      SameRegs f.team.flush t.team ∧ t.team.resv = [] ∧ t.team.scalarResv = none ∧
      (f.launch.uid = f.team.launchUid → f.launch.uid ≠ 0 → f.blk.key = f.team.blkKey → f.blk.key ≠ 0 → f.team.qtr < 4 → f.team.slot < 16 →
        let g := (stopWords f).foldl (fun g r => g.debugRec f.team.launchUid r) { f with team := f.team.flush }
        t.mem = g.mem ∧ t.launch = g.launch)) ∧
  (∀ (k : Nat) (tm : Team) (c : Park) (s : State), s.getTeam k = some tm → (s.focus k).team.parked = some c → ¬ parkedWord c →
    exec (.teamStop k) s = .next (s.focus k)) ∧
  (∀ (u : Nat) (l : Launch) (s : State), s.getLaunch u = some l →
    (l.status = .accepted ∨ l.status = .running → s.protectedLaunch l = false →
      exec (.debuggerAttach u) s = .next (s.setLaunch { l with debugger := true })) ∧
    (s.protectedLaunch l = true → exec (.debuggerAttach u) s = .next s) ∧
    exec (.debuggerDetach u) s = .next (s.setLaunch { l with debugger := false })) ∧
  (∀ (k n : Nat) (e : BitVec 64) (s : State),
    let f := s.focus k
    f.team.key = k → f.team.ready = true → f.bpHits = [(n, e)] → bpAct e = 0 → bpTrig e = false → Completes (.breakpointHit k) s fun t =>
      StopCause.breakpoint n ∈ t.team.stops ∧ t.team.hitBps = f.team.hitBps ++ [n] ∧
      t = { f with team := { f.team with stops := t.team.stops, hitBps := t.team.hitBps } })

/-- Fairness and scheduling (R34 to R36, R202, R230), the decision queues (R20 to R22), and stops (R224, R252, R257, R258). -/
def Obligations.SchedulerAndStopEvents : Prop := SchedulerEventsClaim ∧ FetchesAheadClaim ∧ StopEventsClaim

/-- R41, R139, R158, R195, R224, R225, R257, R273: a gang that has stopped leaves its cores for a context image, of which no byte of memory lies outside the pages of its own world, its cores' stores at their homes; a saved gang of one block is restored on a core that can take it, with its origin core, memory and registers, an armed monitor triggered, and a team that a debugger holds still held. That the order of the image's bytes is free and the contexts are kept beside them, and that the save publishes and the restore refreshes, is the model's choice (log 35). -/
def Obligations.ContextEvents : Prop :=
  (∀ (k area len : Nat) (b : Block) (s : State), s.getBlk k = some b →
    let l := (s.getLaunch b.launchUid).getD {}
    s.gangStopped (s.gangOf b) = true → 0 < len → s.imageOkAt l area len = true →
    (∀ x ∈ s.gangOf b, s.getBlk x.key = some x ∧ x.cpFifo = [] ∧ (s.getCore x.coreId).raceQueue = [] ∧ ∀ y ∈ x.mxFifo, y.finished = false ∧ (y.started = true → y.cmd = .mm)) →
    Completes (.contextSave ⟨k, area, len⟩) s fun t =>
    ∃ g, t.saved = s.saved ++ [g] ∧ g.launchUid = b.launchUid ∧ g.blocks = s.gangOf b ∧ g.area = area ∧ g.len = len ∧ t.hub = s.hub ∧
      (∀ p, p ≠ s.pkg → (t.pm p).bytes = (s.pm p).bytes) ∧
      WrittenDown s t ((s.gangOf b).map (·.coreId)) (fun a => ∃ i, i < len ∧ s.imageAt l (area + i) = some a) ∧
      (∀ a i, s.imageAt l (area + i) = some a → (s.pm s.pkg).ownedBy l.world (a / 65536) = true) ∧
      ∀ tm : Team, tm ∈ g.teams → ∃ o : Team, o ∈ tvals s.teamTbl ∧ tm.v = o.v ∧ tm.s = o.s ∧ tm.p = o.p ∧ tm.pc = o.pc ∧ tm.cnt = o.cnt ∧ tm.stack = o.stack ∧
        tm.trapCtx = o.trapCtx ∧ tm.priv = o.priv ∧ tm.held = o.held ∧ tm.resv = []) ∧
  (∀ (k core : Nat) (g : SavedGang) (b : Block) (places : List (Nat × Nat)) (s : State), s.saved[k]? = some g → core < 576 → g.blocks = [b] →
    (∀ tm ∈ g.teams, tm.blkKey = b.key ∧ tm.parked = none ∧ tm.threads ≠ 0) → g.streams = [] → NoneParked s →
    s.imageOkAt ((s.getLaunch g.launchUid).getD {}) g.area g.len = true →
    ({ s with saved := s.saved.eraseIdx k } : State).fitSaved g ((s.getLaunch g.launchUid).getD {}) b core = some places →
    Completes (.contextRestore k core) s fun t =>
      t.saved = s.saved.eraseIdx k ∧ ((s.getCluster (core / 8)).view.dirty = [] → t.mem = s.mem) ∧ (t.getCore core).view.lines = [] ∧
      (t.getCluster (core / 8)).view = {} ∧ (∀ a b, dirtyByte (s.getCluster (core / 8)).view a b → (t.pm s.pkg).bytes.read a = b) ∧
      (∀ a, cleanByte (s.getCluster (core / 8)).view a → (t.pm s.pkg).bytes.read a = (s.pm s.pkg).bytes.read a) ∧
      (∃ c, t.getBlk b.key = some c ∧ c.coreId = core ∧ c.origin = b.origin ∧ c.spad = b.spad ∧ c.acc = b.acc ∧ c.latches = b.latches ∧ c.mxp = b.mxp) ∧
      ∀ (i : Nat) (tm : Team) (q slot : Nat), g.teams[i]? = some tm → places[i]? = some (q, slot) → ∃ u : Team, t.getTeam (teamKey core q slot) = some u ∧
        u.v = tm.v ∧ u.s = tm.s ∧ u.p = tm.p ∧ u.pc = tm.pc ∧ u.cnt = tm.cnt ∧ u.stopped = tm.held ∧ u.stops = tm.stops.filter (fun c => decide (c ≠ .preempt)) ∧
        u.mon = if tm.mon = .armed then .triggered else tm.mon)

/-! ### Engine commands -/

/-- The command at the head of a core's matrix FIFO, not yet begun (R136). -/
def Sys2Proof.Claim.headCommand (s : State) (core : Nat) (c : MxCmd) (b : Block) (x : MxEntry) (r : List MxEntry) : Prop :=
  s.claimer core = some b ∧ b.mxFifo = x :: r ∧ x.cmd = c ∧ x.finished = false ∧ x.checked = false

/-- The block's launch has no watch. -/
def Sys2Proof.Claim.blockUnwatched (s : State) (b : Block) : Prop := ∀ l, s.getLaunch b.launchUid = some l → l.watches = []

/-- Pre-emption stops a block's engines (R139, R162): it asks a team of the block to stop, and no word of one waits at issue for an engine (the latter the model's reading of R224, log 35). -/
def Sys2Proof.Claim.enginesStop (s : State) (k : Nat) : Prop :=
  (∃ tm ∈ s.teamsOf k, StopCause.preempt ∈ tm.stops) ∧
    ∀ tm ∈ s.teamsOf k, tm.stopped = false → (∀ e, tm.parked ≠ some (.fifo e)) ∧ ∀ p, tm.parked ≠ some (.full p)

/-- What the engine holds of a k-group of a column: no clamp mark and no sign of a zero. -/
def Sys2Proof.Claim.heldGroup (g : Group) : Group := { g with signs := [], clamped := false }

/-- R120, R125 to R130, R139: a command whose check fails changes no state, MXPROG included, and is over with its fault; `mx.prec` sets MXP; `mx.ldb` puts each column of B into its tile's planes, signs and exponents, writes its PRECB, takes V from every tile whose planes it overwrites, and sets WOVF where it clamped; `mx.zero` clears its range of the accumulator buffer; `mx.mm` adds to each C element of its next row the products of its k-groups; `mx.st` converts the accumulator elements to the bytes of D; none changes anything else of the block. Under pre-emption no command starts and no row of an `mx.mm` runs. -/
def Obligations.MatrixCommandEvents : Prop :=
  ∀ (core : Nat) (s : State) (b : Block) (x : MxEntry) (r : List MxEntry), blockUnwatched s b →
    let ends := fun (y : Block) (t : State) => ∃ z, y.mxFifo = z :: r ∧ z = { x with started := true, checked := true, finished := true } ∧ t.getBlk b.key = some y
    (s.claimer core = some b → b.mxFifo = x :: r → x.finished = false → enginesStop s b.key → x.started = false ∨ x.cmd = .mm →
      exec (mxEvent x.cmd core) s = .next s) ∧
    (∀ (c : MxCmd) (e : TrapCause), headCommand s core c b x r → ¬ enginesStop s b.key ∨ (x.started = true ∧ c ≠ .mm) → b.mxCheck x = some e →
      exec (mxEvent c core) s = .next (s.setBlk { b with mxFifo := { x with started := true, finished := true, fault := some e } :: r })) ∧
    (¬ enginesStop s b.key ∨ (x.started = true ∧ x.cmd ≠ .mm) →
      (headCommand s core .prec b x r → b.mxCheck x = none → Completes (.mxPrecCommand core) s fun t => ∃ y, ends y t ∧
        y = { b with mxFifo := y.mxFifo, mxp := x.ops.getD 0 0 }) ∧
      (headCommand s core .zero b x r → b.mxCheck x = none → Completes (.mxZeroCommand core) s fun t => ∃ y, ends y t ∧
        y = { b with mxFifo := y.mxFifo, acc := y.acc, spadPoison := y.spadPoison } ∧
        ∀ o, y.acc.read o = if x.o 0 ≤ o ∧ o < x.o 0 + x.o 1 then 0 else b.acc.read o) ∧
      (headCommand s core .ldb b x r → b.mxCheck x = none → b.spadPoison = [] → Completes (.mxLdbCommand core) s fun t => ∃ y, ends y t ∧
        let tile := x.f 0 20 18
        let tl := tileOf (precbOf x)
        let fmt := x.f 0 3 0
        let macs := tl.kg * tl.ng
        let group := fun (g j : Nat) => groupOf fmt tl.sgn tl.wid (leNat (b.spad.readBytes (x.o 1 + j * x.o 2) (runBytes fmt (64 * tl.kg)))) g
        y = { b with mxFifo := y.mxFifo, planes := y.planes, signs := y.signs, exps := y.exps, wovf := y.wovf, precb := y.precb } ∧
        (∀ u, u < 8 → tget 0 y.precb u = if u = tile then precbOf x else
          let o := tileOf (tget 0 b.precb u)
          if o.pbase < tl.pbase + tl.wid ∧ tl.pbase < o.pbase + o.wid then tget 0 b.precb u &&& ~~~ 0x80000000#128 else tget 0 b.precb u) ∧
        (∀ g j, g < tl.kg → j < 32 * tl.ng → y.tileCol tile tl g j = heldGroup (group g j)) ∧
        (y.wovf = true ↔ b.wovf = true ∨ ∃ g j, g < tl.kg ∧ j < 32 * tl.ng ∧ (group g j).clamped = true) ∧
        (∀ o, (∀ m p, m < macs → tl.pbase ≤ p → p < tl.pbase + tl.wid → o / 256 ≠ m * 64 + p) → y.planes.read o = b.planes.read o) ∧
        (∀ o, (∀ m, m < macs → o / 256 ≠ m * 8 + tile) → y.signs.read o = b.signs.read o) ∧
        ∀ k, (∀ m c, m < macs → c < 32 → k ≠ m * 256 + tile * 32 + c) → tget {} y.exps k = tget {} b.exps k) ∧
      (headCommand s core .st b x r → b.mxCheck x = none → b.spadPoison = [] → b.key ≠ 0 → Completes (.mxStCommand core) s fun t => ∃ y, ends y t ∧
        let n := accSize (x.f 0 1 0)
        let d := stSize (x.f 0 5 2)
        let place := fun (i j : Nat) => x.o 3 + i * x.o 4 + j * d
        let elem := fun (i j : Nat) => stElem (x.f 0 1 0) (x.f 0 5 2) (leNat (b.acc.readBytes (x.o 1 + i * x.o 2 + j * n) n))
        y = { b with mxFifo := y.mxFifo, spad := y.spad, spadPoison := y.spadPoison, race := y.race, wovf := y.wovf } ∧
        (y.wovf = true ↔ b.wovf = true ∨ ∃ i j, i < x.f 0 24 13 ∧ j < 32 * x.f 0 12 6 ∧ (elem i j).2.2 = true) ∧
        (x.f 0 24 13 ≤ 1 ∨ 32 * x.f 0 12 6 * d ≤ x.o 4 → ∀ i j, i < x.f 0 24 13 → j < 32 * x.f 0 12 6 →
          leNat (y.spad.readBytes (place i j) d) = (elem i j).1 % 2 ^ (8 * d)) ∧
        ∀ o, (∀ i j, i < x.f 0 24 13 → j < 32 * x.f 0 12 6 → ¬ (place i j ≤ o ∧ o < place i j + d)) → y.spad.read o = b.spad.read o)) ∧
    (s.claimer core = some b → b.mxFifo = x :: r → x.cmd = .mm → x.finished = false → ¬ enginesStop s b.key → x.checked = true ∨ b.mxCheck x = none →
      b.spadPoison = [] → b.mxprog < x.f 0 17 6 →
      let i := b.mxprog
      let tl := tileOf (tget 0 b.precb (x.f 0 2 0))
      let fmt := bitsOf b.mxp.toNat 11 8
      let cf := x.f 0 5 4
      let n := accSize cf
      let wa := bitsOf b.mxp.toNat 6 0
      let run := leNat (b.spad.readBytes (x.o 1 + i * x.o 2) (runBytes fmt (64 * tl.kg)))
      let row := groupOf fmt (bitsOf b.mxp.toNat 12 12 == 1) wa run
      let pairs := fun (j : Nat) => (List.range tl.kg).map fun g => (row g, b.tileCol (x.f 0 2 0) tl g j)
      let place := fun (j : Nat) => x.o 3 + i * x.o 4 + j * n
      Completes (.mxMmCommand core) s fun t => ∃ y z, t.getBlk b.key = some y ∧ y.mxFifo = z :: r ∧
        (i + 1 < x.f 0 17 6 → y.mxprog = i + 1 ∧ z = { x with started := z.started, checked := true }) ∧
        (¬ i + 1 < x.f 0 17 6 → y.mxprog = 0 ∧ z = { x with started := z.started, checked := true, finished := true }) ∧
        y = { b with mxFifo := y.mxFifo, mxprog := y.mxprog, acc := y.acc, wovf := y.wovf } ∧
        (y.wovf = true ↔ b.wovf = true ∨ ∃ g, g < tl.kg ∧ (row g).clamped = true) ∧
        (∀ j, j < 32 * tl.ng → leNat (y.acc.readBytes (place j) n) =
          let c := leNat (b.acc.readBytes (place j) n)
          if 2 ≤ cf then (((c : Int) + ((pairs j).map fun p => groupSum p.1 p.2).sum) % 2 ^ (8 * n)).toNat
          else (accFloat (accFmt cf) wa tl.wid (pairs j) c).1 % 2 ^ (8 * n)) ∧
        ∀ o, (∀ j, j < 32 * tl.ng → ¬ (place j ≤ o ∧ o < place j + n)) → y.acc.read o = b.acc.read o)

/-- R131, R133, R136, R160: the command or copy at the head leaves its FIFO when it is over, with its arrival on its latch, and the next matrix command starts, unless pre-emption stops the engine (R139); a command of one cycle that has started does its work and arrives in that cycle, every other waits; a stream whose program has ended and whose work is done ends. -/
def Sys2Proof.Claim.EngineCompletionEventsClaim : Prop :=
  (∀ (core : Nat) (s : State) (b : Block) (x : MxEntry) (r : List MxEntry), s.claimer core = some b → b.mxFifo = x :: r → x.finished = true →
    x.fault = none → x.mtsr = false → NoneParked s → (∀ l, s.getLaunch b.launchUid = some l → l.uid = b.launchUid ∧ l.replay = 0) →
    Completes (.matrixCommandCompletion core) s fun t => ∃ y, t.getBlk b.key = some y ∧ y = { b with latches := y.latches, mxFifo := if s.preempting b.key then r else match r with
        | [] => []
        | z :: q => { z with started := true } :: q } ∧
      ∀ k, tget {} y.latches k = if k = x.latch then arrived (tget {} b.latches k) else tget {} b.latches k) ∧
  (∀ (core : Nat) (s : State) (b : Block) (x : CpEntry) (r : List CpEntry),
    (s.blksOn core).find? (fun y => !y.cpFifo.isEmpty) = some b → b.cpFifo = x :: r → x.finished = true → x.fault = none → NoneParked s →
    (∀ l, s.getLaunch b.launchUid = some l → l.uid = b.launchUid ∧ l.replay = 0) → ((s.setBlk { b with cpFifo := r }).targets b x.record).map (·.key) = [b.key] →
    Completes (.copyCompletion core) s fun t => ∃ y, t.getBlk b.key = some y ∧ y = { b with cpFifo := r, latches := y.latches } ∧
      ∀ k, tget {} y.latches k = if k = x.latch then arrived (tget {} b.latches k) else tget {} b.latches k) ∧
  (∀ (core : Nat) (e : Engine) (tm : Team) (b : Block) (s : State), s.getTeam (streamKey core e) = some tm → s.getBlk tm.blkKey = some b →
    b.key = tm.blkKey → b.coreId = core → tm.ended = true → (tm.kind = .mxStream ∧ e = .mx ∨ tm.kind = .cpStream ∧ e = .cp) →
    b.running e = true → b.mxFifo = [] → b.cpFifo = [] → NoneParked s → tget none s.teams s.team.key = none →
    Completes (.streamEnd core e) s fun t => t.getTeam (streamKey core e) = none ∧ ∃ y, t.getBlk b.key = some y ∧ y.running e = false) ∧
  ∀ (s t u : State) (k : Nat) (b : Block) (x : MxEntry) (r : List MxEntry), s.getBlk k = some b → b.mxFifo = x :: r →
    exec (mxEvent x.cmd b.coreId) s = .next t → exec (.matrixCommandCompletion b.coreId) t = .next u →
    s.mxPrompt k = if x.started && !x.checked && !x.finished && (decide (x.cmd = .prec) || (b.mxCheck x).isSome) then u else s

/-- The values that a copy writes of one unit's elements, whose first has number `e`, and their events (R92, R93, R155, R157): the elements' own bits without rotation and blocks; else their values, rotated where XF asks with the seed and the group's number in the window, are quantised block by block, or rounded to the format; a block's fill values count no event (R157). -/
def Sys2Proof.Claim.unitValues (t : Tlr) (e : Nat) (raw : List (Nat × Bool)) : List Nat × List Nat :=
  let f := (elemF t.fmt).getD .f32
  let n := xfN t.xf
  let vs := raw.map fun x => f.dec x.1
  let ws := if t.xf = 0 then vs else rotate n t.seed ((t.org.getD 0 0 + ((e % t.ext.getD 0 1 : Nat) : Int)) / (n : Int) % 2 ^ 32).toNat vs
  match elemDb t.fmt with
  | some m =>
    let bs := (List.range (raw.length / 16)).map fun j => quantise m ((ws.drop (16 * j)).take 16) fun i => decide (t.xf = 0) && (raw.getD (16 * j + i) (0, false)).2
    (bs.map (·.1), bs.flatMap (·.2))
  | none =>
    if t.xf = 0 then (raw.map (·.1), [])
    else (ws.map fun v => (f.enc .rne v).1, ws.flatMap fun v => ((f.enc .rne v).2.map fun k => 4 * f.idx + k).toList)

/-- The bits of one such value in the dense layout (R153). -/
def Sys2Proof.Claim.valueBits (t : Tlr) : Nat := ((elemDb t.fmt).map fun m => 8 * dbBytes m).getD (elemBits t.fmt)

/-- A byte of a copy's destination after a unit's values `vs`, the first at bit `at0` of the dense layout: the bits of the values that fall into byte `u` of the dense layout, the others as before (R153, R156). -/
def Sys2Proof.Claim.unitByte (t : Tlr) (at0 : Nat) (vs : List Nat) (u : Nat) (old : Byte) : Byte :=
  let w := valueBits t
  BitVec.ofNat 8 (((List.range 8).map fun i =>
    let p := 8 * u + i
    2 ^ i * if at0 ≤ p ∧ p < at0 + w * vs.length then vs.getD ((p - at0) / w) 0 / 2 ^ ((p - at0) % w) % 2 else old.toNat / 2 ^ i % 2).sum)

/-- The block of the running copy has moved one unit (R155 to R158, R161): its elements, read in ascending order before any is written, have their values at their places in every block that the copy names, no other byte has changed there or in main memory, their events have been counted, and the element counter has moved on. -/
def Sys2Proof.Claim.UnitMoved (t0 : Tlr) (x : CpEntry) (s t : State) : Prop :=
  let e := s.blk.cpprog
  ∃ s1 raw, s.copyElems t0 e t0.unit = (s1, raw, none) ∧ raw.length = t0.unit ∧ t.mem = s.mem ∧ t.blk.cpprog = e + t0.unit ∧ t.blk.cpFifo = s.blk.cpFifo ∧
    t.launch = (s.countEvents (unitValues t0 e raw).2).launch ∧
    (((s.targets s.blk x.record).map (·.key)).Nodup → ∀ y ∈ s.targets s.blk x.record, s.getBlk y.key = some y → ∃ z, t.getBlk y.key = some z ∧
      let old := if t0.dst < 0x80000 then y.spad else y.acc
      let new := if t0.dst < 0x80000 then z.spad else z.acc
      (if t0.dst < 0x80000 then z.acc = y.acc else z.spad = y.spad) ∧
      (∀ u, new.read (t0.place u) = unitByte t0 (t0.bitPos e) (unitValues t0 e raw).1 u (old.read (t0.place u))) ∧
      ∀ o, (∀ u, o ≠ t0.place u) → new.read o = old.read o)

/-- The copy waits for a link (R285): some of `n` elements from `e` on come from another package, and no link moves data (log 38). -/
def Sys2Proof.Claim.copyWaits (f : State) (t0 : Tlr) (e n : Nat) : Prop :=
  noLink f ∧ f.xLost = none ∧ (∃ p, f.farPkg t0.base = some p ∧ p ≠ f.pkg) ∧ ∃ i, e ≤ i ∧ i < e + n ∧ t0.reads i = true

/-- `n` moves one after another lead from `s` to `t`. -/
def Sys2Proof.Claim.movesOf (r : State → State → Prop) : Nat → State → State → Prop
  | 0, s, t => t = s
  | n + 1, s, t => ∃ m, r s m ∧ movesOf r n m t

/-- R155 to R158, R160, R161: a step of the copy at the head of a core's FIFO. Without rotation and of 32-bit elements it moves one element into the issuing core; in general it moves the least number of units that fills whole destination words (that bound is the model's choice of a step, log 31), one after the other, into every core that the copy names, unless one faults or waits; a unit whose element faults writes nothing and ends the copy with the fault of its first such element, CPPROG 0; a unit that must come from another package waits while no link moves data. -/
def Sys2Proof.Claim.CopyUnitEventClaim : Prop :=
  ∀ (core : Nat) (b : Block) (x : CpEntry) (r : List CpEntry) (s : State),
    let t0 := tlrOf x.record
    let f := s.focusBlock b
    s.cpHead core = some (b, x) → b.cpFifo = x :: r → b.key ≠ 0 → blockUnwatched s b →
    (∀ i, b.cpprog = i * t0.unit → b.cpprog < t0.count → copyWaits f t0 b.cpprog t0.unit → exec (.copyStart core 1) s = .next f) ∧
    (∀ (s1 : State) (v : Nat) (fill : Bool), t0.fmt = 5 → t0.xf = 0 → f.targets b x.record = [b] →
      b.cpprog + 1 < t0.count → ¬ copyWaits f t0 b.cpprog 1 → f.copyElem t0 b.cpprog = .ok (s1, v, fill) → v < 2 ^ 32 → Completes (.copyStart core 1) s fun t =>
        t.blk.cpprog = b.cpprog + 1 ∧ t.blk.cpFifo = b.cpFifo ∧ t.mem = s.mem ∧
        (∀ i, i < 4 → (if t0.dst < 0x80000 then t.blk.spad else t.blk.acc).read (t0.place (4 * b.cpprog + i)) = BitVec.ofNat 8 (v / 2 ^ (8 * i))) ∧
        ∀ o, (∀ i, i < 4 → o ≠ t0.place (4 * b.cpprog + i)) →
          (if t0.dst < 0x80000 then t.blk.spad else t.blk.acc).read o = (if t0.dst < 0x80000 then b.spad else b.acc).read o) ∧
    (tlrBad x.record f.launch.gang = [] → b.cpprog % t0.step = 0 → b.cpprog + t0.step < t0.count → ¬ copyWaits f t0 b.cpprog t0.step → ∀ t, exec (.copyStart core 1) s = .next t →
      (∀ y ∈ t.blk.cpFifo.head?, y.finished = false) → movesOf (UnitMoved t0 x) (t0.step / t0.unit) f t) ∧
    (∀ (s1 : State) (xs : List (Nat × Bool)) (m : MemErr) (q : DWord), b.cpprog % t0.unit = 0 → b.cpprog < t0.count → ¬ copyWaits f t0 b.cpprog t0.unit →
      f.copyElems t0 b.cpprog t0.unit = (s1, xs, some (m, q)) → m ≠ .hole → Completes (.copyStart core 1) s fun t =>
        t.blk = { b with cpprog := 0, cpFifo := { x with finished := true, fault := some { cls := m.cls, addr := q, detail := m.detail } } :: r })

/-- Commands, copies and streams that are over (R131, R133), and one unit of a copy (R155 to R157). -/
def Obligations.EngineCompletionEvents : Prop := EngineCompletionEventsClaim ∧ CopyUnitEventClaim

/-! ### Code objects -/

/-- R55, R62 to R66, R199, R229, R272 (logs 12, 16, 41: the model's choice that the object stands contiguous at a physical place, that a load at a handle in use replaces the object there, and that a free world's object is not taken): the loader takes an object that passes its checks: it stands in main memory from `phys` on, and the hub holds its tables under the handle, in the world's own space where the world is protected; an object that fails one changes nothing. -/
def Obligations.CodeObjectEvent : Prop :=
  ∀ (world handle base phys : Nat) (image : List Byte) (ends : List Nat) (s : State),
    let i : Instr := .codeObjectLoad ⟨world, handle⟩ base phys ⟨image, ends⟩
    let ok := handle < 2 ^ 15 ∧ base % 65536 = 0 ∧ phys % 65536 = 0 ∧ phys + image.length ≤ 2 ^ 39 ∧ imageOk image = true ∧ s.world world ≠ .free ∧
      ∀ a, phys ≤ a → a < phys + image.length → (s.pm s.pkg).isMeta (a / 65536) = false
    let space := if s.world world = .prot then some world else none
    (¬ ok → exec i s = .next s) ∧
    (ok → Completes i s fun t =>
      (∃ c : CodeObj, t.hub = { s.hub with codeObjs := s.hub.codeObjs.filter (fun x => decide (x.owner ≠ space) || decide (x.handle ≠ handle)) ++ [c] } ∧
        c.owner = space ∧ c.handle = handle ∧ c.base = base ∧ c.textOff = imgWord image 12 ∧ c.textBytes = imgWord image 16 ∧
        c.streamEnds = ends ∧ c.kernels.length = imgWord image 8 ∧ c.safePoints.length = imgWord image 32 ∧
        (∀ i k, c.kernels[i]? = some k → k.entry = imgWord image (96 + 64 * i) ∧ k.team = imgWord image (100 + 64 * i) ∧
          k.block = imgWord image (104 + 64 * i) ∧ k.regs = imgWord image (108 + 64 * i) ∧ k.scratch = imgWord image (112 + 64 * i) ∧
          k.firstOrd = imgWord image (124 + 64 * i) ∧ k.name = (image.drop (64 + 64 * i)).take 32) ∧
        ∀ i p, c.safePoints[i]? = some p → p.off = imgWord image (imgWord image 28 + 28 * i + 4) % 2 ^ 24) ∧
      (∀ p a, (t.pm p).bytes.read a = if p = s.pkg ∧ phys ≤ a ∧ a < phys + image.length then image.getD (a - phys) 0 else (s.pm p).bytes.read a) ∧
      t.launch = s.launch ∧ t.blk = s.blk ∧ SameRegs s.team t.team ∧ t.team.pc = s.team.pc)

/-! ### Frequel -/

/-- The core `k` of `t` is `c`, and every other core is that of `s`. -/
def Sys2Proof.Claim.CoreIs (s t : State) (k : Nat) (c : Core) : Prop := ∀ j, t.getCore j = if j = k then c else s.getCore j

/-- R232, R233, R237 to R241, R243, R205: (which words a shadow covers, and that a hinge on the region is decided first, is log 36) a core's capture unit is armed for a region of a running launch that is hot by the core's samples of its code; one execution of the region by a team gives one capture, of the thread that its number names: the live-ins are read at the first word, the live-outs when the last has written, and the slot is written then, the team held, once the last pass of the region has issued, for a cycle for each four values, a cycle being a step of the model (log 36); a candidate that R235 admits passes when, in an idle slot, it gives each capture's outcome at a lower cost; a tested candidate is installed. -/
def Sys2Proof.Claim.CaptureEventsClaim : Prop :=
  (∀ (core u start : Nat) (r : Region) (s : State),
    let f := s.focusCore core u
    core < 576 → u ≠ 0 → f.regionAt start = some r → f.frequelOn f.launch = true →
    s.hub.frqh ≤ (f.core.samples.filter fun x => decide (x.1 = f.launch.code.mark ∧ start ≤ x.2 ∧ x.2 < start + r.words.length)).length →
    1 ≤ r.words.length →
    (∃ b : Block, b ∈ s.blksOn core ∧ b.launchUid = u) → (∀ x, f.core.capUnit = some x → x.armed = false) →
    Completes (.captureArm core u start) s fun t => SameWorld s t ∧ t.team = s.team ∧ CoreIs s t core { s.getCore core with
      capUnit := some { armed := true, launchUid := u, start := start, olen := r.words.length - 1, taken := 0 }, captures := [], tested := [] }) ∧
  (∀ (k th : Nat) (tm : Team) (u : CaptureUnit) (r : Region) (s : State), s.getTeam k = some tm →
    let f := s.focus k
    f.team.key = k → f.team.ready = true → f.team.shadow = 0 → f.team.cand = none → f.team.captured = false →
    (f.hingeHere = none ∨ f.team.decided = some f.team.pc) →
    f.core.capUnit = some u → u.armed = true → u.launchUid = f.launch.uid → u.start = r.start →
    f.regionAt (textIdx f.launch.code f.team.pc) = some r → f.team.nextActive (37 * u.taken % f.team.threads) = some th →
    f.team.active th = true ∧ ∃ c : CaptureRun,
      exec (.capture k) s = .next { f with
        core := { f.core with capUnit := some { u with taken := u.taken + 1, armed := decide (u.taken + 1 < f.launch.frqs) } },
        team := { f.team with captured := true, capturing := some c, queue := f.team.ahead.takeWhile fun x => x.ran.isNone } } ∧
      c.slot = u.taken ∧ c.thread = th ∧ c.start = r.start ∧ c.last + 1 = r.start + r.words.length ∧ c.ins = r.ins.map (f.team.field th) ∧ c.ev = [] ∧
      ∀ j, c.pin / 2 ^ j % 2 = if j ∈ r.pin ∧ f.team.predBit th j = true then 1 else 0) ∧
  (∀ (pre : Team) (i : Instr) (x : Alu) (c : CaptureRun) (u : CaptureUnit) (r : Region) (s s1 : State),
    pre.capturing = some c → regionAlu i = some x → s.team.key = pre.key → s.team.priv? = pre.priv? → s.team.parked = none → textIdx s.launch.code pre.pc = c.last →
    c.start ≤ c.last → pre.priv? = c.inTrap → pre.active c.thread = true →
    s.core.capUnit = some u → u.launchUid = s.launch.uid → u.start = c.start → c.slot < u.taken → s.regionAt c.start = some r →
    let hold := (r.ins.length + r.outs.length + (if r.pin = [] ∧ r.pout = [] then 0 else 1) + 3) / 4
    let k := fun (ev : Tbl Nat) (pout : Nat) => ({ thread := c.thread, bix := s.blk.bix, ins := c.ins, outs := r.outs.map (s.team.field c.thread),
                                                   pin := c.pin, pout := pout, ev := ev } : CapRec)
    ∃ ev pout, (∀ j, pout / 2 ^ j % 2 = if j ∈ r.pout ∧ s.team.predBit c.thread j = true then 1 else 0) ∧
      (({ s with team := if hold = 0 ∨ s.team.owed ≠ [] then { s.team with capturing := none, holdFor := hold }
          else { s.team with capturing := none, holdFor := 0, parked := some (.capture (s.freeCount + 1 + hold)) } } : State).recWords s.launch true
          (BitVec.ofNat 64 (s.launch.capture + 8192 * s.core.id + 256 * c.slot)) 0 (slotWords (k ev pout) c.slot r.start s.launch.handle r) = some s1 →
        s.captureWord pre i = { s1 with core := { s1.core with captures := s1.core.captures ++ [k ev pout] } })) ∧
  (∀ (core : Nat) (ws : List Word) (u : CaptureUnit) (r : Region) (s : State), core < 576 → (s.getCore core).capUnit = some u → u.armed = false →
    (s.focusCore core u.launchUid).regionAt u.start = some r → s.capturingOn core = false → (∃ q, q < 4 ∧ s.idleQuarter core q = true) →
    let good := ∃ is, r.admits ws = some is ∧ (s.getCore core).captures ≠ [] ∧ (∀ c : CapRec, c ∈ (s.getCore core).captures → passes r is c = true) ∧
      costOf is < costOf r.words
    Completes (.candidateTest core ws) s fun t => SameWorld s t ∧ t.team = s.team ∧
      (good → CoreIs s t core { s.getCore core with tested := ws }) ∧ (¬ good → CoreIs s t core { s.getCore core with tested := [] })) ∧
  (∀ (core u e : Nat) (d : QWord) (x : CaptureUnit) (s : State),
    let f := s.focusCore core u
    core < 576 → u ≠ 0 → e < 16 → f.launch.uid = u → f.core.capUnit = some x → x.launchUid = u → f.frequelOn f.launch = true →
    f.hingeOk e d = true → hgHandle d = f.launch.handle → hgStart d = x.start → hgOlen d = x.olen →
    (∃ b : Block, b ∈ s.blksOn core ∧ b.launchUid = u) → f.hingeText d (hgClen d + 1) = .ok f.core.tested → f.core.tested ≠ [] →
    Completes (.hingeInstall core u e d) s fun t => t.mem = s.mem ∧ t.hub = s.hub ∧ (∀ j, j ≠ core → t.getCore j = s.getCore j) ∧
      ∀ j, tget {} (t.getCore core).hinges j =
        if j = e then { desc := d, text := f.core.tested, launchUid := u } else tget {} (s.getCore core).hinges j)

/-- R244 to R246 (log 36: ACNT at or above 2^FRQA is an audit, and which words a shadow covers): at the first word of a region with a live hinge: with EXEC zero, a shadow open, a debugger attached or an opt-out the original runs; a provisional hinge begins a comparison, unless the shadow context is busy, and the original runs, with no fairness switch inside it (R245); a trusted hinge gives the candidate's words, counts, and at the audit interval begins an audit, for which, having counted once, it waits while the shadow context is busy. -/
def Sys2Proof.Claim.HingeDecisionEventClaim : Prop :=
  ∀ (k e : Nat) (tm : Team) (h : Hinge) (s : State), s.getTeam k = some tm →
    let f := s.focus k
    let original := exec (.hingeDecision k) s = .next { f with team := { f.team with decided := some f.team.pc } }
    let shut := f.team.execZero = true ∨ f.team.shadow ≠ 0 ∨ f.launch.debugger = true ∨ f.launch.out = true ∨ f.launch.replay ≠ 0
    f.team.key = k → f.team.ready = true → f.team.owed = [] → f.team.cand = none → f.team.decided ≠ some f.team.pc → f.hingeHere = some (e, h) →
    (shut → original) ∧
    ∀ (r : Region) (cand : List (Instr × Alu)), ¬ shut → f.regionAt (hgStart h.desc) = some r → regionWords h.text = some cand →
      (f.fitsWindow r.words = false ∨ f.fitsWindow cand = false → original) ∧
      (f.fitsWindow r.words = true → f.fitsWindow cand = true → r.admits h.text ≠ none → r.words.length = hgOlen h.desc + 1 →
        let held := f.team.auditHeld = some f.team.pc
        let n := if held then hgAcnt h.desc else min (hgAcnt h.desc + 1) 65535
        let probation := some (f.team.pc, f.team.pc + 4 * r.words.length)
        let begins := fun (audit : Bool) (x : Hinge) => x.made = h.made + 1 ∧
          x.pending = h.pending ++ [{ team := k, audit := audit, clean := f.agrees r cand r.words h.made }]
        let runs := fun (t : State) (x : Hinge) =>
          t = { f with core := { f.core with hinges := t.core.hinges }, team := { f.team with decided := some f.team.pc, cand := t.team.cand, queue := [] } } ∧
          t.team.cand = some { words := h.text, entry := f.team.pc, regionEnd := f.team.pc + 4 * r.words.length } ∧
          (∀ j, j ≠ e → tget {} t.core.hinges j = tget {} f.core.hinges j) ∧ tget {} t.core.hinges e = x ∧
          hgAcnt x.desc = n ∧ hgState x.desc = 2 ∧ x.text = h.text ∧ f.team.cslot ∈ x.ran
        (hgState h.desc = 1 → f.core.comparing = true →
          exec (.hingeDecision k) s = .next { f with team := { f.team with decided := some f.team.pc, probation := probation } }) ∧
        (hgState h.desc = 1 → f.core.comparing = false → Completes (.hingeDecision k) s fun t => ∃ x, begins false x ∧
          x = { h with made := x.made, pending := x.pending } ∧
          t = { f with core := { f.core with hinges := t.core.hinges },
                       team := { f.team with decided := some f.team.pc, probation := probation } } ∧
          ∀ j, tget {} t.core.hinges j = if j = e then x else tget {} f.core.hinges j) ∧
        (hgState h.desc = 2 → ¬ held → n < 2 ^ f.launch.frqa → Completes (.hingeDecision k) s fun t => ∃ x, runs t x ∧ x.pending = h.pending) ∧
        (hgState h.desc = 2 → held ∨ ¬ n < 2 ^ f.launch.frqa → f.core.comparing = false → Completes (.hingeDecision k) s fun t => ∃ x, runs t x ∧ begins true x) ∧
        (hgState h.desc = 2 → held ∨ ¬ n < 2 ^ f.launch.frqa → f.core.comparing = true → Completes (.hingeDecision k) s fun t => ∃ x : Hinge,
          t = { f with core := { f.core with hinges := t.core.hinges }, team := { f.team with auditHeld := some f.team.pc } } ∧
          x = { h with desc := x.desc } ∧ hgAcnt x.desc = n ∧ hgState x.desc = 2 ∧
          ∀ j, tget {} t.core.hinges j = if j = e then x else tget {} f.core.hinges j))

/-- R205, R246 to R250 (log 36: the verdict is computed when the comparison begins, and the model chooses when an idle slot comes): the oldest comparison of an entry completes, in an idle slot of its quarter, or after 64 cycles, or when its team is to stop: a withdrawn entry ignores it; a clean one of a provisional hinge counts in PCNT, and at FRQP with none left makes the hinge trusted; a differing one withdraws it; a clean audit clears ACNT and the entry's records; a differing audit is an escape: one interrupt, the hinge withdrawn, a notice to the teams that ran it under policy 1, the launch failed under policy 2. -/
def Sys2Proof.Claim.ShadowComparisonEventClaim : Prop :=
  ∀ (core e : Nat) (x : Comparison) (r : List Comparison) (s : State),
    let h := tget {} (s.getCore core).hinges e
    let l := (s.getLaunch h.launchUid).getD {}
    let leaves := fun (P : Hinge → Prop) => Completes (.shadowComparison core e) s fun t => SameWorld s t ∧ t.team = s.team ∧
      ∃ y, P y ∧ y.pending = r ∧ y.text = h.text ∧ y.launchUid = h.launchUid ∧
        CoreIs s t core { s.getCore core with hinges := (t.getCore core).hinges } ∧
        ∀ j, tget {} (t.getCore core).hinges j = if j = e then y else tget {} (s.getCore core).hinges j
    let may := s.idleQuarter (x.team / 64) (x.team / 16 % 4) = true ∨ 64 ≤ x.waited ∨ ∀ tm : Team, s.getTeam x.team = some tm → tm.stops ≠ []
    h.pending = x :: r →
    (¬ may → exec (.shadowComparison core e) s = .next s) ∧
    (may → hgState h.desc = 0 → leaves fun y => y = { h with pending := r }) ∧
    (may → hgState h.desc ≠ 0 → x.audit = false → x.clean = true → leaves fun y =>
      hgPcnt y.desc = min (hgPcnt h.desc + 1) 255 ∧ hgAcnt y.desc = hgAcnt h.desc ∧ hgStart y.desc = hgStart h.desc ∧
      hgState y.desc = if l.frqp ≤ hgPcnt y.desc ∧ r = [] then 2 else hgState h.desc) ∧
    (may → hgState h.desc ≠ 0 → x.audit = false → x.clean = false → leaves fun y => hgState y.desc = 0) ∧
    (may → hgState h.desc ≠ 0 → x.audit = true → x.clean = true → leaves fun y =>
      hgAcnt y.desc = 0 ∧ hgState y.desc = hgState h.desc ∧ y.blocks = [] ∧ y.ran = [] ∧ y.more = false) ∧
    (may → hgState h.desc ≠ 0 → x.audit = true → x.clean = false →
      (l.pol ≠ 2 → Completes (.shadowComparison core e) s fun t =>
        t.hub.msix = s.hub.msix ++ [2] ∧ hgState (tget {} (t.getCore core).hinges e).desc = 0 ∧ t.launch = s.launch ∧ t.blk = s.blk ∧
        ∀ k (tm : Team), s.getTeam k = some tm → ∃ u : Team, t.getTeam k = some u ∧ SameRegs tm u ∧ u.pc = tm.pc ∧
          u.escapes = if l.pol = 1 ∧ tm.coreId = core ∧ tm.kind = .team ∧ tm.launchUid = l.uid ∧ tm.cslot ∈ h.ran then tm.escapes ++ [e] else tm.escapes) ∧
      (l.pol = 2 → l.uid = h.launchUid → l.uid ≠ 0 → l.status = .running → Completes (.shadowComparison core e) s fun t =>
        (∃ m, t.getLaunch l.uid = some m ∧ m.status = .failed) ∧
        ∃ rec more, failureOf l 0x0D 4 rec ∧ t.hub.failures = s.hub.failures ++ rec :: more))

/-- Captures and candidates (R237 to R243), hinge decisions (R244 to R246), and comparisons (R246 to R250). -/
def Obligations.FrequelEvents : Prop := CaptureEventsClaim ∧ HingeDecisionEventClaim ∧ ShadowComparisonEventClaim

/-! ### Helolo's descriptors and snapshots -/

/-- R254: what a write of `d` makes of a buffer descriptor. A reserved SIZEL or bit 7 changes nothing; a rising EN starts the buffer anew; otherwise the hardware's fields stay, and dropping ends with EN. -/
def Sys2Proof.Claim.BufWritten (b y : HBuf) (d : QWord) : Prop :=
  let n := d.toNat
  if n / 4 % 16 = 15 ∨ n / 128 % 2 = 1 then y = b
  else y.base = BitVec.ofNat 64 (n / 2 ^ 64) ∧ y.sizel = n / 4 % 16 ∧ y.mode = d.getLsbD 1 ∧ y.en = d.getLsbD 0 ∧
    if d.getLsbD 0 = true ∧ b.en = false then y.wptr = 0 ∧ y.lost = 0 ∧ y.wraps = 0 ∧ y.fault = false ∧ y.dropping = false
    else y.wptr = b.wptr ∧ y.lost = b.lost ∧ y.wraps = b.wraps ∧ y.fault = b.fault ∧ y.dropping = (b.dropping && d.getLsbD 0)

/-- R252, R254, R259, R265, R266 (log 37: what a buffer drops and what its EN ends, and a trigger that comes while one waits): descriptor writes of the four kinds of buffer; a watch entry that R259 admits is written and any other changes nothing; ARM and DONE; a trigger fires while ARM is 1; the latch, at the first tick 128 ns after the firing, stores every unprotected resident block's set and leaves ARM 0 and DONE 1. -/
def Obligations.HeloloEvents : Prop :=
  (∀ (c q u : Nat) (d : QWord) (s : State),
    (c < 576 → q < 4 → Completes (.bufferDescriptorWrite (.sample c q) d) s fun t => ∃ y, BufWritten (tget {} s.hub.sampleBufs (4 * c + q)) y d ∧
      t = { s with hub := { s.hub with sampleBufs := t.hub.sampleBufs } } ∧
      ∀ j, tget {} t.hub.sampleBufs j = if j = 4 * c + q then y else tget {} s.hub.sampleBufs j) ∧
    (∀ l, s.getLaunch u = some l →
      (Completes (.bufferDescriptorWrite (.debug u) d) s fun t => ∃ y, BufWritten l.debugBuf y d ∧ t = s.setLaunch { l with debugBuf := y }) ∧
      (Completes (.bufferDescriptorWrite (.replay u) d) s fun t => ∃ y, BufWritten l.replayBuf y d ∧ t = s.setLaunch { l with replayBuf := y })) ∧
    (Completes (.bufferDescriptorWrite .frequelLog d) s fun t => ∃ y, BufWritten s.hub.frequelLog y d ∧
      t = { s with hub := { s.hub with frequelLog := y } })) ∧
  (∀ (u k : Nat) (d : QWord) (l : Launch) (s : State), s.getLaunch u = some l →
    let n := d.toNat
    let ok := k < 8 ∧ n / 2 ^ 48 % 2 ^ 16 = 0 ∧ n / 2 ^ 7 % 2 ^ 25 = 0 ∧ n / 2 ^ 4 % 4 ≠ 3 ∧ n / 2 ^ 2 % 4 ≠ 0 ∧ n / 2 ^ 124 ≤ 2
    (ok → Completes (.watchEntryWrite u k d) s fun t => ∃ x, t = s.setLaunch { l with watches := x } ∧
      ∀ j, tget 0 x j = if j = k then d else tget 0 l.watches j) ∧
    (¬ ok → exec (.watchEntryWrite u k d) s = .next s)) ∧
  (∀ (a b : Bool) (s : State),
    exec (.snapshotArmWrite a b) s = .next { s with hub := { s.hub with armed := a, snapDone := b } } ∧
    (s.hub.armed = true → s.hub.firing = none → exec .snapshotTrigger s = .next { s with hub := { s.hub with firing := some s.time } }) ∧
    (s.hub.armed = false ∨ s.hub.firing ≠ none → exec .snapshotTrigger s = .next s) ∧
    (s.hub.firing = none → exec .snapshotLatch s = .next s) ∧
    ∀ f, s.hub.firing = some f → ((s.time - f).toNat < 128 → exec .snapshotLatch s = .next s) ∧
    (128 ≤ (s.time - f).toNat → Completes .snapshotLatch s fun t =>
      t.hub.armed = false ∧ t.hub.snapDone = true ∧ t.hub.firing = none ∧ SameRegs s.team t.team ∧ t.team.pc = s.team.pc ∧
      (twf none s.blocks = true → (∀ k (x : Block), tget none s.blocks k = some x → x.key = k) → ∀ k x, s.getBlk k = some x →
        t.getBlk k = some (if s.protectedLaunch ((s.getLaunch x.launchUid).getD {}) then x else { x with snap := s.snapOf (f + 128) x }))))

/-! ### Links -/

/-- Link `k` after an event, and nothing else changed. -/
def Sys2Proof.Claim.LinkIs (s t : State) (k : Nat) (l : Link) : Prop := t = { s with links := t.links } ∧ ∀ j, t.link j = if j = k then l else s.link j

/-- An acknowledgement up to `a` that covers packets the sender still holds (R283): those packets, and no other, leave what it holds. -/
def Sys2Proof.Claim.Acknowledged (l m : Link) (a : BitVec 32) : Prop :=
  let covered := fun (x : BitVec 32) => decide ((a - x).toNat < 2 ^ 31)
  if (a - l.acked).toNat < 2 ^ 31 ∧ (l.nextSeq - 1 - a).toNat < 2 ^ 31 then
    m = { l with acked := a, replayBuf := l.replayBuf.filter fun x => !covered x.seq, toResend := l.toResend.filter fun x => !covered x.seq }
  else m = l

/-- The sender starts over from its oldest unacknowledged packet (R283). -/
def Sys2Proof.Claim.Resent (m y : Link) : Prop :=
  if m.replayBuf = [] then y = m else y = { m with toResend := m.replayBuf, replays := min (m.replays + 1) 65535 }

/-- R282 to R285 (log 38: one NAK for each gap, and an ACK outside the window is ignored): the receiver and the sender of a link: a packet in sequence is accepted and acknowledged at the eighth, a duplicate acknowledged again, one out of sequence or damaged answered by one NAK, the ACK of an intact packet counting whatever its SEQ; ACK, NAK and a timeout; PAUSE and RESUME, with the ACK they carry; what the sender sends, a channel that is paused holding no packet of the other; a link that trains, recovers or is down takes and sends no packet. -/
def Sys2Proof.Claim.LinkTrafficEventsClaim : Prop :=
  ∀ (k : Nat) (p : Packet) (a : BitVec 32) (vc : BitVec 2) (s : State), k < 12 →
    let l := s.link k
    let live := l.up = true ∧ l.training = false ∧ l.recovering = false
    let next := p.crcOk = true ∧ p.seq = l.rxLast + 1
    let seen := p.crcOk = true ∧ (l.rxLast - p.seq).toNat < 2 ^ 31
    let ch := p.kind.vc
    let used := tget 0 l.rxUsed ch + (p.cnt.val + 1)
    (¬ live → Completes (.dataPacket k p) s fun t => LinkIs s t k l) ∧
    (live → next → Completes (.dataPacket k p) s fun t => ∃ m y, Acknowledged l m p.ack ∧ LinkIs s t k y ∧
      let pauses := 4096 - used < 3200 ∧ ch ∉ l.rxPaused
      y = { m with rxLast := p.seq, discarding := false, sinceAck := if 8 ≤ l.sinceAck + 1 then 0 else l.sinceAck + 1,
                   rxUsed := y.rxUsed, rxPaused := if pauses then l.rxPaused ++ [ch] else l.rxPaused,
                   sent := l.sent ++ (if pauses then [.pause ch p.seq] else []) ++ if 8 ≤ l.sinceAck + 1 then [.ack p.seq] else [] } ∧
      ∀ j, tget 0 y.rxUsed j = if j = ch then used else tget 0 l.rxUsed j) ∧
    (live → ¬ next → seen → Completes (.dataPacket k p) s fun t => ∃ m, Acknowledged l m p.ack ∧
      LinkIs s t k { m with sent := l.sent ++ [.ack l.rxLast], sinceAck := 0 }) ∧
    (live → ¬ next → ¬ seen → Completes (.dataPacket k p) s fun t => ∃ m, (if p.crcOk = true then Acknowledged l m p.ack else m = l) ∧
      LinkIs s t k (if l.discarding then m else { m with sent := l.sent ++ [.nak l.rxLast], discarding := true, sinceAck := 0 })) ∧
    (Completes (.ack k a) s fun t => ∃ m, Acknowledged l m a ∧ LinkIs s t k m) ∧
    (Completes (.nak k a) s fun t => ∃ m y, Acknowledged l m a ∧ Resent m y ∧ LinkIs s t k y) ∧
    (Completes (.replayTimeout k) s fun t => ∃ y, Resent l y ∧ LinkIs s t k y) ∧
    (Completes (.ackTimer k) s fun t => LinkIs s t k (if l.up then { l with sent := l.sent ++ [.ack l.rxLast], sinceAck := 0 } else l)) ∧
    (Completes (.pause k ⟨vc, a⟩) s fun t => ∃ m, Acknowledged l m a ∧
      LinkIs s t k { m with txPaused := if vc.toNat ∈ l.txPaused then l.txPaused else l.txPaused ++ [vc.toNat] }) ∧
    (Completes (.resume k ⟨vc, a⟩) s fun t => ∃ m, Acknowledged l m a ∧
      LinkIs s t k { m with txPaused := l.txPaused.filter fun x => decide (x ≠ vc.toNat) }) ∧
    ∀ (kind : PacketKind) (cnt : Fin 8) (c : Carried),
      let held := fun (x : TxPacket) => x.kind.vc ∈ l.txPaused
      (¬ live → l.send kind cnt c = l) ∧
      (live → ∀ x before rest, l.toResend = before ++ x :: rest → (∀ y ∈ before, held y) → ¬ held x →
        l.send kind cnt c = { l with toResend := before ++ rest }) ∧
      (live → (∀ y ∈ l.toResend, held y) → l.send kind cnt c =
        if 512 ≤ l.replayBuf.length ∨ kind.vc ∈ l.txPaused then l
        else { l with replayBuf := l.replayBuf ++ [{ seq := l.nextSeq, kind := kind, cnt := cnt, carries := c }], nextSeq := l.nextSeq + 1 })

/-- The lanes that carry data at a width and a segment (R285). -/
def Sys2Proof.Claim.carrying (w seg lane : Nat) : Prop := (w = 3 ∧ lane < 16) ∨ (w = 2 ∧ lane / 8 = seg) ∨ (w = 1 ∧ lane / 4 = seg)

/-- R285 to R287 (log 38: the order of the choice of lanes, WARN set again at each crossing; log 17: what a packet carries): training, before which a link that has failed accesses goes down with them, and its end; a failed lane begins recovery; the other end's recovery flit; recovery ends on lanes none of which is bad at either end, no more than before, or with the link down, as it is where the link has failed an access already, when each store that an unacknowledged packet carries fails its launch, and a narrower width is told by vector 4; telemetry sets WARN of the active lanes that cross EVWARN, with vector 3 at the link's rising edge. -/
def Sys2Proof.Claim.LinkStateEventsClaim : Prop :=
  ∀ (k lane : Nat) (a : BitVec 32) (far : List Nat) (rd : LinkReading) (s : State), k < 12 →
    let l := s.link k
    (l.doomed = false → Completes (.retrain k) s fun t => LinkIs s t k { l with training := true, recovering := false, otherAck := none, farFailed := [] }) ∧
    (l.doomed = true → Completes (.retrain k) s fun t => TrainsAfterFall s t k l) ∧
    (l.training = false → Completes (.retrainComplete k) s fun t => LinkIs s t k l) ∧
    (l.training = true → Completes (.retrainComplete k) s fun t => ∃ y, LinkIs s t k y ∧
      y = { l with training := false, up := true, width := 3, seg := 0, lanes := y.lanes } ∧ (∀ j, (tget {} y.lanes j).fail = false) ∧
      (twf {} l.lanes = true → ∀ j, tget {} y.lanes j = { tget {} l.lanes j with fail := false })) ∧
    (lane < 16 → Completes (.laneFailure k lane) s fun t => ∃ y, LinkIs s t k y ∧
      (∀ j, tget {} y.lanes j = if j = lane then { tget {} l.lanes lane with fail := true } else tget {} l.lanes j) ∧
      y = if l.up = true ∧ l.recovering = false then { l with lanes := y.lanes, recovering := true, sent := l.sent ++ [.recovery l.rxLast] }
        else { l with lanes := y.lanes }) ∧
    (Completes (.recovery k a far) s fun t =>
      let sent := l.sent ++ if l.recovering then [] else [.recovery l.rxLast]
      LinkIs s t k (if l.up then { l with recovering := true, otherAck := some a, farFailed := far, sent := sent } else l)) ∧
    (l.recovering = false ∨ l.otherAck = none → exec (.recoveryComplete k) s = .next s) ∧
    (l.recovering = true → ∀ b, l.otherAck = some b → Completes (.recoveryComplete k) s fun t =>
      let y := t.link k
      ∃ m, Acknowledged l m b ∧
      y.recovering = false ∧ y.otherAck = none ∧ y.farFailed = [] ∧ y.lanes = l.lanes ∧ y.rxLast = l.rxLast ∧ y.nextSeq = l.nextSeq ∧
      (1 ≤ l.width → y.width ≤ l.width) ∧ (l.doomed = true → y.width = 0) ∧ (y.width = 0 → y.doomed = false) ∧ y.up = (l.up && decide (y.width ≠ 0)) ∧
      y.deg = (l.deg || decide (y.width < l.width) || decide (y.width = 0)) ∧
      (∀ j, carrying y.width y.seg j → (∀ e : Nat × Lane, e ∈ l.lanes → e.2.fail = true → e.1 ≠ j) ∧ j ∉ l.farFailed) ∧
      (∀ j, j ≠ k → t.link j = s.link j) ∧ t.mem = s.mem ∧
      (y.width ≠ 0 → y.replayBuf = m.replayBuf ∧ y.toResend = (if m.replayBuf = [] then m.toResend else m.replayBuf) ∧ t.team = s.team) ∧
      (y.width = 0 → y.replayBuf = [] ∧ y.toResend = []) ∧
      (y.width ≠ 0 ∨ (∀ x ∈ m.replayBuf, x.carries = .nothing) → t.team = s.team ∧
        t.hub = { s.hub with msix := s.hub.msix ++ if y.width < l.width ∨ y.width = 0 then [4] else [] }) ∧
      (y.width = 0 → ∀ x before after u tag tm a, m.replayBuf = before ++ x :: after → (∀ z ∈ before, z.carries = .nothing) →
        (∀ z ∈ after, z.carries = .nothing) → x.carries = .store u tag → s.getTeam u = some tm → a ∈ tm.inflight → a.tag = tag → a.done = false →
        a.kind = .store → Path.x ∈ a.paths → Path.x ∉ a.donePaths → tm.launchUid ≠ 0 → (∃ z : Launch, s.getLaunch tm.launchUid = some z ∧ z.status = .running) →
        ∃ z, t.getLaunch tm.launchUid = some z ∧ z.status = .failed)) ∧
    (l.width ≤ 3 → Completes (.telemetryRefresh k rd) s fun t =>
      let y := t.link k
      let bad := fun (j : Nat) (x : LaneReading) => carrying l.width l.seg j ∧
        (x.eyeh.toNat < s.evwarn.toNat / 2 ^ 24 ∨ x.eyew.toNat < s.evwarn.toNat / 2 ^ 16 % 2 ^ 8 ∨ s.evwarn.toNat / 2 ^ 4 % 2 ^ 12 < x.corr.toNat)
      y.tempc = rd.tempc ∧ (∀ j x, j < 16 → rd.lanes[j]? = some x →
        let o := tget {} y.lanes j
        o.eyeh = x.eyeh ∧ o.eyew = x.eyew ∧ o.corr = x.corr ∧ o.fail = (tget {} l.lanes j).fail ∧
        (o.warn = true ↔ (tget {} l.lanes j).warn = true ∨ bad j x)) ∧
      (∀ j, ¬ (j < 16 ∧ j < rd.lanes.length) → tget {} y.lanes j = tget {} l.lanes j) ∧
      (y.warn = true ↔ l.warn = true ∨ ∃ j x, j < 16 ∧ rd.lanes[j]? = some x ∧ bad j x) ∧
      y = { l with lanes := y.lanes, tempc := y.tempc, warn := y.warn } ∧ (∀ j, j ≠ k → t.link j = s.link j) ∧
      t = { s with links := t.links, hub := { s.hub with msix := s.hub.msix ++ if y.warn = true ∧ l.warn = false then [3] else [] } })

/-- Traffic (R282 to R285) and the state (R285, R287) of an Eveno link. -/
def Obligations.LinkEvents : Prop := LinkTrafficEventsClaim ∧ LinkStateEventsClaim

/-! ### Power -/

/-- The greatest REQ of the teams resident on a cluster (R217). -/
def Sys2Proof.Claim.reqOf (s : State) (k : Nat) : Nat :=
  (((tvals s.teamTbl).filter fun t => decide (t.kind = .team) && decide (t.coreId / 8 = k)).map (·.perfReq)).foldl max 0

/-- R217, R288 to R295 (logs 26, 27: when CUR is formed, the shares of the cap, what a step of the rail is): telemetry is stored; a clock switches over once its idle generator has locked and the rail carries the new level, and the body biases of the die follow; a budget interval serves the waiting bytes; a die's controller sets FLOOR and BREACH with vector 5, keeps its estimates, cuts the clusters that consume most, of the hottest quadrant while the flux limit governs, or undoes its latest step, with none left raising every budget and cap below its limit; then each cluster's level follows the caps and requests of the interval, which take effect together, and a new level is its idle generator's target. -/
def Obligations.PowerEvents : Prop :=
  (∀ (r : PowerReading) (s : State), exec (.powerTelemetry r) s = .next { s with power := { s.power with telemetry := r } }) ∧
  (∀ (k : Nat) (s : State), k < 72 →
    let c := s.getCluster k
    let ready := fun (v : Nat) => c.idleGen = some (v, true) ∧ 9000 + 350 * v ≤ 15 * (tget {} s.dies (k / 18)).railMv
    (∀ v, (tget {} s.dies (k / 18)).railMv % 5 = 0 → ready v → Completes (.clockSwitch k) s fun t => t = { s with clusters := t.clusters } ∧
      ∀ j, let o := s.getCluster j
        let y := t.getCluster j
        (j / 18 ≠ k / 18 → y = o) ∧
        (j / 18 = k / 18 → y = { o with clock := if j = k then v else o.clock, idleGen := if j = k then none else o.idleGen, bias := y.bias } ∧
          ∃ top, (∀ i, i / 18 = k / 18 → (t.getCluster i).clock ≤ top) ∧ (∃ i, i / 18 = k / 18 ∧ (t.getCluster i).clock = top) ∧
            y.bias = min 300 (20 * (top - y.clock)))) ∧
    ((∀ v, c.idleGen ≠ some (v, true)) → exec (.clockSwitch k) s = .next s) ∧
    (∀ v, c.idleGen = some (v, true) → 15 * (tget {} s.dies (k / 18)).railMv < 9000 + 350 * v → exec (.clockSwitch k) s = .next s)) ∧
  (∀ s : State, twf {} s.clusters = true → Completes .budgetInterval s fun t => t = { s with clusters := t.clusters } ∧
    ∀ k, let c := s.getCluster k
      t.getCluster k = { c with spent := min c.waiting c.bud, waiting := c.waiting - min c.waiting c.bud }) ∧
  (∀ (d : Nat) (r : DieReading) (s : State), d < 4 →
    let die := tget {} s.dies d
    let hot := decide (19 * s.power.fluxlim < quadPower r (hotQuad r))
    let allowed := min (min (76 * s.power.fluxlim) (10 * die.cap)) (s.dieShare d)
    let used := max s.power.pcap s.power.idleFloor
    let low := decide (s.power.pcap < s.power.idleFloor)
    let breach := decide (used < (s.power.partitions.map fun e => e.2.toNat / 2 ^ 72 % 2 ^ 12).sum)
    let latched := fun (tm : Team) => if tm.coreId / 144 = d then { tm with perfNow := tm.perfReq } else tm
    let settles := fun (P : State → (Nat → Cluster) → Prop) => Completes (.controllerEvaluation d r) s fun t => ∃ u : Nat → Cluster, P t u ∧
      (∀ k, (k / 18 ≠ d → t.getCluster k = u k) ∧
        (k / 18 = d → let level := min (u k).cap (reqOf s k)
          t.getCluster k = { u k with capNow := (u k).cap, cur := level, idleGen := if level = (u k).cur then (u k).idleGen else some (level, false) })) ∧
      (∀ j, tget none t.teams j = (tget none s.teams j).map latched) ∧
      t = { s with team := if s.team.threads = 0 then s.team else latched s.team, teams := t.teams, clusters := t.clusters, dies := t.dies, power := { s.power with floor := s.power.floor || low, breach := s.power.breach || breach },
                   hub := { s.hub with msix := s.hub.msix ++ (if low = true ∧ s.power.floor = false then [5] else []) ++
                     if breach = true ∧ s.power.breach = false then [5] else [] } } ∧
      (tget {} t.dies d).power = r.power ∧ (tget {} t.dies d).flux = hot ∧ (tget {} t.dies d).quads = (List.range 4).map (quadPower r) ∧
      ∀ j, j ≠ d → tget {} t.dies j = tget {} s.dies j
    let pool := fun (j : Nat) => j < 18 ∧ (hot = true → quadrantOf j = hotQuad r)
    let most := fun (k : Nat) => k / 18 = d ∧ pool (k % 18) ∧ ∃ a, r.activity[k % 18]? = some a ∧ ∀ j b, pool j → r.activity[j]? = some b → b ≤ a
    (hot = true ∨ allowed < r.power → settles fun _ u => ∀ k,
      let c := s.getCluster k
      (most k → u k = if 4096 < c.bud then { c with bud := max 4096 (c.bud - c.bud / 8) }
        else if 0 < c.cap then { c with cap := c.cap - 1 } else c) ∧
      (¬ most k → u k = c)) ∧
    (hot = false → r.power ≤ allowed → 10 * r.power < 9 * allowed → settles fun t u =>
      let grown := fun (c : Cluster) => min 4194304 ((8 * c.bud + 6) / 7)
      (∀ k x, die.steps = .budget k :: x → (tget {} t.dies d).steps = x ∧ ∀ j,
        u j = if j = k then { s.getCluster k with bud := grown (s.getCluster k) } else s.getCluster j) ∧
      (∀ k x, die.steps = .level k :: x → (tget {} t.dies d).steps = x ∧ ∀ j,
        u j = if j = k then { s.getCluster k with cap := min (s.getCluster k).hostCap ((s.getCluster k).cap + 1) } else s.getCluster j) ∧
      (die.steps = [] → (tget {} t.dies d).steps = [] ∧ ∀ j, let c := s.getCluster j
        u j = if j / 18 = d then { c with bud := grown c, cap := if c.cap < c.hostCap then c.cap + 1 else c.cap } else c)) ∧
    (hot = false → r.power ≤ allowed → ¬ 10 * r.power < 9 * allowed → settles fun t u => (∀ j, u j = s.getCluster j) ∧ (tget {} t.dies d).steps = die.steps))

/-! ### Tumbler -/

/-- Tumbler answers and nothing else happens. -/
def Sys2Proof.Claim.answered (s : State) (r : Reply) : State := { s with tumbler := { s.tumbler with replies := s.tumbler.replies ++ [r] } }

/-- The session that an id names is open for a world and finished (R275). -/
def Sys2Proof.Claim.sessionFor (s : State) (k w : Nat) : Prop := ∃ x : Session, s.tumbler.sessions.find? (fun y => decide (y.id = k) && y.finished) = some x ∧ x.world = w

/-- The pages that hold no longer what was written there under an older key or attribute: every byte of each is a free value, under SA 2 with a tag that does not match, else with no tag, and no byte elsewhere changes (R272, log 44). -/
def Sys2Proof.Claim.Stale (s t : State) (pages : Nat → Prop) : Prop :=
  ∃ n, ∀ p a,
    (p = s.pkg → pages (a / 65536) → (t.pm p).bytes.read a = Config.staleByte n a ∧
      if (t.ownerOf p (a / 65536)).toNat / 64 % 4 = 2 then tget 0 (t.pm p).poison a = 4 else tget 0 (t.pm p).poison a ≠ 4) ∧
    (¬ (p = s.pkg ∧ pages (a / 65536)) → (t.pm p).bytes.read a = (s.pm p).bytes.read a ∧ tget 0 (t.pm p).poison a = tget 0 (s.pm p).poison a)

/-- No debug facility reaches a launch that runs on under the number of a world that becomes Protected (R252, R277; log 39): its capture or replay, its race detection and its debugger end, and its teams' stops but those of pre-emption are lifted. -/
def Sys2Proof.Claim.OutOfReach (s t : State) (w : Nat) : Prop :=
  let hide := fun (tm : Team) => if ((s.getLaunch tm.launchUid).getD {}).world = w then
    { tm with stops := tm.stops.filter (fun c => decide (c = .preempt)), held := false, stopped := tm.stopped && decide (StopCause.preempt ∈ tm.stops) } else tm
  (∀ u l, s.getLaunch u = some l → l.uid = u → t.getLaunch u = some (if l.world = w then { l with replay := 0, race := false, debugger := false } else l)) ∧
  (∀ k tm, s.getTeam k = some tm → t.getTeam k = some (hide tm)) ∧
  t.saved = s.saved.map fun (g : SavedGang) => { g with teams := g.teams.map hide }

/-- R269, R270, R272, R274, R277 (the model's choices, logs 25, 28, 39, 44: the order of the checks, two Protected worlds, what a page reads under another key): worlds are created and destroyed, a Protected one only in its session, and out of reach of every debug facility from then on, their keys made and destroyed, so that their encrypted pages no longer read as written; no world is created while the package is unlocked; an unlock sets the unlocked state and extends MR5; each other measurement register is extended by its own source alone, by SHA-512 of itself and the digest. -/
def Obligations.WorldEvents : Prop :=
  (∀ (w session : Nat) (prot : Bool) (s : State), twf 0 (s.pm s.pkg).owners = true →
    let tells := fun (i : Instr) (r : CmdStatus) => exec i s = .next (answered s (.status r))
    let becomes := fun (i : Instr) (x : WorldState) => Completes i s fun t =>
      (∀ j, t.world j = if j = w then x else s.world j) ∧ (∀ j, j ≠ w → tget 0 t.tumbler.keys j = tget 0 s.tumbler.keys j) ∧
      (x = .free → tget 0 t.tumbler.keys w = 0) ∧ (∀ p q, t.ownerOf p q = s.ownerOf p q) ∧
      Stale s t (fun q => (s.ownerOf s.pkg q).toNat % 64 = w ∧ (s.ownerOf s.pkg q).toNat / 64 % 4 ≠ 0) ∧
      (x ≠ .prot → t.team = s.team ∧ t.teams = s.teams ∧ t.saved = s.saved ∧ t.launch = s.launch ∧ t.launches = s.launches) ∧
      (x = .prot → (∀ l ∈ tvals s.launchTbl, s.getLaunch l.uid = some l) → OutOfReach s t w) ∧
      t = { s with team := t.team, teams := t.teams, saved := t.saved, launch := t.launch, launches := t.launches, mem := t.mem, hub := { s.hub with codeObjs := if x = .free then s.hub.codeObjs.filter (fun c => decide (c.owner ≠ some w)) else s.hub.codeObjs },
                   tumbler := { s.tumbler with worlds := t.tumbler.worlds, keys := t.tumbler.keys, replies := s.tumbler.replies ++ [.status .ok] } }
    let named := 1 ≤ w ∧ w ≤ 63
    (s.tumbler.unlocked = true → tells (.createWorld w prot session) .debugUnlocked) ∧
    (s.tumbler.unlocked = false → ¬ (named ∧ s.world w = .free) → tells (.createWorld w prot session) .busy) ∧
    (s.tumbler.unlocked = false → named → s.world w = .free → prot = true → ¬ sessionFor s session w → tells (.createWorld w prot session) .noSession) ∧
    (s.tumbler.unlocked = false → named → s.world w = .free → (prot = true → sessionFor s session w) →
      becomes (.createWorld w prot session) (if prot then .prot else .open_)) ∧
    (¬ (named ∧ s.world w ≠ .free) → tells (.destroyWorld w session) .refused) ∧
    (named → s.world w = .prot → ¬ sessionFor s session w → tells (.destroyWorld w session) .noSession) ∧
    (named → s.world w ≠ .free → (s.world w = .prot → sessionFor s session w) → becomes (.destroyWorld w session) .free)) ∧
  (∀ (src : MrSource) (k : Nat) (d : BitVec 512) (s : State),
    let extends_ := fun (t : State) (j : Nat) => ∀ i, t.mr i = if i = j then sha512Pair (s.mr j) d else s.mr i
    let its := (src = .bootRom ∧ k = 0) ∨ (src = .tumbler ∧ 1 ≤ k ∧ k ≤ 4) ∨ (src = .firmware ∧ 6 ≤ k ∧ k ≤ 15)
    (its → Completes (.extend ⟨src, k⟩ d) s fun t => extends_ t k ∧ t = { s with tumbler := { s.tumbler with mr := t.tumbler.mr } }) ∧
    (¬ its → exec (.extend ⟨src, k⟩ d) s = .next s) ∧
    (Completes (.debugUnlock true d) s fun t => extends_ t 5 ∧
      t = answered { s with tumbler := { s.tumbler with mr := t.tumbler.mr, unlocked := true } } (.status .ok)) ∧
    exec (.debugUnlock false d) s = .next (answered s (.status .refused)))

/-- R167, R270 to R272 (the model's choices, logs 39, 44: the order of the checks, and what a page reads under another key): an entry with a reserved bit, SA 3, an attribute for world 0, or SA 2 where the package keeps no tags is refused, as is one of a page of Tumbler's, one of a Protected world needs its session; otherwise no buffer holds a translation that covers the page, the entry is written and no other, a page that leaves a Protected world reads zero, one whose key or attribute changes otherwise no longer reads as it was written, and with no access in flight no byte of another page changes. -/
def Obligations.PageOwnerEvent : Prop :=
  ∀ (page session : Nat) (e : BitVec 16) (s : State),
    let was := s.ownerOf s.pkg page
    let old := was.toNat % 64
    let new := e.toNat % 64
    let legal := page < 2 ^ 23 ∧ e.toNat < 256 ∧ e.toNat / 64 ≠ 3 ∧ (new = 0 → e.toNat / 64 = 0) ∧
      (e.toNat / 64 = 2 → (s.pm s.pkg).integrity = true) ∧ (s.pm s.pkg).isMeta page = false
    let may := (s.world old = .prot → sessionFor s session old) ∧ (s.world new = .prot → sessionFor s session new)
    (¬ legal → exec (.pageOwnerChange page e session) s = .next (answered s (.status .refused))) ∧
    (legal → ¬ may → exec (.pageOwnerChange page e session) s = .next (answered s (.status .noSession))) ∧
    (legal → may → Completes (.pageOwnerChange page e session) s fun t =>
      t.pkg = s.pkg ∧ (∀ p q, t.ownerOf p q = if p = s.pkg ∧ q = page then e else s.ownerOf p q) ∧
      t.tumbler.replies = s.tumbler.replies ++ [.status .ok] ∧ t.tumbler.worlds = s.tumbler.worlds ∧
      (∀ k, ∀ x : TlbEntry, x ∈ (t.getCore k).tlb ∨ x ∈ (t.getCluster k).tlb → ¬ (x.frame ≤ page ∧ page < x.frame + if x.big then 256 else 1)) ∧
      (s.world old = .prot → new ≠ old → ∀ a, a / 65536 = page → (t.pm s.pkg).bytes.read a = 0) ∧
      (¬ (s.world old = .prot ∧ new ≠ old) → e ≠ was → was.toNat / 64 % 4 ≠ 0 ∨ e.toNat / 64 ≠ 0 →
        ∃ n, ∀ a, a / 65536 = page → (t.pm s.pkg).bytes.read a = Config.staleByte n a ∧
          if e.toNat / 64 = 2 then tget 0 (t.pm s.pkg).poison a = 4 else tget 0 (t.pm s.pkg).poison a ≠ 4) ∧
      ((∀ x : Team, x ∈ tvals s.teamTbl → x.inflight = []) → ∀ p a, ¬ (p = s.pkg ∧ a / 65536 = page) → (t.pm p).bytes.read a = (s.pm p).bytes.read a))

/-- R275 (log 28: values that no rule gives are left open; log 40: where the answer is InvalidRequest, and how the host's stream ID is met): Tumbler's answers to each SPDM request; four sessions at a time; the IDE messages act in a finished session only, on the stream that the host has chosen. -/
def Obligations.SpdmEvents : Prop :=
  ∀ (k w slot off len idx sub dir offer : Nat) (code stream : BitVec 8) (nonce key : BitVec 256) (s : State),
    let tells := fun (i : Instr) (r : Reply) => exec i s = .next (answered s r)
    tells .getVersion (.version [2, 3]) ∧
    tells .getCapabilities (.capabilities ["CERT", "CHAL", "MEAS_SIG", "KEY_EX", "ENCRYPT", "MAC"]) ∧
    tells (.negotiateAlgorithms offer) (.algorithms ["ECDSA_P521", "SHA_512", "SECP_521_R1", "AES_256_GCM"]) ∧
    (∃ d, tells .getDigests (.digests 1 d)) ∧
    (slot = 0 → ∃ c : List Byte, c.length = len ∧ tells (.getCertificate slot off len) (.certificate c)) ∧
    (slot ≠ 0 → tells (.getCertificate slot off len) (.error .invalid) ∧ tells (.challenge slot nonce) (.error .invalid)) ∧
    (slot = 0 → ∃ n x, tells (.challenge slot nonce) (.challengeAuth n x)) ∧
    (1 ≤ idx → idx ≤ 16 → ∃ x, tells (.getMeasurements idx nonce) (.measurements [(idx, s.mr (idx - 1))] x)) ∧
    (∃ x, tells (.getMeasurements 255 nonce) (.measurements ((List.range 16).map fun j => (j + 1, s.mr j)) x)) ∧
    (idx = 0 ∨ 16 < idx → idx ≠ 255 → tells (.getMeasurements idx nonce) (.error .invalid)) ∧
    (4 ≤ s.tumbler.sessions.length → tells (.keyExchange k w) (.error .busy)) ∧
    (s.tumbler.sessions.length < 4 → (∀ x : Session, x ∈ s.tumbler.sessions → x.id ≠ k) → Completes (.keyExchange k w) s fun t => ∃ x,
      t = answered { s with tumbler := { s.tumbler with sessions := s.tumbler.sessions ++ [({ id := k, world := w, finished := false } : Session)] } } (.keyExchange k x)) ∧
    (s.tumbler.sessions.length < 4 → (∃ x : Session, x ∈ s.tumbler.sessions ∧ x.id = k) → tells (.keyExchange k w) (.error .invalid)) ∧
    (let open_ := ∃ x : Session, x ∈ s.tumbler.sessions ∧ x.id = k ∧ x.finished = false
     (open_ → exec (.finish k true) s = .next (answered { s with tumbler := { s.tumbler with
        sessions := s.tumbler.sessions.map fun x => if x.id = k then { x with finished := true } else x } } (.finished k))) ∧
     (¬ open_ → tells (.finish k true) (.error .invalid)) ∧ tells (.finish k false) (.error .invalid)) ∧
    tells (.unsupportedRequest code) (.error .unsupported) ∧
    (let inside := ∃ w, sessionFor s k w
     let j := 2 * sub + dir
     let keyed := fun (i : Instr) (x : IdeKey) => Completes i s fun t => (∀ n, tget {} t.tumbler.ide n = if n = j then x else tget {} s.tumbler.ide n) ∧
       t = answered { s with tumbler := { s.tumbler with ide := t.tumbler.ide } } .ideOk
     (inside → tells (.query k) .ideOk) ∧
     let mine := stream = s.tumbler.ideStream ∧ dir < 2
     (inside → mine → keyed (.keyProg ⟨k, stream⟩ dir sub key) { tget {} s.tumbler.ide j with key := key, programmed := true }) ∧
     (inside → mine → (tget {} s.tumbler.ide j).programmed = true → keyed (.kSetGo ⟨k, stream⟩ dir sub) { tget {} s.tumbler.ide j with live := true }) ∧
     (inside → mine → (tget {} s.tumbler.ide j).programmed = false → tells (.kSetGo ⟨k, stream⟩ dir sub) (.error .invalid)) ∧
     (inside → mine → keyed (.kSetStop ⟨k, stream⟩ dir sub) { tget {} s.tumbler.ide j with live := false }) ∧
     (inside → ¬ mine → tells (.keyProg ⟨k, stream⟩ dir sub key) (.error .invalid) ∧ tells (.kSetGo ⟨k, stream⟩ dir sub) (.error .invalid) ∧
       tells (.kSetStop ⟨k, stream⟩ dir sub) (.error .invalid)) ∧
     (¬ inside → tells (.query k) (.error .unexpected) ∧ tells (.keyProg ⟨k, stream⟩ dir sub key) (.error .unexpected) ∧
       tells (.kSetGo ⟨k, stream⟩ dir sub) (.error .unexpected) ∧ tells (.kSetStop ⟨k, stream⟩ dir sub) (.error .unexpected)))

/-! ### Reset -/

/-- What R80, R230, R232, R269, R270, R274, R277, R287, R291 and R293 say of the package after reset; no launch, block or context is there, and nothing is in a queue. -/
structure Sys2Proof.Claim.AtReset (s : State) : Prop where
  time : s.time = 0
  empty : ∀ k, s.getTeam k = none ∧ s.getBlk k = none ∧ s.getLaunch k = none
  queues : ∀ q, (tget {} s.hub.queues q).head = (tget {} s.hub.queues q).tail ∧ (tget {} s.hub.tokenQueues q).tokens = []
  worlds : ∀ w, s.world w = if w = 0 then .open_ else .free
  owners : ∀ page, s.ownerOf s.pkg page = 0
  measured : ∀ k, s.mr k = 0
  locked : s.tumbler.unlocked = false ∧ s.tumbler.sessions = []
  budgets : ∀ k, (s.getCluster k).bud = 2 ^ 22
  samples : ∀ core q, (tget {} (s.getCore core).quarters q).sampctl = 0x00010000
  frequel : s.hub.frqh = 64 ∧ ∀ core e, hgState (tget {} (s.getCore core).hinges e).desc = 0
  power : s.power.pcap = 3400 ∧ s.power.breach = false ∧ s.power.floor = false ∧ s.power.ceil = false
  warnings : s.evwarn = 0x18404000

/-- The reset state and the state after a package reset, which leaves host memory and the other packages' memory as they were (the model's choice, log 41) and takes memory integrity from its strap (R272, log 44); both meet the invariants. -/
def Obligations.ResetState : Prop :=
  AtReset State.reset ∧ State.reset.memOk ∧ State.reset.worldOk ∧ State.reset.capOk ∧ State.reset.ownersOk ∧
  ∀ s : State, Completes .packageReset s fun t =>
    AtReset t ∧ t.pkg = s.pkg ∧ t.hostMem = s.hostMem ∧ (t.pm s.pkg).integrity = s.integrityNext ∧ t.integrityNext = s.integrityNext ∧ ∀ p, p ≠ s.pkg → t.pm p = s.pm p

/-! ### Steps -/

/-- No access of the step went down with its link, no snapshot comes, and no posted write or race record waits. -/
def Sys2Proof.Claim.quietAfter (p : State) : Prop :=
  p.xLost = none ∧ p.hub.firing = none ∧ p.hub.posted = [] ∧ ∀ k, (p.getCore k).raceQueue = []

/-- Context `k` waits, parked on `c`, and is the only one that does; no fault of a stream awaits a `join`. -/
def Sys2Proof.Claim.loneWaiter (p : State) (k : Nat) (tm : Team) (c : Park) : Prop :=
  p.getTeam k = some tm ∧ tm.key = k ∧ tm.parked = some c ∧ tm.stopped = false ∧ (∀ o ∈ tvals p.teamTbl, o.parked ≠ none → o = tm) ∧
    ∀ j b, p.getBlk j = some b → b.streamFaults = []

/-- What a context parked on `c` waits for has come (R206): its path's counter is at or below the operand, the latch has advanced, the monitor is triggered, the stream is over with its commands, a token has come for it, the queue takes a token; or, for a word that waits at issue, the counter leaves room (R28), its engine's FIFO has an entry that has come to no other context (R136), its commands are over (R133), a link moves data (log 38), or a trap's earlier stores wait for none (R221, R285). The other conditions have no line here. -/
def Sys2Proof.Claim.waitOver (p : State) (tm : Team) (c : Park) : Prop :=
  let b := (p.getBlk tm.blkKey).getD {}
  match c with
  | .path q n => tm.counter q ≤ n
  | .latch l g => (tget {} b.latches l).gen.toNat ≠ g
  | .monitor => tm.mon = .triggered
  | .join .mx => b.mxRun = false ∧ ∀ x ∈ b.mxFifo, x.origin = .mxStream → x.mtsr = true
  | .join .cp => b.cpRun = false ∧ ∀ x ∈ b.cpFifo, x.origin ≠ .cpStream
  | .qRecv q _ => let w := (tget {} p.hub.tokenQueues q).waiters
    w.idxOf tm.wid < w.length ∧ w.idxOf tm.wid < (tget {} p.hub.tokenQueues q).tokens.length
  | .qSend q _ _ => (tget {} p.hub.tokenQueues q).tokens.length < 255
  | .full q => tm.counter q < 255
  | .fifo e => (match e with
      | .mx => b.mxFifo.length
      | .cp => b.cpFifo.length) < 16 ∧ ∀ o ∈ p.ctxsOf tm.blkKey, o.key ≠ tm.key → o.promised ≠ some e
  | .streamDone => (∀ x ∈ b.mxFifo, x.origin ≠ tm.origin) ∧ ∀ x ∈ b.cpFifo, x.origin ≠ tm.origin
  | .link => ¬ noLink p
  | .trap _ => ¬ (noLink p ∧ ∃ a ∈ tm.inflight, ∃ w ∈ a.writes, ∃ q x, w.loc = .home q x ∧ q ≠ p.pkg)
  | .fork _ | .replay _ _ | .capture _ => False

/-- A context that waited has gone on as `u` (R207): it is parked no longer; the words of R206 end, `q.wait` with the token's word in its register, a trap that waited is entered (R221), and every other word is taken again; a scalar word that has been executed ahead then follows (`EndOfWord`). -/
def Sys2Proof.Claim.wentOn (p : State) (tm : Team) (c : Park) (u : Team) : Prop :=
  u.parked = none ∧ match c with
  | .path _ _ | .latch _ _ | .qSend _ _ _ => tm.inOrder → u.pc = tm.pc + 4
  | .qRecv q r => tm.inOrder → u.pc = tm.pc + 4 ∧ ∃ x, (tget {} p.hub.tokenQueues q).tokens[(tget {} p.hub.tokenQueues q).waiters.idxOf tm.wid]? = some x ∧
      (tm.pend = [] → u.rdS r = x.word)
  | .trap _ => let l := (p.getLaunch tm.launchUid).getD {}
    u.pc = l.code.textOff + l.trapent.getD 0 ∧ u.trapCtx ≠ none
  | _ => u.pc = tm.pc

/-- Time has passed after a step that led to `p`, and the model's own counters have moved (log 4). -/
def Sys2Proof.Claim.timePassed (p : State) (auto : Bool) : State :=
  { p with time := p.time + BitVec.ofNat 64 (Config.ticks p.freeCount), freeCount := p.freeCount + 1,
           sinceAuto := if auto then 0 else p.sinceAuto + 1, autoCount := if auto then p.autoCount + 1 else p.autoCount }

/-- After a step that led to `t` and in which the matrix engines then finished the commands of one cycle at their heads (R131, R136; where no head is one, nothing), with nothing else under way: time has passed, and some context has its turn (log 1, log 4). With nobody parked nothing else changes. The one context that is parked goes on if what it waits for has come, and stays as it is otherwise (R206, R207); one parked at a `fork` starts the stream once it is over (R334). -/
def Sys2Proof.Claim.goesOn (t u : State) (auto : Bool) : Prop :=
  let p := t.engines
  let turnTo := fun (v : State) => u = v ∨ ∃ n, u = v.serve n ∨ ∃ k, u = (v.focus k).serve n
  ((∀ k (b : Block) (x : MxEntry) (r : List MxEntry), t.getBlk k = some b → b.mxFifo = x :: r → b.oneCycle x = false) → p = t) ∧
  (quietAfter p →
    (NoneParked p → turnTo (timePassed p auto)) ∧
    (∀ k tm c, loneWaiter p k tm c →
      (waitOver p tm c → ∃ v, turnTo v ∧ ∃ x, v.getTeam k = some x ∧ wentOn p tm c x) ∧
      (¬ waitOver p tm c → (∀ e, c ≠ .fork e) → (∀ l q, c ≠ .replay l q) → (∀ n, c ≠ .capture n) → turnTo (timePassed p auto))) ∧
    (∀ e, loneWaiter p p.team.key p.team (.fork e) → p.team.kind = .team → p.blk.key = p.team.blkKey → p.blk.key ≠ 0 → streamKey p.blk.coreId e ≠ p.team.key →
      (p.blk.running e = true → turnTo (timePassed p auto)) ∧
      (p.blk.running e = false → ∃ v, turnTo v ∧ v.team.parked = none ∧ v.team.pc = p.team.pc + 4 ∧ v.blk.running e = true)))

/-- The running context's next word: the head of its decision queue where that begins at the pc with a vector word, and else what a fetch reads there (R20, R21). -/
def Sys2Proof.Claim.wordNext (s : State) (w : Word) : Prop :=
  (∃ e r, s.team.queue = e :: r ∧ e.pc = s.team.pc ∧ e.ran = none ∧ e.word = w) ∨
    ((∀ e r, s.team.queue = e :: r → ¬ (e.pc = s.team.pc ∧ e.ran = none)) ∧ s.fetchWord s.team.pc = .ok w)

/-- The step that led from `s` to `t` issued the pass of `n` cycles at the head of what the running team owed, `r` being left (R201, R202, R239): its quarter is held for it, the other teams of the quarter with a ready pass are passed over, and behind a captured region's last pass its hold begins. -/
def Sys2Proof.Claim.PassIssued (s t : State) (n : Nat) (r : List Nat) : Prop :=
  t.team = { s.team with owed := r, passed := 0, yielded := false, holdFor := if r = [] then 0 else s.team.holdFor,
                         parked := if r = [] ∧ s.team.holdFor ≠ 0 then some (.capture (s.freeCount + 1 + s.team.holdFor)) else s.team.parked } ∧
  (tget {} t.core.quarters s.team.qtr).rp = s.team.slot ∧
  t = { s with team := t.team, core := { s.core with quarters := t.core.quarters, hinges := t.core.hinges }, teams := t.teams } ∧
  ∀ k o, tget none s.teams k = some o → tget none t.teams k =
    some (if o.coreId = s.team.coreId ∧ o.qtr = s.team.qtr ∧ s.passReady o then { o with passed := min 511 (o.passed + n) } else o)

/-- R20, R21, R23, R56, R78, R112, R201, R222, R245, R299 (log 1): with nothing on the agenda and no step due before it, a step runs the context's next word as the instruction that it decodes to, where the context may execute it, with what the capture unit notes of it (R239); every other word runs as an illegal word, and one that cannot be fetched traps with its pointer (R227). A word from the decision queue is not fetched again; a limb instruction counts one pass. Owed passes come first, one a step, and behind the last of a candidate's word the next one follows. On its front-end's turn a team whose words wait to issue has the next one taken behind them, and so has one whose vector word its quarter would not choose now. -/
def Sys2Proof.Claim.StepRunsDecodedWordClaim : Prop :=
  ∀ s : State, s.agenda = [] → s.mayRun = true → s.sinceAuto < 16 →
    (s.frontTurn = true → s.team.ready = false ∨ s.team.ahead ≠ [] ∨ s.team.owed ≠ [] → ∃ u, step s = .next u ∧ goesOn s.takeAhead u false) ∧
    (s.frontTurn = false → ∀ n r, s.team.owed = n :: r → ∃ t u, step s = .next u ∧ PassIssued s t n r ∧
      (r ≠ [] ∨ s.team.cand = none → goesOn t u false) ∧
      ∀ c, s.team.cand = some c → r = [] →
        (∀ a b ws, c.words = a :: b :: ws → goesOn { t with team := { t.team with pc := c.entry, cand := some { c with words := b :: ws } } } u false) ∧
        (c.words.length ≤ 1 → goesOn { t with team := { t.team with pc := c.regionEnd, cand := none } } u false)) ∧
    (s.team.owed = [] → s.due = none → s.team.cand = none → s.streamOver = false → s.frontTurn = false ∨ (s.team.ready = true ∧ s.team.ahead = []) →
      ((∀ e r, s.team.queue = e :: r → ¬ (e.pc = s.team.pc ∧ e.ran = none)) → ∀ e, s.fetchWord s.team.pc = .error e → e ≠ .hole →
        ∃ u, step s = .next u ∧ goesOn ((noted s.fetchFill [(0, e)]).takeTrap { cls := e.cls, addr := mkPtr 7 0 s.team.pc, detail := e.detail }) u false) ∧
      ∀ w, wordNext s w →
        (∀ e r, s.team.queue = e :: r → e.pc = s.team.pc → e.ran = none → s.fetchFill = s) ∧
        (s.frontTurn = true → Instr.frontEnd (instrOf s.team.kind w) = false → s.passesThrough w = false → ∃ u, step s = .next u ∧ goesOn s.takeAhead u false) ∧
        (s.frontTurn = false ∨ Instr.frontEnd (instrOf s.team.kind w) = true ∨ s.passesThrough w = true →
          (∀ i, decode w = some i → Instr.allowedIn i s.team.kind = true →
            let p := s.fetchFill.beginWord i
            p = { s.fetchFill with team := { s.fetchFill.team with issuing := if Instr.limbWord i then 1 else s.fetchFill.team.passes, issWord := i,
                                                                   awaited := p.team.awaited } } ∧
            (∀ t, exec i p = .next t → ∃ u, step s = .next u ∧ goesOn (t.captureWord s.team i) u false ∧
              (s.team.capturing = none → t.captureWord s.team i = t)) ∧
            (∀ f, exec i p = .fault f → step s = .fault f)) ∧
          ((∀ i, decode w = some i → Instr.allowedIn i s.team.kind = false) →
            let p := s.fetchFill.beginWord (.illegalWord w)
            p = { s.fetchFill with team := { s.fetchFill.team with issuing := s.fetchFill.team.passes, issWord := .illegalWord w,
                                                                   awaited := p.team.awaited } } ∧
            ∀ t, exec (.illegalWord w) p = .next t → ∃ u, step s = .next u ∧ goesOn t u false)))

/-- Log 1: a step with an event at the head of the agenda is that event, taken off the agenda; an entry that would give the turn to a context which its unit does not choose (R20, R202), or to a front-end that has nothing to take, passes time alone. -/
def Sys2Proof.Claim.StepRunsEventClaim : Prop :=
  (∀ (s : State) (i : Instr) (r : List Act), s.agenda = .event i :: r → Instr.isEvent i = true →
    (∀ t, exec i { s with agenda := r } = .next t → ∃ u, step s = .next u ∧ goesOn t u true) ∧
    ∀ f, exec i { s with agenda := r } = .fault f → step s = .fault f) ∧
  ∀ (s : State) (k : Nat) (r : List Act), (s.agenda = .turn k :: r ∧ ({ s with agenda := r } : State).chosen k = false) ∨
      (s.agenda = .front k :: r ∧ ({ s with agenda := r } : State).unitPick (frontUnit k) = none) → NoneParked s → s.hub.firing = none →
    step s = .next { s with agenda := r, time := s.time + BitVec.ofNat 64 (Config.ticks s.freeCount), freeCount := s.freeCount + 1,
                            sinceAuto := s.sinceAuto + 1 }

/-- A step runs the decoded word (R56, R78, R299), or the event at the head of the agenda (log 1). -/
def Obligations.StepRunsInstructions : Prop := StepRunsDecodedWordClaim ∧ StepRunsEventClaim

/-- The words that the reference entries spell out decode to the instructions that they stand for. -/
def Obligations.WordsDecode : Prop :=
  decode 0x02184840 = some (.add (.v 6) (.v 9) (.v 4)) ∧ decode 0x06142001 = some (.addImm (.v 5) (.v 4) 1) ∧
  decode 0x6A000080 = some (.fork .cp) ∧ decode 0x62000100 = some .monWait ∧ decode 0x7A000010 = some .eret ∧
  decode 0x7D7003B0 = some (.tlbInv .pkg (.s 4)) ∧ decode 0x3802D000 = some (.bind (.s 2)) ∧ decode 0x00140003 = some (.brkpt 5) ∧
  decode 0x6D700080 = some (.cp 1 (.s 4) 0) ∧ decode 0x6018106C = some (.atom .add .die .ar (.v 6) (.v 2) 0) ∧
  decode 0x2C142202 = some (.cvt .i32 .f32 .rz (.v 5) (.v 4)) ∧ decode 0x69640100 = some (.latInit 2 (.s 1)) ∧
  decode 0x7D800180 = some (.hngSet 3 (.s 8)) ∧ decode 0xFFFFFFFF = none

/-- Every instruction of the table answers a next state in every state, but for an access to a physical address that the package does not have (R2, log 11); none is refused. -/
def Obligations.EveryInstructionRuns : Prop :=
  ∀ (i : Instr) (s : State), (∃ t, exec i s = .next t) ∨ exec i s = .fault .physicalHole

/-- Encoding and decoding agree: every well-formed word instruction has a word for both values of S, which decodes to it; and every word that decodes is the encoding of what it decodes to, so no bit is ignored. -/
def Obligations.DecodeEncode : Prop :=
  (∀ (b : Bool) (i : Instr), i.wf = true → Instr.isEvent i = false → (∀ c, i ≠ .trapEntry c) → (∀ w, i ≠ .illegalWord w) →
    (∀ u c r k o a, i ≠ .launchFailure u c r k o a) → ∃ w, encode b i = some w ∧ decode w = some i) ∧
  ∀ (w : Word) (i : Instr), decode w = some i → i.wf = true ∧ encode w.msb i = some w

/-! ### Invariants -/

/-- Every step keeps main and host memory in their canonical form, which is the model's own representation of memory (log 5). -/
def Obligations.StepKeepsMemoryForm : Prop := ∀ s t : State, s.memOk → step s = .next t → t.memOk

/-- R269, R270, R276, R293: every step keeps world 0 open, the package cap at or below its ceiling, and the page owner table free of entries that Tumbler refuses. -/
def Obligations.StepKeepsBounds : Prop :=
  ∀ s t : State, s.worldOk → s.capOk → s.ownersOk → step s = .next t → t.worldOk ∧ t.capOk ∧ t.ownersOk

/-- R269, R270, R274, R276, R277: only the step of its own event changes a measurement register, a world's state, a page's owner or the unlocked state. No word of a program and no other event does. -/
def Obligations.StepKeepsTrust : Prop :=
  ∀ s t : State, step s = .next t → s.headEvent ≠ some .packageReset →
    (s.tumbler.unlocked = true → t.tumbler.unlocked = true) ∧
    (t.tumbler.unlocked ≠ s.tumbler.unlocked → ∃ d, s.headEvent = some (.debugUnlock true d)) ∧
    (∀ k, t.mr k ≠ s.mr k → (∃ src d, s.headEvent = some (.extend ⟨src, k⟩ d)) ∨ (k = 5 ∧ ∃ d, s.headEvent = some (.debugUnlock true d))) ∧
    (∀ w, t.world w ≠ s.world w → (∃ p n, s.headEvent = some (.createWorld w p n)) ∨ ∃ n, s.headEvent = some (.destroyWorld w n)) ∧
    ∀ p q, t.ownerOf p q ≠ s.ownerOf p q → p = s.pkg ∧ ∃ e n, s.headEvent = some (.pageOwnerChange q e n)
end

