-- ==== Sys2Proof/Laws/State.lean ====
section
/-! SUPPORT. What each named update of the state, and of a context, leaves as it was: one lemma for each field. -/

namespace Sys2Proof.Machine

variable (s : State) (tm : Team)

/-! `State.modPm` -/

@[simp] theorem State.modPm_team (p : Nat) (f : PkgMem → PkgMem) : (s.modPm p f).team = s.team := rfl
@[simp] theorem State.modPm_blk (p : Nat) (f : PkgMem → PkgMem) : (s.modPm p f).blk = s.blk := rfl
@[simp] theorem State.modPm_core (p : Nat) (f : PkgMem → PkgMem) : (s.modPm p f).core = s.core := rfl
@[simp] theorem State.modPm_launch (p : Nat) (f : PkgMem → PkgMem) : (s.modPm p f).launch = s.launch := rfl
@[simp] theorem State.modPm_teams (p : Nat) (f : PkgMem → PkgMem) : (s.modPm p f).teams = s.teams := rfl
@[simp] theorem State.modPm_blocks (p : Nat) (f : PkgMem → PkgMem) : (s.modPm p f).blocks = s.blocks := rfl
@[simp] theorem State.modPm_cores (p : Nat) (f : PkgMem → PkgMem) : (s.modPm p f).cores = s.cores := rfl
@[simp] theorem State.modPm_launches (p : Nat) (f : PkgMem → PkgMem) : (s.modPm p f).launches = s.launches := rfl
@[simp] theorem State.modPm_clusters (p : Nat) (f : PkgMem → PkgMem) : (s.modPm p f).clusters = s.clusters := rfl
@[simp] theorem State.modPm_dies (p : Nat) (f : PkgMem → PkgMem) : (s.modPm p f).dies = s.dies := rfl
@[simp] theorem State.modPm_pkg (p : Nat) (f : PkgMem → PkgMem) : (s.modPm p f).pkg = s.pkg := rfl
@[simp] theorem State.modPm_hostMem (p : Nat) (f : PkgMem → PkgMem) : (s.modPm p f).hostMem = s.hostMem := rfl
@[simp] theorem State.modPm_hub (p : Nat) (f : PkgMem → PkgMem) : (s.modPm p f).hub = s.hub := rfl
@[simp] theorem State.modPm_tumbler (p : Nat) (f : PkgMem → PkgMem) : (s.modPm p f).tumbler = s.tumbler := rfl
@[simp] theorem State.modPm_links (p : Nat) (f : PkgMem → PkgMem) : (s.modPm p f).links = s.links := rfl
@[simp] theorem State.modPm_evwarn (p : Nat) (f : PkgMem → PkgMem) : (s.modPm p f).evwarn = s.evwarn := rfl
@[simp] theorem State.modPm_power (p : Nat) (f : PkgMem → PkgMem) : (s.modPm p f).power = s.power := rfl
@[simp] theorem State.modPm_time (p : Nat) (f : PkgMem → PkgMem) : (s.modPm p f).time = s.time := rfl
@[simp] theorem State.modPm_saved (p : Nat) (f : PkgMem → PkgMem) : (s.modPm p f).saved = s.saved := rfl
@[simp] theorem State.modPm_agenda (p : Nat) (f : PkgMem → PkgMem) : (s.modPm p f).agenda = s.agenda := rfl
@[simp] theorem State.modPm_integrityNext (p : Nat) (f : PkgMem → PkgMem) : (s.modPm p f).integrityNext = s.integrityNext := rfl
@[simp] theorem State.modPm_xLost (p : Nat) (f : PkgMem → PkgMem) : (s.modPm p f).xLost = s.xLost := rfl
@[simp] theorem State.modPm_lastUnit (p : Nat) (f : PkgMem → PkgMem) : (s.modPm p f).lastUnit = s.lastUnit := rfl
@[simp] theorem State.modPm_sinceAuto (p : Nat) (f : PkgMem → PkgMem) : (s.modPm p f).sinceAuto = s.sinceAuto := rfl
@[simp] theorem State.modPm_autoCount (p : Nat) (f : PkgMem → PkgMem) : (s.modPm p f).autoCount = s.autoCount := rfl
@[simp] theorem State.modPm_freeCount (p : Nat) (f : PkgMem → PkgMem) : (s.modPm p f).freeCount = s.freeCount := rfl

/-! `State.modCluster` -/

@[simp] theorem State.modCluster_team (k : Nat) (f : Cluster → Cluster) : (s.modCluster k f).team = s.team := rfl
@[simp] theorem State.modCluster_blk (k : Nat) (f : Cluster → Cluster) : (s.modCluster k f).blk = s.blk := rfl
@[simp] theorem State.modCluster_core (k : Nat) (f : Cluster → Cluster) : (s.modCluster k f).core = s.core := rfl
@[simp] theorem State.modCluster_launch (k : Nat) (f : Cluster → Cluster) : (s.modCluster k f).launch = s.launch := rfl
@[simp] theorem State.modCluster_teams (k : Nat) (f : Cluster → Cluster) : (s.modCluster k f).teams = s.teams := rfl
@[simp] theorem State.modCluster_blocks (k : Nat) (f : Cluster → Cluster) : (s.modCluster k f).blocks = s.blocks := rfl
@[simp] theorem State.modCluster_cores (k : Nat) (f : Cluster → Cluster) : (s.modCluster k f).cores = s.cores := rfl
@[simp] theorem State.modCluster_launches (k : Nat) (f : Cluster → Cluster) : (s.modCluster k f).launches = s.launches := rfl
@[simp] theorem State.modCluster_dies (k : Nat) (f : Cluster → Cluster) : (s.modCluster k f).dies = s.dies := rfl
@[simp] theorem State.modCluster_pkg (k : Nat) (f : Cluster → Cluster) : (s.modCluster k f).pkg = s.pkg := rfl
@[simp] theorem State.modCluster_mem (k : Nat) (f : Cluster → Cluster) : (s.modCluster k f).mem = s.mem := rfl
@[simp] theorem State.modCluster_hostMem (k : Nat) (f : Cluster → Cluster) : (s.modCluster k f).hostMem = s.hostMem := rfl
@[simp] theorem State.modCluster_hub (k : Nat) (f : Cluster → Cluster) : (s.modCluster k f).hub = s.hub := rfl
@[simp] theorem State.modCluster_tumbler (k : Nat) (f : Cluster → Cluster) : (s.modCluster k f).tumbler = s.tumbler := rfl
@[simp] theorem State.modCluster_links (k : Nat) (f : Cluster → Cluster) : (s.modCluster k f).links = s.links := rfl
@[simp] theorem State.modCluster_evwarn (k : Nat) (f : Cluster → Cluster) : (s.modCluster k f).evwarn = s.evwarn := rfl
@[simp] theorem State.modCluster_power (k : Nat) (f : Cluster → Cluster) : (s.modCluster k f).power = s.power := rfl
@[simp] theorem State.modCluster_time (k : Nat) (f : Cluster → Cluster) : (s.modCluster k f).time = s.time := rfl
@[simp] theorem State.modCluster_saved (k : Nat) (f : Cluster → Cluster) : (s.modCluster k f).saved = s.saved := rfl
@[simp] theorem State.modCluster_agenda (k : Nat) (f : Cluster → Cluster) : (s.modCluster k f).agenda = s.agenda := rfl
@[simp] theorem State.modCluster_integrityNext (k : Nat) (f : Cluster → Cluster) : (s.modCluster k f).integrityNext = s.integrityNext := rfl
@[simp] theorem State.modCluster_xLost (k : Nat) (f : Cluster → Cluster) : (s.modCluster k f).xLost = s.xLost := rfl
@[simp] theorem State.modCluster_lastUnit (k : Nat) (f : Cluster → Cluster) : (s.modCluster k f).lastUnit = s.lastUnit := rfl
@[simp] theorem State.modCluster_sinceAuto (k : Nat) (f : Cluster → Cluster) : (s.modCluster k f).sinceAuto = s.sinceAuto := rfl
@[simp] theorem State.modCluster_autoCount (k : Nat) (f : Cluster → Cluster) : (s.modCluster k f).autoCount = s.autoCount := rfl
@[simp] theorem State.modCluster_freeCount (k : Nat) (f : Cluster → Cluster) : (s.modCluster k f).freeCount = s.freeCount := rfl

/-! `State.modDie` -/

@[simp] theorem State.modDie_team (k : Nat) (f : Die → Die) : (s.modDie k f).team = s.team := rfl
@[simp] theorem State.modDie_blk (k : Nat) (f : Die → Die) : (s.modDie k f).blk = s.blk := rfl
@[simp] theorem State.modDie_core (k : Nat) (f : Die → Die) : (s.modDie k f).core = s.core := rfl
@[simp] theorem State.modDie_launch (k : Nat) (f : Die → Die) : (s.modDie k f).launch = s.launch := rfl
@[simp] theorem State.modDie_teams (k : Nat) (f : Die → Die) : (s.modDie k f).teams = s.teams := rfl
@[simp] theorem State.modDie_blocks (k : Nat) (f : Die → Die) : (s.modDie k f).blocks = s.blocks := rfl
@[simp] theorem State.modDie_cores (k : Nat) (f : Die → Die) : (s.modDie k f).cores = s.cores := rfl
@[simp] theorem State.modDie_launches (k : Nat) (f : Die → Die) : (s.modDie k f).launches = s.launches := rfl
@[simp] theorem State.modDie_clusters (k : Nat) (f : Die → Die) : (s.modDie k f).clusters = s.clusters := rfl
@[simp] theorem State.modDie_pkg (k : Nat) (f : Die → Die) : (s.modDie k f).pkg = s.pkg := rfl
@[simp] theorem State.modDie_mem (k : Nat) (f : Die → Die) : (s.modDie k f).mem = s.mem := rfl
@[simp] theorem State.modDie_hostMem (k : Nat) (f : Die → Die) : (s.modDie k f).hostMem = s.hostMem := rfl
@[simp] theorem State.modDie_hub (k : Nat) (f : Die → Die) : (s.modDie k f).hub = s.hub := rfl
@[simp] theorem State.modDie_tumbler (k : Nat) (f : Die → Die) : (s.modDie k f).tumbler = s.tumbler := rfl
@[simp] theorem State.modDie_links (k : Nat) (f : Die → Die) : (s.modDie k f).links = s.links := rfl
@[simp] theorem State.modDie_evwarn (k : Nat) (f : Die → Die) : (s.modDie k f).evwarn = s.evwarn := rfl
@[simp] theorem State.modDie_power (k : Nat) (f : Die → Die) : (s.modDie k f).power = s.power := rfl
@[simp] theorem State.modDie_time (k : Nat) (f : Die → Die) : (s.modDie k f).time = s.time := rfl
@[simp] theorem State.modDie_saved (k : Nat) (f : Die → Die) : (s.modDie k f).saved = s.saved := rfl
@[simp] theorem State.modDie_agenda (k : Nat) (f : Die → Die) : (s.modDie k f).agenda = s.agenda := rfl
@[simp] theorem State.modDie_integrityNext (k : Nat) (f : Die → Die) : (s.modDie k f).integrityNext = s.integrityNext := rfl
@[simp] theorem State.modDie_xLost (k : Nat) (f : Die → Die) : (s.modDie k f).xLost = s.xLost := rfl
@[simp] theorem State.modDie_lastUnit (k : Nat) (f : Die → Die) : (s.modDie k f).lastUnit = s.lastUnit := rfl
@[simp] theorem State.modDie_sinceAuto (k : Nat) (f : Die → Die) : (s.modDie k f).sinceAuto = s.sinceAuto := rfl
@[simp] theorem State.modDie_autoCount (k : Nat) (f : Die → Die) : (s.modDie k f).autoCount = s.autoCount := rfl
@[simp] theorem State.modDie_freeCount (k : Nat) (f : Die → Die) : (s.modDie k f).freeCount = s.freeCount := rfl

/-! `State.modQueue` -/

@[simp] theorem State.modQueue_team (q : Nat) (f : TokenQueue → TokenQueue) : (s.modQueue q f).team = s.team := rfl
@[simp] theorem State.modQueue_blk (q : Nat) (f : TokenQueue → TokenQueue) : (s.modQueue q f).blk = s.blk := rfl
@[simp] theorem State.modQueue_core (q : Nat) (f : TokenQueue → TokenQueue) : (s.modQueue q f).core = s.core := rfl
@[simp] theorem State.modQueue_launch (q : Nat) (f : TokenQueue → TokenQueue) : (s.modQueue q f).launch = s.launch := rfl
@[simp] theorem State.modQueue_teams (q : Nat) (f : TokenQueue → TokenQueue) : (s.modQueue q f).teams = s.teams := rfl
@[simp] theorem State.modQueue_blocks (q : Nat) (f : TokenQueue → TokenQueue) : (s.modQueue q f).blocks = s.blocks := rfl
@[simp] theorem State.modQueue_cores (q : Nat) (f : TokenQueue → TokenQueue) : (s.modQueue q f).cores = s.cores := rfl
@[simp] theorem State.modQueue_launches (q : Nat) (f : TokenQueue → TokenQueue) : (s.modQueue q f).launches = s.launches := rfl
@[simp] theorem State.modQueue_clusters (q : Nat) (f : TokenQueue → TokenQueue) : (s.modQueue q f).clusters = s.clusters := rfl
@[simp] theorem State.modQueue_dies (q : Nat) (f : TokenQueue → TokenQueue) : (s.modQueue q f).dies = s.dies := rfl
@[simp] theorem State.modQueue_pkg (q : Nat) (f : TokenQueue → TokenQueue) : (s.modQueue q f).pkg = s.pkg := rfl
@[simp] theorem State.modQueue_mem (q : Nat) (f : TokenQueue → TokenQueue) : (s.modQueue q f).mem = s.mem := rfl
@[simp] theorem State.modQueue_hostMem (q : Nat) (f : TokenQueue → TokenQueue) : (s.modQueue q f).hostMem = s.hostMem := rfl
@[simp] theorem State.modQueue_tumbler (q : Nat) (f : TokenQueue → TokenQueue) : (s.modQueue q f).tumbler = s.tumbler := rfl
@[simp] theorem State.modQueue_links (q : Nat) (f : TokenQueue → TokenQueue) : (s.modQueue q f).links = s.links := rfl
@[simp] theorem State.modQueue_evwarn (q : Nat) (f : TokenQueue → TokenQueue) : (s.modQueue q f).evwarn = s.evwarn := rfl
@[simp] theorem State.modQueue_power (q : Nat) (f : TokenQueue → TokenQueue) : (s.modQueue q f).power = s.power := rfl
@[simp] theorem State.modQueue_time (q : Nat) (f : TokenQueue → TokenQueue) : (s.modQueue q f).time = s.time := rfl
@[simp] theorem State.modQueue_saved (q : Nat) (f : TokenQueue → TokenQueue) : (s.modQueue q f).saved = s.saved := rfl
@[simp] theorem State.modQueue_agenda (q : Nat) (f : TokenQueue → TokenQueue) : (s.modQueue q f).agenda = s.agenda := rfl
@[simp] theorem State.modQueue_integrityNext (q : Nat) (f : TokenQueue → TokenQueue) : (s.modQueue q f).integrityNext = s.integrityNext := rfl
@[simp] theorem State.modQueue_xLost (q : Nat) (f : TokenQueue → TokenQueue) : (s.modQueue q f).xLost = s.xLost := rfl
@[simp] theorem State.modQueue_lastUnit (q : Nat) (f : TokenQueue → TokenQueue) : (s.modQueue q f).lastUnit = s.lastUnit := rfl
@[simp] theorem State.modQueue_sinceAuto (q : Nat) (f : TokenQueue → TokenQueue) : (s.modQueue q f).sinceAuto = s.sinceAuto := rfl
@[simp] theorem State.modQueue_autoCount (q : Nat) (f : TokenQueue → TokenQueue) : (s.modQueue q f).autoCount = s.autoCount := rfl
@[simp] theorem State.modQueue_freeCount (q : Nat) (f : TokenQueue → TokenQueue) : (s.modQueue q f).freeCount = s.freeCount := rfl

/-! `State.park` -/

@[simp] theorem State.park_blk (c : Park) : (s.park c).blk = s.blk := rfl
@[simp] theorem State.park_core (c : Park) : (s.park c).core = s.core := rfl
@[simp] theorem State.park_launch (c : Park) : (s.park c).launch = s.launch := rfl
@[simp] theorem State.park_teams (c : Park) : (s.park c).teams = s.teams := rfl
@[simp] theorem State.park_blocks (c : Park) : (s.park c).blocks = s.blocks := rfl
@[simp] theorem State.park_cores (c : Park) : (s.park c).cores = s.cores := rfl
@[simp] theorem State.park_launches (c : Park) : (s.park c).launches = s.launches := rfl
@[simp] theorem State.park_clusters (c : Park) : (s.park c).clusters = s.clusters := rfl
@[simp] theorem State.park_dies (c : Park) : (s.park c).dies = s.dies := rfl
@[simp] theorem State.park_pkg (c : Park) : (s.park c).pkg = s.pkg := rfl
@[simp] theorem State.park_mem (c : Park) : (s.park c).mem = s.mem := rfl
@[simp] theorem State.park_hostMem (c : Park) : (s.park c).hostMem = s.hostMem := rfl
@[simp] theorem State.park_hub (c : Park) : (s.park c).hub = s.hub := rfl
@[simp] theorem State.park_tumbler (c : Park) : (s.park c).tumbler = s.tumbler := rfl
@[simp] theorem State.park_links (c : Park) : (s.park c).links = s.links := rfl
@[simp] theorem State.park_evwarn (c : Park) : (s.park c).evwarn = s.evwarn := rfl
@[simp] theorem State.park_power (c : Park) : (s.park c).power = s.power := rfl
@[simp] theorem State.park_time (c : Park) : (s.park c).time = s.time := rfl
@[simp] theorem State.park_saved (c : Park) : (s.park c).saved = s.saved := rfl
@[simp] theorem State.park_agenda (c : Park) : (s.park c).agenda = s.agenda := rfl
@[simp] theorem State.park_integrityNext (c : Park) : (s.park c).integrityNext = s.integrityNext := rfl
@[simp] theorem State.park_xLost (c : Park) : (s.park c).xLost = s.xLost := rfl
@[simp] theorem State.park_lastUnit (c : Park) : (s.park c).lastUnit = s.lastUnit := rfl
@[simp] theorem State.park_sinceAuto (c : Park) : (s.park c).sinceAuto = s.sinceAuto := rfl
@[simp] theorem State.park_autoCount (c : Park) : (s.park c).autoCount = s.autoCount := rfl
@[simp] theorem State.park_freeCount (c : Park) : (s.park c).freeCount = s.freeCount := rfl

/-! `State.setFair` -/

@[simp] theorem State.setFair_blk (n : Nat) : (s.setFair n).blk = s.blk := rfl
@[simp] theorem State.setFair_core (n : Nat) : (s.setFair n).core = s.core := rfl
@[simp] theorem State.setFair_launch (n : Nat) : (s.setFair n).launch = s.launch := rfl
@[simp] theorem State.setFair_teams (n : Nat) : (s.setFair n).teams = s.teams := rfl
@[simp] theorem State.setFair_blocks (n : Nat) : (s.setFair n).blocks = s.blocks := rfl
@[simp] theorem State.setFair_cores (n : Nat) : (s.setFair n).cores = s.cores := rfl
@[simp] theorem State.setFair_launches (n : Nat) : (s.setFair n).launches = s.launches := rfl
@[simp] theorem State.setFair_clusters (n : Nat) : (s.setFair n).clusters = s.clusters := rfl
@[simp] theorem State.setFair_dies (n : Nat) : (s.setFair n).dies = s.dies := rfl
@[simp] theorem State.setFair_pkg (n : Nat) : (s.setFair n).pkg = s.pkg := rfl
@[simp] theorem State.setFair_mem (n : Nat) : (s.setFair n).mem = s.mem := rfl
@[simp] theorem State.setFair_hostMem (n : Nat) : (s.setFair n).hostMem = s.hostMem := rfl
@[simp] theorem State.setFair_hub (n : Nat) : (s.setFair n).hub = s.hub := rfl
@[simp] theorem State.setFair_tumbler (n : Nat) : (s.setFair n).tumbler = s.tumbler := rfl
@[simp] theorem State.setFair_links (n : Nat) : (s.setFair n).links = s.links := rfl
@[simp] theorem State.setFair_evwarn (n : Nat) : (s.setFair n).evwarn = s.evwarn := rfl
@[simp] theorem State.setFair_power (n : Nat) : (s.setFair n).power = s.power := rfl
@[simp] theorem State.setFair_time (n : Nat) : (s.setFair n).time = s.time := rfl
@[simp] theorem State.setFair_saved (n : Nat) : (s.setFair n).saved = s.saved := rfl
@[simp] theorem State.setFair_agenda (n : Nat) : (s.setFair n).agenda = s.agenda := rfl
@[simp] theorem State.setFair_integrityNext (n : Nat) : (s.setFair n).integrityNext = s.integrityNext := rfl
@[simp] theorem State.setFair_xLost (n : Nat) : (s.setFair n).xLost = s.xLost := rfl
@[simp] theorem State.setFair_lastUnit (n : Nat) : (s.setFair n).lastUnit = s.lastUnit := rfl
@[simp] theorem State.setFair_sinceAuto (n : Nat) : (s.setFair n).sinceAuto = s.sinceAuto := rfl
@[simp] theorem State.setFair_autoCount (n : Nat) : (s.setFair n).autoCount = s.autoCount := rfl
@[simp] theorem State.setFair_freeCount (n : Nat) : (s.setFair n).freeCount = s.freeCount := rfl

/-! `State.putHinge` -/

@[simp] theorem State.putHinge_team (e : Nat) (h : Hinge) : (s.putHinge e h).team = s.team := rfl
@[simp] theorem State.putHinge_blk (e : Nat) (h : Hinge) : (s.putHinge e h).blk = s.blk := rfl
@[simp] theorem State.putHinge_launch (e : Nat) (h : Hinge) : (s.putHinge e h).launch = s.launch := rfl
@[simp] theorem State.putHinge_teams (e : Nat) (h : Hinge) : (s.putHinge e h).teams = s.teams := rfl
@[simp] theorem State.putHinge_blocks (e : Nat) (h : Hinge) : (s.putHinge e h).blocks = s.blocks := rfl
@[simp] theorem State.putHinge_cores (e : Nat) (h : Hinge) : (s.putHinge e h).cores = s.cores := rfl
@[simp] theorem State.putHinge_launches (e : Nat) (h : Hinge) : (s.putHinge e h).launches = s.launches := rfl
@[simp] theorem State.putHinge_clusters (e : Nat) (h : Hinge) : (s.putHinge e h).clusters = s.clusters := rfl
@[simp] theorem State.putHinge_dies (e : Nat) (h : Hinge) : (s.putHinge e h).dies = s.dies := rfl
@[simp] theorem State.putHinge_pkg (e : Nat) (h : Hinge) : (s.putHinge e h).pkg = s.pkg := rfl
@[simp] theorem State.putHinge_mem (e : Nat) (h : Hinge) : (s.putHinge e h).mem = s.mem := rfl
@[simp] theorem State.putHinge_hostMem (e : Nat) (h : Hinge) : (s.putHinge e h).hostMem = s.hostMem := rfl
@[simp] theorem State.putHinge_hub (e : Nat) (h : Hinge) : (s.putHinge e h).hub = s.hub := rfl
@[simp] theorem State.putHinge_tumbler (e : Nat) (h : Hinge) : (s.putHinge e h).tumbler = s.tumbler := rfl
@[simp] theorem State.putHinge_links (e : Nat) (h : Hinge) : (s.putHinge e h).links = s.links := rfl
@[simp] theorem State.putHinge_evwarn (e : Nat) (h : Hinge) : (s.putHinge e h).evwarn = s.evwarn := rfl
@[simp] theorem State.putHinge_power (e : Nat) (h : Hinge) : (s.putHinge e h).power = s.power := rfl
@[simp] theorem State.putHinge_time (e : Nat) (h : Hinge) : (s.putHinge e h).time = s.time := rfl
@[simp] theorem State.putHinge_saved (e : Nat) (h : Hinge) : (s.putHinge e h).saved = s.saved := rfl
@[simp] theorem State.putHinge_agenda (e : Nat) (h : Hinge) : (s.putHinge e h).agenda = s.agenda := rfl
@[simp] theorem State.putHinge_integrityNext (e : Nat) (h : Hinge) : (s.putHinge e h).integrityNext = s.integrityNext := rfl
@[simp] theorem State.putHinge_xLost (e : Nat) (h : Hinge) : (s.putHinge e h).xLost = s.xLost := rfl
@[simp] theorem State.putHinge_lastUnit (e : Nat) (h : Hinge) : (s.putHinge e h).lastUnit = s.lastUnit := rfl
@[simp] theorem State.putHinge_sinceAuto (e : Nat) (h : Hinge) : (s.putHinge e h).sinceAuto = s.sinceAuto := rfl
@[simp] theorem State.putHinge_autoCount (e : Nat) (h : Hinge) : (s.putHinge e h).autoCount = s.autoCount := rfl
@[simp] theorem State.putHinge_freeCount (e : Nat) (h : Hinge) : (s.putHinge e h).freeCount = s.freeCount := rfl

/-! `State.raise` -/

@[simp] theorem State.raise_team (v : Nat) : (s.raise v).team = s.team := rfl
@[simp] theorem State.raise_blk (v : Nat) : (s.raise v).blk = s.blk := rfl
@[simp] theorem State.raise_core (v : Nat) : (s.raise v).core = s.core := rfl
@[simp] theorem State.raise_launch (v : Nat) : (s.raise v).launch = s.launch := rfl
@[simp] theorem State.raise_teams (v : Nat) : (s.raise v).teams = s.teams := rfl
@[simp] theorem State.raise_blocks (v : Nat) : (s.raise v).blocks = s.blocks := rfl
@[simp] theorem State.raise_cores (v : Nat) : (s.raise v).cores = s.cores := rfl
@[simp] theorem State.raise_launches (v : Nat) : (s.raise v).launches = s.launches := rfl
@[simp] theorem State.raise_clusters (v : Nat) : (s.raise v).clusters = s.clusters := rfl
@[simp] theorem State.raise_dies (v : Nat) : (s.raise v).dies = s.dies := rfl
@[simp] theorem State.raise_pkg (v : Nat) : (s.raise v).pkg = s.pkg := rfl
@[simp] theorem State.raise_mem (v : Nat) : (s.raise v).mem = s.mem := rfl
@[simp] theorem State.raise_hostMem (v : Nat) : (s.raise v).hostMem = s.hostMem := rfl
@[simp] theorem State.raise_tumbler (v : Nat) : (s.raise v).tumbler = s.tumbler := rfl
@[simp] theorem State.raise_links (v : Nat) : (s.raise v).links = s.links := rfl
@[simp] theorem State.raise_evwarn (v : Nat) : (s.raise v).evwarn = s.evwarn := rfl
@[simp] theorem State.raise_power (v : Nat) : (s.raise v).power = s.power := rfl
@[simp] theorem State.raise_time (v : Nat) : (s.raise v).time = s.time := rfl
@[simp] theorem State.raise_saved (v : Nat) : (s.raise v).saved = s.saved := rfl
@[simp] theorem State.raise_agenda (v : Nat) : (s.raise v).agenda = s.agenda := rfl
@[simp] theorem State.raise_integrityNext (v : Nat) : (s.raise v).integrityNext = s.integrityNext := rfl
@[simp] theorem State.raise_xLost (v : Nat) : (s.raise v).xLost = s.xLost := rfl
@[simp] theorem State.raise_lastUnit (v : Nat) : (s.raise v).lastUnit = s.lastUnit := rfl
@[simp] theorem State.raise_sinceAuto (v : Nat) : (s.raise v).sinceAuto = s.sinceAuto := rfl
@[simp] theorem State.raise_autoCount (v : Nat) : (s.raise v).autoCount = s.autoCount := rfl
@[simp] theorem State.raise_freeCount (v : Nat) : (s.raise v).freeCount = s.freeCount := rfl

/-! `State.reply` -/

@[simp] theorem State.reply_team (r : Reply) : (s.reply r).team = s.team := rfl
@[simp] theorem State.reply_blk (r : Reply) : (s.reply r).blk = s.blk := rfl
@[simp] theorem State.reply_core (r : Reply) : (s.reply r).core = s.core := rfl
@[simp] theorem State.reply_launch (r : Reply) : (s.reply r).launch = s.launch := rfl
@[simp] theorem State.reply_teams (r : Reply) : (s.reply r).teams = s.teams := rfl
@[simp] theorem State.reply_blocks (r : Reply) : (s.reply r).blocks = s.blocks := rfl
@[simp] theorem State.reply_cores (r : Reply) : (s.reply r).cores = s.cores := rfl
@[simp] theorem State.reply_launches (r : Reply) : (s.reply r).launches = s.launches := rfl
@[simp] theorem State.reply_clusters (r : Reply) : (s.reply r).clusters = s.clusters := rfl
@[simp] theorem State.reply_dies (r : Reply) : (s.reply r).dies = s.dies := rfl
@[simp] theorem State.reply_pkg (r : Reply) : (s.reply r).pkg = s.pkg := rfl
@[simp] theorem State.reply_mem (r : Reply) : (s.reply r).mem = s.mem := rfl
@[simp] theorem State.reply_hostMem (r : Reply) : (s.reply r).hostMem = s.hostMem := rfl
@[simp] theorem State.reply_hub (r : Reply) : (s.reply r).hub = s.hub := rfl
@[simp] theorem State.reply_links (r : Reply) : (s.reply r).links = s.links := rfl
@[simp] theorem State.reply_evwarn (r : Reply) : (s.reply r).evwarn = s.evwarn := rfl
@[simp] theorem State.reply_power (r : Reply) : (s.reply r).power = s.power := rfl
@[simp] theorem State.reply_time (r : Reply) : (s.reply r).time = s.time := rfl
@[simp] theorem State.reply_saved (r : Reply) : (s.reply r).saved = s.saved := rfl
@[simp] theorem State.reply_agenda (r : Reply) : (s.reply r).agenda = s.agenda := rfl
@[simp] theorem State.reply_integrityNext (r : Reply) : (s.reply r).integrityNext = s.integrityNext := rfl
@[simp] theorem State.reply_xLost (r : Reply) : (s.reply r).xLost = s.xLost := rfl
@[simp] theorem State.reply_lastUnit (r : Reply) : (s.reply r).lastUnit = s.lastUnit := rfl
@[simp] theorem State.reply_sinceAuto (r : Reply) : (s.reply r).sinceAuto = s.sinceAuto := rfl
@[simp] theorem State.reply_autoCount (r : Reply) : (s.reply r).autoCount = s.autoCount := rfl
@[simp] theorem State.reply_freeCount (r : Reply) : (s.reply r).freeCount = s.freeCount := rfl

/-! `State.extendMr` -/

@[simp] theorem State.extendMr_team (k : Nat) (d : BitVec 512) : (s.extendMr k d).team = s.team := by unfold State.extendMr; rfl
@[simp] theorem State.extendMr_blk (k : Nat) (d : BitVec 512) : (s.extendMr k d).blk = s.blk := by unfold State.extendMr; rfl
@[simp] theorem State.extendMr_core (k : Nat) (d : BitVec 512) : (s.extendMr k d).core = s.core := by unfold State.extendMr; rfl
@[simp] theorem State.extendMr_launch (k : Nat) (d : BitVec 512) : (s.extendMr k d).launch = s.launch := by unfold State.extendMr; rfl
@[simp] theorem State.extendMr_teams (k : Nat) (d : BitVec 512) : (s.extendMr k d).teams = s.teams := by unfold State.extendMr; rfl
@[simp] theorem State.extendMr_blocks (k : Nat) (d : BitVec 512) : (s.extendMr k d).blocks = s.blocks := by unfold State.extendMr; rfl
@[simp] theorem State.extendMr_cores (k : Nat) (d : BitVec 512) : (s.extendMr k d).cores = s.cores := by unfold State.extendMr; rfl
@[simp] theorem State.extendMr_launches (k : Nat) (d : BitVec 512) : (s.extendMr k d).launches = s.launches := by unfold State.extendMr; rfl
@[simp] theorem State.extendMr_clusters (k : Nat) (d : BitVec 512) : (s.extendMr k d).clusters = s.clusters := by unfold State.extendMr; rfl
@[simp] theorem State.extendMr_dies (k : Nat) (d : BitVec 512) : (s.extendMr k d).dies = s.dies := by unfold State.extendMr; rfl
@[simp] theorem State.extendMr_pkg (k : Nat) (d : BitVec 512) : (s.extendMr k d).pkg = s.pkg := by unfold State.extendMr; rfl
@[simp] theorem State.extendMr_mem (k : Nat) (d : BitVec 512) : (s.extendMr k d).mem = s.mem := by unfold State.extendMr; rfl
@[simp] theorem State.extendMr_hostMem (k : Nat) (d : BitVec 512) : (s.extendMr k d).hostMem = s.hostMem := by unfold State.extendMr; rfl
@[simp] theorem State.extendMr_hub (k : Nat) (d : BitVec 512) : (s.extendMr k d).hub = s.hub := by unfold State.extendMr; rfl
@[simp] theorem State.extendMr_links (k : Nat) (d : BitVec 512) : (s.extendMr k d).links = s.links := by unfold State.extendMr; rfl
@[simp] theorem State.extendMr_evwarn (k : Nat) (d : BitVec 512) : (s.extendMr k d).evwarn = s.evwarn := by unfold State.extendMr; rfl
@[simp] theorem State.extendMr_power (k : Nat) (d : BitVec 512) : (s.extendMr k d).power = s.power := by unfold State.extendMr; rfl
@[simp] theorem State.extendMr_time (k : Nat) (d : BitVec 512) : (s.extendMr k d).time = s.time := by unfold State.extendMr; rfl
@[simp] theorem State.extendMr_saved (k : Nat) (d : BitVec 512) : (s.extendMr k d).saved = s.saved := by unfold State.extendMr; rfl
@[simp] theorem State.extendMr_agenda (k : Nat) (d : BitVec 512) : (s.extendMr k d).agenda = s.agenda := by unfold State.extendMr; rfl
@[simp] theorem State.extendMr_xLost (k : Nat) (d : BitVec 512) : (s.extendMr k d).xLost = s.xLost := by unfold State.extendMr; rfl
@[simp] theorem State.extendMr_lastUnit (k : Nat) (d : BitVec 512) : (s.extendMr k d).lastUnit = s.lastUnit := by unfold State.extendMr; rfl
@[simp] theorem State.extendMr_sinceAuto (k : Nat) (d : BitVec 512) : (s.extendMr k d).sinceAuto = s.sinceAuto := by unfold State.extendMr; rfl
@[simp] theorem State.extendMr_autoCount (k : Nat) (d : BitVec 512) : (s.extendMr k d).autoCount = s.autoCount := by unfold State.extendMr; rfl
@[simp] theorem State.extendMr_freeCount (k : Nat) (d : BitVec 512) : (s.extendMr k d).freeCount = s.freeCount := by unfold State.extendMr; rfl

/-! `State.modIde` -/

@[simp] theorem State.modIde_team (dir sub : Nat) (f : IdeKey → IdeKey) : (s.modIde dir sub f).team = s.team := rfl
@[simp] theorem State.modIde_blk (dir sub : Nat) (f : IdeKey → IdeKey) : (s.modIde dir sub f).blk = s.blk := rfl
@[simp] theorem State.modIde_core (dir sub : Nat) (f : IdeKey → IdeKey) : (s.modIde dir sub f).core = s.core := rfl
@[simp] theorem State.modIde_launch (dir sub : Nat) (f : IdeKey → IdeKey) : (s.modIde dir sub f).launch = s.launch := rfl
@[simp] theorem State.modIde_teams (dir sub : Nat) (f : IdeKey → IdeKey) : (s.modIde dir sub f).teams = s.teams := rfl
@[simp] theorem State.modIde_blocks (dir sub : Nat) (f : IdeKey → IdeKey) : (s.modIde dir sub f).blocks = s.blocks := rfl
@[simp] theorem State.modIde_cores (dir sub : Nat) (f : IdeKey → IdeKey) : (s.modIde dir sub f).cores = s.cores := rfl
@[simp] theorem State.modIde_launches (dir sub : Nat) (f : IdeKey → IdeKey) : (s.modIde dir sub f).launches = s.launches := rfl
@[simp] theorem State.modIde_clusters (dir sub : Nat) (f : IdeKey → IdeKey) : (s.modIde dir sub f).clusters = s.clusters := rfl
@[simp] theorem State.modIde_dies (dir sub : Nat) (f : IdeKey → IdeKey) : (s.modIde dir sub f).dies = s.dies := rfl
@[simp] theorem State.modIde_pkg (dir sub : Nat) (f : IdeKey → IdeKey) : (s.modIde dir sub f).pkg = s.pkg := rfl
@[simp] theorem State.modIde_mem (dir sub : Nat) (f : IdeKey → IdeKey) : (s.modIde dir sub f).mem = s.mem := rfl
@[simp] theorem State.modIde_hostMem (dir sub : Nat) (f : IdeKey → IdeKey) : (s.modIde dir sub f).hostMem = s.hostMem := rfl
@[simp] theorem State.modIde_hub (dir sub : Nat) (f : IdeKey → IdeKey) : (s.modIde dir sub f).hub = s.hub := rfl
@[simp] theorem State.modIde_links (dir sub : Nat) (f : IdeKey → IdeKey) : (s.modIde dir sub f).links = s.links := rfl
@[simp] theorem State.modIde_evwarn (dir sub : Nat) (f : IdeKey → IdeKey) : (s.modIde dir sub f).evwarn = s.evwarn := rfl
@[simp] theorem State.modIde_power (dir sub : Nat) (f : IdeKey → IdeKey) : (s.modIde dir sub f).power = s.power := rfl
@[simp] theorem State.modIde_time (dir sub : Nat) (f : IdeKey → IdeKey) : (s.modIde dir sub f).time = s.time := rfl
@[simp] theorem State.modIde_saved (dir sub : Nat) (f : IdeKey → IdeKey) : (s.modIde dir sub f).saved = s.saved := rfl
@[simp] theorem State.modIde_agenda (dir sub : Nat) (f : IdeKey → IdeKey) : (s.modIde dir sub f).agenda = s.agenda := rfl
@[simp] theorem State.modIde_integrityNext (dir sub : Nat) (f : IdeKey → IdeKey) : (s.modIde dir sub f).integrityNext = s.integrityNext := rfl
@[simp] theorem State.modIde_xLost (dir sub : Nat) (f : IdeKey → IdeKey) : (s.modIde dir sub f).xLost = s.xLost := rfl
@[simp] theorem State.modIde_lastUnit (dir sub : Nat) (f : IdeKey → IdeKey) : (s.modIde dir sub f).lastUnit = s.lastUnit := rfl
@[simp] theorem State.modIde_sinceAuto (dir sub : Nat) (f : IdeKey → IdeKey) : (s.modIde dir sub f).sinceAuto = s.sinceAuto := rfl
@[simp] theorem State.modIde_autoCount (dir sub : Nat) (f : IdeKey → IdeKey) : (s.modIde dir sub f).autoCount = s.autoCount := rfl
@[simp] theorem State.modIde_freeCount (dir sub : Nat) (f : IdeKey → IdeKey) : (s.modIde dir sub f).freeCount = s.freeCount := rfl

/-! `State.mapTeams` -/

@[simp] theorem State.mapTeams_blk (f : Team → Team) : (s.mapTeams f).blk = s.blk := rfl
@[simp] theorem State.mapTeams_core (f : Team → Team) : (s.mapTeams f).core = s.core := rfl
@[simp] theorem State.mapTeams_launch (f : Team → Team) : (s.mapTeams f).launch = s.launch := rfl
@[simp] theorem State.mapTeams_blocks (f : Team → Team) : (s.mapTeams f).blocks = s.blocks := rfl
@[simp] theorem State.mapTeams_cores (f : Team → Team) : (s.mapTeams f).cores = s.cores := rfl
@[simp] theorem State.mapTeams_launches (f : Team → Team) : (s.mapTeams f).launches = s.launches := rfl
@[simp] theorem State.mapTeams_clusters (f : Team → Team) : (s.mapTeams f).clusters = s.clusters := rfl
@[simp] theorem State.mapTeams_dies (f : Team → Team) : (s.mapTeams f).dies = s.dies := rfl
@[simp] theorem State.mapTeams_pkg (f : Team → Team) : (s.mapTeams f).pkg = s.pkg := rfl
@[simp] theorem State.mapTeams_mem (f : Team → Team) : (s.mapTeams f).mem = s.mem := rfl
@[simp] theorem State.mapTeams_hostMem (f : Team → Team) : (s.mapTeams f).hostMem = s.hostMem := rfl
@[simp] theorem State.mapTeams_hub (f : Team → Team) : (s.mapTeams f).hub = s.hub := rfl
@[simp] theorem State.mapTeams_tumbler (f : Team → Team) : (s.mapTeams f).tumbler = s.tumbler := rfl
@[simp] theorem State.mapTeams_links (f : Team → Team) : (s.mapTeams f).links = s.links := rfl
@[simp] theorem State.mapTeams_evwarn (f : Team → Team) : (s.mapTeams f).evwarn = s.evwarn := rfl
@[simp] theorem State.mapTeams_power (f : Team → Team) : (s.mapTeams f).power = s.power := rfl
@[simp] theorem State.mapTeams_time (f : Team → Team) : (s.mapTeams f).time = s.time := rfl
@[simp] theorem State.mapTeams_saved (f : Team → Team) : (s.mapTeams f).saved = s.saved := rfl
@[simp] theorem State.mapTeams_agenda (f : Team → Team) : (s.mapTeams f).agenda = s.agenda := rfl
@[simp] theorem State.mapTeams_integrityNext (f : Team → Team) : (s.mapTeams f).integrityNext = s.integrityNext := rfl
@[simp] theorem State.mapTeams_xLost (f : Team → Team) : (s.mapTeams f).xLost = s.xLost := rfl
@[simp] theorem State.mapTeams_lastUnit (f : Team → Team) : (s.mapTeams f).lastUnit = s.lastUnit := rfl
@[simp] theorem State.mapTeams_sinceAuto (f : Team → Team) : (s.mapTeams f).sinceAuto = s.sinceAuto := rfl
@[simp] theorem State.mapTeams_autoCount (f : Team → Team) : (s.mapTeams f).autoCount = s.autoCount := rfl
@[simp] theorem State.mapTeams_freeCount (f : Team → Team) : (s.mapTeams f).freeCount = s.freeCount := rfl

/-! `State.mapClusters` -/

@[simp] theorem State.mapClusters_team (f : Nat → Cluster → Cluster) : (s.mapClusters f).team = s.team := rfl
@[simp] theorem State.mapClusters_blk (f : Nat → Cluster → Cluster) : (s.mapClusters f).blk = s.blk := rfl
@[simp] theorem State.mapClusters_core (f : Nat → Cluster → Cluster) : (s.mapClusters f).core = s.core := rfl
@[simp] theorem State.mapClusters_launch (f : Nat → Cluster → Cluster) : (s.mapClusters f).launch = s.launch := rfl
@[simp] theorem State.mapClusters_teams (f : Nat → Cluster → Cluster) : (s.mapClusters f).teams = s.teams := rfl
@[simp] theorem State.mapClusters_blocks (f : Nat → Cluster → Cluster) : (s.mapClusters f).blocks = s.blocks := rfl
@[simp] theorem State.mapClusters_cores (f : Nat → Cluster → Cluster) : (s.mapClusters f).cores = s.cores := rfl
@[simp] theorem State.mapClusters_launches (f : Nat → Cluster → Cluster) : (s.mapClusters f).launches = s.launches := rfl
@[simp] theorem State.mapClusters_dies (f : Nat → Cluster → Cluster) : (s.mapClusters f).dies = s.dies := rfl
@[simp] theorem State.mapClusters_pkg (f : Nat → Cluster → Cluster) : (s.mapClusters f).pkg = s.pkg := rfl
@[simp] theorem State.mapClusters_mem (f : Nat → Cluster → Cluster) : (s.mapClusters f).mem = s.mem := rfl
@[simp] theorem State.mapClusters_hostMem (f : Nat → Cluster → Cluster) : (s.mapClusters f).hostMem = s.hostMem := rfl
@[simp] theorem State.mapClusters_hub (f : Nat → Cluster → Cluster) : (s.mapClusters f).hub = s.hub := rfl
@[simp] theorem State.mapClusters_tumbler (f : Nat → Cluster → Cluster) : (s.mapClusters f).tumbler = s.tumbler := rfl
@[simp] theorem State.mapClusters_links (f : Nat → Cluster → Cluster) : (s.mapClusters f).links = s.links := rfl
@[simp] theorem State.mapClusters_evwarn (f : Nat → Cluster → Cluster) : (s.mapClusters f).evwarn = s.evwarn := rfl
@[simp] theorem State.mapClusters_power (f : Nat → Cluster → Cluster) : (s.mapClusters f).power = s.power := rfl
@[simp] theorem State.mapClusters_time (f : Nat → Cluster → Cluster) : (s.mapClusters f).time = s.time := rfl
@[simp] theorem State.mapClusters_saved (f : Nat → Cluster → Cluster) : (s.mapClusters f).saved = s.saved := rfl
@[simp] theorem State.mapClusters_agenda (f : Nat → Cluster → Cluster) : (s.mapClusters f).agenda = s.agenda := rfl
@[simp] theorem State.mapClusters_integrityNext (f : Nat → Cluster → Cluster) : (s.mapClusters f).integrityNext = s.integrityNext := rfl
@[simp] theorem State.mapClusters_xLost (f : Nat → Cluster → Cluster) : (s.mapClusters f).xLost = s.xLost := rfl
@[simp] theorem State.mapClusters_lastUnit (f : Nat → Cluster → Cluster) : (s.mapClusters f).lastUnit = s.lastUnit := rfl
@[simp] theorem State.mapClusters_sinceAuto (f : Nat → Cluster → Cluster) : (s.mapClusters f).sinceAuto = s.sinceAuto := rfl
@[simp] theorem State.mapClusters_autoCount (f : Nat → Cluster → Cluster) : (s.mapClusters f).autoCount = s.autoCount := rfl
@[simp] theorem State.mapClusters_freeCount (f : Nat → Cluster → Cluster) : (s.mapClusters f).freeCount = s.freeCount := rfl

/-! `State.mapCores` -/

@[simp] theorem State.mapCores_team (f : Nat → Core → Core) : (s.mapCores f).team = s.team := rfl
@[simp] theorem State.mapCores_blk (f : Nat → Core → Core) : (s.mapCores f).blk = s.blk := rfl
@[simp] theorem State.mapCores_launch (f : Nat → Core → Core) : (s.mapCores f).launch = s.launch := rfl
@[simp] theorem State.mapCores_teams (f : Nat → Core → Core) : (s.mapCores f).teams = s.teams := rfl
@[simp] theorem State.mapCores_blocks (f : Nat → Core → Core) : (s.mapCores f).blocks = s.blocks := rfl
@[simp] theorem State.mapCores_launches (f : Nat → Core → Core) : (s.mapCores f).launches = s.launches := rfl
@[simp] theorem State.mapCores_clusters (f : Nat → Core → Core) : (s.mapCores f).clusters = s.clusters := rfl
@[simp] theorem State.mapCores_dies (f : Nat → Core → Core) : (s.mapCores f).dies = s.dies := rfl
@[simp] theorem State.mapCores_pkg (f : Nat → Core → Core) : (s.mapCores f).pkg = s.pkg := rfl
@[simp] theorem State.mapCores_mem (f : Nat → Core → Core) : (s.mapCores f).mem = s.mem := rfl
@[simp] theorem State.mapCores_hostMem (f : Nat → Core → Core) : (s.mapCores f).hostMem = s.hostMem := rfl
@[simp] theorem State.mapCores_hub (f : Nat → Core → Core) : (s.mapCores f).hub = s.hub := rfl
@[simp] theorem State.mapCores_tumbler (f : Nat → Core → Core) : (s.mapCores f).tumbler = s.tumbler := rfl
@[simp] theorem State.mapCores_links (f : Nat → Core → Core) : (s.mapCores f).links = s.links := rfl
@[simp] theorem State.mapCores_evwarn (f : Nat → Core → Core) : (s.mapCores f).evwarn = s.evwarn := rfl
@[simp] theorem State.mapCores_power (f : Nat → Core → Core) : (s.mapCores f).power = s.power := rfl
@[simp] theorem State.mapCores_time (f : Nat → Core → Core) : (s.mapCores f).time = s.time := rfl
@[simp] theorem State.mapCores_saved (f : Nat → Core → Core) : (s.mapCores f).saved = s.saved := rfl
@[simp] theorem State.mapCores_agenda (f : Nat → Core → Core) : (s.mapCores f).agenda = s.agenda := rfl
@[simp] theorem State.mapCores_integrityNext (f : Nat → Core → Core) : (s.mapCores f).integrityNext = s.integrityNext := rfl
@[simp] theorem State.mapCores_xLost (f : Nat → Core → Core) : (s.mapCores f).xLost = s.xLost := rfl
@[simp] theorem State.mapCores_lastUnit (f : Nat → Core → Core) : (s.mapCores f).lastUnit = s.lastUnit := rfl
@[simp] theorem State.mapCores_sinceAuto (f : Nat → Core → Core) : (s.mapCores f).sinceAuto = s.sinceAuto := rfl
@[simp] theorem State.mapCores_autoCount (f : Nat → Core → Core) : (s.mapCores f).autoCount = s.autoCount := rfl
@[simp] theorem State.mapCores_freeCount (f : Nat → Core → Core) : (s.mapCores f).freeCount = s.freeCount := rfl

/-! `State.later` -/

@[simp] theorem State.later_blk (d : Dest) (vs : List (Nat × List Word)) (n : Nat) (m : Word) : (s.later d vs n m).blk = s.blk := rfl
@[simp] theorem State.later_core (d : Dest) (vs : List (Nat × List Word)) (n : Nat) (m : Word) : (s.later d vs n m).core = s.core := rfl
@[simp] theorem State.later_launch (d : Dest) (vs : List (Nat × List Word)) (n : Nat) (m : Word) : (s.later d vs n m).launch = s.launch := rfl
@[simp] theorem State.later_teams (d : Dest) (vs : List (Nat × List Word)) (n : Nat) (m : Word) : (s.later d vs n m).teams = s.teams := rfl
@[simp] theorem State.later_blocks (d : Dest) (vs : List (Nat × List Word)) (n : Nat) (m : Word) : (s.later d vs n m).blocks = s.blocks := rfl
@[simp] theorem State.later_cores (d : Dest) (vs : List (Nat × List Word)) (n : Nat) (m : Word) : (s.later d vs n m).cores = s.cores := rfl
@[simp] theorem State.later_launches (d : Dest) (vs : List (Nat × List Word)) (n : Nat) (m : Word) : (s.later d vs n m).launches = s.launches := rfl
@[simp] theorem State.later_clusters (d : Dest) (vs : List (Nat × List Word)) (n : Nat) (m : Word) : (s.later d vs n m).clusters = s.clusters := rfl
@[simp] theorem State.later_dies (d : Dest) (vs : List (Nat × List Word)) (n : Nat) (m : Word) : (s.later d vs n m).dies = s.dies := rfl
@[simp] theorem State.later_pkg (d : Dest) (vs : List (Nat × List Word)) (n : Nat) (m : Word) : (s.later d vs n m).pkg = s.pkg := rfl
@[simp] theorem State.later_mem (d : Dest) (vs : List (Nat × List Word)) (n : Nat) (m : Word) : (s.later d vs n m).mem = s.mem := rfl
@[simp] theorem State.later_hostMem (d : Dest) (vs : List (Nat × List Word)) (n : Nat) (m : Word) : (s.later d vs n m).hostMem = s.hostMem := rfl
@[simp] theorem State.later_hub (d : Dest) (vs : List (Nat × List Word)) (n : Nat) (m : Word) : (s.later d vs n m).hub = s.hub := rfl
@[simp] theorem State.later_tumbler (d : Dest) (vs : List (Nat × List Word)) (n : Nat) (m : Word) : (s.later d vs n m).tumbler = s.tumbler := rfl
@[simp] theorem State.later_links (d : Dest) (vs : List (Nat × List Word)) (n : Nat) (m : Word) : (s.later d vs n m).links = s.links := rfl
@[simp] theorem State.later_evwarn (d : Dest) (vs : List (Nat × List Word)) (n : Nat) (m : Word) : (s.later d vs n m).evwarn = s.evwarn := rfl
@[simp] theorem State.later_power (d : Dest) (vs : List (Nat × List Word)) (n : Nat) (m : Word) : (s.later d vs n m).power = s.power := rfl
@[simp] theorem State.later_time (d : Dest) (vs : List (Nat × List Word)) (n : Nat) (m : Word) : (s.later d vs n m).time = s.time := rfl
@[simp] theorem State.later_saved (d : Dest) (vs : List (Nat × List Word)) (n : Nat) (m : Word) : (s.later d vs n m).saved = s.saved := rfl
@[simp] theorem State.later_agenda (d : Dest) (vs : List (Nat × List Word)) (n : Nat) (m : Word) : (s.later d vs n m).agenda = s.agenda := rfl
@[simp] theorem State.later_integrityNext (d : Dest) (vs : List (Nat × List Word)) (n : Nat) (m : Word) : (s.later d vs n m).integrityNext = s.integrityNext := rfl
@[simp] theorem State.later_xLost (d : Dest) (vs : List (Nat × List Word)) (n : Nat) (m : Word) : (s.later d vs n m).xLost = s.xLost := rfl
@[simp] theorem State.later_lastUnit (d : Dest) (vs : List (Nat × List Word)) (n : Nat) (m : Word) : (s.later d vs n m).lastUnit = s.lastUnit := rfl
@[simp] theorem State.later_sinceAuto (d : Dest) (vs : List (Nat × List Word)) (n : Nat) (m : Word) : (s.later d vs n m).sinceAuto = s.sinceAuto := rfl
@[simp] theorem State.later_autoCount (d : Dest) (vs : List (Nat × List Word)) (n : Nat) (m : Word) : (s.later d vs n m).autoCount = s.autoCount := rfl
@[simp] theorem State.later_freeCount (d : Dest) (vs : List (Nat × List Word)) (n : Nat) (m : Word) : (s.later d vs n m).freeCount = s.freeCount := rfl

/-! `State.advance` -/

@[simp] theorem State.advance_team (b : Bool) : (s.advance b).team = s.team := rfl
@[simp] theorem State.advance_blk (b : Bool) : (s.advance b).blk = s.blk := rfl
@[simp] theorem State.advance_core (b : Bool) : (s.advance b).core = s.core := rfl
@[simp] theorem State.advance_launch (b : Bool) : (s.advance b).launch = s.launch := rfl
@[simp] theorem State.advance_teams (b : Bool) : (s.advance b).teams = s.teams := rfl
@[simp] theorem State.advance_blocks (b : Bool) : (s.advance b).blocks = s.blocks := rfl
@[simp] theorem State.advance_cores (b : Bool) : (s.advance b).cores = s.cores := rfl
@[simp] theorem State.advance_launches (b : Bool) : (s.advance b).launches = s.launches := rfl
@[simp] theorem State.advance_clusters (b : Bool) : (s.advance b).clusters = s.clusters := rfl
@[simp] theorem State.advance_dies (b : Bool) : (s.advance b).dies = s.dies := rfl
@[simp] theorem State.advance_pkg (b : Bool) : (s.advance b).pkg = s.pkg := rfl
@[simp] theorem State.advance_mem (b : Bool) : (s.advance b).mem = s.mem := rfl
@[simp] theorem State.advance_hostMem (b : Bool) : (s.advance b).hostMem = s.hostMem := rfl
@[simp] theorem State.advance_hub (b : Bool) : (s.advance b).hub = s.hub := rfl
@[simp] theorem State.advance_tumbler (b : Bool) : (s.advance b).tumbler = s.tumbler := rfl
@[simp] theorem State.advance_links (b : Bool) : (s.advance b).links = s.links := rfl
@[simp] theorem State.advance_evwarn (b : Bool) : (s.advance b).evwarn = s.evwarn := rfl
@[simp] theorem State.advance_power (b : Bool) : (s.advance b).power = s.power := rfl
@[simp] theorem State.advance_saved (b : Bool) : (s.advance b).saved = s.saved := rfl
@[simp] theorem State.advance_agenda (b : Bool) : (s.advance b).agenda = s.agenda := rfl
@[simp] theorem State.advance_integrityNext (b : Bool) : (s.advance b).integrityNext = s.integrityNext := rfl
@[simp] theorem State.advance_xLost (b : Bool) : (s.advance b).xLost = s.xLost := rfl
@[simp] theorem State.advance_lastUnit (b : Bool) : (s.advance b).lastUnit = s.lastUnit := rfl

/-! `Team.wrV` -/

@[simp] theorem Team.wrV_kind (t r : Nat) (x : Word) : (tm.wrV t r x).kind = tm.kind := rfl
@[simp] theorem Team.wrV_key (t r : Nat) (x : Word) : (tm.wrV t r x).key = tm.key := rfl
@[simp] theorem Team.wrV_coreId (t r : Nat) (x : Word) : (tm.wrV t r x).coreId = tm.coreId := rfl
@[simp] theorem Team.wrV_qtr (t r : Nat) (x : Word) : (tm.wrV t r x).qtr = tm.qtr := rfl
@[simp] theorem Team.wrV_slot (t r : Nat) (x : Word) : (tm.wrV t r x).slot = tm.slot := rfl
@[simp] theorem Team.wrV_index (t r : Nat) (x : Word) : (tm.wrV t r x).index = tm.index := rfl
@[simp] theorem Team.wrV_blkKey (t r : Nat) (x : Word) : (tm.wrV t r x).blkKey = tm.blkKey := rfl
@[simp] theorem Team.wrV_launchUid (t r : Nat) (x : Word) : (tm.wrV t r x).launchUid = tm.launchUid := rfl
@[simp] theorem Team.wrV_threads (t r : Nat) (x : Word) : (tm.wrV t r x).threads = tm.threads := rfl
@[simp] theorem Team.wrV_regs (t r : Nat) (x : Word) : (tm.wrV t r x).regs = tm.regs := rfl
@[simp] theorem Team.wrV_pc (t r : Nat) (x : Word) : (tm.wrV t r x).pc = tm.pc := rfl
@[simp] theorem Team.wrV_s (t r : Nat) (x : Word) : (tm.wrV t r x).s = tm.s := rfl
@[simp] theorem Team.wrV_p (t r : Nat) (x : Word) : (tm.wrV t r x).p = tm.p := rfl
@[simp] theorem Team.wrV_cnt (t r : Nat) (x : Word) : (tm.wrV t r x).cnt = tm.cnt := rfl
@[simp] theorem Team.wrV_exited (t r : Nat) (x : Word) : (tm.wrV t r x).exited = tm.exited := rfl
@[simp] theorem Team.wrV_stack (t r : Nat) (x : Word) : (tm.wrV t r x).stack = tm.stack := rfl
@[simp] theorem Team.wrV_pathSlot (t r : Nat) (x : Word) : (tm.wrV t r x).pathSlot = tm.pathSlot := rfl
@[simp] theorem Team.wrV_fair (t r : Nat) (x : Word) : (tm.wrV t r x).fair = tm.fair := rfl
@[simp] theorem Team.wrV_lastSwitch (t r : Nat) (x : Word) : (tm.wrV t r x).lastSwitch = tm.lastSwitch := rfl
@[simp] theorem Team.wrV_deferred (t r : Nat) (x : Word) : (tm.wrV t r x).deferred = tm.deferred := rfl
@[simp] theorem Team.wrV_openLr (t r : Nat) (x : Word) : (tm.wrV t r x).openLr = tm.openLr := rfl
@[simp] theorem Team.wrV_awaited (t r : Nat) (x : Word) : (tm.wrV t r x).awaited = tm.awaited := rfl
@[simp] theorem Team.wrV_queue (t r : Nat) (x : Word) : (tm.wrV t r x).queue = tm.queue := rfl
@[simp] theorem Team.wrV_issuing (t r : Nat) (x : Word) : (tm.wrV t r x).issuing = tm.issuing := rfl
@[simp] theorem Team.wrV_owed (t r : Nat) (x : Word) : (tm.wrV t r x).owed = tm.owed := rfl
@[simp] theorem Team.wrV_issPc (t r : Nat) (x : Word) : (tm.wrV t r x).issPc = tm.issPc := rfl
@[simp] theorem Team.wrV_issWord (t r : Nat) (x : Word) : (tm.wrV t r x).issWord = tm.issWord := rfl
@[simp] theorem Team.wrV_holdFor (t r : Nat) (x : Word) : (tm.wrV t r x).holdFor = tm.holdFor := rfl
@[simp] theorem Team.wrV_hitAt (t r : Nat) (x : Word) : (tm.wrV t r x).hitAt = tm.hitAt := rfl
@[simp] theorem Team.wrV_joined (t r : Nat) (x : Word) : (tm.wrV t r x).joined = tm.joined := rfl
@[simp] theorem Team.wrV_wb (t r : Nat) (x : Word) : (tm.wrV t r x).wb = tm.wb := rfl
@[simp] theorem Team.wrV_part (t r : Nat) (x : Word) : (tm.wrV t r x).part = tm.part := rfl
@[simp] theorem Team.wrV_tprio (t r : Nat) (x : Word) : (tm.wrV t r x).tprio = tm.tprio := rfl
@[simp] theorem Team.wrV_rnd (t r : Nat) (x : Word) : (tm.wrV t r x).rnd = tm.rnd := rfl
@[simp] theorem Team.wrV_pen (t r : Nat) (x : Word) : (tm.wrV t r x).pen = tm.pen := rfl
@[simp] theorem Team.wrV_limbs (t r : Nat) (x : Word) : (tm.wrV t r x).limbs = tm.limbs := rfl
@[simp] theorem Team.wrV_limbf (t r : Nat) (x : Word) : (tm.wrV t r x).limbf = tm.limbf := rfl
@[simp] theorem Team.wrV_perfReq (t r : Nat) (x : Word) : (tm.wrV t r x).perfReq = tm.perfReq := rfl
@[simp] theorem Team.wrV_perfNow (t r : Nat) (x : Word) : (tm.wrV t r x).perfNow = tm.perfNow := rfl
@[simp] theorem Team.wrV_faultMask (t r : Nat) (x : Word) : (tm.wrV t r x).faultMask = tm.faultMask := rfl
@[simp] theorem Team.wrV_faultInfo (t r : Nat) (x : Word) : (tm.wrV t r x).faultInfo = tm.faultInfo := rfl
@[simp] theorem Team.wrV_trapCtx (t r : Nat) (x : Word) : (tm.wrV t r x).trapCtx = tm.trapCtx := rfl
@[simp] theorem Team.wrV_mon (t r : Nat) (x : Word) : (tm.wrV t r x).mon = tm.mon := rfl
@[simp] theorem Team.wrV_monLines (t r : Nat) (x : Word) : (tm.wrV t r x).monLines = tm.monLines := rfl
@[simp] theorem Team.wrV_resv (t r : Nat) (x : Word) : (tm.wrV t r x).resv = tm.resv := rfl
@[simp] theorem Team.wrV_scalarResv (t r : Nat) (x : Word) : (tm.wrV t r x).scalarResv = tm.scalarResv := rfl
@[simp] theorem Team.wrV_inflight (t r : Nat) (x : Word) : (tm.wrV t r x).inflight = tm.inflight := rfl
@[simp] theorem Team.wrV_pend (t r : Nat) (x : Word) : (tm.wrV t r x).pend = tm.pend := rfl
@[simp] theorem Team.wrV_parked (t r : Nat) (x : Word) : (tm.wrV t r x).parked = tm.parked := rfl
@[simp] theorem Team.wrV_stops (t r : Nat) (x : Word) : (tm.wrV t r x).stops = tm.stops := rfl
@[simp] theorem Team.wrV_stopped (t r : Nat) (x : Word) : (tm.wrV t r x).stopped = tm.stopped := rfl
@[simp] theorem Team.wrV_held (t r : Nat) (x : Word) : (tm.wrV t r x).held = tm.held := rfl
@[simp] theorem Team.wrV_fresh (t r : Nat) (x : Word) : (tm.wrV t r x).fresh = tm.fresh := rfl
@[simp] theorem Team.wrV_hitBps (t r : Nat) (x : Word) : (tm.wrV t r x).hitBps = tm.hitBps := rfl
@[simp] theorem Team.wrV_promised (t r : Nat) (x : Word) : (tm.wrV t r x).promised = tm.promised := rfl
@[simp] theorem Team.wrV_raised (t r : Nat) (x : Word) : (tm.wrV t r x).raised = tm.raised := rfl
@[simp] theorem Team.wrV_shadow (t r : Nat) (x : Word) : (tm.wrV t r x).shadow = tm.shadow := rfl
@[simp] theorem Team.wrV_auditHeld (t r : Nat) (x : Word) : (tm.wrV t r x).auditHeld = tm.auditHeld := rfl
@[simp] theorem Team.wrV_passed (t r : Nat) (x : Word) : (tm.wrV t r x).passed = tm.passed := rfl
@[simp] theorem Team.wrV_yielded (t r : Nat) (x : Word) : (tm.wrV t r x).yielded = tm.yielded := rfl
@[simp] theorem Team.wrV_engFaults (t r : Nat) (x : Word) : (tm.wrV t r x).engFaults = tm.engFaults := rfl
@[simp] theorem Team.wrV_escapes (t r : Nat) (x : Word) : (tm.wrV t r x).escapes = tm.escapes := rfl
@[simp] theorem Team.wrV_cand (t r : Nat) (x : Word) : (tm.wrV t r x).cand = tm.cand := rfl
@[simp] theorem Team.wrV_captured (t r : Nat) (x : Word) : (tm.wrV t r x).captured = tm.captured := rfl
@[simp] theorem Team.wrV_capturing (t r : Nat) (x : Word) : (tm.wrV t r x).capturing = tm.capturing := rfl
@[simp] theorem Team.wrV_probation (t r : Nat) (x : Word) : (tm.wrV t r x).probation = tm.probation := rfl
@[simp] theorem Team.wrV_decided (t r : Nat) (x : Word) : (tm.wrV t r x).decided = tm.decided := rfl
@[simp] theorem Team.wrV_priv (t r : Nat) (x : Word) : (tm.wrV t r x).priv = tm.priv := rfl
@[simp] theorem Team.wrV_ended (t r : Nat) (x : Word) : (tm.wrV t r x).ended = tm.ended := rfl

/-! `Team.wrS` -/

@[simp] theorem Team.wrS_kind (r : Nat) (x : Word) : (tm.wrS r x).kind = tm.kind := rfl
@[simp] theorem Team.wrS_key (r : Nat) (x : Word) : (tm.wrS r x).key = tm.key := rfl
@[simp] theorem Team.wrS_coreId (r : Nat) (x : Word) : (tm.wrS r x).coreId = tm.coreId := rfl
@[simp] theorem Team.wrS_qtr (r : Nat) (x : Word) : (tm.wrS r x).qtr = tm.qtr := rfl
@[simp] theorem Team.wrS_slot (r : Nat) (x : Word) : (tm.wrS r x).slot = tm.slot := rfl
@[simp] theorem Team.wrS_index (r : Nat) (x : Word) : (tm.wrS r x).index = tm.index := rfl
@[simp] theorem Team.wrS_blkKey (r : Nat) (x : Word) : (tm.wrS r x).blkKey = tm.blkKey := rfl
@[simp] theorem Team.wrS_launchUid (r : Nat) (x : Word) : (tm.wrS r x).launchUid = tm.launchUid := rfl
@[simp] theorem Team.wrS_threads (r : Nat) (x : Word) : (tm.wrS r x).threads = tm.threads := rfl
@[simp] theorem Team.wrS_regs (r : Nat) (x : Word) : (tm.wrS r x).regs = tm.regs := rfl
@[simp] theorem Team.wrS_pc (r : Nat) (x : Word) : (tm.wrS r x).pc = tm.pc := rfl
@[simp] theorem Team.wrS_v (r : Nat) (x : Word) : (tm.wrS r x).v = tm.v := rfl
@[simp] theorem Team.wrS_p (r : Nat) (x : Word) : (tm.wrS r x).p = tm.p := rfl
@[simp] theorem Team.wrS_cnt (r : Nat) (x : Word) : (tm.wrS r x).cnt = tm.cnt := rfl
@[simp] theorem Team.wrS_exited (r : Nat) (x : Word) : (tm.wrS r x).exited = tm.exited := rfl
@[simp] theorem Team.wrS_stack (r : Nat) (x : Word) : (tm.wrS r x).stack = tm.stack := rfl
@[simp] theorem Team.wrS_pathSlot (r : Nat) (x : Word) : (tm.wrS r x).pathSlot = tm.pathSlot := rfl
@[simp] theorem Team.wrS_fair (r : Nat) (x : Word) : (tm.wrS r x).fair = tm.fair := rfl
@[simp] theorem Team.wrS_lastSwitch (r : Nat) (x : Word) : (tm.wrS r x).lastSwitch = tm.lastSwitch := rfl
@[simp] theorem Team.wrS_deferred (r : Nat) (x : Word) : (tm.wrS r x).deferred = tm.deferred := rfl
@[simp] theorem Team.wrS_openLr (r : Nat) (x : Word) : (tm.wrS r x).openLr = tm.openLr := rfl
@[simp] theorem Team.wrS_awaited (r : Nat) (x : Word) : (tm.wrS r x).awaited = tm.awaited := rfl
@[simp] theorem Team.wrS_queue (r : Nat) (x : Word) : (tm.wrS r x).queue = tm.queue := rfl
@[simp] theorem Team.wrS_issuing (r : Nat) (x : Word) : (tm.wrS r x).issuing = tm.issuing := rfl
@[simp] theorem Team.wrS_owed (r : Nat) (x : Word) : (tm.wrS r x).owed = tm.owed := rfl
@[simp] theorem Team.wrS_issPc (r : Nat) (x : Word) : (tm.wrS r x).issPc = tm.issPc := rfl
@[simp] theorem Team.wrS_issWord (r : Nat) (x : Word) : (tm.wrS r x).issWord = tm.issWord := rfl
@[simp] theorem Team.wrS_holdFor (r : Nat) (x : Word) : (tm.wrS r x).holdFor = tm.holdFor := rfl
@[simp] theorem Team.wrS_hitAt (r : Nat) (x : Word) : (tm.wrS r x).hitAt = tm.hitAt := rfl
@[simp] theorem Team.wrS_joined (r : Nat) (x : Word) : (tm.wrS r x).joined = tm.joined := rfl
@[simp] theorem Team.wrS_wb (r : Nat) (x : Word) : (tm.wrS r x).wb = tm.wb := rfl
@[simp] theorem Team.wrS_part (r : Nat) (x : Word) : (tm.wrS r x).part = tm.part := rfl
@[simp] theorem Team.wrS_tprio (r : Nat) (x : Word) : (tm.wrS r x).tprio = tm.tprio := rfl
@[simp] theorem Team.wrS_rnd (r : Nat) (x : Word) : (tm.wrS r x).rnd = tm.rnd := rfl
@[simp] theorem Team.wrS_pen (r : Nat) (x : Word) : (tm.wrS r x).pen = tm.pen := rfl
@[simp] theorem Team.wrS_limbs (r : Nat) (x : Word) : (tm.wrS r x).limbs = tm.limbs := rfl
@[simp] theorem Team.wrS_limbf (r : Nat) (x : Word) : (tm.wrS r x).limbf = tm.limbf := rfl
@[simp] theorem Team.wrS_perfReq (r : Nat) (x : Word) : (tm.wrS r x).perfReq = tm.perfReq := rfl
@[simp] theorem Team.wrS_perfNow (r : Nat) (x : Word) : (tm.wrS r x).perfNow = tm.perfNow := rfl
@[simp] theorem Team.wrS_faultMask (r : Nat) (x : Word) : (tm.wrS r x).faultMask = tm.faultMask := rfl
@[simp] theorem Team.wrS_faultInfo (r : Nat) (x : Word) : (tm.wrS r x).faultInfo = tm.faultInfo := rfl
@[simp] theorem Team.wrS_trapCtx (r : Nat) (x : Word) : (tm.wrS r x).trapCtx = tm.trapCtx := rfl
@[simp] theorem Team.wrS_mon (r : Nat) (x : Word) : (tm.wrS r x).mon = tm.mon := rfl
@[simp] theorem Team.wrS_monLines (r : Nat) (x : Word) : (tm.wrS r x).monLines = tm.monLines := rfl
@[simp] theorem Team.wrS_resv (r : Nat) (x : Word) : (tm.wrS r x).resv = tm.resv := rfl
@[simp] theorem Team.wrS_scalarResv (r : Nat) (x : Word) : (tm.wrS r x).scalarResv = tm.scalarResv := rfl
@[simp] theorem Team.wrS_inflight (r : Nat) (x : Word) : (tm.wrS r x).inflight = tm.inflight := rfl
@[simp] theorem Team.wrS_pend (r : Nat) (x : Word) : (tm.wrS r x).pend = tm.pend := rfl
@[simp] theorem Team.wrS_parked (r : Nat) (x : Word) : (tm.wrS r x).parked = tm.parked := rfl
@[simp] theorem Team.wrS_stops (r : Nat) (x : Word) : (tm.wrS r x).stops = tm.stops := rfl
@[simp] theorem Team.wrS_stopped (r : Nat) (x : Word) : (tm.wrS r x).stopped = tm.stopped := rfl
@[simp] theorem Team.wrS_held (r : Nat) (x : Word) : (tm.wrS r x).held = tm.held := rfl
@[simp] theorem Team.wrS_fresh (r : Nat) (x : Word) : (tm.wrS r x).fresh = tm.fresh := rfl
@[simp] theorem Team.wrS_hitBps (r : Nat) (x : Word) : (tm.wrS r x).hitBps = tm.hitBps := rfl
@[simp] theorem Team.wrS_promised (r : Nat) (x : Word) : (tm.wrS r x).promised = tm.promised := rfl
@[simp] theorem Team.wrS_raised (r : Nat) (x : Word) : (tm.wrS r x).raised = tm.raised := rfl
@[simp] theorem Team.wrS_shadow (r : Nat) (x : Word) : (tm.wrS r x).shadow = tm.shadow := rfl
@[simp] theorem Team.wrS_auditHeld (r : Nat) (x : Word) : (tm.wrS r x).auditHeld = tm.auditHeld := rfl
@[simp] theorem Team.wrS_passed (r : Nat) (x : Word) : (tm.wrS r x).passed = tm.passed := rfl
@[simp] theorem Team.wrS_yielded (r : Nat) (x : Word) : (tm.wrS r x).yielded = tm.yielded := rfl
@[simp] theorem Team.wrS_engFaults (r : Nat) (x : Word) : (tm.wrS r x).engFaults = tm.engFaults := rfl
@[simp] theorem Team.wrS_escapes (r : Nat) (x : Word) : (tm.wrS r x).escapes = tm.escapes := rfl
@[simp] theorem Team.wrS_cand (r : Nat) (x : Word) : (tm.wrS r x).cand = tm.cand := rfl
@[simp] theorem Team.wrS_captured (r : Nat) (x : Word) : (tm.wrS r x).captured = tm.captured := rfl
@[simp] theorem Team.wrS_capturing (r : Nat) (x : Word) : (tm.wrS r x).capturing = tm.capturing := rfl
@[simp] theorem Team.wrS_probation (r : Nat) (x : Word) : (tm.wrS r x).probation = tm.probation := rfl
@[simp] theorem Team.wrS_decided (r : Nat) (x : Word) : (tm.wrS r x).decided = tm.decided := rfl
@[simp] theorem Team.wrS_priv (r : Nat) (x : Word) : (tm.wrS r x).priv = tm.priv := rfl
@[simp] theorem Team.wrS_ended (r : Nat) (x : Word) : (tm.wrS r x).ended = tm.ended := rfl

/-! `State.setTeam` -/

@[simp] theorem State.setTeam_blk (x : Team) : (s.setTeam x).blk = s.blk := by unfold State.setTeam; split <;> rfl
@[simp] theorem State.setTeam_core (x : Team) : (s.setTeam x).core = s.core := by unfold State.setTeam; split <;> rfl
@[simp] theorem State.setTeam_launch (x : Team) : (s.setTeam x).launch = s.launch := by unfold State.setTeam; split <;> rfl
@[simp] theorem State.setTeam_blocks (x : Team) : (s.setTeam x).blocks = s.blocks := by unfold State.setTeam; split <;> rfl
@[simp] theorem State.setTeam_cores (x : Team) : (s.setTeam x).cores = s.cores := by unfold State.setTeam; split <;> rfl
@[simp] theorem State.setTeam_launches (x : Team) : (s.setTeam x).launches = s.launches := by unfold State.setTeam; split <;> rfl
@[simp] theorem State.setTeam_clusters (x : Team) : (s.setTeam x).clusters = s.clusters := by unfold State.setTeam; split <;> rfl
@[simp] theorem State.setTeam_dies (x : Team) : (s.setTeam x).dies = s.dies := by unfold State.setTeam; split <;> rfl
@[simp] theorem State.setTeam_pkg (x : Team) : (s.setTeam x).pkg = s.pkg := by unfold State.setTeam; split <;> rfl
@[simp] theorem State.setTeam_mem (x : Team) : (s.setTeam x).mem = s.mem := by unfold State.setTeam; split <;> rfl
@[simp] theorem State.setTeam_hostMem (x : Team) : (s.setTeam x).hostMem = s.hostMem := by unfold State.setTeam; split <;> rfl
@[simp] theorem State.setTeam_hub (x : Team) : (s.setTeam x).hub = s.hub := by unfold State.setTeam; split <;> rfl
@[simp] theorem State.setTeam_tumbler (x : Team) : (s.setTeam x).tumbler = s.tumbler := by unfold State.setTeam; split <;> rfl
@[simp] theorem State.setTeam_links (x : Team) : (s.setTeam x).links = s.links := by unfold State.setTeam; split <;> rfl
@[simp] theorem State.setTeam_evwarn (x : Team) : (s.setTeam x).evwarn = s.evwarn := by unfold State.setTeam; split <;> rfl
@[simp] theorem State.setTeam_power (x : Team) : (s.setTeam x).power = s.power := by unfold State.setTeam; split <;> rfl
@[simp] theorem State.setTeam_time (x : Team) : (s.setTeam x).time = s.time := by unfold State.setTeam; split <;> rfl
@[simp] theorem State.setTeam_saved (x : Team) : (s.setTeam x).saved = s.saved := by unfold State.setTeam; split <;> rfl
@[simp] theorem State.setTeam_agenda (x : Team) : (s.setTeam x).agenda = s.agenda := by unfold State.setTeam; split <;> rfl
@[simp] theorem State.setTeam_xLost (x : Team) : (s.setTeam x).xLost = s.xLost := by unfold State.setTeam; split <;> rfl
@[simp] theorem State.setTeam_lastUnit (x : Team) : (s.setTeam x).lastUnit = s.lastUnit := by unfold State.setTeam; split <;> rfl
@[simp] theorem State.setTeam_sinceAuto (x : Team) : (s.setTeam x).sinceAuto = s.sinceAuto := by unfold State.setTeam; split <;> rfl
@[simp] theorem State.setTeam_autoCount (x : Team) : (s.setTeam x).autoCount = s.autoCount := by unfold State.setTeam; split <;> rfl
@[simp] theorem State.setTeam_freeCount (x : Team) : (s.setTeam x).freeCount = s.freeCount := by unfold State.setTeam; split <;> rfl

/-! `State.dropTeam` -/

@[simp] theorem State.dropTeam_blk (k : Nat) : (s.dropTeam k).blk = s.blk := by unfold State.dropTeam; split <;> rfl
@[simp] theorem State.dropTeam_core (k : Nat) : (s.dropTeam k).core = s.core := by unfold State.dropTeam; split <;> rfl
@[simp] theorem State.dropTeam_launch (k : Nat) : (s.dropTeam k).launch = s.launch := by unfold State.dropTeam; split <;> rfl
@[simp] theorem State.dropTeam_blocks (k : Nat) : (s.dropTeam k).blocks = s.blocks := by unfold State.dropTeam; split <;> rfl
@[simp] theorem State.dropTeam_cores (k : Nat) : (s.dropTeam k).cores = s.cores := by unfold State.dropTeam; split <;> rfl
@[simp] theorem State.dropTeam_launches (k : Nat) : (s.dropTeam k).launches = s.launches := by unfold State.dropTeam; split <;> rfl
@[simp] theorem State.dropTeam_clusters (k : Nat) : (s.dropTeam k).clusters = s.clusters := by unfold State.dropTeam; split <;> rfl
@[simp] theorem State.dropTeam_dies (k : Nat) : (s.dropTeam k).dies = s.dies := by unfold State.dropTeam; split <;> rfl
@[simp] theorem State.dropTeam_pkg (k : Nat) : (s.dropTeam k).pkg = s.pkg := by unfold State.dropTeam; split <;> rfl
@[simp] theorem State.dropTeam_mem (k : Nat) : (s.dropTeam k).mem = s.mem := by unfold State.dropTeam; split <;> rfl
@[simp] theorem State.dropTeam_hostMem (k : Nat) : (s.dropTeam k).hostMem = s.hostMem := by unfold State.dropTeam; split <;> rfl
@[simp] theorem State.dropTeam_hub (k : Nat) : (s.dropTeam k).hub = s.hub := by unfold State.dropTeam; split <;> rfl
@[simp] theorem State.dropTeam_tumbler (k : Nat) : (s.dropTeam k).tumbler = s.tumbler := by unfold State.dropTeam; split <;> rfl
@[simp] theorem State.dropTeam_links (k : Nat) : (s.dropTeam k).links = s.links := by unfold State.dropTeam; split <;> rfl
@[simp] theorem State.dropTeam_evwarn (k : Nat) : (s.dropTeam k).evwarn = s.evwarn := by unfold State.dropTeam; split <;> rfl
@[simp] theorem State.dropTeam_power (k : Nat) : (s.dropTeam k).power = s.power := by unfold State.dropTeam; split <;> rfl
@[simp] theorem State.dropTeam_time (k : Nat) : (s.dropTeam k).time = s.time := by unfold State.dropTeam; split <;> rfl
@[simp] theorem State.dropTeam_saved (k : Nat) : (s.dropTeam k).saved = s.saved := by unfold State.dropTeam; split <;> rfl
@[simp] theorem State.dropTeam_agenda (k : Nat) : (s.dropTeam k).agenda = s.agenda := by unfold State.dropTeam; split <;> rfl
@[simp] theorem State.dropTeam_xLost (k : Nat) : (s.dropTeam k).xLost = s.xLost := by unfold State.dropTeam; split <;> rfl
@[simp] theorem State.dropTeam_lastUnit (k : Nat) : (s.dropTeam k).lastUnit = s.lastUnit := by unfold State.dropTeam; split <;> rfl
@[simp] theorem State.dropTeam_sinceAuto (k : Nat) : (s.dropTeam k).sinceAuto = s.sinceAuto := by unfold State.dropTeam; split <;> rfl
@[simp] theorem State.dropTeam_autoCount (k : Nat) : (s.dropTeam k).autoCount = s.autoCount := by unfold State.dropTeam; split <;> rfl
@[simp] theorem State.dropTeam_freeCount (k : Nat) : (s.dropTeam k).freeCount = s.freeCount := by unfold State.dropTeam; split <;> rfl

/-! `State.modTeam` -/

@[simp] theorem State.modTeam_blk (k : Nat) (f : Team → Team) : (s.modTeam k f).blk = s.blk := by unfold State.modTeam; split <;> simp
@[simp] theorem State.modTeam_core (k : Nat) (f : Team → Team) : (s.modTeam k f).core = s.core := by unfold State.modTeam; split <;> simp
@[simp] theorem State.modTeam_launch (k : Nat) (f : Team → Team) : (s.modTeam k f).launch = s.launch := by unfold State.modTeam; split <;> simp
@[simp] theorem State.modTeam_blocks (k : Nat) (f : Team → Team) : (s.modTeam k f).blocks = s.blocks := by unfold State.modTeam; split <;> simp
@[simp] theorem State.modTeam_cores (k : Nat) (f : Team → Team) : (s.modTeam k f).cores = s.cores := by unfold State.modTeam; split <;> simp
@[simp] theorem State.modTeam_launches (k : Nat) (f : Team → Team) : (s.modTeam k f).launches = s.launches := by unfold State.modTeam; split <;> simp
@[simp] theorem State.modTeam_clusters (k : Nat) (f : Team → Team) : (s.modTeam k f).clusters = s.clusters := by unfold State.modTeam; split <;> simp
@[simp] theorem State.modTeam_dies (k : Nat) (f : Team → Team) : (s.modTeam k f).dies = s.dies := by unfold State.modTeam; split <;> simp
@[simp] theorem State.modTeam_pkg (k : Nat) (f : Team → Team) : (s.modTeam k f).pkg = s.pkg := by unfold State.modTeam; split <;> simp
@[simp] theorem State.modTeam_mem (k : Nat) (f : Team → Team) : (s.modTeam k f).mem = s.mem := by unfold State.modTeam; split <;> simp
@[simp] theorem State.modTeam_hostMem (k : Nat) (f : Team → Team) : (s.modTeam k f).hostMem = s.hostMem := by unfold State.modTeam; split <;> simp
@[simp] theorem State.modTeam_hub (k : Nat) (f : Team → Team) : (s.modTeam k f).hub = s.hub := by unfold State.modTeam; split <;> simp
@[simp] theorem State.modTeam_tumbler (k : Nat) (f : Team → Team) : (s.modTeam k f).tumbler = s.tumbler := by unfold State.modTeam; split <;> simp
@[simp] theorem State.modTeam_links (k : Nat) (f : Team → Team) : (s.modTeam k f).links = s.links := by unfold State.modTeam; split <;> simp
@[simp] theorem State.modTeam_evwarn (k : Nat) (f : Team → Team) : (s.modTeam k f).evwarn = s.evwarn := by unfold State.modTeam; split <;> simp
@[simp] theorem State.modTeam_power (k : Nat) (f : Team → Team) : (s.modTeam k f).power = s.power := by unfold State.modTeam; split <;> simp
@[simp] theorem State.modTeam_time (k : Nat) (f : Team → Team) : (s.modTeam k f).time = s.time := by unfold State.modTeam; split <;> simp
@[simp] theorem State.modTeam_saved (k : Nat) (f : Team → Team) : (s.modTeam k f).saved = s.saved := by unfold State.modTeam; split <;> simp
@[simp] theorem State.modTeam_agenda (k : Nat) (f : Team → Team) : (s.modTeam k f).agenda = s.agenda := by unfold State.modTeam; split <;> simp
@[simp] theorem State.modTeam_xLost (k : Nat) (f : Team → Team) : (s.modTeam k f).xLost = s.xLost := by unfold State.modTeam; split <;> simp
@[simp] theorem State.modTeam_lastUnit (k : Nat) (f : Team → Team) : (s.modTeam k f).lastUnit = s.lastUnit := by unfold State.modTeam; split <;> simp
@[simp] theorem State.modTeam_sinceAuto (k : Nat) (f : Team → Team) : (s.modTeam k f).sinceAuto = s.sinceAuto := by unfold State.modTeam; split <;> simp
@[simp] theorem State.modTeam_autoCount (k : Nat) (f : Team → Team) : (s.modTeam k f).autoCount = s.autoCount := by unfold State.modTeam; split <;> simp
@[simp] theorem State.modTeam_freeCount (k : Nat) (f : Team → Team) : (s.modTeam k f).freeCount = s.freeCount := by unfold State.modTeam; split <;> simp

/-! `State.setBlk` -/

@[simp] theorem State.setBlk_team (x : Block) : (s.setBlk x).team = s.team := by unfold State.setBlk; split <;> rfl
@[simp] theorem State.setBlk_core (x : Block) : (s.setBlk x).core = s.core := by unfold State.setBlk; split <;> rfl
@[simp] theorem State.setBlk_launch (x : Block) : (s.setBlk x).launch = s.launch := by unfold State.setBlk; split <;> rfl
@[simp] theorem State.setBlk_teams (x : Block) : (s.setBlk x).teams = s.teams := by unfold State.setBlk; split <;> rfl
@[simp] theorem State.setBlk_cores (x : Block) : (s.setBlk x).cores = s.cores := by unfold State.setBlk; split <;> rfl
@[simp] theorem State.setBlk_launches (x : Block) : (s.setBlk x).launches = s.launches := by unfold State.setBlk; split <;> rfl
@[simp] theorem State.setBlk_clusters (x : Block) : (s.setBlk x).clusters = s.clusters := by unfold State.setBlk; split <;> rfl
@[simp] theorem State.setBlk_dies (x : Block) : (s.setBlk x).dies = s.dies := by unfold State.setBlk; split <;> rfl
@[simp] theorem State.setBlk_pkg (x : Block) : (s.setBlk x).pkg = s.pkg := by unfold State.setBlk; split <;> rfl
@[simp] theorem State.setBlk_mem (x : Block) : (s.setBlk x).mem = s.mem := by unfold State.setBlk; split <;> rfl
@[simp] theorem State.setBlk_hostMem (x : Block) : (s.setBlk x).hostMem = s.hostMem := by unfold State.setBlk; split <;> rfl
@[simp] theorem State.setBlk_hub (x : Block) : (s.setBlk x).hub = s.hub := by unfold State.setBlk; split <;> rfl
@[simp] theorem State.setBlk_tumbler (x : Block) : (s.setBlk x).tumbler = s.tumbler := by unfold State.setBlk; split <;> rfl
@[simp] theorem State.setBlk_links (x : Block) : (s.setBlk x).links = s.links := by unfold State.setBlk; split <;> rfl
@[simp] theorem State.setBlk_evwarn (x : Block) : (s.setBlk x).evwarn = s.evwarn := by unfold State.setBlk; split <;> rfl
@[simp] theorem State.setBlk_power (x : Block) : (s.setBlk x).power = s.power := by unfold State.setBlk; split <;> rfl
@[simp] theorem State.setBlk_time (x : Block) : (s.setBlk x).time = s.time := by unfold State.setBlk; split <;> rfl
@[simp] theorem State.setBlk_saved (x : Block) : (s.setBlk x).saved = s.saved := by unfold State.setBlk; split <;> rfl
@[simp] theorem State.setBlk_agenda (x : Block) : (s.setBlk x).agenda = s.agenda := by unfold State.setBlk; split <;> rfl
@[simp] theorem State.setBlk_xLost (x : Block) : (s.setBlk x).xLost = s.xLost := by unfold State.setBlk; split <;> rfl
@[simp] theorem State.setBlk_lastUnit (x : Block) : (s.setBlk x).lastUnit = s.lastUnit := by unfold State.setBlk; split <;> rfl
@[simp] theorem State.setBlk_sinceAuto (x : Block) : (s.setBlk x).sinceAuto = s.sinceAuto := by unfold State.setBlk; split <;> rfl
@[simp] theorem State.setBlk_autoCount (x : Block) : (s.setBlk x).autoCount = s.autoCount := by unfold State.setBlk; split <;> rfl
@[simp] theorem State.setBlk_freeCount (x : Block) : (s.setBlk x).freeCount = s.freeCount := by unfold State.setBlk; split <;> rfl

/-! `State.dropBlk` -/

@[simp] theorem State.dropBlk_team (k : Nat) : (s.dropBlk k).team = s.team := by unfold State.dropBlk; split <;> rfl
@[simp] theorem State.dropBlk_core (k : Nat) : (s.dropBlk k).core = s.core := by unfold State.dropBlk; split <;> rfl
@[simp] theorem State.dropBlk_launch (k : Nat) : (s.dropBlk k).launch = s.launch := by unfold State.dropBlk; split <;> rfl
@[simp] theorem State.dropBlk_teams (k : Nat) : (s.dropBlk k).teams = s.teams := by unfold State.dropBlk; split <;> rfl
@[simp] theorem State.dropBlk_cores (k : Nat) : (s.dropBlk k).cores = s.cores := by unfold State.dropBlk; split <;> rfl
@[simp] theorem State.dropBlk_launches (k : Nat) : (s.dropBlk k).launches = s.launches := by unfold State.dropBlk; split <;> rfl
@[simp] theorem State.dropBlk_clusters (k : Nat) : (s.dropBlk k).clusters = s.clusters := by unfold State.dropBlk; split <;> rfl
@[simp] theorem State.dropBlk_dies (k : Nat) : (s.dropBlk k).dies = s.dies := by unfold State.dropBlk; split <;> rfl
@[simp] theorem State.dropBlk_pkg (k : Nat) : (s.dropBlk k).pkg = s.pkg := by unfold State.dropBlk; split <;> rfl
@[simp] theorem State.dropBlk_mem (k : Nat) : (s.dropBlk k).mem = s.mem := by unfold State.dropBlk; split <;> rfl
@[simp] theorem State.dropBlk_hostMem (k : Nat) : (s.dropBlk k).hostMem = s.hostMem := by unfold State.dropBlk; split <;> rfl
@[simp] theorem State.dropBlk_hub (k : Nat) : (s.dropBlk k).hub = s.hub := by unfold State.dropBlk; split <;> rfl
@[simp] theorem State.dropBlk_tumbler (k : Nat) : (s.dropBlk k).tumbler = s.tumbler := by unfold State.dropBlk; split <;> rfl
@[simp] theorem State.dropBlk_links (k : Nat) : (s.dropBlk k).links = s.links := by unfold State.dropBlk; split <;> rfl
@[simp] theorem State.dropBlk_evwarn (k : Nat) : (s.dropBlk k).evwarn = s.evwarn := by unfold State.dropBlk; split <;> rfl
@[simp] theorem State.dropBlk_power (k : Nat) : (s.dropBlk k).power = s.power := by unfold State.dropBlk; split <;> rfl
@[simp] theorem State.dropBlk_time (k : Nat) : (s.dropBlk k).time = s.time := by unfold State.dropBlk; split <;> rfl
@[simp] theorem State.dropBlk_saved (k : Nat) : (s.dropBlk k).saved = s.saved := by unfold State.dropBlk; split <;> rfl
@[simp] theorem State.dropBlk_agenda (k : Nat) : (s.dropBlk k).agenda = s.agenda := by unfold State.dropBlk; split <;> rfl
@[simp] theorem State.dropBlk_xLost (k : Nat) : (s.dropBlk k).xLost = s.xLost := by unfold State.dropBlk; split <;> rfl
@[simp] theorem State.dropBlk_lastUnit (k : Nat) : (s.dropBlk k).lastUnit = s.lastUnit := by unfold State.dropBlk; split <;> rfl
@[simp] theorem State.dropBlk_sinceAuto (k : Nat) : (s.dropBlk k).sinceAuto = s.sinceAuto := by unfold State.dropBlk; split <;> rfl
@[simp] theorem State.dropBlk_autoCount (k : Nat) : (s.dropBlk k).autoCount = s.autoCount := by unfold State.dropBlk; split <;> rfl
@[simp] theorem State.dropBlk_freeCount (k : Nat) : (s.dropBlk k).freeCount = s.freeCount := by unfold State.dropBlk; split <;> rfl

/-! `State.modBlk` -/

@[simp] theorem State.modBlk_team (k : Nat) (f : Block → Block) : (s.modBlk k f).team = s.team := by unfold State.modBlk; split <;> simp
@[simp] theorem State.modBlk_core (k : Nat) (f : Block → Block) : (s.modBlk k f).core = s.core := by unfold State.modBlk; split <;> simp
@[simp] theorem State.modBlk_launch (k : Nat) (f : Block → Block) : (s.modBlk k f).launch = s.launch := by unfold State.modBlk; split <;> simp
@[simp] theorem State.modBlk_teams (k : Nat) (f : Block → Block) : (s.modBlk k f).teams = s.teams := by unfold State.modBlk; split <;> simp
@[simp] theorem State.modBlk_cores (k : Nat) (f : Block → Block) : (s.modBlk k f).cores = s.cores := by unfold State.modBlk; split <;> simp
@[simp] theorem State.modBlk_launches (k : Nat) (f : Block → Block) : (s.modBlk k f).launches = s.launches := by unfold State.modBlk; split <;> simp
@[simp] theorem State.modBlk_clusters (k : Nat) (f : Block → Block) : (s.modBlk k f).clusters = s.clusters := by unfold State.modBlk; split <;> simp
@[simp] theorem State.modBlk_dies (k : Nat) (f : Block → Block) : (s.modBlk k f).dies = s.dies := by unfold State.modBlk; split <;> simp
@[simp] theorem State.modBlk_pkg (k : Nat) (f : Block → Block) : (s.modBlk k f).pkg = s.pkg := by unfold State.modBlk; split <;> simp
@[simp] theorem State.modBlk_mem (k : Nat) (f : Block → Block) : (s.modBlk k f).mem = s.mem := by unfold State.modBlk; split <;> simp
@[simp] theorem State.modBlk_hostMem (k : Nat) (f : Block → Block) : (s.modBlk k f).hostMem = s.hostMem := by unfold State.modBlk; split <;> simp
@[simp] theorem State.modBlk_hub (k : Nat) (f : Block → Block) : (s.modBlk k f).hub = s.hub := by unfold State.modBlk; split <;> simp
@[simp] theorem State.modBlk_tumbler (k : Nat) (f : Block → Block) : (s.modBlk k f).tumbler = s.tumbler := by unfold State.modBlk; split <;> simp
@[simp] theorem State.modBlk_links (k : Nat) (f : Block → Block) : (s.modBlk k f).links = s.links := by unfold State.modBlk; split <;> simp
@[simp] theorem State.modBlk_evwarn (k : Nat) (f : Block → Block) : (s.modBlk k f).evwarn = s.evwarn := by unfold State.modBlk; split <;> simp
@[simp] theorem State.modBlk_power (k : Nat) (f : Block → Block) : (s.modBlk k f).power = s.power := by unfold State.modBlk; split <;> simp
@[simp] theorem State.modBlk_time (k : Nat) (f : Block → Block) : (s.modBlk k f).time = s.time := by unfold State.modBlk; split <;> simp
@[simp] theorem State.modBlk_saved (k : Nat) (f : Block → Block) : (s.modBlk k f).saved = s.saved := by unfold State.modBlk; split <;> simp
@[simp] theorem State.modBlk_agenda (k : Nat) (f : Block → Block) : (s.modBlk k f).agenda = s.agenda := by unfold State.modBlk; split <;> simp
@[simp] theorem State.modBlk_xLost (k : Nat) (f : Block → Block) : (s.modBlk k f).xLost = s.xLost := by unfold State.modBlk; split <;> simp
@[simp] theorem State.modBlk_lastUnit (k : Nat) (f : Block → Block) : (s.modBlk k f).lastUnit = s.lastUnit := by unfold State.modBlk; split <;> simp
@[simp] theorem State.modBlk_sinceAuto (k : Nat) (f : Block → Block) : (s.modBlk k f).sinceAuto = s.sinceAuto := by unfold State.modBlk; split <;> simp
@[simp] theorem State.modBlk_autoCount (k : Nat) (f : Block → Block) : (s.modBlk k f).autoCount = s.autoCount := by unfold State.modBlk; split <;> simp
@[simp] theorem State.modBlk_freeCount (k : Nat) (f : Block → Block) : (s.modBlk k f).freeCount = s.freeCount := by unfold State.modBlk; split <;> simp

/-! `State.setLaunch` -/

@[simp] theorem State.setLaunch_team (x : Launch) : (s.setLaunch x).team = s.team := by unfold State.setLaunch; split <;> rfl
@[simp] theorem State.setLaunch_blk (x : Launch) : (s.setLaunch x).blk = s.blk := by unfold State.setLaunch; split <;> rfl
@[simp] theorem State.setLaunch_core (x : Launch) : (s.setLaunch x).core = s.core := by unfold State.setLaunch; split <;> rfl
@[simp] theorem State.setLaunch_teams (x : Launch) : (s.setLaunch x).teams = s.teams := by unfold State.setLaunch; split <;> rfl
@[simp] theorem State.setLaunch_blocks (x : Launch) : (s.setLaunch x).blocks = s.blocks := by unfold State.setLaunch; split <;> rfl
@[simp] theorem State.setLaunch_cores (x : Launch) : (s.setLaunch x).cores = s.cores := by unfold State.setLaunch; split <;> rfl
@[simp] theorem State.setLaunch_clusters (x : Launch) : (s.setLaunch x).clusters = s.clusters := by unfold State.setLaunch; split <;> rfl
@[simp] theorem State.setLaunch_dies (x : Launch) : (s.setLaunch x).dies = s.dies := by unfold State.setLaunch; split <;> rfl
@[simp] theorem State.setLaunch_pkg (x : Launch) : (s.setLaunch x).pkg = s.pkg := by unfold State.setLaunch; split <;> rfl
@[simp] theorem State.setLaunch_mem (x : Launch) : (s.setLaunch x).mem = s.mem := by unfold State.setLaunch; split <;> rfl
@[simp] theorem State.setLaunch_hostMem (x : Launch) : (s.setLaunch x).hostMem = s.hostMem := by unfold State.setLaunch; split <;> rfl
@[simp] theorem State.setLaunch_hub (x : Launch) : (s.setLaunch x).hub = s.hub := by unfold State.setLaunch; split <;> rfl
@[simp] theorem State.setLaunch_tumbler (x : Launch) : (s.setLaunch x).tumbler = s.tumbler := by unfold State.setLaunch; split <;> rfl
@[simp] theorem State.setLaunch_links (x : Launch) : (s.setLaunch x).links = s.links := by unfold State.setLaunch; split <;> rfl
@[simp] theorem State.setLaunch_evwarn (x : Launch) : (s.setLaunch x).evwarn = s.evwarn := by unfold State.setLaunch; split <;> rfl
@[simp] theorem State.setLaunch_power (x : Launch) : (s.setLaunch x).power = s.power := by unfold State.setLaunch; split <;> rfl
@[simp] theorem State.setLaunch_time (x : Launch) : (s.setLaunch x).time = s.time := by unfold State.setLaunch; split <;> rfl
@[simp] theorem State.setLaunch_saved (x : Launch) : (s.setLaunch x).saved = s.saved := by unfold State.setLaunch; split <;> rfl
@[simp] theorem State.setLaunch_agenda (x : Launch) : (s.setLaunch x).agenda = s.agenda := by unfold State.setLaunch; split <;> rfl
@[simp] theorem State.setLaunch_xLost (x : Launch) : (s.setLaunch x).xLost = s.xLost := by unfold State.setLaunch; split <;> rfl
@[simp] theorem State.setLaunch_lastUnit (x : Launch) : (s.setLaunch x).lastUnit = s.lastUnit := by unfold State.setLaunch; split <;> rfl
@[simp] theorem State.setLaunch_sinceAuto (x : Launch) : (s.setLaunch x).sinceAuto = s.sinceAuto := by unfold State.setLaunch; split <;> rfl
@[simp] theorem State.setLaunch_autoCount (x : Launch) : (s.setLaunch x).autoCount = s.autoCount := by unfold State.setLaunch; split <;> rfl
@[simp] theorem State.setLaunch_freeCount (x : Launch) : (s.setLaunch x).freeCount = s.freeCount := by unfold State.setLaunch; split <;> rfl

/-! `State.modLaunch` -/

@[simp] theorem State.modLaunch_team (k : Nat) (f : Launch → Launch) : (s.modLaunch k f).team = s.team := by unfold State.modLaunch; split <;> simp
@[simp] theorem State.modLaunch_blk (k : Nat) (f : Launch → Launch) : (s.modLaunch k f).blk = s.blk := by unfold State.modLaunch; split <;> simp
@[simp] theorem State.modLaunch_core (k : Nat) (f : Launch → Launch) : (s.modLaunch k f).core = s.core := by unfold State.modLaunch; split <;> simp
@[simp] theorem State.modLaunch_teams (k : Nat) (f : Launch → Launch) : (s.modLaunch k f).teams = s.teams := by unfold State.modLaunch; split <;> simp
@[simp] theorem State.modLaunch_blocks (k : Nat) (f : Launch → Launch) : (s.modLaunch k f).blocks = s.blocks := by unfold State.modLaunch; split <;> simp
@[simp] theorem State.modLaunch_cores (k : Nat) (f : Launch → Launch) : (s.modLaunch k f).cores = s.cores := by unfold State.modLaunch; split <;> simp
@[simp] theorem State.modLaunch_clusters (k : Nat) (f : Launch → Launch) : (s.modLaunch k f).clusters = s.clusters := by unfold State.modLaunch; split <;> simp
@[simp] theorem State.modLaunch_dies (k : Nat) (f : Launch → Launch) : (s.modLaunch k f).dies = s.dies := by unfold State.modLaunch; split <;> simp
@[simp] theorem State.modLaunch_pkg (k : Nat) (f : Launch → Launch) : (s.modLaunch k f).pkg = s.pkg := by unfold State.modLaunch; split <;> simp
@[simp] theorem State.modLaunch_mem (k : Nat) (f : Launch → Launch) : (s.modLaunch k f).mem = s.mem := by unfold State.modLaunch; split <;> simp
@[simp] theorem State.modLaunch_hostMem (k : Nat) (f : Launch → Launch) : (s.modLaunch k f).hostMem = s.hostMem := by unfold State.modLaunch; split <;> simp
@[simp] theorem State.modLaunch_hub (k : Nat) (f : Launch → Launch) : (s.modLaunch k f).hub = s.hub := by unfold State.modLaunch; split <;> simp
@[simp] theorem State.modLaunch_tumbler (k : Nat) (f : Launch → Launch) : (s.modLaunch k f).tumbler = s.tumbler := by unfold State.modLaunch; split <;> simp
@[simp] theorem State.modLaunch_links (k : Nat) (f : Launch → Launch) : (s.modLaunch k f).links = s.links := by unfold State.modLaunch; split <;> simp
@[simp] theorem State.modLaunch_evwarn (k : Nat) (f : Launch → Launch) : (s.modLaunch k f).evwarn = s.evwarn := by unfold State.modLaunch; split <;> simp
@[simp] theorem State.modLaunch_power (k : Nat) (f : Launch → Launch) : (s.modLaunch k f).power = s.power := by unfold State.modLaunch; split <;> simp
@[simp] theorem State.modLaunch_time (k : Nat) (f : Launch → Launch) : (s.modLaunch k f).time = s.time := by unfold State.modLaunch; split <;> simp
@[simp] theorem State.modLaunch_saved (k : Nat) (f : Launch → Launch) : (s.modLaunch k f).saved = s.saved := by unfold State.modLaunch; split <;> simp
@[simp] theorem State.modLaunch_agenda (k : Nat) (f : Launch → Launch) : (s.modLaunch k f).agenda = s.agenda := by unfold State.modLaunch; split <;> simp
@[simp] theorem State.modLaunch_xLost (k : Nat) (f : Launch → Launch) : (s.modLaunch k f).xLost = s.xLost := by unfold State.modLaunch; split <;> simp
@[simp] theorem State.modLaunch_lastUnit (k : Nat) (f : Launch → Launch) : (s.modLaunch k f).lastUnit = s.lastUnit := by unfold State.modLaunch; split <;> simp
@[simp] theorem State.modLaunch_sinceAuto (k : Nat) (f : Launch → Launch) : (s.modLaunch k f).sinceAuto = s.sinceAuto := by unfold State.modLaunch; split <;> simp
@[simp] theorem State.modLaunch_autoCount (k : Nat) (f : Launch → Launch) : (s.modLaunch k f).autoCount = s.autoCount := by unfold State.modLaunch; split <;> simp
@[simp] theorem State.modLaunch_freeCount (k : Nat) (f : Launch → Launch) : (s.modLaunch k f).freeCount = s.freeCount := by unfold State.modLaunch; split <;> simp

/-! `State.setCore` -/

@[simp] theorem State.setCore_team (x : Core) : (s.setCore x).team = s.team := by unfold State.setCore; split <;> rfl
@[simp] theorem State.setCore_blk (x : Core) : (s.setCore x).blk = s.blk := by unfold State.setCore; split <;> rfl
@[simp] theorem State.setCore_launch (x : Core) : (s.setCore x).launch = s.launch := by unfold State.setCore; split <;> rfl
@[simp] theorem State.setCore_teams (x : Core) : (s.setCore x).teams = s.teams := by unfold State.setCore; split <;> rfl
@[simp] theorem State.setCore_blocks (x : Core) : (s.setCore x).blocks = s.blocks := by unfold State.setCore; split <;> rfl
@[simp] theorem State.setCore_launches (x : Core) : (s.setCore x).launches = s.launches := by unfold State.setCore; split <;> rfl
@[simp] theorem State.setCore_clusters (x : Core) : (s.setCore x).clusters = s.clusters := by unfold State.setCore; split <;> rfl
@[simp] theorem State.setCore_dies (x : Core) : (s.setCore x).dies = s.dies := by unfold State.setCore; split <;> rfl
@[simp] theorem State.setCore_pkg (x : Core) : (s.setCore x).pkg = s.pkg := by unfold State.setCore; split <;> rfl
@[simp] theorem State.setCore_mem (x : Core) : (s.setCore x).mem = s.mem := by unfold State.setCore; split <;> rfl
@[simp] theorem State.setCore_hostMem (x : Core) : (s.setCore x).hostMem = s.hostMem := by unfold State.setCore; split <;> rfl
@[simp] theorem State.setCore_hub (x : Core) : (s.setCore x).hub = s.hub := by unfold State.setCore; split <;> rfl
@[simp] theorem State.setCore_tumbler (x : Core) : (s.setCore x).tumbler = s.tumbler := by unfold State.setCore; split <;> rfl
@[simp] theorem State.setCore_links (x : Core) : (s.setCore x).links = s.links := by unfold State.setCore; split <;> rfl
@[simp] theorem State.setCore_evwarn (x : Core) : (s.setCore x).evwarn = s.evwarn := by unfold State.setCore; split <;> rfl
@[simp] theorem State.setCore_power (x : Core) : (s.setCore x).power = s.power := by unfold State.setCore; split <;> rfl
@[simp] theorem State.setCore_time (x : Core) : (s.setCore x).time = s.time := by unfold State.setCore; split <;> rfl
@[simp] theorem State.setCore_saved (x : Core) : (s.setCore x).saved = s.saved := by unfold State.setCore; split <;> rfl
@[simp] theorem State.setCore_agenda (x : Core) : (s.setCore x).agenda = s.agenda := by unfold State.setCore; split <;> rfl
@[simp] theorem State.setCore_xLost (x : Core) : (s.setCore x).xLost = s.xLost := by unfold State.setCore; split <;> rfl
@[simp] theorem State.setCore_lastUnit (x : Core) : (s.setCore x).lastUnit = s.lastUnit := by unfold State.setCore; split <;> rfl
@[simp] theorem State.setCore_sinceAuto (x : Core) : (s.setCore x).sinceAuto = s.sinceAuto := by unfold State.setCore; split <;> rfl
@[simp] theorem State.setCore_autoCount (x : Core) : (s.setCore x).autoCount = s.autoCount := by unfold State.setCore; split <;> rfl
@[simp] theorem State.setCore_freeCount (x : Core) : (s.setCore x).freeCount = s.freeCount := by unfold State.setCore; split <;> rfl

/-! `State.modCore` -/

@[simp] theorem State.modCore_team (k : Nat) (f : Core → Core) : (s.modCore k f).team = s.team := by unfold State.modCore; simp
@[simp] theorem State.modCore_blk (k : Nat) (f : Core → Core) : (s.modCore k f).blk = s.blk := by unfold State.modCore; simp
@[simp] theorem State.modCore_launch (k : Nat) (f : Core → Core) : (s.modCore k f).launch = s.launch := by unfold State.modCore; simp
@[simp] theorem State.modCore_teams (k : Nat) (f : Core → Core) : (s.modCore k f).teams = s.teams := by unfold State.modCore; simp
@[simp] theorem State.modCore_blocks (k : Nat) (f : Core → Core) : (s.modCore k f).blocks = s.blocks := by unfold State.modCore; simp
@[simp] theorem State.modCore_launches (k : Nat) (f : Core → Core) : (s.modCore k f).launches = s.launches := by unfold State.modCore; simp
@[simp] theorem State.modCore_clusters (k : Nat) (f : Core → Core) : (s.modCore k f).clusters = s.clusters := by unfold State.modCore; simp
@[simp] theorem State.modCore_dies (k : Nat) (f : Core → Core) : (s.modCore k f).dies = s.dies := by unfold State.modCore; simp
@[simp] theorem State.modCore_pkg (k : Nat) (f : Core → Core) : (s.modCore k f).pkg = s.pkg := by unfold State.modCore; simp
@[simp] theorem State.modCore_mem (k : Nat) (f : Core → Core) : (s.modCore k f).mem = s.mem := by unfold State.modCore; simp
@[simp] theorem State.modCore_hostMem (k : Nat) (f : Core → Core) : (s.modCore k f).hostMem = s.hostMem := by unfold State.modCore; simp
@[simp] theorem State.modCore_hub (k : Nat) (f : Core → Core) : (s.modCore k f).hub = s.hub := by unfold State.modCore; simp
@[simp] theorem State.modCore_tumbler (k : Nat) (f : Core → Core) : (s.modCore k f).tumbler = s.tumbler := by unfold State.modCore; simp
@[simp] theorem State.modCore_links (k : Nat) (f : Core → Core) : (s.modCore k f).links = s.links := by unfold State.modCore; simp
@[simp] theorem State.modCore_evwarn (k : Nat) (f : Core → Core) : (s.modCore k f).evwarn = s.evwarn := by unfold State.modCore; simp
@[simp] theorem State.modCore_power (k : Nat) (f : Core → Core) : (s.modCore k f).power = s.power := by unfold State.modCore; simp
@[simp] theorem State.modCore_time (k : Nat) (f : Core → Core) : (s.modCore k f).time = s.time := by unfold State.modCore; simp
@[simp] theorem State.modCore_saved (k : Nat) (f : Core → Core) : (s.modCore k f).saved = s.saved := by unfold State.modCore; simp
@[simp] theorem State.modCore_agenda (k : Nat) (f : Core → Core) : (s.modCore k f).agenda = s.agenda := by unfold State.modCore; simp
@[simp] theorem State.modCore_xLost (k : Nat) (f : Core → Core) : (s.modCore k f).xLost = s.xLost := by unfold State.modCore; simp
@[simp] theorem State.modCore_lastUnit (k : Nat) (f : Core → Core) : (s.modCore k f).lastUnit = s.lastUnit := by unfold State.modCore; simp
@[simp] theorem State.modCore_sinceAuto (k : Nat) (f : Core → Core) : (s.modCore k f).sinceAuto = s.sinceAuto := by unfold State.modCore; simp
@[simp] theorem State.modCore_autoCount (k : Nat) (f : Core → Core) : (s.modCore k f).autoCount = s.autoCount := by unfold State.modCore; simp
@[simp] theorem State.modCore_freeCount (k : Nat) (f : Core → Core) : (s.modCore k f).freeCount = s.freeCount := by unfold State.modCore; simp

/-! `State.modLink` -/

@[simp] theorem State.modLink_team (k : Nat) (f : Link → Link) : (s.modLink k f).team = s.team := by unfold State.modLink; split <;> rfl
@[simp] theorem State.modLink_blk (k : Nat) (f : Link → Link) : (s.modLink k f).blk = s.blk := by unfold State.modLink; split <;> rfl
@[simp] theorem State.modLink_core (k : Nat) (f : Link → Link) : (s.modLink k f).core = s.core := by unfold State.modLink; split <;> rfl
@[simp] theorem State.modLink_launch (k : Nat) (f : Link → Link) : (s.modLink k f).launch = s.launch := by unfold State.modLink; split <;> rfl
@[simp] theorem State.modLink_teams (k : Nat) (f : Link → Link) : (s.modLink k f).teams = s.teams := by unfold State.modLink; split <;> rfl
@[simp] theorem State.modLink_blocks (k : Nat) (f : Link → Link) : (s.modLink k f).blocks = s.blocks := by unfold State.modLink; split <;> rfl
@[simp] theorem State.modLink_cores (k : Nat) (f : Link → Link) : (s.modLink k f).cores = s.cores := by unfold State.modLink; split <;> rfl
@[simp] theorem State.modLink_launches (k : Nat) (f : Link → Link) : (s.modLink k f).launches = s.launches := by unfold State.modLink; split <;> rfl
@[simp] theorem State.modLink_clusters (k : Nat) (f : Link → Link) : (s.modLink k f).clusters = s.clusters := by unfold State.modLink; split <;> rfl
@[simp] theorem State.modLink_dies (k : Nat) (f : Link → Link) : (s.modLink k f).dies = s.dies := by unfold State.modLink; split <;> rfl
@[simp] theorem State.modLink_pkg (k : Nat) (f : Link → Link) : (s.modLink k f).pkg = s.pkg := by unfold State.modLink; split <;> rfl
@[simp] theorem State.modLink_mem (k : Nat) (f : Link → Link) : (s.modLink k f).mem = s.mem := by unfold State.modLink; split <;> rfl
@[simp] theorem State.modLink_hostMem (k : Nat) (f : Link → Link) : (s.modLink k f).hostMem = s.hostMem := by unfold State.modLink; split <;> rfl
@[simp] theorem State.modLink_hub (k : Nat) (f : Link → Link) : (s.modLink k f).hub = s.hub := by unfold State.modLink; split <;> rfl
@[simp] theorem State.modLink_tumbler (k : Nat) (f : Link → Link) : (s.modLink k f).tumbler = s.tumbler := by unfold State.modLink; split <;> rfl
@[simp] theorem State.modLink_evwarn (k : Nat) (f : Link → Link) : (s.modLink k f).evwarn = s.evwarn := by unfold State.modLink; split <;> rfl
@[simp] theorem State.modLink_power (k : Nat) (f : Link → Link) : (s.modLink k f).power = s.power := by unfold State.modLink; split <;> rfl
@[simp] theorem State.modLink_time (k : Nat) (f : Link → Link) : (s.modLink k f).time = s.time := by unfold State.modLink; split <;> rfl
@[simp] theorem State.modLink_saved (k : Nat) (f : Link → Link) : (s.modLink k f).saved = s.saved := by unfold State.modLink; split <;> rfl
@[simp] theorem State.modLink_agenda (k : Nat) (f : Link → Link) : (s.modLink k f).agenda = s.agenda := by unfold State.modLink; split <;> rfl
@[simp] theorem State.modLink_xLost (k : Nat) (f : Link → Link) : (s.modLink k f).xLost = s.xLost := by unfold State.modLink; split <;> rfl
@[simp] theorem State.modLink_lastUnit (k : Nat) (f : Link → Link) : (s.modLink k f).lastUnit = s.lastUnit := by unfold State.modLink; split <;> rfl
@[simp] theorem State.modLink_sinceAuto (k : Nat) (f : Link → Link) : (s.modLink k f).sinceAuto = s.sinceAuto := by unfold State.modLink; split <;> rfl
@[simp] theorem State.modLink_autoCount (k : Nat) (f : Link → Link) : (s.modLink k f).autoCount = s.autoCount := by unfold State.modLink; split <;> rfl
@[simp] theorem State.modLink_freeCount (k : Nat) (f : Link → Link) : (s.modLink k f).freeCount = s.freeCount := by unfold State.modLink; split <;> rfl

/-! `State.focus` -/

@[simp] theorem State.focus_clusters (k : Nat) : (s.focus k).clusters = s.clusters := by unfold State.focus; split <;> rfl
@[simp] theorem State.focus_dies (k : Nat) : (s.focus k).dies = s.dies := by unfold State.focus; split <;> rfl
@[simp] theorem State.focus_pkg (k : Nat) : (s.focus k).pkg = s.pkg := by unfold State.focus; split <;> rfl
@[simp] theorem State.focus_mem (k : Nat) : (s.focus k).mem = s.mem := by unfold State.focus; split <;> rfl
@[simp] theorem State.focus_hostMem (k : Nat) : (s.focus k).hostMem = s.hostMem := by unfold State.focus; split <;> rfl
@[simp] theorem State.focus_hub (k : Nat) : (s.focus k).hub = s.hub := by unfold State.focus; split <;> rfl
@[simp] theorem State.focus_tumbler (k : Nat) : (s.focus k).tumbler = s.tumbler := by unfold State.focus; split <;> rfl
@[simp] theorem State.focus_links (k : Nat) : (s.focus k).links = s.links := by unfold State.focus; split <;> rfl
@[simp] theorem State.focus_evwarn (k : Nat) : (s.focus k).evwarn = s.evwarn := by unfold State.focus; split <;> rfl
@[simp] theorem State.focus_power (k : Nat) : (s.focus k).power = s.power := by unfold State.focus; split <;> rfl
@[simp] theorem State.focus_time (k : Nat) : (s.focus k).time = s.time := by unfold State.focus; split <;> rfl
@[simp] theorem State.focus_saved (k : Nat) : (s.focus k).saved = s.saved := by unfold State.focus; split <;> rfl
@[simp] theorem State.focus_agenda (k : Nat) : (s.focus k).agenda = s.agenda := by unfold State.focus; split <;> rfl
@[simp] theorem State.focus_xLost (k : Nat) : (s.focus k).xLost = s.xLost := by unfold State.focus; split <;> rfl
@[simp] theorem State.focus_lastUnit (k : Nat) : (s.focus k).lastUnit = s.lastUnit := by unfold State.focus; split <;> rfl
@[simp] theorem State.focus_sinceAuto (k : Nat) : (s.focus k).sinceAuto = s.sinceAuto := by unfold State.focus; split <;> rfl
@[simp] theorem State.focus_autoCount (k : Nat) : (s.focus k).autoCount = s.autoCount := by unfold State.focus; split <;> rfl
@[simp] theorem State.focus_freeCount (k : Nat) : (s.focus k).freeCount = s.freeCount := by unfold State.focus; split <;> rfl

/-! `State.addToken` -/

@[simp] theorem State.addToken_team (q : Nat) (t : Token) : (s.addToken q t).team = s.team := by unfold State.addToken; dsimp only; split <;> rfl
@[simp] theorem State.addToken_blk (q : Nat) (t : Token) : (s.addToken q t).blk = s.blk := by unfold State.addToken; dsimp only; split <;> rfl
@[simp] theorem State.addToken_core (q : Nat) (t : Token) : (s.addToken q t).core = s.core := by unfold State.addToken; dsimp only; split <;> rfl
@[simp] theorem State.addToken_launch (q : Nat) (t : Token) : (s.addToken q t).launch = s.launch := by unfold State.addToken; dsimp only; split <;> rfl
@[simp] theorem State.addToken_teams (q : Nat) (t : Token) : (s.addToken q t).teams = s.teams := by unfold State.addToken; dsimp only; split <;> rfl
@[simp] theorem State.addToken_blocks (q : Nat) (t : Token) : (s.addToken q t).blocks = s.blocks := by unfold State.addToken; dsimp only; split <;> rfl
@[simp] theorem State.addToken_cores (q : Nat) (t : Token) : (s.addToken q t).cores = s.cores := by unfold State.addToken; dsimp only; split <;> rfl
@[simp] theorem State.addToken_launches (q : Nat) (t : Token) : (s.addToken q t).launches = s.launches := by unfold State.addToken; dsimp only; split <;> rfl
@[simp] theorem State.addToken_clusters (q : Nat) (t : Token) : (s.addToken q t).clusters = s.clusters := by unfold State.addToken; dsimp only; split <;> rfl
@[simp] theorem State.addToken_dies (q : Nat) (t : Token) : (s.addToken q t).dies = s.dies := by unfold State.addToken; dsimp only; split <;> rfl
@[simp] theorem State.addToken_pkg (q : Nat) (t : Token) : (s.addToken q t).pkg = s.pkg := by unfold State.addToken; dsimp only; split <;> rfl
@[simp] theorem State.addToken_mem (q : Nat) (t : Token) : (s.addToken q t).mem = s.mem := by unfold State.addToken; dsimp only; split <;> rfl
@[simp] theorem State.addToken_hostMem (q : Nat) (t : Token) : (s.addToken q t).hostMem = s.hostMem := by unfold State.addToken; dsimp only; split <;> rfl
@[simp] theorem State.addToken_tumbler (q : Nat) (t : Token) : (s.addToken q t).tumbler = s.tumbler := by unfold State.addToken; dsimp only; split <;> rfl
@[simp] theorem State.addToken_links (q : Nat) (t : Token) : (s.addToken q t).links = s.links := by unfold State.addToken; dsimp only; split <;> rfl
@[simp] theorem State.addToken_evwarn (q : Nat) (t : Token) : (s.addToken q t).evwarn = s.evwarn := by unfold State.addToken; dsimp only; split <;> rfl
@[simp] theorem State.addToken_power (q : Nat) (t : Token) : (s.addToken q t).power = s.power := by unfold State.addToken; dsimp only; split <;> rfl
@[simp] theorem State.addToken_time (q : Nat) (t : Token) : (s.addToken q t).time = s.time := by unfold State.addToken; dsimp only; split <;> rfl
@[simp] theorem State.addToken_saved (q : Nat) (t : Token) : (s.addToken q t).saved = s.saved := by unfold State.addToken; dsimp only; split <;> rfl
@[simp] theorem State.addToken_agenda (q : Nat) (t : Token) : (s.addToken q t).agenda = s.agenda := by unfold State.addToken; dsimp only; split <;> rfl
@[simp] theorem State.addToken_xLost (q : Nat) (t : Token) : (s.addToken q t).xLost = s.xLost := by unfold State.addToken; dsimp only; split <;> rfl
@[simp] theorem State.addToken_lastUnit (q : Nat) (t : Token) : (s.addToken q t).lastUnit = s.lastUnit := by unfold State.addToken; dsimp only; split <;> rfl
@[simp] theorem State.addToken_sinceAuto (q : Nat) (t : Token) : (s.addToken q t).sinceAuto = s.sinceAuto := by unfold State.addToken; dsimp only; split <;> rfl
@[simp] theorem State.addToken_autoCount (q : Nat) (t : Token) : (s.addToken q t).autoCount = s.autoCount := by unfold State.addToken; dsimp only; split <;> rfl
@[simp] theorem State.addToken_freeCount (q : Nat) (t : Token) : (s.addToken q t).freeCount = s.freeCount := by unfold State.addToken; dsimp only; split <;> rfl

/-! `State.fireSnapshot` -/

@[simp] theorem State.fireSnapshot_team : (s.fireSnapshot).team = s.team := by unfold State.fireSnapshot; split <;> rfl
@[simp] theorem State.fireSnapshot_blk : (s.fireSnapshot).blk = s.blk := by unfold State.fireSnapshot; split <;> rfl
@[simp] theorem State.fireSnapshot_core : (s.fireSnapshot).core = s.core := by unfold State.fireSnapshot; split <;> rfl
@[simp] theorem State.fireSnapshot_launch : (s.fireSnapshot).launch = s.launch := by unfold State.fireSnapshot; split <;> rfl
@[simp] theorem State.fireSnapshot_teams : (s.fireSnapshot).teams = s.teams := by unfold State.fireSnapshot; split <;> rfl
@[simp] theorem State.fireSnapshot_blocks : (s.fireSnapshot).blocks = s.blocks := by unfold State.fireSnapshot; split <;> rfl
@[simp] theorem State.fireSnapshot_cores : (s.fireSnapshot).cores = s.cores := by unfold State.fireSnapshot; split <;> rfl
@[simp] theorem State.fireSnapshot_launches : (s.fireSnapshot).launches = s.launches := by unfold State.fireSnapshot; split <;> rfl
@[simp] theorem State.fireSnapshot_clusters : (s.fireSnapshot).clusters = s.clusters := by unfold State.fireSnapshot; split <;> rfl
@[simp] theorem State.fireSnapshot_dies : (s.fireSnapshot).dies = s.dies := by unfold State.fireSnapshot; split <;> rfl
@[simp] theorem State.fireSnapshot_pkg : (s.fireSnapshot).pkg = s.pkg := by unfold State.fireSnapshot; split <;> rfl
@[simp] theorem State.fireSnapshot_mem : (s.fireSnapshot).mem = s.mem := by unfold State.fireSnapshot; split <;> rfl
@[simp] theorem State.fireSnapshot_hostMem : (s.fireSnapshot).hostMem = s.hostMem := by unfold State.fireSnapshot; split <;> rfl
@[simp] theorem State.fireSnapshot_tumbler : (s.fireSnapshot).tumbler = s.tumbler := by unfold State.fireSnapshot; split <;> rfl
@[simp] theorem State.fireSnapshot_links : (s.fireSnapshot).links = s.links := by unfold State.fireSnapshot; split <;> rfl
@[simp] theorem State.fireSnapshot_evwarn : (s.fireSnapshot).evwarn = s.evwarn := by unfold State.fireSnapshot; split <;> rfl
@[simp] theorem State.fireSnapshot_power : (s.fireSnapshot).power = s.power := by unfold State.fireSnapshot; split <;> rfl
@[simp] theorem State.fireSnapshot_time : (s.fireSnapshot).time = s.time := by unfold State.fireSnapshot; split <;> rfl
@[simp] theorem State.fireSnapshot_saved : (s.fireSnapshot).saved = s.saved := by unfold State.fireSnapshot; split <;> rfl
@[simp] theorem State.fireSnapshot_agenda : (s.fireSnapshot).agenda = s.agenda := by unfold State.fireSnapshot; split <;> rfl
@[simp] theorem State.fireSnapshot_xLost : (s.fireSnapshot).xLost = s.xLost := by unfold State.fireSnapshot; split <;> rfl
@[simp] theorem State.fireSnapshot_lastUnit : (s.fireSnapshot).lastUnit = s.lastUnit := by unfold State.fireSnapshot; split <;> rfl
@[simp] theorem State.fireSnapshot_sinceAuto : (s.fireSnapshot).sinceAuto = s.sinceAuto := by unfold State.fireSnapshot; split <;> rfl
@[simp] theorem State.fireSnapshot_autoCount : (s.fireSnapshot).autoCount = s.autoCount := by unfold State.fireSnapshot; split <;> rfl
@[simp] theorem State.fireSnapshot_freeCount : (s.fireSnapshot).freeCount = s.freeCount := by unfold State.fireSnapshot; split <;> rfl

end Sys2Proof.Machine
end

