-- ==== Sys2Proof/Laws/Table.lean ====
section
/-! SUPPORT. The laws of tables and byte memories: reading after a write, and that every write keeps the canonical form. -/

namespace Sys2Proof.Machine

section

variable {α : Type} {d v : α} {m : Tbl α} {j k n : Nat}

@[simp] theorem tget_nil (d : α) (k : Nat) : tget d [] k = d := rfl

theorem tget_tinsert (d v : α) (m : Tbl α) (k j : Nat) : tget d (tinsert m k v) j = if j = k then v else tget d m j := by
  induction m with
  | nil => simp [tinsert, tget]
  | cons e m ih =>
    obtain ⟨i, w⟩ := e
    unfold tinsert
    split
    · subst_vars; by_cases h : j = i <;> simp [tget, h]
    · split
      · simp [tget]
      · by_cases h : j = i
        · subst h; simp [tget, Ne.symm ‹¬k = j›]
        · simp [tget, h, ih]

theorem tget_terase (d : α) (m : Tbl α) (k j : Nat) : tget d (terase m k) j = if j = k then d else tget d m j := by
  induction m with
  | nil => simp [terase, tget]
  | cons e m ih =>
    obtain ⟨i, w⟩ := e
    unfold terase
    split
    · subst_vars; rw [ih]; by_cases h : j = i <;> simp [tget, h]
    · by_cases h : j = i
      · subst h; simp [tget, Ne.symm ‹¬k = j›]
      · simp [tget, h, ih]

/-- Reading a table after a write. -/
theorem tget_tput [DecidableEq α] (d v : α) (m : Tbl α) (k j : Nat) :
    tget d (tput d m k v) j = if j = k then v else tget d m j := by
  unfold tput
  split
  · subst_vars; exact tget_terase _ _ _ _
  · exact tget_tinsert _ _ _ _ _

@[simp] theorem tget_tput_same [DecidableEq α] (d v : α) (m : Tbl α) (k : Nat) : tget d (tput d m k v) k = v := by
  simp [tget_tput]

theorem tget_tput_ne [DecidableEq α] (d v : α) (m : Tbl α) {k j : Nat} (h : j ≠ k) : tget d (tput d m k v) j = tget d m j := by
  simp [tget_tput, h]

/-! ### The canonical form -/

theorem twf_cons [DecidableEq α] {i : Nat} {w : α} : twf d ((i, w) :: m) = true ↔ tabove i m = true ∧ w ≠ d ∧ twf d m = true := by
  simp [twf, and_assoc]

theorem tabove_mono [DecidableEq α] (h : twf d m = true) {i : Nat} (hi : tabove i m = true) :
    ∀ e ∈ m, i < e.1 := by
  induction m generalizing i with
  | nil => simp
  | cons e m ih =>
    obtain ⟨a, w⟩ := e
    rw [twf_cons] at h
    have hi' : i < a := by simpa [tabove] using hi
    intro e he
    rcases List.mem_cons.1 he with rfl | he
    · exact hi'
    · exact lt_trans hi' (ih h.2.2 h.1 e he)

theorem tabove_of_forall {i : Nat} (h : ∀ e ∈ m, i < e.1) : tabove i m = true := by
  cases m with
  | nil => rfl
  | cons e m => simpa [tabove] using h e (by simp)

theorem mem_terase {e : Nat × α} (h : e ∈ terase m k) : e ∈ m := by
  induction m with
  | nil => simp [terase] at h
  | cons x m ih =>
    obtain ⟨i, w⟩ := x
    unfold terase at h
    split at h
    · exact List.mem_cons_of_mem _ (ih h)
    · rcases List.mem_cons.1 h with rfl | h
      · simp
      · exact List.mem_cons_of_mem _ (ih h)

theorem mem_tinsert {e : Nat × α} (h : e ∈ tinsert m k v) : e = (k, v) ∨ e ∈ m := by
  induction m with
  | nil => simpa [tinsert] using h
  | cons x m ih =>
    obtain ⟨i, w⟩ := x
    unfold tinsert at h
    split at h
    · rcases List.mem_cons.1 h with h | h
      · exact .inl h
      · exact .inr (List.mem_cons_of_mem _ h)
    · split at h
      · rcases List.mem_cons.1 h with h | h
        · exact .inl h
        · exact .inr h
      · rcases List.mem_cons.1 h with rfl | h
        · simp
        · rcases ih h with h | h
          · exact .inl h
          · exact .inr (List.mem_cons_of_mem _ h)

theorem terase_wf [DecidableEq α] (h : twf d m = true) : twf d (terase m k) = true := by
  induction m with
  | nil => rfl
  | cons x m ih =>
    obtain ⟨i, w⟩ := x
    rw [twf_cons] at h
    unfold terase
    split
    · exact ih h.2.2
    · rw [twf_cons]
      exact ⟨tabove_of_forall fun e he => tabove_mono h.2.2 h.1 e (mem_terase he), h.2.1, ih h.2.2⟩

theorem tinsert_wf [DecidableEq α] (h : twf d m = true) (hv : v ≠ d) : twf d (tinsert m k v) = true := by
  induction m with
  | nil => simp [tinsert, twf, tabove, hv]
  | cons x m ih =>
    obtain ⟨i, w⟩ := x
    have h' := h
    rw [twf_cons] at h
    unfold tinsert
    split
    · rw [twf_cons]; subst_vars; exact ⟨h.1, hv, h.2.2⟩
    · split
      · rw [twf_cons]; exact ⟨by simpa [tabove], hv, h'⟩
      · rw [twf_cons]
        refine ⟨tabove_of_forall fun e he => ?_, h.2.1, ih h.2.2⟩
        rcases mem_tinsert he with rfl | he
        · show i < k; omega
        · exact tabove_mono h.2.2 h.1 e he

/-- Every write of a table keeps the canonical form. -/
theorem tput_wf [DecidableEq α] (h : twf d m = true) : twf d (tput d m k v) = true := by
  unfold tput
  split
  · exact terase_wf h
  · exact tinsert_wf h ‹_›

theorem filter_wf [DecidableEq α] (f : Nat × α → Bool) (h : twf d m = true) : twf d (m.filter f) = true := by
  induction m with
  | nil => rfl
  | cons x m ih =>
    obtain ⟨i, w⟩ := x
    rw [twf_cons] at h
    rw [List.filter_cons]
    split
    · rw [twf_cons]
      exact ⟨tabove_of_forall fun e he => tabove_mono h.2.2 h.1 e (List.mem_filter.1 he).1, h.2.1, ih h.2.2⟩
    · exact ih h.2.2

end

/-! ### Byte memories -/

theorem mem_read_write (m : Mem) (a b : Nat) (x : Byte) : (m.write a x).read b = if b = a then x else m.read b :=
  tget_tput _ _ _ _ _

/-- A byte reads back as written. -/
@[simp] theorem mem_read_write_same (m : Mem) (a : Nat) (x : Byte) : (m.write a x).read a = x := by simp [mem_read_write]

/-- A write leaves every other byte alone. -/
theorem mem_read_write_ne (m : Mem) {a b : Nat} (x : Byte) (h : b ≠ a) : (m.write a x).read b = m.read b := by
  simp [mem_read_write, h]

/-- Writing a byte keeps the canonical form. -/
theorem mem_write_wf {m : Mem} (a : Nat) (x : Byte) (h : m.wf = true) : (m.write a x).wf = true := tput_wf h

/-- Writing bytes keeps the canonical form. -/
theorem mem_writeBytes_wf {m : Mem} (a : Nat) (bs : List Byte) (h : m.wf = true) : (m.writeBytes a bs).wf = true := by
  induction bs generalizing m a with
  | nil => exact h
  | cons b bs ih => exact ih _ (mem_write_wf a b h)

/-- Reading after a write of several bytes. -/
theorem mem_read_writeBytes (m : Mem) (a : Nat) (bs : List Byte) (x : Nat) :
    (m.writeBytes a bs).read x = if a ≤ x ∧ x < a + bs.length then bs.getD (x - a) 0 else m.read x := by
  induction bs generalizing m a with
  | nil => simp [Mem.writeBytes]
  | cons b bs ih =>
    rw [Mem.writeBytes, ih, mem_read_write]
    by_cases h : x = a
    · subst h; simp
    · by_cases h2 : a ≤ x ∧ x < a + (b :: bs).length
      · have h3 : a + 1 ≤ x ∧ x < a + 1 + bs.length := by simp at h2; omega
        have : x - a = (x - (a + 1)) + 1 := by omega
        rw [if_pos h3, if_pos h2, this]; simp
      · have h3 : ¬(a + 1 ≤ x ∧ x < a + 1 + bs.length) := by simp at h2 ⊢; omega
        rw [if_neg h3, if_neg h2, if_neg h]

/-! ### Counting lists -/

@[simp] theorem mem_upList {lo n x : Nat} : x ∈ upList lo n ↔ lo ≤ x ∧ x < lo + n := by
  induction n generalizing lo with
  | zero => simp [upList]
  | succ n ih => simp [upList, ih]; omega

@[simp] theorem upList_length (lo n : Nat) : (upList lo n).length = n := by
  induction n generalizing lo with
  | zero => rfl
  | succ n ih => simp [upList, ih]

theorem upList_nodup (lo n : Nat) : (upList lo n).Nodup := by
  induction n generalizing lo with
  | zero => simp [upList]
  | succ n ih => simp [upList, ih]

end Sys2Proof.Machine
end

