-- ==== Sys2Proof/Laws/Memory.lean ====
section
/-! SUPPORT. Memory: what a byte written at its home leaves, that every operation on memory keeps the canonical form (`State.memOk`), and that a context that hears of a write keeps all but its monitor and reservations. -/

namespace Sys2Proof.Machine

variable {s : State}

/-! ### Folds -/

/-- A property that each step of a fold keeps holds after the fold. -/
theorem foldl_keeps {α β : Type} {P : β → Prop} {f : β → α → β} (h : ∀ b a, P b → P (f b a)) (xs : List α) (b : β) (hb : P b) : P (xs.foldl f b) := by
  induction xs generalizing b with
  | nil => exact hb
  | cons x xs ih => exact ih _ (h b x hb)

/-- A field that each step of a fold leaves as it was is as it was after the fold. -/
theorem foldl_same {α β γ : Type} {g : β → γ} {f : β → α → β} (h : ∀ b a, g (f b a) = g b) (xs : List α) (b : β) : g (xs.foldl f b) = g b :=
  foldl_keeps (P := fun x => g x = g b) (fun x a hx => (h x a).trans hx) xs b rfl

/-! ### One package's memory -/

@[simp] theorem State.pm_modPm (s : State) (p q : Nat) (f : PkgMem → PkgMem) : (s.modPm p f).pm q = if q = p then f (s.pm p) else s.pm q := by
  simp only [State.pm, State.modPm, tget_tput]

/-- The memory tables alone decide what a package's memory is. -/
theorem State.pm_congr {s t : State} (h : t.mem = s.mem) (p : Nat) : t.pm p = s.pm p := by simp [State.pm, h]

@[simp] theorem State.pm_mapTeams (s : State) (f : Team → Team) (p : Nat) : (s.mapTeams f).pm p = s.pm p := rfl

/-- A byte written at its home slice is read there, and every other byte of every package as before (R166). -/
theorem State.homeWrite_read (s : State) (p a : Nat) (b : Byte) (k th q x : Nat) :
    ((s.homeWrite p a b k th).pm q).bytes.read x = if q = p ∧ x = a then b else (s.pm q).bytes.read x := by
  simp only [State.homeWrite, State.pm_mapTeams, State.pm_modPm]
  by_cases hq : q = p
  · subst hq; simp [mem_read_write]
  · simp [hq]

/-- The owner entries do not change with the bytes. -/
@[simp] theorem State.homeWrite_owners (s : State) (p a : Nat) (b : Byte) (k th q : Nat) :
    ((s.homeWrite p a b k th).pm q).owners = (s.pm q).owners := by
  simp only [State.homeWrite, State.pm_mapTeams, State.pm_modPm]
  by_cases hq : q = p
  · subst hq; simp
  · simp [hq]

/-! ### What a context hears -/

/-- `u` is `tm` but for its monitor and its reservations. -/
def Team.heard (tm u : Team) : Prop := u = { tm with mon := u.mon, resv := u.resv, scalarResv := u.scalarResv }

theorem Team.heard_refl (tm : Team) : tm.heard tm := rfl
theorem Team.heard_trans {x y z : Team} (h : x.heard y) (k : y.heard z) : x.heard z := by
  unfold Team.heard at *; rw [h] at k; rw [k]
theorem Team.heard_hear (tm : Team) (r : LineRef) (lv : Level3) : tm.heard (tm.hear r lv) := by
  unfold Team.hear; split <;> rfl
theorem Team.heard_loseResv (tm : Team) (r : LineRef) (k th : Nat) : tm.heard (tm.loseResv r k th) := rfl

/-- The running context after `mapTeams` with a hearing function. -/
theorem State.mapTeams_heard (s : State) {f : Team → Team} (h : ∀ tm : Team, tm.heard (f tm)) : s.team.heard (s.mapTeams f).team := by
  unfold State.mapTeams; dsimp only; split
  · exact Team.heard_refl _
  · exact h _

theorem State.homeWrite_heard (s : State) (p a : Nat) (b : Byte) (k th : Nat) : s.team.heard (s.homeWrite p a b k th).team :=
  (s.modPm p _).mapTeams_heard fun tm => Team.heard_trans (tm.heard_hear _ _) (Team.heard_loseResv _ _ _ _)

/-! ### The canonical form -/

/-- The canonical form depends on the memories alone. -/
theorem State.memOk_of_eq {s t : State} (h : s.memOk) (hm : t.mem = s.mem) (hh : t.hostMem = s.hostMem) : t.memOk :=
  ⟨fun p => by rw [State.pm_congr hm]; exact h.1 p, by rw [hh]; exact h.2⟩

/-- The memories at reset are in their canonical form. -/
theorem State.memOk_reset : State.reset.memOk := ⟨fun _ => rfl, rfl⟩

/-- A change of one package's memory that keeps the form of its bytes. -/
theorem State.memOk_modPm (h : s.memOk) (p : Nat) {f : PkgMem → PkgMem} (hf : ∀ m : PkgMem, m.bytes.wf = true → (f m).bytes.wf = true) :
    (s.modPm p f).memOk := by
  refine ⟨fun q => ?_, h.2⟩
  rw [State.pm_modPm]
  split
  · exact hf _ (h.1 p)
  · exact h.1 q

theorem State.memOk_mapTeams (h : s.memOk) (f : Team → Team) : (s.mapTeams f).memOk := h

/-- A byte at its home slice. -/
theorem State.memOk_homeWrite (h : s.memOk) (p a : Nat) (b : Byte) (k th : Nat) : (s.homeWrite p a b k th).memOk :=
  State.memOk_mapTeams (State.memOk_modPm h p fun _ hm => mem_write_wf a b hm) _

/-- A byte of host memory. -/
theorem State.memOk_hostMem (h : s.memOk) (a : Nat) (bs : List Byte) : ({ s with hostMem := s.hostMem.writeBytes a bs } : State).memOk :=
  ⟨h.1, mem_writeBytes_wf a bs h.2⟩

/-- A byte at a cluster unit, a core's view and a scratchpad. -/
theorem State.memOk_clusWrite (h : s.memOk) (cl a : Nat) (d : DirtyByte) : (s.clusWrite cl a d).memOk := State.memOk_of_eq h rfl rfl
theorem State.memOk_viewWrite (h : s.memOk) (a : Nat) (d : DirtyByte) : (s.viewWrite a d).memOk := State.memOk_of_eq h rfl rfl
theorem State.memOk_spadWriteAt (h : s.memOk) (k o : Nat) (b : Byte) (t th : Nat) : (s.spadWriteAt k o b t th).memOk :=
  State.memOk_of_eq h (by simp [State.spadWriteAt]) (by simp [State.spadWriteAt])

/-- A store's byte, wherever it lands. -/
theorem State.memOk_land (h : s.memOk) (k : Nat) (w : PendingByte) : (s.land k w).memOk := by
  unfold State.land
  split
  · exact State.memOk_viewWrite h _ _
  · exact State.memOk_homeWrite h _ _ _ _ _
  · exact State.memOk_spadWriteAt h _ _ _ _ _
  · exact h
  · exact h
  · exact h

/-- Posted writes that reach host memory (R185). -/
theorem State.memOk_posted (h : s.memOk) (ws : List (Nat × Nat × Byte)) (q : Hub) :
    ({ s with hostMem := ws.foldl (fun m e => m.write e.2.1 e.2.2) s.hostMem, hub := q } : State).memOk :=
  ⟨h.1, foldl_keeps (P := fun m : Mem => m.wf = true) (fun _ _ hm => mem_write_wf _ _ hm) ws _ h.2⟩
theorem State.memOk_postAll (h : s.memOk) : s.postAll.memOk := State.memOk_posted h _ _
theorem State.memOk_postOne (h : s.memOk) : s.postOne.memOk := by
  unfold State.postOne
  split
  · exact h
  · exact State.memOk_posted h _ _
theorem State.memOk_hostFlush (h : s.memOk) : s.hostFlush.memOk :=
  State.memOk_mapTeams (State.memOk_postAll (foldl_keeps (P := State.memOk) (fun _ _ hx => State.memOk_land hx _ _) _ _ h)) _

/-- Bytes that go down from a core or a cluster (R167, R168). -/
theorem State.memOk_coreDown (h : s.memOk) (c : Nat) (f : Nat → Bool) : (s.coreDown c f).memOk := by
  unfold State.coreDown
  refine foldl_keeps (P := State.memOk) (fun x e hx => ?_) _ _ (State.memOk_of_eq h (by simp) (by simp))
  split
  · exact State.memOk_clusWrite hx _ _ _
  · exact hx
theorem State.memOk_clusDown (h : s.memOk) (c : Nat) (f : Nat → Bool) : (s.clusDown c f).memOk := by
  unfold State.clusDown
  refine foldl_keeps (P := State.memOk) (fun x e hx => ?_) _ _ (State.memOk_of_eq h (by simp) (by simp))
  split
  · exact State.memOk_homeWrite hx _ _ _ _ _
  · exact hx
theorem State.memOk_publish (h : s.memOk) (c : Nat) (lv : Level3) : (s.publish c lv).memOk := by
  cases lv
  · exact h
  · exact State.memOk_coreDown h _ _
  · exact State.memOk_clusDown (State.memOk_coreDown h _ _) _ _
theorem State.memOk_refresh (h : s.memOk) (c : Nat) (lv : Level3) : (s.refresh c lv).memOk := by
  cases lv
  · exact h
  · exact State.memOk_of_eq h (by simp [State.refresh]) (by simp [State.refresh])
  · exact State.memOk_of_eq (State.memOk_clusDown h (clusterOf c) fun _ => true) (by simp [State.refresh]) (by simp [State.refresh])

/-- An access that a context has in flight, when it lands. -/
theorem State.memOk_issue (h : s.memOk) (a : Access) : (s.issue a).memOk := by
  unfold State.issue
  split
  · exact h
  · exact foldl_keeps (P := State.memOk) (fun x w hx => State.memOk_land hx _ _) _ _ h

/-- Lines that come into a cluster unit or a view change no memory. -/
theorem State.clusterTake_mem (s : State) (l : Nat) : (s.clusterTake l).mem = s.mem ∧ (s.clusterTake l).hostMem = s.hostMem := by
  unfold State.clusterTake; split <;> simp
/-- Nor do they change the running context. -/
theorem State.clusterTake_team (s : State) (l : Nat) : (s.clusterTake l).team = s.team := by
  unfold State.clusterTake; split <;> rfl
theorem State.touchLine_team (s : State) (l : Nat) : (s.touchLine l).team = s.team := by
  unfold State.touchLine; dsimp only; split <;> simp [State.clusterTake_team]
theorem State.fetchLine_team (s : State) (l : Nat) : (s.fetchLine l).team = s.team := State.touchLine_team s l
theorem State.fill_team (s : State) (off : Nat) : (s.fill off).team = s.team := by
  unfold State.fill
  generalize walkBytes (s.pm s.pkg) off [40, 32, 24, 16] s.launch.root = n
  dsimp only
  split
  · rfl
  · split
    · split <;> simp only [State.modCluster_team]
    · split <;> simp only [State.modCluster_team]
theorem State.readText_team (s : State) (pc : Nat) : (s.readText pc).team = s.team := by
  unfold State.readText; dsimp only
  split
  · rw [State.fetchLine_team, State.fill_team]
  · exact State.fill_team _ _

theorem State.memOk_touchLine (h : s.memOk) (l : Nat) : (s.touchLine l).memOk := by
  have hc := State.memOk_of_eq h (s.clusterTake_mem l).1 (s.clusterTake_mem l).2
  unfold State.touchLine
  dsimp only
  split
  · exact hc
  · exact hc

/-- Fetch of a line of text changes no memory (R167). -/
theorem State.memOk_fetchLine (h : s.memOk) (l : Nat) : (s.fetchLine l).memOk := State.memOk_touchLine h l

/-- A word of a record (R254). -/
theorem State.memOk_recWord (h : s.memOk) {l : Launch} {q : DWord} {w : Word} {t : State} {own : Bool} (ht : s.recWord l own q w = some t) : t.memOk := by
  unfold State.recWord at ht
  split at ht
  · cases ht
  · split at ht
    · cases ht
    · split at ht
      · cases ht
      · cases ht
        exact foldl_keeps (P := State.memOk) (fun x b hx => State.memOk_homeWrite hx _ _ _ _ _) _ _ h
theorem State.memOk_recWords {l : Launch} {own : Bool} {base : DWord} (ws : List Word) :
    ∀ {s : State} {i : Nat} {t : State}, s.memOk → s.recWords l own base i ws = some t → t.memOk := by
  induction ws with
  | nil => intro s i t h ht; cases ht; exact h
  | cons w ws ih =>
    intro s i t h ht
    simp only [State.recWords] at ht
    split at ht
    · cases ht
    · rename_i s' hs
      exact ih (State.memOk_recWord h hs) ht

end Sys2Proof.Machine
end

