-- ==== Sys2Proof/Laws/Registers.lean ====
section
/-! SUPPORT. The laws of register files: what a read gives after a write, one register or several, one thread or all that are active. -/

namespace Sys2Proof.Machine

variable (tm : Team)

/-! ### One register -/

theorem Team.rdV_wrV (t r : Nat) (x : Word) (t' r' : Nat) :
    (tm.wrV t r x).rdV t' r' = if t' = t ∧ r' = r then x else tm.rdV t' r' := by
  unfold Team.rdV Team.wrV
  by_cases h : t' = t
  · subst h; simp [tget_tput]
  · simp [tget_tput, h]

@[simp] theorem Team.rdS_wrV (t r : Nat) (x : Word) (r' : Nat) : (tm.wrV t r x).rdS r' = tm.rdS r' := rfl
@[simp] theorem Team.rdP_wrV (t r : Nat) (x : Word) (t' : Nat) (p : Fin 8) : (tm.wrV t r x).rdP t' p = tm.rdP t' p := rfl

theorem Team.rdS_wrS (r : Nat) (x : Word) (r' : Nat) : (tm.wrS r x).rdS r' = if r' = r then x else tm.rdS r' := by
  simp [Team.rdS, Team.wrS, tget_tput]

@[simp] theorem Team.rdV_wrS (r : Nat) (x : Word) (t r' : Nat) : (tm.wrS r x).rdV t r' = tm.rdV t r' := rfl
@[simp] theorem Team.rdP_wrS (r : Nat) (x : Word) (t : Nat) (p : Fin 8) : (tm.wrS r x).rdP t p = tm.rdP t p := rfl

theorem Team.rdP_wrP (t : Nat) (p : Fin 8) (b : Bool) (t' : Nat) (q : Fin 8) :
    (tm.wrP t p b).rdP t' q = if t' = t ∧ q = p ∧ p ≠ 7 then b else tm.rdP t' q := by
  unfold Team.rdP Team.wrP
  by_cases hp : p = 7
  · simp [hp]
  · rw [if_neg hp]
    by_cases hq : q = 7
    · subst hq; simp [Ne.symm hp]
    · have hq' : (q == 7) = false := by simpa using hq
      simp only [tget_tput, hq', Bool.false_or, ne_eq, hp, not_false_eq_true, and_true]
      by_cases h : t' = t ∧ q = p
      · obtain ⟨rfl, rfl⟩ := h; simp
      · have hp8 := p.isLt
        have hq8 := q.isLt
        rw [if_neg h, if_neg]
        intro h2
        apply h
        have h3 : q.val = p.val := by omega
        exact ⟨by omega, Fin.ext h3⟩

@[simp] theorem Team.rdV_wrP (t : Nat) (p : Fin 8) (b : Bool) (t' r : Nat) : (tm.wrP t p b).rdV t' r = tm.rdV t' r := by
  unfold Team.wrP; split <;> rfl
@[simp] theorem Team.rdS_wrP (t : Nat) (p : Fin 8) (b : Bool) (r : Nat) : (tm.wrP t p b).rdS r = tm.rdS r := by
  unfold Team.wrP; split <;> rfl

/-! ### A write touches the register files alone -/

/-- `y` differs from `x` in vector and scalar registers at most. -/
def Team.regEq (x y : Team) : Prop := y = { x with v := y.v, s := y.s }

theorem Team.regEq_refl : tm.regEq tm := rfl
theorem Team.regEq_trans {x y z : Team} (h : x.regEq y) (k : y.regEq z) : x.regEq z := by
  unfold Team.regEq at *
  rw [k, h]

theorem Team.regEq_wrV (t r : Nat) (x : Word) : tm.regEq (tm.wrV t r x) := rfl
theorem Team.regEq_wrS (r : Nat) (x : Word) : tm.regEq (tm.wrS r x) := rfl
theorem Team.regEq_wr (d : Reg) (k t : Nat) (x : Word) : tm.regEq (tm.wr d k t x) := by cases d <;> rfl

theorem Team.regEq_foldl {α : Type} (f : Team → α → Team) (hf : ∀ (x : Team) a, x.regEq (f x a)) (l : List α) :
    tm.regEq (l.foldl f tm) := by
  induction l generalizing tm with
  | nil => exact tm.regEq_refl
  | cons a l ih => exact Team.regEq_trans (hf tm a) (ih _)

theorem Team.regEq_wrWords (d : Reg) (t : Nat) (ws : List Word) : tm.regEq (tm.wrWords d t ws) :=
  Team.regEq_foldl _ _ (fun x _ => x.regEq_wr _ _ _ _) _

/-! ### The words of one destination -/

/-- What one write of a destination word does to the vector registers. -/
theorem Team.rdV_wr (d : Reg) (k t : Nat) (x : Word) (t' r : Nat) :
    (tm.wr d k t x).rdV t' r =
      match d with
      | .v i => if t' = t ∧ r = 8 * tm.wb + i.val + k then x else tm.rdV t' r
      | _ => tm.rdV t' r := by
  cases d <;> simp [Team.wr, Team.rdV_wrV]

theorem Team.rdS_wr (d : Reg) (k t : Nat) (x : Word) (r : Nat) :
    (tm.wr d k t x).rdS r =
      match d with
      | .s i => if r = i.val + k then x else tm.rdS r
      | _ => tm.rdS r := by
  cases d <;> simp [Team.wr, Team.rdS_wrS]

@[simp] theorem Team.rdP_wr (d : Reg) (k t : Nat) (x : Word) (t' : Nat) (p : Fin 8) : (tm.wr d k t x).rdP t' p = tm.rdP t' p := by
  cases d <;> rfl

@[simp] theorem Team.wb_wr (d : Reg) (k t : Nat) (x : Word) : (tm.wr d k t x).wb = tm.wb := by cases d <;> rfl

theorem Team.wrWords_from (d : Reg) (t n : Nat) (ws : List Word) :
    ((ws.zipIdx n).foldl (fun tm w => tm.wr d w.2 t w.1) tm).wb = tm.wb ∧
    (∀ t' r, ((ws.zipIdx n).foldl (fun tm w => tm.wr d w.2 t w.1) tm).rdV t' r =
      match d with
      | .v i => if t' = t ∧ 8 * tm.wb + i.val + n ≤ r ∧ r < 8 * tm.wb + i.val + n + ws.length
          then ws.getD (r - (8 * tm.wb + i.val + n)) 0 else tm.rdV t' r
      | _ => tm.rdV t' r) ∧
    (∀ r, ((ws.zipIdx n).foldl (fun tm w => tm.wr d w.2 t w.1) tm).rdS r =
      match d with
      | .s i => if i.val + n ≤ r ∧ r < i.val + n + ws.length then ws.getD (r - (i.val + n)) 0 else tm.rdS r
      | _ => tm.rdS r) ∧
    (∀ t' p, ((ws.zipIdx n).foldl (fun tm w => tm.wr d w.2 t w.1) tm).rdP t' p = tm.rdP t' p) := by
  induction ws generalizing tm n with
  | nil =>
    refine ⟨rfl, fun t' r => ?_, fun r => ?_, fun _ _ => rfl⟩
    · cases d <;> simp
    · cases d <;> simp
  | cons w ws ih =>
    obtain ⟨h1, h2, h3, h4⟩ := ih (tm.wr d n t w) (n + 1)
    refine ⟨by simpa using h1, fun t' r => ?_, fun r => ?_, fun t' p => by simpa using h4 t' p⟩
    · rw [List.zipIdx_cons, List.foldl_cons, h2]
      cases d with
      | v i =>
        simp only [Team.wb_wr, Team.rdV_wr, List.length_cons]
        by_cases ht : t' = t
        · subst ht
          by_cases hr : r = 8 * tm.wb + i.val + n
          · subst hr; simp
          · by_cases h : 8 * tm.wb + i.val + n ≤ r ∧ r < 8 * tm.wb + i.val + n + (ws.length + 1)
            · have e : r - (8 * tm.wb + i.val + n) = (r - (8 * tm.wb + i.val + (n + 1))) + 1 := by omega
              have h' : 8 * tm.wb + i.val + (n + 1) ≤ r ∧ r < 8 * tm.wb + i.val + (n + 1) + ws.length := by omega
              simp [h', h, e]
            · have h' : ¬(8 * tm.wb + i.val + (n + 1) ≤ r ∧ r < 8 * tm.wb + i.val + (n + 1) + ws.length) := by omega
              simp [h', h, hr]
        · simp [ht]
      | _ => simp [Team.rdV_wr]
    · rw [List.zipIdx_cons, List.foldl_cons, h3]
      cases d with
      | s i =>
        simp only [Team.rdS_wr, List.length_cons]
        by_cases hr : r = i.val + n
        · subst hr; simp
        · by_cases h : i.val + n ≤ r ∧ r < i.val + n + (ws.length + 1)
          · have e : r - (i.val + n) = (r - (i.val + (n + 1))) + 1 := by omega
            have h' : i.val + (n + 1) ≤ r ∧ r < i.val + (n + 1) + ws.length := by omega
            simp [h', h, e]
          · have h' : ¬(i.val + (n + 1) ≤ r ∧ r < i.val + (n + 1) + ws.length) := by omega
            simp [h', h, hr]
      | _ => simp [Team.rdS_wr]

theorem Team.rdV_wrWords (d : Reg) (t : Nat) (ws : List Word) (t' r : Nat) :
    (tm.wrWords d t ws).rdV t' r =
      match d with
      | .v i => if t' = t ∧ 8 * tm.wb + i.val ≤ r ∧ r < 8 * tm.wb + i.val + ws.length then ws.getD (r - (8 * tm.wb + i.val)) 0
          else tm.rdV t' r
      | _ => tm.rdV t' r := by
  have h := (tm.wrWords_from d t 0 ws).2.1 t' r
  cases d <;> simpa [Team.wrWords] using h

theorem Team.rdS_wrWords (d : Reg) (t : Nat) (ws : List Word) (r : Nat) :
    (tm.wrWords d t ws).rdS r =
      match d with
      | .s i => if i.val ≤ r ∧ r < i.val + ws.length then ws.getD (r - i.val) 0 else tm.rdS r
      | _ => tm.rdS r := by
  have h := (tm.wrWords_from d t 0 ws).2.2.1 r
  cases d <;> simpa [Team.wrWords] using h

@[simp] theorem Team.rdP_wrWords (d : Reg) (t : Nat) (ws : List Word) (t' : Nat) (p : Fin 8) :
    (tm.wrWords d t ws).rdP t' p = tm.rdP t' p := (tm.wrWords_from d t 0 ws).2.2.2 t' p

@[simp] theorem Team.wb_wrWords (d : Reg) (t : Nat) (ws : List Word) : (tm.wrWords d t ws).wb = tm.wb :=
  (tm.wrWords_from d t 0 ws).1

/-! ### The words of every listed thread -/

/-- Writing one list of words in each of several threads, by a vector destination or none. -/
theorem Team.rdV_wrAll (d : Reg) (f : Nat → List Word) (ts : List Nat) (hts : ts.Nodup) (t r : Nat) :
    (ts.foldl (fun x u => x.wrWords d u (f u)) tm).rdV t r =
      match d with
      | .v i => if t ∈ ts ∧ 8 * tm.wb + i.val ≤ r ∧ r < 8 * tm.wb + i.val + (f t).length then (f t).getD (r - (8 * tm.wb + i.val)) 0
          else tm.rdV t r
      | _ => tm.rdV t r := by
  induction ts generalizing tm with
  | nil => cases d <;> simp
  | cons u us ih =>
    rw [List.foldl_cons, ih _ (List.nodup_cons.1 hts).2]
    cases d with
    | v i =>
      simp only [Team.wb_wrWords, Team.rdV_wrWords, List.mem_cons]
      by_cases hu : t = u
      · subst hu
        have hn : t ∉ us := (List.nodup_cons.1 hts).1
        simp [hn]
      · simp [hu]
    | _ => simp [Team.rdV_wrWords]

theorem Team.rdS_wrAll (d : Reg) (hd : d.isS = false) (f : Nat → List Word) (ts : List Nat) (r : Nat) :
    (ts.foldl (fun x u => x.wrWords d u (f u)) tm).rdS r = tm.rdS r := by
  induction ts generalizing tm with
  | nil => rfl
  | cons u us ih =>
    rw [List.foldl_cons, ih, Team.rdS_wrWords]
    cases d <;> simp_all [Reg.isS]

theorem Team.rdP_wrAll (d : Reg) (f : Nat → List Word) (ts : List Nat) (t : Nat) (p : Fin 8) :
    (ts.foldl (fun x u => x.wrWords d u (f u)) tm).rdP t p = tm.rdP t p := by
  induction ts generalizing tm with
  | nil => rfl
  | cons u us ih => rw [List.foldl_cons, ih, Team.rdP_wrWords]

theorem Team.regEq_wrAll (d : Reg) (f : Nat → List Word) (ts : List Nat) :
    tm.regEq (ts.foldl (fun x u => x.wrWords d u (f u)) tm) :=
  Team.regEq_foldl _ _ (fun x _ => x.regEq_wrWords _ _ _) _

/-! ### The active threads -/

@[simp] theorem Team.mem_actives (t : Nat) : t ∈ tm.actives ↔ tm.active t = true := by
  simp only [Team.actives, List.mem_filter, mem_upList, Nat.zero_le, true_and, Nat.zero_add, and_iff_right_iff_imp]
  intro h
  simp [Team.active, Team.live] at h
  exact h.1.1

theorem Team.actives_nodup : tm.actives.Nodup := List.Nodup.filter _ (upList_nodup _ _)

/-- Writing one predicate in each of several threads. -/
theorem Team.rdP_wrPs (p : Fin 8) (f : Nat → Bool) (ts : List Nat) (hts : ts.Nodup) (t : Nat) (q : Fin 8) :
    (ts.foldl (fun x u => x.wrP u p (f u)) tm).rdP t q = if q = p ∧ p ≠ 7 ∧ t ∈ ts then f t else tm.rdP t q := by
  induction ts generalizing tm with
  | nil => simp
  | cons u us ih =>
    rw [List.foldl_cons, ih _ (List.nodup_cons.1 hts).2, Team.rdP_wrP]
    by_cases hu : t = u
    · subst hu
      have hn : t ∉ us := (List.nodup_cons.1 hts).1
      by_cases hq : q = p ∧ p ≠ 7 <;> simp_all
    · simp [hu]

/-- `y` differs from `x` in predicates at most. -/
def Team.predEq (x y : Team) : Prop := y = { x with p := y.p }

theorem Team.predEq_wrPs (p : Fin 8) (f : Nat → Bool) (ts : List Nat) : tm.predEq (ts.foldl (fun x u => x.wrP u p (f u)) tm) := by
  induction ts generalizing tm with
  | nil => rfl
  | cons u us ih =>
    rw [List.foldl_cons]
    have h := ih (tm.wrP u p (f u))
    have h1 : tm.predEq (tm.wrP u p (f u)) := by unfold Team.predEq Team.wrP; split <;> rfl
    unfold Team.predEq at *
    rw [h, h1]

end Sys2Proof.Machine
end

