-- ==== Sys2Proof/Laws/Ops.lean ====
section
/-! SUPPORT. The shared operations of Machine/Ops.lean: what the end of a word, a trap and its return, waking and parking can do. -/

namespace Sys2Proof.Machine

variable {s : State} {tm : Team}

/-! ### Outstanding accesses and results -/

/-- Accesses that have not completed keep their place and their paths (R28). -/
theorem retire_undone {l : List Access} (h : ∀ a ∈ l, a.done = false ∧ a.donePaths = []) (held : List Path) : retire held l = l := by
  induction l generalizing held with
  | nil => rfl
  | cons a as ih =>
    have ha := h a (by simp)
    have ht := ih (fun b hb => h b (by simp [hb]))
    have hl : (a.paths.filter fun p => !a.doneOn p || decide (p ∈ held)) = a.paths := by
      simp [Access.doneOn, ha.1, ha.2]
    cases a
    simp_all [retire]

theorem Team.writeAll_nil (tm : Team) : tm.writeAll [] = { tm with inflight := retire [] tm.inflight } := rfl

/-- Writing an outstanding result touches registers alone (R25). -/
theorem Pending.regEq_write (p : Pending) (tm : Team) : tm.regEq (p.write tm) := by
  refine Team.regEq_foldl tm _ (fun x e => Team.regEq_foldl x _ (fun y w => ?_) _) _
  cases p.dst
  · exact Team.regEq_wrV _ _ _ _
  · exact Team.regEq_wrS _ _ _
  · exact Team.regEq_refl _

theorem Team.regEq_writes (ps : List Pending) (tm : Team) : tm.regEq (ps.foldl (fun x p => p.write x) tm) :=
  Team.regEq_foldl tm _ (fun x p => p.regEq_write x) ps

/-- What results that are written can change: registers, and the accesses in flight. -/
theorem Team.writeAll_frame (tm : Team) (ps : List Pending) :
    tm.writeAll ps = { tm with v := (tm.writeAll ps).v, s := (tm.writeAll ps).s, inflight := (tm.writeAll ps).inflight } := by
  have h := Team.regEq_writes ps.reverse tm
  unfold Team.regEq at h
  unfold Team.writeAll
  dsimp only
  generalize ps.reverse.foldl (fun x p => p.write x) tm = x at h ⊢
  cases x; cases tm
  simp_all

theorem Team.flush_empty (h : tm.pend = []) : tm.flush = { tm with pend := [], inflight := retire [] tm.inflight } := by
  simp [Team.flush, h, Team.writeAll_nil]

theorem Team.tick_empty (h : tm.pend = []) : tm.tick = { tm with pend := [], inflight := retire [] tm.inflight } := by
  simp [Team.tick, h, Team.writeAll_nil]

/-- With nothing outstanding there is nothing to write. -/
theorem Team.flush_settled (h : tm.pend = []) (k : tm.inflight = []) : tm.flush = tm := by
  rw [Team.flush_empty h, k, retire]; cases tm; simp_all
theorem Team.tick_settled (h : tm.pend = []) (k : tm.inflight = []) : tm.tick = tm := by
  rw [Team.tick_empty h, k, retire]; cases tm; simp_all

/-- With no access in flight there is nothing to drain. -/
theorem State.drain_settled (h : s.team.inflight = []) : s.drain = s := by
  unfold State.drain
  rw [h]
  obtain ⟨tm, _⟩ := s
  cases tm; simp_all [retire]

/-! ### The end of a word -/

/-- The end of a word changes the running context, its quarter's bookkeeping and the waiting of the other teams and of comparisons, and nothing else (R13, R202, R246). -/
theorem State.finishPasses_frame (s : State) (ps : List Nat) (n : Nat) :
    s.finishPasses ps n = { s with team := (s.finishPasses ps n).team, teams := (s.finishPasses ps n).teams, core := { s.core with quarters := (s.finishPasses ps n).core.quarters, hinges := (s.finishPasses ps n).core.hinges } } := by
  unfold State.finishPasses; dsimp only; split <;> rfl

theorem State.finishPasses_world (s : State) (ps : List Nat) (n : Nat) : SameWorld s (s.finishPasses ps n) := by
  rw [State.finishPasses_frame]; simp [SameWorld]

theorem State.finishAt_frame (s : State) (c n : Nat) :
    s.finishAt c n = { s with team := (s.finishAt c n).team, teams := (s.finishAt c n).teams, core := { s.core with quarters := (s.finishAt c n).core.quarters, hinges := (s.finishAt c n).core.hinges } } :=
  State.finishPasses_frame s _ n

theorem State.finishAt_world (s : State) (c n : Nat) : SameWorld s (s.finishAt c n) := State.finishPasses_world s _ n

/-- A word of no pass. -/
theorem State.finishPasses_nil (s : State) (n : Nat) : s.finishPasses [] n = { s with team := s.team.finish 0 n } := by
  simp [State.finishPasses]

/-- A word that holds its quarter for no cycle. -/
theorem State.finishAt_zero (s : State) (n : Nat) : s.finishAt 0 n = { s with team := s.team.finish 0 n } := by
  simp [State.finishAt, State.finishPasses_nil]

/-! ### Words that the front-end has executed ahead -/

/-- A queue at whose head a vector word stands, or none, stays as it is. -/
theorem Team.settleRan_vector {q : List QueueWord} (h : ∀ e ∈ q.head?, e.ran = none) (tm : Team) : Team.settleRan q tm = { tm with queue := q } := by
  cases q with
  | nil => rfl
  | cons e r => simp [Team.settleRan, h e (by simp)]

/-- A scalar word that has been executed ahead takes its place once nothing comes before it: its registers hold what it has written, and the team goes on where it has gone (R222). -/
theorem Team.settleRan_ran {e : QueueWord} {x : RanWord} {r : List QueueWord} (h : e.ran = some x) (tm : Team) (hp : e.pc = tm.pc) :
    Team.settleRan (e :: r) tm = Team.settleRan r ((x.regs.foldl (fun tm w => tm.wrS w.1 w.2) tm).pastWord 0 x.next) := by
  simp [Team.settleRan, h, hp]

/-- What the end of a word makes of a context with nothing outstanding. -/
theorem Team.pastWord_settled (h : tm.pend = []) (k : tm.inflight = []) (c n : Nat) : tm.pastWord c n =
    { tm with pc := n, fair := tm.fair + c, deferred := tm.deferred.map (· - 1), hitBps := tm.keptHits, hitAt := if tm.hitAt = some tm.pc then tm.hitAt else none, decided := none, auditHeld := none, captured := false, fresh := false,
              promised := none, shadow := tm.shadow - 1, probation := tm.probation.filter fun r => decide (r.1 ≤ tm.current) && decide (tm.current < r.2) } := by
  unfold Team.pastWord
  rw [Team.tick_settled] <;> simp [h, k]

theorem Team.finish_settled (h : tm.pend = []) (k : tm.inflight = []) (c n : Nat) (hq : ∀ e ∈ (tm.queueAfter n).head?, e.ran = none) : tm.finish c n =
    { tm with pc := n, fair := tm.fair + c, deferred := tm.deferred.map (· - 1), hitBps := tm.keptHits, hitAt := if tm.hitAt = some tm.pc then tm.hitAt else none, decided := none, auditHeld := none, captured := false, fresh := false,
              queue := tm.queueAfter n, promised := none, shadow := tm.shadow - 1, probation := tm.probation.filter fun r => decide (r.1 ≤ tm.current) && decide (tm.current < r.2) } := by
  unfold Team.finish
  rw [Team.settleRan_vector hq, Team.pastWord_settled h k]

/-- What one word more in the shadows can change: registers, and what is outstanding. -/
theorem Team.tick_frame (tm : Team) : tm.tick = { tm with v := tm.tick.v, s := tm.tick.s, inflight := tm.tick.inflight, pend := tm.tick.pend, awaited := tm.tick.awaited } := by
  unfold Team.tick
  dsimp only
  have h := Team.writeAll_frame tm ((tm.pend.map fun p => { p with left := p.left - 1 }).filter fun p => p.left == 0)
  generalize tm.writeAll ((tm.pend.map fun p => { p with left := p.left - 1 }).filter fun p => p.left == 0) = x at h ⊢
  cases x; cases tm
  simp_all
theorem Team.flush_frame (tm : Team) : tm.flush = { tm with v := tm.flush.v, s := tm.flush.s, inflight := tm.flush.inflight, pend := [] } := by
  unfold Team.flush
  dsimp only
  have h := Team.writeAll_frame tm tm.pend
  generalize tm.writeAll tm.pend = x at h ⊢
  cases x; cases tm
  simp_all

/-- What the end of a word can change in its context: where it goes on, its accounts and marks, its registers, and what is outstanding. -/
def Team.past (a b : Team) : Prop :=
  b = { a with pc := b.pc, fair := b.fair, deferred := b.deferred, hitBps := b.hitBps, hitAt := b.hitAt, decided := b.decided, auditHeld := b.auditHeld, captured := b.captured, fresh := b.fresh,
               promised := b.promised, shadow := b.shadow, probation := b.probation, v := b.v, s := b.s, inflight := b.inflight, pend := b.pend, awaited := b.awaited, queue := b.queue }

theorem Team.past_trans {a b c : Team} (h : a.past b) (k : b.past c) : a.past c := by
  cases a; cases b; cases c; simp_all [Team.past]

theorem Team.past_pastWord (tm : Team) (c n : Nat) : tm.past (tm.pastWord c n) := by
  unfold Team.past Team.pastWord
  rw [Team.tick_frame]

theorem Team.past_queue (tm : Team) (q : List QueueWord) : tm.past { tm with queue := q } := rfl

theorem Team.past_regEq {a b : Team} (h : a.regEq b) : a.past b := by
  cases a; cases b; simp_all [Team.past, Team.regEq]

theorem Team.past_settleRan (q : List QueueWord) (tm : Team) : tm.past (Team.settleRan q tm) := by
  induction q generalizing tm with
  | nil => exact Team.past_queue tm []
  | cons e r ih =>
    unfold Team.settleRan
    split
    · rename_i x _
      split
      · exact Team.past_trans (Team.past_trans (Team.past_regEq (Team.regEq_foldl tm (fun (a : Team) (w : Nat × Word) => a.wrS w.1 w.2) (fun a w => Team.regEq_wrS a w.1 w.2) x.regs)) (Team.past_pastWord _ _ _)) (ih _)
      · exact Team.past_queue tm []
    · exact Team.past_queue tm _

/-- The end of a word, with the scalar words that follow it, leaves all of the context but that. -/
theorem Team.past_finish (tm : Team) (c n : Nat) : tm.past (tm.finish c n) :=
  Team.past_trans (Team.past_pastWord tm c n) (Team.past_settleRan _ _)

/-- A word of `c` cycles in `p` passes: with a cycle for each there are `p` of them. -/
theorem passCycles_length {c p : Nat} (hp : 1 ≤ p) (h : p ≤ c) : (passCycles c p).length = p := by
  unfold passCycles
  split
  · simp; omega
  · simp; omega

/-- No pass of a word that takes cycles is without one. -/
theorem passCycles_pos {c p x : Nat} (hc : c ≠ 0) (h : x ∈ passCycles c p) : x ≠ 0 := by
  unfold passCycles at h
  split at h
  · simp at h; omega
  · rename_i hp
    have hq : 1 ≤ c / p := (Nat.one_le_div_iff (by omega)).2 (by omega)
    have hm : (p - 1) * (c / p) + c / p ≤ c := by
      rw [← Nat.succ_mul, Nat.succ_eq_add_one, Nat.sub_add_cancel (by omega)]
      exact Nat.mul_div_le c p
    simp only [List.mem_append, List.mem_replicate, List.mem_singleton] at h
    rcases h with ⟨_, rfl⟩ | rfl <;> omega

/-- The passes of a word take its cycles together (R13). -/
theorem passCycles_sum (c p : Nat) : (passCycles c p).sum = c := by
  unfold passCycles
  split
  · simp
  · have hm : (p - 1) * (c / p) ≤ c :=
      (Nat.mul_le_mul_right _ (Nat.sub_le p 1)).trans (Nat.mul_div_le c p)
    simp; omega

/-- A pass changes its quarter's bookkeeping and what the teams of the quarter count, and of the running team what it owes, its own count and, behind a region's last pass, its hold (R202, R239). -/
theorem State.issuePass_frame (s : State) :
    s.issuePass = { s with team := ({ s.team with passed := 0, yielded := false, owed := s.team.owed.tail } : Team).beginHold s.freeCount, teams := s.issuePass.teams,
                           core := { s.core with quarters := s.issuePass.core.quarters, hinges := s.issuePass.core.hinges } } := rfl

/-- A capture's hold changes where the context is parked, and nothing else. -/
theorem Team.beginHold_frame (tm : Team) (c : Nat) : tm.beginHold c = { tm with parked := (tm.beginHold c).parked, holdFor := (tm.beginHold c).holdFor } := by
  unfold Team.beginHold; split <;> rfl

/-- No region ends with the word: no hold follows it. -/
theorem Team.beginHold_none (h : tm.holdFor = 0) (c : Nat) : tm.beginHold c = tm := by simp [Team.beginHold, h]

/-- The pc after a word behind which no word has been executed ahead. -/
theorem Team.tick_pc (tm : Team) : tm.tick.pc = tm.pc := by rw [Team.tick_frame]
theorem Team.finish_pc {n : Nat} (c : Nat) (hq : ∀ e ∈ (tm.queueAfter n).head?, e.ran = none) : (tm.finish c n).pc = n := by
  unfold Team.finish; rw [Team.settleRan_vector hq]; simp [Team.pastWord, Team.tick_pc]
theorem State.issuePass_pc (s : State) : s.issuePass.team.pc = s.team.pc := by
  rw [State.issuePass_frame]; dsimp only; rw [Team.beginHold_frame]
theorem State.finishPasses_pc {n : Nat} (s : State) (ps : List Nat) (hq : ∀ e ∈ (s.team.queueAfter n).head?, e.ran = none) : (s.finishPasses ps n).team.pc = n := by
  unfold State.finishPasses; dsimp only
  split
  · exact Team.finish_pc _ hq
  · rw [State.issuePass_pc]; exact Team.finish_pc _ hq
theorem State.finishAt_pc {n : Nat} (s : State) (c : Nat) (hq : ∀ e ∈ (s.team.queueAfter n).head?, e.ran = none) : (s.finishAt c n).team.pc = n :=
  State.finishPasses_pc s _ hq

/-! ### Traps -/

/-- A team with a handler, not in it, enters it once no earlier store waits for a link (R221). -/
theorem State.takeTrap_enter {e : Nat} (c : TrapCause) (hk : s.team.kind = .team) (hc : s.team.trapCtx = none) (he : s.launch.trapent = some e)
    (hf : s.team.inflight.any s.farHeld = false) : s.takeTrap c = s.enterTrap c e := by
  simp [State.takeTrap, hk, hc, he, hf]

/-- While one does, the team waits at its word, and what it has taken ahead is unwound (R221, R222, R285). -/
theorem State.takeTrap_waits {e : Nat} (c : TrapCause) (hk : s.team.kind = .team) (hc : s.team.trapCtx = none) (he : s.launch.trapent = some e)
    (hf : s.team.inflight.any s.farHeld = true) :
    s.takeTrap c = { s with team := { s.team with parked := some (.trap c), cand := none, promised := none, queue := [], owed := [] } } := by
  simp [State.takeTrap, hk, hc, he, hf]

/-- While a link moves data no store waits for one. -/
theorem State.farHeld_linked (h : s.linked = true) (l : List Access) : l.any s.farHeld = false := by
  simp [State.farHeld, h]

/-- A trap inside a handler, and one in a launch without a handler, fail the launch (R221, R223). -/
theorem State.takeTrap_double {e : Nat} (c : TrapCause) (hk : s.team.kind = .team) (hc : s.team.trapCtx ≠ none) (he : s.launch.trapent = some e) :
    s.takeTrap c = s.failHere (classCode c.cls) .doubleFault c.addr := by
  cases h : s.team.trapCtx with
  | none => exact absurd h hc
  | some x => simp [State.takeTrap, hk, h, he]
theorem State.takeTrap_noEntry (c : TrapCause) (hk : s.team.kind = .team) (he : s.launch.trapent = none) :
    s.takeTrap c = s.failHere (classCode c.cls) .noEntry c.addr := by
  simp [State.takeTrap, hk, he]

/-- Entering a handler with no access in flight changes the running team alone. -/
theorem State.enterTrap_world (h : s.team.inflight = []) (hp : s.team.pend = []) (c : TrapCause) (e : Nat) :
    s.enterTrap c e = { s with team := (s.enterTrap c e).team } := by
  unfold State.enterTrap
  rw [Team.flush_settled hp h, State.drain_settled h]

/-! ### Waking -/

/-- No context of the package is parked. -/
def State.awake (s : State) : Prop := ∀ tm ∈ tvals s.teamTbl, tm.parked = none

theorem State.awake_of {s : State} (h : s.team.parked = none) (ht : ∀ e ∈ s.teams, ∀ tm, e.2 = some tm → tm.parked = none) : s.awake := by
  intro tm hm
  simp only [tvals, List.mem_filterMap] at hm
  obtain ⟨e, he, hs⟩ := hm
  unfold State.teamTbl at he
  split at he
  · exact ht e he tm hs
  · rcases mem_tinsert he with h1 | h1
    · subst h1; simp at hs; subst hs; exact h
    · exact ht e h1 tm hs

theorem State.firstParked_awake (h : s.awake) (k : Nat) (c : Park) : s.firstParked k c = none := by
  have : ((s.teamsOf k).filter fun t => t.parked == some c && !t.stopped) = [] := by
    rw [List.filter_eq_nil_iff]
    intro t ht
    have : t.parked = none := h t (List.mem_of_mem_filter (List.mem_of_mem_filter ht))
    simp [this]
  simp [State.firstParked, this]

theorem State.giveJoinFaults_awake (h : s.awake) (e : Engine) (k : Nat) : s.giveJoinFaults e k = s := by
  unfold State.giveJoinFaults
  split
  · rfl
  · dsimp only
    split
    · rfl
    · rw [State.firstParked_awake h]

theorem State.giveFork_awake (h : s.awake) (e : Engine) (k : Nat) : s.giveFork e k = s := by
  unfold State.giveFork
  rw [State.firstParked_awake h]
  split <;> simp_all

theorem foldl_id {α β : Type} {f : β → α → β} {b : β} (h : ∀ a, f b a = b) (xs : List α) : xs.foldl f b = b := by
  induction xs with
  | nil => rfl
  | cons x xs ih => rw [List.foldl_cons, h, ih]

/-- With nobody parked nobody wakes (R207). -/
theorem State.wakeAll_awake (h : s.awake) : s.wakeAll = s := by
  have hp : s.wakePass = s := by
    have h1 : ∀ l : List Block, l.foldl (fun (s : State) b => (s.giveJoinFaults .mx b.key).giveJoinFaults .cp b.key) s = s :=
      fun l => foldl_id (fun b => by rw [State.giveJoinFaults_awake h, State.giveJoinFaults_awake h]) l
    have h2 : ∀ l : List Block, l.foldl (fun (s : State) b => (s.giveFork .mx b.key).giveFork .cp b.key) s = s :=
      fun l => foldl_id (fun b => by rw [State.giveFork_awake h, State.giveFork_awake h]) l
    have h3 : ((tvals s.teamTbl).filter fun t => t.parked.isSome) = [] := by
      rw [List.filter_eq_nil_iff]
      intro t ht
      simp [h t ht]
    unfold State.wakePass
    dsimp only
    rw [h1, h3, List.foldl_nil, h2]
  rw [State.wakeAll, hp, hp]

/-- A context whose condition does not hold stays as it is (R206). -/
theorem State.wakeOne_stays {k : Nat} {tm : Team} {c : Park} (h : s.getTeam k = some tm) (hc : tm.parked = some c) (hn : s.parkHolds tm c = false) :
    s.wakeOne k = s := by
  simp [State.wakeOne, h, hc, hn]

/-- A context that is not parked, and a number that no context has, wake nothing (R207). -/
theorem State.wakeOne_idle {k : Nat} (h : ∀ tm, s.getTeam k = some tm → tm.parked = none) : s.wakeOne k = s := by
  unfold State.wakeOne
  split
  · rfl
  · rename_i tm ht
    rw [h tm ht]

/-- A context of which a path counter or a latch generation has come goes on after its word (R206, R207). -/
theorem State.wakeOne_word {k : Nat} {tm : Team} {c : Park} (h : s.getTeam k = some tm) (hc : tm.parked = some c) (hs : tm.stopped = false)
    (hk : (∃ p n, c = .path p n) ∨ ∃ l g, c = .latch l g) (hp : s.parkHolds tm c = true) :
    s.wakeOne k = s.setTeam (({ tm with parked := none } : Team).finish 0 (tm.pc + 4)) := by
  obtain ⟨p, n, rfl⟩ | ⟨l, g, rfl⟩ := hk <;> simp [State.wakeOne, h, hc, hs, hp]

end Sys2Proof.Machine
end

