-- ==== Sys2Proof/Laws/Results.lean ====
section
/-! SUPPORT. Outstanding results (R25): what the registers hold once a result with lookahead is written. -/

namespace Sys2Proof.Machine

variable (tm : Team)

/-- One word of a result. -/
def Team.putWord (tm : Team) (d : Dest) (m : Word) (t k : Nat) (x : Word) : Team :=
  match d with
  | .vec r => tm.wrV t (r + k) (merge m (tm.rdV t (r + k)) x)
  | .scal r => tm.wrS (r + k) (merge m (tm.rdS (r + k)) x)
  | .none => tm

theorem Team.regEq_putWord (d : Dest) (m : Word) (t k : Nat) (x : Word) : tm.regEq (tm.putWord d m t k x) := by cases d <;> rfl

/-- A result as the writes of its words. -/
theorem Pending.write_eq (p : Pending) : p.write tm =
    p.vals.foldl (fun tm e => e.2.zipIdx.foldl (fun tm w => tm.putWord p.dst p.mask e.1 w.2 w.1) tm) tm := by
  unfold Pending.write Team.putWord; rfl

@[simp] theorem Team.rdP_putWord (d : Dest) (m : Word) (t k : Nat) (x : Word) (t' : Nat) (q : Fin 8) :
    (tm.putWord d m t k x).rdP t' q = tm.rdP t' q := by cases d <;> rfl

/-- The words of one thread. -/
theorem Team.putWords_from (d : Dest) (m : Word) (t n : Nat) (ws : List Word) :
    (∀ t' r, ((ws.zipIdx n).foldl (fun tm w => tm.putWord d m t w.2 w.1) tm).rdV t' r =
      match d with
      | .vec b => if t' = t ∧ b + n ≤ r ∧ r < b + n + ws.length then merge m (tm.rdV t' r) (ws.getD (r - (b + n)) 0) else tm.rdV t' r
      | _ => tm.rdV t' r) ∧
    (∀ r, ((ws.zipIdx n).foldl (fun tm w => tm.putWord d m t w.2 w.1) tm).rdS r =
      match d with
      | .scal b => if b + n ≤ r ∧ r < b + n + ws.length then merge m (tm.rdS r) (ws.getD (r - (b + n)) 0) else tm.rdS r
      | _ => tm.rdS r) ∧
    (∀ t' p, ((ws.zipIdx n).foldl (fun tm w => tm.putWord d m t w.2 w.1) tm).rdP t' p = tm.rdP t' p) := by
  induction ws generalizing tm n with
  | nil =>
    refine ⟨fun t' r => ?_, fun r => ?_, fun _ _ => rfl⟩
    · cases d <;> simp
    · cases d <;> simp
  | cons w ws ih =>
    obtain ⟨h2, h3, h4⟩ := ih (tm.putWord d m t n w) (n + 1)
    refine ⟨fun t' r => ?_, fun r => ?_, fun t' p => by simpa using h4 t' p⟩
    · rw [List.zipIdx_cons, List.foldl_cons, h2]
      cases d with
      | vec b =>
        simp only [Team.putWord, Team.rdV_wrV, List.length_cons]
        by_cases ht : t' = t
        · subst ht
          by_cases hr : r = b + n
          · subst hr; simp
          · by_cases h : b + n ≤ r ∧ r < b + n + (ws.length + 1)
            · have e : r - (b + n) = (r - (b + (n + 1))) + 1 := by omega
              have h' : b + (n + 1) ≤ r ∧ r < b + (n + 1) + ws.length := by omega
              simp [h', h, e, hr]
            · have h' : ¬(b + (n + 1) ≤ r ∧ r < b + (n + 1) + ws.length) := by omega
              simp [h', h, hr]
        · simp [ht]
      | scal b => simp [Team.putWord]
      | none => rfl
    · rw [List.zipIdx_cons, List.foldl_cons, h3]
      cases d with
      | scal b =>
        simp only [Team.putWord, Team.rdS_wrS, List.length_cons]
        by_cases hr : r = b + n
        · subst hr; simp
        · by_cases h : b + n ≤ r ∧ r < b + n + (ws.length + 1)
          · have e : r - (b + n) = (r - (b + (n + 1))) + 1 := by omega
            have h' : b + (n + 1) ≤ r ∧ r < b + (n + 1) + ws.length := by omega
            simp [h', h, e, hr]
          · have h' : ¬(b + (n + 1) ≤ r ∧ r < b + (n + 1) + ws.length) := by omega
            simp [h', h, hr]
      | vec b => simp [Team.putWord]
      | none => rfl

/-- What a result with words `f t` of each thread of `ts` writes, for a vector destination or none. -/
theorem Pending.rdV_write (d : Dest) (m : Word) (f : Nat → List Word) (ts : List Nat) (hts : ts.Nodup) (l pc t r : Nat) :
    (Pending.write { dst := d, vals := ts.map fun t => (t, f t), left := l, mask := m, pc := pc } tm).rdV t r =
      match d with
      | .vec b => if t ∈ ts ∧ b ≤ r ∧ r < b + (f t).length then merge m (tm.rdV t r) ((f t).getD (r - b) 0) else tm.rdV t r
      | _ => tm.rdV t r := by
  rw [Pending.write_eq]
  simp only [List.foldl_map]
  induction ts generalizing tm with
  | nil => cases d <;> simp
  | cons u us ih =>
    rw [List.foldl_cons, ih _ (List.nodup_cons.1 hts).2]
    obtain ⟨h2, -, -⟩ := tm.putWords_from d m u 0 (f u)
    cases d with
    | vec b =>
      simp only [h2, List.mem_cons]
      by_cases hu : t = u
      · subst hu
        have hn : t ∉ us := (List.nodup_cons.1 hts).1
        simp [hn]
      · simp [hu]
    | _ => simp [h2]

/-- What a result of one thread writes to a scalar destination. -/
theorem Pending.rdS_write_one (d : Dest) (m : Word) (t : Nat) (ws : List Word) (l pc r : Nat) :
    (Pending.write { dst := d, vals := [(t, ws)], left := l, mask := m, pc := pc } tm).rdS r =
      match d with
      | .scal b => if b ≤ r ∧ r < b + ws.length then merge m (tm.rdS r) (ws.getD (r - b) 0) else tm.rdS r
      | _ => tm.rdS r := by
  rw [Pending.write_eq]
  have h := (tm.putWords_from d m t 0 ws).2.1 r
  cases d <;> simpa using h

/-- A result with no scalar destination leaves the scalar registers. -/
theorem Pending.rdS_write_other (p : Pending) (h : ∀ b, p.dst ≠ .scal b) (r : Nat) : (p.write tm).rdS r = tm.rdS r := by
  rw [Pending.write_eq]
  induction p.vals generalizing tm with
  | nil => rfl
  | cons e es ih =>
    rw [List.foldl_cons, ih]
    have h3 := (tm.putWords_from p.dst p.mask e.1 0 e.2).2.1 r
    cases hd : p.dst with
    | scal b => exact absurd hd (h b)
    | _ => rw [hd] at h3; simpa using h3

theorem Pending.rdP_write (p : Pending) (t : Nat) (q : Fin 8) : (p.write tm).rdP t q = tm.rdP t q := by
  rw [Pending.write_eq]
  induction p.vals generalizing tm with
  | nil => rfl
  | cons e es ih => rw [List.foldl_cons, ih]; exact (tm.putWords_from p.dst p.mask e.1 0 e.2).2.2 t q

/-- Two teams with the same registers and predicates. -/
def Team.sameRegs (x y : Team) : Prop := y.v = x.v ∧ y.s = x.s ∧ y.p = x.p

theorem Team.sameRegs.rdV {x y : Team} (h : x.sameRegs y) (t r : Nat) : y.rdV t r = x.rdV t r := by unfold Team.rdV; rw [h.1]
theorem Team.sameRegs.rdS {x y : Team} (h : x.sameRegs y) (r : Nat) : y.rdS r = x.rdS r := by unfold Team.rdS; rw [h.2.1]
theorem Team.sameRegs.rdP {x y : Team} (h : x.sameRegs y) (t : Nat) (q : Fin 8) : y.rdP t q = x.rdP t q := by unfold Team.rdP; rw [h.2.2]

theorem Pending.sameRegs_write (p q : Pending) (h : q.dst = p.dst ∧ q.vals = p.vals ∧ q.mask = p.mask) {x y : Team} (k : x.sameRegs y) :
    (p.write x).sameRegs (q.write y) := by
  rw [Pending.write_eq, Pending.write_eq, h.1, h.2.1, h.2.2]
  have one : ∀ (x y : Team) (d : Dest) (m : Word) (t n : Nat) (w : Word), x.sameRegs y → (x.putWord d m t n w).sameRegs (y.putWord d m t n w) := by
    intro x y d m t n w k
    cases d with
    | vec b => exact ⟨by simp only [Team.putWord, Team.wrV, Team.rdV, k.1], k.2.1, k.2.2⟩
    | scal b => exact ⟨k.1, by simp only [Team.putWord, Team.wrS, Team.rdS, k.2.1], k.2.2⟩
    | none => exact k
  have words : ∀ (l : List (Word × Nat)) (x y : Team) (d : Dest) (m : Word) (t : Nat), x.sameRegs y →
      (l.foldl (fun tm w => tm.putWord d m t w.2 w.1) x).sameRegs (l.foldl (fun tm w => tm.putWord d m t w.2 w.1) y) := by
    intro l
    induction l with
    | nil => intro x y d m t k; exact k
    | cons w l ih => intro x y d m t k; exact ih _ _ _ _ _ (one _ _ _ _ _ _ _ k)
  induction p.vals generalizing x y with
  | nil => exact k
  | cons e es ih => rw [List.foldl_cons, List.foldl_cons]; exact ih (words _ _ _ _ _ _ k)

/-- With one outstanding result, the end of the word and then every outstanding result give what writing that result gives. -/
theorem Team.pastWord_flush_one (p : Pending) (h : tm.pend = [p]) (c n : Nat) : (p.write tm).sameRegs (tm.pastWord c n).flush := by
  by_cases hl : p.left - 1 = 0
  · have e : (tm.pastWord c n).pend = [] := by simp [Team.pastWord, Team.tick, h, hl]
    have f : (p.write tm).sameRegs (tm.pastWord c n) := by
      simp only [Team.pastWord, Team.tick, h, hl, Team.writeAll, List.map_cons, List.map_nil, List.filter_cons, List.filter_nil]
      simp only [beq_self_eq_true, if_true, List.reverse_cons, List.reverse_nil, List.nil_append, List.foldl_cons, List.foldl_nil]
      exact Pending.sameRegs_write p { p with left := 0 } ⟨rfl, rfl, rfl⟩ ⟨rfl, rfl, rfl⟩
    rw [Team.flush_empty e]
    exact f
  · have f : (tm.pastWord c n).pend = [{ p with left := p.left - 1 }] := by simp [Team.pastWord, Team.tick, h, hl]
    have g : tm.sameRegs (tm.pastWord c n) := by
      simp [Team.pastWord, Team.tick, h, hl, Team.writeAll, Team.sameRegs]
    unfold Team.flush
    rw [f]
    exact Pending.sameRegs_write p { p with left := p.left - 1 } ⟨rfl, rfl, rfl⟩ g

theorem Team.flush_sameRegs {x y : Team} (h : x.sameRegs y) (k : y.pend = x.pend) : x.flush.sameRegs y.flush := by
  have key : ∀ (ps : List Pending) (x y : Team), x.sameRegs y → (ps.foldl (fun tm p => p.write tm) x).sameRegs (ps.foldl (fun tm p => p.write tm) y) := by
    intro ps
    induction ps with
    | nil => intro x y h; exact h
    | cons p ps ih => intro x y h; exact ih _ _ (Pending.sameRegs_write p p ⟨rfl, rfl, rfl⟩ h)
  unfold Team.flush Team.writeAll
  rw [k]
  exact key _ _ _ h

theorem Team.sameRegs.trans {x y z : Team} (h : x.sameRegs y) (k : y.sameRegs z) : x.sameRegs z :=
  ⟨k.1.trans h.1, k.2.1.trans h.2.1, k.2.2.trans h.2.2⟩
theorem Team.sameRegs.symm {x y : Team} (h : x.sameRegs y) : y.sameRegs x := ⟨h.1.symm, h.2.1.symm, h.2.2.symm⟩
theorem Team.sameRegs.refl (x : Team) : x.sameRegs x := ⟨rfl, rfl, rfl⟩

/-- Where no word has been executed ahead behind it, the end of a word leaves the registers as its own writes leave them. -/
theorem State.finishPasses_sameRegs {n : Nat} (s : State) (ps : List Nat) (hq : ∀ e ∈ (s.team.queueAfter n).head?, e.ran = none) :
    (s.team.pastWord ps.sum n).sameRegs (s.finishPasses ps n).team ∧ (s.finishPasses ps n).team.pend = (s.team.pastWord ps.sum n).pend := by
  have hf : s.team.finish ps.sum n = { s.team.pastWord ps.sum n with queue := s.team.queueAfter n } := by
    unfold Team.finish; rw [Team.settleRan_vector hq]
  unfold State.finishPasses
  dsimp only
  split
  · rw [hf]; exact ⟨⟨rfl, rfl, rfl⟩, rfl⟩
  · rw [State.issuePass_frame]; dsimp only; rw [Team.beginHold_frame]; dsimp only; rw [hf]; exact ⟨⟨rfl, rfl, rfl⟩, rfl⟩

/-- A word that leaves one outstanding result, behind which no word has been executed ahead: once it is written the registers are those that the result's writes give. -/
theorem State.later_finishPasses_regs (s t : State) (hp : s.team.pend = []) (d : Dest) (vals : List (Nat × List Word)) (n : Nat) (m : Word)
    (ht : t.team = { (s.later d vals n m).team with inflight := t.team.inflight }) (ps : List Nat) (k : Nat) (hq : ∀ e ∈ (t.team.queueAfter k).head?, e.ran = none) :
    (Pending.write { dst := d, vals := vals, left := n + 1, mask := m, pc := s.team.pc } s.team).sameRegs (t.finishPasses ps k).team.flush := by
  obtain ⟨h1, h2⟩ := t.finishPasses_sameRegs ps hq
  refine Team.sameRegs.trans ?_ (Team.flush_sameRegs h1 h2)
  by_cases hk : s.team.kind = .team
  · have e : t.team.pend = [{ dst := d, vals := vals, left := n + 1, mask := m, pc := s.team.pc }] := by rw [ht]; simp [State.later, hk, hp]
    refine Team.sameRegs.trans (Pending.sameRegs_write _ _ ⟨rfl, rfl, rfl⟩ ?_) (Team.pastWord_flush_one _ _ e _ k)
    rw [ht]; simp only [State.later, hk, if_true]; exact ⟨rfl, rfl, rfl⟩
  · have hr := Pending.regEq_write { dst := d, vals := vals, left := n + 1, mask := m, pc := s.team.pc } s.team
    have e : t.team.pend = [] := by
      rw [ht]; simp only [State.later, hk, if_false]; rw [hr]; exact hp
    have f : (Pending.write { dst := d, vals := vals, left := n + 1, mask := m, pc := s.team.pc } s.team).sameRegs t.team := by
      rw [ht]; simp only [State.later, hk, if_false]; exact ⟨rfl, rfl, rfl⟩
    have g : t.team.sameRegs (t.team.pastWord ps.sum k) := by
      unfold Team.pastWord; rw [Team.tick_empty (by exact e)]; exact ⟨rfl, rfl, rfl⟩
    have e2 : (t.team.pastWord ps.sum k).pend = [] := by unfold Team.pastWord; rw [Team.tick_empty (by exact e)]
    refine (f.trans g).trans ?_
    rw [Team.flush_empty e2]; exact ⟨rfl, rfl, rfl⟩

theorem State.later_finish_regs (s t : State) (hp : s.team.pend = []) (d : Dest) (vals : List (Nat × List Word)) (n : Nat) (m : Word)
    (ht : t.team = { (s.later d vals n m).team with inflight := t.team.inflight }) (c k : Nat) (hq : ∀ e ∈ (t.team.queueAfter k).head?, e.ran = none) :
    (Pending.write { dst := d, vals := vals, left := n + 1, mask := m, pc := s.team.pc } s.team).sameRegs (t.finishAt c k).team.flush :=
  State.later_finishPasses_regs s t hp d vals n m ht _ k hq

/-- A vector result of the active threads, or one without a destination, leaves the registers as `RegsAre` says. -/
theorem Team.regsAre_vector {tm new : Team} {d : Reg} {n l pc : Nat} {m : Word} {f : Nat → List Word} {ts : List Nat} {val : Nat → Nat → Word}
    (hd : d.isS = false) (hts : ts.Nodup) (ha : d.isV = true → ∀ t, t ∈ ts ↔ tm.active t = true) (hn : ∀ t, (f t).length = n)
    (hv : d.isV = true → ∀ t k, tm.active t = true → k < n → merge m (tm.rd 0 d k t) ((f t).getD k 0) = val t k)
    (h : (Pending.write { dst := tm.dest d, vals := ts.map fun t => (t, f t), left := l, mask := m, pc := pc } tm).sameRegs new) :
    RegsAre tm new d n val := by
  refine ⟨fun t r => ?_, fun r => ?_, fun t q => ?_⟩
  · rw [h.rdV, Pending.rdV_write _ _ _ _ _ hts]
    cases d with
    | v b =>
      simp only [Team.dest, Team.destV, hn]
      by_cases hr : 8 * tm.wb + b.val ≤ r ∧ r < 8 * tm.wb + b.val + n
      · by_cases hact : tm.active t = true
        · have hk := hv rfl t (r - (8 * tm.wb + b.val)) hact (by omega)
          have e : 8 * tm.wb + b.val + (r - (8 * tm.wb + b.val)) = r := by omega
          simp only [Team.rd, e] at hk
          simp only [(ha rfl t).2 hact, hr, and_self, if_true, hact]
          exact hk
        · have hn' : t ∉ ts := fun k => hact ((ha rfl t).1 k)
          simp [hn', hr, hact]
      · have hr' : ¬(t ∈ ts ∧ 8 * tm.wb + b.val ≤ r ∧ r < 8 * tm.wb + b.val + n) := fun x => hr x.2
        simp only [if_neg hr, if_neg hr']
    | s i => simp [Reg.isS] at hd
    | _ => simp [Team.dest, Team.destV]
  · rw [h.rdS, Pending.rdS_write_other]
    · cases d <;> simp_all [destS, Reg.isS]
    · intro b hb; cases d <;> simp_all [Team.dest, Reg.isS]
  · rw [h.rdP, Pending.rdP_write]

/-- A scalar result, or one without a destination, leaves the registers as `RegsAre` says. -/
theorem Team.regsAre_scalar {tm new : Team} {d : Reg} {n l pc t : Nat} {m : Word} {ws : List Word} {val : Nat → Nat → Word}
    (hd : d.isV = false) (hn : ws.length = n)
    (hv : d.isS = true → ∀ k, k < n → merge m (tm.rd 0 d k tm.t0) (ws.getD k 0) = val tm.t0 k)
    (h : (Pending.write { dst := tm.dest d, vals := [(t, ws)], left := l, mask := m, pc := pc } tm).sameRegs new) :
    RegsAre tm new d n val := by
  refine ⟨fun u r => ?_, fun r => ?_, fun u q => ?_⟩
  · rw [h.rdV]
    have := Pending.rdV_write tm (tm.dest d) m (fun _ => ws) [t] (List.nodup_singleton t) l pc u r
    rw [List.map_cons, List.map_nil] at this
    rw [this]
    cases d <;> simp_all [Team.dest, Team.destV, Reg.isV]
  · rw [h.rdS, Pending.rdS_write_one]
    cases d with
    | s b =>
      simp only [Team.dest, destS, hn]
      by_cases hr : b.val ≤ r ∧ r < b.val + n
      · have hk := hv rfl (r - b.val) (by omega)
        have e : b.val + (r - b.val) = r := by omega
        simp only [Team.rd, e] at hk
        simp only [hr, and_self, if_true]
        exact hk
      · simp only [if_neg hr]
    | _ => simp [Team.dest, destS]
  · rw [h.rdP, Pending.rdP_write]

/-- Counting events touches the launch's counters and the host's notices alone (R101). -/
theorem State.countEvents_frame (s : State) (es : List Nat) :
    s.countEvents es = { s with launch := (s.countEvents es).launch, hub := (s.countEvents es).hub } := by
  unfold State.countEvents
  induction es generalizing s with
  | nil => rfl
  | cons e es ih => rw [List.foldl_cons, ih]

@[simp] theorem State.countEvents_team (s : State) (es : List Nat) : (s.countEvents es).team = s.team := by rw [State.countEvents_frame]
@[simp] theorem State.countEvents_core (s : State) (es : List Nat) : (s.countEvents es).core = s.core := by rw [State.countEvents_frame]
@[simp] theorem State.countEvents_teams (s : State) (es : List Nat) : (s.countEvents es).teams = s.teams := by rw [State.countEvents_frame]

/-- An outstanding result touches the team alone. -/
theorem State.later_frame (s : State) (d : Dest) (vals : List (Nat × List Word)) (n : Nat) (m : Word) :
    s.later d vals n m = { s with team := (s.later d vals n m).team } := rfl

/-- An access that stores nothing touches the team's accesses in flight alone. -/
theorem State.issue_frame (s : State) (a : Access) (h : a.writes = []) :
    s.issue a = { s with team := { s.team with inflight := (s.issue a).team.inflight } } := by
  unfold State.issue; split <;> simp [h]

end Sys2Proof.Machine
end

