-- ==== Sys2Proof/Laws/Step.lean ====
section
/-! SUPPORT. What a step is: the agenda's event, or the word at the pc, and what follows it. -/

namespace Sys2Proof.Machine

variable {s : State}

/-- A step with an event at the head of the agenda. -/
theorem step_event {i : Instr} {r : List Act} (h : s.agenda = .event i :: r) (hi : Instr.isEvent i = true) :
    step s = after true (exec i { s with agenda := r }) := by
  unfold step; rw [h]; simp [hi]

/-- A step that gives another context the turn, where its unit would run it. -/
theorem step_turn {k : Nat} {r : List Act} (h : s.agenda = .turn k :: r) (hk : ({ s with agenda := r } : State).chosen k = true) :
    step s = turn ((({ s with agenda := r } : State).focus k).serve (quarterUnit ((({ s with agenda := r } : State).getTeam k).getD {}))) := by
  unfold step; rw [h]; exact if_pos hk

/-- A step that gives a core's front-end the turn. -/
theorem step_front {core : Nat} {r : List Act} {t : Team} (h : s.agenda = .front core :: r) (hk : ({ s with agenda := r } : State).unitPick (frontUnit core) = some t) :
    step s = turn ((({ s with agenda := r } : State).focus t.key).serve (frontUnit core)) := by
  unfold step; rw [h]; dsimp only; rw [hk]

/-- On its quarter's or its sequencer's turn the running context owes no pass, and no step is due before its word: the word at the pc runs. -/
theorem step_word {w : Word} (h : s.agenda = []) (hr : s.mayRun = true) (ha : s.sinceAuto < 16) (hu : s.frontTurn = false) (hd : s.due = none) (hc : s.team.cand = none)
    (ho : s.streamOver = false) (hw : s.team.owed = []) (hf : s.nextWord = .ok w) :
    step s = after false (captured s.team (instrOf s.team.kind w) (exec (instrOf s.team.kind w) (s.fetchFill.beginWord (instrOf s.team.kind w)))) := by
  have : s.todo = .word (instrOf s.team.kind w) := by
    simp [State.todo, State.contextTodo, State.wordTodo, hr, ha, hu, hd, hc, ho, hw, hf]
  unfold step; rw [h]; simp [turn, this]

/-- On its front-end's turn a team with nothing before its next word runs it, if it is a scalar word or a vector word that its quarter would choose at once; every other vector word enters the decision queue (R20, R21). -/
theorem step_front_word {w : Word} (h : s.agenda = []) (hr : s.mayRun = true) (ha : s.sinceAuto < 16) (hu : s.frontTurn = true) (hy : s.team.ready = true)
    (hq : s.team.ahead = []) (hd : s.due = none) (hc : s.team.cand = none) (ho : s.streamOver = false) (hw : s.team.owed = []) (hf : s.nextWord = .ok w)
    (hp : Instr.frontEnd (instrOf s.team.kind w) = true ∨ s.passesThrough w = true) :
    step s = after false (captured s.team (instrOf s.team.kind w) (exec (instrOf s.team.kind w) (s.fetchFill.beginWord (instrOf s.team.kind w)))) := by
  have : s.todo = .word (instrOf s.team.kind w) := by
    rcases hp with hp | hp <;> simp [State.todo, State.contextTodo, State.wordTodo, hr, ha, hu, hy, hq, hd, hc, ho, hw, hf, hp]
  unfold step; rw [h]; simp [turn, this]

/-- On its front-end's turn a team whose words wait to issue has its next word taken behind them (R20, R23). -/
theorem step_takes (h : s.agenda = []) (hr : s.mayRun = true) (ha : s.sinceAuto < 16) (hu : s.frontTurn = true)
    (hq : s.team.ahead ≠ [] ∨ s.team.owed ≠ []) : step s = .next (s.takeAhead.tail false) := by
  have : s.todo = .ahead := by
    rcases hq with hq | hq <;> simp [State.todo, State.contextTodo, hr, ha, hu, hq]
  unfold step; rw [h]; simp [turn, this]

/-- Passes that the last word owes come before the next word (R201). -/
theorem step_owed (h : s.agenda = []) (hr : s.mayRun = true) (ha : s.sinceAuto < 16) (hu : s.frontTurn = false) (hw : s.team.owed ≠ []) :
    step s = .next (s.owedPass.tail false) := by
  have : s.todo = .owed := by simp [State.todo, State.contextTodo, hr, ha, hu, hw]
  unfold step; rw [h]; simp [turn, this]

/-- The next word is the head of the decision queue that begins at the pc with a vector word, and else what a fetch reads (R20, R21). -/
theorem nextWord_queue {e : QueueWord} {r : List QueueWord} (h : s.team.queue = e :: r) (hp : e.pc = s.team.pc) (hv : e.ran = none) : s.nextWord = .ok e.word := by
  simp [State.nextWord, Team.ahead, h, hp, hv]
theorem nextWord_fetch (h : s.team.ahead = []) : s.nextWord = s.fetchWord s.team.pc := by
  rw [State.nextWord, h]
theorem ahead_other (h : ∀ e ∈ s.team.queue.head?, e.pc ≠ s.team.pc) : s.team.ahead = [] := by
  unfold Team.ahead
  rw [if_neg]
  intro hc
  cases hq : s.team.queue.head? with
  | none => simp [hq] at hc
  | some e => exact h e (by simp [hq]) (by simp [hq] at hc; exact hc.1)

/-- Reading text leaves the running context. -/
theorem fetchAt_team (s : State) (pc : Nat) : (s.fetchAt pc).team = s.team := by
  unfold State.fetchAt; rw [State.readText_team]; split <;> rfl
theorem fetchFill_team (s : State) : s.fetchFill.team = s.team := by
  unfold State.fetchFill; split <;> simp [fetchAt_team]

/-- What the front-end takes of a vector word enters the decision queue, and the team changes in nothing else (R21, R222). -/
theorem takeAhead_vector {e : QueueWord} (h : s.frontTake = some e) (hv : e.ran = none) :
    s.takeAhead = { s.fetchAt e.pc with team := { s.team with queue := s.team.ahead ++ [e] } } := by
  simp [State.takeAhead, h, hv, fetchAt_team]

/-- The capture unit notes nothing of a word outside a captured execution. -/
theorem captured_idle {pre : Team} (h : pre.capturing = none) (i : Instr) (o : Out) : captured pre i o = o := by
  cases o <;> simp [captured, State.captureWord, h]

/-- A word that decodes to an instruction the context may execute is that instruction. -/
theorem instrOf_allowed {k : CtxKind} {w : Word} {i : Instr} (h : decode w = some i) (ha : Instr.allowedIn i k = true) : instrOf k w = i := by
  simp [instrOf, h, ha]

/-- Every other word is illegal. -/
theorem instrOf_other {k : CtxKind} {w : Word} (h : ∀ i, decode w = some i → Instr.allowedIn i k = false) : instrOf k w = .illegalWord w := by
  unfold instrOf
  split
  · rename_i i hi; simp [h i hi]
  · rfl

/-- The turn goes to some context, or stays. -/
theorem rotate_cases (s : State) : s.rotate = s ∨ ∃ u, s.rotate = s.serve u ∨ ∃ k, s.rotate = (s.focus k).serve u := by
  unfold State.rotate
  split
  · exact .inl rfl
  · rename_i u t _
    refine .inr ⟨u, ?_⟩
    split
    · exact .inl rfl
    · exact .inr ⟨_, rfl⟩

/-- No command of one cycle stands at the head of a block's matrix FIFO. -/
def State.calm (s : State) : Prop :=
  ∀ b ∈ tvals s.blkTbl, ∀ (c : Block) (x : MxEntry) (r : List MxEntry), s.getBlk b.key = some c → c.mxFifo = x :: r → c.oneCycle x = false

/-- A head that takes longer than one cycle waits for its own step. -/
theorem mxPrompt_long {k : Nat} (h : ∀ (b : Block) (x : MxEntry) (r : List MxEntry), s.getBlk k = some b → b.mxFifo = x :: r → b.oneCycle x = false) :
    s.mxPrompt k = s := by
  unfold State.mxPrompt
  split
  · rfl
  · rename_i b hb
    split
    · rfl
    · rename_i x r hx
      simp [h b x r hb hx]

/-- With no command of one cycle at a head the engines do nothing between the steps. -/
theorem engines_calm (h : s.calm) : s.engines = s := by
  have key : ∀ l : List Block, (∀ b ∈ l, b ∈ tvals s.blkTbl) → foldS (fun s b => s.mxPrompt b.key) l s = s := by
    intro l
    induction l with
    | nil => intro _; rfl
    | cons b l ih =>
      intro hl
      show foldS (fun s b => s.mxPrompt b.key) l (s.mxPrompt b.key) = s
      rw [mxPrompt_long (h b (hl b (by simp)))]
      exact ih fun b' hb' => hl b' (by simp [hb'])
  exact key _ fun _ hb => hb

/-- With no trigger fired no snapshot is latched. -/
theorem latchNow_idle (h : s.hub.firing = none) : s.latchNow = s := by
  simp [State.latchNow, execSnapshotLatch, State.latchTick, h, stateAfter]

/-- What follows a step with no link lost under it and no snapshot coming. -/
theorem tail_linked (h : s.engines.xLost = none) (hf : s.engines.hub.firing = none) (b : Bool) : s.tail b = (s.engines.advance b).background.wakeAll.rotate := by
  have hl : (s.engines.advance b).latchNow = s.engines.advance b := latchNow_idle hf
  have : (s.engines.advance b).dropLink = s.engines.advance b := by
    unfold State.dropLink; rw [show (s.engines.advance b).xLost = none from h]
  unfold State.tail; rw [hl, this]

/-- No queue has work of its own: no posted write, no race record. -/
def State.quietQueues (s : State) : Prop := s.hub.posted = [] ∧ ∀ c ∈ s.coreTbl.map (·.1), (s.getCore c).raceQueue = []

/-- With the queues empty the background does nothing. -/
theorem background_quiet (h : s.quietQueues) : s.background = s := by
  obtain ⟨hp, hq⟩ := h
  have hpost : s.postOne = s := by unfold State.postOne; rw [hp]
  have key : ∀ l : List Nat, (∀ c ∈ l, (s.getCore c).raceQueue = []) → foldS (fun s c => s.raceOne c) l s = s := by
    intro l
    induction l with
    | nil => intro _; rfl
    | cons c l ih =>
      intro hl
      have hc : s.raceOne c = s := by unfold State.raceOne; rw [hl c (by simp)]
      show foldS (fun s c => s.raceOne c) l (s.raceOne c) = s
      rw [hc]
      exact ih fun c' hc' => hl c' (by simp [hc'])
  unfold State.background
  rw [hpost]
  exact key _ hq

/-- What follows a step with no link lost under it, no snapshot coming, no command of one cycle at a head, the queues empty and nobody parked. -/
theorem tail_quiet (hc : s.calm) (hx : s.xLost = none) (hf : s.hub.firing = none) (hq : s.quietQueues) (h : s.awake) (b : Bool) : s.tail b = (s.advance b).rotate := by
  have he := engines_calm hc
  rw [tail_linked (by rw [he]; exact hx) (by rw [he]; exact hf), he, background_quiet (s := s.advance b) hq, State.wakeAll_awake (s := s.advance b) h]

end Sys2Proof.Machine
end

