-- ==== Sys2Proof/Laws/Words.lean ====
section
/-! SUPPORT. What a register-to-register word does: every word that runs by `execAlu` runs as R15 and R296 say. -/

namespace Sys2Proof.Machine

theorem countEvents_nil (s : State) : s.countEvents [] = s := rfl

theorem Alu.scalarForm_eq (a : Alu) (h : a.vector = false) : a.scalarForm = scalarFields a.regs := by
  simp [Alu.scalarForm, scalarFields, h]

theorem Team.foldl_map_lanes {β : Type} (f : Team → Nat → β → Team) (g : Nat → β) (ts : List Nat) (tm : Team) :
    (ts.map fun t => (t, g t)).foldl (fun x e => f x e.1 e.2) tm = ts.foldl (fun x t => f x t (g t)) tm := by
  induction ts generalizing tm with
  | nil => rfl
  | cons t ts ih => simp [ih]

/-- A word that runs by `execAlu` and gives `n` destination words runs as R15 and R296 say. -/
theorem runsAs_of {i : Instr} {a : Alu} (hi : ∀ s, exec i s = execAlu a s) {n : Nat} {val : Team → Nat → Nat → Nat → Word}
    {evs : Team → Nat → Nat → List Nat} (hv : a.vector = false)
    (hres : ∀ tm bix t, (a.result tm bix t).words.length = n ∧ (∀ k, k < n → (a.result tm bix t).words.getD k 0 = val tm bix t k) ∧
      (a.result tm bix t).pred = none ∧ (a.result tm bix t).events = evs tm bix t)
    (hdV : a.dst.isV = true → scalarFields a.regs = false) (hdS : a.dst.isS = true → scalarFields a.regs = true) :
    RunsAs i a.dst n a.regs a.cycles val evs := by
  intro s
  have hform := a.scalarForm_eq hv
  refine ⟨fun f hf => by rw [hi]; simp [execAlu, hf], fun hw => ⟨(a.apply s.blk.bix s.team).1, ?_, ?_⟩⟩
  · unfold Alu.apply
    rw [hform]
    cases hsc : scalarFields a.regs with
    | true =>
      have hV : a.dst.isV = false := by
        cases h : a.dst.isV with
        | false => rfl
        | true => rw [hdV h] at hsc; exact absurd hsc (by simp)
      obtain ⟨hl, hw', hp, he⟩ := hres s.team s.blk.bix s.team.t0
      have hW : s.team.wrScalar a.dst (a.result s.team s.blk.bix s.team.t0) =
          s.team.wrWords a.dst 0 (a.result s.team s.blk.bix s.team.t0).words := by
        unfold Team.wrScalar; rw [hp]
      simp only [if_true, hW]
      refine ⟨s.team.regEq_wrWords _ _ _, ⟨fun t r => ?_, fun r => ?_, fun t p => ?_⟩⟩
      · rw [Team.rdV_wrWords]
        cases hd : a.dst <;> simp_all [Reg.isV, Team.destV]
      · rw [Team.rdS_wrWords]
        cases hd : a.dst with
        | s b =>
          simp only [destS, hl]
          by_cases h : b.val ≤ r ∧ r < b.val + n
          · simp only [if_pos h]; exact hw' _ (by omega)
          · simp only [if_neg h]
        | _ => simp [destS]
      · simp
    | false =>
      have hS : a.dst.isS = false := by
        cases h : a.dst.isS with
        | false => rfl
        | true => rw [hdS h] at hsc; exact absurd hsc (by simp)
      have hfold : (s.team.actives.map fun t => (t, a.result s.team s.blk.bix t)).foldl (fun x e => x.wrLane a.dst e.1 e.2) s.team =
          s.team.actives.foldl (fun x t => x.wrWords a.dst t (a.result s.team s.blk.bix t).words) s.team := by
        rw [Team.foldl_map_lanes (fun x t e => x.wrLane a.dst t e)]
        congr 1
        funext x t
        unfold Team.wrLane
        rw [(hres s.team s.blk.bix t).2.2.1]
      simp only [Bool.false_eq_true, if_false, hfold]
      refine ⟨s.team.regEq_wrAll _ _ _, ⟨fun t r => ?_, fun r => ?_, fun t p => ?_⟩⟩
      · rw [Team.rdV_wrAll _ _ _ _ s.team.actives_nodup]
        obtain ⟨hl, hw', -, -⟩ := hres s.team s.blk.bix t
        cases hd : a.dst with
        | v b =>
          simp only [Team.destV, hl, Team.mem_actives]
          by_cases h : 8 * s.team.wb + b.val ≤ r ∧ r < 8 * s.team.wb + b.val + n
          · by_cases ha : s.team.active t = true
            · simp only [h, ha, and_self, if_true]; exact hw' _ (by omega)
            · simp only [ha, h, false_and, and_self, if_true, if_false, Bool.false_eq_true]
          · have h' : ¬(s.team.active t = true ∧ 8 * s.team.wb + b.val ≤ r ∧ r < 8 * s.team.wb + b.val + n) := fun x => h x.2
            simp only [if_neg h, if_neg h']
        | _ => simp [Team.destV]
      · rw [Team.rdS_wrAll _ _ hS]
        cases hd : a.dst <;> simp_all [Reg.isS, destS]
      · rw [Team.rdP_wrAll]
  · rw [hi]
    have hE : (a.apply s.blk.bix s.team).2 = laneEvents s.team (scalarFields a.regs) (evs s.team s.blk.bix) := by
      unfold Alu.apply laneEvents
      rw [hform]
      cases scalarFields a.regs with
      | true => simp [(hres s.team s.blk.bix s.team.t0).2.2.2]
      | false =>
        simp only [Bool.false_eq_true, if_false, List.flatMap_map]
        congr 1
        funext t
        rw [(hres s.team s.blk.bix t).2.2.2]
    have hC : a.cost s.team = wordCost s.team a.regs a.cycles := by simp [Alu.cost, wordCost, hform]
    simp only [execAlu, hw, hE, hC]

/-- A word that writes one predicate by `execAlu` runs as R15, R19 and R296 say. -/
theorem runsPred_of {i : Instr} {a : Alu} (hi : ∀ s, exec i s = execAlu a s) {p : Fin 8} {val : Team → Nat → Nat → Bool}
    (hres : ∀ tm bix t, a.result tm bix t = { words := [], pred := some (p, val tm bix t), events := [] }) :
    RunsPred i p a.vector a.regs a.cycles val := by
  intro s
  refine ⟨fun f hf => by rw [hi]; simp [execAlu, hf], fun hw => ⟨(a.apply s.blk.bix s.team).1, ?_, ?_⟩⟩
  · unfold Alu.apply
    have hform : a.scalarForm = (!a.vector && scalarFields a.regs) := by simp [Alu.scalarForm, scalarFields]
    rw [hform]
    cases hsc : (!a.vector && scalarFields a.regs) with
    | true =>
      have hW : s.team.wrScalar a.dst (a.result s.team s.blk.bix s.team.t0) =
          (upList 0 s.team.threads).foldl (fun tm t => tm.wrP t p (val s.team s.blk.bix s.team.t0)) s.team := by
        unfold Team.wrScalar; rw [hres]; rfl
      simp only [if_true, hW]
      refine ⟨s.team.predEq_wrPs _ (fun _ => _) _, fun t q => ?_⟩
      rw [Team.rdP_wrPs _ p (fun _ => val s.team s.blk.bix s.team.t0) _ (upList_nodup _ _)]
      by_cases h : q = p ∧ p ≠ 7
      · by_cases ht : t < s.team.threads <;> simp [h, ht]
      · have h' : ¬(q = p ∧ p ≠ 7 ∧ t ∈ upList 0 s.team.threads) := fun x => h ⟨x.1, x.2.1⟩
        simp only [if_neg h, if_neg h']
    | false =>
      have hfold : (s.team.actives.map fun t => (t, a.result s.team s.blk.bix t)).foldl (fun x e => x.wrLane a.dst e.1 e.2) s.team =
          s.team.actives.foldl (fun x t => x.wrP t p (val s.team s.blk.bix t)) s.team := by
        rw [Team.foldl_map_lanes (fun x t e => x.wrLane a.dst t e)]
        congr 1
        funext x t
        unfold Team.wrLane
        rw [hres]; rfl
      simp only [Bool.false_eq_true, if_false, hfold]
      refine ⟨s.team.predEq_wrPs _ _ _, fun t q => ?_⟩
      rw [Team.rdP_wrPs _ p _ _ s.team.actives_nodup]
      by_cases h : q = p ∧ p ≠ 7
      · by_cases ht : s.team.active t = true <;> simp [h, ht]
      · have h' : ¬(q = p ∧ p ≠ 7 ∧ t ∈ s.team.actives) := fun x => h ⟨x.1, x.2.1⟩
        simp only [if_neg h, if_neg h']
  · rw [hi]
    have hE : (a.apply s.blk.bix s.team).2 = [] := by
      unfold Alu.apply
      split
      · simp [hres]
      · simp [hres]
    have hC : a.cost s.team = if a.vector then a.cycles * s.team.passes else wordCost s.team a.regs a.cycles := by
      cases hv : a.vector with
      | true => simp [Alu.cost, Alu.scalarForm, hv]
      | false => simp [Alu.cost, wordCost, a.scalarForm_eq hv]
    simp only [execAlu, hw, hE, hC, countEvents_nil]

/-! ### Words of one, two and three sources -/

/-- A vector destination makes a word vector. -/
theorem mix_dV {d : Reg} {l : List (Reg × Nat)} {n : Nat} (h : d.isV = true) : scalarFields ((d, n) :: l) = false := by
  cases d <;> simp_all [Reg.isV, scalarFields, Reg.isScalar]

/-- A scalar destination makes a legal word of two sources scalar. -/
theorem mix2_dS {d a b : Reg} {n m k : Nat} (h : mixOk d [a, b] = true) (hd : d.isS = true) : scalarFields [(d, n), (a, m), (b, k)] = true := by
  cases d <;> simp_all [Reg.isS, scalarFields, Reg.isScalar, mixOk]

/-- A scalar destination makes a legal word of one source scalar. -/
theorem mix1_dS {d a : Reg} {n m : Nat} (h : mixOk d [a] = true) (hd : d.isS = true) : scalarFields [(d, n), (a, m)] = true := by
  cases d <;> simp_all [Reg.isS, scalarFields, Reg.isScalar, mixOk]

/-- A word that runs as `alu2 f` writes `g` of its two sources where `f` and `g` agree. -/
theorem runs2_of {i : Instr} {f g : Word → Word → Word} {d a b : Reg} {c : Nat} (h : mixOk d [a, b] = true)
    (hi : ∀ s, exec i s = execAlu { alu2 f d a b with cycles := c } s) (hfg : ∀ x y, f x y = g x y) : Runs2 i d a b c g := by
  refine runsAs_of (a := { alu2 f d a b with cycles := c }) hi rfl (fun tm bix t => ?_) mix_dV (mix2_dS h)
  refine ⟨rfl, fun k hk => ?_, rfl, rfl⟩
  have : k = 0 := by omega
  subst this; exact hfg _ _

/-- The same for `alu3`, which also reads the destination. -/
theorem runs3_of {i : Instr} {f g : Word → Word → Word → Word} {d a b : Reg} {c : Nat} (h : mixOk d [a, b] = true)
    (hi : ∀ s, exec i s = execAlu { alu3 f d a b with cycles := c } s) (hfg : ∀ x y z, f x y z = g x y z) : Runs3 i d a b c g := by
  refine runsAs_of (a := { alu3 f d a b with cycles := c }) hi rfl (fun tm bix t => ?_) mix_dV (mix2_dS h)
  refine ⟨rfl, fun k hk => ?_, rfl, rfl⟩
  have : k = 0 := by omega
  subst this; exact hfg _ _ _

/-- The same for `alu1`. -/
theorem runs1_of {i : Instr} {f g : Word → Word} {d a : Reg} (h : mixOk d [a] = true)
    (hi : ∀ s, exec i s = execAlu (alu1 f d a) s) (hfg : ∀ x, f x = g x) : Runs1 i d a g := by
  refine runsAs_of (a := alu1 f d a) hi rfl (fun tm bix t => ?_) mix_dV (mix1_dS h)
  refine ⟨rfl, fun k hk => ?_, rfl, rfl⟩
  have : k = 0 := by omega
  subst this; exact hfg _

/-- The same for a word with an immediate. -/
theorem runsImm_of {i : Instr} {f : Word → Word → Word} {g : Word → Word} {d a : Reg} {v : Word} (h : mixOk d [a] = true)
    (hi : ∀ s, exec i s = execAlu (aluImm f d a v) s) (hfg : ∀ x, f x v = g x) : Runs1 i d a g := by
  refine runsAs_of (a := aluImm f d a v) hi rfl (fun tm bix t => ?_) mix_dV (mix1_dS h)
  refine ⟨rfl, fun k hk => ?_, rfl, rfl⟩
  have : k = 0 := by omega
  subst this; exact hfg _

end Sys2Proof.Machine
end

