-- ==== Sys2Proof/Tests/Slice0.lean ====
section
/-! SUPPORT. Tests: well-formedness, decoding of words written out from the encodings of the spec, single steps with results from the spec's examples, and for each statement a state that meets its hypotheses. -/

namespace Sys2Proof.Tests
open Sys2Proof Sys2Proof.Machine Sys2Proof.Claim

/-! ### Helpers: small states -/

/-- A launch runs, and its team is about to run the word `w`. -/
def prog (w : Nat) (t : Team) : State := ({ State.reset with team := t } : State).withFetchWord 32 w

/-- The outcome is a next state of which `p` holds. -/
def after (o : Out) (p : State → Bool) : Bool :=
  match o with
  | .next t => p t
  | _ => false

/-- A team of four threads with 24 registers, in a running launch. -/
def demo : State := prog 0 { threads := 4, regs := 24, s := [(1, 3), (2, 4)] }

/-- The same with other fields of the team. -/
def demoWith (f : Team → Team) : State := { demo with team := f demo.team }

/-- A state whose core holds its translations changed by `f`. -/
def remapped (f : TlbEntry → TlbEntry) (s : State) : State := { s with core := { s.core with tlb := s.core.tlb.map f } }

/-- Its page may not be executed. -/
def unreadable (s : State) : State := remapped (fun e => { e with x := false }) s

/-- Its page lies at a physical address that the package does not have. -/
def away (s : State) : State := remapped (fun e => { e with frame := 2 ^ 23 }) s

/-- The same inside a trap handler. -/
def inHandler : State :=
  demoWith fun t => { t with trapCtx := some { resume := 8, cnt := [], stack := [], slot := .empty, fair := 0, lastSwitch := 0, limbs := 0, limbf := 0 } }

/-- A team with an empty queue is in order. -/
theorem inOrder_of {t : Team} (q : t.queue = []) (r : t.holdFor = 0) : t.inOrder :=
  ⟨fun e m => absurd m (by rw [q]; exact List.not_mem_nil), r⟩

/-- A team with nothing in flight and an empty queue is settled. -/
theorem settled_of {s : State} (h : s.team.inflight = []) (k : s.team.pend = []) (q : s.team.queue = []) (r : s.team.holdFor = 0) : s.settled :=
  ⟨⟨h, k⟩, inOrder_of q r⟩

/-! ### Well-formedness: one ill-formed term for each check -/

/-- R14, R18, R22, R51: `tix` is no destination, a scalar destination takes no vector source, and pairs are even. -/
theorem test_wf_register_words : ∀ i ∈ ([
    .add .tix (.v 1) (.v 2), .sub (.s 1) (.v 1) (.s 2), .addImm .bix (.v 1) 0, .li .tix 0, .movs (.v 1) (.v 2) (.s 3), .movs (.s 1) (.s 2) (.s 3),
    .rdl (.v 1) (.v 2) (.s 3), .rdl (.s 1) (.s 2) (.s 3), .rdl (.s 1) (.v 2) (.v 3), .fadd true (.v 5) (.v 4) (.v 8), .fadd true (.v 6) (.v 4) (.v 7),
    .fabs true (.v 6) .bix, .fcmp true .lt 1 (.v 4) (.v 5), .frcp .f64 (.v 5) (.v 4) 0, .cvt .f32 .f32 .rn (.v 5) (.v 4),
    .cvt .f64 .f32 .rn (.v 5) (.v 4), .cvt .f32 .f64 .rn (.v 5) (.v 3)] : List Instr), i.wf = false := by decide

/-- R104, R212 to R216, R305, R382, R383, R389, R400: team operations, limbs, transfers. -/
theorem test_wf_team_words : ∀ i ∈ ([
    .vote .some .tix ⟨false, 1⟩, .shfl .at (.s 1) (.v 1) (.v 2), .shfl .at (.v 1) .bix (.v 2), .red .and true (.v 1) (.v 2), .red .add false (.v 1) (.s 2),
    .scan .xor true false (.v 1) (.v 2), .scan .add false false (.s 1) (.v 2), .matchKey .b32 true (.v 5) (.v 4), .matchKey .f64 false (.v 5) (.v 3),
    .matchKey .b32 false (.v 5) .bix, .bind (.v 1), .ladd (.s 1) (.v 1) (.v 2), .lcmp (.s 1) (.v 2), .lshl (.v 1) (.v 2) (.v 3),
    .lmulAddend (.v 1) (.v 2) (.s 3), .wbase (.v 1) 0, .jmp (.s 3), .ifp ⟨false, 1⟩ 0, .elsep 0x3FFFF, .loopEnd 3, .brk ⟨false, 7⟩ 254, .cont ⟨false, 7⟩ 255] : List Instr),
    i.wf = false := by decide

/-- R18, R243, R315, R345, R358, R363, R365, R385, R395: memory words, engines, system words. -/
theorem test_wf_memory_and_system_words : ∀ i ∈ ([
    .ldB32 (.v 4) (.v 3) 0 0, .ldB32 (.s 4) (.v 2) 0 0, .ldB32 .tix (.v 2) 0 0, .ldB64 (.v 5) (.v 2) 0 0, .ldB128 (.v 6) (.v 2) 0 0, .stB32 (.v 4) .zr 0 0,
    .stB64 (.v 5) (.v 2) 0 0, .stB128 (.v 6) (.v 2) 0 0, .tld (.v 4) (.v 2) 0 0, .tld (.s 4) (.s 2) 0 0, .pf (.v 3) 0 0, .lrB64 (.v 5) (.v 2) 0 0,
    .scB32 .zr (.v 2) 0 0, .scB64 (.s 3) (.s 2) 0 0, .atom .cas .die .rlx (.v 5) (.v 2) 0, .atom .add .die .rlx .zr (.v 2) 0,
    .atom .add .die .rlx (.s 4) (.v 2) 0, .monArm .core (.s 4) (.v 2) 0, .wait .g (.v 1), .rdcnt .g .bix, .latInit 0 (.v 1), .latGen 0 .bix, .cp 0 (.s 16) 0,
    .cp 0 (.s 2) 0, .mxPrec 0 .zr, .mxLdb 0 (.s 31), .mxMm 0 (.s 29), .mxSt 0 (.s 32), .mxZero 0 (.s 35), .mxPost .mm 0 (.s 29) 0, .qSig .core .zr,
    .perfSet (.v 1), .mfsr 0x54 (.s 1), .mfsr 0x71 (.s 1), .mfsr 0x70 (.s 1), .mtsr 0x5C (.s 1), .mtsr 0x70 (.s 1), .hngSet 0 (.s 2), .hngRd 0 .zr, .tlbInv .host (.s 2),
    .tlbInv .core (.s 3)] : List Instr), i.wf = false := by decide

/-- R71, R78: reserved majors are no instruction. -/
theorem test_decode_refuses_reserved_majors : ([0x1E000000, 0x2E000000, 0x3E000000, 0x6E000000, 0x72000000, 0x7E000000] : List Word).all (fun w => (decode w).isNone) = true := by decide

/-- R69, R71 to R76, R78: reserved codes, and fields that must be 0, in majors 00 to 1B; field 127 is no register. -/
theorem test_decode_refuses_reserved_codes : ([
    0x00000004, 0x00040000, 0x0200000F, 0x0200001E, 0x040000A6, 0x0E000080, 0x15400000, 0x14000001, 0x180C0844, 0x18200001, 0x20000007, 0x20000015,
    0x26000005, 0x28E00000, 0x2A000070, 0x2C000005, 0x30004004, 0x32000005, 0x34000020, 0x36000003, 0x021BF840] : List Word).all (fun w => (decode w).isNone) = true := by decide

/-- The same in majors 1C to 3E. -/
theorem test_decode_refuses_reserved_fields : ([
    0x38000002, 0x3A000008, 0x40040000, 0x42C00000, 0x44400000, 0x46C40100, 0x4C000800, 0x58000800, 0x600000C0, 0x62000110, 0x64000600, 0x66000300,
    0x68000050, 0x6A000020, 0x70000060, 0x7A000020, 0x7C000040] : List Word).all (fun w => (decode w).isNone) = true := by decide

/-! ### Decoding: words from the entries and from the fields of R68 to R76 -/

/-- Major 00 (R71); `nop` and `yield` of their entries, with S on a safe point. -/
theorem test_decode_control : ∀ e ∈ ([
    (0x00000000, .nop),
    (0x80000000, .nop),
    (0x00000001, .exit),
    (0x00000002, .yield),
    (0x00140003, .brkpt 5)] : List (Word × Instr)), decode e.1 = some e.2 := by decide

/-- Major 01, with the words that the entries print. -/
theorem test_decode_integer : ∀ e ∈ ([
    (0x02184840, .add (.v 6) (.v 9) (.v 4)),
    (0x03A7E641, .sub (.s 17) .zr (.s 12)),
    (0x022C58A2, .and (.v 11) (.v 11) (.v 10)),
    (0x02244883, .or (.v 9) (.v 9) (.v 8)),
    (0x02202054, .xor (.v 8) (.v 4) (.v 5)),
    (0x0372E755, .andn (.s 4) (.s 4) (.s 29)),
    (0x02182056, .minSgn (.v 6) (.v 4) (.v 5)),
    (0x02182057, .maxSgn (.v 6) (.v 4) (.v 5)),
    (0x02182058, .minUns (.v 6) (.v 4) (.v 5)),
    (0x02182059, .maxUns (.v 6) (.v 4) (.v 5)),
    (0x022C67DA, .shl (.v 11) (.v 12) .tix),
    (0x0218205B, .shr (.v 6) (.v 4) (.v 5)),
    (0x0218205C, .sra (.v 6) (.v 4) (.v 5)),
    (0x0214206D, .rot (.v 5) (.v 4) (.v 6)),
    (0x020EC80E, .mov (.v 3) (.s 1))] : List (Word × Instr)), decode e.1 = some e.2 := by decide

/-- Major 02: products and bit fields. -/
theorem test_decode_multiply : ∀ e ∈ ([
    (0x04182090, .mulLo (.v 6) (.v 4) (.v 9)),
    (0x04182051, .mulHiSgn (.v 6) (.v 4) (.v 5)),
    (0x04182052, .mulHiUns (.v 6) (.v 4) (.v 5)),
    (0x056EE5D3, .mad (.s 3) (.s 4) (.s 5)),
    (0x042025A4, .bfx (.v 8) (.v 4) (.s 2)),
    (0x042025A5, .bfi (.v 8) (.v 4) (.s 2))] : List (Word × Instr)), decode e.1 = some e.2 := by decide

/-- Major 02, FN 6 (R72). -/
theorem test_decode_unary : ∀ e ∈ ([
    (0x04142006, .clz (.v 5) (.v 4)),
    (0x04345816, .popc (.v 13) (.v 11)),
    (0x04142026, .brev (.v 5) (.v 4)),
    (0x04142036, .not (.v 5) (.v 4)),
    (0x04142046, .absI32 (.v 5) (.v 4)),
    (0x04142056, .absI16x2 (.v 5) (.v 4)),
    (0x04142066, .absI8x4 (.v 5) (.v 4)),
    (0x04142076, .negI32 (.v 5) (.v 4)),
    (0x04142086, .negI16x2 (.v 5) (.v 4)),
    (0x04142096, .negI8x4 (.v 5) (.v 4))] : List (Word × Instr)), decode e.1 = some e.2 := by decide

/-- Major 02: packed integers. -/
theorem test_decode_packed : ∀ e ∈ ([
    (0x04142067, .addI16x2 (.v 5) (.v 4) (.v 6)),
    (0x04142068, .addI8x4 (.v 5) (.v 4) (.v 6)),
    (0x04182059, .subI16x2 (.v 6) (.v 4) (.v 5)),
    (0x0418205A, .subI8x4 (.v 6) (.v 4) (.v 5)),
    (0x0418205B, .minI16x2 (.v 6) (.v 4) (.v 5)),
    (0x0418205C, .maxI16x2 (.v 6) (.v 4) (.v 5)),
    (0x0418205D, .minI8x4 (.v 6) (.v 4) (.v 5)),
    (0x0418205E, .maxI8x4 (.v 6) (.v 4) (.v 5))] : List (Word × Instr)), decode e.1 = some e.2 := by decide

/-- Majors 03 to 09; an immediate of -1 has all its bits set. -/
theorem test_decode_immediate : ∀ e ∈ ([
    (0x06142001, .addImm (.v 5) (.v 4) 1),
    (0x081833FF, .andImm (.v 6) (.v 6) 1023),
    (0x0A142100, .orImm (.v 5) (.v 4) 0x100),
    (0x0C1427FF, .xorImm (.v 5) (.v 4) 0x7FF),
    (0x0E0BE802, .shlImm (.v 2) .tix 2),
    (0x0FD3A030, .shrImm (.s 28) (.s 28) 16),
    (0x0E18205F, .sraImm (.v 6) (.v 4) 31),
    (0x0E142068, .rotImm (.v 5) (.v 4) 8),
    (0x117439B9, .li (.s 5) 0x39B9),
    (0x137678DD, .lih (.s 5) 0x278DD)] : List (Word × Instr)), decode e.1 = some e.2 := by decide

/-- Majors 0A to 0E. -/
theorem test_decode_predicates : ∀ e ∈ ([
    (0x1426FFC0, .cmp .ne 1 (.s 7) .zr),
    (0x16042000, .cmpImm .eq 1 (.v 4) 0),
    (0x180C08A0, .pand 3 ⟨false, 1⟩ ⟨true, 2⟩),
    (0x180C0821, .por 3 ⟨false, 1⟩ ⟨false, 2⟩),
    (0x180C0822, .pxor 3 ⟨false, 1⟩ ⟨false, 2⟩),
    (0x18080803, .pnot 2 ⟨false, 1⟩),
    (0x1A182059, .sel (.v 6) (.v 4) (.v 5) ⟨true, 1⟩),
    (0x1C12D5B0, .movs (.v 4) (.s 2) (.s 3)),
    (0x1D702DA1, .rdl (.s 4) (.v 5) (.s 2))] : List (Word × Instr)), decode e.1 = some e.2 := by decide

/-- Majors 10, 11 and 13. -/
theorem test_decode_float : ∀ e ∈ ([
    (0x20182050, .fadd false (.v 6) (.v 4) (.v 5)),
    (0x22182080, .fadd true (.v 6) (.v 4) (.v 8)),
    (0x20182051, .fsub false (.v 6) (.v 4) (.v 5)),
    (0x22182082, .fmul true (.v 6) (.v 4) (.v 8)),
    (0x20182053, .fmin false (.v 6) (.v 4) (.v 5)),
    (0x22182084, .fmax true (.v 6) (.v 4) (.v 8)),
    (0x22182005, .fabs true (.v 6) (.v 4)),
    (0x20142006, .fneg false (.v 5) (.v 4)),
    (0x26182052, .ffma false .rz (.v 6) (.v 4) (.v 5)),
    (0x26202069, .ffma true .rn (.v 8) (.v 4) (.v 6)),
    (0x28442050, .fcmp false .lt 1 (.v 4) (.v 5))] : List (Word × Instr)), decode e.1 = some e.2 := by decide

/-- Major 12: FN[3] is the format. -/
theorem test_decode_float_packed : ∀ e ∈ ([
    (0x24182050, .faddPacked false (.v 6) (.v 4) (.v 5)),
    (0x24182058, .faddPacked true (.v 6) (.v 4) (.v 5)),
    (0x24182059, .fsubPacked true (.v 6) (.v 4) (.v 5)),
    (0x2418205A, .fmulPacked true (.v 6) (.v 4) (.v 5)),
    (0x24182053, .fminPacked false (.v 6) (.v 4) (.v 5)),
    (0x2418205C, .fmaxPacked true (.v 6) (.v 4) (.v 5)),
    (0x2414200D, .fabsPacked true (.v 5) (.v 4)),
    (0x24142006, .fnegPacked false (.v 5) (.v 4)),
    (0x2418205F, .ffmaPacked true (.v 6) (.v 4) (.v 5))] : List (Word × Instr)), decode e.1 = some e.2 := by decide

/-- Major 15, and `cvt` of major 16. -/
theorem test_decode_transcendental : ∀ e ∈ ([
    (0x2A142000, .frcp .f32 (.v 5) (.v 4) 0),
    (0x2A142010, .frsq .f32 (.v 5) (.v 4) 0),
    (0x2A142020, .fsqrt .f32 (.v 5) (.v 4) 0),
    (0x2A1820B0, .fexp2 .f64 (.v 6) (.v 4) 0),
    (0x2A142040, .flog2 .f32 (.v 5) (.v 4) 0),
    (0x2A142153, .fsin .f16x2 (.v 5) (.v 4) 3),
    (0x2A1820E0, .fcos .f64 (.v 6) (.v 4) 0),
    (0x2C142202, .cvt .i32 .f32 .rz (.v 5) (.v 4))] : List (Word × Instr)), decode e.1 = some e.2 := by decide

/-- Majors 18 to 1B. -/
theorem test_decode_team : ∀ e ∈ ([
    (0x31744800, .vote .some (.s 5) ⟨true, 1⟩),
    (0x30181001, .vote .every (.v 6) ⟨false, 2⟩),
    (0x30181002, .vote .mask (.v 6) ⟨false, 2⟩),
    (0x321827C0, .shfl .at (.v 6) (.v 4) .zr),
    (0x321825A4, .shfl .rot (.v 6) (.v 4) (.s 2)),
    (0x34282000, .red .add false (.v 10) (.v 4)),
    (0x35742012, .red .max true (.s 5) (.v 4)),
    (0x34448028, .scan .add false true (.v 17) (.v 16)),
    (0x3414201A, .scan .max true false (.v 5) (.v 4)),
    (0x36284801, .matchKey .f32 false (.v 10) (.v 9)),
    (0x36284006, .matchKey .f64 true (.v 10) (.v 8))] : List (Word × Instr)), decode e.1 = some e.2 := by decide

/-- Majors 1C, 1D and 1E. -/
theorem test_decode_limbs : ∀ e ∈ ([
    (0x3802D000, .bind (.s 2)),
    (0x38000001, .unbind),
    (0x3A102050, .ladd (.v 4) (.v 4) (.v 5)),
    (0x3A182051, .lsub (.v 6) (.v 4) (.v 5)),
    (0x3A182002, .lneg (.v 6) (.v 4)),
    (0x3A002053, .lcmp (.v 4) (.v 5)),
    (0x3A1C3DB4, .lshl (.v 7) (.v 7) (.s 3)),
    (0x3A1835B5, .lshr (.v 6) (.v 6) (.s 3)),
    (0x3A1C25C6, .lmul (.v 7) (.v 4) (.s 4)),
    (0x3A1825C7, .lmulAddend (.v 6) (.v 4) (.s 4)),
    (0x3C02D001, .wbase (.s 2) 1)] : List (Word × Instr)), decode e.1 = some e.2 := by decide

/-- Majors 20 and 21. -/
theorem test_decode_transfer : ∀ e ∈ ([
    (0x40000003, .br 3),
    (0x4003FFFE, .br 0x3FFFE),
    (0x4067FFF6, .brc ⟨true, 1⟩ 0x3FFF6),
    (0x4200000C, .call 12),
    (0x42400000, .ret),
    (0x4282E000, .jmp (.s 4))] : List (Word × Instr)), decode e.1 = some e.2 := by decide

/-- Majors 22 and 23. -/
theorem test_decode_divergence : ∀ e ∈ ([
    (0x44480006, .ifp ⟨false, 2⟩ 6),
    (0x44800005, .elsep 5),
    (0x44C00000, .endif),
    (0x46000000, .loopBeg),
    (0x4643FFFC, .loopEnd 0x3FFFC),
    (0x469C0001, .brk ⟨false, 7⟩ 1),
    (0x46C40000, .cont ⟨false, 1⟩ 0)] : List (Word × Instr)), decode e.1 = some e.2 := by decide

/-- Majors 24 to 27. -/
theorem test_decode_load : ∀ e ∈ ([
    (0x48101042, .ldB32 (.v 4) (.v 2) 4 2),
    (0x48182600, .ldB32 (.v 6) (.v 4) 0x60 0),
    (0x48101830, .ldB8 (.v 4) (.v 2) 3 0),
    (0x4A101010, .ldB64 (.v 4) (.v 2) 1 0),
    (0x4A10181F, .ldB16 (.v 4) (.v 2) 1 15),
    (0x4D72C010, .ldB128 (.s 4) (.s 0) 1 0),
    (0x4E101000, .ldI8 (.v 4) (.v 2) 0 0),
    (0x4E101FF0, .ldI16 (.v 4) (.v 2) 0x7F 0)] : List (Word × Instr)), decode e.1 = some e.2 := by decide

/-- Majors 28 to 2D. -/
theorem test_decode_store : ∀ e ∈ ([
    (0x50184000, .stB32 (.v 6) (.v 8) 0 0),
    (0x517B1010, .stB32 (.s 6) (.s 10) 1 0),
    (0x52101010, .stB64 (.v 4) (.v 2) 1 0),
    (0x54B0B010, .stB128 (.v 44) (.v 22) 1 0),
    (0x56141010, .stB8 (.v 5) (.v 2) 1 0),
    (0x56141810, .stB16 (.v 5) (.v 2) 1 0),
    (0x59701021, .tld (.s 4) (.v 2) 2 1),
    (0x5A001010, .pf (.v 2) 1 0)] : List (Word × Instr)), decode e.1 = some e.2 := by decide

/-- Majors 2E to 31. -/
theorem test_decode_sync_memory : ∀ e ∈ ([
    (0x5C101000, .lrB32 (.v 4) (.v 2) 0 0),
    (0x5C101800, .lrB64 (.v 4) (.v 2) 0 0),
    (0x5F72F000, .scB32 (.s 4) (.s 6) 0 0),
    (0x5E181800, .scB64 (.v 6) (.v 2) 0 0),
    (0x6018106C, .atom .add .die .ar (.v 6) (.v 2) 0),
    (0x60101777, .atom .cas .pkg .acq (.v 4) (.v 2) 3),
    (0x63730060, .monArm .die (.s 4) (.s 8) 0),
    (0x62000100, .monWait)] : List (Word × Instr)), decode e.1 = some e.2 := by decide

/-- Majors 32 to 34. -/
theorem test_decode_ordering : ∀ e ∈ ([
    (0x64000380, .phase .pkg),
    (0x64000580, .phase .host),
    (0x67640100, .wait .c (.s 1)),
    (0x67700190, .rdcnt .m (.s 4)),
    (0x69640100, .latInit 2 (.s 1)),
    (0x68000290, .latArr 5),
    (0x69680120, .latWait 2 (.s 2)),
    (0x680001B0, .latArw 3),
    (0x696C00C0, .latGen 1 (.s 3))] : List (Word × Instr)), decode e.1 = some e.2 := by decide

/-- Majors 35, 36 and 38. -/
theorem test_decode_engine : ∀ e ∈ ([
    (0x6A000080, .fork .cp),
    (0x6A000010, .join .mx),
    (0x6D700080, .cp 1 (.s 4) 0),
    (0x71D00100, .mxPrec 2 (.s 28)),
    (0x71D00110, .mxLdb 2 (.s 28)),
    (0x71D00120, .mxMm 2 (.s 28)),
    (0x71B00030, .mxSt 0 (.s 20)),
    (0x71D00140, .mxZero 2 (.s 28)),
    (0x71D030D0, .mxPost .st 1 (.s 28) 0)] : List (Word × Instr)), decode e.1 = some e.2 := by decide

/-- Majors 3A to 3E. -/
theorem test_decode_system : ∀ e ∈ ([
    (0x75740180, .qSig .core (.s 5)),
    (0x75700190, .qWait .core (.s 4)),
    (0x776C0000, .perfSet (.s 3)),
    (0x79783100, .mfsr 0x062 (.s 6)),
    (0x79883800, .mfsr 0x070 (.s 10)),
    (0x79643010, .mtsr 0x060 (.s 1)),
    (0x7A000280, .trap 5),
    (0x7A000010, .eret),
    (0x7D800180, .hngSet 3 (.s 8)),
    (0x7C000790, .hngClr 15),
    (0x7D8001A0, .hngRd 3 (.s 8)),
    (0x7D7003B0, .tlbInv .pkg (.s 4))] : List (Word × Instr)), decode e.1 = some e.2 := by decide

/-! ### Single steps: results from the examples of the reference entries -/

/-- Vector register `d` of thread 0 after an instruction, with v4, v5 and v6 given before. -/
def result (d : Nat) (i : Instr) (x y z : Word) : Option Word :=
  match exec i { demo with team := { demo.team with threads := 1, v := [(0, [(4, x), (5, y), (6, z)])] } } with
  | .next t => some (t.team.flush.rdV 0 d)
  | _ => none

/-- R300, R301, R357, R367, R393. -/
theorem test_exec_packed : result 6 (.absI8x4 (.v 6) (.v 4)) 0x80FF7F01 0 0 = some 0x80017F01 ∧
    result 6 (.addI8x4 (.v 6) (.v 4) (.v 5)) 0x7F01FF80 0x01010180 0 = some 0x80020000 ∧ result 6 (.negI16x2 (.v 6) (.v 4)) 0x80000001 0 0 = some 0x8000FFFF ∧
    result 6 (.subI8x4 (.v 6) (.v 4) (.v 5)) 0 0x01010101 0 = some 0xFFFFFFFF ∧ result 6 (.maxSgn (.v 6) (.v 4) (.v 5)) 0xFFFFFFFF 1 0 = some 1 ∧
    result 6 (.maxUns (.v 6) (.v 4) (.v 5)) 0xFFFFFFFF 1 0 = some 0xFFFFFFFF := by decide

/-- R304, R308, R312, R375. -/
theorem test_exec_bits : result 6 (.bfx (.v 6) (.v 4) (.v 5)) 0x12345678 0x0C08 0 = some 0x456 ∧
    result 6 (.bfi (.v 6) (.v 4) (.v 5)) 0x0ABC 0x0C08 0xFFFFFFFF = some 0xFFFABCFF ∧ result 6 (.bfx (.v 6) (.v 4) (.v 5)) 0x12345678 0x081C 0 = some 1 ∧
    result 6 (.brev (.v 6) (.v 4)) 0x12345678 0 0 = some 0x1E6A2C48 ∧ result 6 (.clz (.v 6) (.v 4)) 0x00010000 0 0 = some 15 ∧
    result 6 (.clz (.v 6) (.v 4)) 0 0 0 = some 32 ∧ result 6 (.popc (.v 6) (.v 4)) 0xF8F8F8F8 0 0 = some 20 := by decide

/-- R364, R370, R384, R390. -/
theorem test_exec_shifts_and_products : result 6 (.mulLo (.v 6) (.v 4) (.v 5)) 0xFFFFFFFF 2 0 = some 0xFFFFFFFE ∧
    result 6 (.mulHiSgn (.v 6) (.v 4) (.v 5)) 0xFFFFFFFF 2 0 = some 0xFFFFFFFF ∧ result 6 (.mulHiUns (.v 6) (.v 4) (.v 5)) 0xFFFFFFFF 2 0 = some 1 ∧
    result 6 (.orImm (.v 6) (.v 4) 0x7FF) 5 0 0 = some 0xFFFFFFFF ∧ result 6 (.rotImm (.v 6) (.v 4) 8) 0x12345678 0 0 = some 0x34567812 ∧
    result 6 (.rot (.v 6) (.v 4) (.v 5)) 0x80000001 1 0 = some 3 ∧ result 6 (.sra (.v 6) (.v 4) (.v 5)) 0xFFFFFFF9 1 0 = some 0xFFFFFFFC ∧
    result 6 (.shr (.v 6) (.v 4) (.v 5)) 0xFFFFFFF9 33 0 = some 0x7FFFFFFC := by decide

/-- R325, R329, R331. -/
theorem test_exec_float : result 6 (.fadd false (.v 6) (.v 4) (.v 5)) 0x3F800000 0x30800000 0 = some 0x3F800000 ∧
    result 6 (.fadd false (.v 6) (.v 4) (.v 5)) 0x7F7FFFFF 0x7F7FFFFF 0 = some 0x7F800000 ∧
    result 6 (.ffma false .fpctl (.v 6) (.v 4) (.v 5)) 0x3F800800 0x3F800800 0xBF801000 = some 0x33800000 ∧
    result 6 (.fmin false (.v 6) (.v 4) (.v 5)) 0x80000000 0 0 = some 0x80000000 ∧
    result 6 (.fmax false (.v 6) (.v 4) (.v 5)) 0x7FC00000 0x40000000 0 = some 0x40000000 := by decide

/-- R316, R335, R336. -/
theorem test_exec_convert : result 6 (.cvt .i32 .f32 .rz (.v 6) (.v 4)) 0xC0300000 0 0 = some 0xFFFFFFFE ∧
    result 6 (.cvt .i32 .f32 .rz (.v 6) (.v 4)) 0x7FC00000 0 0 = some 0 ∧ result 6 (.cvt .i32 .f32 .rz (.v 6) (.v 4)) 0x4F32D05E 0 0 = some 0x7FFFFFFF ∧
    result 6 (.cvt .n32 .i32 .rn (.v 6) (.v 4)) 0xFFFFFFFB 0 0 = some 0 ∧ result 6 (.frcp .f32 (.v 6) (.v 4) 0) 0x40400000 0 0 = some 0x3EAAAAAB ∧
    result 6 (.fsqrt .f32 (.v 6) (.v 4) 0) 0x40000000 0 0 = some 0x3FB504F3 := by decide +kernel

/-- Eight active threads of groups of four, A = 1, 2, 3, 4, 10, 20, 30, 40 (R382, R387). -/
def eight : State :=
  prog 0 { threads := 8, regs := 16, part := 4, v := [(0, [(4, 1)]), (1, [(4, 2)]), (2, [(4, 3)]), (3, [(4, 4)]), (4, [(4, 10)]), (5, [(4, 20)]), (6, [(4, 30)]), (7, [(4, 40)])] }

/-- Register v6 of the eight threads, and s5, after an instruction. -/
def eightAfter (i : Instr) : Option (List Word × Word) :=
  match exec i eight with
  | .next t => some ((List.range 8).map fun th => t.team.rdV th 6, t.team.rdS 5)
  | _ => none

/-- R382. -/
theorem test_exec_red : eightAfter (.red .add false (.v 6) (.v 4)) = some ([10, 10, 10, 10, 100, 100, 100, 100], 0) ∧
    (eightAfter (.red .add false (.s 5) (.v 4))).map (·.2) = some 110 := by decide

/-- R387. -/
theorem test_exec_scan : eightAfter (.scan .add false false (.v 6) (.v 4)) = some ([1, 3, 6, 10, 10, 30, 60, 100], 0) ∧
    eightAfter (.scan .add false true (.v 6) (.v 4)) = some ([0, 1, 3, 6, 0, 10, 30, 60], 0) := by decide

/-- R22, R381, R388, R362: `sel`, `rdl` and `movs` read other threads and predicates as their entries say. -/
theorem test_exec_selection : eightAfter (.rdl (.s 5) (.v 4) .zr) = some ([0, 0, 0, 0, 0, 0, 0, 0], 1) ∧
    (eightAfter (.shfl .above (.v 6) (.v 4) .zr)).map (·.1) = some [1, 2, 3, 4, 10, 20, 30, 40] ∧
    (eightAfter (.sel (.v 6) (.v 4) .zr ⟨false, 7⟩)).map (·.1) = some [1, 2, 3, 4, 10, 20, 30, 40] ∧
    (eightAfter (.movs (.v 6) .bix .zr)).map (·.1) = some [0, 0, 0, 0, 0, 0, 0, 0] := by decide

/-! ### A step runs what `withFetchWord` stores -/

/-- `add v5, v4, 1` as the first instruction after reset. -/
theorem test_step_runs_first_word : after (step (State.reset.withFetchWord 32 0x06142001)) (fun t => t.team.rdV 0 5 == 1 && t.team.pc == 4) = true := by decide

/-- `trap 5` without a trap entry fails the launch with reason 0 (R221, R229). -/
theorem test_step_trap_without_entry : after (step (State.reset.withFetchWord 32 0x7A000280))
    (fun t => ((t.hub.failures.head?.getD []).head?.getD 0) == 0x0E00) = true := by decide

/-- `mx.prec L2, s28` is run by the matrix stream (R123); with s28 = 0 it fails its check in its one cycle (R130, R131). -/
theorem test_step_runs_stream_word : after (step (State.reset.withFetchWord 32 0x71D00100))
    (fun t => t.blk.mxFifo.isEmpty && decide (t.blk.streamFaults.length = 1)) = true := by decide

/-- A reserved word traps (R78). -/
theorem test_step_illegal_word : after (step (prog 0x1E000000 { threads := 1, regs := 8 }))
    (fun t => t.hub.failures.length == 1) = true := by decide

/-! ### Memory and control: one step each -/

/-- A block of 256 bytes of scratchpad with eight bytes written, and a team of four threads whose s4:s5 and v2:v3 point there (R141). -/
def spad : State :=
  let v : Tbl (Tbl Word) := [(0, [(3, 0x10000000)]), (1, [(2, 4), (3, 0x10000000)]), (2, [(2, 8), (3, 0x10000000)]), (3, [(2, 12), (3, 0x10000000)])]
  let s := prog 0 { threads := 4, regs := 24, s := [(1, 3), (2, 4), (5, 0x10000000)], v := v }
  { s with blk := { s.blk with scratch := 256, spad := [(0, 0x78), (1, 0x56), (2, 0x34), (3, 0x92), (4, 0xFF)] } }

/-- R345: `ld.b32` in the step that writes its result. -/
theorem test_exec_load : after (exec (.ldB32 (.v 6) (.v 2) 0 0) spad) (fun t => t.team.rdV 0 6 == 0x92345678 && t.team.rdV 1 6 == 0xFF) = true := by decide +kernel

/-- R345: the sign-extending `ld.i8` in its scalar form. -/
theorem test_exec_load_signed : after (exec (.ldI8 (.s 8) (.s 4) 3 0) spad) (fun t => t.team.rdS 8 == 0xFFFFFF92) = true := by decide

/-- R28, R391: a store is seen by its own team at once, and in the scratchpad when it completes. -/
theorem test_exec_store : after (exec (.stB32 (.s 1) (.s 4) 2 0) spad)
    (fun t => t.readLoc (.spad 8) == 3 && t.blk.spad.read 8 == 0 && t.team.inflight.length == 1) = true := by decide

/-- The word `endif` stands at offset 8 of the text. -/
def ifDemo : State := { demo with mem := [(0, { bytes := [(10, 0xC0), (11, 0x44)] })] }

/-- R12, R30, R298: `if` on a predicate that no thread holds, and `endif`. -/
theorem test_exec_if : after (exec (.ifp ⟨false, 1⟩ 2) ifDemo) (fun t => t.team.stack.length == 1 && t.team.execZero && t.team.pc == 8) = true ∧
    after (exec .endif (demoWith fun t => { t with stack := [{ kind := .thenPath, hasElse := false }], cnt := [(1, 1)] }))
      (fun t => t.team.stack.isEmpty && !t.team.execZero && t.team.cnt.isEmpty) = true := by decide

/-- R221, R319: `trap` saves, and `eret` restores. -/
theorem test_exec_trap_and_return :
    after (exec (.trap 5) { demo with launch := { demo.launch with trapent := some 64 } })
      (fun t => t.team.pc == 64 && t.team.priv? && tget 0 t.team.faultInfo 0 == 0x0005000E) = true ∧
    after (exec .eret inHandler) (fun t => t.team.pc == 8 && !t.team.priv?) = true := by decide

/-- R208: the second of two arrivals completes the generation. -/
theorem test_exec_latch : after (exec (.latArr 5) { demo with blk := { demo.blk with latches := [(5, { exp := 2, arr := 1 })] } })
    (fun t => tget {} t.blk.latches 5 == { gen := 1, exp := 2, arr := 0 }) = true := by decide

/-- R103, R108: a bound pair of threads adds with a carry between limbs. -/
theorem test_exec_limb_carry :
    after (exec (.ladd (.v 6) (.v 4) (.v 5)) { demo with team := { demo.team with threads := 2, limbs := 2, v := [(0, [(4, 0xFFFFFFFF), (5, 1)])] } })
      (fun t => t.team.rdV 0 6 == 0 && t.team.rdV 1 6 == 1 && t.team.limbf == 0) = true := by decide

/-! ### Hypotheses: for each statement that has some, a state and operands that meet them, at the ends of their ranges -/

/-- The register words: a form inside the window and one outside it, v24 being the first register beyond 24. -/
theorem test_hyp_AddSubtractLogicWords : mixOk (.v 23) [.v 4, .s 5] = true ∧ mixOk (.s 35) [.s 0] = true ∧
    demo.team.windowFail [(.v 23, 1), (.v 4, 1), (.s 5, 1)] = none ∧ demo.team.windowFail [(.v 24, 1), (.v 4, 1), (.s 5, 1)] = some 24 := by decide

/-- A destination `zr` discards. -/
theorem test_hyp_MinMaxMultiplyWords : mixOk .zr [.v 4, .tix] = true ∧ mixOk (.v 0) [.bix, .zr] = true ∧
    demo.team.windowFail [(.zr, 1), (.v 4, 1), (.tix, 1)] = none := by decide

theorem test_hyp_BitWords : mixOk (.v 87) [.v 4] = true ∧ demo.team.windowFail [(.v 23, 1), (.v 4, 1)] = none ∧
    demo.team.windowFail [(.v 87, 1), (.v 4, 1)] = some 87 := by decide

theorem test_hyp_ShiftFieldMoveWords : mixOk (.v 6) [.v 4, .v 5] = true ∧ mixOk (.s 6) [.bix] = true ∧ Reg.isV (.v 0) = true ∧ Reg.isS (.s 35) = true := by decide

theorem test_hyp_PackedIntegerWords : mixOk (.v 6) [.v 4, .v 5] = true ∧ mixOk (.v 6) [.v 4] = true := by decide

theorem test_hyp_CompareAndPredicateWords : demo.team.windowFail [(.v 23, 1), (.s 0, 1)] = none ∧ demo.team.windowFail [(.v 24, 1), (.s 0, 1)] = some 24 := by decide

/-- `sel`; `movs` into the last register of the window; `rdl`. -/
theorem test_hyp_SelectionWords : mixOk (.v 6) [.v 4, .v 5] = true ∧ 8 * demo.team.wb + 23 < demo.team.regs ∧ Reg.isScalar .bix = true ∧ Reg.isScalar .zr = true ∧
    Reg.isSZ (.s 35) = true ∧ demo.team.inWindow (.v 23) 1 = true ∧ demo.team.inWindow .tix 1 = true := by decide

theorem test_hyp_FloatWords : floatOk false (.v 5) [.v 4, .v 3] = true ∧ floatOk true (.v 6) [.v 4, .s 8] = true ∧
    demo.team.windowFail [(.v 22, 2), (.v 4, 2), (.s 8, 2)] = none ∧ demo.team.windowFail [(.v 23, 2), (.v 4, 2), (.s 8, 2)] = some 23 := by decide

theorem test_hyp_FloatSignWords : floatOk false (.v 5) [.v 4] = true ∧ floatOk true (.v 6) [.v 4] = true ∧ mixOk (.v 5) [.v 4] = true := by decide

/-- The three clauses of `cvt`: single to single, into a packed type, and from a packed type with and without an enabled element. -/
theorem test_hyp_PackedFloatAndConvertWords : mixOk (.v 6) [.v 4, .v 5] = true ∧
    (Instr.wf (.cvt .i32 .f32 .rz (.v 5) (.v 4)) = true ∧ cvtPacked .i32 = false ∧ cvtPacked .f32 = false) ∧
    (Instr.wf (.cvt .f16x2 .f64 .rn (.v 5) (.v 4)) = true ∧ cvtPacked .f16x2 = true) ∧
    (Instr.wf (.cvt .f64 .bf16x2 .rn (.v 6) (.v 4)) = true ∧ cvtPacked .f64 = false ∧ cvtPacked .bf16x2 = true ∧
      demo.team.windowFail [(.v 6, 2), (.v 4, 1)] = none ∧ demo.team.pen ≠ 0 ∧ (demoWith fun t => { t with pen := 0 }).team.pen = 0) := by decide

theorem test_hyp_TranscendentalWords : transOk .f32 (.v 5) (.v 4) = true ∧ transOk .f64 (.s 6) (.s 4) = true ∧ transOk .bf16x2 (.v 5) (.v 4) = true ∧
    demo.team.windowFail [(.v 22, 2), (.v 4, 2)] = none ∧ demo.team.pend = [] ∧ demo.team.inOrder :=
  ⟨by decide, by decide, by decide, by decide, rfl, inOrder_of rfl rfl⟩

/-- Groups of 2 and of 32; every reduction; a scalar destination. -/
theorem test_hyp_ShuffleReduceScanWords : demo.team.windowFail [(.v 6, 1), (.v 4, 1), (.v 5, 1)] = none ∧ 0 < demo.team.part ∧ demo.team.part ∣ 32 ∧
    (2 ∣ 32) ∧ RedOp.hasF32 .max = true ∧ demo.team.windowFail [(.v 6, 1), (.v 4, 1)] = none ∧ Reg.isSZ (.s 5) = true ∧
    demo.team.inWindow (.v 4) 1 = true ∧ demo.team.execZero = false ∧ (demoWith fun t => { t with threads := 0 }).team.execZero = true := by decide

/-- A vote into a vector register, and into a scalar register with and without active threads. -/
theorem test_hyp_VoteAndMatchWords : demo.team.inWindow (.v 23) 1 = true ∧ Reg.isSZ (.s 5) = true ∧ demo.team.flush.execZero = false ∧
    (∀ t, demo.team.active t = true → t < 1024) ∧ (demoWith fun t => { t with exited := [(0, true), (1, true), (2, true), (3, true)] }).team.flush.execZero = true ∧
    demo.team.windowFail [(.v 6, 2), (.v 4, 2)] = none := by
  refine ⟨by decide, by decide, by decide, ?_, by decide, by decide⟩
  intro t h
  have : t < 4 := by
    have := (Bool.and_eq_true _ _ ▸ h : _ ∧ _).1
    exact of_decide_eq_true (Bool.and_eq_true _ _ ▸ this : _ ∧ _).1
  omega

/-- An unbound team, one with EXEC zero, and teams bound to two threads with both and with one of them active. -/
theorem test_hyp_LimbWords : limbOk (.v 6) (.v 4) = true ∧ demo.team.windowFail [(.v 6, 1), (.v 4, 1), (.v 5, 1)] = none ∧
    demo.team.windowFail [(.v 24, 1), (.v 4, 1)] = some 24 ∧ demo.team.limbs = 0 ∧ demo.team.execZero = false ∧
    (demoWith fun t => { t with threads := 0 }).team.execZero = true ∧ (demoWith fun t => { t with threads := 0 }).team.windowFail [(.v 6, 1), (.v 4, 1)] = none ∧
    (let s := demoWith fun t => { t with limbs := 2 }
     s.team.limbs ≠ 0 ∧ ∀ t, t < s.team.limbs → s.team.active t = true) ∧
    (let s := demoWith fun t => { t with limbs := 2, cnt := [(1, 1)] }
     s.team.limbs ≠ 0 ∧ ¬ ∀ t, t < s.team.limbs → s.team.active t = true) := by decide

/-- `bind` of 1, of five of four threads, and of 1,025. -/
theorem test_hyp_BindIllegal : (1 : Word).toNat < 2 ∧ demo.team.threads < (5 : Word).toNat ∧ 1024 < (1025 : Word).toNat := by decide

/-- `bind` of 2 and of all four threads, with an inactive one, and with EXEC zero; `wbase` up to the last window and beyond. -/
theorem test_hyp_BindAndWindowWords :
    (let n := ((demoWith fun t => { t with s := [(2, 2)] }).team.rd 0 (.s 2) 0 0).toNat
     2 ≤ n ∧ n ≤ 1024 ∧ n ≤ demo.team.threads ∧ ∀ t, t < n → demo.team.active t = true) ∧
    (let n := (demo.team.rd 0 (.s 2) 0 0).toNat
     n = demo.team.threads ∧ ¬ ∀ t, t < n → (demoWith fun t => { t with cnt := [(3, 1)] }).team.active t = true) ∧
    demo.team.execZero = false ∧ (demoWith fun t => { t with threads := 0 }).team.execZero = true ∧
    (let w := ((demo.team.rd 0 .zr 0 0).toNat + (2 : BitVec 11).toNat) % 2 ^ 32
     w < 128 ∧ 8 * w < demo.team.regs) ∧
    (let w := ((demo.team.rd 0 (.s 1) 0 0).toNat + (0 : BitVec 11).toNat) % 2 ^ 32
     ¬ (w < 128 ∧ 8 * w < demo.team.regs)) := by decide

/-! ### Hypotheses: control -/

/-- A result of a long-latency word with `n` words of its shadow left. -/
def owed (n : Nat) : Pending := { dst := .vec 4, vals := [(0, [7])], left := n }

/-- Shadows of one and of two words; an access in flight; a nonzero number of issue cycles; a word executed ahead behind the word, and a hold that has not begun. -/
theorem test_hyp_EndOfWord : (∃ p : Pending, (demoWith fun t => { t with pend := [owed 2] }).team.pend = [p] ∧ 2 ≤ p.left) ∧
    (∃ p : Pending, (demoWith fun t => { t with pend := [owed 1] }).team.pend = [p] ∧ p.left = 1) ∧
    (∀ a ∈ (demoWith fun t => { t with inflight := [{ kind := .load, paths := [.g] }] }).team.inflight, a.done = false ∧ a.donePaths = []) ∧
    demo.team.pend = [] ∧ (1 : Nat) ≠ 0 ∧ demo.team.kind = .team ∧
    (let x : RanWord := { next := 8, regs := [(4, 7)], old := [(4, 0)] }
     let s := demoWith fun t => { t with queue := [{ pc := 0, word := 0x02184840 }, { pc := 4, word := 2, ran := some x }], holdFor := 1 }
     ∃ e r, s.team.ahead.tail = e :: r ∧ e.ran = some x ∧ e.pc = s.team.pc + 4 ∧ e.pc ≠ 8 ∧ s.team.holdFor ≠ 0) ∧
    (∀ e ∈ demo.team.ahead.tail.head?, e.ran = none) ∧ ¬ (([] : List Nat) ≠ [] ∧ demo.team.kind = .team) :=
  ⟨⟨owed 2, rfl, by decide⟩, ⟨owed 1, rfl, rfl⟩, by decide, rfl, by decide, rfl, ⟨_, [], rfl, rfl, rfl, by decide, by decide⟩, fun _ h => (nomatch h), by decide⟩

/-- Two words with S set stand at offsets 4 and 8, and one without it at 0. -/
def jumpDemo : State := { demo with mem := [(0, { bytes := [(0, 1), (7, 0x80), (11, 0x80)] })] }

/-- The pointers of the clauses of a computed transfer: of another space, misaligned, at a word with S, and at a word without it. -/
theorem test_hyp_TransferWords :
    (¬ ((0 : DWord).toNat / 2 ^ 60 = 7 ∧ (0 : DWord).toNat / 2 ^ 48 % 2 ^ 12 = 0)) ∧
    (let x := (0x7000000000000002 : DWord).toNat
     x / 2 ^ 60 = 7 ∧ x / 2 ^ 48 % 2 ^ 12 = 0 ∧ x % 2 ^ 48 % 4 ≠ 0) ∧
    (let x := (0x7000000000000004 : DWord).toNat
     x / 2 ^ 60 = 7 ∧ x / 2 ^ 48 % 2 ^ 12 = 0 ∧ x % 2 ^ 48 % 4 = 0 ∧ ∀ w, jumpDemo.fetchWord (x % 2 ^ 48) = .ok w → w.getLsbD 31 = true) ∧
    (let x := (0x7000000000000000 : DWord).toNat
     x / 2 ^ 60 = 7 ∧ x / 2 ^ 48 % 2 ^ 12 = 0 ∧ x % 2 ^ 48 % 4 = 0 ∧ ∃ w, jumpDemo.fetchWord (x % 2 ^ 48) = .ok w ∧ w.getLsbD 31 = false) := by
  refine ⟨by decide, by decide, ⟨by decide, by decide, by decide, fun w h => ?_⟩, ⟨by decide, by decide, by decide, 1, rfl, by decide⟩⟩
  have e : jumpDemo.fetchWord 4 = .ok 0x80000000 := rfl
  cases e.symm.trans h
  decide

/-- A stream, a team without active threads, and a team with them that has not ended. -/
theorem test_hyp_ExitWord : (demoWith fun t => { t with kind := .mxStream }).team.kind ≠ .team ∧
    ((demoWith fun t => { t with cnt := [(0, 1), (1, 1), (2, 1), (3, 1)] }).team.kind = .team ∧
      (demoWith fun t => { t with cnt := [(0, 1), (1, 1), (2, 1), (3, 1)] }).team.execZero = true) ∧
    (demo.team.kind = .team ∧ demo.team.execZero = false ∧ demo.team.ended = false ∧ demo.team.inOrder) :=
  ⟨by decide, by decide, rfl, by decide, rfl, inOrder_of rfl rfl⟩

/-- The launch has a trap entry. -/
def trapDemo : State := { demo with launch := { demo.launch with trapent := some 64 } }

theorem test_hyp_TrapEntryWords : trapDemo.team.kind = .team ∧ trapDemo.team.trapCtx = none ∧ trapDemo.launch.trapent = some 64 ∧
    trapDemo.team.inflight = [] ∧ trapDemo.launch.debugger = false ∧ ({ trapDemo.launch with debugger := true } : Launch).debugger = true ∧
    trapDemo.world trapDemo.launch.world ≠ .prot ∧ ({ trapDemo with tumbler := { trapDemo.tumbler with worlds := [(0, .prot)] } } : State).world 0 = .prot ∧
    trapDemo.team.ended = false ∧ trapDemo.team.execZero = false ∧ (demoWith fun t => { t with threads := 0 }).team.execZero = true ∧
    trapDemo.team.threads ≠ 0 ∧ trapDemo.team.engFaults = [] ∧ trapDemo.team.escapes = [] := by decide

theorem test_hyp_ReturnWords : demo.team.trapCtx = none ∧ (∃ x, inHandler.team.trapCtx = some x ∧ inHandler.team.pend = [] ∧ inHandler.team.inOrder) ∧
    trapDemo.team.kind = .team ∧ trapDemo.launch.trapent = some 64 ∧ trapDemo.settled :=
  ⟨rfl, ⟨_, rfl, rfl, inOrder_of rfl rfl⟩, rfl, rfl, settled_of rfl rfl rfl rfl⟩

/-- A word that is there and is of the kind. -/
theorem landsOn_of {s : State} {pc : Nat} {ok : Instr → Bool} (w : Word) (i : Instr) (h : s.fetchWord pc = .ok w) (d : decode w = some i)
    (k : ok i = true) : landsOn s pc ok := by
  intro x hx
  cases h.symm.trans hx
  exact ⟨i, d, k⟩

/-- Levels of one `if`. -/
def levels (n : Nat) : List Level := List.replicate n { kind := .thenPath, hasElse := true }

theorem levels_length (n : Nat) : (levels n).length = n := List.length_replicate

theorem slotElsewhere_demo : slotElsewhere demo := by
  intro d h
  rcases h with h | h
  · cases h
  · obtain ⟨_, _, h⟩ := h
    cases h

/-- A word at the target that is of no expected kind. -/
theorem notLanding {ok : Instr → Bool} (h : ok .nop = false) : ¬ landsOn demo (branchTarget demo 2) ok := by
  intro l
  obtain ⟨i, d, k⟩ := l 0 rfl
  have e : decode 0 = some .nop := by decide
  cases e.symm.trans d
  exact absurd k (by rw [h]; decide)

/-- A predicate that no thread holds stops every thread, at an `if` and at an `else`. -/
theorem allStop : ∀ th, (if tget 0 demo.team.cnt th = 0 then (if predOf demo.team th ⟨false, 1⟩ then 0 else 1) else tget 0 demo.team.cnt th + 1) ≠ 0 := by
  intro th
  have h : (if tget 0 demo.team.cnt th = 0 then (if predOf demo.team th ⟨false, 1⟩ then 0 else 1) else tget 0 demo.team.cnt th + 1) = 1 := rfl
  rw [h]
  decide

/-- `if` with 254 levels and counters of 254, with 255 levels, and with a counter of 255; with no thread left, at a target of another kind; parting the limb threads 0 and 1; `else` and `endif` at a level and outside one; the three states of the path slot. -/
theorem test_hyp_IfElseWords :
    ((levels 254).length < 255 ∧ (∀ th, ifDemo.team.live th = true → tget 0 ifDemo.team.cnt th < 255) ∧ boundKept ifDemo (fun th => tget 0 ifDemo.team.cnt th) ∧
      landsOn ifDemo (branchTarget ifDemo 2) (fun i => isElse i || isEndif i)) ∧
    255 ≤ (levels 255).length ∧
    (let s := demoWith fun t => { t with cnt := [(3, 255)] }
     s.team.stack.length < 255 ∧ s.team.lives.filter (fun th => decide (255 ≤ tget 0 s.team.cnt th)) ≠ []) ∧
    ((∀ th, (if tget 0 demo.team.cnt th = 0 then (if predOf demo.team th ⟨false, 1⟩ then 0 else 1) else tget 0 demo.team.cnt th + 1) ≠ 0) ∧
      ¬ landsOn demo (branchTarget demo 2) (fun i => isElse i || isEndif i) ∧ ¬ landsOn demo (branchTarget demo 2) isEndif ∧
      boundSplit (demoWith fun t => { t with limbs := 2 }) (fun th => if th = 0 then 1 else 0) [0]) ∧
    (slotElsewhere demo ∧ (∀ l ∈ demo.team.stack.head?, l.kind ≠ .thenPath) ∧ (∀ l ∈ demo.team.stack.head?, l.kind = .loop)) ∧
    (∃ l r, levels 1 = l :: r ∧ l.kind = .thenPath ∧ landsOn ifDemo (branchTarget ifDemo 2) isEndif ∧ l.kind ≠ .loop) ∧
    demo.team.stack = [] ∧ (demoWith fun t => { t with pathSlot := .held [1] 4 1 }).team.pathSlot = .held [1] 4 1 ∧
    (demoWith fun t => { t with pathSlot := .done 1 }).team.pathSlot = .done 1 ∧ demo.team.pathSlot = .empty := by
  refine ⟨⟨by rw [levels_length]; omega, fun th _ => ?_, .inr fun th h => absurd h (Nat.not_lt_zero th), landsOn_of 0x44C00000 .endif rfl rfl rfl⟩, by rw [levels_length], by decide,
    ⟨allStop, notLanding rfl, notLanding rfl, by unfold boundSplit; decide⟩,
    ⟨slotElsewhere_demo, fun _ h => (nomatch h), fun _ h => (nomatch h)⟩,
    ⟨_, [], rfl, rfl, landsOn_of 0x44C00000 .endif rfl rfl rfl, by decide⟩, rfl, rfl, rfl, rfl⟩
  show (0 : Nat) < 255
  decide

/-- `loop.beg` with 254 levels and with a counter of 254; `loop.end` with a thread to go on, without one, and inside an `if`; `brk` in a loop, parting the limb threads 0 and 1, and outside one. -/
theorem test_hyp_LoopWords :
    let l : Level := { kind := .loop, hasElse := false }
    let s := demoWith fun t => { t with stack := [l] }
    let out := demoWith fun t => { t with stack := [l], cnt := [(0, 2), (1, 2), (2, 2), (3, 2)] }
    ((levels 254).length < 255 ∧ ∀ th, demo.team.live th = true → tget 0 demo.team.cnt th < 254) ∧ 255 ≤ (levels 255).length ∧
    (∃ th, s.team.live th = true ∧ tget 0 s.team.cnt th ≤ 1) ∧ (¬ ∃ th, out.team.live th = true ∧ tget 0 out.team.cnt th ≤ 1) ∧
    (∃ l ∈ s.team.stack, l.kind = .loop) ∧ boundKept s (fun th => tget 0 s.team.cnt th) ∧
    ((demoWith fun t => { t with cnt := [(3, 254)] }).team.lives.filter (fun th => decide (254 ≤ tget 0 (demoWith fun t => { t with cnt := [(3, 254)] }).team.cnt th)) ≠ []) ∧
    (∃ x r, [({ kind := .thenPath, hasElse := false } : Level), l] = x :: r ∧ x.kind ≠ .loop ∧ ∃ y ∈ r, y.kind = .loop) ∧
    boundSplit (demoWith fun t => { t with limbs := 2 }) (fun th => if th = 0 then 2 else 0) [0] ∧
    (¬ ∃ l ∈ demo.team.stack, l.kind = .loop) ∧ demo.settled ∧ demo.team.execZero = false := by
  refine ⟨⟨by rw [levels_length]; omega, fun th _ => ?_⟩, by rw [levels_length], ⟨0, by decide, by decide⟩, ?_, ⟨_, List.mem_singleton.2 rfl, rfl⟩,
    .inr fun th h => absurd h (Nat.not_lt_zero th), by decide, ⟨_, _, rfl, by decide, _, List.mem_singleton.2 rfl, rfl⟩, by unfold boundSplit; decide, fun ⟨_, h, _⟩ => absurd h (List.not_mem_nil), settled_of rfl rfl rfl rfl, by decide⟩
  · show (0 : Nat) < 254
    decide
  · rintro ⟨th, h, k⟩
    have h4 : th < 4 := of_decide_eq_true ((Bool.and_eq_true _ _).mp h).1
    interval_cases th <;> revert k <;> decide

/-! ### Hypotheses: memory -/

/-- No failing thread: every access passes. -/
theorem allPass_of {s : State} {u : Use} {size : Nat} {lost : Bool} {a : Reg} {sc : Bool} {off : Int} (h : failing s u size lost a sc off = []) :
    allPass s u size lost a sc off := by
  intro t ht
  cases e : s.check u size a.isV lost t (pointerOf s a off t) with
  | ok g => exact ⟨g, rfl⟩
  | error x =>
    have : (t, x) ∈ failing s u size lost a sc off := List.mem_filterMap.2 ⟨t, ht, by rw [e]⟩
    rw [h] at this
    exact absurd this List.not_mem_nil

theorem noneParked_of {s : State} (h : s.team.parked = none) (e : s.teams = []) : NoneParked s :=
  ⟨h, fun _ hx => absurd (e ▸ hx) List.not_mem_nil⟩

/-- Global memory: v2:v3 of the four threads point to words from offset 256 on, in the page that the buffer translates. -/
def glob : State := demoWith fun t => { t with v := [(0, [(2, 256)]), (1, [(2, 260)]), (2, [(2, 264)]), (3, [(2, 268)])], s := [(4, 512)] }

/-- A load of both forms, of scratchpad and of global memory, and what it reads of one location. -/
theorem test_hyp_LoadWords : Instr.wf (.ldB32 (.v 6) (.v 2) 0 15) = true ∧ Instr.wf (.ldB128 (.s 8) (.s 4) 0 0) = true ∧ spad.team.kind = .team ∧
    spad.settled ∧ spad.unwatched ∧ spad.team.windowFail [(.v 6, 1), (.v 2, 2)] = none ∧ allPass spad .ld 4 true (.v 2) false 0 ∧
    allPass spad .ld 16 true (.s 4) true 0 ∧ allPass glob .ld 4 true (.v 2) false 0 ∧
    (∃ g : Tgt, g.leaf = none ∧ g.space ≠ 3) :=
  ⟨by decide, by decide, rfl, settled_of rfl rfl rfl rfl, ⟨rfl, rfl, rfl⟩, by decide, allPass_of rfl, allPass_of rfl, allPass_of rfl,
    ⟨{ space := 0, addr := 0 }, rfl, by decide⟩⟩

/-- A store of both forms; nothing of it is a partly covered block. -/
theorem test_hyp_StoreWords : Instr.wf (.stB32 (.v 6) (.v 2) 0 0) = true ∧ Instr.wf (.stB64 (.s 8) (.s 4) 0 0) = true ∧ glob.team.kind = .team ∧
    glob.team.threads ≤ 1024 ∧ glob.settled ∧ glob.unwatched ∧ glob.team.windowFail [(.v 6, 1), (.v 2, 2)] = none ∧
    allPass glob .st 4 false (.v 2) false 0 ∧ allPass glob .st 8 false (.s 4) true 0 ∧
    (typedStore glob.team.loud ((accessesOf glob .st 4 false (.v 2) false 0).flatMap (glob.elemsOf (.v 6) 4))).1 = [] ∧
    (∀ x ∈ accessesOf glob .st 4 false (.v 2) false 0, x.g.space = 5 → glob.xDead x.t = false) :=
  ⟨by decide, by decide, rfl, by decide, settled_of rfl rfl rfl rfl, ⟨rfl, rfl, rfl⟩, by decide, allPass_of rfl, allPass_of rfl, rfl, by decide⟩

/-- 64 bytes of global memory go to the last 64 bytes of a scratchpad of 256. -/
def tile : State :=
  let s := demoWith fun t => { t with v := [(0, [(2, 256)]), (1, [(2, 272)]), (2, [(2, 288)]), (3, [(2, 304)])], s := [(4, 192)] }
  { s with blk := { s.blk with scratch := 256 } }

theorem test_hyp_TileLoadAndPrefetchWords : Instr.wf (.tld (.s 4) (.v 2) 0 0) = true ∧ Instr.wf (.pf (.v 2) 0 0) = true ∧ tile.team.kind = .team ∧
    tile.team.threads ≤ 1024 ∧ tile.settled ∧ tile.unwatched ∧ tile.team.windowFail [(.v 2, 2)] = none ∧ allPass tile .tld 16 true (.v 2) false 0 ∧
    (let dst := (tile.team.rd tile.blk.bix (.s 4) 0 0).toNat
     dst % 16 = 0 ∧ ∀ t ∈ tile.team.actives, dst + 16 * t + 16 ≤ tile.blk.scratch) ∧
    tile.team.actives ≠ [] ∧ (demoWith fun t => { t with threads := 0 }).team.actives = [] :=
  ⟨by decide, by decide, rfl, by decide, settled_of rfl rfl rfl rfl, ⟨rfl, rfl, rfl⟩, by decide, allPass_of rfl, by decide, by decide, by decide⟩

/-- The buffer holds a leaf beyond the memory of the package. -/
def hole : State :=
  { glob with core := { glob.core with tlb := glob.core.tlb.map fun e => { e with frame := 2 ^ 23 } } }

/-- The buffer's leaf has a DB6 format, so that four words cover no block. -/
def typed : State := { glob with core := { glob.core with tlb := glob.core.tlb.map fun e => { e with efmt := 2, rowlen := 16 } } }

/-- Two threads, of which one points into the scratchpad; four threads on four lines; nine lines. -/
def mixed : State := { spad with team := { spad.team with threads := 2, v := [(0, [(2, 256)]), (1, [(2, 4), (3, 0x10000000)])] } }
def nineLines : State := demoWith fun t => { t with threads := 9, v := (List.range 9).map fun k => (k, [(2, BitVec.ofNat 32 (64 * k))]) }

/-- Threads that fail (no page there; misaligned), a partly covered block, an access to a physical address that the package does not have, a misaligned and an outlying tile, and the misuses of a monitor. -/
theorem test_hyp_MemoryFaultWords : glob.settled ∧ glob.team.windowFail [(.v 6, 1), (.v 2, 2)] = none ∧ glob.team.windowFail [(.v 6, 2), (.v 2, 2)] = none ∧
    glob.team.windowFail [(.v 8, 4), (.v 2, 2)] = none ∧ AtomOp.add ≠ .cas ∧
    (∃ t e r, failing glob .ld 8 true (.v 2) false 2 = (t, e) :: r ∧ ∀ b ∈ failing glob .ld 8 true (.v 2) false 2, b.2 ≠ .hole) ∧
    (∃ b ∈ failing hole .ld 4 true (.v 2) false 0, b.2 = .hole) ∧
    (glob.blk.key ≠ 0 ∧ glob.team.kind = .team ∧ glob.team.threads ≤ 1024 ∧ glob.unwatched ∧ firstBad (failing glob .st 8 false (.v 2) false 2) ≠ [] ∧
      ∀ x ∈ accessesOf glob .st 8 false (.v 2) false 2, x.g.space = 5 → glob.xDead x.t = false) ∧
    (firstBad (failing typed .st 4 false (.v 2) false 0) = [] ∧
      (typedStore typed.team.loud ((accessesOf typed .st 4 false (.v 2) false 0).flatMap (typed.elemsOf (.v 6) 4))).1 ≠ []) ∧
    (allPass nineLines .mon 4 false (.v 2) false 0 ∧
      8 < ((accessesOf nineLines .mon 4 false (.v 2) false 0).map fun x => (nineLines.lineRef x.g, homeLevel x.g .die)).eraseDups.length) ∧
    (allPass mixed .mon 4 false (.v 2) false 0 ∧
      ((accessesOf mixed .mon 4 false (.v 2) false 0).map fun x => (mixed.lineRef x.g, homeLevel x.g .die)).eraseDups.length ≤ 8 ∧
      ∃ x ∈ accessesOf mixed .mon 4 false (.v 2) false 0, ∃ y ∈ accessesOf mixed .mon 4 false (.v 2) false 0, ¬ (x.g.space = y.g.space ∧ x.g.pkg = y.g.pkg)) ∧
    (tile.team.windowFail [(.v 2, 2)] = none ∧ (∃ t r, tile.team.actives = t :: r) ∧ 8 % 16 ≠ 0 ∧ (∃ t ∈ tile.team.actives, tile.blk.scratch < 208 + 16 * t + 16) ∧
      firstBad (failing tile .tld 16 true (.v 2) false 4) ≠ []) := by
  refine ⟨settled_of rfl rfl rfl rfl, by decide, by decide, by decide, by decide, ⟨_, _, _, rfl, by decide⟩, ⟨_, List.mem_cons_self .., rfl⟩,
    ⟨by decide, rfl, by decide, ⟨rfl, rfl, rfl⟩, by decide, by decide⟩, ⟨by decide, by decide⟩, ⟨allPass_of rfl, by decide⟩,
    ⟨allPass_of rfl, by decide, _, List.mem_cons_self .., _, List.mem_cons_of_mem _ (List.mem_cons_self ..), by decide⟩,
    ⟨by decide, ⟨_, _, rfl⟩, by decide, by decide, by decide⟩⟩

/-- The block and the launch of the running context are resident and nobody is parked. -/
theorem placed_all : Placed glob ∧ Placed spad ∧ Placed demo :=
  ⟨⟨by decide, by decide, rfl, rfl, noneParked_of rfl rfl⟩, ⟨by decide, by decide, rfl, rfl, noneParked_of rfl rfl⟩, ⟨by decide, by decide, rfl, rfl, noneParked_of rfl rfl⟩⟩

/-- v2:v3 of the four threads name remote window 1, which lies in package 5; of the links those in `ls` are not as after reset. -/
def remote (ls : Tbl Link) : State :=
  { demoWith (fun t => { t with v := [(0, [(3, 0x50010000)]), (1, [(3, 0x50010000)]), (2, [(3, 0x50010000)]), (3, [(3, 0x50010000)])] }) with
    mem := [(0, { bytes := [(16, 0x01), (17, 0x14)] })], links := ls }

/-- Accesses to another package without a link, with one in training, with a link, and accesses to no other package. -/
theorem test_hyp_waitsForLink : waitsForLink (remote []) (.v 2) false 0 ∧ waitsForLink (remote [(11, { up := true, training := true })]) (.v 2) false 0 ∧
    ¬ waitsForLink (remote [(11, { up := true, width := 3 })]) (.v 2) false 0 ∧ ¬ waitsForLink glob (.v 2) false 0 := by
  refine ⟨⟨fun _ h => (nomatch h), rfl, 0, by decide, 5, rfl, by decide⟩, ⟨by unfold noLink; decide, rfl, 0, by decide, 5, rfl, by decide⟩,
    fun h => absurd h.1 (by unfold noLink; decide), fun ⟨_, _, t, ht, p, hp, _⟩ => ?_⟩
  have : ∀ t ∈ accessors glob false, glob.farPkg (pointerOf glob (.v 2) 0 t) = none := by decide
  rw [this t ht] at hp
  cases hp

/-- R285: a load waits for a link, and does not wait with one. -/
theorem test_load_waits_for_link :
    after (exec (.ldB32 (.v 6) (.v 2) 0 0) (remote [])) (fun t => t.team.parked == some .link && t.team.pc == 0) = true ∧
    after (exec (.ldB32 (.v 6) (.v 2) 0 0) (remote [(11, { up := true, width := 3 })])) (fun t => t.team.parked.isNone) = true := by
  decide

/-- `lr` and `sc`, with a reservation that stands. -/
theorem test_hyp_ReserveWords :
    let as := accessesOf glob .lr 4 false (.v 2) false 0
    let s := demoWith fun t => { glob.team with resv := [(0, some (.home 0 4))], key := t.key }
    Instr.wf (.lrB32 (.v 6) (.v 2) 0 0) = true ∧ Instr.wf (.scB64 (.v 6) (.v 2) 0 0) = true ∧ glob.team.kind = .team ∧ glob.settled ∧ glob.unwatched ∧
    glob.team.windowFail [(.v 6, 1), (.v 2, 2)] = none ∧ allPass glob .lr 4 false (.v 2) false 0 ∧ allPass glob .sc 4 false (.v 2) false 0 ∧
    (∀ x ∈ as, (glob.bringDown as (fun _ => .home) 4).homePoison x.g .home x.t 4 = 0) ∧
    (∀ x ∈ accessesOf glob .sc 4 false (.v 2) false 0, x.g.space = 5 → glob.xDead x.t = false) ∧ glob.team.threads ≠ 0 ∧ Placed glob ∧ as ≠ [] ∧
    (∃ x ∈ accessesOf s .sc 4 false (.v 2) false 0, s.team.resvOf false x.t = some (s.lineRef x.g)) :=
  ⟨by decide, by decide, rfl, settled_of rfl rfl rfl rfl, ⟨rfl, rfl, rfl⟩, by decide, allPass_of rfl, allPass_of rfl, by decide, by decide, by decide, placed_all.1, by decide,
    ⟨_, List.mem_cons_self .., rfl⟩⟩

/-- An atomic of four threads on four words, and on one word; words apart. -/
theorem test_hyp_AtomicWord :
    let as := accessesOf glob (.atom .add) 4 false (.v 2) false 0
    Instr.wf (.atom .add .die .ar (.v 6) (.v 2) 0) = true ∧ Instr.wf (.atom .cas .core .rlx (.s 6) (.s 4) 3) = true ∧ glob.team.kind = .team ∧ glob.settled ∧
    glob.unwatched ∧ Placed glob ∧ glob.team.windowFail [(.v 6, 1), (.v 2, 2)] = none ∧ allPass glob (.atom .add) 4 false (.v 2) false 0 ∧
    allPass glob (.atom .cas) 4 false (.s 4) true 0 ∧
    (∀ x ∈ as, (glob.bringDown as (fun x => homeLevel x.g .die) 4).homePoison x.g (homeLevel x.g .die) x.t 4 = 0) ∧ Apart as 4 ∧
    isAcq .rlx = false ∧ (∀ x ∈ as, x.g.space ≠ 5) ∧ isRel .ar = true :=
  ⟨by decide, by decide, rfl, settled_of rfl rfl rfl rfl, ⟨rfl, rfl, rfl⟩, placed_all.1, by decide, allPass_of rfl, allPass_of rfl, by decide, by unfold Apart; decide,
    by decide, by decide, by decide⟩

/-- Arming on one line; arming with no active thread; the three states of `mon.wait`. -/
theorem test_hyp_MonitorWords :
    let as := accessesOf glob .mon 4 false (.v 2) false 0
    let none_ := demoWith fun t => { t with threads := 0 }
    Instr.wf (.monArm .die (.v 6) (.v 2) 0) = true ∧ glob.team.kind = .team ∧ glob.settled ∧ glob.unwatched ∧
    glob.team.windowFail [(.v 6, 1), (.v 2, 2)] = none ∧ allPass glob .mon 4 false (.v 2) false 0 ∧ as ≠ [] ∧
    ((as.map fun x => (glob.lineRef x.g, homeLevel x.g .die)).eraseDups).length ≤ 8 ∧
    (∀ x ∈ as, ∀ y ∈ as, x.g.space = y.g.space ∧ x.g.pkg = y.g.pkg) ∧
    (∀ x ∈ as, (glob.bringDown as (fun x => homeLevel x.g .die) 4).homePoison x.g (homeLevel x.g .die) x.t 4 = 0) ∧
    (none_.settled ∧ accessors none_ false = []) ∧ demo.team.mon = .idle ∧
    (demoWith fun t => { t with mon := .armed }).team.mon = .armed ∧ (demoWith fun t => { t with mon := .triggered }).team.mon = .triggered :=
  ⟨by decide, rfl, settled_of rfl rfl rfl rfl, ⟨rfl, rfl, rfl⟩, by decide, allPass_of rfl, by decide, by decide, by decide, by decide, ⟨settled_of rfl rfl rfl rfl, by decide⟩, rfl, rfl, rfl⟩

/-! ### Hypotheses: ordering, engines, system words -/

/-- Two loads are on their way. -/
def waiting : State := demoWith fun t => { t with inflight := [{ kind := .load, paths := [.g] }, { kind := .load, paths := [.g] }] }

/-- An engine fault of the matrix engine awaits the team. -/
def faulty : State := demoWith fun t => { t with engFaults := [{ engine := .mx, origin := .team t.key t.index, cause := { cls := .layout } }] }

/-- A store of one byte is on its way to package 5, and no link moves data. -/
def sending : State := demoWith fun t => { t with inflight := [{ kind := .store, paths := [.x], writes := [{ loc := .home 5 64, byte := 7, thread := 0 }] }] }

/-- That store is held. -/
theorem storeHeld_sending : storeHeld sending :=
  ⟨fun _ h => (nomatch h), _, List.mem_cons_self .., _, List.mem_cons_self .., 5, 64, rfl, by decide⟩

/-- A trap of a team with it, whose launch has a trap entry, waits. -/
theorem test_hyp_trapWaits :
    let s : State := { sending with launch := trapDemo.launch }
    s.team.kind = .team ∧ s.team.trapCtx = none ∧ s.launch.trapent = some 64 ∧ storeHeld s :=
  ⟨rfl, rfl, rfl, storeHeld_sending⟩

/-- R184, R285: the store waits, and goes once a link moves data. -/
theorem test_store_waits_for_link :
    after (exec (.storeCompletion 0 ⟨0, .x⟩) sending) (fun t => t.team.inflight == sending.team.inflight) = true ∧
    after (exec (.storeCompletion 0 ⟨0, .x⟩) { sending with links := [(3, { up := true, width := 3 })] }) (fun t => t.team.inflight.isEmpty) = true := by
  decide

/-- The three levels of a scope; a wait at a counter of 2 for at most 1, for at most 2, and for 255; a fault of the engine waited for. -/
theorem test_hyp_OrderingWords : demo.settled ∧ demo.team.kind = .team ∧ Placed demo ∧ scopeLevel .core = .coreView ∧ scopeLevel .clus = .cluster ∧
    scopeLevel .die = .home ∧ Scope.core ≠ .host ∧ waiting.team.engFaults = [] ∧ 1 < waiting.team.flush.counter .g ∧ ¬ (2 < 255 ∧ 2 < waiting.team.flush.counter .g) ∧
    ¬ (255 < 255 ∧ 255 < waiting.team.flush.counter .g) ∧
    (∃ x, faulty.team.engFaults = [x] ∧ x.engine = .mx ∧ x.origin = .team faulty.team.key faulty.team.index) ∧ Reg.isSZ .zr = true ∧
    (sending.team.kind = .team ∧ storeHeld sending) :=
  ⟨settled_of rfl rfl rfl rfl, rfl, placed_all.2.2, rfl, rfl, rfl, by decide, rfl, by decide, by decide, by decide, ⟨_, rfl, rfl, rfl⟩, rfl,
    ⟨rfl, storeHeld_sending⟩⟩

/-- Values 1 and 255, 0 and 256; an arrival that completes a generation and one that does not; a wait for the latch's generation and for another. -/
theorem test_hyp_LatchWords : demo.team.kind = .team ∧ demo.unwatched ∧ Placed demo ∧ demo.settled ∧
    (1 ≤ (1 : Word).toNat ∧ (255 : Word).toNat ≤ 255) ∧ ¬ (1 ≤ (0 : Word).toNat ∧ (0 : Word).toNat ≤ 255) ∧ ¬ (1 ≤ (256 : Word).toNat ∧ (256 : Word).toNat ≤ 255) ∧
    (let x : Latch := { gen := 3, exp := 2, arr := 1 }
     (arrived x).gen ≠ x.gen) ∧
    (let x : Latch := { gen := 3, exp := 2, arr := 0 }
     (arrived x).gen = x.gen) ∧
    (tget {} demo.blk.latches 2).gen = (demo.team.rd 0 .zr 0 0).setWidth 16 ∧ (tget {} demo.blk.latches 2).gen ≠ (demo.team.rd 0 (.s 1) 0 0).setWidth 16 :=
  ⟨rfl, ⟨rfl, rfl, rfl⟩, placed_all.2.2, settled_of rfl rfl rfl rfl, by decide, by decide, by decide, by decide, by decide, by decide, by decide⟩

/-- A team of the same block with a lower index. -/
def rival (f : Team → Team) : State :=
  { demo with team := { demo.team with index := 1 }, teams := [(5, some (f { demo.team with key := 5 }))] }

/-- Fifteen entries and sixteen; an entry that has come to another team, and to this one; a team of a lower index waits, and waits stopped. -/
theorem test_hyp_entryFree : demo.blk.key ≠ 0 ∧ demo.team.blkKey = demo.blk.key ∧ entryFree demo .mx 15 ∧ ¬ entryFree demo .mx 16 ∧
    entryFree (rival fun t => { t with promised := some .mx }) .cp 15 ∧ ¬ entryFree (rival fun t => { t with promised := some .mx }) .mx 0 ∧
    ¬ entryFree (rival fun t => { t with parked := some (.fifo .mx) }) .mx 0 ∧ entryFree (rival fun t => { t with parked := some (.fifo .mx) }) .cp 0 ∧
    entryFree (rival fun t => { t with parked := some (.fifo .mx), stopped := true }) .mx 0 ∧
    (let s := rival fun t => { t with parked := some (.fifo .mx) }
     entryFree { s with team := { s.team with promised := some .mx } } .mx 15) := by
  refine ⟨by decide, rfl, ?_, ?_, ?_, ?_, ?_, ?_, ?_, ?_⟩ <;> unfold entryFree entersBefore <;> decide

/-- A block with a matrix stream and none of the copy engine, idle, running, with a command left, and with a stream's fault. -/
theorem test_hyp_StreamWords :
    let b : Block := { demo.blk with mxEntry := some 64 }
    let x : MxEntry := { cmd := .zero, latch := 0, ops := [0, 256], firstReg := 88, origin := .mxStream }
    demo.settled ∧ demo.team.joined = false ∧ demo.blk.key ≠ 0 ∧ demo.team.key ≠ streamKey demo.blk.coreId .mx ∧ demo.team.key ≠ streamKey demo.blk.coreId .cp ∧
    b.cpEntry = none ∧ b.mxEntry ≠ none ∧ b.mxRun = false ∧ ({ b with mxRun := true } : Block).mxRun = true ∧
    ({ b with mxFifo := [x] } : Block).mxFifo.any (fun x => decide (x.origin = .mxStream) && !x.mtsr) = true ∧
    b.mxFifo.any (fun x => decide (x.origin = .mxStream) && !x.mtsr) = false ∧ demo.team.engFaults = [] ∧ b.streamFaults = [] ∧
    (∃ f : EngFault, ({ b with streamFaults := [{ engine := .mx, origin := .mxStream, cause := { cls := .layout } }] } : Block).streamFaults = [f] ∧ f.engine = .mx) ∧
    demo.launch.replay = 0 ∧ demo.launch.uid ≠ 0 :=
  ⟨settled_of rfl rfl rfl rfl, rfl, by decide, by decide, by decide, rfl, by decide, rfl, rfl, by decide, rfl, rfl, rfl, ⟨_, rfl, rfl⟩, rfl, by decide⟩

/-- A record of four FP32 elements from global offset 0 to scratchpad offset 0 (R152), and a record of zeros. -/
def copyDemo : State :=
  let s := demoWith fun t => { t with s := [(0, 0x1501), (3, 4), (8, 16), (18, 4)] }
  { s with blk := { s.blk with scratch := 256 } }

/-- An entry and none; a fault of the copy engine; a copy that has raised its counter waits for its entry; a store on its way to another package. -/
theorem test_hyp_PostWords :
    copyDemo.team.kind = .team ∧ copyDemo.settled ∧ copyDemo.team.raised = none ∧ copyDemo.launch.replay = 0 ∧ copyDemo.launch.uid ≠ 0 ∧ copyDemo.team.engFaults = [] ∧
    copyDemo.blk.key ≠ 0 ∧ copyDemo.team.blkKey = copyDemo.blk.key ∧ entryFree copyDemo .mx copyDemo.blk.mxFifo.length ∧
    copyDemo.cpFault ((List.range 24).map fun k => copyDemo.team.rd copyDemo.blk.bix (.s 0) k 0) (encReg (.s 0)).toNat = none ∧
    entryFree copyDemo .cp copyDemo.blk.cpFifo.length ∧ ¬ entryFree copyDemo .cp 16 ∧
    (∃ f : EngFault, [({ engine := .cp, origin := .team copyDemo.team.key copyDemo.team.index, cause := { cls := .layout } } : EngFault)] = [f] ∧ f.engine = .cp ∧
      f.origin = .team copyDemo.team.key copyDemo.team.index) ∧ Placed copyDemo ∧
    (∃ c, demo.cpFault ((List.range 24).map fun k => demo.team.rd demo.blk.bix (.s 0) k 0) (encReg (.s 0)).toNat = some c) ∧
    (let y : Access := { kind := .copy, paths := [.c], tag := 7 }
     let w : Team := { copyDemo.team with raised := some 7, inflight := [y] }
     w.raised = some 7 ∧ w.inflight = [y] ∧ y.kind = .copy ∧ y.paths = [.c] ∧ y.done = false ∧ y.donePaths = [] ∧ y.writes = [] ∧ y.tag = 7 ∧ w.pend = [] ∧ w.inOrder) ∧
    (storeHeld sending ∧ sending.team.counter .c < 255 ∧ sending.team.pend = [] ∧ sending.team.inOrder ∧ sending.blk.key ≠ 0 ∧ sending.team.blkKey = sending.blk.key) :=
  ⟨rfl, settled_of rfl rfl rfl rfl, rfl, rfl, by decide, rfl, by decide, rfl, by unfold entryFree entersBefore; decide, by decide, by unfold entryFree entersBefore; decide,
    by unfold entryFree entersBefore; decide, ⟨_, rfl, rfl, rfl⟩,
    ⟨by decide, by decide, rfl, rfl, noneParked_of rfl rfl⟩, ⟨_, rfl⟩, ⟨rfl, rfl, rfl, rfl, rfl, rfl, rfl, rfl, rfl, inOrder_of rfl rfl⟩,
    ⟨storeHeld_sending, by decide, rfl, inOrder_of rfl rfl, by decide, rfl⟩⟩

/-- Queue 0 with and without a grant, and behind a store that is held; a token there, none there, and 255 there. -/
theorem test_hyp_QueueWords :
    let s : State := { demo with launch := { demo.launch with grant := 1 } }
    let k : Token := { word := 0, core := none }
    (let h : State := { sending with launch := s.launch }
     storeHeld h ∧ queueOf (h.team.rd h.blk.bix (.s 0) 0 0) < 58 ∧ h.launch.grant / 2 ^ queueOf (h.team.rd h.blk.bix (.s 0) 0 0) % 2 = 1) ∧
    Reg.isS (.s 0) = true ∧ s.settled ∧ s.team.kind = .team ∧ Placed s ∧ queueOf (s.team.rd 0 (.s 0) 0 0) < 58 ∧
    s.launch.grant / 2 ^ queueOf (s.team.rd 0 (.s 0) 0 0) % 2 = 1 ∧ ¬ (queueOf 0 < 58 ∧ demo.launch.grant / 2 ^ queueOf 0 % 2 = 1) ∧
    ¬ queueOf 0xFFFFFFFF < 58 ∧ (tget {} s.hub.tokenQueues 0).tokens.length < 255 ∧ ¬ (List.replicate 255 k).length < 255 ∧
    (let one : TokenQueue := { tokens := [k] }
     one.tokens[one.waiters.length]? = some k) ∧
    (let two : TokenQueue := { tokens := [{ k with word := 1 }, k], waiters := [5] }
     two.tokens[two.waiters.length]? = some k) ∧
    tokenReach k 3 = .home ∧ tokenReach { k with core := some 3, scope := .core } 3 = .coreView ∧ tokenReach { k with core := some 2, scope := .core } 3 = .cluster ∧
    tokenReach { k with core := some 8, scope := .core } 3 = .home ∧
   
    (tget {} s.hub.tokenQueues 0).tokens.length ≤ (tget {} s.hub.tokenQueues 0).waiters.length :=
  ⟨⟨storeHeld_sending, by decide, by decide⟩, rfl, settled_of rfl rfl rfl rfl, rfl, ⟨by decide, by decide, rfl, rfl, noneParked_of rfl rfl⟩, by decide, by decide, by decide, by decide, by decide,
    fun h => absurd h (by rw [List.length_replicate]; omega), rfl, rfl, rfl, by decide, by decide, by decide, by decide⟩

/-- Selectors of each clause, and the ends of the legal values of PART, LIMBF, TPRIO, FPCTL, MXP, FRQPOL, SAMPCTL and PERFLVL. -/
theorem test_hyp_SpecialRegisterWords :
    (selectorListed 0x20 = true ∧ readsLate 0x20 = false) ∧ (selectorListed 0x00 = true ∧ readsLate 0x00 = true) ∧ (selectorListed 0x53 = true ∧ readsLate 0x53 = true) ∧
    (selectorListed 0x6F = true ∧ readsLate 0x6F = false) ∧ Reg.isSZ (.s 35) = true ∧ 32 ∈ [2, 4, 8, 16, 32] ∧ 1 ∉ [2, 4, 8, 16, 32] ∧
    (let v := 0x0B01
     v < 2 ^ 13 ∧ v / 2 ^ 7 % 2 = 0 ∧ 4 ≤ v / 2 ^ 8 % 16 ∧ v / 2 ^ 8 % 16 ≤ 14 ∧ 1 ≤ v % 2 ^ 7 ∧ v % 2 ^ 7 ≤ 64 ∧ (v / 2 ^ 12 = 1 ∨ 11 ≤ v / 2 ^ 8 % 16)) ∧
    (let v := 0x1E40
     v < 2 ^ 13 ∧ v / 2 ^ 7 % 2 = 0 ∧ 4 ≤ v / 2 ^ 8 % 16 ∧ v / 2 ^ 8 % 16 ≤ 14 ∧ 1 ≤ v % 2 ^ 7 ∧ v % 2 ^ 7 ≤ 64 ∧ (v / 2 ^ 12 = 1 ∨ 11 ≤ v / 2 ^ 8 % 16)) ∧
    demo.team.engFaults = [] ∧ demo.blk.mxFifo.length = 0 ∧ demo.launch.replay = 0 ∧ demo.launch.uid ≠ 0 ∧ inHandler.team.trapCtx ≠ none ∧
    (2 < 8 ∧ 2 % 4 ≠ 3) ∧ (6 < 8 ∧ 6 % 4 ≠ 3) ∧ ¬ (3 < 8 ∧ 3 % 4 ≠ 3) ∧ (2 ^ 31 + 256) / 2 ^ 24 % 2 ^ 7 = 0 ∧ 256 ≤ (2 ^ 31 + 256) % 2 ^ 24 ∧
    (selectorListed 0x61 = true ∧ readsLate 0x61 = true ∧ readsLate 0x62 = true) ∧ (0x6B : Nat) ∉ [0x60, 0x61, 0x62, 0x64, 0x65, 0x66, 0x67, 0x68, 0x69, 0x6C, 0x6D] := by decide

/-- A hinge descriptor of four words, its registers s8 to s11, and its text; pointers into global memory and into the scratchpad. -/
theorem test_hyp_PrivilegedWords :
    let d : QWord := 0x00000030000300000000090004000001
    let s : State := { inHandler with team := { inHandler.team with s := [(8, 0x04000001), (9, 0x900), (10, 0x30000), (11, 0x30)] } }
    demo.team.trapCtx = none ∧ inHandler.team.trapCtx ≠ none ∧ qwordOf ((List.range 4).map fun k => s.team.rd s.blk.bix (.s 8) k 0) = d ∧
    ¬ hingeLegal inHandler 0 0 ∧ hingeLegal s 3 d ∧ (∃ ws, s.hingeText d (hgClen d + 1) = .ok ws) ∧
    (∃ p, (unreadable s).hingeText d (hgClen d + 1) = .error (.permission, p)) ∧ (∃ p, (away s).hingeText d (hgClen d + 1) = .error (.hole, p)) ∧ hingeLegal (unreadable s) 3 d ∧
    hingeLegal (away s) 3 d ∧ Reg.isS (.s 8) = true ∧
    (∃ o, demo.gOff (pairOf 0 0) = some o) ∧ demo.gOff (pairOf 0 0x10000000) = none ∧ twf {} demo.cores = true ∧ twf {} demo.clusters = true ∧
    (reachesCore .die 0 143 ∧ ¬ reachesCore .die 0 144 ∧ reachesCluster .clus 8 1 ∧ ¬ reachesCluster .core 8 1) :=
  ⟨rfl, by decide, by decide, by unfold hingeLegal; decide, by unfold hingeLegal; decide, ⟨_, rfl⟩, ⟨_, rfl⟩, ⟨_, rfl⟩, by unfold hingeLegal; decide,
    by unfold hingeLegal; decide, rfl, ⟨_, rfl⟩, by decide, rfl, rfl, by unfold reachesCore reachesCluster; decide⟩

/-! ### Hypotheses: the host, launches and events -/

/-- The ends of the numbers of queues, dies, clusters, partitions, breakpoint entries, links and lanes; a token there and none; a partition beside another; a link with a failed access. -/
theorem test_hyp_HostRegisterEvents :
    let k : Token := { word := 5, core := none }
    let v : QWord := 0x3
    (0 < 58 ∧ 57 < 58 ∧ 58 ≤ 58) ∧ (tget {} demo.hub.tokenQueues 57).tokens = [] ∧ (tget {} demo.hub.tokenQueues 57).tokens.length < 255 ∧ NoneParked demo ∧
    (∃ x r, ({ tokens := [k] } : TokenQueue).tokens = x :: r ∧ ({ tokens := [k] } : TokenQueue).waiters = []) ∧
    (1 ≤ (1 : QWord).toNat ∧ (65535 : QWord).toNat ≤ 65535) ∧ (3 < 4 ∧ 71 < 72 ∧ 7 < 8 ∧ 63 < 64 ∧ 11 < 12 ∧ 15 < 16) ∧ (demo.power.booted = false ∧ ({ demo.power with booted := true } : Power).booted = true) ∧
    (∀ e ∈ ([(0, 0xC)] : Tbl QWord), e.1 ≠ 7 → partMask e.2 &&& v.toNat % 2 ^ 72 = 0) ∧ (∃ l, demo.getLaunch 1 = some l) ∧ v.getLsbD 1 = true ∧
    (0x4 : QWord).getLsbD 1 = false ∧ ({} : Link).doomed = false ∧
    (let l : Link := { doomed := true, replayBuf := [{ seq := 1, kind := .response }] }
     l.doomed = true ∧ ∀ x ∈ l.replayBuf, x.carries = .nothing) :=
  ⟨by decide, rfl, by decide, noneParked_of rfl rfl, ⟨_, [], rfl, rfl⟩, by decide, by decide, ⟨rfl, rfl⟩, by decide, ⟨_, rfl⟩, by decide, by decide, rfl, by decide⟩

/-- A code object with one kernel under handle 1, and in host memory a descriptor of a launch of it (words 0, 2, 3, 4, 6 and 38 of R43). -/
def hosted : State :=
  let word := fun (m : Mem) (k : Nat) (w : Word) => m.writeBytes (4 * k) (leBytes 4 w.toNat)
  let desc := word (word (word (word (word (word [] 0 1) 2 1) 3 0x01000001) 4 0xFFFFFFFF) 6 0x00200000) 38 63
  { State.reset with
    hub := { codeObjs := [{ handle := 1, textOff := 256, textBytes := 64, kernels := [{}] }], queues := [(0, { size := 4, tail := 1 })] }, hostMem := desc }

/-- The launch that the descriptor describes, accepted. -/
def accepted : Launch := { (hosted.launchOf (hosted.readDesc 0) 0) with uid := 1 }

/-- Nothing waits; a descriptor that passes waits; one of zeros waits; an accepted launch can be placed. -/
theorem test_hyp_LaunchStartEvents :
    let s : State := { hosted with launches := [(1, some accepted)] }
    State.reset.hub.nextQueue = none ∧ hosted.hub.nextQueue = some 0 ∧ hosted.descBad (hosted.readDesc 0) = [] ∧
    (∃ w r, hosted.descBad (hosted.readDesc 1024) = w :: r) ∧ s.getLaunch 1 = some accepted ∧ accepted.uid = 1 ∧ accepted.replay ≠ 2 ∧
    s.mayPlace accepted = true ∧ (∀ m ∈ tvals s.launchTbl, m.uid < 1 → s.placeable m = false) ∧
    (∃ picks, s.findGang accepted = some picks) ∧ NoneParked s ∧ accepted.gang ≤ 8 ∧ accepted.blocks < 2 ^ 24 ∧ 0 < accepted.kernel.team ∧ accepted.deps = [] :=
  ⟨rfl, rfl, by decide, ⟨_, _, rfl⟩, rfl, rfl, by decide, by decide, by decide, ⟨_, rfl⟩, noneParked_of rfl rfl, by decide, by decide, by decide, rfl⟩

/-- A replay whose second block's place is free, taken, and not recorded. -/
theorem test_hyp_replayPlacement :
    let l : Launch := { accepted with replay := 2, placed := 1, blocks := 2, status := .running, uid := 2 }
    let c := fun (p : List (Nat × Nat × List Nat)) => ({ accepted with replay := 1, status := .ended, placements := p } : Launch)
    let s := fun (p : List (Nat × Nat × List Nat)) => ({ hosted with launches := [(1, some (c p)), (2, some l)] } : State)
    let there := s [(0, 3, [0]), (1, 3, [17])]
    let taken : State := { there with teams := [(teamKey 3 1 1, some { coreId := 3, qtr := 1, slot := 1, threads := 4, regs := 24 })] }
    there.getLaunch 2 = some l ∧ l.replay = 2 ∧ there.mayPlace l = true ∧ taken.mayPlace l = true ∧ (∀ m ∈ tvals there.launchTbl, m.uid < 2 → there.placeable m = false) ∧
    there.replayBad l = false ∧ there.gangPlaces l = some [(3, [(1, 1)])] ∧ taken.replayBad l = false ∧ taken.gangPlaces l = none ∧
    (s [(0, 3, [0])]).replayBad l = true := by
  refine ⟨rfl, by decide, by decide, by decide, by decide, by decide, by decide, by decide, by decide, by decide⟩

/-- An ended team, a block without teams, and a running launch with all its blocks ended. -/
theorem test_hyp_EndEvents :
    let s : State := { demo with team := { demo.team with ended := true, key := 5 } }
    let b : Block := { demo.blk with teamsLeft := 0 }
    let r : State := { demo with blk := b }
    let l : Launch := { demo.launch with endedBlocks := 1 }
    let e : State := { demo with launch := l }
    (NoneParked s ∧ (s.focus 5).team.key = 5 ∧ (s.focus 5).team.threads ≠ 0 ∧ (s.focus 5).team.kind = .team ∧ (s.focus 5).team.ended = true ∧
      (s.focus 5).team.stopped = false ∧ (s.focus 5).team.inflight = [] ∧ (s.focus 5).team.engFaults = [] ∧ (s.focus 5).blk.streamFaults = []) ∧
    (r.getBlk b.key = some b ∧ tget none r.blocks b.key = none ∧ r.blockDone b = true ∧ (r.getCore b.coreId).raceQueue = []) ∧
    (e.getLaunch 1 = some l ∧ l.uid = 1 ∧ l.status = .running ∧ l.placed = l.blocks ∧ l.endedBlocks = l.blocks ∧ l.run = none) ∧
    (l.status ≠ .failed ∧ l.status ≠ .ended ∧ l.status ≠ .refused) ∧
    (s.getTeam 5 = some s.team ∧ s.getLaunch s.team.launchUid = some s.launch ∧ s.launch.uid = s.team.launchUid ∧ s.launch.status = .running) ∧ storeHeld (sending.focus 0) :=
  ⟨⟨noneParked_of rfl rfl, rfl, by decide, rfl, rfl, rfl, rfl, rfl, rfl⟩, ⟨rfl, rfl, by decide, rfl⟩, ⟨rfl, rfl, rfl, rfl, rfl, rfl⟩, by decide, ⟨rfl, rfl, rfl, rfl⟩, storeHeld_sending⟩

/-- A store with a byte in global and one in private memory completes on one path and then has the other left. -/
theorem test_hyp_storeOnTwoPaths :
    let w : PendingByte := { loc := .view 64, byte := 7, thread := 0 }
    let z : PendingByte := { loc := .priv 0 8, byte := 9, thread := 0 }
    let a : Access := { kind := .store, paths := [w.loc.path, z.loc.path], writes := [w, z] }
    w.loc.path ∈ a.paths ∧ w.loc.path ≠ z.loc.path ∧ (a.writes.filter fun y => decide (y.loc.path = w.loc.path)) = [w] ∧
    leftOn a w.loc.path [z] = [{ a with paths := [z.loc.path], donePaths := [w.loc.path], writes := [z] }] := by decide

/-- One access of each kind in flight; a store of one byte. -/
theorem test_hyp_CompletionEvents : ∀ k : AccKind,
    let a : Access := { kind := k, paths := [.g], writes := if k = .store ∨ k = .tld then [{ loc := .spad 3, byte := 7, thread := 0 }] else [] }
    let s := demoWith fun t => { t with inflight := [a], key := 5 }
    s.getTeam 5 = some s.team ∧ s.team.threads ≠ 0 ∧ s.team.inflight = [a] ∧ a.done = false ∧ a.donePaths = [] ∧ Path.g ∈ a.paths ∧ NoneParked s ∧ (s.focus 5).blk.key ≠ 0 ∧
    (s.focus 5).launch.race = false ∧ (∀ w ∈ a.writes, ∀ th o, w.loc = .priv th o → o < 256) ∧ (k ≠ .store → k ≠ .tld → a.writes = []) := by
  intro k
  cases k <;> refine ⟨rfl, by decide, rfl, rfl, rfl, List.mem_singleton.2 rfl, noneParked_of rfl rfl, by decide, rfl, fun w hw th o h => ?_, by decide⟩ <;>
    (simp at hw; try (subst hw; cases h))

/-! ### Hypotheses: scheduling, contexts, engines -/

/-- Two threads run the `if` path and two wait for the `else` path; the timer of an `if` without a switch stands at FAIRT. -/
def twoPaths (f : Team → Team) : State := demoWith fun t => f { t with
  cnt := [(2, 1), (3, 1)], stack := [{ kind := .thenPath, hasElse := true, target := 40 }], fair := 4096, qtr := 1, slot := 2, key := 18 }

/-- The four cases of the timer; a team passed over; a quarter with a team, sampled and not; stops of a team that can stop; a breakpoint at the running word. -/
theorem test_hyp_SchedulerAndStopEvents :
    let s := twoPaths id
    let o := twoPaths fun t => { t with openLr := [{ path := [0], thread := 0, line := .home 0 4 }] }
    let d := twoPaths fun t => { t with deferred := some 0, openLr := [{ path := [2], thread := 2, line := .home 0 4 }, { path := [1], thread := 1024, line := .home 0 4 }] }
    let q := twoPaths fun t => { t with stops := [.brkpt 1], parked := some .monitor }
    let e : BitVec 64 := 0x0000200000000000
    let b : State := { demo with mem := [(0, { bytes := [(3, 0x80)] })], launch := { demo.launch with bps := [(3, e)] } }
    let c : Core := { s.core with quarters := [(1, { sampctl := 0x80010000 })] }
    (s.getTeam 18 = some s.team ∧ s.team.fairOther s.launch.fairt = some ([2, 3], 44) ∧ s.team.deferred = none ∧ ¬ ∃ e ∈ s.team.openLr, ∃ th ∈ e.path, s.team.active th = true) ∧
    (o.team.fairOther o.launch.fairt = some ([2, 3], 44) ∧ ∃ e ∈ o.team.openLr, ∃ th ∈ e.path, o.team.active th = true) ∧
    (d.team.fairOther d.launch.fairt = some ([2, 3], 44) ∧ d.team.deferred = some 0 ∧ ∃ e ∈ d.team.openLr, e.thread = 1024 ∧ ∃ th ∈ e.path, d.team.active th = true) ∧ demo.team.fairOther demo.launch.fairt = none ∧
    (256 ≤ ({ s.team with passed := 256 } : Team).passed ∧ s.team.ready = true) ∧
    (nextSlot [2] 0 = some 2 ∧ (tget {} c.quarters 1).sampctl.msb = true ∧ (tget {} s.core.quarters 1).sampctl.msb = false ∧
      ((tvals s.teamTbl).filter fun t => decide (t.kind = .team) && t.coreId == 0 && t.qtr == 1).map (·.slot) = [2]) ∧
    (s.getTeam (teamKey 0 1 2) = some s.team ∧ s.team.coreId = 0 ∧ s.team.slot = 2 ∧ (s.getCore 0).hinges = [] ∧ sampleReason s 2 [] = some 0 ∧
      sampleReason q 0 [] = some 0x16 ∧ sampleReason (twoPaths fun t => { t with yielded := true }) 2 [] = some 7 ∧
      sampleReason (twoPaths fun t => { t with stopped := true }) 2 [] = some 0x1B ∧ sampleReason (twoPaths fun t => { t with fresh := true }) 2 [] = some 0x1F) ∧
    (s.launch.uid = s.team.launchUid ∧ s.launch.uid ≠ 0 ∧ s.blk.key = s.team.blkKey ∧ s.blk.key ≠ 0 ∧ s.team.qtr < 4 ∧ s.team.slot < 16 ∧ (stopWords q).length = 1) ∧
    (s.team.kind = .team ∧ s.team.ended = false ∧ s.protectedLaunch s.launch = false ∧
      ({ s with tumbler := { s.tumbler with worlds := [(0, .prot)] } } : State).protectedLaunch s.launch = true ∧ StopCause.preempt ∉ s.team.stops) ∧
    (q.team.stops ≠ [] ∧ q.team.stopped = false ∧ q.team.cand = none ∧ q.hasPending = false ∧ q.team.parked = some .monitor ∧ q.team.inflight = []) ∧
    (let r := twoPaths fun t => { t with stops := [.brkpt 1] }
     ({ r with mem := b.mem } : State).team.parked = none ∧ ({ r with mem := b.mem } : State).atSafe = true) ∧
    (parkedWord .monitor ∧ ¬ parkedWord (.fifo .mx)) ∧
    (s.launch.status = .running ∧ s.getLaunch 1 = some s.launch) ∧
    (b.team.key = 0 ∧ b.team.ready = true ∧ b.bpHits = [(3, e)] ∧ bpAct e = 0 ∧ bpTrig e = false) :=
  ⟨⟨rfl, rfl, rfl, by decide⟩, ⟨rfl, by decide⟩, ⟨rfl, rfl, by decide⟩, rfl, ⟨by decide, rfl⟩, ⟨rfl, by decide, by decide, rfl⟩,
    ⟨rfl, rfl, rfl, rfl, by decide, by decide, by decide, by decide, by decide⟩, ⟨rfl, by decide, rfl, by decide, by decide, by decide, by decide⟩, ⟨rfl, rfl, by decide, by decide, by decide⟩,
    ⟨by decide, rfl, rfl, rfl, rfl, rfl⟩, ⟨rfl, rfl⟩, ⟨trivial, fun h => h⟩, ⟨rfl, rfl⟩, ⟨rfl, rfl, rfl, by decide, by decide⟩⟩

/-- Tables at 8192 that translate the first 64 KiB to page 0, as bytes of main memory. -/
def tables : Mem := [(8192, 1), (8193, 0x28), (10240, 1), (10241, 0x30), (12288, 1), (12289, 0x38), (14336, 15)]

/-- A gang of one stopped team leaves its core, its image two bytes of a page of its world, and its image fits there again. -/
theorem test_hyp_ContextEvents :
    let s := { demoWith fun t => { t with stopped := true } with mem := [(0, { bytes := tables })], launch := { demo.launch with root := 8192 } }
    let g : SavedGang := { launchUid := 1, area := 4096, len := 2, blocks := [s.blk], teams := [{ s.team with blkKey := s.blk.key }], streams := [] }
    let r : State := { State.reset with mem := s.mem, launch := s.launch, saved := [g] }
    (s.getBlk s.blk.key = some s.blk ∧ s.gangStopped (s.gangOf s.blk) = true ∧ 0 < 2 ∧ s.imageOkAt s.launch 4096 2 = true ∧
      ∀ x ∈ s.gangOf s.blk, s.getBlk x.key = some x ∧ x.cpFifo = [] ∧ (s.getCore x.coreId).raceQueue = [] ∧ ∀ y ∈ x.mxFifo, y.finished = false ∧ (y.started = true → y.cmd = .mm)) ∧
    (r.saved[0]? = some g ∧ 575 < 576 ∧ g.blocks = [s.blk] ∧ (∀ tm ∈ g.teams, tm.blkKey = s.blk.key ∧ tm.parked = none ∧ tm.threads ≠ 0) ∧
      NoneParked r ∧ r.imageOkAt ((r.getLaunch g.launchUid).getD {}) g.area g.len = true ∧
      ∃ p, ({ r with saved := r.saved.eraseIdx 0 } : State).fitSaved g ((r.getLaunch g.launchUid).getD {}) s.blk 575 = some p) :=
  ⟨⟨rfl, by decide, by decide, by decide, by decide⟩, ⟨rfl, by decide, rfl, by decide, noneParked_of rfl rfl, by decide, ⟨_, rfl⟩⟩⟩

/-- A command as it was posted. -/
def entry (c : MxCmd) (ops : List Word) : MxEntry := { cmd := c, latch := 0, ops := ops, firstReg := 4, origin := .team 0 0 }

/-- The block of the running team with a command at the head of its FIFO. -/
def engine (c : MxCmd) (ops : List Word) (tile : QWord) : State :=
  { demo with blk := { demo.blk with claims := true, scratch := 65536, mxFifo := [entry c ops], precb := [(0, tile)], mxp := 0x0E10 } }

/-- A valid command of each kind, and one that fails its check. -/
theorem test_hyp_MatrixCommandEvents :
    (∀ c ∈ ([(.prec, [0x1708], 0), (.ldb, [0x10E, 0, 256, 0, 0, 0], 0), (.mm, [0x60, 0, 256, 0, 4, 0, 0, 0], 0x8E080000), (.st, [0x207A, 0, 128, 0, 128], 0),
        (.zero, [0, 256], 0)] : List (MxCmd × List Word × QWord)),
      let s := engine c.1 c.2.1 c.2.2
      let x := entry c.1 c.2.1
      s.blk.mxCheck x = none ∧ (c.1 = .mm → s.blk.mxprog < x.f 0 17 6) ∧ s.blk.spadPoison = []) ∧
    (∀ c ops tile, headCommand (engine c ops tile) 0 c (engine c ops tile).blk (entry c ops) []) ∧
    (let s := engine .zero [0, 255] 0
     let x := entry .zero [0, 255]
     headCommand s 0 .zero s.blk x [] ∧ (∃ e, s.blk.mxCheck x = some e) ∧ blockUnwatched s s.blk ∧ s.blk.key ≠ 0 ∧ ¬ enginesStop s s.blk.key ∧
     enginesStop { s with team := { s.team with stops := [.preempt] } } s.blk.key ∧
     ¬ enginesStop { s with team := { s.team with stops := [.preempt], parked := some (.fifo .mx) } } s.blk.key) :=
  ⟨by decide, fun _ _ _ => ⟨rfl, rfl, rfl, rfl, rfl⟩, ⟨rfl, rfl, rfl, rfl, rfl⟩, ⟨_, rfl⟩, fun l h => by cases h; rfl, by decide,
    fun ⟨⟨t, m, h⟩, _⟩ => by cases List.mem_singleton.1 m; exact absurd h (by decide),
    ⟨⟨_, List.mem_singleton.2 rfl, by decide⟩, fun t m _ => by cases List.mem_singleton.1 m; exact ⟨fun e => by cases e <;> decide, fun p => by cases p <;> decide⟩⟩,
    fun ⟨_, h⟩ => absurd ((h _ (List.mem_singleton.2 rfl) rfl).1 .mx) (fun h => h rfl)⟩

/-- A command and a copy that are over, an ended stream, and a copy of 4 words of host memory. -/
theorem test_hyp_EngineCompletionEvents :
    let r : List Word := [0x1501, 0x400, 0x10000000, 16, 0, 0, 0, 0, 16, 0, 0, 0, 0, 0, 0, 0, 0, 0, 4]
    let g : List Word := r.set 2 0x10010000
    let b := { demo.blk with claims := true, scratch := 65536 }
    let m : Block := { b with mxFifo := [{ entry .prec [0x1708] with finished := true }] }
    let c : CpEntry := { record := r, latch := 0, origin := .team 0 0 }
    let d : Block := { b with cpFifo := [{ c with finished := true }] }
    let e : Block := { b with mxRun := true }
    let tm : Team := { demo.team with kind := .mxStream, key := 36864, blkKey := b.key, ended := true }
    let f : State := { demo with blk := { b with cpFifo := [c] } }
    (({ demo with blk := m } : State).claimer 0 = some m ∧ NoneParked { demo with blk := m } ∧ demo.launch.uid = b.launchUid ∧ demo.launch.replay = 0) ∧
    ((({ demo with blk := d } : State).blksOn 0).find? (fun y => !y.cpFifo.isEmpty) = some d ∧
      ((({ demo with blk := d } : State).setBlk { d with cpFifo := [] }).targets d r).map (·.key) = [b.key]) ∧
    (let w : Block := { b with mxFifo := [{ entry .prec [0x1708] with started := true }] }
     let s : State := { demo with blk := w }
     s.getBlk w.key = some w ∧ ∃ t u, exec (mxEvent .prec w.coreId) s = .next t ∧ exec (.matrixCommandCompletion w.coreId) t = .next u) ∧
    (let s : State := { demo with team := tm, blk := e }
     s.getTeam (streamKey 0 .mx) = some tm ∧ s.getBlk tm.blkKey = some e ∧ e.key = tm.blkKey ∧ e.running .mx = true ∧ NoneParked s ∧
      tget none s.teams tm.key = none) ∧
    (f.cpHead 0 = some (f.blk, c) ∧ b.key ≠ 0 ∧ (tlrOf r).fmt = 5 ∧ (tlrOf r).xf = 0 ∧ (f.focusBlock f.blk).targets f.blk r = [f.blk] ∧
      f.blk.cpprog + 1 < (tlrOf r).count ∧ (∃ s1 v fill, (f.focusBlock f.blk).copyElem (tlrOf r) f.blk.cpprog = .ok (s1, v, fill) ∧ v < 2 ^ 32) ∧
      tlrBad r f.launch.gang = [] ∧ f.blk.cpprog % (tlrOf r).step = 0 ∧ f.blk.cpprog + (tlrOf r).step < (tlrOf r).count ∧ 0 < (tlrOf r).step / (tlrOf r).unit ∧
      (∀ e n, ¬ copyWaits (f.focusBlock f.blk) (tlrOf r) e n) ∧
      (let w : State := { f with mem := (remote []).mem }
       copyWaits (w.focusBlock w.blk) (tlrOf (r.set 2 0x50010000)) 0 1) ∧
      ∃ s1 xs q, ((away f).focusBlock f.blk).copyElems (tlrOf g) f.blk.cpprog (tlrOf g).unit = (s1, xs, some (.permission, q))) :=
  ⟨⟨rfl, noneParked_of rfl rfl, rfl, rfl⟩, ⟨rfl, by decide⟩, ⟨rfl, _, _, rfl, rfl⟩, ⟨rfl, rfl, rfl, rfl, noneParked_of rfl rfl, rfl⟩,
    ⟨rfl, by decide, by decide, by decide, rfl, by decide, ⟨_, _, _, rfl, by decide⟩, by decide, by decide, by decide, by decide,
      fun e n h => (let ⟨_, _, ⟨_, hp, _⟩, _⟩ := h; nomatch hp), ⟨fun _ h => (nomatch h), rfl, ⟨5, rfl, by decide⟩, 0, by decide, by decide, by decide⟩, _, _, _, rfl⟩⟩

/-- An object of one kernel and one word of text, `exit` (R61 to R66). -/
def image : List Byte :=
  ([0x4E474F31, 1, 1, 128, 4, 132, 0, 132, 0, 132, 0, 0, 0, 0, 0, 0] ++ [0, 0, 0, 0, 0, 0, 0, 0, 0, 32, 1, 8, 0, 0xFFFFFFFF, 0xFFFFFFFF, 0] ++ [2]).flatMap fun w => leBytes 4 w

/-- The object passes its checks; empty text fails them. -/
theorem test_hyp_CodeObjectEvent : (32767 < 2 ^ 15 ∧ 65536 % 65536 = 0 ∧ 0 + image.length ≤ 2 ^ 39 ∧ imageOk image = true ∧ State.reset.world 0 ≠ .free ∧ ∀ a, (State.reset.pm State.reset.pkg).isMeta (a / 65536) = false) ∧
    imageOk [] = false ∧ State.reset.world 1 = .free :=
  ⟨⟨by decide, by decide, by decide +kernel, by decide +kernel, by decide, fun _ => rfl⟩, by decide, by decide⟩

/-! ### Hypotheses: Frequel, Helolo, the package -/

/-- A region of two words, in a launch with tables at 8192, `add v6, v9, v4` twice, between the safe points 0 and 2, hot, with one word of candidate text and its descriptor. -/
def region (arm : Bool) (h : Hinge) : State :=
  let code : CodeObj := { textBytes := 12, safePoints := [{ off := 0 }, { off := 2, liveV := 64 }] }
  { demo with
    team := { demo.team with captured := false, decided := none },
    mem := [(0, { bytes := [(0, 0x40), (1, 0x48), (2, 0x18), (3, 2), (4, 0x40), (5, 0x48), (6, 0x18), (7, 2), (8192, 1), (8193, 0x28), (10240, 1), (10241, 0x30),
      (12288, 1), (12289, 0x38), (14336, 15)] })],
    launch := { demo.launch with code := code, capture := 4096, root := 8192 },
    core := { demo.core with
      tlb := demo.core.tlb.map fun e => { e with root := 8192 },
      hinges := [(2, h)], tested := [0x02184840], samples := [(1, 0)], captures := [{ thread := 0, bix := 0, ins := [5, 7], outs := [12], pin := 0, pout := 0, ev := [] }],
      capUnit := some { armed := arm, launchUid := 1, start := 0, olen := 1, taken := 0 } },
    hub := { demo.hub with frqh := 1 } }

/-- The descriptor of that hinge in a state, with ACNT. -/
def hingeDesc (state acnt : Nat) : QWord := BitVec.ofNat 128 (acnt * 2 ^ 112 + 2 ^ 80 + state)

/-- The region's unit is armed, takes a capture of thread 0 (R237: k = 0), ends it after the second word, tests the candidate in an idle quarter, and installs it. -/
theorem test_hyp_FrequelCaptures :
    let a := region false {}
    let b := region true {}
    (∃ r, (a.focusCore 0 1).regionAt 0 = some r ∧ r.words.length = 2 ∧ r.admits [0x02184840] ≠ none ∧
      1 ≤ ((a.focusCore 0 1).core.samples.filter fun x => decide (x.1 = (a.focusCore 0 1).launch.code.mark ∧ 0 ≤ x.2 ∧ x.2 < 0 + r.words.length)).length) ∧
    (a.focusCore 0 1).frequelOn (a.focusCore 0 1).launch = true ∧ demo.blk ∈ a.blksOn 0 ∧
    (∃ r, b.regionAt (textIdx b.launch.code b.team.pc) = some r ∧ r.start = 0 ∧ b.team.nextActive 0 = some 0) ∧
    (b.team.ready = true ∧ b.team.shadow = 0 ∧ b.team.cand = none ∧ b.team.captured = false ∧ b.hingeHere = none) ∧
    (a.capturingOn 0 = false ∧ 1 < 4 ∧ a.idleQuarter 0 1 = true) ∧
    ((a.focusCore 0 1).hingeOk 3 (hingeDesc 1 0) = true ∧ hgOlen (hingeDesc 1 0) = 1 ∧ hgStart (hingeDesc 1 0) = 0 ∧
      (a.focusCore 0 1).hingeText (hingeDesc 1 0) 1 = .ok a.core.tested) :=
  ⟨⟨_, rfl, rfl, by decide, by decide⟩, rfl, List.mem_cons_self .., ⟨_, rfl, rfl, rfl⟩, ⟨rfl, rfl, rfl, rfl, rfl⟩, ⟨by decide, by decide, by decide⟩,
    by decide, by decide, by decide, rfl⟩

/-- The second and last word of a captured execution has run. -/
theorem test_hyp_FrequelCaptureEnd :
    let b := region true {}
    let c : CaptureRun := { slot := 0, thread := 0, start := 0, last := 1, ins := [5, 7], pin := 0, inTrap := false }
    let pre : Team := { b.team with pc := 4, capturing := some c }
    let s : State := { b with team := { b.team with pc := 8 }, core := { b.core with capUnit := some { armed := true, launchUid := 1, start := 0, olen := 1, taken := 1 } } }
    (pre.capturing = some c ∧ s.team.key = pre.key ∧ s.team.pc = pre.pc + 4 ∧ textIdx s.launch.code pre.pc = c.last ∧ c.start ≤ c.last ∧
      pre.priv? = c.inTrap ∧ pre.active c.thread = true ∧ s.team.priv? = pre.priv? ∧ s.team.parked = none ∧ s.team.owed = []) ∧ (∃ x, regionAlu (.add (.v 6) (.v 9) (.v 4)) = some x) ∧ 1 = s.launch.uid ∧ c.slot < 1 ∧
    ∃ r, s.regionAt c.start = some r ∧ (r.ins.length + r.outs.length + (if r.pin = [] ∧ r.pout = [] then 0 else 1) + 3) / 4 = 1 ∧ ∃ s1, ({ s with team := { s.team with capturing := none, parked := some (.capture (s.freeCount + 2)) } } : State).recWords s.launch true
      (BitVec.ofNat 64 (s.launch.capture + 8192 * s.core.id + 256 * c.slot)) 0
      (slotWords { thread := 0, bix := s.blk.bix, ins := c.ins, outs := r.outs.map (s.team.field 0), pin := 0, pout := 0, ev := [] } 0 r.start s.launch.handle r) = some s1 :=
  ⟨⟨rfl, rfl, rfl, rfl, by decide, rfl, rfl, rfl, rfl, rfl⟩, ⟨_, rfl⟩, rfl, by decide, _, rfl, rfl, _, rfl⟩

/-- A provisional hinge, a trusted one below the audit interval, and one at it; an audit that has not waited and one that has. -/
theorem test_hyp_FrequelHinges :
    (∀ d ∈ [hingeDesc 1 0, hingeDesc 2 1022, hingeDesc 2 1023],
      let h : Hinge := { desc := d, text := [0x02184840], launchUid := 1 }
      let s := region false h
      s.team.ready = true ∧ s.team.owed = [] ∧ s.team.cand = none ∧ s.team.decided ≠ some s.team.pc ∧ s.team.execZero = false ∧ s.launch.debugger = false ∧
      s.launch.out = false ∧ s.launch.replay = 0 ∧ s.team.shadow = 0 ∧ s.team.auditHeld ≠ some s.team.pc ∧
      ({ s.team with auditHeld := some s.team.pc } : Team).auditHeld = some s.team.pc ∧ s.hingeHere = some (2, h) ∧
      ∃ r c, s.regionAt (hgStart d) = some r ∧ regionWords h.text = some c ∧ s.fitsWindow r.words = true ∧ s.fitsWindow c = true ∧
        r.admits h.text ≠ none ∧ r.words.length = hgOlen d + 1) ∧
    (hgState (hingeDesc 1 0) = 1 ∧ (min (hgAcnt (hingeDesc 2 1022) + 1) 65535 < 2 ^ 10) ∧ ¬ (min (hgAcnt (hingeDesc 2 1023) + 1) 65535 < 2 ^ 10)) := by
  refine ⟨fun d hd => ?_, by decide⟩
  simp only [List.mem_cons, List.not_mem_nil, or_false] at hd
  rcases hd with rfl | rfl | rfl <;>
    exact ⟨rfl, rfl, rfl, by decide, rfl, rfl, rfl, rfl, rfl, by decide, rfl, rfl, _, _, rfl, rfl, by decide, by decide, by decide, by decide⟩

/-- The oldest comparison of a withdrawn, a provisional and a trusted entry, in a launch of policy 1 and in one of policy 2; it may run in an idle quarter and after 64 cycles, and not before in a busy one. -/
theorem test_hyp_FrequelComparisons :
    let x : Comparison := { team := 0, audit := true, clean := false }
    let r := region false { desc := hingeDesc 2 5, launchUid := 1, pending := [x] }
    let s : State := { r with team := { r.team with owed := [1] } }
    (s.idleQuarter 0 0 = false ∧ x.waited = 0 ∧ s.getTeam 0 = some s.team ∧ s.team.stops = [] ∧ s.idleQuarter 0 1 = true ∧ 64 ≤ 64) ∧
    (tget {} (s.getCore 0).hinges 2).pending = [x] ∧ hgState (tget {} (s.getCore 0).hinges 2).desc ≠ 0 ∧ hgState (hingeDesc 0 5) = 0 ∧
    (s.getLaunch 1 = some s.launch ∧ s.launch.pol = 1 ∧ s.launch.uid ≠ 0 ∧ s.launch.status = .running ∧ ({ s.launch with pol := 2 } : Launch).pol = 2) :=
  ⟨⟨by decide, rfl, rfl, rfl, by decide, by decide⟩, rfl, by decide, by decide, rfl, rfl, by decide, rfl, rfl⟩


/-- The ends of the buffers' numbers; a rising EN, a reserved SIZEL; a legal watch entry and a reserved one; ARM on and off; a trigger before the latch tick and at it. -/
theorem test_hyp_HeloloEvents :
    let ok := fun (k n : Nat) => k < 8 ∧ n / 2 ^ 48 % 2 ^ 16 = 0 ∧ n / 2 ^ 7 % 2 ^ 25 = 0 ∧ n / 2 ^ 4 % 4 ≠ 3 ∧ n / 2 ^ 2 % 4 ≠ 0 ∧ n / 2 ^ 124 ≤ 2
    (575 < 576 ∧ 3 < 4 ∧ demo.getLaunch 1 = some demo.launch) ∧ (1 / 4 % 16 ≠ 15 ∧ 1 / 128 % 2 ≠ 1 ∧ 60 / 4 % 16 = 15) ∧
    (ok 7 (2 ^ 125 + 4) ∧ ¬ ok 7 0 ∧ ¬ ok 8 4) ∧ (demo.hub.armed = false ∧ ({ demo.hub with armed := true } : Hub).armed = true) ∧
    (demo.hub.firing = none ∧ ({ demo.hub with firing := some 5 } : Hub).firing = some 5 ∧ (132 - 5 : BitVec 64).toNat < 128 ∧ 128 ≤ (133 - 5 : BitVec 64).toNat ∧ twf none demo.blocks = true ∧
      ∀ k (x : Block), tget none demo.blocks k = some x → x.key = k) := by
  refine ⟨⟨by decide, by decide, rfl⟩, by decide, by decide, by decide, rfl, rfl, by decide, by decide, rfl, fun k x h => by cases h⟩

/-- A link that carries packets. -/
def linked (l : Link) : State := { State.reset with links := [(11, l)] }

/-- The cases of a packet at a live link and at one in training, at the last link; the ends of a lane's numbers; the cases of recovery. -/
theorem test_hyp_LinkEvents :
    let l : Link := { up := true, width := 3, rxLast := 0xFFFFFFFF }
    let p : Packet := { seq := 0, kind := .response, cnt := 7, crcOk := true, ack := 0 }
    let x : TxPacket := { seq := 1, kind := .response }
    let y : Access := { kind := .store, paths := [.x], tag := 3 }
    let q : Packet := { p with seq := 0x80000000 }
    let r : Packet := { p with crcOk := false }
    (11 < 12 ∧ (linked l).link 11 = l ∧ (l.up = true ∧ l.training = false ∧ l.recovering = false) ∧ ({ l with training := true } : Link).training ≠ false ∧ ({ l with doomed := true } : Link).doomed = true ∧ l.doomed = false) ∧
    (p.seq = l.rxLast + 1 ∧ 4096 - (tget 0 [(1, 900)] p.kind.vc + (p.cnt.val + 1)) < 3200 ∧ p.kind.vc ∉ l.rxPaused) ∧
    (q.crcOk = true ∧ q.seq ≠ l.rxLast + 1 ∧ (l.rxLast - q.seq).toNat < 2 ^ 31) ∧ (r.crcOk ≠ true) ∧
    (15 < 16 ∧ ({ l with recovering := true, otherAck := some 5 } : Link).otherAck = some 5 ∧ 1 ≤ l.width ∧ l.width ≤ 3 ∧ twf {} l.lanes = true) ∧
    (x.kind.vc ∉ [0] ∧ (∀ y ∈ ([] : List TxPacket), y.carries = .nothing) ∧ ({ x with carries := .store 0 3 } : TxPacket).carries = .store 0 3 ∧ Path.x ∈ y.paths ∧ Path.x ∉ y.donePaths ∧ y.tag = 3) ∧
    (let z : LinkReading := { lanes := [{ eyeh := 23, eyew := 64, corr := 1024 }], tempc := 0 }
     carrying 3 0 0 ∧ z.lanes[0]? = some { eyeh := 23, eyew := 64, corr := 1024 } ∧ (23 : BitVec 8).toNat < (linked l).evwarn.toNat / 2 ^ 24) :=
  ⟨⟨by decide, rfl, by decide, by decide, rfl, rfl⟩, by decide, by decide, by decide, ⟨by decide, rfl, by decide, by decide, rfl⟩, ⟨by decide, by decide, rfl, by decide, by decide, rfl⟩,
    ⟨.inl ⟨rfl, by decide⟩, rfl, by decide⟩⟩

/-- The ends of the clusters' and dies' numbers; an idle generator locked at a level that the rail carries and at one that it does not, and none locked; a die above its allowed power, below nine tenths of it, between, and one whose heat flux governs. -/
theorem test_hyp_PowerEvents :
    let s := State.reset
    let n := min (min (76 * s.power.fluxlim) (10 * (tget {} s.dies 3).cap)) (s.dieShare 3)
    let r := fun (p : Nat) (a : List Nat) => ({ power := p, uncore := 0, activity := a } : DieReading)
    let hot := fun (x : DieReading) => decide (19 * s.power.fluxlim < quadPower x (hotQuad x))
    (71 < 72 ∧ 3 < 4 ∧ twf {} s.clusters = true) ∧
    (950 % 5 = 0 ∧ 9000 + 350 * 15 ≤ 15 * 950 ∧ 15 * 945 < 9000 + 350 * 15 ∧ ({ idleGen := some (15, true) } : Cluster).idleGen = some (15, true) ∧
      (s.getCluster 71).idleGen = none) ∧ (hot (r (n + 1) []) = false ∧ n < (r (n + 1) []).power) ∧
    (hot (r 0 []) = false ∧ 0 ≤ n ∧ 10 * 0 < 9 * n) ∧ (hot (r n []) = false ∧ ¬ 10 * n < 9 * n) ∧ hot (r 7600 [1]) = true ∧
    (∃ a, (r 7600 [1]).activity[54 % 18]? = some a) ∧ ({ steps := [.budget 71] } : Die).steps = .budget 71 :: [] := by
  refine ⟨by decide, by decide, by decide +kernel, by decide +kernel, by decide +kernel, by decide +kernel, ⟨1, rfl⟩, rfl⟩

/-- Tumbler with worlds 1 (protected) and 63 (open), and session 9, finished, for world 1, beside an unfinished one. -/
def trusted : State :=
  let t := State.reset.tumbler
  { State.reset with tumbler := { t with worlds := [(0, .open_), (1, .prot), (63, .open_)], sessions := [{ id := 9, world := 1, finished := true }, { id := 4, world := 2, finished := false }] } }

/-- Each case of the worlds' commands, and of EXTEND at the ends of its sources' registers. -/
theorem test_hyp_WorldEvents :
    (({ trusted.tumbler with unlocked := true } : Tumbler).unlocked = true ∧ trusted.tumbler.unlocked = false) ∧
    (trusted.world 1 ≠ .free ∧ trusted.world 2 = .free ∧ ¬ (1 ≤ 0) ∧ ¬ (64 ≤ 63)) ∧ (sessionFor trusted 9 1 ∧ ¬ sessionFor trusted 9 2 ∧ ¬ sessionFor trusted 4 2) ∧
    (∀ l ∈ tvals trusted.launchTbl, trusted.getLaunch l.uid = some l) ∧ (trusted.world 1 = .prot ∧ trusted.world 63 = .open_) ∧ (mayExtend .tumbler 4 = true ∧ mayExtend .tumbler 5 = false ∧ mayExtend .firmware 15 = true ∧ mayExtend .firmware 16 = false) ∧ twf 0 (trusted.pm trusted.pkg).owners = true := by
  refine ⟨⟨rfl, rfl⟩, by decide, ⟨⟨_, rfl, rfl⟩, ?_, ?_⟩, by decide, by decide, by decide, rfl⟩ <;> rintro ⟨x, h, e⟩
  · have f : trusted.tumbler.sessions.find? (fun y => decide (y.id = 9) && y.finished) = some { id := 9, world := 1, finished := true } := rfl
    cases f.symm.trans h
    exact absurd e (by decide)
  · have f : trusted.tumbler.sessions.find? (fun y => decide (y.id = 4) && y.finished) = none := rfl
    cases f.symm.trans h

/-- The last page to world 1 in its session, and from no session; an entry with SA 3. -/
theorem test_hyp_PageOwnerEvent :
    (2 ^ 23 - 1 < 2 ^ 23 ∧ (1 : BitVec 16).toNat < 256 ∧ (1 : BitVec 16).toNat / 64 ≠ 3 ∧ (1 : BitVec 16).toNat % 64 ≠ 0) ∧
    (0xC1 : BitVec 16).toNat / 64 = 3 ∧ trusted.world ((trusted.ownerOf trusted.pkg (2 ^ 23 - 1)).toNat % 64) ≠ .prot ∧ sessionFor trusted 9 1 ∧ trusted.world 1 = .prot ∧
    ((trusted.pm trusted.pkg).integrity = false ∧ (trusted.pm trusted.pkg).isMeta (2 ^ 23 - 1) = false ∧ ({ trusted.pm trusted.pkg with integrity := true } : PkgMem).integrity = true) ∧
    (trusted.world ((0x81 : BitVec 16).toNat % 64) = .prot ∧ (0x41 : BitVec 16) ≠ 0x81 ∧ (0x81 : BitVec 16).toNat / 64 = 2 ∧ (0x81 : BitVec 16).toNat % 64 = (0x41 : BitVec 16).toNat % 64) :=
  ⟨by decide, by decide, by decide, ⟨_, rfl, rfl⟩, by decide, ⟨rfl, rfl, rfl⟩, by decide⟩

/-- Fewer than four sessions and four; a new session and a known one; an unfinished one; a finished one; a key that is set. -/
theorem test_hyp_SpdmEvents :
    (trusted.tumbler.sessions.length < 4 ∧ (∀ x ∈ trusted.tumbler.sessions, x.id ≠ 5) ∧ (∃ x, x ∈ trusted.tumbler.sessions ∧ x.id = 4) ∧
      4 ≤ (trusted.tumbler.sessions ++ trusted.tumbler.sessions).length) ∧
    (∃ x, x ∈ trusted.tumbler.sessions ∧ x.id = 4 ∧ x.finished = false) ∧ (∃ w, sessionFor trusted 9 w) ∧ (trusted.tumbler.ideStream = 0 ∧ (1 : BitVec 8) ≠ 0) ∧ 1 < 2 ∧
    (tget ({} : IdeKey) [(3, { programmed := true })] 3).programmed = true ∧ (1 ≤ 16 ∧ 16 ≤ 16 ∧ 16 < 17 ∧ (17 : Nat) ≠ 255) :=
  ⟨⟨by decide, by decide, ⟨_, List.mem_cons_of_mem _ (List.mem_cons_self ..), rfl⟩, by decide⟩, ⟨_, List.mem_cons_of_mem _ (List.mem_cons_self ..), rfl, rfl⟩,
    ⟨1, _, rfl, rfl⟩, by decide, by decide, rfl, by decide⟩

/-- A team with `n` vector words `x` in its queue, the words `ws` behind them, and s1 to s6. -/
def queued (ws : List Word) (x : Word) (n : Nat) : State :=
  let s := prog 0 { threads := 4, regs := 24, pc := 128 }
  { s with
    mem := [(0, { bytes := Mem.writeBytes [] 128 (ws.flatMap fun w => leBytes 4 w.toNat) })],
    launch := { s.launch with code := { s.launch.code with textBytes := 256 } },
    team := { s.team with pc := 128 - 4 * n, s := [(1, 5), (2, 7), (3, 9)], queue := (upList 0 n).map fun k => { pc := 128 - 4 * n + 4 * k, word := x } } }

/-- The turn is that of the core's front-end. -/
def frontTime (s : State) : State := { s with lastUnit := frontUnit s.team.coreId }

/-- A word that runs, one from the queue, a word that is none, a word at its front-end's turn, an owed pass, an event at the head of the agenda, and turns that no unit gives. -/
theorem test_hyp_StepRunsInstructions :
    let s := prog 0x02184840 { threads := 4, regs := 24 }
    let z := prog 0xFFFFFFFF { threads := 4, regs := 24 }
    let o := { s with team := { s.team with owed := [1] } }
    let e : QueueWord := { pc := 0, word := 0x02184840 }
    let q := { z with team := { z.team with queue := [e] } }
    (o.mayRun = true ∧ o.frontTurn = false ∧ o.team.owed = 1 :: [] ∧ o.sinceAuto < 16 ∧ o.team.cand = none) ∧
    ((frontTime o).frontTurn = true ∧ (frontTime o).team.owed ≠ [] ∧ (frontTime o).mayRun = true) ∧
    (q.mayRun = true ∧ q.due = none ∧ wordNext q 0x02184840 ∧ q.frontTurn = false ∧ q.team.queue = [e] ∧ e.pc = q.team.pc ∧ e.ran = none) ∧ wordNext s 0x02184840 ∧
    ((frontTime s).frontTurn = true ∧ (frontTime s).team.ready = true ∧ (frontTime s).team.ahead = [] ∧ (frontTime s).due = none ∧ wordNext (frontTime s) 0x02184840 ∧
      Instr.frontEnd (instrOf (frontTime s).team.kind 0x02184840) = false) ∧
    (s.agenda = [] ∧ s.team.owed = [] ∧ s.mayRun = true ∧ s.sinceAuto < 16 ∧ s.due = none ∧ s.team.cand = none ∧ s.streamOver = false ∧ s.frontTurn = false ∧
      s.fetchWord s.team.pc = .ok 0x02184840 ∧ decode 0x02184840 = some (.add (.v 6) (.v 9) (.v 4)) ∧
      Instr.allowedIn (.add (.v 6) (.v 9) (.v 4)) s.team.kind = true ∧ ∃ t, exec (.add (.v 6) (.v 9) (.v 4)) (s.fetchFill.beginWord (.add (.v 6) (.v 9) (.v 4))) = .next t) ∧
    (z.mayRun = true ∧ z.due = none ∧ z.fetchWord z.team.pc = .ok 0xFFFFFFFF ∧ decode 0xFFFFFFFF = none ∧ ∃ t, exec (.illegalWord 0xFFFFFFFF) (z.fetchFill.beginWord (.illegalWord 0xFFFFFFFF)) = .next t) ∧
    (Instr.isEvent .budgetInterval = true ∧ ∃ t, exec .budgetInterval { s with agenda := [] } = .next t) ∧
    (s.chosen 7 = false ∧ s.unitPick (frontUnit 9) = none ∧ NoneParked s ∧ s.xLost = none ∧ s.hub.firing = none ∧ s.hub.posted = [] ∧ s.team.capturing = none ∧ s.blk.mxFifo = []) ∧
    (unreadable s).fetchWord s.team.pc = .error .permission := by
  have front : (frontTime (prog 0x02184840 { threads := 4, regs := 24 })).due = none := rfl
  exact ⟨⟨rfl, rfl, rfl, by decide, rfl⟩, ⟨rfl, by decide, rfl⟩, ⟨rfl, rfl, .inl ⟨_, [], rfl, rfl, rfl, rfl⟩, rfl, rfl, rfl, rfl⟩, .inr ⟨by rintro _ _ ⟨⟩, rfl⟩,
    ⟨rfl, rfl, rfl, front, .inr ⟨by rintro _ _ ⟨⟩, rfl⟩, rfl⟩, ⟨rfl, rfl, rfl, by decide, rfl, rfl, rfl, rfl, rfl, by decide, by decide, ⟨_, rfl⟩⟩,
    ⟨rfl, rfl, rfl, by decide, ⟨_, rfl⟩⟩, ⟨rfl, ⟨_, rfl⟩⟩, ⟨by decide, by decide, noneParked_of rfl rfl, rfl, rfl, rfl, rfl, rfl⟩, rfl⟩

/-- `add s4, s1, s2`, and `add v6, v9, v4`. -/
def scalarAdd : Word := (encode false (.add (.s 4) (.s 1) (.s 2))).getD 0
def vectorAdd : Word := 0x02184840

/-- R20, R21, R22, R298: the front-end appends a vector word, and serves the slot; not at a full queue, nor behind a rendezvous (an illegal word) or a fetch barrier (`if`). -/
theorem test_fetch_ahead :
    let after := fun (s : State) => (s.takeAhead.team.queue.map (·.pc)).length
    let q := queued [vectorAdd] vectorAdd 1
    let r := ({ q with core := { q.core with lastServed := 9 } } : State).takeAhead
    r.team.queue = [{ pc := 124, word := vectorAdd }, { pc := 128, word := vectorAdd }] ∧ r.team.pc = 124 ∧ r.core.lastServed = r.team.cslot ∧
    after (queued [vectorAdd] vectorAdd 31) = 32 ∧ after (queued [vectorAdd] vectorAdd 32) = 32 ∧ after (queued [vectorAdd] 0xFFFFFFFF 1) = 1 ∧
    after (queued [vectorAdd] ((encode false (.ifp ⟨false, 1⟩ 4)).getD 0) 1) = 1 := by
  decide +kernel

/-- R23, R222: behind a queued vector word a scalar word executes: its result stands in the queue with the old value, not yet in the team; the vector word issues, and the result is there; with none queued it is there at once. A trap at the queued word finds the old value. -/
theorem test_scalar_ahead :
    let s := queued [scalarAdd] vectorAdd 1
    s.takeAhead.team.queue = [{ pc := 124, word := vectorAdd }, { pc := 128, word := scalarAdd, ran := some { next := 132, regs := [(4, 12)], old := [(4, 0)] } }] ∧
    s.takeAhead.team.rdS 4 = 0 ∧ after (step s.takeAhead) (fun t => t.team.rdS 4 == 12 && t.team.pc == 132 && t.team.queue == []) = true ∧
    (queued [scalarAdd] vectorAdd 0).takeAhead.team.rdS 4 = 12 ∧ after (.next (s.takeAhead.takeTrap { cls := .translation })) (fun t => t.team.rdS 4 == 0 && t.team.queue == []) = true := by
  decide +kernel

/-- A vector word and a scalar word that the front-end takes, with 31 vector words before it and with none; a scalar word that waits for a queued word's predicate; and two teams in the rotation. -/
theorem test_hyp_FetchesAhead :
    let s := queued [vectorAdd] vectorAdd 31
    let t := queued [scalarAdd] vectorAdd 0
    let p := queued [(encode false (.sel (.s 4) (.s 1) (.s 2) ⟨false, 1⟩)).getD 0] ((encode false (.cmp .eq 1 (.v 4) (.v 5))).getD 0) 1
    let o : Team := { s.team with key := 5, slot := 5 }
    s.frontTake = some { pc := 128, word := vectorAdd } ∧ s.team.ahead.length = 31 ∧ s.team.ahead ≠ [] ∧
    (∃ e x, t.frontTake = some e ∧ e.ran = some x ∧ t.team.ahead = [] ∧ e.pc = t.team.pc) ∧ p.frontTake = none ∧
    (s.team ∈ [s.team, o] ∧ ∀ y ∈ [s.team, o], y ≠ s.team →
      (s.team.cslot + 63 - (s.getCore s.team.coreId).lastServed) % 64 < (y.cslot + 63 - (s.getCore y.coreId).lastServed) % 64) := by
  refine ⟨by decide +kernel, by decide +kernel, by decide +kernel, ⟨{ pc := 128, word := scalarAdd, ran := some { next := 132, regs := [(4, 12)], old := [(4, 0)] } }, _,
    by decide +kernel, rfl, by decide +kernel, by decide +kernel⟩, by decide +kernel, by decide +kernel⟩

/-- R21: the word of the queue runs, whatever memory holds since; R201: of two passes one is owed, and is the next step. -/
theorem test_queue_and_passes :
    let q := prog 0xFFFFFFFF { threads := 64, regs := 24 }
    let s : State := { q with team := { q.team with queue := [{ pc := 0, word := vectorAdd }, { pc := 4, word := 7 }] } }
    after (step s) (fun t => t.team.pc == 4 && t.team.queue == [{ pc := 4, word := 7 }] && t.team.owed == [1] &&
      after (turn (t.serve (quarterUnit t.team))) fun u => u.team.owed == [] && u.team.pc == 4) = true := by
  decide +kernel

/-- The only context, parked. -/
def parkedAt (c : Park) : State := demoWith fun t => { t with parked := some c }

theorem lone_parkedAt (c : Park) : loneWaiter (parkedAt c) 0 (parkedAt c).team c := by
  refine ⟨rfl, rfl, rfl, rfl, fun o ho _ => List.mem_singleton.1 ho, fun j b h => ?_⟩
  unfold State.getBlk at h
  split at h
  · cases h; rfl
  · cases h

/-- A lone context that waits; of several conditions the case that holds and the case that does not. -/
theorem test_hyp_waits :
    (∀ c, loneWaiter (parkedAt c) 0 (parkedAt c).team c) ∧ quietAfter (parkedAt .monitor) ∧
    (let p := { parkedAt (.path .g 1) with team := { (parkedAt (.path .g 1)).team with inflight := waiting.team.inflight } }
     ¬ waitOver p p.team (.path .g 1) ∧ waitOver p p.team (.path .g 2)) ∧
    (waitOver (parkedAt (.latch 3 1)) (parkedAt (.latch 3 1)).team (.latch 3 1) ∧ ¬ waitOver (parkedAt (.latch 3 0)) (parkedAt (.latch 3 0)).team (.latch 3 0)) ∧
    (¬ waitOver demo demo.team .monitor ∧ waitOver demo { demo.team with mon := .triggered } .monitor) ∧
    (waitOver demo demo.team (.join .cp) ∧ ¬ waitOver { demo with blk := { demo.blk with cpRun := true } } demo.team (.join .cp)) ∧
    (let k : TokenQueue := { waiters := [demo.team.wid], tokens := [{ word := 5, core := none }] }
     waitOver { demo with hub := { demo.hub with tokenQueues := [(0, k)] } } demo.team (.qRecv 0 4) ∧
     ¬ waitOver { demo with hub := { demo.hub with tokenQueues := [(0, { k with tokens := [] })] } } demo.team (.qRecv 0 4)) ∧
    (waitOver demo demo.team (.qSend 0 5 .core) ∧ waitOver demo demo.team (.full .g) ∧ waitOver demo demo.team (.fifo .cp) ∧ waitOver demo demo.team .streamDone) ∧
    (¬ waitOver (remote []) demo.team .link ∧ waitOver (remote [(11, { up := true, width := 3 })]) demo.team .link) ∧
    (¬ waitOver sending sending.team (.trap { cls := .translation }) ∧ waitOver (remote [(11, { up := true, width := 3 })]) sending.team (.trap { cls := .translation })) ∧
    (loneWaiter (parkedAt (.fork .mx)) (parkedAt (.fork .mx)).team.key (parkedAt (.fork .mx)).team (.fork .mx) ∧ demo.team.kind = .team ∧
      demo.blk.key = demo.team.blkKey ∧ demo.blk.key ≠ 0 ∧ streamKey demo.blk.coreId .mx ≠ demo.team.key ∧ demo.blk.running .mx = false) :=
  ⟨lone_parkedAt, ⟨rfl, rfl, rfl, fun _ => by unfold State.getCore; split <;> rfl⟩, by unfold waitOver; decide, by unfold waitOver; decide, by unfold waitOver; decide, by unfold waitOver; decide,
    by unfold waitOver; decide, by unfold waitOver; decide, by unfold waitOver noLink; decide,
    ⟨fun h => h storeHeld_sending, fun h => absurd h.1 (by unfold noLink; decide)⟩, lone_parkedAt _, rfl, rfl, by decide, by decide, rfl⟩

/-- R207: a step wakes the context whose latch has advanced, past its word, and leaves the one whose latch has not. -/
theorem test_step_wakes :
    after (step (parkedAt (.latch 3 1))) (fun t => t.team.parked.isNone && t.team.pc == 4) = true ∧
    after (step (parkedAt (.latch 3 0))) (fun t => t.team.parked == some (.latch 3 0) && t.team.pc == 0) = true := by
  decide

/-- A well-formed word instruction, and a word that decodes. -/
theorem test_hyp_DecodeEncode : Instr.wf (.sub (.v 87) (.s 35) .bix) = true ∧ Instr.isEvent (.sub (.v 87) (.s 35) .bix) = false ∧
    decode 0x82184840 = some (.add (.v 6) (.v 9) (.v 4)) := by decide

/-- A step from the reset state with an event on its agenda; the invariants hold before it. -/
theorem test_hyp_StepKeeps :
    let s : State := { State.reset with agenda := [.event (.extend ⟨.bootRom, 0⟩ 1)] }
    s.memOk ∧ s.worldOk ∧ s.capOk ∧ s.ownersOk ∧ s.headEvent ≠ some .packageReset ∧ ∃ t, step s = .next t := by
  refine ⟨⟨fun p => rfl, rfl⟩, rfl, by show (3400 : Nat) ≤ _; decide, fun page => by show ownerOk 0 = true; decide, ?_, ⟨_, rfl⟩⟩
  simp [State.headEvent]

end Sys2Proof.Tests
end

