-- ==== Sys2Proof/Proofs/Tame.lean ====
section
/-! SUPPORT. What a step leaves of the state that every program shares: main and host memory stay in their canonical form, and page owners, worlds, measurements, the unlocked state and the package cap change by their own events alone (R269, R270, R274, R276, R277, R293). -/

namespace Sys2Proof.Machine

variable {s s₀ : State}

/-! ### Tame states -/

/-- The package's number, its worlds, its measurements, whether it is unlocked, and its power cap: what no word of a program changes. -/
def State.guarded (s : State) : Nat × Tbl WorldState × Tbl (BitVec 512) × Bool × Nat :=
  (s.pkg, s.tumbler.worlds, s.tumbler.mr, s.tumbler.unlocked, s.power.pcap)

/-- `t` may follow `s` by the work of words and of events that are not Tumbler's, the cap's or the reset's: memory keeps its canonical form, and every page its owner. -/
def Tame (s t : State) : Prop :=
  (s.memOk → t.memOk) ∧ (∀ p, (t.pm p).owners = (s.pm p).owners) ∧ t.guarded = s.guarded

theorem Tame.refl (s : State) : Tame s s := ⟨id, fun _ => rfl, rfl⟩

/-- A change of memory that keeps its form and the page owners. -/
theorem Tame.mem {t : State} (h : Tame s₀ s) (hm : s.memOk → t.memOk) (ho : ∀ p, (t.pm p).owners = (s.pm p).owners)
    (hg : t.guarded = s.guarded) : Tame s₀ t :=
  ⟨hm ∘ h.1, fun p => (ho p).trans (h.2.1 p), hg.trans h.2.2⟩

theorem Tame.trans {t : State} (h : Tame s₀ s) (k : Tame s t) : Tame s₀ t := h.mem k.1 k.2.1 k.2.2

/-- A change of nothing that the relation speaks of. -/
theorem Tame.frame {t : State} (h : Tame s₀ s) (hm : t.mem = s.mem := by simp) (hh : t.hostMem = s.hostMem := by simp)
    (hg : t.guarded = s.guarded := by simp [State.guarded]) : Tame s₀ t :=
  h.mem (fun k => State.memOk_of_eq k hm hh) (fun p => by rw [State.pm_congr hm]) hg

/-- Each step of a fold is tame. -/
theorem Tame.foldl {α : Type} {f : State → α → State} {xs : List α} (h : Tame s₀ s) (hf : ∀ t a, Tame s₀ t → Tame s₀ (f t a)) : Tame s₀ (xs.foldl f s) :=
  foldl_keeps hf xs s h

/-- The same of a fold written the other way round. -/
theorem Tame.foldS {α : Type} {f : State → α → State} {xs : List α} (h : Tame s₀ s) (hf : ∀ t a, Tame s₀ t → Tame s₀ (f t a)) : Tame s₀ (foldS f xs s) :=
  h.foldl hf

theorem Tame.ite {c : Prop} [Decidable c] {a b : State} (ha : Tame s₀ a) (hb : Tame s₀ b) : Tame s₀ (if c then a else b) := by
  split
  · exact ha
  · exact hb

/-- A state that is there, or is not. -/
def TameOption (s₀ : State) (o : Option State) : Prop := ∀ t, o = some t → Tame s₀ t

theorem TameOption.some (h : Tame s₀ s) : TameOption s₀ (some s) := fun _ ht => Option.some.inj ht ▸ h
theorem TameOption.none : TameOption s₀ none := fun _ ht => nomatch ht

/-! ### One field -/

theorem Tame.withTeam (h : Tame s₀ s) (tm : Team) : Tame s₀ { s with team := tm } := h
theorem Tame.withBlk (h : Tame s₀ s) (b : Block) : Tame s₀ { s with blk := b } := h
theorem Tame.withCore (h : Tame s₀ s) (c : Core) : Tame s₀ { s with core := c } := h
theorem Tame.withLaunch (h : Tame s₀ s) (l : Launch) : Tame s₀ { s with launch := l } := h
theorem Tame.withHub (h : Tame s₀ s) (q : Hub) : Tame s₀ { s with hub := q } := h
theorem Tame.withSaved (h : Tame s₀ s) (gs : List SavedGang) : Tame s₀ { s with saved := gs } := h

/-! ### Tables of contexts, blocks, launches, cores, clusters -/

theorem Tame.setTeam (h : Tame s₀ s) (tm : Team) : Tame s₀ (s.setTeam tm) := h.frame
theorem Tame.dropTeam (h : Tame s₀ s) (k : Nat) : Tame s₀ (s.dropTeam k) := h.frame
theorem Tame.modTeam (h : Tame s₀ s) (k : Nat) (f : Team → Team) : Tame s₀ (s.modTeam k f) := h.frame
theorem Tame.setBlk (h : Tame s₀ s) (b : Block) : Tame s₀ (s.setBlk b) := h.frame
theorem Tame.dropBlk (h : Tame s₀ s) (k : Nat) : Tame s₀ (s.dropBlk k) := h.frame
theorem Tame.modBlk (h : Tame s₀ s) (k : Nat) (f : Block → Block) : Tame s₀ (s.modBlk k f) := h.frame
theorem Tame.setLaunch (h : Tame s₀ s) (l : Launch) : Tame s₀ (s.setLaunch l) := h.frame
theorem Tame.modLaunch (h : Tame s₀ s) (k : Nat) (f : Launch → Launch) : Tame s₀ (s.modLaunch k f) := h.frame
theorem Tame.setCore (h : Tame s₀ s) (c : Core) : Tame s₀ (s.setCore c) := h.frame
theorem Tame.modCore (h : Tame s₀ s) (k : Nat) (f : Core → Core) : Tame s₀ (s.modCore k f) := h.setCore _
theorem Tame.modQuarter (h : Tame s₀ s) (k q : Nat) (f : Quarter → Quarter) : Tame s₀ (s.modQuarter k q f) := h.modCore _ _
theorem Tame.modCluster (h : Tame s₀ s) (k : Nat) (f : Cluster → Cluster) : Tame s₀ (s.modCluster k f) := h
theorem Tame.modDie (h : Tame s₀ s) (k : Nat) (f : Die → Die) : Tame s₀ (s.modDie k f) := h
theorem Tame.relevel (h : Tame s₀ s) (k : Nat) : Tame s₀ (s.relevel k) := h
theorem Tame.mapTeams (h : Tame s₀ s) (f : Team → Team) : Tame s₀ (s.mapTeams f) := h
theorem Tame.mapCores (h : Tame s₀ s) (f : Nat → Core → Core) : Tame s₀ (s.mapCores f) := h
theorem Tame.mapClusters (h : Tame s₀ s) (f : Nat → Cluster → Cluster) : Tame s₀ (s.mapClusters f) := h
theorem Tame.focus (h : Tame s₀ s) (k : Nat) : Tame s₀ (s.focus k) := h.frame
theorem Tame.countEvents (h : Tame s₀ s) (es : List Nat) : Tame s₀ (s.countEvents es) := Tame.foldl h fun _ _ ht => ht

/-- A party acts for a moment as the running context, which then goes on. -/
theorem Tame.refocus {t : State} (h : Tame s₀ t) : Tame s₀ (if s.team.threads = 0 then t else t.focus s.team.key) := h.ite (h.focus _)

/-! ### Memory (R166 to R169) -/

theorem Tame.homeWrite (h : Tame s₀ s) (p a : Nat) (b : Byte) (k th : Nat) : Tame s₀ (s.homeWrite p a b k th) :=
  h.mem (fun m => State.memOk_homeWrite m _ _ _ _ _) (fun _ => State.homeWrite_owners _ _ _ _ _ _ _) rfl

/-- What a package's memory has besides bytes and owners. -/
theorem Tame.modPm (h : Tame s₀ s) (p : Nat) {f : PkgMem → PkgMem} (hf : ∀ m : PkgMem, m.bytes.wf = true → (f m).bytes.wf = true)
    (ho : ∀ m, (f m).owners = m.owners) : Tame s₀ (s.modPm p f) :=
  h.mem (fun m => State.memOk_modPm m p hf) (fun q => by
    rw [State.pm_modPm]
    split
    · next e => rw [ho, e]
    · rfl) rfl

theorem Tame.fill (h : Tame s₀ s) (off : Nat) : Tame s₀ (s.fill off) := by
  unfold State.fill
  dsimp only
  split
  · exact h
  generalize walkBytes (s.pm s.pkg) off [40, 32, 24, 16] s.launch.root = n
  · split
    · refine Tame.ite ?_ h
      exact h.modCluster _ _
    · split
      · exact h.frame
      · exact h.frame
theorem Tame.fillAll (h : Tame s₀ s) (qs : List DWord) : Tame s₀ (s.fillAll qs) := by
  refine Tame.foldl h fun t q ht => ?_
  split
  · exact ht.fill _
  · exact ht
theorem Tame.clusterTake (h : Tame s₀ s) (l : Nat) : Tame s₀ (s.clusterTake l) := by
  unfold State.clusterTake
  split <;> exact h
theorem Tame.touchLine (h : Tame s₀ s) (l : Nat) : Tame s₀ (s.touchLine l) := by
  unfold State.touchLine
  dsimp only
  split <;> exact h.clusterTake l
theorem Tame.fetchLine (h : Tame s₀ s) (l : Nat) : Tame s₀ (s.fetchLine l) := h.touchLine l
theorem Tame.touchTgt (h : Tame s₀ s) (g : Tgt) (t n : Nat) : Tame s₀ (s.touchTgt g t n) := by
  refine h.ite (h.foldl fun u l hu => ?_)
  split
  · exact hu.touchLine _
  · exact hu
theorem Tame.alert (h : Tame s₀ s) (r : LineRef) (lv : Level3) (f : Team → Bool) : Tame s₀ (s.alert r lv f) := h
theorem Tame.clusWrite (h : Tame s₀ s) (cl a : Nat) (d : DirtyByte) : Tame s₀ (s.clusWrite cl a d) := h
theorem Tame.viewWrite (h : Tame s₀ s) (a : Nat) (d : DirtyByte) : Tame s₀ (s.viewWrite a d) := h
theorem Tame.spadWriteAt (h : Tame s₀ s) (bk o : Nat) (b : Byte) (k th : Nat) : Tame s₀ (s.spadWriteAt bk o b k th) := h.modBlk _ _
theorem Tame.land (h : Tame s₀ s) (k : Nat) (w : PendingByte) : Tame s₀ (s.land k w) := by
  unfold State.land
  split
  · exact h
  · exact h.homeWrite _ _ _ _ _
  · exact h.spadWriteAt _ _ _ _ _
  · exact h
  · exact h
  · exact h
theorem Tame.postAll (h : Tame s₀ s) : Tame s₀ s.postAll := h.mem State.memOk_postAll (fun _ => rfl) rfl
theorem Tame.postOne (h : Tame s₀ s) : Tame s₀ s.postOne :=
  h.mem State.memOk_postOne (fun p => by unfold State.postOne; split <;> rfl) (by unfold State.postOne; split <;> rfl)
theorem Tame.hostFlush (h : Tame s₀ s) : Tame s₀ s.hostFlush := Tame.mapTeams (Tame.postAll (h.foldl fun _ _ ht => ht.land _ _)) _
theorem Tame.coreDown (h : Tame s₀ s) (c : Nat) (f : Nat → Bool) : Tame s₀ (s.coreDown c f) := by
  refine Tame.foldl (h.modCore _ _) fun t e ht => ?_
  split <;> exact ht
theorem Tame.clusDown (h : Tame s₀ s) (c : Nat) (f : Nat → Bool) : Tame s₀ (s.clusDown c f) := by
  refine Tame.foldl (h.modCluster _ _) fun t e ht => ?_
  split
  · exact ht.homeWrite _ _ _ _ _
  · exact ht
theorem Tame.publish (h : Tame s₀ s) (c : Nat) (lv : Level3) : Tame s₀ (s.publish c lv) := by
  cases lv
  · exact h
  · exact h.coreDown _ _
  · exact (h.coreDown _ _).clusDown _ _
theorem Tame.refresh (h : Tame s₀ s) (c : Nat) (lv : Level3) : Tame s₀ (s.refresh c lv) := by
  cases lv
  · exact h
  · exact h.modCore _ _
  · exact ((h.clusDown _ _).modCore _ _).modCluster _ _
theorem Tame.issue (h : Tame s₀ s) (a : Access) : Tame s₀ (s.issue a) :=
  Tame.ite h (h.foldl fun _ _ ht => ht.land _ _)
theorem Tame.readText (h : Tame s₀ s) (pc : Nat) : Tame s₀ (s.readText pc) := by
  unfold State.readText
  dsimp only
  split
  · exact (h.fill _).fetchLine _
  · exact h.fill _
theorem Tame.noteMismatch (h : Tame s₀ s) (yes : Bool) : Tame s₀ (s.noteMismatch yes) := Tame.ite h h

/-! ### Records (R252 to R268) -/

theorem Tame.recWord (h : Tame s₀ s) (l : Launch) (own : Bool) (q : DWord) (w : Word) : TameOption s₀ (s.recWord l own q w) := by
  unfold State.recWord
  split
  · exact .none
  · split
    · exact .none
    · split
      · exact .none
      · exact .some (h.foldl fun _ _ ht => ht.homeWrite _ _ _ _ _)
theorem Tame.recWords (h : Tame s₀ s) (l : Launch) (own : Bool) (base : DWord) (i : Nat) (ws : List Word) :
    TameOption s₀ (s.recWords l own base i ws) := by
  induction ws generalizing s i with
  | nil => exact .some h
  | cons w ws ih =>
    unfold State.recWords
    split
    · exact .none
    · next e => exact ih (h.recWord _ _ _ _ _ e) _
theorem Tame.noteWalk (h : Tame s₀ s) (l : Launch) (offs : List Nat) : Tame s₀ (s.noteWalk l offs) := h.noteMismatch _
theorem Tame.putRec (h : Tame s₀ s) (l : Launch) (b : HBuf) (stop : Bool) (rec : List Word) : Tame s₀ (s.putRec l b stop rec).1 := by
  unfold State.putRec
  dsimp only
  split
  · exact h
  split
  · exact h
  split
  · split
    · next e => exact h.recWords _ _ _ _ _ _ e
    · exact h.noteWalk _ _
  split
  · split
    · exact h.noteWalk _ _
    · next e =>
      have h' := h.recWords _ _ _ _ _ _ e
      split
      · next e' => exact h'.recWords _ _ _ _ _ _ e'
      · exact h.noteWalk _ _
  · exact h
theorem Tame.debugRec (h : Tame s₀ s) (uid : Nat) (rec : List Word) : Tame s₀ (s.debugRec uid rec) := by
  unfold State.debugRec
  split
  · exact h
  · exact h.ite ((h.putRec _ _ _ _).modLaunch _ _)
theorem Tame.replayRec (h : Tame s₀ s) (uid : Nat) (rec : List Word) : Tame s₀ (s.replayRec uid rec) := by
  unfold State.replayRec
  split
  · exact h
  · exact h.ite ((h.putRec _ _ _ _).modLaunch _ _)
theorem Tame.stopRecords (h : Tame s₀ s) (tm : Team) : Tame s₀ (s.stopRecords tm) := h.foldl fun _ _ ht => ht.debugRec _ _
theorem Tame.fireSnapshot (h : Tame s₀ s) : Tame s₀ s.fireSnapshot := Tame.ite h h
theorem Tame.watchStop (h : Tame s₀ s) (k act : Nat) (origin : Option Nat) (blk : Nat) : Tame s₀ (s.watchStop k act origin blk) := by
  unfold State.watchStop
  split
  · split
    · exact h.modTeam _ _
    · exact h
  · exact Tame.ite h h
theorem Tame.watchGroups (h : Tame s₀ s) (gs : List (List (Nat × DWord) × Bool × Bool)) (n : Nat) : Tame s₀ (s.watchGroups gs n) := by
  refine h.ite (h.foldl fun t e ht => ?_)
  dsimp only
  split
  · exact ht
  · exact ht.ite (Tame.watchStop (Tame.ite (ht.debugRec _ _).fireSnapshot (ht.debugRec _ _)) _ _ _ _)
theorem Tame.watchTeam (h : Tame s₀ s) (accs : List (Nat × DWord)) (n : Nat) (rd wr : Bool) : Tame s₀ (s.watchTeam accs n rd wr) := h.watchGroups _ _
theorem Tame.noteHit (h : Tame s₀ s) (b : Block) (o : Origin) (k : Nat) (w : QWord) (space : Nat) (hits : List Nat) (ns : List WatchNote) :
    Tame s₀ (s.noteHit b o k w space hits ns).1 := by
  unfold State.noteHit
  split
  · exact h
  · dsimp only
    split
    · exact h
    · exact Tame.watchStop (Tame.ite h.fireSnapshot h) _ _ _ _
theorem Tame.noteHits (h : Tame s₀ s) (b dst : Block) (space : Nat) (offs : List Nat) (o : Origin) (ns : List WatchNote) :
    Tame s₀ (s.noteHits b dst space offs o ns).1 := by
  unfold State.noteHits
  dsimp only
  split
  · exact h
  · exact foldl_keeps (P := fun r : State × List WatchNote => Tame s₀ r.1) (fun _ _ hr => hr.noteHit _ _ _ _ _ _ _) _ _ h
theorem Tame.watchRecords (h : Tame s₀ s) (b : Block) (src : Nat) (o : Origin) (pc count : Nat) (ns : List WatchNote) :
    Tame s₀ (s.watchRecords b src o pc count ns) := by
  unfold State.watchRecords
  split
  · exact h
  · exact Tame.foldl h fun _ _ ht => ht.debugRec _ _
theorem Tame.queueRace (h : Tame s₀ s) (rec : List Word) : Tame s₀ (s.queueRace rec) := Tame.ite h (h.modLaunch _ _)
theorem Tame.raceOne (h : Tame s₀ s) (core : Nat) : Tame s₀ (s.raceOne core) := by
  unfold State.raceOne
  split
  · exact h
  · exact (h.modCore _ _).debugRec _ _
theorem Tame.raceAll (h : Tame s₀ s) (core : Nat) : Tame s₀ (s.raceAll core) := (h.modCore _ _).foldl fun _ _ ht => ht.debugRec _ _
theorem Tame.racePass (h : Tame s₀ s) (pc : Nat) (ws wrote : List (Nat × Nat)) : Tame s₀ (s.racePass pc ws wrote) := by
  unfold State.racePass
  split
  · exact h
  extract_lets g slot bad t
  have ht : Tame s₀ t := by
    unfold t
    split
    · exact h
    · extract_lets e u
      have hu : Tame s₀ u := h.queueRace _
      split
      · exact hu
      · exact hu
  exact ht
theorem Tame.listRec (h : Tame s₀ s) (uid kind : Nat) (ws : List Word) (parties : List Nat) : Tame s₀ (s.listRec uid kind ws parties) :=
  h.foldl fun _ _ ht => ht.replayRec _ _
theorem Tame.endRun (h : Tame s₀ s) (uid : Nat) : Tame s₀ (s.endRun uid) := by
  unfold State.endRun
  split
  · exact h
  · exact (h.modLaunch _ _).listRec _ _ _ _
theorem Tame.arbRec (h : Tame s₀ s) (uid kind : Nat) (ws : List Word) (parties : List Nat) : Tame s₀ (s.arbRec uid kind ws parties) :=
  Tame.ite ((h.endRun _).listRec _ _ _ _) h
theorem Tame.runRec (h : Tame s₀ s) (uid loc : Nat) (ws : List Word) (party : Nat) : Tame s₀ (s.runRec uid loc ws party) := by
  unfold State.runRec
  split
  · exact h
  split
  · exact Tame.ite (h.modLaunch _ _) ((h.endRun _).modLaunch _ _)
  · exact h.modLaunch _ _

end Sys2Proof.Machine
end

