-- ==== Sys2Proof/Proofs/TameOps.lean ====
section
/-! SUPPORT. The shared operations of words are tame: accesses that complete, the end of a word, parking and waking, traps, and launches that fail. -/

namespace Sys2Proof.Machine

variable {s s₀ : State}

/-! ### Accesses that complete (R28, R168, R169) -/

theorem Tame.landAccess (h : Tame s₀ s) (a : Access) : Tame s₀ (s.landAccess a) :=
  Tame.foldl (h := Tame.ite (h.foldl fun _ _ ht => ht.racePass _ _ _) h) fun _ _ ht => ht.land _ _
theorem Tame.landAll (h : Tame s₀ s) (as : List Access) : Tame s₀ (as.foldl State.landAccess s) := h.foldl fun _ _ ht => ht.landAccess _
theorem Tame.completeAt (h : Tame s₀ s) (i : Nat) (q : Option Path) : Tame s₀ (s.completeAt i q) := by
  unfold State.completeAt
  split
  · exact h
  · extract_lets now mine first early fl t
    have ht : Tame s₀ t := (h.foldl fun _ _ hu => hu.landAccess _).landAccess _
    exact ht
theorem Tame.drain (h : Tame s₀ s) : Tame s₀ s.drain := h.landAll _
theorem Tame.landStores (h : Tame s₀ s) : Tame s₀ s.landStores := h.landAll _
theorem Tame.later (h : Tame s₀ s) (d : Dest) (vals : List (Nat × List Word)) (n : Nat) (mask : Word) : Tame s₀ (s.later d vals n mask) := h

/-! ### The end of a word (R13, R201) -/

theorem Tame.issuePass (h : Tame s₀ s) : Tame s₀ s.issuePass := h
theorem Tame.finishPasses (h : Tame s₀ s) (passes : List Nat) (next : Nat) : Tame s₀ (s.finishPasses passes next) := Tame.ite h h
theorem Tame.finishAt (h : Tame s₀ s) (cycles next : Nat) : Tame s₀ (s.finishAt cycles next) := h.finishPasses _ _
theorem Tame.finish (h : Tame s₀ s) (cycles : Nat) : Tame s₀ (s.finish cycles) := h.finishPasses _ _
theorem Tame.finishEach (h : Tame s₀ s) (passes : List Nat) : Tame s₀ (s.finishEach passes) := h.finishPasses _ _

/-! ### Traps, parking and waking (R206, R207, R221) -/

theorem Tame.enterTrap (h : Tame s₀ s) (c : TrapCause) (entry : Nat) : Tame s₀ (s.enterTrap c entry) := by
  have hd : Tame s₀ ({ s with team := s.team.flush } : State).drain := Tame.drain h
  exact hd
theorem Tame.modQueue (h : Tame s₀ s) (q : Nat) (f : TokenQueue → TokenQueue) : Tame s₀ (s.modQueue q f) := h
theorem Tame.addToken (h : Tame s₀ s) (q : Nat) (t : Token) : Tame s₀ (s.addToken q t) := Tame.ite h h
theorem Tame.park (h : Tame s₀ s) (c : Park) : Tame s₀ (s.park c) := h
theorem Tame.startStream (h : Tame s₀ s) (bk : Nat) (e : Engine) (pc : Nat) (regs : Tbl Word) : Tame s₀ (s.startStream bk e pc regs) := by
  unfold State.startStream
  split
  · exact h
  · exact (h.setBlk _).setTeam _
theorem Tame.issueFork (h : Tame s₀ s) (bk : Nat) (e : Engine) : Tame s₀ (s.issueFork bk e) := ((h.withTeam _).finish _).startStream _ _ _ _
theorem Tame.giveFork (h : Tame s₀ s) (e : Engine) (bk : Nat) : Tame s₀ (s.giveFork e bk) := by
  unfold State.giveFork
  split
  · exact h.ite ((h.focus _).issueFork _ _).refocus
  · exact h
theorem Tame.wakeOne (h : Tame s₀ s) (k : Nat) : Tame s₀ (s.wakeOne k) := by
  unfold State.wakeOne
  split
  · exact h
  split
  · exact h
  refine h.ite ?_
  extract_lets free
  split
  · exact h.setTeam _
  · exact h.setTeam _
  · exact h.setTeam _
  · exact h.setTeam _
  · exact (h.addToken _ _).setTeam _
  · exact ((h.modQueue _ _).setTeam _).refresh _ _
  · exact (((h.focus k).withTeam _).enterTrap _ _).refocus
  · exact h.setTeam _
theorem Tame.giveJoinFaults (h : Tame s₀ s) (e : Engine) (bk : Nat) : Tame s₀ (s.giveJoinFaults e bk) := by
  unfold State.giveJoinFaults
  split
  · exact h
  refine h.ite ?_
  split
  · exact h
  · exact (h.modBlk _ _).modTeam _ _
theorem Tame.wakePass (h : Tame s₀ s) : Tame s₀ s.wakePass :=
  Tame.foldl (h := Tame.foldl (h := h.foldl fun _ _ ht => (ht.giveJoinFaults _ _).giveJoinFaults _ _) fun _ _ ht => ht.wakeOne _)
    fun _ _ ht => (ht.giveFork _ _).giveFork _ _
theorem Tame.wakeAll (h : Tame s₀ s) : Tame s₀ s.wakeAll := h.wakePass.wakePass

/-! ### Blocks that leave, launches that fail (R229) -/

theorem Tame.clearHinges (h : Tame s₀ s) (core uid : Nat) : Tame s₀ (s.clearHinges core uid) := h.ite (h.modCore _ _)
theorem Tame.vacate (h : Tame s₀ s) (tm : Team) : Tame s₀ (s.vacate tm) := ((h.modCore _ _).dropTeam _).relevel _
theorem Tame.removeBlock (h : Tame s₀ s) (bk : Nat) : Tame s₀ (s.removeBlock bk) := by
  unfold State.removeBlock
  split
  · exact h
  · exact ((h.foldl fun _ _ ht => Tame.ite (ht.vacate _) (ht.dropTeam _)).dropBlk _).clearHinges _ _
theorem Tame.launchDone (h : Tame s₀ s) (l : Launch) (st : LaunchStatus) : Tame s₀ (s.launchDone l st) := h.setLaunch _
theorem Tame.failOne (h : Tame s₀ s) (uid cls : Nat) (r : FailReason) (core ord : Nat) (addr : DWord) : Tame s₀ (s.failOne uid cls r core ord addr) := by
  unfold State.failOne
  split
  · exact h
  refine h.ite ?_
  have hr : ∀ bs : List Block, Tame s₀ (bs.foldl (fun s b => s.removeBlock b.key) (s.endRun uid)) := fun _ => (h.endRun _).foldl fun _ _ ht => ht.removeBlock _
  exact (((((hr _).withSaved _).mapCores _).withHub _).withHub _).launchDone _ _
theorem Tame.failDependents (fuel : Nat) (h : Tame s₀ s) : Tame s₀ (State.failDependents fuel s) := by
  induction fuel generalizing s with
  | zero => exact h
  | succ n ih =>
    unfold State.failDependents
    dsimp only
    split
    · exact h
    · exact ih (h.failOne _ _ _ _ _ _)
theorem Tame.failLaunch (h : Tame s₀ s) (uid cls : Nat) (r : FailReason) (core ord : Nat) (addr : DWord) : Tame s₀ (s.failLaunch uid cls r core ord addr) :=
  Tame.failDependents _ (h.failOne _ _ _ _ _ _)
theorem Tame.failHere (h : Tame s₀ s) (cls : Nat) (r : FailReason) (addr : DWord) : Tame s₀ (s.failHere cls r addr) := h.failLaunch _ _ _ _ _ _
theorem Tame.endStream (h : Tame s₀ s) (e : Engine) : Tame s₀ (s.endStream e) := ((h.withTeam _).withBlk _).wakeAll
theorem Tame.streamFault (h : Tame s₀ s) (c : TrapCause) : Tame s₀ (s.streamFault c) := Tame.ite (h.failHere _ _ _) ((h.withBlk _).endStream _)
theorem Tame.takeTrap (h : Tame s₀ s) (c : TrapCause) : Tame s₀ (s.takeTrap c) := by
  unfold State.takeTrap
  split
  · exact h.streamFault _
  split
  · exact h.failHere _ _ _
  · exact (h.failHere _ _ _).ite (Tame.ite h (h.enterTrap _ _))
theorem Tame.setFair (h : Tame s₀ s) (n : Nat) : Tame s₀ (s.setFair n) := h
theorem Tame.returnTrap (h : Tame s₀ s) (x : TrapCtx) : Tame s₀ (s.returnTrap x) :=  ((h.withTeam _).finishAt _ _).setFair _
theorem Tame.illegal (h : Tame s₀ s) (m : Nat) (scalar : Bool) : Tame s₀ (s.illegal m scalar) := h.takeTrap _
theorem Tame.windowTrap (h : Tame s₀ s) (f : BitVec 7) : Tame s₀ (s.windowTrap f) := h.takeTrap _
theorem Tame.takeEngFault (h : Tame s₀ s) (p : EngFault → Bool) : TameOption s₀ (s.takeEngFault p) := by
  unfold State.takeEngFault
  split
  · exact .none
  · exact .some ((h.withTeam _).takeTrap _)

/-! ### Outcomes -/

/-- The meaning answers a next state of which `P` holds, or stops at a physical hole (R2, log 11); it is not refused. -/
def Yields (P : State → Prop) : Out → Prop
  | .next t => P t
  | .fault _ => True
  | .refused _ => False

theorem Yields.mono {P Q : State → Prop} {o : Out} (h : Yields P o) (hpq : ∀ t, P t → Q t) : Yields Q o := by
  cases o with
  | next t => exact hpq t h
  | fault => trivial
  | refused => exact h

theorem Yields.ite {P : State → Prop} {c : Prop} [Decidable c] {a b : Out} (ha : Yields P a) (hb : Yields P b) : Yields P (if c then a else b) := by
  split
  · exact ha
  · exact hb

theorem Tame.memTrap (h : Tame s₀ s) (e : MemErr) (ts : List Nat) (addr : DWord) : Yields (Tame s₀) (s.memTrap e ts addr) :=
  Yields.ite trivial ((h.noteMismatch _).takeTrap _)

end Sys2Proof.Machine
end

