-- ==== Sys2Proof/Proofs/TameWords.lean ====
section
/-! SUPPORT. Every register word and every control word is tame, and answers a next state. -/

namespace Sys2Proof.Machine

variable {s s₀ : State}

/-! ### Register words (R296) -/

theorem Tame.execAlu (h : Tame s₀ s) (a : Alu) : Yields (Tame s₀) (execAlu a s) := by
  unfold Machine.execAlu
  split
  · exact h.windowTrap _
  · exact ((h.withTeam _).countEvents _).finish _
theorem Tame.execPand (h : Tame s₀ s) (d : Fin 8) (a b : Pred) : Yields (Tame s₀) (execPand d a b s) := h.execAlu _
theorem Tame.execPor (h : Tame s₀ s) (d : Fin 8) (a b : Pred) : Yields (Tame s₀) (execPor d a b s) := h.execAlu _
theorem Tame.execPxor (h : Tame s₀ s) (d : Fin 8) (a b : Pred) : Yields (Tame s₀) (execPxor d a b s) := h.execAlu _
theorem Tame.execPnot (h : Tame s₀ s) (d : Fin 8) (a : Pred) : Yields (Tame s₀) (execPnot d a s) := h.execAlu _
theorem Tame.execMovs (h : Tame s₀ s) (d a b : Reg) : Yields (Tame s₀) (execMovs d a b s) := by
  unfold Machine.execMovs
  split
  · exact h.windowTrap _
  · exact (h.withTeam _).finish _
theorem Tame.execRdl (h : Tame s₀ s) (d a b : Reg) : Yields (Tame s₀) (execRdl d a b s) := by
  unfold Machine.execRdl
  split
  · exact h.windowTrap _
  · exact (h.withTeam _).finish _
theorem Tame.execTrans (h : Tame s₀ s) (fn : TransFn) (f : TFmt) (d a : Reg) (n : BitVec 4) : Yields (Tame s₀) (execTrans fn f d a n s) := by
  unfold Machine.execTrans
  dsimp only
  split
  · exact h.windowTrap _
  · exact (((h.countEvents _).later _ _ _ _).issue _).finish _

/-! ### Team operations and limbs (R103 to R110, R212 to R216) -/

theorem Tame.execVote (h : Tame s₀ s) (k : VoteKind) (d : Reg) (p : Pred) : Yields (Tame s₀) (execVote k d p s) := by
  unfold Machine.execVote
  split
  · exact h.windowTrap _
  · exact Yields.ite (Yields.ite ((h.withTeam _).finish _) ((h.withTeam _).finish _)) ((h.withTeam _).finish _)
theorem Tame.execShfl (h : Tame s₀ s) (k : ShflKind) (d a b : Reg) : Yields (Tame s₀) (execShfl k d a b s) := by
  unfold Machine.execShfl
  split
  · exact h.windowTrap _
  · exact (h.withTeam _).finish _
theorem Tame.execRed (h : Tame s₀ s) (o : RedOp) (f32 : Bool) (d a : Reg) : Yields (Tame s₀) (execRed o f32 d a s) := by
  unfold Machine.execRed
  split
  · exact h.windowTrap _
  dsimp only
  split
  · split
    · exact (h.withTeam _).finish _
    · exact ((h.withTeam _).countEvents _).finishEach _
  · exact ((h.withTeam _).countEvents _).finish _
theorem Tame.execScan (h : Tame s₀ s) (o : RedOp) (f32 exc : Bool) (d a : Reg) : Yields (Tame s₀) (execScan o f32 exc d a s) := by
  unfold Machine.execScan
  split
  · exact h.windowTrap _
  · exact ((h.withTeam _).countEvents _).finish _
theorem Tame.execMatchKey (h : Tame s₀ s) (k : KeyTy) (rank : Bool) (d a : Reg) : Yields (Tame s₀) (execMatchKey k rank d a s) := by
  unfold Machine.execMatchKey
  split
  · exact h.windowTrap _
  · exact (h.withTeam _).finish _
theorem Tame.execBind (h : Tame s₀ s) (a : Reg) : Yields (Tame s₀) (execBind a s) :=
  Yields.ite (h.finish _) (Yields.ite (h.illegal _ _) (Yields.ite (h.takeTrap _) ((h.withTeam _).finish _)))
theorem Tame.execUnbind (h : Tame s₀ s) : Yields (Tame s₀) (execUnbind s) := (h.withTeam _).finish _
theorem Tame.execLimb (h : Tame s₀ s) (regs : List Reg) (d : Option Reg) (f : Team → Nat → LimbRes) (cost : Nat → Nat) :
    Yields (Tame s₀) (execLimb regs d f cost s) := by
  unfold Machine.execLimb
  dsimp only
  split
  · exact h.windowTrap _
  · exact Yields.ite (h.finish _) (Yields.ite (h.illegal _ _) (Yields.ite (h.finish _) ((h.withTeam _).finish _)))
theorem Tame.execLadd (h : Tame s₀ s) (d a b : Reg) : Yields (Tame s₀) (execLadd d a b s) := h.execLimb _ _ _ _
theorem Tame.execLsub (h : Tame s₀ s) (d a b : Reg) : Yields (Tame s₀) (execLsub d a b s) := h.execLimb _ _ _ _
theorem Tame.execLneg (h : Tame s₀ s) (d a : Reg) : Yields (Tame s₀) (execLneg d a s) := h.execLimb _ _ _ _
theorem Tame.execLcmp (h : Tame s₀ s) (a b : Reg) : Yields (Tame s₀) (execLcmp a b s) := h.execLimb _ _ _ _
theorem Tame.execLshl (h : Tame s₀ s) (d a b : Reg) : Yields (Tame s₀) (execLshl d a b s) := by
  unfold Machine.execLshl
  exact h.execLimb _ _ _ _
theorem Tame.execLshr (h : Tame s₀ s) (d a b : Reg) : Yields (Tame s₀) (execLshr d a b s) := by
  unfold Machine.execLshr
  exact h.execLimb _ _ _ _
theorem Tame.execLmul (h : Tame s₀ s) (d a b : Reg) : Yields (Tame s₀) (execLmul d a b s) := h.execLimb _ _ _ _
theorem Tame.execLmulAddend (h : Tame s₀ s) (d a b : Reg) : Yields (Tame s₀) (execLmulAddend d a b s) := h.execLimb _ _ _ _
theorem Tame.execWbase (h : Tame s₀ s) (a : Reg) (i : BitVec 11) : Yields (Tame s₀) (execWbase a i s) :=
  Yields.ite (h.windowTrap _) ((h.withTeam _).finish _)

/-! ### Control words (R29 to R38) -/

theorem Tame.execYield (h : Tame s₀ s) : Yields (Tame s₀) (execYield s) := (h.finish 1).withTeam _
theorem Tame.execExit (h : Tame s₀ s) : Yields (Tame s₀) (execExit s) :=
  Yields.ite (h.withTeam _) (Yields.ite ((h.withTeam _).finish _) (Yields.ite (((h.withTeam _).finish 1).withTeam _) ((h.withTeam _).finish _)))
theorem Tame.execBrkpt (h : Tame s₀ s) (t : BitVec 7) : Yields (Tame s₀) (execBrkpt t s) := Yields.ite ((h.withTeam _).finish _) (h.takeTrap _)
theorem Tame.execBrc (h : Tame s₀ s) (p : Pred) (o : BitVec 18) : Yields (Tame s₀) (execBrc p o s) := Tame.ite (h.finishAt _ _) (h.finish _)
theorem Tame.execCall (h : Tame s₀ s) (o : BitVec 18) : Yields (Tame s₀) (execCall o s) := (h.withTeam _).finishAt _ _
theorem Tame.jumpTo (h : Tame s₀ s) (q : DWord) : Tame s₀ (s.jumpTo q) := by
  refine (h.takeTrap _).ite ((h.takeTrap _).ite ?_)
  split
  · exact h.finishAt _ _
  · exact (h.finishAt _ _).ite (h.illegal _ _)
theorem Tame.skipTo (h : Tame s₀ s) (tm : Team) (pc : Nat) (ok : Instr → Bool) : Tame s₀ (s.skipTo tm pc ok) := by
  unfold State.skipTo
  dsimp only
  split
  · exact (h.withTeam _).illegal _ _
  · exact (h.withTeam _).finishPasses _ _
theorem Tame.divergeTo (h : Tame s₀ s) (tm : Team) (skip : Option (Nat × (Instr → Bool))) (next : Nat) : Tame s₀ (s.divergeTo tm skip next) := by
  unfold State.divergeTo
  split
  · exact (h.withTeam _).finishPasses _ _
  · exact Tame.ite ((h.withTeam _).finishPasses _ _) (h.skipTo _ _ _)
theorem Tame.boundTrap (h : Tame s₀ s) (ts : List Nat) : Tame s₀ (s.boundTrap ts) := h.takeTrap _
theorem Tame.nestTrap (h : Tame s₀ s) (ts : List Nat) : Tame s₀ (s.nestTrap ts) := h.takeTrap _
theorem Tame.execIfp (h : Tame s₀ s) (p : Pred) (o : BitVec 18) : Yields (Tame s₀) (execIfp p o s) :=
  Yields.ite (h.nestTrap _) (Yields.ite (h.nestTrap _) (Yields.ite (h.boundTrap _) (h.divergeTo _ _ _)))
theorem Tame.plainElse (h : Tame s₀ s) (o : BitVec 18) : Tame s₀ (s.plainElse o) := h.divergeTo _ _ _
theorem Tame.execElsep (h : Tame s₀ s) (o : BitVec 18) : Yields (Tame s₀) (execElsep o s) := by
  unfold Machine.execElsep
  dsimp only
  split
  · exact h.illegal _ _
  refine Yields.ite (h.illegal _ _) ?_
  split
  · exact Yields.ite (h.divergeTo _ _ _) (h.plainElse _)
  · exact Tame.ite (h.skipTo _ _ _) (h.plainElse _)
  · exact h.plainElse _
theorem Tame.plainEndif (h : Tame s₀ s) (slot : PathSlot) : Tame s₀ (s.plainEndif slot) := h.divergeTo _ _ _
theorem Tame.execEndif (h : Tame s₀ s) : Yields (Tame s₀) (execEndif s) := by
  unfold Machine.execEndif
  dsimp only
  split
  · exact h.illegal _ _
  refine Yields.ite (h.illegal _ _) ?_
  split
  · exact Yields.ite (h.divergeTo _ _ _) (h.plainEndif _)
  · exact h.plainEndif _
  · exact h.plainEndif _
theorem Tame.execLoopBeg (h : Tame s₀ s) : Yields (Tame s₀) (execLoopBeg s) :=
  Yields.ite (h.nestTrap _) (Yields.ite (h.nestTrap _) (h.divergeTo _ _ _))
theorem Tame.noLoop (h : Tame s₀ s) : Tame s₀ s.noLoop := Tame.ite ((h.withTeam _).finish _) ((h.withTeam _).illegal _ _)
theorem Tame.execLoopEnd (h : Tame s₀ s) (o : BitVec 18) : Yields (Tame s₀) (execLoopEnd o s) := by
  refine Yields.ite h.noLoop ?_
  split
  · exact h.noLoop
  · exact Yields.ite (h.illegal _ _) (Yields.ite (h.divergeTo _ _ _) (h.divergeTo _ _ _))
theorem Tame.leaveLoop (h : Tame s₀ s) (p : Pred) (n : Nat) : Tame s₀ (s.leaveLoop p n) :=
  Tame.ite h.noLoop (Tame.ite (h.boundTrap _) (h.divergeTo _ _ _))
theorem Tame.fairSwitch (h : Tame s₀ s) : Tame s₀ s.fairSwitch := by
  unfold State.fairSwitch
  dsimp only
  split
  · exact h
  · exact h
theorem Tame.fairExpire (h : Tame s₀ s) : Tame s₀ s.fairExpire := by
  unfold State.fairExpire
  split
  · exact h
  · exact h.ite (Tame.ite h h.fairSwitch)
theorem Tame.fairDeferred (h : Tame s₀ s) : Tame s₀ s.fairDeferred := by
  unfold State.fairDeferred
  split
  · exact h
  · exact h.fairSwitch.ite h

end Sys2Proof.Machine
end

section
/-! SUPPORT. Every memory word, synchronisation word, posting word and privileged word is tame; it answers a next state, or stops at a physical hole. -/

namespace Sys2Proof.Machine

variable {s s₀ : State}

/-! ### Parts of memory words -/

theorem Tame.raceWord (h : Tame s₀ s) (n : Nat) (as : List Acc) (wrote : Acc → Bool) : Tame s₀ (s.raceWord n as wrote) := h.foldl fun _ _ ht => ht.racePass _ _ _
theorem Tame.fillAccs (h : Tame s₀ s) (as : List Acc) : Tame s₀ (s.fillAccs as) := h.fillAll _
theorem Tame.fillTried (h : Tame s₀ s) (u : Use) (rs : List (Nat × DWord)) : Tame s₀ (s.fillTried u rs) := h.fillAll _
theorem Tame.chargeFar (h : Tame s₀ s) (n : Nat) (as : List Acc) : Tame s₀ (s.chargeFar n as) := h.ite (h.modCluster _ _)
theorem Tame.touchAccs (h : Tame s₀ s) (n : Nat) (as : List Acc) : Tame s₀ (s.touchAccs n as) := (h.foldl fun _ _ ht => ht.touchTgt _ _ _).chargeFar _ _
theorem Tame.watchAccs (h : Tame s₀ s) (n : Nat) (rd wr : Bool) (as : List Acc) : Tame s₀ (s.watchAccs n rd wr as) := h.watchTeam _ _ _ _
theorem Tame.noAccess (h : Tame s₀ s) (d : Dest) (n : Nat) : Tame s₀ (s.noAccess d n) := (h.later _ _ _ _).finish _
theorem Tame.memFail (h : Tame s₀ s) (bad : List Bad) (scalar : Bool) (r : Resume) : Yields (Tame s₀) (s.memFail bad scalar r) := by
  refine Yields.ite trivial ?_
  split
  · exact h
  · exact (h.noteMismatch _).takeTrap _
theorem Tame.failLost (h : Tame s₀ s) (as : List Acc) : Tame s₀ (s.failLost as) := h.failHere _ _ _
theorem Tame.standWrites (h : Tame s₀ s) (size : Nat) (as : List Acc) (acc : Access) : Tame s₀ (s.standWrites size as acc) :=
  (((((h.fillAccs _).chargeFar _ _).watchAccs _ _ _ _).raceWord _ _ _).issue _).landStores
theorem Tame.lineDown (h : Tame s₀ s) (g : Tgt) (lv : Level3) : Tame s₀ (s.lineDown g lv) := by
  refine h.ite ?_
  cases lv
  · exact h
  · exact h.coreDown _ _
  · exact (h.coreDown _ _).clusDown _ _
theorem Tame.heardAbove (h : Tame s₀ s) (line : Nat) (lv : Level3) : Tame s₀ (s.heardAbove line lv) := Tame.ite ((h.alert _ _ _).alert _ _ _) (h.alert _ _ _)
theorem Tame.hostByte (h : Tame s₀ s) (a : Nat) (b : Byte) : Tame s₀ { s with hostMem := s.hostMem.write a b } :=
  h.mem (fun k => ⟨k.1, mem_write_wf a b k.2⟩) (fun _ => rfl) rfl
theorem Tame.homePut (h : Tame s₀ s) (g : Tgt) (lv : Level3) (t : Nat) (bs : List Byte) : Tame s₀ (s.homePut g lv t bs) := by
  refine h.foldl fun u b hu => ?_
  dsimp only
  split
  · exact hu.viewWrite _ _
  · exact (hu.clusWrite _ _ _).heardAbove _ _
  · exact (hu.homeWrite _ _ _ _ _).heardAbove _ _
  · exact hu.spadWriteAt _ _ _ _ _
  · exact hu.hostByte _ _
  · exact hu.homeWrite _ _ _ _ _
theorem Tame.viewTake (h : Tame s₀ s) (g : Tgt) (lv : Level3) : Tame s₀ (s.viewTake g lv) := by
  refine h.ite ?_
  dsimp only
  exact Tame.touchLine (Tame.ite ((h.withCore _).modCluster _ _) (h.withCore _)) _
theorem Tame.viewTakeAll (h : Tame s₀ s) (as : List Acc) (lv : Acc → Level3) : Tame s₀ (as.foldl (fun s x => s.viewTake x.g (lv x)) s) :=
  h.foldl fun _ _ ht => ht.viewTake _ _
theorem Tame.bringDown (h : Tame s₀ s) (as : List Acc) (lv : Acc → Level3) (n : Nat) : Tame s₀ (s.bringDown as lv n) := by
  have hl : Tame s₀ (as.foldl (fun s a => s.lineDown a.g (lv a)) s.landStores) := h.landStores.foldl fun _ _ ht => ht.lineDown _ _
  have hp := hl.postAll.ite (c := (as.any fun a => a.g.space == 6) = true) hl
  exact hp.ite (hp.modCluster _ _)
theorem Tame.noteAtom (h : Tame s₀ s) (as : List Acc) (lv : Acc → Level3) : Tame s₀ (s.noteAtom as lv) :=
  h.ite (h.foldl fun _ _ ht => (ht.runRec _ _ _ _).withLaunch _)

/-! ### Loads, stores, `tld`, `pf` (R346, R373, R392, R394) -/

theorem Tame.execLoad (h : Tame s₀ s) (size : Nat) (sgn : Bool) (d a : Reg) (o : BitVec 7) (n : BitVec 4) :
    Yields (Tame s₀) (execLoad size sgn d a o n s) := by
  unfold Machine.execLoad
  dsimp only
  split
  · exact h.windowTrap _
  split
  · exact h.park _
  refine Yields.ite (h.park _) (Yields.ite (h.noAccess _ _) (Yields.ite (((h.fillTried _ _).touchAccs _ _).memFail _ _ _) ?_))
  exact (((((((h.fillAccs _).touchAccs _ _).watchAccs _ _ _ _).raceWord _ _ _).issue _)).later _ _ _ _).finishEach _
theorem Tame.execStore (h : Tame s₀ s) (size : Nat) (d a : Reg) (o : BitVec 7) (n : BitVec 4) : Yields (Tame s₀) (execStore size d a o n s) := by
  unfold Machine.execStore
  dsimp only
  split
  · exact h.windowTrap _
  split
  · exact h.park _
  refine Yields.ite (h.park _) (Yields.ite (h.noAccess _ _) (Yields.ite (h.failLost _) ?_))
  refine Yields.ite (((h.fillTried _ _).standWrites _ _ _).memFail _ _ _) (Yields.ite (((h.fillTried _ _).standWrites _ _ _).memFail _ _ _) ?_)
  refine Yields.ite (h.failLost _) ?_
  exact ((((((h.fillAccs _).chargeFar _ _).watchAccs _ _ _ _).raceWord _ _ _).countEvents _).issue _).later _ _ _ _ |>.finishEach _
theorem Tame.execTld (h : Tame s₀ s) (d a : Reg) (o : BitVec 7) (n : BitVec 4) : Yields (Tame s₀) (execTld d a o n s) := by
  unfold Machine.execTld
  dsimp only
  split
  · exact h.windowTrap _
  split
  · exact h.park _
  refine Yields.ite (h.noAccess _ _) (Yields.ite (h.memFail _ _ _) (Yields.ite (h.memFail _ _ _) ?_))
  have hi := fun u rs n as gs m x => ((((h.fillTried u rs).touchAccs n as).watchGroups gs m).issue x)
  exact Yields.ite ((hi _ _ _ _ _ _ _).landStores.memFail _ _ _) (((hi _ _ _ _ _ _ _).later _ _ _ _).finishEach _)
theorem Tame.execPf (h : Tame s₀ s) (a : Reg) (o : BitVec 7) (n : BitVec 4) : Yields (Tame s₀) (execPf a o n s) := by
  unfold Machine.execPf
  dsimp only
  split
  · exact h.windowTrap _
  split
  · exact h.park _
  refine Yields.ite (h.noAccess _ _) ?_
  have hl := fun u rs (ls : List Nat) => (h.fillTried u rs).foldl (f := State.clusterTake) (xs := ls) fun _ _ ht => ht.clusterTake _
  exact ((((hl _ _ _).issue _).withTeam _).later _ _ _ _).finishEach _

/-! ### Reservations, atomics, monitors (R173, R192 to R198) -/

theorem Tame.execLr (h : Tame s₀ s) (size : Nat) (d a : Reg) (o : BitVec 7) (n : BitVec 4) : Yields (Tame s₀) (execLr size d a o n s) := by
  unfold Machine.execLr
  dsimp only
  split
  · exact h.windowTrap _
  split
  · exact h.park _
  refine Yields.ite (h.park _) (Yields.ite (h.noAccess _ _) (Yields.ite ((h.fillTried _ _).memFail _ _ _) ?_))
  split
  · exact h.park _
  have hb := fun as lv n as' => (h.bringDown as lv n).fillAccs as'
  refine Yields.ite ((hb _ _ _ _).memFail _ _ _) ?_
  exact (((((((hb _ _ _ _).viewTakeAll _ _).watchAccs _ _ _ _).noteAtom _ _).raceWord _ _ _).withTeam _).issue _).later _ _ _ _ |>.finishEach _
theorem Tame.scOne (h : Tame s₀ s) (scalar : Bool) (a : Acc) (bs : List Byte) : Tame s₀ (s.scOne scalar a bs).1 :=
  (Tame.ite (h.homePut _ _ _ _) h).withTeam _
theorem Tame.execSc (h : Tame s₀ s) (size : Nat) (d a : Reg) (o : BitVec 7) (n : BitVec 4) : Yields (Tame s₀) (execSc size d a o n s) := by
  unfold Machine.execSc
  dsimp only
  split
  · exact h.windowTrap _
  split
  · exact h.park _
  refine Yields.ite (h.park _) (Yields.ite (h.noAccess _ _) (Yields.ite (((h.withTeam _).fillTried _ _).memFail _ _ _) (Yields.ite (h.failLost _) ?_)))
  split
  · exact h.park _
  have hr := fun as lv n (xs : List Acc) (f : State × List (Nat × List Word) → Acc → State × List (Nat × List Word))
      (hf : ∀ b x, Tame s₀ b.1 → Tame s₀ (f b x).1) => foldl_keeps (P := fun r => Tame s₀ r.1) hf xs (s.bringDown as lv n, []) (h.bringDown as lv n)
  refine Tame.finishEach (Tame.wakeAll (Tame.later (Tame.issue (Tame.withTeam (Tame.raceWord (Tame.noteAtom (Tame.watchAccs (Tame.viewTakeAll (Tame.fillAccs ?_ _) _ _) _ _ _ _) _ _) _ _ _) _) _) _ _ _ _)) _
  exact hr _ _ _ _ _ fun _ _ hb => hb.scOne _ _ _
theorem Tame.atomOne (h : Tame s₀ s) (p : AtomOp) (lv : Level3) (a : Acc) (x y : Word) : Tame s₀ (s.atomOne p lv a x y).1 := by
  unfold State.atomOne
  dsimp only
  split
  · exact h
  · exact h.homePut _ _ _ _
theorem Tame.atomAll (h : Tame s₀ s) (p : AtomOp) (lv : Acc → Level3) (ops : Nat → Word × Word) (as : List Acc) :
    Tame s₀ (as.foldl (fun (z : State × List (Acc × Except Nat Word)) x =>
      ((z.1.atomOne p (lv x) x (ops x.t).1 (ops x.t).2).1, z.2 ++ [(x, (z.1.atomOne p (lv x) x (ops x.t).1 (ops x.t).2).2)])) (s, [])).1 :=
  foldl_keeps (P := fun z : State × List (Acc × Except Nat Word) => Tame s₀ z.1) (fun _ _ hz => hz.atomOne _ _ _ _ _) as (s, []) h
theorem Tame.execAtom (h : Tame s₀ s) (p : AtomOp) (c : Scope) (r : Ordering4) (d a : Reg) (n : BitVec 2) : Yields (Tame s₀) (execAtom p c r d a n s) := by
  unfold Machine.execAtom
  dsimp only
  split
  · exact h.windowTrap _
  split
  · exact h.park _
  refine Yields.ite (h.park _) (Yields.ite (h.noAccess _ _) (Yields.ite ((h.fillTried _ _).memFail _ _ _) ?_))
  split
  · exact h.park _
  have h1 : Tame s₀ (if isRel r then s.drain.publish s.core.id (scopeLevel c) else s) := (h.drain.publish _ _).ite h
  have h2 := fun as => (((h1.bringDown as (fun x => homeLevel x.g c) 4).atomAll p (fun x => homeLevel x.g c)
    (fun t => (s.team.rd s.blk.bix d 0 t, s.team.rd s.blk.bix d 1 t)) as).fillAccs as).viewTakeAll as fun x => homeLevel x.g c
  have h3 := fun as k => ((h2 as).refresh k (scopeLevel c)).ite (c := isAcq r = true) (h2 as)
  have h4 := fun as k x => (((h3 as k).watchAccs 4 true true as).noteAtom as fun x => homeLevel x.g c).issue x
  exact Yields.ite (((h4 _ _ _).later _ _ _ _).wakeAll.finishEach _) (((h4 _ _ _).later _ _ _ _).wakeAll.memFail _ _ _)
theorem Tame.execMonArm (h : Tame s₀ s) (c : Scope) (d a : Reg) (n : BitVec 4) : Yields (Tame s₀) (execMonArm c d a n s) := by
  unfold Machine.execMonArm
  dsimp only
  split
  · exact h.windowTrap _
  split
  · exact h.park _
  refine Yields.ite ((h.withTeam _).noAccess _ _) (Yields.ite ((h.fillTried _ _).memFail _ _ _) (Yields.ite (h.takeTrap _) (Yields.ite (h.takeTrap _) ?_)))
  have hs := fun as lv n xs ys n' rd wr zs tm x => ((((((h.bringDown as lv n).fillAccs xs).viewTakeAll ys lv).watchAccs n' rd wr zs).withTeam tm).issue x)
  exact Yields.ite (((hs _ _ _ _ _ _ _ _ _ _ _).later _ _ _ _).finishEach _) (((hs _ _ _ _ _ _ _ _ _ _ _).later _ _ _ _).memFail _ _ _)
theorem Tame.completeWhere (h : Tame s₀ s) (f : Access → Bool) : Tame s₀ (s.completeWhere f) := by
  refine h.foldl fun t _ ht => ?_
  split
  · exact ht.completeAt _ _
  · exact ht
theorem Tame.completeOn (h : Tame s₀ s) (q : Path) : Tame s₀ (s.completeOn q) := by
  refine h.foldl fun t _ ht => ?_
  split
  · exact ht.completeAt _ _
  · exact ht
theorem Tame.execMonWait (h : Tame s₀ s) : Yields (Tame s₀) (execMonWait s) := by
  have hs := (h.withTeam s.team.flush).completeWhere isMonArm
  unfold Machine.execMonWait
  dsimp only
  split
  · exact hs.takeTrap _
  · exact hs.park _
  · exact (hs.withTeam _).finish _

/-! ### Ordering and latches (R168, R208 to R211) -/

theorem Tame.execPhase (h : Tame s₀ s) (c : Scope) : Yields (Tame s₀) (execPhase c s) := by
  refine Yields.ite (h.park _) (Yields.ite (h.park _) ?_)
  have hd : Tame s₀ (if c = .host then s.drain.hostFlush else s.drain) := h.drain.hostFlush.ite h.drain
  exact (((hd.publish _ _).refresh _ _).finish _).wakeAll
theorem Tame.execWait (h : Tame s₀ s) (p : Path) (d : Reg) : Yields (Tame s₀) (execWait p d s) := by
  have hf := h.withTeam s.team.flush
  unfold Machine.execWait
  dsimp only
  split
  · next ht =>
    obtain ⟨e, -, he⟩ := Option.bind_eq_some_iff.1 ht
    exact hf.takeEngFault _ _ he
  · exact Yields.ite (hf.park _) (hf.finish _)
theorem Tame.execRdcnt (h : Tame s₀ s) (p : Path) (d : Reg) : Yields (Tame s₀) (execRdcnt p d s) := ((h.withTeam _).withTeam _).finish _
theorem Tame.arrive (h : Tame s₀ s) (bk l party : Nat) : Tame s₀ (s.arrive bk l party) := by
  unfold State.arrive
  split
  · exact h
  · exact Tame.ite ((h.setBlk _).modLaunch _ _) (((h.setBlk _).modLaunch _ _).arbRec _ _ _ _)
theorem Tame.execLatInit (h : Tame s₀ s) (l : BitVec 5) (d : Reg) : Yields (Tame s₀) (execLatInit l d s) := Yields.ite (h.illegal _ _) ((h.withBlk _).finish _)
theorem Tame.arriveHere (h : Tame s₀ s) (l : BitVec 5) : Tame s₀ (s.arriveHere l) := h.arrive _ _ _
theorem Tame.execLatArr (h : Tame s₀ s) (l : BitVec 5) : Yields (Tame s₀) (execLatArr l s) :=
  Yields.ite (h.park _) (Yields.ite (h.park _) ((h.arriveHere _).finish _).wakeAll)
theorem Tame.execLatWait (h : Tame s₀ s) (l : BitVec 5) (d : Reg) : Yields (Tame s₀) (execLatWait l d s) :=
  Yields.ite ((h.withTeam _).park _) ((h.withTeam _).finish _)
theorem Tame.execLatArw (h : Tame s₀ s) (l : BitVec 5) : Yields (Tame s₀) (execLatArw l s) := by
  have hf := h.withTeam s.team.flush
  exact Yields.ite (hf.park _) (Yields.ite (hf.park _) (Yields.ite ((hf.arriveHere _).park _).wakeAll ((hf.arriveHere _).finish _).wakeAll))
theorem Tame.execLatGen (h : Tame s₀ s) (l : BitVec 5) (d : Reg) : Yields (Tame s₀) (execLatGen l d s) := (h.withTeam _).finish _

/-! ### Streams and posting words (R125 to R136, R315, R334) -/

theorem Tame.settle (h : Tame s₀ s) (ps : List Path) : Tame s₀ (s.settle ps) := h.foldl fun _ _ ht => ht.completeOn _
theorem Tame.execFork (h : Tame s₀ s) (e : Engine) : Yields (Tame s₀) (execFork e s) :=
  Yields.ite ((h.settle _).illegal _ _) (Yields.ite ((h.settle _).park _) (((h.settle _).startStream _ _ _ _).finish _))
theorem Tame.execJoin (h : Tame s₀ s) (e : Engine) : Yields (Tame s₀) (execJoin e s) := by
  have hf := h.withTeam { s.team.flush with joined := false }
  refine Yields.ite (hf.park _) ?_
  split
  · next ht => exact hf.takeEngFault _ _ ht
  split
  · exact (hf.withBlk _).takeTrap _
  · exact hf.finish _
theorem Tame.noteFifo (h : Tame s₀ s) (e : Engine) : Tame s₀ (s.noteFifo e) := (h.withLaunch _).arbRec _ _ _ _
theorem Tame.enterMx (h : Tame s₀ s) (x : MxEntry) : Tame s₀ (s.enterMx x) := (h.withBlk _).noteFifo _
theorem Tame.enterCp (h : Tame s₀ s) (x : CpEntry) : Tame s₀ (s.enterCp x) := (h.withBlk _).noteFifo _
theorem Tame.streamMx (h : Tame s₀ s) (c : MxCmd) (l : BitVec 5) (d : Reg) : Tame s₀ (s.streamMx c l d) := by
  unfold State.streamMx
  split
  · exact h.park _
  · exact (h.enterMx _).finish _
theorem Tame.execMxPost (h : Tame s₀ s) (c : MxCmd) (l : BitVec 5) (d : Reg) (n : BitVec 4) : Yields (Tame s₀) (execMxPost c l d n s) := by
  have hs := h.settle [.s]
  refine Yields.ite (h.park _) (Yields.ite ?_ ?_)
  · split
    · exact hs.park _
    · exact (((hs.arrive _ _ _).later _ _ _ _).finish _).wakeAll
  · split
    · exact hs.park _
    · exact (((hs.enterMx _).issue _).later _ _ _ _).finish _
theorem Tame.postCopy (h : Tame s₀ s) (l : BitVec 5) (r : List Word) (n : BitVec 4) : Tame s₀ (s.postCopy l r n) := by
  unfold State.postCopy
  extract_lets tag t
  have ht : Tame s₀ t := Tame.ite h (h.issue _)
  split
  · exact (ht.withTeam _).park _
  · exact (((ht.enterCp _).withTeam _).later _ _ _ _).finish _
theorem Tame.execCp (h : Tame s₀ s) (l : BitVec 5) (d : Reg) (n : BitVec 4) : Yields (Tame s₀) (execCp l d n s) := by
  have hs := h.settle [.g, .s, .x]
  unfold Machine.execCp
  refine Yields.ite (h.park _) (Yields.ite (h.park _) ?_)
  dsimp only
  split
  · exact hs.takeTrap _
  refine Yields.ite ?_ (hs.postCopy _ _ _)
  split
  · exact hs.park _
  · have hb := hs.foldl (xs := (s.settle [.g, .s, .x]).targets (s.settle [.g, .s, .x]).blk ((upList 0 24).map fun k => s.team.rd s.blk.bix d k 0))
      (f := fun s b => s.arrive b.key l.toNat 65) fun _ _ ht => ht.arrive _ _ _
    exact (((hb.withTeam _).later _ _ _ _).finish _).wakeAll

/-! ### Queues, registers and privileged words (R79, R242, R376 to R379, R395) -/

theorem Tame.queueTrap (h : Tame s₀ s) : Tame s₀ s.queueTrap := h.takeTrap _
theorem Tame.execQSig (h : Tame s₀ s) (c : Scope) (d : Reg) : Yields (Tame s₀) (execQSig c d s) := by
  have hp := fun c lv => h.drain.publish c lv
  exact Yields.ite h.queueTrap (Yields.ite (h.park _) (Yields.ite (((hp _ _).addToken _ _).finish _).wakeAll ((hp _ _).park _).wakeAll))
theorem Tame.execQWait (h : Tame s₀ s) (c : Scope) (d : Reg) : Yields (Tame s₀) (execQWait c d s) := by
  refine Yields.ite h.queueTrap ?_
  dsimp only
  split
  · exact ((((h.modQueue _ _).withTeam _).refresh _ _).finish _).wakeAll
  · exact (h.modQueue _ _).park _
theorem Tame.execPerfSet (h : Tame s₀ s) (d : Reg) : Yields (Tame s₀) (execPerfSet d s) := Yields.ite (h.illegal _ _) ((h.withTeam _).finish _)
theorem Tame.execMfsr (h : Tame s₀ s) (x : BitVec 11) (d : Reg) : Yields (Tame s₀) (execMfsr x d s) :=
  Yields.ite ((h.withTeam _).finish _) (Yields.ite (((h.withTeam _).withTeam _).finish _) ((h.withTeam _).finish _))

/-- A write of a special register that is carried out is tame. -/
def TameWrite (s₀ : State) (w : SrWrite) : Prop := ∀ t k, w = .wrote t k → Tame s₀ t

theorem TameWrite.wrote (h : Tame s₀ s) (k : Nat) : TameWrite s₀ (.wrote s k) := fun _ _ e => by cases e; exact h
theorem TameWrite.refused : TameWrite s₀ .refused := fun _ _ e => nomatch e
theorem TameWrite.ite {c : Prop} [Decidable c] {a b : SrWrite} (ha : TameWrite s₀ a) (hb : TameWrite s₀ b) : TameWrite s₀ (if c then a else b) := by
  split
  · exact ha
  · exact hb
theorem Tame.writeMxp (h : Tame s₀ s) (v : Word) : TameWrite s₀ (s.writeMxp v) := by
  refine .ite .refused (.ite (.wrote h _) ?_)
  split
  · exact fun _ _ e => nomatch e
  · exact .wrote (h.enterMx _) _
theorem Tame.writeSpecial (h : Tame s₀ s) (x : Nat) (v : Word) : TameWrite s₀ (s.writeSpecial x v) := by
  unfold State.writeSpecial
  dsimp only
  split
  · exact .ite (.wrote (h.withTeam _) _) .refused
  · exact .ite (.wrote (h.withTeam _) _) .refused
  · exact .ite (.wrote (h.withTeam _) _) .refused
  · exact .ite (.wrote (h.withTeam _) _) .refused
  · exact h.writeMxp _
  · exact .ite (.wrote (h.withBlk _) _) .refused
  · exact .ite (.wrote (h.withBlk _) _) .refused
  · exact .ite (.wrote (h.withBlk _) _) .refused
  · exact .ite (.wrote (h.withCore _) _) .refused
  · exact .ite (.wrote (h.withLaunch _) _) .refused
  · exact .refused
theorem Tame.beforeMtsr (h : Tame s₀ s) (x : Nat) : Tame s₀ (s.beforeMtsr x) := Tame.ite h h
theorem Tame.execMtsr (h : Tame s₀ s) (x : BitVec 11) (d : Reg) : Yields (Tame s₀) (execMtsr x d s) := by
  have hb := h.beforeMtsr x.toNat
  unfold Machine.execMtsr
  dsimp only
  split
  · exact hb.illegal _ _
  · exact hb.park _
  · next e => exact (hb.writeSpecial _ _ _ _ e).finish _
theorem Tame.execEret (h : Tame s₀ s) : Yields (Tame s₀) (execEret s) := by
  unfold Machine.execEret
  split
  · exact h.illegal _ _
  · exact h.returnTrap _
theorem Tame.readHinge (h : Tame s₀ s) (d : QWord) (k : Nat) : Tame s₀ (s.readHinge d k) := h.foldS fun _ _ ht => ht.readText _
theorem Tame.execHngSet (h : Tame s₀ s) (e : BitVec 4) (d : Reg) : Yields (Tame s₀) (execHngSet e d s) := by
  unfold Machine.execHngSet
  refine Yields.ite (h.illegal _ _) ?_
  split
  · exact (h.readHinge _ _).memTrap _ _ _
  · exact ((h.readHinge _ _).withCore _).finish _
theorem Tame.execHngClr (h : Tame s₀ s) (e : BitVec 4) : Yields (Tame s₀) (execHngClr e s) := Yields.ite (h.illegal _ _) ((h.withCore _).finish _)
theorem Tame.execHngRd (h : Tame s₀ s) (e : BitVec 4) (d : Reg) : Yields (Tame s₀) (execHngRd e d s) := Yields.ite (h.illegal _ _) ((h.withTeam _).finish _)
theorem Tame.tlbDrop (h : Tame s₀ s) (c : Scope) (root off : Nat) : Tame s₀ (s.tlbDrop c root off) := ((h.withCore _).mapCores _).mapClusters _
theorem Tame.execTlbInv (h : Tame s₀ s) (c : Scope) (d : Reg) : Yields (Tame s₀) (execTlbInv c d s) := by
  unfold Machine.execTlbInv
  refine Yields.ite (h.illegal _ _) ?_
  split
  · exact (h.tlbDrop _ _ _).finish _
  · exact h.finish _

end Sys2Proof.Machine
end

