-- ==== Sys2Proof/Proofs/TameLaunches.lean ====
section
/-! SUPPORT. The events of launches, of the schedulers and of the matrix engine are tame, and answer a next state. -/

namespace Sys2Proof.Machine

variable {s s₀ : State}

/-! ### Launches (R40, R42, R187, R229) -/

theorem Tame.execCqtailWrite (h : Tame s₀ s) (q : Nat) (v : BitVec 16) : Yields (Tame s₀) (execCqtailWrite q v s) := Yields.ite h h
theorem Tame.execLaunchDescriptorCheck (h : Tame s₀ s) : Yields (Tame s₀) (execLaunchDescriptorCheck s) := by
  unfold Machine.execLaunchDescriptorCheck
  split
  · exact h
  dsimp only
  split
  · exact (h.withHub _).setLaunch _
  · exact ((h.withHub _).setLaunch _).failLaunch _ _ _ _ _ _
theorem Tame.placeBlock (h : Tame s₀ s) (l : Launch) (bix core : Nat) (places : List (Nat × Nat)) : Tame s₀ (s.placeBlock l bix core places) :=
  ((Tame.foldl (h.setBlk _) fun _ _ ht => ht.setTeam _).relevel _).modLaunch _ _
theorem Tame.afterDeps (h : Tame s₀ s) (l : Launch) (core : Nat) : Tame s₀ (s.afterDeps l core) :=
  h.ite ((h.foldl fun _ _ ht => ht.publish _ _).refresh _ _)
theorem Tame.execBlockPlacement (h : Tame s₀ s) (u : Nat) : Yields (Tame s₀) (execBlockPlacement u s) := by
  unfold Machine.execBlockPlacement
  split
  · exact h
  refine Yields.ite (h.failDependents _) (Yields.ite h (Yields.ite (h.failLaunch _ _ _ _ _ _) ?_))
  split
  · exact h
  · exact Tame.wakeAll (Tame.foldl (h.setLaunch _) fun _ _ ht => (ht.afterDeps _ _).placeBlock _ _ _ _)
theorem Tame.execTeamEnd (h : Tame s₀ s) (t : Nat) : Yields (Tame s₀) (execTeamEnd t s) := by
  refine Yields.ite (h.focus _) ?_
  dsimp only
  split
  · exact (h.focus t).drain.failHere _ _ _
  · exact (((h.focus t).drain.withBlk _).vacate _).wakeAll
theorem Tame.execBlockEnd (h : Tame s₀ s) (k : Nat) : Yields (Tame s₀) (execBlockEnd k s) := by
  unfold Machine.execBlockEnd
  split
  · exact h
  · exact Yields.ite h (((h.raceAll _).removeBlock _).modLaunch _ _)
theorem Tame.writtenDown (h : Tame s₀ s) (l : Launch) : Tame s₀ (s.writtenDown l) := h.foldl fun _ _ ht => ht.publish _ _
theorem Tame.execLaunchEnd (h : Tame s₀ s) (u : Nat) : Yields (Tame s₀) (execLaunchEnd u s) := by
  unfold Machine.execLaunchEnd
  split
  · exact h
  · exact Yields.ite (((h.endRun _).writtenDown _).launchDone _ _) h
theorem Tame.execUncorrectableStateError (h : Tame s₀ s) (t : Nat) (p : StatePlace) : Yields (Tame s₀) (execUncorrectableStateError t p s) := by
  unfold Machine.execUncorrectableStateError
  split
  · exact h
  · exact h.failLaunch _ _ _ _ _ _

/-! ### Completions, switches, samples, stops (R28, R36, R202, R221, R224, R230) -/

theorem Tame.complete (h : Tame s₀ s) (t k : Nat) (q : Option Path) (kind : AccKind) : Tame s₀ (s.complete t k q kind) := by
  unfold State.complete
  split
  · exact h
  split
  · exact h
  · exact Tame.ite ((h.focus _).completeAt _ _).wakeAll h
theorem Tame.execFairnessSwitch (h : Tame s₀ s) (t : Nat) : Yields (Tame s₀) (execFairnessSwitch t s) := by
  unfold Machine.execFairnessSwitch
  split
  · exact h
  · exact (h.focus _).fairExpire
theorem Tame.execDeferredFairnessSwitch (h : Tame s₀ s) (t : Nat) : Yields (Tame s₀) (execDeferredFairnessSwitch t s) := by
  unfold Machine.execDeferredFairnessSwitch
  split
  · exact h
  · exact (h.focus _).fairDeferred
theorem Tame.execPassedLift (h : Tame s₀ s) (t : Nat) : Yields (Tame s₀) (execPassedLift t s) := by
  unfold Machine.execPassedLift
  split
  · exact h
  · exact Yields.ite (h.focus _) h
theorem Tame.execSchedulerSample (h : Tame s₀ s) (core : Nat) (p : SamplePoint) : Yields (Tame s₀) (execSchedulerSample core p s) := by
  unfold Machine.execSchedulerSample
  extract_lets qtr q ts
  split
  · exact h
  · refine Yields.ite h ?_
    exact ((((h.focus _).putRec _ _ _ _).withHub _).withCore _).modQuarter _ _ _
theorem Tame.execTrapEntry (h : Tame s₀ s) (c : TrapCause) : Yields (Tame s₀) (execTrapEntry c s) := Yields.ite h ((h.withTeam _).takeTrap _)
theorem Tame.execStopRequest (h : Tame s₀ s) (t : Nat) (c : StopCause) : Yields (Tame s₀) (execStopRequest t c s) := by
  unfold Machine.execStopRequest
  split
  · exact h
  · exact Yields.ite h (h.setTeam _)
theorem Tame.execTeamStop (h : Tame s₀ s) (t : Nat) : Yields (Tame s₀) (execTeamStop t s) := by
  unfold Machine.execTeamStop
  split
  · exact h
  · exact Yields.ite (h.focus _) ((((h.focus _).withTeam _).drain.stopRecords _).withTeam _)

/-! ### The matrix engine (R125 to R139) -/

theorem Tame.countFor (h : Tame s₀ s) (uid : Nat) (es : List Nat) : Tame s₀ (s.countFor uid es) := by
  refine h.foldl fun t k ht => ?_
  dsimp only
  split
  · exact ht
  · exact Tame.ite ((ht.setLaunch _).withHub _) (ht.setLaunch _)
theorem Tame.mxRun (h : Tame s₀ s) (core : Nat) (c : MxCmd) {f : State → Block → MxEntry → State} (hf : ∀ b x, Tame s₀ (f s b x)) : Tame s₀ (s.mxRun core c f) := by
  unfold State.mxRun
  split
  · exact h
  refine h.ite (Tame.ite (hf _ _) ?_)
  split
  · exact h.setBlk _
  · exact hf _ _
theorem Tame.execMxPrecCommand (h : Tame s₀ s) (core : Nat) : Yields (Tame s₀) (execMxPrecCommand core s) := h.mxRun core .prec fun _ _ => h.setBlk _
theorem Tame.execMxLdbCommand (h : Tame s₀ s) (core : Nat) : Yields (Tame s₀) (execMxLdbCommand core s) := by
  refine h.mxRun core .ldb fun b x => ?_
  dsimp only
  split
  · exact h.setBlk _
  · exact h.setBlk _
theorem Tame.mxWatch (h : Tame s₀ s) (b : Block) (x : MxEntry) (count : Nat) : Tame s₀ (s.mxWatch b x count) := h.watchRecords _ _ _ _ _ _
theorem Tame.execMxMmCommand (h : Tame s₀ s) (core : Nat) : Yields (Tame s₀) (execMxMmCommand core s) := by
  refine h.mxRun core .mm fun b x => ?_
  dsimp only
  refine Tame.ite ((h.setBlk _).mxWatch _ _ _) ?_
  split
  · exact (h.setBlk _).mxWatch _ _ _
  · have hc := fun dst space offs o ns uid es => (h.noteHits b dst space offs o ns).countFor uid es
    exact Tame.ite ((hc _ _ _ _ _ _ _).setBlk _) (((hc _ _ _ _ _ _ _).setBlk _).mxWatch _ _ _)
theorem Tame.engineWrite (h : Tame s₀ s) (bk : Nat) (ws : List (Nat × Byte)) : Tame s₀ (s.engineWrite bk ws) :=
  Tame.modBlk (h.foldl fun _ _ ht => ht.spadWriteAt _ _ _ _ _) _ _
theorem Tame.execMxStCommand (h : Tame s₀ s) (core : Nat) : Yields (Tame s₀) (execMxStCommand core s) := by
  refine h.mxRun core .st fun b x => ?_
  dsimp only
  split
  · exact h.setBlk _
  · exact ((((h.countFor _ _).setBlk _).noteHits _ _ _ _ _ _).engineWrite _ _).mxWatch _ _ _
theorem Tame.execMxZeroCommand (h : Tame s₀ s) (core : Nat) : Yields (Tame s₀) (execMxZeroCommand core s) :=
  h.mxRun core .zero fun _ _ => ((h.setBlk _).noteHits _ _ _ _ _ _).mxWatch _ _ _
theorem Tame.engineDone (h : Tame s₀ s) (bk : Nat) (o : Origin) (kind : AccKind) (tag : Nat) : Tame s₀ (s.engineDone bk o kind tag) := by
  unfold State.engineDone
  split
  · exact h.modTeam _ _
  · exact h
theorem Tame.mxArrive (h : Tame s₀ s) (bk : Nat) (x : MxEntry) : Tame s₀ (s.mxArrive bk x) := h.ite ((h.arrive _ _ _).engineDone _ _ _ _)
theorem Tame.stopStream (h : Tame s₀ s) (bk : Nat) (o : Origin) : Tame s₀ (s.stopStream bk o) := by
  unfold State.stopStream
  split
  · exact h
  split
  · exact h
  · exact h.ite ((h.setBlk _).dropTeam _)
theorem Tame.deliver (h : Tame s₀ s) (bk : Nat) (e : Engine) (o : Origin) (c : TrapCause) (pc : Nat) : Tame s₀ (s.deliver bk e o c pc) := by
  unfold State.deliver
  split
  · exact h
  dsimp only
  split
  · split
    · exact h.failLaunch _ _ _ _ _ _
    · exact h.setTeam _
  · exact Tame.ite (h.failLaunch _ _ _ _ _ _) ((h.setBlk _).stopStream _ _)
theorem Tame.execMatrixCommandCompletion (h : Tame s₀ s) (core : Nat) : Yields (Tame s₀) (execMatrixCommandCompletion core s) := by
  unfold Machine.execMatrixCommandCompletion
  split
  · exact h
  split
  · exact h
  refine Yields.ite h ?_
  split
  · exact ((h.setBlk _).mxArrive _ _).wakeAll
  · have hg := fun b ys bk x (f : State → MxEntry → State) (hf : ∀ t y, Tame s₀ t → Tame s₀ (f t y)) => Tame.foldl (xs := ys) ((h.setBlk b).mxArrive bk x) hf
    exact Tame.wakeAll ((hg _ _ _ _ _ fun _ _ ht => ht.mxArrive _ _).deliver _ _ _ _ _)
theorem Tame.mxWork (h : Tame s₀ s) (c : MxCmd) (core : Nat) : Yields (Tame s₀) (mxWork c core s) := by
  cases c
  · exact h.execMxPrecCommand _
  · exact h.execMxLdbCommand _
  · exact h.execMxMmCommand _
  · exact h.execMxStCommand _
  · exact h.execMxZeroCommand _
theorem Tame.stateAfter (h : Tame s₀ s) {o : Out} (ho : Yields (Tame s₀) o) : Tame s₀ (stateAfter o s) := by
  cases o with
  | next t => exact ho
  | fault => exact h
  | refused => exact h
theorem Tame.mxPrompt (h : Tame s₀ s) (bk : Nat) : Tame s₀ (s.mxPrompt bk) := by
  unfold State.mxPrompt
  split
  · exact h
  split
  · exact h
  have hw := fun c core => h.stateAfter (h.mxWork c core)
  exact h.ite ((hw _ _).stateAfter ((hw _ _).execMatrixCommandCompletion _))
theorem Tame.engines (h : Tame s₀ s) : Tame s₀ s.engines := h.foldS fun _ _ ht => ht.mxPrompt _
theorem Tame.execStreamEnd (h : Tame s₀ s) (core : Nat) (e : Engine) : Yields (Tame s₀) (execStreamEnd core e s) := by
  unfold Machine.execStreamEnd
  split
  · exact h
  split
  · exact h
  · exact Yields.ite (h.stopStream _ _).wakeAll h

end Sys2Proof.Machine
end

