-- ==== Sys2Proof/Proofs/TameEngines.lean ====
section
/-! SUPPORT. The events of the copy engine, of context save and restore and of Frequel are tame, and answer a next state or stop at a physical hole. -/

namespace Sys2Proof.Machine

variable {s s₀ : State}

/-! ### The copy engine (R155 to R163) -/

theorem Tame.focusBlock (h : Tame s₀ s) (b : Block) : Tame s₀ (s.focusBlock b) := h
theorem Tame.copyTouch (h : Tame s₀ s) (data : Bool) (ps : List (DWord × Nat)) : Tame s₀ (State.copyTouch data ps s) := by
  induction ps generalizing s with
  | nil => exact h
  | cons p ps ih =>
    unfold State.copyTouch
    dsimp only
    split
    · exact ih (Tame.ite (((h.fillAll _).touchTgt _ _ _).chargeFar _ _) (h.fillAll _))
    · exact h.fillAll _
theorem Tame.copyElem (h : Tame s₀ s) (t : Tlr) (e : Nat) {z : State × Nat × Bool} (hz : s.copyElem t e = .ok z) : Tame s₀ z.1 := by
  unfold State.copyElem at hz
  extract_lets ix inside at hz
  split at hz
  · exact Except.ok.inj hz ▸ h
  · split at hz
    split at hz
    · nomatch hz
    · exact Except.ok.inj hz ▸ h.copyTouch _ _
theorem Tame.copyTried (h : Tame s₀ s) (t : Tlr) (m : MemErr) (q : DWord) : Tame s₀ (s.copyTried t m q) := h.copyTouch _ _
theorem Tame.copyElems (h : Tame s₀ s) (t : Tlr) (e n : Nat) : Tame s₀ (s.copyElems t e n).1 := by
  induction n with
  | zero => exact h
  | succ n ih =>
    unfold State.copyElems
    split
    · next hc => rw [hc] at ih; exact ih
    · next hc =>
      rw [hc] at ih
      split
      · exact ih.copyTried _ _ _
      · next hz => exact ih.copyElem _ _ hz
theorem Tame.copyWrite (h : Tame s₀ s) (t : Tlr) (bk : Nat) (w : Nat × Byte) : Tame s₀ (s.copyWrite t bk w) :=
  Tame.ite ((h.spadWriteAt _ _ _ _ _).modBlk _ _) (h.modBlk _ _)
theorem Tame.setCpHead (h : Tame s₀ s) (x : CpEntry) : Tame s₀ (s.setCpHead x) := h
theorem Tame.copyOver (h : Tame s₀ s) (t : Tlr) (x : CpEntry) (e : Nat) (c : Option TrapCause) : Tame s₀ (s.copyOver t x e c) :=
  (h.watchRecords _ _ _ _ _ _).withBlk _
theorem Tame.copyPut (h : Tame s₀ s) (t : Tlr) (x : CpEntry) (e : Nat) (raw : List (Nat × Bool)) (lim : Nat) : Tame s₀ (s.copyPut t x e raw lim).1 := by
  refine foldl_keeps (P := fun r : State × CpEntry => Tame s₀ r.1) (fun r b hr => ?_) _ _ h
  exact (hr.noteHits _ _ _ _ _ _).foldl fun _ _ ht => ht.copyWrite _ _ _
theorem Tame.copyOne (h : Tame s₀ s) (t : Tlr) (x : CpEntry) : TameOption s₀ (s.copyOne t x) := by
  have he := h.copyElems t (s.copyAt t) t.unit
  unfold State.copyOne
  dsimp only
  split
  · exact .some (h.copyOver _ _ _ _)
  split
  · exact .some h
  split
  · exact .none
  · next hc => rw [hc] at he; exact .some ((he.noteMismatch _).copyOver _ _ _ _)
  · next hc =>
    rw [hc] at he
    have hp := fun es raw lim => ((he.countEvents es).copyPut t x (s.copyAt t) raw lim)
    exact .some (Tame.ite ((((hp _ _ _).setCpHead _).withBlk _).copyOver _ _ _ _) (((hp _ _ _).setCpHead _).withBlk _))
theorem Tame.copyUnit (h : Tame s₀ s) (t : Tlr) (n : Nat) : TameOption s₀ (s.copyUnit t n) := by
  induction n generalizing s with
  | zero => exact .some h
  | succ n ih =>
    unfold State.copyUnit
    split
    · exact .some h
    split
    · exact .some h
    split
    · exact .none
    · next hc =>
      have hs := h.copyOne _ _ _ hc
      split
      · exact .some hs
      · exact ih hs
theorem Tame.copyUnits (h : Tame s₀ s) (t : Tlr) (n : Nat) : TameOption s₀ (s.copyUnits t n) := by
  induction n generalizing s with
  | zero => exact .some h
  | succ n ih =>
    unfold State.copyUnits
    split
    · exact .none
    · next hc => exact ih (h.copyUnit _ _ _ hc)
theorem Tame.execCopyStart (h : Tame s₀ s) (core n : Nat) : Yields (Tame s₀) (execCopyStart core n s) := by
  unfold Machine.execCopyStart
  split
  · exact h
  split
  · trivial
  · next hc => exact (h.focusBlock _).copyUnits _ _ _ hc
theorem Tame.copyStop (h : Tame s₀ s) (t : Tlr) (n : Nat) : TameOption s₀ (s.copyStop t n) := by
  induction n generalizing s with
  | zero => exact .some h
  | succ n ih =>
    have he := h.copyElems t (s.copyAt t) t.unit
    unfold State.copyStop
    split
    · exact .some h
    dsimp only
    split
    · exact .some h
    split
    · exact .some h
    split
    · split
      · next hc =>
        rw [hc] at he
        exact .some (((he.copyPut _ _ _ _ _).setCpHead _).withBlk _)
      · exact h.copyOne _ _
    · split
      · exact .none
      · next hc => exact ih (h.copyOne _ _ _ hc)
theorem Tame.cpArrive (h : Tame s₀ s) (b : Block) (x : CpEntry) : Tame s₀ (s.cpArrive b x) :=
  Tame.engineDone (h.foldl fun _ _ ht => ht.arrive _ _ _) _ _ _ _
theorem Tame.execCopyCompletion (h : Tame s₀ s) (core : Nat) : Yields (Tame s₀) (execCopyCompletion core s) := by
  unfold Machine.execCopyCompletion
  split
  · exact h
  split
  · exact h
  refine Yields.ite h ?_
  split
  · exact ((h.setBlk _).cpArrive _ _).wakeAll
  · have hg := fun b ys bk x (f : State → CpEntry → State) (hf : ∀ t y, Tame s₀ t → Tame s₀ (f t y)) => Tame.foldl (xs := ys) ((h.setBlk b).cpArrive bk x) hf
    exact Tame.wakeAll ((hg _ _ _ _ _ fun _ _ ht => ht.cpArrive _ _).deliver _ _ _ _ _)

/-! ### Context save and restore (R224, R225) -/

theorem Tame.writeImage (h : Tame s₀ s) (places : List Nat) : Tame s₀ (s.writeImage places) := h.foldl fun _ _ ht => ht.homeWrite _ _ _ _ _
theorem Tame.stopCopies (h : Tame s₀ s) (bs : List Block) : TameOption s₀ (s.stopCopies bs) := by
  induction bs generalizing s with
  | nil => exact .some h
  | cons b bs ih =>
    unfold State.stopCopies
    split
    · exact ih h
    split
    · exact ih h
    split
    · exact .none
    · next hc => exact ih ((h.focusBlock _).copyStop _ _ _ hc)
theorem Tame.saveGang (h : Tame s₀ s) (bs : List Block) (uid area len : Nat) : Tame s₀ (s.saveGang bs uid area len) :=
  Tame.withSaved (h.foldl fun _ _ ht => ((ht.publish _ _).raceAll _).removeBlock _) _
theorem Tame.execContextSave (h : Tame s₀ s) (o : SaveOrder) : Yields (Tame s₀) (execContextSave o s) := by
  unfold Machine.execContextSave
  split
  · exact h
  refine Yields.ite h (Yields.ite (h.noteWalk _ _) ?_)
  split
  · trivial
  · next hc =>
    have hs := h.stopCopies _ _ hc
    exact Yields.ite hs ((hs.saveGang _ _ _ _).writeImage _)
theorem Tame.restoreBlock (h : Tame s₀ s) (g : SavedGang) (b : Block) (core : Nat) (places : List (Nat × Nat)) : Tame s₀ (s.restoreBlock g b core places) := by
  unfold State.restoreBlock
  dsimp only
  refine ((Tame.modLaunch (Tame.foldl (Tame.foldl (h.setBlk _) ?_) ?_) _ _).refresh _ _).relevel _
  · exact fun _ _ ht => ht.setTeam _
  · exact fun _ _ ht => ht.setTeam _
theorem Tame.restoreAll (h : Tame s₀ s) (g : SavedGang) (l : Launch) (bs : List Block) (cs : List Nat) : TameOption s₀ (s.restoreAll g l bs cs) := by
  induction cs generalizing s bs with
  | nil =>
    cases bs with
    | nil => exact .some h
    | cons => exact .none
  | cons c cs ih =>
    cases bs with
    | nil => exact .some h
    | cons b bs =>
      unfold State.restoreAll
      split
      · exact ih (h.restoreBlock _ _ _ _) _
      · exact ih h _
theorem Tame.execContextRestore (h : Tame s₀ s) (k core : Nat) : Yields (Tame s₀) (execContextRestore k core s) := by
  unfold Machine.execContextRestore
  split
  · exact h
  refine Yields.ite h (Yields.ite (h.noteWalk _ _) ?_)
  split
  · next hc => exact ((h.withSaved _).restoreAll _ _ _ _ _ hc).wakeAll
  · exact h

/-! ### Frequel (R235 to R251) -/

theorem Tame.focusCore (h : Tame s₀ s) (core uid : Nat) : Tame s₀ (s.focusCore core uid) := h
theorem Tame.execCaptureArm (h : Tame s₀ s) (core launch start : Nat) : Yields (Tame s₀) (execCaptureArm core launch start s) := by
  unfold Machine.execCaptureArm
  dsimp only
  split
  · exact h
  · exact Yields.ite h (h.modCore _ _)
theorem Tame.execCapture (h : Tame s₀ s) (t : Nat) : Yields (Tame s₀) (execCapture t s) := by
  have hf := h.focus t
  unfold Machine.execCapture
  dsimp only
  split
  · refine Yields.ite h ?_
    split
    · exact h
    · exact hf
  · exact h
theorem Tame.captureEnd (h : Tame s₀ s) (c : CaptureRun) : Tame s₀ (s.captureEnd c) := by
  unfold State.captureEnd
  dsimp only
  split
  · refine Tame.ite h ?_
    split
    · exact ((h.withTeam _).noteWalk _ _).withCore _
    · next hr => exact ((h.withTeam _).recWords _ _ _ _ _ _ hr).withCore _
  · exact h
theorem Tame.captureWord (h : Tame s₀ s) (pre : Team) (i : Instr) : Tame s₀ (s.captureWord pre i) := by
  unfold State.captureWord
  split
  · exact h.ite (Tame.ite (h.withTeam _) (h.captureEnd _))
  · exact h
theorem Tame.execCandidateTest (h : Tame s₀ s) (core : Nat) (ws : List Word) : Yields (Tame s₀) (execCandidateTest core ws s) := by
  unfold Machine.execCandidateTest
  split
  · exact h
  dsimp only
  split
  · exact h
  refine Yields.ite h ?_
  split
  · exact h.modCore _ _
  · exact h.modCore _ _
theorem Tame.execHingeInstall (h : Tame s₀ s) (core launch e : Nat) (d : QWord) : Yields (Tame s₀) (execHingeInstall core launch e d s) := by
  unfold Machine.execHingeInstall
  dsimp only
  split
  · exact h
  refine Yields.ite h ?_
  split
  · exact h
  · exact Yields.ite ((h.focusCore _ _).withCore _) h
theorem Tame.putHinge (h : Tame s₀ s) (e : Nat) (x : Hinge) : Tame s₀ (s.putHinge e x) := h
theorem Tame.original (h : Tame s₀ s) : Tame s₀ s.original := h
theorem Tame.compare (h : Tame s₀ s) (e : Nat) (x : Hinge) (audit clean : Bool) : Tame s₀ (s.compare e x audit clean) := h
theorem Tame.substitute (h : Tame s₀ s) (e : Nat) (x : Hinge) (r : Region) {fire : Hinge → State → State} (hf : ∀ x t, Tame s₀ t → Tame s₀ (fire x t)) :
    Tame s₀ (s.substitute e x r fire) := (hf _ _ (h.putHinge e _)).withTeam _
theorem Tame.onProbation (h : Tame s₀ s) (r : Region) : Tame s₀ (s.onProbation r) := h
theorem Tame.execHingeDecision (h : Tame s₀ s) (t : Nat) : Yields (Tame s₀) (execHingeDecision t s) := by
  have hf := h.focus t
  unfold Machine.execHingeDecision
  dsimp only
  split
  · exact h
  refine Yields.ite h (Yields.ite hf.original ?_)
  split
  · refine Yields.ite hf.original (Yields.ite (hf.putHinge _ _).original (Yields.ite (Yields.ite (hf.original.onProbation _) ?_) ?_))
    · exact (hf.compare _ _ _ _).original.onProbation _
    · refine Yields.ite (hf.substitute _ _ _ fun _ _ ht => ht) (Yields.ite ((hf.putHinge _ _).withTeam _) ?_)
      exact hf.substitute _ _ _ fun _ _ ht => ht.compare _ _ _ _
  · exact (hf.putHinge _ _).original
theorem TameOption.getD {o : Option State} (ho : TameOption s₀ o) (h : Tame s₀ s) : Tame s₀ (o.getD s) := by
  cases o with
  | none => exact h
  | some t => exact ho t rfl
theorem Tame.escape (h : Tame s₀ s) (core e : Nat) (x : Hinge) : Tame s₀ (s.escape core e x) := by
  have hl := fun l b m r q => (h.putRec l b m r).withHub q
  have hr := fun l b m r q uid own base i ws o => ((hl l b m r q).recWords uid own base i ws).getD ((hl l b m r q).noteWalk uid o)
  refine Tame.ite (Tame.mapTeams ?_ _) (Tame.ite (Tame.failLaunch ?_ _ _ _ _ _ _) ?_) <;>
  exact Tame.modCore (Tame.ite (hr _ _ _ _ _ _ _ _ _ _ _) (hl _ _ _ _ _)) _ _
theorem Tame.execShadowComparison (h : Tame s₀ s) (core e : Nat) : Yields (Tame s₀) (execShadowComparison core e s) := by
  unfold Machine.execShadowComparison
  dsimp only
  split
  · exact h
  refine Yields.ite h (Yields.ite (h.modCore _ _) (Yields.ite (Yields.ite (h.modCore _ _) ?_) (Yields.ite (h.modCore _ _) (h.modCore _ _))))
  exact (h.modCore _ _).escape _ _ _

end Sys2Proof.Machine
end

