-- ==== Sys2Proof/Proofs/TameHost.lean ====
section
/-! SUPPORT. The events of the loader, of Helolo, of the host registers, of links and power, and the answers of Tumbler are tame. -/

namespace Sys2Proof.Machine

variable {s s₀ : State}

/-! ### The loader and Helolo (R61, R254 to R266) -/

theorem Tame.execCodeObjectLoad (h : Tame s₀ s) (name : ObjectName) (base phys : Nat) (file : ObjectFile) : Yields (Tame s₀) (execCodeObjectLoad name base phys file s) :=
  Yields.ite h (Tame.withHub (h.foldl fun _ _ ht => ht.homeWrite _ _ _ _ _) _)
theorem Tame.stopWhere (h : Tame s₀ s) (f : Team → Bool) (c : StopCause) : Tame s₀ (s.stopWhere f c) := (h.withSaved _).mapTeams _
theorem Tame.bpAction (h : Tame s₀ s) (e : Nat × BitVec 64) : Tame s₀ (s.bpAction e) := by
  have hf : Tame s₀ (if bpTrig e.2 then s.fireSnapshot else s) := h.fireSnapshot.ite h
  unfold State.bpAction
  dsimp only
  split
  · exact hf.withTeam _
  · exact hf.stopWhere _ _
  · exact hf.stopWhere _ _
  · exact hf.stopRecords _
theorem Tame.execBreakpointHit (h : Tame s₀ s) (t : Nat) : Yields (Tame s₀) (execBreakpointHit t s) :=
  Yields.ite h (Tame.withTeam ((h.focus t).foldl fun _ _ ht => ht.bpAction _) _)
theorem Tame.execDebugStopRequest (h : Tame s₀ s) (t : Nat) : Yields (Tame s₀) (execDebugStopRequest t s) := by
  unfold Machine.execDebugStopRequest
  split
  · exact h
  · exact Yields.ite h (h.setTeam _)
theorem Tame.execDebuggerResume (h : Tame s₀ s) (t : Nat) : Yields (Tame s₀) (execDebuggerResume t s) := by
  unfold Machine.execDebuggerResume
  split
  · exact h
  · exact Yields.ite h (h.setTeam _)
theorem Tame.execDebuggerAttach (h : Tame s₀ s) (l : Nat) : Yields (Tame s₀) (execDebuggerAttach l s) := by
  unfold Machine.execDebuggerAttach
  split
  · exact h
  · exact Yields.ite (h.setLaunch _) h
theorem Tame.execDebuggerDetach (h : Tame s₀ s) (l : Nat) : Yields (Tame s₀) (execDebuggerDetach l s) := h.modLaunch _ _
theorem Tame.execBufferDescriptorWrite (h : Tame s₀ s) (b : BufRef) (d : QWord) : Yields (Tame s₀) (execBufferDescriptorWrite b d s) := by
  cases b
  · exact Yields.ite h (h.withHub _)
  · exact h.modLaunch _ _
  · exact h.modLaunch _ _
  · exact h.withHub _
theorem Tame.execWatchEntryWrite (h : Tame s₀ s) (launch k : Nat) (d : QWord) : Yields (Tame s₀) (execWatchEntryWrite launch k d s) :=
  Yields.ite h (h.modLaunch _ _)
theorem Tame.execSnapshotTrigger (h : Tame s₀ s) : Yields (Tame s₀) (execSnapshotTrigger s) := h.fireSnapshot
theorem Tame.execSnapshotArmWrite (h : Tame s₀ s) (arm done : Bool) : Yields (Tame s₀) (execSnapshotArmWrite arm done s) := h.withHub _
theorem Tame.execSnapshotLatch (h : Tame s₀ s) : Yields (Tame s₀) (execSnapshotLatch s) := by
  unfold Machine.execSnapshotLatch
  split
  · exact h
  · refine Tame.withHub (Tame.foldl (Tame.foldl h ?_) ?_) _
    · exact fun _ _ ht => ht.modBlk _ _
    · exact fun _ _ ht => ht.debugRec _ _
theorem Tame.latchNow (h : Tame s₀ s) : Tame s₀ s.latchNow := h.stateAfter h.execSnapshotLatch

/-! ### Host registers and links (R280 to R287) -/

theorem Tame.execTqinWrite (h : Tame s₀ s) (q : Nat) (payload : BitVec 26) : Yields (Tame s₀) (execTqinWrite q payload s) :=
  Yields.ite h (Yields.ite (h.addToken _ _).wakeAll (h.modQueue _ _))
theorem Tame.execTqtakeRead (h : Tame s₀ s) (q : Nat) : Yields (Tame s₀) (execTqtakeRead q s) := by
  unfold Machine.execTqtakeRead
  dsimp only
  split
  · exact h.withHub _
  · exact ((h.modQueue _ _).withHub _).wakeAll
theorem Tame.modLink (h : Tame s₀ s) (k : Nat) (f : Link → Link) : Tame s₀ (s.modLink k f) := h.frame
theorem Tame.raise (h : Tame s₀ s) (v : Nat) : Tame s₀ (s.raise v) := h
theorem Tame.loseStore (h : Tame s₀ s) (c : Carried) : Tame s₀ (s.loseStore c) := by
  unfold State.loseStore
  split
  · exact h
  split
  · exact h
  split
  · exact h
  · exact h.failLaunch _ _ _ _ _ _
theorem Tame.linkFalls (h : Tame s₀ s) (k : Nat) : Tame s₀ (s.linkFalls k) := ((h.modLink _ _).raise _).foldl fun _ _ ht => ht.loseStore _
theorem Tame.retrain (h : Tame s₀ s) (k : Nat) : Tame s₀ (s.retrain k) := Tame.modLink ((h.linkFalls _).ite h) _ _
theorem Tame.execRegisterWrite (h : Tame s₀ s) (r : BarReg) (v : QWord) : Yields (Tame s₀) (execRegisterWrite r v s) := by
  cases r with
  | cqbase q => exact Yields.ite h (h.withHub _)
  | cqsize q => exact Yields.ite h (h.withHub _)
  | tqstat q => exact Yields.ite h (h.modQueue _ _)
  | frqh => exact Yields.ite h (h.withHub _)
  | evlane k lane => exact h.modLink _ _
  | evlink k => exact Tame.ite ((h.modLink _ _).retrain _) (h.modLink _ _)
  | evwarn => exact h
  | fluxlim => exact h
  | dieCap d => exact Yields.ite h (h.modDie _ _)
  | levelCap k => exact Yields.ite h (h.modCluster _ _)
  | partition k => exact Yields.ite h h.frame
  | pwrstat => exact h
  | breakpointEntry l k => exact Yields.ite h (h.modLaunch _ _)
  | bootFloor => exact Yields.ite h h.frame
  | inputRange k => exact Yields.ite h (h.withHub _)
  | ideStream => exact h
theorem Tame.execIllegalWord (h : Tame s₀ s) (w : Word) : Yields (Tame s₀) (execIllegalWord w s) := Yields.ite ((h.withTeam _).finish _) ((h.withTeam _).illegal _ _)
theorem Tame.execRetrain (h : Tame s₀ s) (k : Nat) : Yields (Tame s₀) (execRetrain k s) := (h.retrain _).ite h
theorem Tame.execRecoveryComplete (h : Tame s₀ s) (k : Nat) : Yields (Tame s₀) (execRecoveryComplete k s) := by
  unfold Machine.execRecoveryComplete
  dsimp only
  split
  · exact h
  · exact Yields.ite h (Yields.ite ((h.modLink _ _).linkFalls _) (Tame.ite ((h.modLink _ _).raise _) (h.modLink _ _)))
theorem Tame.execTelemetryRefresh (h : Tame s₀ s) (k : Nat) (r : LinkReading) : Yields (Tame s₀) (execTelemetryRefresh k r s) :=
  Yields.ite h (Tame.ite ((h.modLink _ _).raise _) (h.modLink _ _))

/-! ### Power (R288 to R295) -/

theorem Tame.cutAll (h : Tame s₀ s) (d : Nat) (ks : List Nat) : Tame s₀ (s.cutAll d ks) := by
  induction ks generalizing s with
  | nil => exact h
  | cons k ks ih =>
    refine ih ?_
    dsimp only
    split
    · exact (h.modCluster _ _).modDie _ _
    · exact h.modCluster _ _
theorem Tame.undo (h : Tame s₀ s) (d : Nat) : Tame s₀ (s.undo d) := by
  unfold State.undo
  split
  · exact (h.modCluster _ _).modDie _ _
  · exact (h.modCluster _ _).modDie _ _
  · exact h.foldl fun _ _ ht => ht.modCluster _ _
theorem Tame.capStatus (h : Tame s₀ s) : Tame s₀ s.capStatus := by
  unfold State.capStatus
  extract_lets low breach p t u
  have ht : Tame s₀ t := h
  have hu : Tame s₀ u := (ht.raise _).ite ht
  exact (hu.raise _).ite hu
theorem Tame.latchLevels (h : Tame s₀ s) (d : Nat) : Tame s₀ (s.latchLevels d) := (h.mapTeams _).foldS fun _ _ ht => ht.modCluster _ _
theorem Tame.relevelDie (h : Tame s₀ s) (d : Nat) : Tame s₀ (s.relevelDie d) := (h.latchLevels _).foldS fun _ _ ht => ht.relevel _
theorem Tame.control (h : Tame s₀ s) (d : Nat) (r : DieReading) (hot : Bool) : Tame s₀ (s.control d r hot) := (h.cutAll _ _).ite ((h.undo _).ite h)
theorem Tame.execControllerEvaluation (h : Tame s₀ s) (d : Nat) (r : DieReading) : Yields (Tame s₀) (execControllerEvaluation d r s) :=
  Yields.ite h (((h.capStatus.modDie _ _).control _ _ _).relevelDie _)
theorem Tame.execBudgetInterval (h : Tame s₀ s) : Yields (Tame s₀) (execBudgetInterval s) := h.mapClusters _
theorem Tame.railStep (h : Tame s₀ s) (d : Nat) : Tame s₀ (s.railStep d) := h.modDie _ _
theorem Tame.generatorLock (h : Tame s₀ s) (k : Nat) : Tame s₀ (s.generatorLock k) := h.modCluster _ _
theorem Tame.rebias (h : Tame s₀ s) (d : Nat) : Tame s₀ (s.rebias d) := h.foldS fun _ _ ht => ht.modCluster _ _
theorem Tame.execClockSwitch (h : Tame s₀ s) (k : Nat) : Yields (Tame s₀) (execClockSwitch k s) := by
  unfold Machine.execClockSwitch
  dsimp only
  split
  · exact Yields.ite h ((h.modCluster _ _).rebias _)
  · exact h

/-! ### Tumbler's answers (R275) -/

theorem Tame.reply (h : Tame s₀ s) (r : Reply) : Tame s₀ (s.reply r) := h
theorem Tame.secured {t : State} (h : Tame s₀ s) (ht : Tame s₀ t) (session : Nat) : Yields (Tame s₀) (s.secured session t) :=
  Yields.ite (h.reply _) (ht.reply _)
theorem Tame.modIde (h : Tame s₀ s) (dir sub : Nat) (f : IdeKey → IdeKey) : Tame s₀ (s.modIde dir sub f) := h
theorem Tame.ideMessage {t : State} (h : Tame s₀ s) (ht : Tame s₀ t) (port : IdePort) (dir : Nat) (ok : Bool) : Yields (Tame s₀) (s.ideMessage port dir ok t) :=
  Yields.ite (h.reply _) (h.secured ht _)
theorem Tame.execKeyExchange (h : Tame s₀ s) (session world : Nat) : Yields (Tame s₀) (execKeyExchange session world s) :=
  Yields.ite (h.reply _) (Yields.ite (h.reply _) h)
theorem Tame.execFinish (h : Tame s₀ s) (session : Nat) (valid : Bool) : Yields (Tame s₀) (execFinish session valid s) :=
  Yields.ite (h.reply _) h

end Sys2Proof.Machine
end

