-- ==== Sys2Proof/Proofs/TameExec.lean ====
section
/-! SUPPORT. The meaning of every instruction: it answers a next state or stops at a physical hole, and the next state is tame unless the instruction is one of the events that own the guarded state; those keep the form of memory. -/

namespace Sys2Proof.Machine

variable {s s₀ : State}

/-! ### The events that own what `Tame` guards (R269 to R277, R293) -/

/-- The events that may change a page's owner, a world, a measurement, the unlocked state or the package cap. -/
def ownsGuarded : Instr → Bool
  | .pcapWrite .. | .createWorld .. | .destroyWorld .. | .debugUnlock .. | .pageOwnerChange .. | .extend .. | .packageReset => true
  | _ => false

/-- A page under a changed key keeps the canonical form (R272). -/
theorem PkgMem.stalePage_wf {m : PkgMem} (h : m.bytes.wf = true) (n page : Nat) : (m.stalePage n page).bytes.wf = true := by
  simp only [PkgMem.stalePage]
  exact mem_writeBytes_wf _ _ h

theorem State.memOk_staleWorld (h : s.memOk) (w : Nat) : (s.staleWorld w).memOk :=
  State.memOk_modPm h _ fun _ hm => foldl_keeps (P := fun m : PkgMem => m.bytes.wf = true) (fun _ _ hb => PkgMem.stalePage_wf hb _ _) _ _ hm

theorem State.memOk_zeroPage (h : s.memOk) (page : Nat) : (s.zeroPage page).memOk :=
  State.memOk_mapTeams (State.memOk_modPm h s.pkg (f := fun m => { m with
    bytes := m.bytes.filter fun e => e.1 / 65536 != page, poison := m.poison.filter fun e => e.1 / 65536 != page }) fun _ hm => filter_wf _ hm) _

theorem Tame.hideWorld (h : Tame s₀ s) (w : Nat) : Tame s₀ (s.hideWorld w) := Tame.foldS ((h.withSaved _).mapTeams _) fun _ _ ht => ht.modLaunch _ _
theorem Tame.landOnPage (h : Tame s₀ s) (page : Nat) : Tame s₀ (s.landOnPage page) :=
  Tame.refocus (h.foldl fun _ _ ht => (ht.focus _).landStores)
theorem Tame.viewsOffPage (h : Tame s₀ s) (page : Nat) : Tame s₀ (s.viewsOffPage page) := by
  refine Tame.mapClusters (Tame.mapCores (Tame.foldl (Tame.foldl h ?_) ?_) _) _
  · exact fun _ _ ht => ht.coreDown _ _
  · exact fun _ _ ht => ht.clusDown _ _

/-- The two states' memories keep their form alike. -/
def KeepsForm (s t : State) : Prop := s.memOk → t.memOk

theorem execCreateWorld_keepsForm (w : Nat) (prot : Bool) (n : Nat) : Yields (KeepsForm s) (execCreateWorld w prot n s) := by
  refine Yields.ite id (Yields.ite id (Yields.ite id fun h => State.memOk_staleWorld ?_ w))
  dsimp only
  split
  · exact ((Tame.refl _).hideWorld w).1 h
  · exact h
theorem execDestroyWorld_keepsForm (w n : Nat) : Yields (KeepsForm s) (execDestroyWorld w n s) :=
  Yields.ite id (Yields.ite id fun h => State.memOk_staleWorld h w)
/-- A page whose entry changes is zeroed, or reads free values, or keeps its bytes (R271, R272). -/
theorem State.memOk_rewritePage (h : s.memOk) (page : Nat) (leaves rekeyed : Bool) :
    (if leaves then s.zeroPage page else if rekeyed then s.modPm s.pkg fun m => m.stalePage s.freeCount page else s).memOk := by
  split
  · exact State.memOk_zeroPage h page
  split
  · exact State.memOk_modPm h _ fun _ hm => PkgMem.stalePage_wf hm _ _
  · exact h
theorem execPageOwnerChange_keepsForm (page : Nat) (e : BitVec 16) (n : Nat) : Yields (KeepsForm s) (execPageOwnerChange page e n s) := by
  have hv := fun f g => ((((Tame.refl s).mapCores f).mapClusters g).landOnPage page).viewsOffPage page
  refine Yields.ite id (Yields.ite id fun h => ((Tame.refl _).reply _).1 (State.memOk_rewritePage ?_ _ _ _))
  exact State.memOk_modPm ((hv _ _).1 h) _ fun _ hm => hm
theorem execExtend_keepsForm (port : MrPort) (d : BitVec 512) : Yields (KeepsForm s) (execExtend port d s) := by
  unfold execExtend
  split
  · exact fun h => State.memOk_of_eq h (by simp) (by simp)
  · exact id
theorem execPackageReset_keepsForm : Yields (KeepsForm s) (execPackageReset s) := fun h =>
  State.memOk_modPm (s := { State.reset with mem := s.mem, hostMem := s.hostMem }) h s.pkg (f := fun _ => { integrity := s.integrityNext }) fun _ _ => rfl

/-- An event that owns guarded state keeps the form of memory. -/
theorem exec_owner_keepsForm {i : Instr} (hi : ownsGuarded i = true) : Yields (KeepsForm s) (exec i s) := by
  cases i with
  | pcapWrite => exact id
  | createWorld => exact execCreateWorld_keepsForm _ _ _
  | destroyWorld => exact execDestroyWorld_keepsForm _ _
  | debugUnlock => exact Yields.ite id fun h => State.memOk_of_eq h rfl rfl
  | pageOwnerChange => exact execPageOwnerChange_keepsForm _ _ _
  | extend => exact execExtend_keepsForm _ _
  | packageReset => exact execPackageReset_keepsForm
  | _ => exact (Bool.false_ne_true hi).elim

/-! ### Every instruction -/

/-- Every word, and every event that owns no guarded state, is tame. -/
theorem exec_tame (h : Tame s₀ s) {i : Instr} (hi : ownsGuarded i = false) : Yields (Tame s₀) (exec i s) := by
  cases i with
  | exit => exact h.execExit
  | brkpt => exact h.execBrkpt _
  | add | sub | and | or | xor | andn | minSgn | maxSgn | minUns | maxUns | shl | shr | sra | rot | mov | mulLo | mulHiSgn | mulHiUns | mad | bfx |
    bfi | clz | popc | brev | not | absI32 | absI16x2 | absI8x4 | negI32 | negI16x2 | negI8x4 | addI16x2 | addI8x4 | subI16x2 | subI8x4 | minI16x2 |
    maxI16x2 | minI8x4 | maxI8x4 | addImm | andImm | orImm | xorImm | shlImm | shrImm | sraImm | rotImm | li | lih | cmp | cmpImm | sel | fadd | fsub
    | fmul | fmin | fmax | fabs | fneg | faddPacked | fsubPacked | fmulPacked | fminPacked | fmaxPacked | fabsPacked | fnegPacked | ffmaPacked | ffma
    | fcmp | cvt => exact h.execAlu _
  | pand => exact h.execPand _ _ _
  | por => exact h.execPor _ _ _
  | pxor => exact h.execPxor _ _ _
  | pnot => exact h.execPnot _ _
  | movs => exact h.execMovs _ _ _
  | rdl => exact h.execRdl _ _ _
  | frcp | frsq | fsqrt | fexp2 | flog2 | fsin | fcos => exact h.execTrans _ _ _ _ _
  | vote => exact h.execVote _ _ _
  | shfl => exact h.execShfl _ _ _ _
  | red => exact h.execRed _ _ _ _
  | scan => exact h.execScan _ _ _ _ _
  | matchKey => exact h.execMatchKey _ _ _ _
  | bind => exact h.execBind _
  | ladd => exact h.execLadd _ _ _
  | lsub => exact h.execLsub _ _ _
  | lneg => exact h.execLneg _ _
  | lcmp => exact h.execLcmp _ _
  | lshl => exact h.execLshl _ _ _
  | lshr => exact h.execLshr _ _ _
  | lmul => exact h.execLmul _ _ _
  | lmulAddend => exact h.execLmulAddend _ _ _
  | wbase => exact h.execWbase _ _
  | br => exact h.finishAt _ _
  | brc => exact h.execBrc _ _
  | call => exact h.execCall _
  | ret | jmp => exact h.jumpTo _
  | ifp => exact h.execIfp _ _
  | elsep => exact h.execElsep _
  | endif => exact h.execEndif
  | loopBeg => exact h.execLoopBeg
  | loopEnd => exact h.execLoopEnd _
  | brk | cont => exact h.leaveLoop _ _
  | ldB32 | ldB8 | ldB64 | ldB16 | ldB128 | ldI8 | ldI16 => exact h.execLoad _ _ _ _ _ _
  | stB32 | stB64 | stB128 | stB8 | stB16 => exact h.execStore _ _ _ _ _
  | tld => exact h.execTld _ _ _ _
  | pf => exact h.execPf _ _ _
  | lrB32 | lrB64 => exact h.execLr _ _ _ _ _
  | scB32 | scB64 => exact h.execSc _ _ _ _ _
  | atom => exact h.execAtom _ _ _ _ _ _
  | monArm => exact h.execMonArm _ _ _ _
  | phase => exact h.execPhase _
  | wait => exact h.execWait _ _
  | rdcnt => exact h.execRdcnt _ _
  | latInit => exact h.execLatInit _ _
  | latArr => exact h.execLatArr _
  | latWait => exact h.execLatWait _ _
  | latArw => exact h.execLatArw _
  | latGen => exact h.execLatGen _ _
  | fork => exact h.execFork _
  | join => exact h.execJoin _
  | cp => exact h.execCp _ _ _
  | mxPrec | mxLdb | mxMm | mxSt | mxZero => exact h.streamMx _ _ _
  | mxPost => exact h.execMxPost _ _ _ _
  | qSig => exact h.execQSig _ _
  | qWait c => exact h.execQWait c _
  | perfSet => exact h.execPerfSet _
  | mfsr => exact h.execMfsr _ _
  | mtsr => exact h.execMtsr _ _
  | trap => exact h.takeTrap _
  | hngSet => exact h.execHngSet _ _
  | hngClr => exact h.execHngClr _
  | hngRd => exact h.execHngRd _ _
  | tlbInv => exact h.execTlbInv _ _
  | cqtailWrite => exact h.execCqtailWrite _ _
  | blockPlacement => exact h.execBlockPlacement _
  | teamEnd => exact h.execTeamEnd _
  | blockEnd => exact h.execBlockEnd _
  | launchEnd => exact h.execLaunchEnd _
  | launchFailure => exact h.failLaunch _ _ _ _ _ _
  | uncorrectableStateError t p => exact h.execUncorrectableStateError t p
  | loadDataReturn | storeCompletion | atomicCompletion | tldCompletion | pfCompletion | transcendentalResult => exact h.complete _ _ _ _
  | fairnessSwitch => exact h.execFairnessSwitch _
  | deferredFairnessSwitch => exact h.execDeferredFairnessSwitch _
  | passedLift => exact h.execPassedLift _
  | schedulerSample => exact h.execSchedulerSample _ _
  | trapEntry => exact h.execTrapEntry _
  | stopRequest => exact h.execStopRequest _ _
  | teamStop => exact h.execTeamStop _
  | contextSave => exact h.execContextSave _
  | contextRestore => exact h.execContextRestore _ _
  | mxPrecCommand => exact h.execMxPrecCommand _
  | mxLdbCommand => exact h.execMxLdbCommand _
  | mxMmCommand => exact h.execMxMmCommand _
  | mxStCommand => exact h.execMxStCommand _
  | mxZeroCommand => exact h.execMxZeroCommand _
  | matrixCommandCompletion => exact h.execMatrixCommandCompletion _
  | streamEnd => exact h.execStreamEnd _ _
  | copyStart => exact h.execCopyStart _ _
  | copyCompletion => exact h.execCopyCompletion _
  | codeObjectLoad => exact h.execCodeObjectLoad _ _ _ _
  | captureArm => exact h.execCaptureArm _ _ _
  | capture => exact h.execCapture _
  | candidateTest => exact h.execCandidateTest _ _
  | hingeInstall => exact h.execHingeInstall _ _ _ _
  | hingeDecision => exact h.execHingeDecision _
  | shadowComparison => exact h.execShadowComparison _ _
  | breakpointHit => exact h.execBreakpointHit _
  | debugStopRequest => exact h.execDebugStopRequest _
  | debuggerResume => exact h.execDebuggerResume _
  | bufferDescriptorWrite => exact h.execBufferDescriptorWrite _ _
  | watchEntryWrite => exact h.execWatchEntryWrite _ _ _
  | snapshotArmWrite => exact h.execSnapshotArmWrite _ _
  | tqinWrite => exact h.execTqinWrite _ _
  | tqtakeRead => exact h.execTqtakeRead _
  | pcapWrite | createWorld | destroyWorld | debugUnlock | pageOwnerChange | extend | packageReset => exact Bool.noConfusion hi
  | registerWrite => exact h.execRegisterWrite _ _
  | retrain => exact h.execRetrain _
  | retrainComplete | dataPacket | ack | nak | pause | resume | ackTimer | replayTimeout | laneFailure | recovery => exact h.modLink _ _
  | recoveryComplete => exact h.execRecoveryComplete _
  | telemetryRefresh => exact h.execTelemetryRefresh _ _
  | powerTelemetry => exact h
  | controllerEvaluation => exact h.execControllerEvaluation _ _
  | clockSwitch => exact h.execClockSwitch _
  | negotiateAlgorithms | getCertificate | challenge | getMeasurements | unsupportedRequest | getVersion | getCapabilities | getDigests
    => exact h.reply _
  | keyExchange => exact h.execKeyExchange _ _
  | finish => exact h.execFinish _ _
  | query => exact h.secured h _
  | keyProg | kSetGo | kSetStop => exact h.ideMessage (h.modIde _ _ _) _ _ _
  | illegalWord => exact h.execIllegalWord _
  | debuggerAttach => exact h.execDebuggerAttach _
  | debuggerDetach => exact h.execDebuggerDetach _
  | nop => exact h.finish _
  | yield => exact h.execYield
  | unbind => exact h.execUnbind
  | monWait => exact h.execMonWait
  | eret => exact h.execEret
  | launchDescriptorCheck => exact h.execLaunchDescriptorCheck
  | snapshotTrigger => exact h.execSnapshotTrigger
  | snapshotLatch => exact h.execSnapshotLatch
  | budgetInterval => exact h.execBudgetInterval

/-- Every instruction keeps the form of memory. -/
theorem exec_keepsForm (i : Instr) (s : State) : Yields (KeepsForm s) (exec i s) := by
  cases hi : ownsGuarded i
  · exact (exec_tame (Tame.refl s) hi).mono fun _ ht => ht.1
  · exact exec_owner_keepsForm hi

end Sys2Proof.Machine
end

