-- ==== Sys2Proof/Proofs/TameStep.lean ====
section
/-! SUPPORT. What the machine does beside its instructions is tame: fetch and the front-end (R20 to R23), the agenda's choices, and what follows every step. A property that every tame change and every instruction keeps, every step keeps. -/

namespace Sys2Proof.Machine

variable {s s₀ : State}

/-! ### Fetch (R20 to R23) -/

theorem Tame.fetchAt (h : Tame s₀ s) (pc : Nat) : Tame s₀ (s.fetchAt pc) := Tame.readText (Tame.ite (h.withCore _) h) _
theorem Tame.fetchFill (h : Tame s₀ s) : Tame s₀ s.fetchFill := (h.fetchAt _).ite h
theorem Tame.takeAhead (h : Tame s₀ s) : Tame s₀ s.takeAhead := by
  unfold State.takeAhead
  split
  · exact h
  · exact (h.fetchAt _).withTeam _
theorem Tame.beginWord (h : Tame s₀ s) (i : Instr) : Tame s₀ (s.beginWord i) := h
theorem Tame.noFetch (h : Tame s₀ s) (e : MemErr) : Yields (Tame s₀) (s.noFetch e) := h.memTrap _ _ _

/-! ### The agenda's choices (log 1) -/

theorem Tame.moveForward (h : Tame s₀ s) (core line : Nat) : Tame s₀ (s.moveForward core line) := by
  unfold State.moveForward
  extract_lets k m t
  have ht : Tame s₀ t := by
    unfold t
    split
    · exact h
    · exact h.modCluster _ _
  split
  · exact ht
  · exact (Tame.ite (ht.modCluster _ _) ht).modCore _ _
theorem Tame.corrupt (h : Tame s₀ s) (phys place : Nat) : Tame s₀ (s.corrupt phys place) :=
  h.ite (h.modPm _ (fun _ hm => hm) fun _ => rfl)
theorem Tame.corruptText (h : Tame s₀ s) (core line : Nat) : Tame s₀ (s.corruptText core line) := h.modCore _ _
theorem Tame.corruptHinge (h : Tame s₀ s) (core entry : Nat) : Tame s₀ (s.corruptHinge core entry) := by
  unfold State.corruptHinge
  split
  · exact h
  dsimp only
  split
  · exact h
  · exact (((h.focusCore _ _).readHinge _ _).putHinge _ _).refocus
/-- The host writes its own memory: reservations of its lines end (R197). -/
theorem Tame.hostWrite (h : Tame s₀ s) (a : Nat) (bs : List Byte) : Tame s₀ (s.doAct (.hostWrite a bs)) :=
  have hw : Tame s₀ { s with hostMem := s.hostMem.writeBytes a bs } := h.mem (fun k => State.memOk_hostMem k a bs) (fun _ => rfl) rfl
  hw.foldl fun _ _ ht => ht.mapTeams _
theorem Tame.remoteWrite (h : Tame s₀ s) (a : Nat) (bs : List Byte) : Tame s₀ (s.doAct (.remoteWrite a bs)) :=
  h.ite (h.foldl fun _ _ ht => (ht.homeWrite _ _ _ _ _).ite ht)
theorem Tame.doAct (h : Tame s₀ s) (a : Act) : Tame s₀ (s.doAct a) := by
  cases a with
  | event | turn | front | integrityStrap => exact h
  | writeDownCore => exact h.ite (h.coreDown _ _)
  | writeDownCluster => exact h.clusDown _ _
  | moveForward => exact h.moveForward _ _
  | evict => exact h.modCore _ _
  | evictCluster => exact h.modCluster _ _
  | hostInvalidate => exact (h.mapCores _).mapClusters _
  | corrupt => exact h.corrupt _ _
  | corruptSpad => exact h.modBlk _ _
  | corruptText => exact h.corruptText _ _
  | corruptHinge => exact h.corruptHinge _ _
  | hostWrite => exact h.hostWrite _ _
  | remoteWrite => exact h.remoteWrite _ _
  | linkSend | linkDrain => exact h.modLink _ _
  | corrected => exact h.ite (h.modDie _ _)
  | lostAccess => exact Tame.ite h h
  | generatorLock => exact h.ite (h.generatorLock _)
  | railStep => exact h.ite (h.railStep _)

/-! ### What follows a step -/

theorem Tame.candNext (h : Tame s₀ s) : Tame s₀ s.candNext := by
  unfold State.candNext
  split
  · exact h
  · split
    · exact h.withTeam _
    · exact h.withTeam _
theorem Tame.owedPass (h : Tame s₀ s) : Tame s₀ s.owedPass := h.issuePass.candNext.ite h.issuePass
theorem Tame.serve (h : Tame s₀ s) (u : Nat) : Tame s₀ (s.serve u) := h
theorem Tame.rotate (h : Tame s₀ s) : Tame s₀ s.rotate := by
  obtain e | ⟨u, e | ⟨k, e⟩⟩ := rotate_cases s
  · rwa [e]
  · rw [e]; exact h.serve u
  · rw [e]; exact (h.focus k).serve u
theorem Tame.advance (h : Tame s₀ s) (auto : Bool) : Tame s₀ (s.advance auto) := h
theorem Tame.dropLink (h : Tame s₀ s) : Tame s₀ s.dropLink := by
  unfold State.dropLink
  split
  · next x _ =>
    have hx : Tame s₀ { s with xLost := none } := h
    exact hx.modLink _ _
  · exact h
theorem Tame.background (h : Tame s₀ s) : Tame s₀ s.background := h.postOne.foldS fun _ _ ht => ht.raceOne _
theorem Tame.tail (h : Tame s₀ s) (auto : Bool) : Tame s₀ (s.tail auto) :=
  (h.engines.advance auto).latchNow.dropLink.background.wakeAll.rotate
theorem Tame.pass (h : Tame s₀ s) : Tame s₀ s.pass := (h.advance false).latchNow.wakeAll

/-! ### Every step -/

section
variable {P : State → Prop} (hP : ∀ s t, Tame s t → P s → P t)
include hP

theorem yields_after {o : Out} (h : Yields P o) (auto : Bool) : Yields P (after auto o) := by
  cases o with
  | next s => exact hP s _ ((Tame.refl s).tail auto) h
  | fault => trivial
  | refused => exact h
theorem yields_afterWord {o : Out} (h : Yields P o) (cand : Option CandRun) : Yields P (afterWord cand o) := by
  cases o with
  | next s => exact hP s _ (Tame.ite ((Tame.refl s).candNext.tail false) ((Tame.refl s).tail false)) h
  | fault => trivial
  | refused => exact h
theorem yields_captured {o : Out} (h : Yields P o) (pre : Team) (i : Instr) : Yields P (captured pre i o) := by
  cases o with
  | next s => exact hP s _ ((Tame.refl s).captureWord pre i) h
  | fault => trivial
  | refused => exact h

variable (he : ∀ i s, P s → Yields P (exec i s))
include he

theorem yields_turn (h : P s) : Yields P (turn s) := by
  have hs : ∀ t, Tame s t → P t := fun t ht => hP s t ht h
  unfold turn
  split
  case h_1 i _ => exact yields_after hP (he i s h) true
  case h_2 => exact hs _ ((Tame.refl s).owedPass.tail false)
  case h_3 => exact hs _ ((Tame.refl s).takeAhead.tail false)
  case h_4 i _ => exact yields_afterWord hP (he i _ (hs _ (((Tame.refl s).beginWord i).ite (Tame.refl s)))) _
  case h_5 i _ => exact yields_after hP (yields_captured hP (he i _ (hs _ ((Tame.refl s).fetchFill.beginWord i))) _ _) false
  case h_6 e _ => exact yields_after hP (((Tame.refl s).fetchFill.noFetch e).mono hs) false
  case h_7 => exact hs _ ((Tame.refl s).tail false)
/-- What every tame change and every instruction keeps, every step keeps. -/
theorem yields_step (h : P s) : Yields P (step s) := by
  have hs : ∀ t, Tame s t → P t := fun t ht => hP s t ht h
  have ha : ∀ r, Tame s { s with agenda := r } := fun _ => Tame.refl s
  unfold step
  split
  case h_1 => exact yields_turn hP he h
  case h_2 i r _ => exact Yields.ite (yields_after hP (he i _ (hs _ (ha r))) true) (hs _ (ha r).pass)
  case h_3 k r _ => exact Yields.ite (yields_turn hP he (hs _ (((ha r).focus k).serve _))) (hs _ (ha r).pass)
  case h_4 core r _ =>
    dsimp only
    split
    · exact yields_turn hP he (hs _ (((ha r).focus _).serve _))
    · exact hs _ (ha r).pass
  case h_5 a r _ _ _ _ => exact hs _ ((ha r).doAct a).pass
end

end Sys2Proof.Machine
end
section
/-! PROOFS. The form of memory, and that every instruction answers. -/

namespace Sys2Proof.Machine

/-- Settles O58: a tame change keeps the form of memory, and so does every instruction. -/
theorem stepKeepsMemoryForm : Obligations.StepKeepsMemoryForm := by
  unfold Obligations.StepKeepsMemoryForm
  intro s t hs ht
  have h : Yields State.memOk (step s) :=
    yields_step (fun _ _ hst => hst.1) (fun i s h => (exec_keepsForm i s).mono fun _ hk => hk h) hs
  rw [ht] at h
  exact h

/-- Settles O56: no instruction is refused, and the only fault is the physical hole. -/
theorem everyInstructionRuns : Obligations.EveryInstructionRuns := by
  unfold Obligations.EveryInstructionRuns
  intro i s
  have h := exec_keepsForm i s
  cases e : exec i s with
  | next t => exact .inl ⟨t, rfl⟩
  | fault f => cases f; exact .inr rfl
  | refused r => rw [e] at h; exact h.elim

end Sys2Proof.Machine
end

