-- ==== Sys2Proof/Proofs/ReserveWords.lean ====
section
/-! PROOFS. `sc` where a buffered translation is not aligned to its page: an aligned access then spans two lines, and its store ends reservations of the second line, which the statement does not count among those that a lower thread's store ends. -/

namespace Sys2Proof.Machine

/-- A buffered leaf whose base lies two bytes behind a page boundary. No walk gives one (R226), but the statement ranges over every state of the buffer. -/
def skewedLeaf : TlbEntry :=
  { root := 0, base := 2, big := false, frame := 0, rowlen := 0, efmt := 0, geo := false, alias_ := false, sa := 0, x := false, w := true, rd := true }

/-- Two threads that point at offsets 64 and 68, which the leaf places at bytes 62 and 66: thread 0 reserves line 0 and thread 1 line 1, and the word of thread 0 spans both lines. -/
def skewedState : State :=
  { team := { threads := 2, regs := 8, blkKey := 1, v := [(0, [(2, 64)]), (1, [(2, 68)])], resv := [(0, some (.home 0 0)), (1, some (.home 0 1))] },
    blk := { key := 1, launchUid := 1 }, launch := { uid := 1 }, core := { tlb := [skewedLeaf] } }

theorem allPass_skewedState : Claim.allPass skewedState .sc 4 false (.v 2) false 0 := by
  intro t ht
  have h : ∀ t ∈ Claim.accessors skewedState false, (skewedState.check .sc 4 true false t (Claim.pointerOf skewedState (.v 2) 0 t)).isOk = true := by decide
  have hk := h t ht
  cases e : skewedState.check .sc 4 true false t (Claim.pointerOf skewedState (.v 2) 0 t) with
  | ok g => exact ⟨g, e⟩
  | error m => rw [e] at hk; cases hk

/-- The store of thread 0 into its second line ends the reservation of thread 1, which answers 1. -/
theorem execScB32_skewedState : ∃ t, exec (.scB32 (.v 4) (.v 2) 0 0) skewedState = .next t ∧ t.team.flush.rdV 1 4 = 1 := by
  have h : ∃ u cyc, exec (.scB32 (.v 4) (.v 2) 0 0) skewedState = .next ((u : State).wakeAll.finishEach cyc) ∧ u.team.parked = none ∧ u.teams = [] ∧
      (u.finishEach cyc).team.flush.rdV 1 4 = 1 :=
    ⟨_, _, rfl, by decide, by decide, by decide⟩
  obtain ⟨u, cyc, he, hp, ht, hv⟩ := h
  have ha : u.awake := State.awake_of hp (by simp [ht])
  exact ⟨_, he, by rwa [State.wakeAll_awake ha]⟩

/-- The reservation of thread 1 stands, and no lower thread holds one of its line. -/
theorem wins_skewedState :
    let as := Claim.accessesOf skewedState .sc 4 false (.v 2) false 0
    let s1 := skewedState.bringDown as (fun _ => .home) 4
    let holds := fun (x : Acc) => s1.team.resvOf false x.t = some (skewedState.lineRef x.g)
    ∃ x ∈ as, x.t = 1 ∧ holds x ∧ ∀ y ∈ as, y.t < x.t → holds y → skewedState.lineRef y.g ≠ skewedState.lineRef x.g := by
  decide

/-- Refutes O27: in `skewedState` thread 1 of an `sc` holds its reservation and no lower thread holds one of its line, but the store of thread 0 spans into that line and ends it. -/
theorem not_reserveWords : ¬ Obligations.ReserveWords := by
  unfold Obligations.ReserveWords
  rintro ⟨-, -, hsc, -⟩
  have hset : skewedState.settled := ⟨⟨rfl, rfl⟩, fun _ hm => (List.not_mem_nil hm).elim, rfl⟩
  have hplaced : Claim.Placed skewedState := ⟨by decide, by decide, rfl, rfl, rfl, fun _ hm => (List.not_mem_nil hm).elim⟩
  have hwaits : ¬ Claim.waitsForLink skewedState (.v 2) false 0 := by
    rintro ⟨-, -, t, ht, p, hp, -⟩
    have hnear : ∀ t ∈ Claim.accessors skewedState false, skewedState.farPkg (Claim.pointerOf skewedState (.v 2) 0 t) = none := by decide
    rw [hnear t ht] at hp
    cases hp
  have hlinked : ∀ x ∈ Claim.accessesOf skewedState .sc 4 false (.v 2) false 0, x.g.space = 5 → skewedState.xDead x.t = false := fun _ _ _ => rfl
  obtain ⟨-, hrun⟩ := hsc (.v 4) (.v 2) 0 0 skewedState (by decide) rfl (by decide) hset ⟨rfl, rfl, rfl⟩ hplaced (by decide)
  obtain ⟨t, ht, hregs, -⟩ := hrun hwaits allPass_skewedState hlinked
  obtain ⟨u, hu, hone⟩ := execScB32_skewedState
  cases ht.symm.trans hu
  have hzero : t.team.flush.rdV 1 4 = 0 := (hregs.vector 1 4).trans (if_pos (e := (1 : Word)) wins_skewedState)
  exact absurd (hone.symm.trans hzero) (by decide)

end Sys2Proof.Machine
end

