-- ==== Sys2Proof/Proofs/PredicateWords.lean ====
section
/-! PROOFS. Integer comparisons and the predicate words. -/

namespace Sys2Proof.Machine

open Sys2Proof Sys2Proof.Machine Sys2Proof.Claim

/-- The conditions of R73 as the model computes them. -/
theorem icond_eq_condHolds (c : ICond) (x y : Word) : icond c x y = condHolds c x y := by
  cases c with
  | ne => rw [Bool.eq_iff_iff]; simp [icond, condHolds]
  | _ => rfl

/-- A predicate field as the model reads it. -/
theorem Team.pred_eq_predOf (tm : Team) (t : Nat) (q : Pred) : tm.pred t q = predOf tm t q := by
  obtain ⟨neg, num⟩ := q
  cases neg <;> simp [Team.pred, Team.rdP, predOf, BEq.beq]

/-- A predicate word runs as R19 and R371 say of its truth function. -/
theorem runsPred_predWord {i : Instr} {f : Bool → Bool → Bool} {d : Fin 8} {a b : Pred} (hi : ∀ s, exec i s = execAlu (aluPred f d a b) s) :
    RunsPred i d true [] 1 fun tm _ t => f (predOf tm t a) (predOf tm t b) :=
  runsPred_of (a := aluPred f d a b) hi fun tm _ t => by simp only [aluPred, Team.pred_eq_predOf]

theorem compareWordsClaim : CompareWordsClaim := by
  refine ⟨fun c p a b => ?_, fun c p a imm => ?_⟩
  · exact runsPred_of (a := aluCmp c p a b) (fun _ => rfl) fun tm bix t => by simp only [aluCmp, icond_eq_condHolds]
  · exact runsPred_of (a := aluCmpImm c p a imm) (fun _ => rfl) fun tm bix t => by simp only [aluCmpImm, icond_eq_condHolds, immOf]

theorem predicateWordsClaim : PredicateWordsClaim := fun _ a b =>
  ⟨runsPred_predWord (a := a) (b := b) fun _ => rfl, runsPred_predWord (a := a) (b := b) fun _ => rfl,
    runsPred_predWord (f := (· != ·)) (a := a) (b := b) fun _ => rfl, runsPred_predWord (f := fun x _ => !x) (a := a) (b := a) fun _ => rfl⟩

/-- Settles O6: `cmp` and the predicate words are register words with one predicate result. -/
theorem compareAndPredicateWords : Obligations.CompareAndPredicateWords := ⟨compareWordsClaim, predicateWordsClaim⟩

end Sys2Proof.Machine
end

