-- ==== Sys2Proof/Proofs/BindWords.lean ====
section
/-! PROOFS. `bind`, `unbind` and `wbase`. -/

namespace Sys2Proof.Machine

open Sys2Proof Sys2Proof.Machine Sys2Proof.Claim

/-- The threads of a new binding that are not active. -/
theorem mem_inactiveBelow {tm : Team} {n t : Nat} : t ∈ (upList 0 n).filter (fun t => !tm.active t) ↔ t < n ∧ tm.active t = false := by
  simp

/-- `bind` of a legal number while a thread is active. -/
theorem exec_bind_active {a : Reg} {s : State} (hz : s.team.execZero = false)
    (hn : ¬ ((s.team.rd s.blk.bix a 0 0).toNat < 2 ∨ 1024 < (s.team.rd s.blk.bix a 0 0).toNat ∨ s.team.threads < (s.team.rd s.blk.bix a 0 0).toNat)) :
    exec (.bind a) s =
      if (!((upList 0 (s.team.rd s.blk.bix a 0 0).toNat).filter fun t => !s.team.active t).isEmpty) = true then
        .next (s.takeTrap { cls := .boundDiv, threads := (upList 0 (s.team.rd s.blk.bix a 0 0).toNat).filter fun t => !s.team.active t })
      else .next (({ s with team := { s.team with limbs := (s.team.rd s.blk.bix a 0 0).toNat, limbf := 0 } } : State).finish 1) := by
  simp only [exec, execBind, hz, Bool.false_eq_true, if_false]
  exact if_neg hn

theorem bindWordsClaim : BindWordsClaim := by
  refine ⟨?_, ?_, ?_, fun s => rfl⟩
  · intro a s n hz h2 h1024 hth
    have hn : ¬ (n < 2 ∨ 1024 < n ∨ s.team.threads < n) := by omega
    refine ⟨fun hall => ?_, fun hall => ⟨_, fun t => mem_inactiveBelow (n := n), ?_⟩⟩
    · rw [exec_bind_active hz hn, if_neg (by simpa using hall)]
    · rw [exec_bind_active hz hn, if_pos (by simpa using hall)]
  · intro a s n hz hn
    simp only [exec, execBind, hz, Bool.false_eq_true, if_false]
    exact if_pos hn
  · intro a s hz
    simp [exec, execBind, hz]

theorem windowBaseWordClaim : WindowBaseWordClaim := by
  intro a i s w
  have hw : (s.team.rd s.blk.bix a 0 0 + i.setWidth 32).toNat = w := by
    have hi : i.toNat % 2 ^ 32 = i.toNat := Nat.mod_eq_of_lt (by omega)
    rw [BitVec.toNat_add, BitVec.toNat_setWidth, hi]
  have hexec : exec (.wbase a i) s = if 128 ≤ w ∨ s.team.regs ≤ 8 * w then .next (s.windowTrap 0) else .next (({ s with team := { s.team with wb := w } } : State).finish 0) := by
    rw [← hw]; rfl
  refine ⟨fun h128 hreg => ?_, fun h => ?_⟩
  · rw [hexec, if_neg (by omega)]
  · rw [hexec, if_pos (by omega)]

/-- Settles O15: each case is one branch of `bind` and of `wbase`. -/
theorem bindAndWindowWords : Obligations.BindAndWindowWords := ⟨bindWordsClaim, windowBaseWordClaim⟩

end Sys2Proof.Machine
end

