-- ==== Sys2Proof/Proofs/TransferWords.lean ====
section
/-! PROOFS. Uniform and computed transfers. -/

namespace Sys2Proof.Machine

open Sys2Proof Sys2Proof.Machine Sys2Proof.Claim

/-! ### Words and pairs -/

theorem loWord_ofNat (x : Nat) : loWord (BitVec.ofNat 64 x) = bitsWord x 0 := by
  apply BitVec.eq_of_toNat_eq
  simp only [loWord, bitsWord, BitVec.toNat_setWidth, BitVec.toNat_ofNat]
  omega

theorem hiWord_ofNat (x : Nat) : hiWord (BitVec.ofNat 64 x) = bitsWord x 1 := by
  apply BitVec.eq_of_toNat_eq
  simp only [hiWord, bitsWord, BitVec.toNat_setWidth, BitVec.toNat_ofNat, BitVec.toNat_ushiftRight, Nat.shiftRight_eq_div_pow]
  omega

/-- Writing a scalar pair writes its two words (R18). -/
theorem Team.regsWritten_wr64_scalar (tm : Team) (i : Fin 36) (t x : Nat) :
    RegsWritten tm (tm.wr64 (.s i) t (BitVec.ofNat 64 x)) (.s i) 2 fun _ k => bitsWord x k := by
  refine ⟨rfl, fun _ _ => rfl, fun r => ?_, fun _ _ => rfl⟩
  simp only [Team.wr64, Team.rdS_wr, destS, loWord_ofNat, hiWord_ofNat]
  by_cases h1 : r = i.val + 1
  · subst h1; simp
  · by_cases h0 : r = i.val + 0
    · subst h0; simp
    · rw [if_neg h1, if_neg h0, if_neg (by omega)]

/-! ### Uniform transfers -/

theorem transferWordsClaim : TransferWordsClaim := by
  refine fun s => ⟨rfl, ⟨_, rfl, rfl⟩, fun o => ⟨rfl, fun p => ?_, ?_⟩⟩
  · rw [← Team.pred_eq_predOf]; rfl
  · refine ⟨_, s.team.regsWritten_wr64_scalar 32 0 _, ?_⟩
    simp only [exec, execCall, mkPtr, Nat.zero_mul, Nat.add_zero]
    rfl

/-! ### Computed transfers -/

/-- The fields of a tagged pointer (R141, R142). -/
theorem ptrSpace_eq (q : DWord) : ptrSpace q = q.toNat / 2 ^ 60 := by
  have := q.isLt; unfold ptrSpace bitsOf; omega
theorem ptrOwner_eq (q : DWord) : ptrOwner q = q.toNat / 2 ^ 48 % 2 ^ 12 := rfl
theorem ptrOff_eq (q : DWord) : ptrOff q = q.toNat % 2 ^ 48 := by
  unfold ptrOff bitsOf; omega

/-- A word that ends in `jumpTo` transfers as R340 and R383 say. -/
theorem jumpsTo_of {i : Instr} {q : State → DWord} (hi : ∀ s, exec i s = .next (s.jumpTo (q s))) : JumpsTo i q := by
  intro s x off
  rw [hi]
  unfold State.jumpTo
  rw [ptrSpace_eq, ptrOwner_eq, ptrOff_eq]
  refine ⟨fun h => ?_, fun h7 h0 h4 => ?_, fun h7 h0 h4 hw => ?_, fun h7 h0 h4 w hf hs => ?_⟩
  · rw [if_pos (by tauto)]
  · rw [if_neg (by tauto), if_pos h4]
  · rw [if_neg (by tauto), if_neg (not_not.2 h4)]
    split
    · rfl
    · rename_i w hf
      exact congrArg _ (if_pos (hw w hf))
  · rw [if_neg (by tauto), if_neg (not_not.2 h4)]
    split
    · rename_i hf'; rw [hf] at hf'; cases hf'
    · rename_i hf'; rw [hf] at hf'; cases hf'
      exact congrArg _ (if_neg (Bool.eq_false_iff.1 hs))

theorem computedTransferWordsClaim : ComputedTransferWordsClaim :=
  ⟨jumpsTo_of fun _ => rfl, fun _ => jumpsTo_of fun _ => rfl⟩

/-- Settles O17: the uniform transfers by their definitions, the computed ones by the branches of `State.jumpTo`. -/
theorem transferWords : Obligations.TransferWords := ⟨transferWordsClaim, computedTransferWordsClaim⟩

end Sys2Proof.Machine
end

