-- ==== Sys2Proof/Proofs/EndOfWord.lean ====
section
/-! PROOFS. The end of a word, and what a word that has issued leaves of its team and beside it. -/

namespace Sys2Proof.Machine

open Sys2Proof Sys2Proof.Machine Sys2Proof.Claim

variable {s : State} {tm : Team}

/-! ### The queue -/

/-- What the front-end has taken ahead is the whole queue, or nothing (R21). -/
theorem Team.ahead_cons {e : QueueWord} {r : List QueueWord} (h : tm.queue = e :: r) :
    tm.ahead = if e.pc = tm.pc ∧ e.ran = none then e :: r else [] := by
  simp [Team.ahead, h]

theorem Team.mem_ahead {e : QueueWord} (h : e ∈ tm.ahead) : e ∈ tm.queue := by
  unfold Team.ahead at h
  split at h
  · exact h
  · cases h

theorem Team.mem_queueAfter {e : QueueWord} {n : Nat} (h : e ∈ tm.queueAfter n) : e ∈ tm.queue := by
  unfold Team.queueAfter at h
  split at h
  · exact Team.mem_ahead (List.mem_of_mem_tail h)
  · cases h

/-- In order, no scalar word executed ahead follows a word. -/
theorem Team.inOrder_after (h : tm.inOrder) (n : Nat) : ∀ e ∈ (tm.queueAfter n).head?, e.ran = none :=
  fun e he => h.1 e (Team.mem_queueAfter (List.mem_of_mem_head? he))

/-! ### Registers -/

theorem Team.sameRegs.claim {x y : Team} (h : x.sameRegs y) : SameRegs x y := ⟨h.rdV, h.rdS, h.rdP⟩

/-- A word with nothing outstanding leaves the registers. -/
theorem Team.pastWord_noPend (h : tm.pend = []) (c n : Nat) :
    tm.sameRegs (tm.pastWord c n) ∧ (tm.pastWord c n).pend = [] ∧ (tm.pastWord c n).awaited = tm.awaited ∧
      (tm.pastWord c n).inflight = retire [] tm.inflight := by
  unfold Team.pastWord
  rw [Team.tick_empty (by exact h)]
  exact ⟨⟨rfl, rfl, rfl⟩, rfl, rfl, rfl⟩

/-- A result whose shadow covers the next word too is not written yet (R25). -/
theorem Team.pastWord_keeps_one {p : Pending} (h : tm.pend = [p]) (hl : 2 ≤ p.left) (c n : Nat) :
    tm.sameRegs (tm.pastWord c n) ∧ (tm.pastWord c n).pend = [{ p with left := p.left - 1 }] := by
  have h0 : p.left - 1 ≠ 0 := by omega
  simp [Team.pastWord, Team.tick, h, h0, Team.writeAll, Team.sameRegs]

/-- The word that ends a result's shadow writes it (R25). -/
theorem Team.pastWord_writes_one {p : Pending} (h : tm.pend = [p]) (hl : p.left = 1) (c n : Nat) :
    (p.write tm).sameRegs (tm.pastWord c n) ∧ (tm.pastWord c n).pend = [] := by
  have he : (tm.pastWord c n).pend = [] := by simp [Team.pastWord, Team.tick, h, hl]
  have hf := tm.pastWord_flush_one p h c n
  rw [Team.flush_empty he] at hf
  exact ⟨⟨hf.1, hf.2.1, hf.2.2⟩, he⟩

/-- What the end of a word makes of its context, but for registers and what is outstanding. -/
theorem Team.pastWord_frame (tm : Team) (c n : Nat) : tm.pastWord c n =
    { tm with v := (tm.pastWord c n).v, s := (tm.pastWord c n).s, pc := n, fair := tm.fair + c, deferred := tm.deferred.map (· - 1),
              hitBps := if tm.hitAt = some tm.pc then tm.hitBps else [], hitAt := if tm.hitAt = some tm.pc then tm.hitAt else none,
              awaited := (tm.pastWord c n).awaited, decided := none, auditHeld := none, captured := false, fresh := false, promised := none,
              shadow := tm.shadow - 1, probation := tm.probation.filter (fun r => decide (r.1 ≤ tm.current ∧ tm.current < r.2)),
              inflight := (tm.pastWord c n).inflight, pend := (tm.pastWord c n).pend } := by
  unfold Team.pastWord
  rw [Team.tick_frame]
  simp only [Bool.decide_and, Team.keptHits]

theorem Team.pastWord_pc (tm : Team) (c n : Nat) : (tm.pastWord c n).pc = n := congrArg Team.pc (tm.pastWord_frame c n)

/-- The end of a word leaves the team in its slot. -/
theorem Team.finish_place (tm : Team) (c n : Nat) : (tm.finish c n).coreId = tm.coreId ∧ (tm.finish c n).qtr = tm.qtr ∧ (tm.finish c n).slot = tm.slot := by
  have h := tm.past_finish c n
  unfold Team.past at h
  rw [h]
  exact ⟨rfl, rfl, rfl⟩

/-! ### Passes -/

/-- Reading a table of optional values whose values `f` has changed. -/
theorem tget_map_values {α : Type} (f : α → α) (m : Tbl (Option α)) (k : Nat) :
    tget none (m.map fun e => (e.1, e.2.map f)) k = (tget none m k).map f := by
  induction m with
  | nil => rfl
  | cons e m ih =>
    obtain ⟨j, v⟩ := e
    simp only [List.map_cons, tget, ih]
    split <;> rfl

/-- The team's quarter names the slot that issued last (R202). -/
theorem State.issuePass_rp (s : State) : (tget {} s.issuePass.core.quarters s.team.qtr).rp = s.team.slot := by
  simp [State.issuePass, Core.waitShadow]

/-- The other teams of the quarter with a ready pass are passed over for the pass (R202). -/
theorem State.issuePass_teams (s : State) (k : Nat) : tget none s.issuePass.teams k = (tget none s.teams k).map fun o =>
    if o.coreId = s.team.coreId ∧ o.qtr = s.team.qtr ∧ s.passReady o then { o with passed := min 511 (o.passed + s.team.owed.headD 0) } else o :=
  tget_map_values _ _ _

/-- A team's word with passes issues the first of them. -/
theorem State.finishPasses_issued {ps : List Nat} {n : Nat} (h : ps ≠ [] ∧ s.team.kind = .team) :
    s.finishPasses ps n = ({ s with team := { s.team.finish ps.sum n with owed := ps, issPc := s.team.pc } } : State).issuePass := by
  unfold State.finishPasses
  exact if_neg (by tauto)

/-- A word of no pass, and a sequencer's, only ends. -/
theorem State.finishPasses_unissued {ps : List Nat} {n : Nat} (h : ¬ (ps ≠ [] ∧ s.team.kind = .team)) :
    s.finishPasses ps n = { s with team := s.team.finish ps.sum n } := by
  unfold State.finishPasses
  exact if_pos (by tauto)

/-- A team with no capture's hold due, or with passes still owed behind the first, goes on. -/
theorem State.issuePass_team_goesOn (h : s.team.holdFor = 0 ∨ s.team.owed.tail ≠ []) :
    s.issuePass.team = { s.team with passed := 0, yielded := false, owed := s.team.owed.tail } := by
  rw [State.issuePass_frame]
  exact if_pos h

/-- The hold of a capture begins with the region's last pass (R239). -/
theorem State.issuePass_team_holds (h : s.team.holdFor ≠ 0) (ho : s.team.owed.tail = []) :
    s.issuePass.team = { s.team with passed := 0, yielded := false, owed := [], holdFor := 0, parked := some (.capture (s.freeCount + 1 + s.team.holdFor)) } := by
  rw [State.issuePass_frame]
  simp [Team.beginHold, h, ho]

theorem tail_ne_nil_of_length {ps : List Nat} (hp : ps ≠ []) (h : ps.length ≠ 1) : ps.tail ≠ [] := by
  match ps with
  | [_] => exact absurd rfl h
  | _ :: _ :: _ => simp

theorem tail_eq_nil_of_length {ps : List Nat} (h : ps.length = 1) : ps.tail = [] := by
  obtain ⟨a, rfl⟩ := List.length_eq_one_iff.1 h; rfl

/-- Settles O16: the end of a word is `Team.pastWord`, the words executed ahead behind it, and its first pass. -/
theorem endOfWord : Obligations.EndOfWord := by
  intro s ps next t behind ended
  have hout : ∀ c, ∃ qs, s.finishAt c next = s.finishPasses qs next ∧ qs.sum = c ∧ (∀ x ∈ qs, 1 ≤ x) ∧
      (1 ≤ s.team.issuing → s.team.issuing ≤ c → qs.length = s.team.issuing) := by
    intro c
    refine ⟨if c = 0 then [] else passCycles c s.team.issuing, rfl, ?_, ?_, ?_⟩
    · split
      · simp_all
      · exact passCycles_sum _ _
    · intro x hx
      split at hx
      · cases hx
      · exact Nat.one_le_iff_ne_zero.2 (passCycles_pos ‹_› hx)
    · intro h1 hc
      rw [if_neg (by omega)]
      exact passCycles_length h1 hc
  refine ⟨s.finishPasses_world ps next, rfl, fun e r hq => Team.ahead_cons hq, s.team.pastWord_frame _ _, fun hd hp => ?_, fun hp => ?_,
    fun p hp hl => ?_, fun p hp hl => ?_, ⟨s.team.finish ps.sum next, fun hv => ?_, fun e x r hb hx he => ?_, fun e x r hb hx he => ?_, fun hi => ?_, fun hi => ?_⟩, hout⟩
  · exact (Team.pastWord_noPend hp _ _).2.2.2.trans (retire_undone hd [])
  · obtain ⟨hr, he, ha, -⟩ := Team.pastWord_noPend hp ps.sum next
    exact ⟨hr.claim, he, ha⟩
  · exact (Team.pastWord_keeps_one hp hl _ _).imp Team.sameRegs.claim id
  · exact (Team.pastWord_writes_one hp hl _ _).imp Team.sameRegs.claim id
  · exact Team.settleRan_vector hv _
  · have hpc : ended.pc = next := Team.pastWord_pc _ _ _
    show Team.settleRan behind ended = _
    rw [hb, Team.settleRan_ran hx _ (by rw [hpc]; exact he)]
  · have hpc : ended.pc = next := Team.pastWord_pc _ _ _
    show Team.settleRan behind ended = _
    rw [hb]
    simp [Team.settleRan, hx, hpc, he]
  · exact State.finishPasses_unissued hi
  · intro owing
    have ht : t = owing.issuePass := State.finishPasses_issued hi
    have hplace : owing.team.coreId = s.team.coreId ∧ owing.team.qtr = s.team.qtr ∧ owing.team.slot = s.team.slot := s.team.finish_place ps.sum next
    obtain ⟨hcore, hqtr, hslot⟩ := hplace
    rw [ht]
    refine ⟨fun h => ?_, fun h h1 => ?_, ?_, fun k o ho => ?_⟩
    · exact State.issuePass_team_goesOn (h.imp id fun hl => tail_ne_nil_of_length hi.1 hl)
    · exact State.issuePass_team_holds h (tail_eq_nil_of_length h1)
    · rw [← hqtr, ← hslot]; exact owing.issuePass_rp
    · rw [owing.issuePass_teams k, hcore, hqtr, show owing.teams = s.teams from rfl, ho]
      rfl

theorem passCycles_one (p : Nat) : passCycles 1 p = [1] := by
  unfold passCycles
  exact if_pos (by omega)

/-- A word of one cycle issues once. -/
theorem State.finish_one (s : State) : s.finish 1 = s.finishEach [1] := by
  show s.finishPasses (Machine.passCycles 1 s.team.issuing) _ = _
  rw [passCycles_one]; rfl

/-! ### What a word that has issued leaves -/

theorem Team.inOrder_of_frame {a b : Team} (h : a.inOrder) (hq : b.queue = a.queue) (hh : b.holdFor = a.holdFor) : b.inOrder :=
  ⟨fun e he => h.1 e (hq ▸ he), hh.trans h.2⟩

/-- In order, the end of a word leaves the words taken ahead as they were taken. -/
theorem Team.finish_inOrder (h : tm.inOrder) (c n : Nat) : tm.finish c n = { tm.pastWord c n with queue := tm.queueAfter n } :=
  Team.settleRan_vector (Team.inOrder_after h n) _

/-- In order, what a word's passes leave of its team: the end of the word and the accounts of issue. -/
theorem State.finishPasses_team (h : s.team.inOrder) (ps : List Nat) (n : Nat) :
    (s.finishPasses ps n).team = { s.team.pastWord ps.sum n with queue := s.team.queueAfter n, passed := (s.finishPasses ps n).team.passed, yielded := (s.finishPasses ps n).team.yielded, owed := (s.finishPasses ps n).team.owed, issPc := (s.finishPasses ps n).team.issPc } := by
  have hhold : (s.team.finish ps.sum n).holdFor = 0 := by
    rw [Team.finish_inOrder h, Team.pastWord_frame]; exact h.2
  by_cases hi : ps ≠ [] ∧ s.team.kind = .team
  · rw [State.finishPasses_issued hi, State.issuePass_team_goesOn (.inl hhold), Team.finish_inOrder h]
  · rw [State.finishPasses_unissued hi, Team.finish_inOrder h]

theorem State.issued_finishPasses (h : s.team.inOrder) (ps : List Nat) : Issued s.team (s.finishEach ps).team := by
  unfold Issued State.finishEach
  rw [State.finishPasses_team h, Team.pastWord_frame]

theorem State.issueBooks_finishPasses (s : State) (ps : List Nat) (n : Nat) : IssueBooks s (s.finishPasses ps n) := by
  refine ⟨by rw [State.finishPasses_frame], fun k => ?_⟩
  by_cases hi : ps ≠ [] ∧ s.team.kind = .team
  · rw [State.finishPasses_issued hi, State.issuePass_teams]
    cases h : tget none s.teams k with
    | none => exact ⟨0, by simp⟩
    | some o =>
      simp only [Option.map_some]
      split
      · exact ⟨_, rfl⟩
      · exact ⟨o.passed, rfl⟩
  · rw [State.finishPasses_unissued hi]
    cases h : tget none s.teams k with
    | none => exact ⟨0, by simp⟩
    | some o => exact ⟨o.passed, by simp⟩

/-- `b` is `a` but for what a word with an outstanding result writes before it ends. -/
def Team.gaveResult (a b : Team) : Prop := b = { a with v := b.v, s := b.s, inflight := b.inflight, pend := b.pend, shadow := b.shadow }

theorem Team.gaveResult_regEq {a b : Team} (h : a.regEq b) : a.gaveResult b := by
  cases a; cases b; simp_all [Team.gaveResult, Team.regEq]

theorem Team.gaveResult_inOrder {a b : Team} (h : a.gaveResult b) (ho : a.inOrder) : b.inOrder := by
  unfold Team.gaveResult at h
  refine Team.inOrder_of_frame ho ?_ ?_ <;> rw [h]

/-- A word that gives a result before it ends has issued as the word's end says. -/
theorem Team.gaveResult_issued {a b c : Team} (h : a.gaveResult b) (k : Issued b c) : Issued a c := by
  unfold Team.gaveResult at h
  unfold Issued at k ⊢
  rw [h] at k
  exact k

/-- The team after a result with lookahead and an access without stores. -/
theorem State.later_issue_team (s : State) (d : Dest) (vals : List (Nat × List Word)) (n : Nat) (m : Word) (a : Access) (ha : a.writes = []) :
    s.team.gaveResult ((s.later d vals n m).issue a).team ∧
      ((s.later d vals n m).issue a).team = { (s.later d vals n m).team with inflight := ((s.later d vals n m).issue a).team.inflight } := by
  have hi : ((s.later d vals n m).issue a).team = { (s.later d vals n m).team with inflight := ((s.later d vals n m).issue a).team.inflight } := by
    rw [State.issue_frame _ _ ha]
  refine ⟨?_, hi⟩
  unfold Team.gaveResult
  rw [hi]
  by_cases hk : s.team.kind = .team
  · simp only [State.later, hk, if_true]
  · simp only [State.later, hk, if_false]
    have hr : s.team.regEq _ := Pending.regEq_write { dst := d, vals := vals, left := n + 1, mask := m, pc := s.team.pc } s.team
    unfold Team.regEq at hr
    rw [hr]

/-- The end of a word that has changed its team alone of `e`. -/
theorem State.finishPasses_frame_of {e x : State} (h : x = { e with team := x.team }) (ps : List Nat) (n : Nat) :
    x.finishPasses ps n = { e with team := (x.finishPasses ps n).team, core := (x.finishPasses ps n).core, teams := (x.finishPasses ps n).teams } := by
  have hf := x.finishPasses_frame ps n
  generalize x.finishPasses ps n = y at hf ⊢
  rw [h] at hf
  have hc : y.core = _ := congrArg State.core hf
  rw [hc]
  exact hf

theorem issueBooks_congr {s x t : State} (hc : x.core = s.core) (ht : x.teams = s.teams) (h : IssueBooks x t) : IssueBooks s t := by
  unfold IssueBooks at h ⊢
  rwa [hc, ht] at h

end Sys2Proof.Machine
end

