-- ==== Sys2Proof/Proofs/ExitWord.lean ====
section
/-! PROOFS. `exit`. -/

namespace Sys2Proof.Machine

open Sys2Proof Sys2Proof.Machine Sys2Proof.Claim

variable {tm : Team}

/-! ### The threads that exit -/

/-- Marks set for several threads. -/
theorem tget_markAll (ts : List Nat) (m : Tbl Bool) (t : Nat) :
    tget false (ts.foldl (fun m t => tput false m t true) m) t = (decide (t ∈ ts) || tget false m t) := by
  induction ts generalizing m with
  | nil => simp
  | cons u us ih =>
    rw [List.foldl_cons, ih, tget_tput]
    by_cases hu : t = u <;> simp [hu]

theorem Team.exitActive_exited (tm : Team) (t : Nat) : tget false tm.exitActive.exited t = (tm.active t || tget false tm.exited t) := by
  have h : tm.exitActive.exited = tm.actives.foldl (fun m t => tput false m t true) tm.exited := by
    unfold Team.exitActive; dsimp only; split <;> rfl
  rw [h, tget_markAll]
  simp

/-- Nothing but the exit marks and the binding changes. -/
theorem Team.exitActive_frame (tm : Team) : tm.exitActive = { tm with exited := tm.exitActive.exited, limbs := tm.exitActive.limbs } := by
  unfold Team.exitActive; dsimp only; split <;> rfl

theorem Team.exitActive_live (tm : Team) (t : Nat) : tm.exitActive.live t = (tm.live t && !tm.active t) := by
  have h : tm.exitActive.threads = tm.threads := by rw [Team.exitActive_frame]
  simp only [Team.live, h, Team.exitActive_exited, Bool.not_or]
  cases tm.active t <;> simp

/-- The team unbinds once all its limb threads have exited (R107). -/
theorem Team.exitActive_limbs (tm : Team) :
    tm.exitActive.limbs = if (∀ t, t < tm.limbs → tm.active t = true ∨ tget false tm.exited t = true) then 0 else tm.limbs := by
  have h : tm.exitActive.limbs = if (upList 0 tm.limbs).all (fun t => tget false tm.exitActive.exited t) then 0 else tm.limbs := by
    have he : tm.exitActive.exited = tm.actives.foldl (fun m t => tput false m t true) tm.exited := by
      unfold Team.exitActive; dsimp only; split <;> rfl
    rw [he]; unfold Team.exitActive; dsimp only; split <;> rfl
  rw [h]
  simp [Team.exitActive_exited]

theorem Team.mem_lives {t : Nat} : t ∈ tm.lives ↔ tm.live t = true := by
  simp only [Team.lives, List.mem_filter, mem_upList, Nat.zero_le, true_and, Nat.zero_add, and_iff_right_iff_imp]
  intro h
  simp [Team.live] at h
  exact h.1

theorem Team.lives_isEmpty : tm.lives.isEmpty = true ↔ ∀ t, tm.live t = false := by
  simp only [List.isEmpty_iff, List.eq_nil_iff_forall_not_mem, Team.mem_lives, Bool.not_eq_true]

/-! ### Written results -/

/-- Writing outstanding results leaves which threads are present, active and in order. -/
theorem Team.flush_threads (tm : Team) : (∀ t, tm.flush.live t = tm.live t) ∧ (∀ t, tm.flush.active t = tm.active t) ∧ tm.flush.execZero = tm.execZero := by
  rw [Team.flush_frame]
  exact ⟨fun _ => rfl, fun _ => rfl, rfl⟩

/-! ### The word -/

theorem exec_exit_stream {s : State} (h : s.team.kind ≠ .team) : exec .exit s = .next { s with team := { s.team.flush with ended := true } } := by
  have hk : s.team.flush.kind ≠ .team := by rw [Team.flush_frame]; exact h
  show execExit s = _
  unfold execExit
  exact if_pos hk

theorem exec_exit_idle {s : State} (h : s.team.kind = .team) (hz : s.team.execZero = true) :
    exec .exit s = .next (({ s with team := s.team.flush } : State).finish 1) := by
  have hk : s.team.flush.kind = .team := by rw [Team.flush_frame]; exact h
  show execExit s = _
  unfold execExit
  simp [hk, s.team.flush_threads.2.2, hz]

/-- The state after the active threads have exited and the word has ended. -/
def State.exited (s : State) : State := ({ s with team := s.team.flush.exitActive } : State).finishEach [1]

/-- With a thread active the word ends after the active ones have exited, and the team with its last thread (R320, R321). -/
theorem exec_exit_active {s : State} (h : s.team.kind = .team) (hz : s.team.execZero = false) :
    exec .exit s = .next { s.exited with team := { s.exited.team with ended := s.team.flush.exitActive.lives.isEmpty || s.exited.team.ended } } := by
  have hk : s.team.flush.kind = .team := by rw [Team.flush_frame]; exact h
  have hz' : s.team.flush.execZero = false := s.team.flush_threads.2.2.trans hz
  show execExit s = _
  unfold execExit
  dsimp only
  rw [if_neg (not_not.2 hk), if_neg (by simp [hz']), State.finish_one]
  cases s.team.flush.exitActive.lives.isEmpty <;> rfl

/-- The end of the word leaves the team with no result outstanding and its registers, and changes only where it goes on and its accounts. -/
theorem State.exited_team {s : State} (h : s.team.inOrder) :
    SameRegs s.team.flush s.exited.team ∧ s.exited.team.pend = [] ∧ Issued s.team.flush.exitActive s.exited.team := by
  have hframe := s.team.flush.exitActive_frame
  have hord : s.team.flush.exitActive.inOrder := by
    refine Team.inOrder_of_frame h ?_ ?_ <;> rw [hframe, Team.flush_frame]
  have hp : s.team.flush.exitActive.pend = [] := by rw [hframe]; rfl
  obtain ⟨hregs, hpend⟩ := ({ s with team := s.team.flush.exitActive } : State).finishPasses_sameRegs [1] (Team.inOrder_after hord _)
  have hpast := Team.pastWord_noPend hp 1 (s.team.flush.exitActive.pc + 4)
  have hflush : s.team.flush.sameRegs s.team.flush.exitActive := by rw [hframe]; exact ⟨rfl, rfl, rfl⟩
  exact ⟨(hflush.trans (hpast.1.trans hregs)).claim, hpend.trans hpast.2.1, State.issued_finishPasses hord _⟩

/-- Settles O18: the word ends after `Team.exitActive`, which marks the active threads alone. -/
theorem exitWord : Obligations.ExitWord := by
  refine fun s => ⟨exec_exit_stream, exec_exit_idle, fun hk hz hord => ⟨_, exec_exit_active hk hz, ?_⟩⟩
  obtain ⟨hregs, hpend, hissued⟩ := State.exited_team hord
  obtain ⟨hlive, hactive, -⟩ := s.team.flush_threads
  have hframe := s.team.flush.exitActive_frame
  have hflush := s.team.flush_frame
  unfold Issued at hissued
  have hth : ∀ t, s.exited.team.live t = (s.team.live t && !s.team.active t) := by
    intro t
    rw [← hlive, ← hactive, ← Team.exitActive_live, hissued]; rfl
  refine ⟨hregs, ?_, ?_, hpend, hth, fun t => ?_, ?_, fun he => ?_⟩
  · exact State.finishPasses_world ({ s with team := s.team.flush.exitActive } : State) [1] (s.team.flush.exitActive.pc + 4)
  · show s.exited.team.pc = _
    rw [hissued, hframe, hflush]
  · show tget 0 s.exited.team.cnt t = _
    rw [hissued, hframe, hflush]
  · show s.exited.team.limbs = _
    rw [hissued]
    show s.team.flush.exitActive.limbs = _
    rw [Team.exitActive_limbs, hflush]; rfl
  · have hend : s.exited.team.ended = false := by rw [hissued, hframe, hflush]; exact he
    show (s.team.flush.exitActive.lives.isEmpty || s.exited.team.ended) = true ↔ _
    rw [hend, Bool.or_false, Team.lives_isEmpty]
    refine forall_congr' fun t => ?_
    rw [Team.exitActive_live, hlive, hactive]
    cases s.team.live t <;> cases s.team.active t <;> simp

end Sys2Proof.Machine
end

