-- ==== Sys2Proof/Proofs/TranscendentalWords.lean ====
section
/-! PROOFS. The transcendentals: an outstanding result of each thread's value, packed element by element. -/

namespace Sys2Proof.Machine

open Sys2Proof Sys2Proof.Machine Sys2Proof.Claim

/-! ### Packed elements -/

theorem lowHalf_getLsbD {j : Nat} (hj : j < 32) : (0xFFFF#32).getLsbD j = decide (j < 16) := by
  revert j; decide

theorem highHalf_getLsbD {j : Nat} (hj : j < 32) : (0xFFFF0000#32).getLsbD j = decide (16 ≤ j) := by
  revert j; decide

theorem merge_getLsbD (m old x : Word) (j : Nat) (hj : j < 32) : (merge m old x).getLsbD j = if m.getLsbD j then x.getLsbD j else old.getLsbD j := by
  simp only [merge, BitVec.getLsbD_or, BitVec.getLsbD_and, BitVec.getLsbD_not, hj, decide_true, Bool.true_and]
  cases m.getLsbD j <;> simp

theorem half_testBit (x : Word) (i j : Nat) : (half x i).testBit j = (decide (j < 16) && x.getLsbD (16 * i + j)) := by
  simp only [half, Nat.testBit_mod_two_pow, Nat.testBit_div_two_pow, BitVec.testBit_toNat]
  rw [Nat.add_comm]

/-- The elements of a packed word, bit by bit (R82). -/
theorem halves_getLsbD (pen : BitVec 2) (old : Word) (f : Nat → Nat) {j : Nat} (hj : j < 32) :
    (halves pen old f).getLsbD j =
      if j < 16 then (if pen.getLsbD 0 then (f 0).testBit j else old.getLsbD j)
      else (if pen.getLsbD 1 then (f 1).testBit (j - 16) else old.getLsbD j) := by
  have hlo : (if pen.getLsbD 0 then f 0 % 2 ^ 16 else half old 0) < 2 ^ 16 := by
    split
    · exact Nat.mod_lt _ (by decide)
    · exact Nat.mod_lt _ (by decide)
  simp only [halves, BitVec.getLsbD_ofNat, hj, decide_true, Bool.true_and]
  rw [Nat.add_comm, Nat.testBit_two_pow_mul_add _ hlo]
  split
  · rename_i h
    split
    · rw [Nat.testBit_mod_two_pow]; simp [h]
    · simp [half_testBit, h]
  · rename_i h
    have h16 : j - 16 < 16 := by omega
    split
    · rw [Nat.testBit_mod_two_pow]; simp [h16]
    · have e : 16 + (j - 16) = j := by omega
      simp [half_testBit, h16, e]

/-- The bits that a packed transcendental writes: those of the enabled elements (R82). -/
theorem transMask_getLsbD {f : TFmt} (hf : transPacked f = true) (pen : BitVec 2) {j : Nat} (hj : j < 32) :
    (transMask f pen).getLsbD j = if j < 16 then pen.getLsbD 0 else pen.getLsbD 1 := by
  simp only [transMask, hf, if_true, BitVec.getLsbD_or]
  by_cases hl : j < 16
  · cases pen.getLsbD 0 <;> cases pen.getLsbD 1 <;> simp [hl, lowHalf_getLsbD hj, highHalf_getLsbD hj]
  · cases pen.getLsbD 0 <;> cases pen.getLsbD 1 <;> simp [hl, lowHalf_getLsbD hj, highHalf_getLsbD hj, Nat.le_of_not_lt hl]

/-- The element masks of `packF`. -/
theorem elemMask_getLsbD {i j : Nat} (hi : i < 2) (hj : j < 32) : (0xFFFF#32 <<< (16 * i)).getLsbD j = decide (16 * i ≤ j ∧ j < 16 * i + 16) := by
  have h : ∀ i < 2, ∀ j < 32, (0xFFFF#32 <<< (16 * i)).getLsbD j = decide (16 * i ≤ j ∧ j < 16 * i + 16) := by decide
  exact h i hi j hj

/-- Element `i` of a packed word at its place. -/
theorem elemAt_getLsbD (x i : Nat) {j : Nat} (hj : j < 32) : (BitVec.ofNat 32 (x * 2 ^ (16 * i))).getLsbD j = (decide (16 * i ≤ j) && x.testBit (j - 16 * i)) := by
  rw [BitVec.getLsbD_ofNat, Nat.testBit_mul_two_pow]; simp [hj]

/-- The enabled elements of what `packF` gives. -/
theorem packF_getLsbD (g : FFmt) (pen : BitVec 2) (op : (Word → Nat) → Nat × FEv) {j : Nat} (hj : j < 32)
    (hen : (if j < 16 then pen.getLsbD 0 else pen.getLsbD 1) = true) :
    (packF g pen op 0).1.getLsbD j =
      if j < 16 then (op fun v => (v.extractLsb' (16 * 0) 16).toNat).1.testBit j else (op fun v => (v.extractLsb' (16 * 1) 16).toNat).1.testBit (j - 16) := by
  simp only [packF, upList, List.foldl_cons, List.foldl_nil]
  by_cases hl : j < 16
  · rw [if_pos hl] at hen ⊢
    rw [if_pos hen]
    split
    · rw [merge_getLsbD _ _ _ _ hj, if_neg (by rw [elemMask_getLsbD (by decide) hj]; simp; omega), merge_getLsbD _ _ _ _ hj,
        if_pos (by rw [elemMask_getLsbD (by decide) hj]; simp; omega), elemAt_getLsbD _ _ hj]
      simp
    · rw [merge_getLsbD _ _ _ _ hj, if_pos (by rw [elemMask_getLsbD (by decide) hj]; simp; omega), elemAt_getLsbD _ _ hj]
      simp
  · rw [if_neg hl] at hen ⊢
    rw [if_pos hen, merge_getLsbD _ _ _ _ hj, if_pos (by rw [elemMask_getLsbD (by decide) hj]; simp; omega), elemAt_getLsbD _ _ hj]
    simp; omega

/-- The word that an operation on the elements of a packed word gives, merged into the bits that a transcendental writes (R82). -/
theorem merge_packF (g : FFmt) {f : TFmt} (hf : transPacked f = true) (pen : BitVec 2) (op : (Word → Nat) → Nat × FEv) (old : Word) :
    merge (transMask f pen) old (packF g pen op 0).1 = halves pen old fun e => (op fun v => (v.extractLsb' (16 * e) 16).toNat).1 := by
  apply BitVec.eq_of_getLsbD_eq
  intro j hj
  rw [halves_getLsbD _ _ _ hj, merge_getLsbD _ _ _ _ hj, transMask_getLsbD hf _ hj]
  by_cases hen : (if j < 16 then pen.getLsbD 0 else pen.getLsbD 1) = true
  · rw [if_pos hen, packF_getLsbD g pen op hj hen]
    by_cases hl : j < 16
    · rw [if_pos hl] at hen; simp only [hl, hen, if_true]
    · rw [if_neg hl] at hen; simp only [hl, hen, if_true, if_false]
  · rw [if_neg hen]
    by_cases hl : j < 16
    · rw [if_pos hl] at hen; simp only [hl, hen, if_true, if_false, Bool.false_eq_true]
    · rw [if_neg hl] at hen; simp only [hl, hen, if_false, Bool.false_eq_true]

/-- The events of the enabled elements (R82, R98). -/
theorem packF_events (g : FFmt) (pen : BitVec 2) (op : (Word → Nat) → Nat × FEv) (old : Word) :
    (packF g pen op old).2 = ((List.range 2).filter fun j => pen.getLsbD j).flatMap fun j => evOf g (op fun v => (v.extractLsb' (16 * j) 16).toNat).2 := by
  simp only [packF, upList, List.foldl_cons, List.foldl_nil, show List.range 2 = [0, 1] from rfl, List.filter_cons, List.filter_nil]
  cases pen.getLsbD 0 <;> cases pen.getLsbD 1 <;> simp

theorem evOf_eq (g : FFmt) (e : FEv) : evOf g e = (e.map fun e => 4 * g.idx + e).toList := by cases e <;> rfl

theorem half_eq (x : Word) (i : Nat) : (x.extractLsb' (16 * i) 16).toNat = half x i := by
  simp [half, BitVec.extractLsb'_toNat, Nat.shiftRight_eq_div_pow]

/-! ### One thread's result -/

theorem pairOf_toNat (lo hi : Word) : (pairOf lo hi).toNat = lo.toNat + 2 ^ 32 * hi.toNat := by
  rw [pairOf, BitVec.toNat_append, ← Nat.shiftLeft_add_eq_or_of_lt lo.isLt, Nat.shiftLeft_eq]
  omega

theorem Team.rdF_eq_floatBits (tm : Team) (bix : Nat) (w : Bool) (r : Reg) (t : Nat) : tm.rdF bix w r t = floatBits tm bix w r t := by
  cases w <;> simp [Team.rdF, floatBits, Team.rd64, pairOf_toNat]

/-- The words of a single value. -/
theorem outF_words (w : Bool) (x : Nat) : (outF w x).length = wordsW w ∧ ∀ j, j < wordsW w → (outF w x).getD j 0 = bitsWord x j := by
  cases w with
  | false =>
    refine ⟨rfl, fun j hj => ?_⟩
    obtain rfl : j = 0 := by simpa [wordsW] using hj
    simp [outF, bitsWord]
  | true =>
    refine ⟨rfl, fun j hj => ?_⟩
    have : j = 0 ∨ j = 1 := by simp [wordsW] at hj; omega
    rcases this with rfl | rfl <;> simp [outF, bitsWord]

theorem merge_allOnes (old x : Word) : merge 0xFFFFFFFF old x = x := by
  apply BitVec.eq_of_getLsbD_eq
  intro j hj
  have h : (0xFFFFFFFF : Word).getLsbD j = true := by revert j; decide
  rw [merge_getLsbD _ _ _ _ hj, if_pos h]

/-- What a transcendental leaves of the word `old`, for one thread (R82, R323). -/
def transWord (fn : TransFn) (f : TFmt) (tm : Team) (bix : Nat) (a : Reg) (old : Word) (t j : Nat) : Word :=
  if transPacked f then halves tm.pen old fun e => (transElem fn (transFmt f) (rndOf tm.rnd) (half (tm.rd bix a 0 t) e)).1
  else bitsWord (fn (transFmt f) (rndOf tm.rnd) ((transFmt f).dec (floatBits tm bix (decide (f = TFmt.f64)) a t))).1 j

/-- The events of one thread of a transcendental (R82, R98). -/
def transEvents (fn : TransFn) (f : TFmt) (tm : Team) (bix : Nat) (a : Reg) (t : Nat) : List Nat :=
  if transPacked f then ((List.range 2).filter fun j => tm.pen.getLsbD j).flatMap fun j =>
    ((transElem fn (transFmt f) (rndOf tm.rnd) (half (tm.rd bix a 0 t) j)).2.map fun e => 4 * (transFmt f).idx + e).toList
  else ((fn (transFmt f) (rndOf tm.rnd) ((transFmt f).dec (floatBits tm bix (decide (f = TFmt.f64)) a t))).2.map fun e => 4 * (transFmt f).idx + e).toList

theorem transLane_spec (fn : TransFn) (f : TFmt) (tm : Team) (bix : Nat) (a : Reg) (t : Nat) :
    (transLane fn f tm bix a t).words.length = wordsW (decide (f = TFmt.f64)) ∧
    (∀ old j, j < wordsW (decide (f = TFmt.f64)) →
      merge (transMask f tm.pen) old ((transLane fn f tm bix a t).words.getD j 0) = transWord fn f tm bix a old t j) ∧
    (transLane fn f tm bix a t).events = transEvents fn f tm bix a t := by
  cases hp : transPacked f with
  | true =>
    have hw : decide (f = TFmt.f64) = false := by cases f <;> simp_all [transPacked]
    simp only [transLane, transWord, transEvents, hp, hw, if_true, wordsW, Bool.false_eq_true, if_false]
    refine ⟨rfl, fun old j hj => ?_, ?_⟩
    · obtain rfl : j = 0 := by omega
      exact (merge_packF _ hp _ _ _).trans (by simp only [half_eq])
    · rw [packF_events]; simp only [half_eq, evOf_eq]
  | false =>
    obtain ⟨hl, hg⟩ := outF_words (decide (f = TFmt.f64)) (fn (transFmt f) (rndOf tm.rnd) ((transFmt f).dec (tm.rdF bix (decide (f = TFmt.f64)) a t))).1
    simp only [transLane, transWord, transEvents, hp, Bool.false_eq_true, if_false]
    refine ⟨hl, fun old j hj => ?_, ?_⟩
    · rw [hg j hj, transMask, if_neg (by rw [hp]; exact Bool.false_ne_true), merge_allOnes, Team.rdF_eq_floatBits]
    · rw [evOf_eq, Team.rdF_eq_floatBits]

/-! ### The word -/

/-- The threads that a transcendental works for: t0 in the scalar form, and else the active ones. -/
def transThreads (tm : Team) (d a : Reg) : List Nat := if d.isScalar && a.isScalar then [tm.t0] else tm.actives

/-- The state that a transcendental ends in: its events counted, its result outstanding, its access in flight. -/
def State.transIssued (s : State) (fn : TransFn) (f : TFmt) (d a : Reg) (n : BitVec 4) : State :=
  (((s.countEvents (laneEvents s.team (d.isScalar && a.isScalar) (transEvents fn f s.team s.blk.bix a))).later (s.team.dest d)
    ((transThreads s.team d a).map fun t => (t, (transLane fn f s.team s.blk.bix a t).words)) n.toNat (transMask f s.team.pen)).issue
      { kind := .trans, paths := [], pc := s.team.pc, threads := transThreads s.team d a })

theorem execTrans_eq {s : State} {fn : TransFn} {f : TFmt} {d a : Reg} {n : BitVec 4}
    (h : s.team.windowFail [(d, wordsW (decide (f = TFmt.f64))), (a, wordsW (decide (f = TFmt.f64)))] = none) :
    execTrans fn f d a n s = .next ((s.transIssued fn f d a n).finish (if d.isScalar && a.isScalar then 0 else 2 * wordsW (decide (f = TFmt.f64)) * s.team.passes)) := by
  have hev : (if (d.isScalar && a.isScalar) && s.team.execZero then [] else
      ((transThreads s.team d a).map fun t => (t, transLane fn f s.team s.blk.bix a t)).flatMap fun e => if (d.isScalar && a.isScalar) || s.team.loud e.1 then e.2.events else []) =
      laneEvents s.team (d.isScalar && a.isScalar) (transEvents fn f s.team s.blk.bix a) := by
    unfold laneEvents transThreads
    cases hsc : d.isScalar && a.isScalar with
    | true => simp [(transLane_spec fn f s.team s.blk.bix a s.team.t0).2.2]
    | false =>
      simp only [Bool.false_and, Bool.false_eq_true, if_false, Bool.false_or, List.flatMap_map]
      simp only [(transLane_spec fn f s.team s.blk.bix a _).2.2]
  unfold State.transIssued
  rw [← hev]
  unfold execTrans
  simp only [h, List.map_map]
  rfl

/-- A register's own value does not depend on the block. -/
theorem Team.rd_dest (tm : Team) (bix : Nat) {d : Reg} (h : d.isV = true ∨ d.isS = true) (k t : Nat) : tm.rd 0 d k t = tm.rd bix d k t := by
  cases d <;> first | rfl | simp [Reg.isV, Reg.isS] at h

theorem Reg.isV_of_isScalar {d : Reg} (h : d.isScalar = true) : d.isV = false := by
  cases d <;> simp_all [Reg.isV, Reg.isScalar]

/-- A legal word of one source that takes no scalar form has no scalar destination. -/
theorem isS_of_vectorForm {d a : Reg} (h : mixOk d [a] = true) (hs : (d.isScalar && a.isScalar) = false) : d.isS = false := by
  cases d <;> simp_all [Reg.isS, Reg.isScalar, mixOk]

theorem mixOk_of_transOk {f : TFmt} {d a : Reg} (h : transOk f d a = true) : mixOk d [a] = true := by
  unfold transOk at h
  split at h
  · simp only [mixOk64, Bool.and_eq_true] at h; exact h.1.1
  · exact h

/-- The bits that a transcendental writes of word `j` of its destination. -/
theorem merge_transLane (fn : TransFn) (f : TFmt) (tm : Team) (bix : Nat) {d : Reg} (a : Reg) {t j : Nat} (hd : d.isV = true ∨ d.isS = true)
    (hj : j < wordsW (decide (f = TFmt.f64))) :
    merge (transMask f tm.pen) (tm.rd 0 d j t) ((transLane fn f tm bix a t).words.getD j 0) = transWord fn f tm bix a (tm.rd bix d 0 t) t j := by
  rw [(transLane_spec fn f tm bix a t).2.1 _ j hj]
  cases hp : transPacked f with
  | false => simp only [transWord, hp, Bool.false_eq_true, if_false]
  | true =>
    have h0 : j = 0 := by
      have : decide (f = TFmt.f64) = false := by cases f <;> simp_all [transPacked]
      rw [this] at hj; simpa [wordsW] using hj
    subst h0
    rw [tm.rd_dest bix hd]

/-- The team that a transcendental leaves before it ends. -/
theorem State.transIssued_team (s : State) (fn : TransFn) (f : TFmt) (d a : Reg) (n : BitVec 4) :
    s.team.gaveResult (s.transIssued fn f d a n).team := by
  have h := ((s.countEvents (laneEvents s.team (d.isScalar && a.isScalar) (transEvents fn f s.team s.blk.bix a))).later_issue_team
    (s.team.dest d) ((transThreads s.team d a).map fun t => (t, (transLane fn f s.team s.blk.bix a t).words)) n.toNat (transMask f s.team.pen)
    { kind := .trans, paths := [], pc := s.team.pc, threads := transThreads s.team d a } rfl).1
  rwa [State.countEvents_team] at h

/-- Once the result is written the destination holds each thread's value. -/
theorem State.transIssued_regs {s : State} (fn : TransFn) {f : TFmt} {d a : Reg} (n : BitVec 4) (hok : mixOk d [a] = true) (hp : s.team.pend = [])
    (hord : s.team.inOrder) (c : Nat) :
    RegsAre s.team ((s.transIssued fn f d a n).finish c).team.flush d (wordsW (decide (f = TFmt.f64)))
      fun t j => transWord fn f s.team s.blk.bix a (s.team.rd s.blk.bix d 0 t) t j := by
  have hteam := ((s.countEvents (laneEvents s.team (d.isScalar && a.isScalar) (transEvents fn f s.team s.blk.bix a))).later_issue_team
    (s.team.dest d) ((transThreads s.team d a).map fun t => (t, (transLane fn f s.team s.blk.bix a t).words)) n.toNat (transMask f s.team.pen)
    { kind := .trans, paths := [], pc := s.team.pc, threads := transThreads s.team d a } rfl).2
  have hord' : (s.transIssued fn f d a n).team.inOrder := Team.gaveResult_inOrder (s.transIssued_team fn f d a n) hord
  have hregs := State.later_finish_regs _ _ (by rw [State.countEvents_team]; exact hp) _ _ _ _ hteam c ((s.transIssued fn f d a n).team.pc + 4)
    (Team.inOrder_after hord' _)
  rw [State.countEvents_team] at hregs
  change Team.sameRegs _ ((s.transIssued fn f d a n).finish c).team.flush at hregs
  generalize ((s.transIssued fn f d a n).finish c).team.flush = new at hregs ⊢
  cases hs : d.isScalar && a.isScalar with
  | true =>
    rw [transThreads, if_pos hs, List.map_cons, List.map_nil] at hregs
    exact Team.regsAre_scalar (Reg.isV_of_isScalar (Bool.and_eq_true_iff.1 hs).1) (transLane_spec fn f s.team s.blk.bix a _).1
      (fun hd _ hj => merge_transLane fn f s.team s.blk.bix a (.inr hd) hj) hregs
  | false =>
    rw [transThreads, if_neg (by simp [hs])] at hregs
    exact Team.regsAre_vector (isS_of_vectorForm hok hs) s.team.actives_nodup (fun _ t => s.team.mem_actives t)
      (fun t => (transLane_spec fn f s.team s.blk.bix a t).1) (fun hd _ _ _ hj => merge_transLane fn f s.team s.blk.bix a (.inl hd) hj) hregs

/-- Beside its team a transcendental changes only what its events count, before it ends. -/
theorem State.transIssued_frame (s : State) (fn : TransFn) (f : TFmt) (d a : Reg) (n : BitVec 4) :
    s.transIssued fn f d a n =
      { s.countEvents (laneEvents s.team (d.isScalar && a.isScalar) (transEvents fn f s.team s.blk.bix a)) with team := (s.transIssued fn f d a n).team } := by
  unfold State.transIssued
  rw [State.issue_frame _ _ rfl]
  rfl

/-- A word that runs as a transcendental runs as R25, R82 and R323 say. -/
theorem transRuns_of {i : TFmt → Reg → Reg → BitVec 4 → Instr} {fn : TransFn} (hi : ∀ f d a n s, exec (i f d a n) s = execTrans fn f d a n s) :
    TransRuns i fn := by
  intro f d a n s hok k g r one el evs hw hp hord
  have hk : k = wordsW (decide (f = TFmt.f64)) := by cases f <;> rfl
  have hsc : scalarFields [(d, k), (a, k)] = (d.isScalar && a.isScalar) := by simp [scalarFields]
  have hord' : (s.transIssued fn f d a n).team.inOrder := Team.gaveResult_inOrder (s.transIssued_team fn f d a n) hord
  have hframe := s.transIssued_frame fn f d a n
  rw [hsc]
  refine ⟨_, (hi f d a n s).trans (execTrans_eq (hk ▸ hw)), ?_, State.finishPasses_frame_of hframe _ _,
    Team.gaveResult_issued (s.transIssued_team fn f d a n) (State.issued_finishPasses hord' _), issueBooks_congr ?_ ?_ (State.issueBooks_finishPasses _ _ _)⟩
  · rw [hk]; exact State.transIssued_regs fn n (mixOk_of_transOk hok) hp hord _
  · rw [hframe]; exact State.countEvents_core _ _
  · rw [hframe]; exact State.countEvents_teams _ _

/-- Settles O11: each of the seven runs as a transcendental of its function. -/
theorem transcendentalWords : Obligations.TranscendentalWords :=
  ⟨transRuns_of fun _ _ _ _ _ => rfl, transRuns_of fun _ _ _ _ _ => rfl, transRuns_of fun _ _ _ _ _ => rfl, transRuns_of fun _ _ _ _ _ => rfl,
    transRuns_of fun _ _ _ _ _ => rfl, transRuns_of fun _ _ _ _ _ => rfl, transRuns_of fun _ _ _ _ _ => rfl⟩

end Sys2Proof.Machine
end

