-- ==== Sys2Proof/Proofs/VoteAndMatchWords.lean ====
section
/-! PROOFS. `vote` and `match`: the words that the active threads of a group answer. -/

namespace Sys2Proof.Machine

open Sys2Proof Sys2Proof.Machine Sys2Proof.Claim

/-! ### Destinations -/

theorem destS_lt {d : Reg} {n r k : Nat} (h : destS d n r = some k) : k < n := by
  cases d <;> simp only [destS, reduceCtorEq, Option.ite_none_right_eq_some, Option.some.injEq] at h
  omega

theorem isS_of_destS {d : Reg} {n r k : Nat} (h : destS d n r = some k) : d.isS = true := by
  cases d <;> simp_all [destS, Reg.isS]

theorem Team.destV_lt {tm : Team} {d : Reg} {n r k : Nat} (h : tm.destV d n r = some k) : k < n := by
  cases d <;> simp only [Team.destV, reduceCtorEq, Option.ite_none_right_eq_some, Option.some.injEq] at h
  omega

/-- Only the words of the destination count. -/
theorem RegsWritten.congr {old new : Team} {d : Reg} {n : Nat} {f g : Nat → Nat → Word} (h : RegsWritten old new d n f)
    (hv : ∀ t, old.active t = true → ∀ j, j < n → f t j = g t j) (hs : d.isS = true → ∀ j, j < n → f old.t0 j = g old.t0 j) : RegsWritten old new d n g := by
  obtain ⟨hf, hV, hS, hP⟩ := h
  refine ⟨hf, fun t r => ?_, fun r => ?_, hP⟩
  · rw [hV]
    split
    · rename_i k hk
      split
      · exact hv t ‹_› k (Team.destV_lt hk)
      · rfl
    · rfl
  · rw [hS]
    split
    · rename_i k hk; exact hs (isS_of_destS hk) k (destS_lt hk)
    · rfl

/-- Writing a list of words in every active thread. -/
theorem Team.regsWritten_lanes (tm : Team) {d : Reg} (hd : d.isS = false) {n : Nat} (f : Nat → List Word) (hn : ∀ t, (f t).length = n) :
    RegsWritten tm (tm.actives.foldl (fun x u => x.wrWords d u (f u)) tm) d n fun t j => (f t).getD j 0 := by
  refine ⟨tm.regEq_wrAll d f _, fun t r => ?_, fun r => ?_, fun t p => Team.rdP_wrAll _ _ _ _ _ _⟩
  · rw [Team.rdV_wrAll _ _ _ _ tm.actives_nodup]
    cases d with
    | v b =>
      simp only [Team.destV, hn, Team.mem_actives]
      by_cases hr : 8 * tm.wb + b.val ≤ r ∧ r < 8 * tm.wb + b.val + n
      · simp only [hr, and_self, if_true, and_true]
      · rw [if_neg (fun h => hr h.2), if_neg hr]
    | _ => rfl
  · rw [Team.rdS_wrAll _ _ hd]
    cases d <;> first | rfl | simp [Reg.isS] at hd

/-- Writing one word to a scalar destination, or to none. -/
theorem Team.regsWritten_one (tm : Team) {d : Reg} (hd : d.isV = false) (t : Nat) (x : Word) :
    RegsWritten tm (tm.wr d 0 t x) d 1 fun _ _ => x := by
  refine ⟨tm.regEq_wr d 0 t x, fun u r => ?_, fun r => ?_, fun u p => Team.rdP_wr _ _ _ _ _ _ _⟩
  · rw [Team.rdV_wr]
    cases d <;> first | rfl | simp [Reg.isV] at hd
  · rw [Team.rdS_wr]
    cases d with
    | s b =>
      simp only [destS]
      by_cases h : r = b.val + 0
      · rw [if_pos h, if_pos (by omega)]
      · rw [if_neg h, if_neg (by omega)]
    | _ => rfl

/-- Writing one word in every active thread. -/
theorem Team.regsWritten_wrEach (tm : Team) {d : Reg} (hd : d.isS = false) (f : Nat → Word) : RegsWritten tm (tm.wrEach d f) d 1 fun t _ => f t := by
  have h : tm.wrEach d f = tm.actives.foldl (fun x u => x.wrWords d u [f u]) tm := by
    unfold Team.wrEach
    rw [Team.foldl_map_lanes (fun x t w => x.wr d 0 t w)]
    rfl
  rw [h]
  refine (tm.regsWritten_lanes (n := 1) hd (fun t => [f t]) (fun _ => rfl)).congr (fun t _ j hj => ?_) fun _ j hj => ?_
  all_goals
    obtain rfl : j = 0 := by omega
    rfl

theorem Team.windowFail_one {tm : Team} {r : Reg} {n : Nat} (h : tm.inWindow r n = true) : tm.windowFail [(r, n)] = none := by
  simp [Team.windowFail, h]

/-! ### Masks -/

/-- The bits of a mask formed bit by bit. -/
theorem testBit_foldl_or (bit : Nat → Nat) (ys : List Nat) (m j : Nat) :
    (ys.foldl (fun m t => m ||| 2 ^ bit t) m).testBit j = (m.testBit j || ys.any fun t => bit t == j) := by
  induction ys generalizing m with
  | nil => simp
  | cons y ys ih =>
    rw [List.foldl_cons, ih, Nat.testBit_or, Nat.testBit_two_pow, List.any_cons, Bool.or_assoc]
    congr 2

/-- A mask of different bits is the sum of their values. -/
theorem ofNat_foldl_or (bit : Nat → Nat) (ys : List Nat) (h : (ys.map bit).Nodup) (m : Nat) (hm : ∀ y ∈ ys, m.testBit (bit y) = false) :
    BitVec.ofNat 32 (ys.foldl (fun m t => m ||| 2 ^ bit t) m) = BitVec.ofNat 32 m + BitVec.ofNat 32 (ys.map fun t => 2 ^ bit t).sum := by
  induction ys generalizing m with
  | nil => simp
  | cons y ys ih =>
    obtain ⟨hy, hys⟩ := List.nodup_cons.1 h
    have hdis : BitVec.ofNat 32 m &&& BitVec.ofNat 32 (2 ^ bit y) = 0#32 := by
      apply BitVec.eq_of_getLsbD_eq
      intro j hj
      rw [BitVec.getLsbD_and, BitVec.getLsbD_ofNat, BitVec.getLsbD_ofNat, Nat.testBit_two_pow]
      by_cases hb : bit y = j
      · rw [← hb, hm y (by simp)]; simp
      · simp [hb]
    rw [List.foldl_cons, ih hys _ fun z hz => ?_, BitVec.ofNat_or, ← BitVec.add_eq_or_of_and_eq_zero _ _ hdis, List.map_cons, List.sum_cons, BitVec.ofNat_add,
      BitVec.add_assoc]
    rw [Nat.testBit_or, hm z (by simp [hz]), Nat.testBit_two_pow, Bool.false_or]
    exact decide_eq_false fun e => hy (e ▸ List.mem_map_of_mem hz)

/-! ### Groups -/

/-- Two threads lie in one group when they share their mask word and their place among its partitions (R212). -/
theorem Team.gb_eq_iff (tm : Team) (t u : Nat) : tm.gb u = tm.gb t ↔ u / 32 = t / 32 ∧ u % 32 / tm.part = t % 32 / tm.part := by
  have bound : ∀ x, tm.part * (x % 32 / tm.part) < 32 := fun x => (Nat.mul_div_le _ _).trans_lt (Nat.mod_lt _ (by decide))
  have hu := bound u
  have ht := bound t
  unfold Team.gb
  constructor
  · intro h
    have hq : tm.part * (u % 32 / tm.part) = tm.part * (t % 32 / tm.part) := by omega
    refine ⟨by omega, ?_⟩
    rcases Nat.eq_zero_or_pos tm.part with h0 | h0
    · simp [h0]
    · exact Nat.eq_of_mul_eq_mul_left h0 hq
  · rintro ⟨h1, h2⟩; rw [h1, h2]

theorem Team.group_eq (tm : Team) (t : Nat) : tm.group t = groupOfThread tm t := by
  unfold Team.group groupOfThread
  refine List.filter_congr fun u _ => ?_
  rw [Bool.eq_iff_iff]
  simp [Team.gb_eq_iff]

/-- The threads of a group have different bits in their mask. -/
theorem groupBits_nodup (tm : Team) (t : Nat) (p : Nat → Bool) : (((groupOfThread tm t).filter p).map fun u => u % 32).Nodup := by
  refine List.Nodup.map_on (fun u hu v hv huv => ?_) ((tm.actives_nodup.filter _).filter _)
  have hu' := (List.mem_filter.1 (List.mem_filter.1 hu).1).2
  have hv' := (List.mem_filter.1 (List.mem_filter.1 hv).1).2
  simp only [Bool.and_eq_true, decide_eq_true_eq] at hu' hv'
  omega

/-! ### `vote` -/

theorem ofNat_sum_range_filter (q : Nat → Bool) {j : Nat} (hj : j < 32) :
    (BitVec.ofNat 32 (((List.range 32).filter q).map fun i => 2 ^ i).sum).getLsbD j = q j := by
  have h := ofNat_foldl_or id ((List.range 32).filter q) (by rw [List.map_id]; exact List.nodup_range.filter _) 0 (fun _ _ => Nat.zero_testBit _)
  rw [BitVec.zero_add] at h
  simp only [id] at h
  rw [← h, BitVec.getLsbD_ofNat, testBit_foldl_or (fun i => i)]
  have hany : ((List.range 32).filter q).any (fun t => t == j) = q j := by
    rw [Bool.eq_iff_iff, List.any_eq_true]
    refine ⟨fun ⟨x, hx, he⟩ => ?_, fun hq => ⟨j, by simp [hj, hq], by simp⟩⟩
    rw [← beq_iff_eq.1 he]; exact (List.mem_filter.1 hx).2
  rw [hany]; simp [hj]

theorem voteOf_eq (k : VoteKind) (tm : Team) (p : Pred) (g : List Nat) (bit : Nat → Nat) :
    voteOf k tm p g bit = voteValue k g (fun u => predOf tm u p) bit := by
  have hp : (fun t => tm.pred t p) = fun t => predOf tm t p := funext fun t => tm.pred_eq_predOf t p
  unfold voteOf voteValue
  rw [hp]
  cases k with
  | some =>
    by_cases h : g.any (fun u => predOf tm u p) = true
    · rw [if_pos h]; simp only [boolWord]; rw [if_pos]; simpa using h
    · rw [if_neg h]; simp only [boolWord]; rw [if_neg]; simpa using h
  | every =>
    by_cases h : g.all (fun u => predOf tm u p) = true
    · rw [if_pos h]; simp only [boolWord]; rw [if_pos]; simpa [List.filter_eq_self, ← List.countP_eq_length_filter, List.countP_eq_length] using h
    · rw [if_neg h]; simp only [boolWord]; rw [if_neg]; simpa [← List.countP_eq_length_filter, List.countP_eq_length] using h
  | mask =>
    apply BitVec.eq_of_getLsbD_eq
    intro j hj
    rw [ofNat_sum_range_filter _ hj, BitVec.getLsbD_ofNat, testBit_foldl_or]
    simp [hj, List.any_filter]
  | count => exact congrArg (BitVec.ofNat 32) (List.countP_eq_length_filter).symm

theorem exec_vote {k : VoteKind} {d : Reg} {p : Pred} {s : State} (h : s.team.inWindow d 1 = true) :
    exec (.vote k d p) s =
      if scalarDst d then
        (if s.team.flush.execZero then .next (({ s with team := s.team.flush } : State).finish 1)
        else .next (({ s with team := s.team.flush.wr d 0 0 (voteOf k s.team.flush p s.team.flush.actives (· / 32)) } : State).finish (s.team.flush.passes + 1)))
      else .next (({ s with team := s.team.wrEach d fun t => voteOf k s.team p (s.team.group t) (· % 32) } : State).finish s.team.passes) := by
  show execVote k d p s = _
  unfold execVote
  rw [Team.windowFail_one h]

/-- Writing outstanding results leaves the active threads. -/
theorem Team.flush_actives (tm : Team) : tm.flush.actives = tm.actives ∧ tm.flush.passes = tm.passes := by
  rw [Team.flush_frame]; exact ⟨rfl, rfl⟩

theorem voteWordClaim : VoteWordClaim := by
  intro k d p s hw
  rw [exec_vote hw]
  refine ⟨fun hd => ?_, fun hd hz => ?_, fun hd hz _ => ?_⟩
  · have hS : d.isS = false := by cases d <;> first | rfl | simp [Reg.isV] at hd
    refine ⟨_, ?_, if_neg (by simp [scalarDst, hd])⟩
    simp only [voteOf_eq, Team.group_eq]
    exact s.team.regsWritten_wrEach hS _
  · have hV : scalarDst d = true := by cases d <;> first | rfl | simp [Reg.isSZ] at hd
    rw [if_pos hV, if_pos hz]
  · have hV : scalarDst d = true := by cases d <;> first | rfl | simp [Reg.isSZ] at hd
    refine ⟨_, ?_, (if_pos hV).trans ((if_neg (by simp [hz])).trans (by rw [s.team.flush_actives.2]))⟩
    rw [voteOf_eq, s.team.flush_actives.1]
    exact s.team.flush.regsWritten_one (by simpa [scalarDst] using hV) _ _

/-! ### `match` -/

theorem signOf_f32 : FFmt.f32.signOf = 2 ^ 31 := by decide
theorem signOf_f64 : FFmt.f64.signOf = 2 ^ 63 := by decide

/-- A key, with -0 as +0 (R216): equal numbers are equal keys. -/
theorem zeroFold_eq_iff {n m c : Nat} (hn : n < 2 * c) (hm : m < 2 * c) (hc : 0 < c) :
    ((if n = c then 0 else n) = if m = c then 0 else m) ↔ n = m ∨ (n % c = 0 ∧ m % c = 0) := by
  have key : ∀ {x}, x < 2 * c → (x % c = 0 ↔ x = 0 ∨ x = c) := by
    intro x hx
    constructor
    · intro h
      obtain ⟨q, rfl⟩ := Nat.dvd_of_mod_eq_zero h
      have : q < 2 := Nat.lt_of_mul_lt_mul_left (a := c) (by omega)
      interval_cases q <;> simp
    · rintro (rfl | rfl) <;> simp
  rw [key hn, key hm]
  split <;> split <;> omega

/-- Two numbers that are no NaN match when they are equal or both zero. -/
theorem foldedKeys_eq {w : Nat} (x y : BitVec w) (c : Nat) (hc : 0 < c) (hw : 2 ^ w = 2 * c) :
    ((if y.toNat = c then 0 else y.toNat) = if x.toNat = c then 0 else x.toNat) ↔ (decide (x = y) || (decide (x.toNat % c = 0) && decide (y.toNat % c = 0))) = true := by
  rw [zeroFold_eq_iff (hw ▸ y.isLt) (hw ▸ x.isLt) hc, BitVec.toNat_inj]
  simp only [Bool.or_eq_true, Bool.and_eq_true, decide_eq_true_eq]
  tauto

/-- Two keys match when the model gives them one number (R216). -/
theorem matchKeyOf_eq (k : KeyTy) (x y : DWord) :
    (matchKeyOf k x ≠ none ∧ matchKeyOf k y = matchKeyOf k x) ↔ keysMatch k x y = true := by
  cases k with
  | b32 =>
    simp only [matchKeyOf, keysMatch, ne_eq, reduceCtorEq, not_false_eq_true, true_and, Option.some.injEq, BitVec.toNat_inj, decide_eq_true_eq]
    exact eq_comm
  | f32 =>
    have h := foldedKeys_eq (loWord x) (loWord y) (2 ^ 31) (by decide) rfl
    simp only [matchKeyOf, keysMatch, signOf_f32]
    cases (FFmt.f32.dec (loWord x).toNat).isNan <;> cases (FFmt.f32.dec (loWord y).toNat).isNan <;> simp only [Bool.not_false, Bool.not_true, Bool.true_and, Bool.false_and, ← h] <;> simp
  | f64 =>
    have h := foldedKeys_eq x y (2 ^ 63) (by decide) rfl
    simp only [matchKeyOf, keysMatch, signOf_f64]
    cases (FFmt.f64.dec x.toNat).isNan <;> cases (FFmt.f64.dec y.toNat).isNan <;> simp only [Bool.not_false, Bool.not_true, Bool.true_and, Bool.false_and, ← h] <;> simp

/-- The threads of the group of `t` whose key matches, `t` itself included (R216). -/
def sameKeys (tm : Team) (k : KeyTy) (key : Nat → DWord) (t : Nat) : List Nat :=
  (groupOfThread tm t).filter fun u => decide (u = t) || keysMatch k (key t) (key u)

/-- The mask of matching threads as the model forms it. -/
def matchMask (tm : Team) (k : KeyTy) (key : Nat → DWord) (t : Nat) : Nat :=
  match matchKeyOf k (key t) with
  | none => 2 ^ (t % 32)
  | some x => (tm.group t).foldl (fun m u => if matchKeyOf k (key u) = some x then m ||| 2 ^ (u % 32) else m) 0

theorem mem_groupOfThread_self {tm : Team} {t : Nat} (h : tm.active t = true) : t ∈ groupOfThread tm t := by
  simp [groupOfThread, h]

theorem sameKeys_nodup (tm : Team) (k : KeyTy) (key : Nat → DWord) (t : Nat) : ((sameKeys tm k key t).map fun u => u % 32).Nodup :=
  groupBits_nodup tm t _

theorem matchMask_eq {tm : Team} (k : KeyTy) (key : Nat → DWord) {t : Nat} (h : tm.active t = true) :
    matchMask tm k key t = (sameKeys tm k key t).foldl (fun m u => m ||| 2 ^ (u % 32)) 0 := by
  unfold matchMask sameKeys
  split
  · rename_i hk
    have hp : (groupOfThread tm t).filter (fun u => decide (u = t) || keysMatch k (key t) (key u)) = (groupOfThread tm t).filter (fun u => u == t) := by
      refine List.filter_congr fun u _ => ?_
      have hm : keysMatch k (key t) (key u) = false := by
        rw [← Bool.not_eq_true, ← matchKeyOf_eq]; exact fun hc => hc.1 hk
      rw [hm, Bool.or_false]; rfl
    rw [hp, List.filter_beq, List.count_eq_one_of_mem (show (groupOfThread tm t).Nodup from tm.actives_nodup.filter _) (mem_groupOfThread_self h)]
    simp
  · rename_i x hk
    rw [Team.group_eq, List.foldl_filter]
    congr 1
    funext m u
    have hm : matchKeyOf k (key u) = some x ↔ (decide (u = t) || keysMatch k (key t) (key u)) = true := by
      rw [Bool.or_eq_true, decide_eq_true_eq, ← matchKeyOf_eq, hk]
      refine ⟨fun hu => .inr ⟨by simp, hu⟩, ?_⟩
      rintro (rfl | ⟨-, hu⟩)
      · exact hk
      · exact hu
    simp only [hm]

/-- The mask of matching threads as a sum (R216). -/
theorem ofNat_matchMask {tm : Team} (k : KeyTy) (key : Nat → DWord) {t : Nat} (h : tm.active t = true) :
    BitVec.ofNat 32 (matchMask tm k key t) = BitVec.ofNat 32 ((sameKeys tm k key t).map fun u => 2 ^ (u % 32)).sum := by
  rw [matchMask_eq k key h, ofNat_foldl_or (fun u => u % 32) _ (sameKeys_nodup tm k key t) 0 fun _ _ => Nat.zero_testBit _]
  exact BitVec.zero_add _

/-- The number of bits below place `r` of a mask of different bits. -/
theorem popcW_below {bit : Nat → Nat} {ys : List Nat} (h : (ys.map bit).Nodup) {r : Nat} (hr : r < 32) :
    popcW (BitVec.ofNat 32 (ys.foldl (fun m t => m ||| 2 ^ bit t) 0 % 2 ^ r)) = BitVec.ofNat 32 (ys.countP fun u => decide (bit u < r)) := by
  unfold popcW
  congr 1
  have hperm : ((upList 0 32).filter fun i => (BitVec.ofNat 32 (ys.foldl (fun m t => m ||| 2 ^ bit t) 0 % 2 ^ r)).getLsbD i).Perm ((ys.map bit).filter fun b => decide (b < r)) := by
    refine (List.perm_ext_iff_of_nodup ((upList_nodup 0 32).filter _) (h.filter _)).2 fun i => ?_
    simp only [List.mem_filter, mem_upList, BitVec.getLsbD_ofNat, Nat.testBit_mod_two_pow, testBit_foldl_or, Nat.zero_testBit, Bool.false_or, Bool.and_eq_true,
      decide_eq_true_eq, List.any_eq_true, beq_iff_eq, List.mem_map]
    exact ⟨fun ⟨_, _, hlt, hy⟩ => ⟨hy, hlt⟩, fun ⟨hy, hlt⟩ => ⟨by omega, by omega, hlt, hy⟩⟩
  rw [hperm.length_eq, List.filter_map, List.length_map, ← List.countP_eq_length_filter]
  rfl

/-- The rank of a thread among the matching ones (R216, R356). -/
theorem rank_eq {tm : Team} (k : KeyTy) (key : Nat → DWord) {t : Nat} (h : tm.active t = true) :
    popcW (BitVec.ofNat 32 (matchMask tm k key t % 2 ^ (t % 32))) = BitVec.ofNat 32 ((sameKeys tm k key t).countP fun u => decide (u < t)) := by
  rw [matchMask_eq k key h, popcW_below (sameKeys_nodup tm k key t) (Nat.mod_lt _ (by decide))]
  congr 1
  refine List.countP_congr fun u hu => ?_
  have hg := (List.mem_filter.1 (List.mem_filter.1 hu).1).2
  simp only [Bool.and_eq_true, decide_eq_true_eq] at hg
  simp only [decide_eq_true_eq]
  omega

/-- The key of a thread (R216, R356). -/
def matchKey (s : State) (k : KeyTy) (a : Reg) (t : Nat) : DWord :=
  pairOf (s.team.rd s.blk.bix a 0 t) (if k = KeyTy.f64 then s.team.rd s.blk.bix a 1 t else 0)

/-- The words that a thread is given: its mask, and its rank (R356). -/
def matchWords (s : State) (k : KeyTy) (rank : Bool) (a : Reg) (t : Nat) : List Word :=
  BitVec.ofNat 32 (matchMask s.team k (matchKey s k a) t) ::
    if rank then [popcW (BitVec.ofNat 32 (matchMask s.team k (matchKey s k a) t % 2 ^ (t % 32)))] else []

theorem exec_match {k : KeyTy} {rank : Bool} {i : Fin 88} {a : Reg} {s : State}
    (h : s.team.windowFail [(.v i, if rank then 2 else 1), (a, if k = KeyTy.f64 then 2 else 1)] = none) :
    exec (.matchKey k rank (.v i) a) s =
      .next (({ s with team := s.team.actives.foldl (fun x t => x.wrWords (.v i) t (matchWords s k rank a t)) s.team } : State).finish
        (((if k = KeyTy.f64 then 4 else 2) + if rank then 1 else 0) * s.team.passes)) := by
  have hkey : (fun t => if k = KeyTy.f64 then s.team.rd64 s.blk.bix a t else pairOf (s.team.rd s.blk.bix a 0 t) 0) = matchKey s k a := by
    funext t
    unfold matchKey Team.rd64
    split <;> rfl
  show execMatchKey k rank (.v i) a s = _
  unfold execMatchKey
  simp only [h]
  rw [Team.foldl_map_lanes (fun y t m => let y := y.wr (.v i) 0 t (BitVec.ofNat 32 m)
    if rank then y.wr (.v i) 1 t (popcW (BitVec.ofNat 32 (m % 2 ^ (t % 32)))) else y)]
  have hstep : ∀ (y : Team) (t : Nat), y.wrWords (.v i) t (matchWords s k rank a t) =
      let z := y.wr (.v i) 0 t (BitVec.ofNat 32 (matchMask s.team k (matchKey s k a) t))
      if rank then z.wr (.v i) 1 t (popcW (BitVec.ofNat 32 (matchMask s.team k (matchKey s k a) t % 2 ^ (t % 32)))) else z := by
    intro y t; cases rank <;> rfl
  simp only [hstep]
  rw [← hkey]
  rfl

theorem matchWordClaim : MatchWordClaim := by
  intro k rank i a s n m hw key same
  refine ⟨_, ?_, exec_match hw⟩
  refine (s.team.regsWritten_lanes (n := n) rfl (matchWords s k rank a) fun t => by cases rank <;> rfl).congr (fun t ht j hj => ?_) fun hd => by cases hd
  match j with
  | 0 => exact ofNat_matchMask k (matchKey s k a) ht
  | 1 =>
    have hr : rank = true := by cases rank with
      | true => rfl
      | false => simp [n] at hj
    simp only [matchWords, hr, if_true]
    exact rank_eq k (matchKey s k a) ht
  | j + 2 =>
    have : n ≤ 2 := by simp only [n]; split <;> decide
    omega

/-- Settles O13: the masks and counts of a group's threads, bit by bit. -/
theorem voteAndMatchWords : Obligations.VoteAndMatchWords := ⟨voteWordClaim, matchWordClaim⟩

end Sys2Proof.Machine
end

