-- ==== Sys2Proof/Proofs/LimbWords.lean ====
section
/-! PROOFS. The limb words: the number that the bound threads hold, its flags, and the one way in which a limb word runs. -/

namespace Sys2Proof.Machine

open Sys2Proof Sys2Proof.Machine Sys2Proof.Claim

/-! ### Counting lists and sums -/

theorem upList_eq_range' (lo n : Nat) : upList lo n = List.range' lo n := by
  induction n generalizing lo with
  | zero => rfl
  | succ n ih => rw [upList, ih, List.range'_succ]

theorem upList_zero_eq_range (n : Nat) : upList 0 n = List.range n := by
  rw [upList_eq_range', List.range_eq_range']

theorem foldl_add_eq_sum (f : Nat → Nat) (ts : List Nat) (m : Nat) : ts.foldl (fun n t => n + f t) m = m + (ts.map f).sum := by
  induction ts generalizing m with
  | nil => rfl
  | cons t ts ih => rw [List.foldl_cons, ih, List.map_cons, List.sum_cons, Nat.add_assoc]

/-! ### The number of the bound threads -/

theorem Team.limb_eq_limbValue (tm : Team) (bix : Nat) (r : Reg) : tm.limb bix r = limbValue tm bix r := by
  unfold Team.limb limbValue
  rw [upList_zero_eq_range, foldl_add_eq_sum (fun t => (tm.rd bix r 0 t).toNat * 2 ^ (32 * t)), Nat.zero_add]

theorem sum_limbs_lt (f : Nat → Word) (n : Nat) : ((List.range n).map fun t => (f t).toNat * 2 ^ (32 * t)).sum < 2 ^ (32 * n) := by
  induction n with
  | zero => simp
  | succ n ih =>
    have h : ((f n).toNat + 1) * 2 ^ (32 * n) ≤ 2 ^ 32 * 2 ^ (32 * n) := Nat.mul_le_mul_right _ (f n).isLt
    rw [List.range_succ, List.map_append, List.sum_append, List.map_singleton, List.sum_singleton]
    rw [show 32 * (n + 1) = 32 + 32 * n by omega, Nat.pow_add]
    rw [Nat.add_mul] at h
    omega

theorem limbValue_lt (tm : Team) (bix : Nat) (r : Reg) : limbValue tm bix r < 2 ^ (32 * tm.limbs) := sum_limbs_lt _ _

/-! ### Signs and flags -/

/-- The sign bit of N limbs weighs half of their range. -/
theorem two_mul_signWeight {n : Nat} (hn : n ≠ 0) : 2 ^ (32 * n) = 2 * 2 ^ (32 * n - 1) := by
  rw [← Nat.pow_succ']; congr 1; omega

theorem slimb_eq {n : Nat} (hn : n ≠ 0) (x : Nat) : slimb n x = limbSigned n x := by
  unfold slimb limbSigned
  have h := two_mul_signWeight hn
  by_cases hx : 2 ^ (32 * n - 1) ≤ x
  · rw [if_pos hx, if_pos (by omega)]
  · rw [if_neg hx, if_neg (by omega)]

theorem not_limbInRange {n : Nat} (hn : n ≠ 0) (v : Int) : (!limbInRange n v) = limbOverflow n v := by
  have h : (2 : Int) ^ (32 * n) = 2 * 2 ^ (32 * n - 1) := by exact_mod_cast two_mul_signWeight hn
  unfold limbInRange limbOverflow
  rw [Bool.not_and, ← decide_not, ← decide_not, h]
  congr 1 <;> rw [decide_eq_decide] <;> omega

theorem limbFlags_toNat (n z v c : Bool) :
    (limbFlags n z v c).toNat = 8 * n.toNat + (if z then 4 else 0) + (if v then 2 else 0) + (if c then 1 else 0) := by
  cases n <;> cases z <;> cases v <;> cases c <;> rfl

theorem LimbRes.flags_toNat (r : LimbRes) (n : Nat) :
    (r.flags n).toNat = 8 * (r.x / 2 ^ (32 * n - 1) % 2) + (if r.z then 4 else 0) + (if r.v then 2 else 0) + (if r.c then 1 else 0) := by
  rw [LimbRes.flags, limbFlags_toNat]
  rcases Nat.mod_two_eq_zero_or_one (r.x / 2 ^ (32 * n - 1)) with h | h <;> simp [h]

/-! ### The limbs of a result -/

theorem Team.putLimbs_eq (tm : Team) (d : Reg) (x : Nat) :
    tm.putLimbs d x = (upList 0 tm.limbs).foldl (fun y t => y.wrWords d t [BitVec.ofNat 32 (x / 2 ^ (32 * t))]) tm := rfl

/-- Writing the limbs of a number changes the destination of the bound threads alone. -/
theorem Team.putLimbs_rdV (tm : Team) {d : Reg} (x t r : Nat) :
    (tm.putLimbs d x).rdV t r = match tm.destV d 1 r with
      | some _ => if t < tm.limbs then BitVec.ofNat 32 (x / 2 ^ (32 * t)) else tm.rdV t r
      | none => tm.rdV t r := by
  rw [Team.putLimbs_eq, Team.rdV_wrAll _ _ _ _ (upList_nodup _ _)]
  cases d with
  | v i =>
    simp only [Team.destV, List.length_singleton, mem_upList, Nat.zero_le, true_and, Nat.zero_add]
    by_cases hr : 8 * tm.wb + i.val ≤ r ∧ r < 8 * tm.wb + i.val + 1
    · have h0 : r - (8 * tm.wb + i.val) = 0 := by omega
      simp [hr, h0]
    · rw [if_neg (fun h => hr h.2), if_neg hr]
  | _ => rfl

theorem Team.putLimbs_frame (tm : Team) {d : Reg} (hd : d.isS = false) (x : Nat) : tm.putLimbs d x = { tm with v := (tm.putLimbs d x).v } := by
  have hwr : ∀ (y : Team) (t : Nat) (w : Word), y.wr d 0 t w = { y with v := (y.wr d 0 t w).v } := by
    intro y t w
    cases d <;> first | rfl | simp [Reg.isS] at hd
  unfold Team.putLimbs
  refine foldl_keeps (P := fun y : Team => y = { tm with v := y.v }) (fun y t hy => ?_) _ _ rfl
  rw [hwr, hy]

/-! ### A limb word -/

/-- The team that a limb word leaves: its limbs put, where it names a destination, and its flags. -/
def limbTeam (tm : Team) (d : Option Reg) (r : LimbRes) : Team :=
  { (match d with
      | some d => tm.putLimbs d r.x
      | none => tm) with limbf := r.flags tm.limbs }

theorem execLimb_run {regs : List Reg} {d : Option Reg} {f : Team → Nat → LimbRes} {cost : Nat → Nat} {s : State}
    (hw : s.team.windowFail (regs.map fun r => (r, 1)) = none) (hn : s.team.limbs ≠ 0) (ha : ∀ t, t < s.team.limbs → s.team.active t = true) :
    execLimb regs d f cost s = .next (({ s with team := limbTeam s.team d (f s.team s.team.limbs) } : State).finish (cost ((s.team.limbs + 31) / 32))) := by
  have hz : s.team.execZero = false := by
    have h0 : 0 ∈ s.team.actives := (s.team.mem_actives 0).2 (ha 0 (by omega))
    unfold Team.execZero
    cases h : s.team.actives with
    | nil => rw [h] at h0; cases h0
    | cons t ts => rfl
  have hall : (upList 0 s.team.limbs).all s.team.active = true := by simpa using ha
  unfold execLimb
  simp only [hw, hz, hn, hall]
  rfl

/-- A word that runs as a limb word runs as R15, R78, R103 and R109 say of its result. -/
theorem limbRuns_of (f : State → Team → Nat → LimbRes) {i : Instr} {fs : List Reg} {d : Reg} {od : Option Reg} {x : Team → Nat → Nat} {z v c : Team → Nat → Bool} {cost : Team → Nat → Nat → Nat}
    (hd : (od = some d ∧ d.isS = false) ∨ (od = none ∧ d = .zr))
    (hi : ∀ s : State, exec i s = execLimb fs od (f s) (cost s.team s.blk.bix) s)
    (hr : ∀ s : State, s.team.limbs ≠ 0 →
      f s s.team s.team.limbs = { x := x s.team s.blk.bix, z := z s.team s.blk.bix, v := v s.team s.blk.bix, c := c s.team s.blk.bix }) :
    LimbRuns i fs d x z v c cost := by
  intro s tm n
  rw [hi]
  refine ⟨fun g hg => ?_, fun hw hz => ?_, fun hw hz hn => ?_, fun hw hn ha => ?_, fun hw hn ha => ⟨limbTeam tm od (f s tm n), ?_, fun t r => ?_, ?_, execLimb_run hw hn ha⟩⟩
  · unfold execLimb; simp only [show s.team.windowFail _ = some g from hg]
  · unfold execLimb; simp only [show s.team.windowFail _ = none from hw, show s.team.execZero = true from hz, if_true]
  · unfold execLimb
    simp only [show s.team.windowFail _ = none from hw, show s.team.execZero = false from hz, show s.team.limbs = 0 from hn, if_true, Bool.false_eq_true, if_false]
  · have hall : ((upList 0 s.team.limbs).all s.team.active) = false := by simpa using ha
    unfold execLimb
    simp only [show s.team.windowFail _ = none from hw, show s.team.limbs ≠ 0 from hn, hall, Bool.not_false, if_true, if_false, ite_self]
  · rcases hd with ⟨rfl, hS⟩ | ⟨rfl, rfl⟩
    · unfold limbTeam; dsimp only; rw [Team.putLimbs_frame _ hS]
    · rfl
  · rw [hr s hn]
    rcases hd with ⟨rfl, hS⟩ | ⟨rfl, rfl⟩
    · exact tm.putLimbs_rdV _ t r
    · rfl
  · rw [hr s hn]
    exact LimbRes.flags_toNat _ _

/-! ### Sums, differences and comparison -/

theorem isS_of_limbOk {d a : Reg} (h : limbOk d a = true) : d.isS = false := by
  cases d <;> simp_all [limbOk, Reg.isS, Reg.isVZ]

theorem limbAdd_eq {n : Nat} (hn : n ≠ 0) (a b : Nat) : limbAdd n a b =
    { x := (a + b) % 2 ^ (32 * n), z := decide ((a + b) % 2 ^ (32 * n) = 0), v := limbOverflow n (limbSigned n a + limbSigned n b), c := decide (2 ^ (32 * n) ≤ a + b) } := by
  simp only [limbAdd, not_limbInRange hn, slimb_eq hn]; rfl

/-- The difference of two numbers of N limbs is 0 when they are equal. -/
theorem limbSub_x_zero {m a b : Nat} (ha : a < m) (hb : b < m) : (a + m - b) % m = 0 ↔ a = b := by
  constructor
  · intro h
    rcases Nat.lt_or_ge a b with hlt | hge
    · rw [Nat.mod_eq_of_lt (by omega)] at h; omega
    · rw [show a + m - b = (a - b) + m by omega, Nat.add_mod_right, Nat.mod_eq_of_lt (by omega)] at h; omega
  · rintro rfl; rw [Nat.add_sub_cancel_left]; exact Nat.mod_self m

theorem limbSub_eq {n a b : Nat} (hn : n ≠ 0) (ha : a < 2 ^ (32 * n)) (hb : b < 2 ^ (32 * n)) : limbSub n a b =
    { x := (a + 2 ^ (32 * n) - b) % 2 ^ (32 * n), z := decide (a = b), v := limbOverflow n (limbSigned n a - limbSigned n b), c := decide (b ≤ a) } := by
  have hz : ((a + 2 ^ (32 * n) - b) % 2 ^ (32 * n) == 0) = decide (a = b) := by
    rw [Bool.eq_iff_iff, beq_iff_eq, decide_eq_true_eq]; exact limbSub_x_zero ha hb
  simp only [limbSub, not_limbInRange hn, slimb_eq hn, hz]

theorem limbSigned_zero {n : Nat} : limbSigned n 0 = 0 := by
  unfold limbSigned
  rw [if_neg (by have := Nat.two_pow_pos (32 * n); omega)]; rfl

/-- The difference of 0 and a number is its negation. -/
theorem limbNeg_eq {n b : Nat} (hn : n ≠ 0) (hb : b < 2 ^ (32 * n)) : limbSub n 0 b =
    { x := (2 ^ (32 * n) - b) % 2 ^ (32 * n), z := decide (b = 0), v := limbOverflow n (-limbSigned n b), c := decide (b = 0) } := by
  rw [limbSub_eq hn (Nat.two_pow_pos _) hb, limbSigned_zero, Nat.zero_add, Int.zero_sub]
  congr 1
  · rw [decide_eq_decide]; exact eq_comm
  · rw [decide_eq_decide]; exact Nat.le_zero

theorem limbAddWordsClaim : LimbAddWordsClaim := by
  intro d a b hd hb A B M S one
  have hS := isS_of_limbOk hd
  refine ⟨limbRuns_of (fun s tm n => limbAdd n (tm.limb s.blk.bix a) (tm.limb s.blk.bix b)) (.inl ⟨rfl, hS⟩) (fun _ => rfl) fun s hn => ?_,
    limbRuns_of (fun s tm n => limbSub n (tm.limb s.blk.bix a) (tm.limb s.blk.bix b)) (.inl ⟨rfl, hS⟩) (fun _ => rfl) fun s hn => ?_,
    limbRuns_of (fun s tm n => limbSub n 0 (tm.limb s.blk.bix a)) (.inl ⟨rfl, hS⟩) (fun _ => rfl) fun s hn => ?_,
    limbRuns_of (fun s tm n => limbCmp n (tm.limb s.blk.bix a) (tm.limb s.blk.bix b)) (.inr ⟨rfl, rfl⟩) (fun _ => rfl) fun s hn => ?_⟩
  all_goals simp only [Team.limb_eq_limbValue]
  · exact limbAdd_eq hn _ _
  · exact limbSub_eq hn (limbValue_lt _ _ _) (limbValue_lt _ _ _)
  · exact limbNeg_eq hn (limbValue_lt _ _ _)
  · rw [limbCmp, limbSub_eq hn (limbValue_lt _ _ _) (limbValue_lt _ _ _), slimb_eq hn, slimb_eq hn]
    rfl

/-! ### Shifts and products -/

theorem limbShl_eq {n : Nat} (hn : n ≠ 0) (a k : Nat) : limbShl n a k =
    { x := a * 2 ^ k % 2 ^ (32 * n), z := decide (a * 2 ^ k % 2 ^ (32 * n) = 0), v := limbOverflow n (limbSigned n a * 2 ^ k),
      c := decide (1 ≤ k) && decide (k ≤ 32 * n) && decide (a / 2 ^ (32 * n - k) % 2 = 1) } := by
  simp only [limbShl, not_limbInRange hn, slimb_eq hn, Bool.decide_and]; rfl

/-- Bit 31 of a word as a number. -/
theorem msb_eq_decide (x : Word) : x.msb = decide (2 ^ 31 ≤ x.toNat) := BitVec.msb_eq_decide x

theorem limbShr_eq {n : Nat} (hn : n ≠ 0) (a k : Nat) (y : Word) : limbShr n a k y.msb =
    let r := if 2 ^ 31 ≤ y.toNat then (limbSigned n a / 2 ^ k % 2 ^ (32 * n)).toNat else a / 2 ^ k
    { x := r, z := decide (r = 0), v := false,
      c := decide (1 ≤ k) && (if k ≤ 32 * n then decide (a / 2 ^ (k - 1) % 2 = 1)
        else decide (2 ^ 31 ≤ y.toNat) && decide (a / 2 ^ (32 * n - 1) % 2 = 1)) } := by
  have hc : (if k = 0 then false else if k ≤ 32 * n then a / 2 ^ (k - 1) % 2 == 1 else decide (2 ^ 31 ≤ y.toNat) && a / 2 ^ (32 * n - 1) % 2 == 1) =
      (decide (1 ≤ k) && (if k ≤ 32 * n then decide (a / 2 ^ (k - 1) % 2 = 1) else decide (2 ^ 31 ≤ y.toNat) && decide (a / 2 ^ (32 * n - 1) % 2 = 1))) := by
    by_cases hk : k = 0
    · simp [hk]
    · rw [if_neg hk, decide_eq_true (by omega : 1 ≤ k), Bool.true_and]; rfl
  simp only [limbShr, slimb_eq hn, msb_eq_decide, decide_eq_true_eq, hc]; rfl

theorem limbMul_eq (n a b c : Nat) : limbMul n a b c =
    { x := (a * b + c) % 2 ^ (32 * n), z := decide ((a * b + c) % 2 ^ (32 * n) = 0), v := false, c := decide (2 ^ (32 * n) ≤ a * b + c) } := rfl

theorem limbShiftMultiplyWordsClaim : LimbShiftMultiplyWordsClaim := by
  intro d a b hd A M K R shift P Q mul
  have hS := isS_of_limbOk hd
  refine ⟨limbRuns_of (fun s tm n => limbShl n (tm.limb s.blk.bix a) (K s.team s.blk.bix)) (.inl ⟨rfl, hS⟩) (fun _ => rfl) fun s hn => ?_,
    limbRuns_of (fun s tm n => limbShr n (tm.limb s.blk.bix a) (K s.team s.blk.bix) (s.team.rd s.blk.bix b 0 0).msb) (.inl ⟨rfl, hS⟩) (fun _ => rfl) fun s hn => ?_,
    limbRuns_of (fun s tm n => limbMul n (tm.limb s.blk.bix a) (tm.rd s.blk.bix b 0 0).toNat 0) (.inl ⟨rfl, hS⟩) (fun _ => rfl) fun s hn => ?_,
    limbRuns_of (fun s tm n => limbMul n (tm.limb s.blk.bix a) (tm.rd s.blk.bix b 0 0).toNat (tm.rd s.blk.bix b 1 0).toNat) (.inl ⟨rfl, hS⟩) (fun _ => rfl) fun s hn => ?_⟩
  all_goals simp only [Team.limb_eq_limbValue]
  · exact limbShl_eq hn _ _
  · exact limbShr_eq hn _ _ _
  · exact limbMul_eq _ _ _ 0
  · exact limbMul_eq _ _ _ _

/-- Settles O14: each limb word runs as one, and its result is the number and the flags that R108 gives. -/
theorem limbWords : Obligations.LimbWords := ⟨limbAddWordsClaim, limbShiftMultiplyWordsClaim⟩

end Sys2Proof.Machine
end

