-- ==== Sys2Proof/Proofs/DivergenceWords.lean ====
section
/-! PROOFS. The counters and levels of divergence: the words of a loop, and the `else` of a path that has been left, which refutes the claim about `if`, `else` and `endif`. -/

namespace Sys2Proof.Machine

open Sys2Proof Sys2Proof.Machine Sys2Proof.Claim

variable {tm : Team} {s : State} {f : Nat → Nat → Nat} {cnt : Nat → Nat}

/-! ### Counters -/

/-- A table after one write for each key of a list, each value a function of its key. -/
theorem tget_putAll {α : Type} [DecidableEq α] (d : α) (g : Nat → α) (ts : List Nat) (m : Tbl α) (t : Nat) :
    tget d (ts.foldl (fun m t => tput d m t (g t)) m) t = if t ∈ ts then g t else tget d m t := by
  induction ts generalizing m with
  | nil => simp
  | cons u us ih =>
    rw [List.foldl_cons, ih, tget_tput]
    by_cases hu : t = u <;> simp [hu]

theorem Team.tget_mapCnt (tm : Team) (f : Nat → Nat → Nat) (t : Nat) :
    tget 0 (tm.mapCnt f).cnt t = if tm.live t = true then f t (tget 0 tm.cnt t) else tget 0 tm.cnt t := by
  simp only [Team.mapCnt, tget_putAll, Team.mem_lives]

@[simp] theorem Team.mapCnt_live (tm : Team) (f : Nat → Nat → Nat) (t : Nat) : (tm.mapCnt f).live t = tm.live t := rfl

/-- A thread is active after a change of the counters when it is present with counter 0. -/
theorem Team.mapCnt_active (tm : Team) (f : Nat → Nat → Nat) (t : Nat) :
    (tm.mapCnt f).active t = true ↔ tm.live t = true ∧ f t (tget 0 tm.cnt t) = 0 := by
  rw [Team.active, Bool.and_eq_true, Team.mapCnt_live, beq_iff_eq]
  refine and_congr_right fun h => ?_
  rw [Team.tget_mapCnt, if_pos h]

theorem Team.execZero_iff : tm.execZero = true ↔ ∀ t, ¬ tm.active t = true := by
  simp only [Team.execZero, List.isEmpty_iff, List.eq_nil_iff_forall_not_mem, Team.mem_actives]

theorem Team.lives_filter_isEmpty {p : Nat → Bool} : (tm.lives.filter p).isEmpty = true ↔ ∀ t, tm.live t = true → p t = false := by
  simp only [List.isEmpty_iff, List.filter_eq_nil_iff, Team.mem_lives, Bool.not_eq_true]

/-! ### Limb threads -/

/-- A divergence word that keeps the limb threads together names none of them (R107). -/
theorem boundFail_of_boundKept (h : boundKept s cnt) (hf : ∀ t, f t (tget 0 s.team.cnt t) = cnt t) :
    boundFail s.team (s.team.mapCnt f) = [] := by
  unfold boundFail
  refine if_pos ?_
  rw [Bool.or_eq_true, List.all_eq_true, List.all_eq_true]
  refine h.imp (fun h t ht => ?_) fun h t ht => ?_
  all_goals
    have ht := h t (by simpa using ht)
    rw [← hf] at ht
  · exact (Team.mapCnt_active _ _ _).2 ht
  · rw [Bool.not_eq_true', Bool.eq_false_iff]
    exact mt (Team.mapCnt_active _ _ _).1 ht

/-- One that parts them names those it would stop (R107). -/
theorem boundFail_of_boundSplit {ts : List Nat} (h : boundSplit s cnt ts) (hf : ∀ t, f t (tget 0 s.team.cnt t) = cnt t) :
    boundFail s.team (s.team.mapCnt f) = ts ∧ ts ≠ [] := by
  obtain ⟨hts, hne, u, hu, hlive, hzero⟩ := h
  have hnew : ∀ t, (s.team.active t && !(s.team.mapCnt f).active t) = (s.team.active t && decide (cnt t ≠ 0)) := fun t => by
    cases ha : s.team.active t with
    | false => rfl
    | true =>
      have hl : s.team.live t = true := by
        rw [Team.active, Bool.and_eq_true] at ha
        exact ha.1
      have : (s.team.mapCnt f).active t = decide (cnt t = 0) := by
        rw [Bool.eq_iff_iff, Team.mapCnt_active, hf, decide_eq_true_iff]
        exact and_iff_right hl
      rw [this, Bool.true_and, Bool.true_and, decide_not]
  have hfilter : (upList 0 s.team.limbs).filter (fun t => s.team.active t && !(s.team.mapCnt f).active t) = ts := by
    rw [hts, List.filter_congr fun t _ => hnew t]
  refine ⟨?_, hne⟩
  unfold boundFail
  dsimp only
  rw [hfilter]
  refine if_neg ?_
  obtain ⟨v, hv⟩ := List.exists_mem_of_ne_nil ts hne
  have hv' := hfilter ▸ hv
  rw [List.mem_filter, Bool.and_eq_true, Bool.not_eq_true'] at hv'
  have hua : (s.team.mapCnt f).active u = true := (Team.mapCnt_active _ _ _).2 ⟨hlive, (hf u).trans hzero⟩
  have hul : u ∈ upList 0 s.team.limbs := by simpa using hu
  rw [Bool.or_eq_true, List.all_eq_true, List.all_eq_true]
  rintro (h | h)
  · exact absurd (h v hv'.1) (by rw [hv'.2.2]; decide)
  · exact absurd (h u hul) (by rw [hua]; decide)

/-! ### A divergence word takes effect -/

/-- A word that leaves the team with mapped counters and these levels, and goes on at `next`. -/
theorem diverges_of_mapCnt {i : Instr} {stack : List Level} {next : Nat} (hf : ∀ t, s.team.live t = true → f t (tget 0 s.team.cnt t) = cnt t)
    (h : exec i s = .next (s.divergeTo { s.team.mapCnt f with stack := stack } none next)) :
    Diverges i s cnt stack s.team.pathSlot fun _ => next := by
  refine ⟨{ s.team.mapCnt f with stack := stack }, rfl, fun t => ?_, h⟩
  refine (Team.tget_mapCnt s.team f t).trans ?_
  split
  · exact hf t ‹_›
  · rfl

/-! ### `loop.beg` -/

section
variable (hs : s.team.stack.length < 255)
include hs

theorem exec_loopBeg_opens (h : ∀ t, s.team.live t = true → tget 0 s.team.cnt t < 254) :
    Diverges .loopBeg s (fun t => if tget 0 s.team.cnt t = 0 then 0 else tget 0 s.team.cnt t + 2)
      ({ kind := .loop, hasElse := false, start := s.team.fair, target := s.team.pc + 4 } :: s.team.stack) s.team.pathSlot fun _ => s.team.pc + 4 := by
  refine diverges_of_mapCnt (f := fun _ c => if c = 0 then 0 else c + 2) (fun _ _ => rfl) ?_
  have habove : (s.team.lives.filter fun t => decide (254 ≤ tget 0 s.team.cnt t)).isEmpty = true :=
    Team.lives_filter_isEmpty.2 fun t ht => decide_eq_false (Nat.not_le.2 (h t ht))
  show execLoopBeg s = _
  unfold execLoopBeg
  rw [if_neg (Nat.not_le.2 hs), habove]
  rfl

theorem exec_loopBeg_overflows {ts : List Nat} (hts : ts = s.team.lives.filter fun t => decide (254 ≤ tget 0 s.team.cnt t)) (hne : ts ≠ []) :
    exec .loopBeg s = .next (s.takeTrap { cls := .nesting, threads := ts }) := by
  show execLoopBeg s = _
  unfold execLoopBeg
  rw [if_neg (Nat.not_le.2 hs), ← hts, if_pos (by simpa using hne)]
  rfl
end

theorem exec_loopBeg_full (h : 255 ≤ s.team.stack.length) : exec .loopBeg s = .next (s.takeTrap { cls := .nesting, threads := s.team.lives }) := by
  show execLoopBeg s = _
  unfold execLoopBeg
  exact if_pos h

/-! ### Inside a loop -/

theorem Team.inLoop_iff : tm.inLoop = true ↔ ∃ l ∈ tm.stack, l.kind = .loop := by
  simp only [Team.inLoop, List.any_eq_true, decide_eq_true_eq]

/-- Whether a change of the counters leaves a thread active. -/
theorem Team.mapCnt_execZero (tm : Team) (f : Nat → Nat → Nat) :
    (tm.mapCnt f).execZero = true ↔ ¬ ∃ t, tm.live t = true ∧ f t (tget 0 tm.cnt t) = 0 := by
  simp only [Team.execZero_iff, Team.mapCnt_active, not_exists]

/-- `loop.end` of the innermost level: it goes back while a thread is left to go on, and closes the loop otherwise. -/
theorem exec_loopEnd_loop {l : Level} {r : List Level} (o : BitVec 18) (hs : s.team.stack = l :: r) (hl : l.kind = .loop) :
    exec (.loopEnd o) s = .next
      (if (s.team.mapCnt fun _ c => if c = 1 then 0 else c).execZero = true
        then s.divergeTo { (s.team.mapCnt fun _ c => if c = 1 then 0 else c).mapCnt (fun _ c => c - 2) with stack := r } none (s.team.pc + 4)
        else s.divergeTo (s.team.mapCnt fun _ c => if c = 1 then 0 else c) none (s.target o)) := by
  have hin : s.team.inLoop = true := Team.inLoop_iff.2 ⟨l, hs ▸ List.mem_cons_self, hl⟩
  show execLoopEnd o s = _
  unfold execLoopEnd
  dsimp only
  rw [hin, hs]
  simp only [hl, Bool.not_true, Bool.false_eq_true, if_false, ne_eq, not_true_eq_false]
  cases h : (s.team.mapCnt fun _ c => if c = 1 then 0 else c).execZero <;> rfl

/-- The counters that `loop.end` of a loop to which no thread goes back leaves. -/
theorem Team.tget_closeLoop (h : ¬ ∃ t, tm.live t = true ∧ tget 0 tm.cnt t ≤ 1) (t : Nat) :
    tget 0 ((tm.mapCnt fun _ c => if c = 1 then 0 else c).mapCnt fun _ c => c - 2).cnt t =
      if tm.live t = true then tget 0 tm.cnt t - 2 else tget 0 tm.cnt t := by
  simp only [Team.tget_mapCnt, Team.mapCnt_live]
  split
  · next hl => rw [if_neg fun h1 => h ⟨t, hl, by omega⟩]
  · rfl

theorem exec_loopEnd_if {l : Level} {r : List Level} (o : BitVec 18) (hs : s.team.stack = l :: r) (hl : l.kind ≠ .loop) (h : ∃ x ∈ r, x.kind = .loop) :
    exec (.loopEnd o) s = .next (s.takeTrap { cls := .illegal, threads := s.team.actives, detail := 0x23 }) := by
  obtain ⟨x, hx, hk⟩ := h
  have hin : s.team.inLoop = true := Team.inLoop_iff.2 ⟨x, hs ▸ List.mem_cons_of_mem _ hx, hk⟩
  show execLoopEnd o s = _
  unfold execLoopEnd
  dsimp only
  rw [hin, hs]
  exact if_pos hl

/-- The counter that `brk` and `cont` give to a thread with counter `c`, by their predicate. -/
def leftCnt (tm : Team) (p : Pred) (n t c : Nat) : Nat := if c = 0 && tm.pred t p then n else c

theorem State.leaveLoop_inLoop (p : Pred) (n : Nat) (h : s.team.inLoop = true) :
    s.leaveLoop p n =
      if !(boundFail s.team (s.team.mapCnt (leftCnt s.team p n))).isEmpty then s.boundTrap (boundFail s.team (s.team.mapCnt (leftCnt s.team p n)))
      else s.divergeTo (s.team.mapCnt (leftCnt s.team p n)) none (s.team.pc + 4) := by
  unfold State.leaveLoop
  exact if_neg (by rw [h]; decide)

/-- `brk` and `cont` give the active threads whose predicate holds their counter, or part the limb threads (R31, R107). -/
theorem leavesLoop {i : Instr} {p : Pred} {n : Nat} (hi : exec i s = .next (s.leaveLoop p n)) (h : s.team.inLoop = true)
    {left : Nat → Nat} (hleft : ∀ t, left t = if tget 0 s.team.cnt t = 0 ∧ predOf s.team t p = true then n else tget 0 s.team.cnt t) :
    (boundKept s left → Diverges i s left s.team.stack s.team.pathSlot fun _ => s.team.pc + 4) ∧
    (∀ ts, boundSplit s left ts → exec i s = .next (s.takeTrap { cls := .boundDiv, threads := ts })) := by
  have hf : ∀ t, leftCnt s.team p n t (tget 0 s.team.cnt t) = left t := fun t => by
    rw [hleft, ← Team.pred_eq_predOf]
    simp only [leftCnt, Bool.and_eq_true, decide_eq_true_eq]
  rw [State.leaveLoop_inLoop p n h] at hi
  refine ⟨fun hk => ?_, fun ts hk => ?_⟩
  · rw [boundFail_of_boundKept hk hf] at hi
    exact diverges_of_mapCnt (fun t _ => hf t) hi
  · obtain ⟨hts, hne⟩ := boundFail_of_boundSplit hk hf
    rw [hts, if_pos (by simpa using hne)] at hi
    exact hi

/-! ### Outside a loop -/

/-- With EXEC zero a word of major 23 outside a loop writes the outstanding results alone; else it is illegal (R31, R78). -/
theorem State.noLoop_cases (s : State) :
    (s.team.execZero = true → s.noLoop = ({ s with team := s.team.flush } : State).finish 1) ∧
    (s.settled → s.team.execZero = false → s.noLoop = s.takeTrap { cls := .illegal, threads := s.team.actives, detail := 0x23 }) := by
  unfold State.noLoop
  refine ⟨fun h => if_pos ((Team.flush_threads _).2.2.trans h), fun hs h => ?_⟩
  rw [Team.flush_settled hs.1.2 hs.1.1]
  exact if_neg (by rw [h]; decide)

theorem exec_noLoop {p : Pred} {d : BitVec 8} {o : BitVec 18} (h : s.team.inLoop = false) {i : Instr} (hi : i ∈ [Instr.brk p d, Instr.cont p d, Instr.loopEnd o]) :
    exec i s = .next s.noLoop := by
  have houtside : (!s.team.inLoop) = true := by rw [h]; rfl
  have hleave : ∀ n, s.leaveLoop p n = s.noLoop := fun n => by
    unfold State.leaveLoop
    exact if_pos houtside
  simp only [List.mem_cons, List.not_mem_nil, or_false] at hi
  obtain rfl | rfl | rfl := hi
  · exact congrArg Host.Outcome.next (hleave _)
  · exact congrArg Host.Outcome.next (hleave _)
  · show execLoopEnd o s = _
    unfold execLoopEnd
    exact if_pos houtside

/-- Settles O22: each word maps the counters of the present threads, opens or closes one level, or traps. -/
theorem loopWords : Obligations.LoopWords := by
  unfold Obligations.LoopWords
  intro s cnt
  refine ⟨exec_loopBeg_opens, exec_loopBeg_full, fun hs ts => exec_loopBeg_overflows hs, fun l r o => exec_loopEnd_if o, ?_, ?_, ?_⟩
  · intro l r o hs hl woken
    have hw := exec_loopEnd_loop o hs hl
    have hz := Team.mapCnt_execZero s.team fun _ c => if c = 1 then 0 else c
    have hle : ∀ c : Nat, (if c = 1 then 0 else c) = 0 ↔ c ≤ 1 := fun c => by split <;> omega
    simp only [hle] at hz
    refine ⟨fun h => ?_, fun h => ?_⟩
    · rw [if_neg fun hx => hz.1 hx h] at hw
      exact diverges_of_mapCnt (fun _ _ => rfl) hw
    · rw [if_pos (hz.2 h)] at hw
      exact ⟨{ (s.team.mapCnt fun _ c => if c = 1 then 0 else c).mapCnt (fun _ c => c - 2) with stack := r }, rfl, Team.tget_closeLoop h, hw⟩
  · intro p d hl left
    have hin := Team.inLoop_iff.2 hl
    obtain ⟨hbrk, hbrk'⟩ := leavesLoop (i := .brk p d) rfl hin (left := left 2) fun _ => rfl
    obtain ⟨hcont, hcont'⟩ := leavesLoop (i := .cont p d) rfl hin (left := left 1) fun _ => rfl
    exact ⟨hbrk, hcont, hbrk', hcont'⟩
  · intro p d o hl i hi
    rw [exec_noLoop (Bool.eq_false_iff.2 fun h => hl (Team.inLoop_iff.1 h)) hi]
    exact ⟨fun h => congrArg _ (s.noLoop_cases.1 h), fun hs h => congrArg _ (s.noLoop_cases.2 hs h)⟩

/-! ### The `else` of a path that has been left -/

/-- The threads that a trap names stand in the fault mask of the team that has entered its handler (R221). -/
theorem State.enterTrap_faultMask (s : State) (c : TrapCause) (e : Nat) :
    (s.enterTrap c e).team.faultMask = (wordsOf c.threads).foldl (fun m w => tput 0 m w (maskWord c.threads w)) [] := rfl

/-- Four active threads at the `else` of a level whose then-path has been left for its held path, in a launch with a handler; two words on stands the word 0, a `nop`. -/
def leftElse : State :=
  let z := ({ State.reset with team := { threads := 4, regs := 24, stack := [{ kind := .thenPath, hasElse := true }], pathSlot := .done 1 } } : State).withFetchWord 32 0
  { z with launch := { z.launch with trapent := some 0 } }

theorem leftElse_notLanding : ¬ landsOn leftElse (branchTarget leftElse 2) isEndif := by
  intro h
  obtain ⟨i, hi, hk⟩ := h 0 rfl
  have hnop : decode 0 = some .nop := by decide
  cases hnop.symm.trans hi
  exact absurd hk (by decide)

/-- Its `else` traps at that word, and the trap names the active threads. -/
theorem leftElse_else : exec (.elsep 2) leftElse = .next (leftElse.takeTrap { cls := .illegal, threads := leftElse.team.actives, detail := 0x22 }) := rfl

/-- Refutes O21: the `else` of a then-path that has been left, with threads active and a word of another kind at its target, takes a trap that names them, where the claim has it name none. -/
theorem not_ifElseWords : ¬ Obligations.IfElseWords := by
  unfold Obligations.IfElseWords
  rintro ⟨-, held⟩
  obtain ⟨-, -, left, -⟩ := held leftElse { kind := .thenPath, hasElse := true } [] [] 0 rfl
  obtain ⟨tm, htm, -, hw⟩ := (left rfl rfl 2).2 leftElse_notLanding
  rw [leftElse_else] at hw
  have hentered : ∀ t : State, t.team.kind = .team → t.team.trapCtx = none → t.launch.trapent = some 0 → t.team.inflight = [] → ∀ c,
      t.takeTrap c = t.enterTrap c 0 := fun t hk hc he hf c => State.takeTrap_enter c hk hc he (by rw [hf]; rfl)
  rw [hentered leftElse rfl rfl rfl rfl, hentered { leftElse with team := tm } (by rw [htm]; rfl) (by rw [htm]; rfl) rfl (by rw [htm]; rfl)] at hw
  have hmask := congrArg (fun x : State => x.team.faultMask) (Host.Outcome.next.inj hw)
  exact absurd hmask (by rw [State.enterTrap_faultMask, State.enterTrap_faultMask]; decide)

end Sys2Proof.Machine
end

