-- ==== Sys2Proof/Proofs/LatchWords.lean ====
section
/-! PROOFS. The latch words, and when a pass over the parked contexts wakes nobody. -/

namespace Sys2Proof.Machine

open Sys2Proof Sys2Proof.Machine Sys2Proof.Claim

variable {s : State}

/-! ### Nobody wakes -/

theorem mem_of_tget {α : Type} {m : Tbl (Option α)} {k : Nat} {x : α} (h : tget none m k = some x) : (k, some x) ∈ m := by
  induction m with
  | nil => cases h
  | cons e m ih =>
    obtain ⟨j, v⟩ := e
    unfold tget at h
    split at h
    · next hk => subst hk; exact h ▸ List.mem_cons_self
    · exact List.mem_cons_of_mem _ (ih h)

/-- A context that a number names is the running one or stands in the table. -/
theorem State.getTeam_cases {k : Nat} {tm : Team} (h : s.getTeam k = some tm) : (tm = s.team ∧ s.team.key = k ∧ s.team.threads ≠ 0) ∨ (k, some tm) ∈ s.teams := by
  unfold State.getTeam at h
  split at h
  · next hk => exact .inl ⟨(Option.some.inj h).symm, hk⟩
  · exact .inr (mem_of_tget h)

/-- A context of the package is the running one or stands in the table. -/
theorem State.mem_teamTbl {tm : Team} (h : tm ∈ tvals s.teamTbl) : tm = s.team ∨ ∃ k, (k, some tm) ∈ s.teams := by
  simp only [tvals, List.mem_filterMap] at h
  obtain ⟨⟨k, o⟩, he, rfl⟩ := h
  unfold State.teamTbl at he
  split at he
  · exact .inr ⟨k, he⟩
  · rcases mem_tinsert he with h1 | h1
    · exact .inl (Option.some.inj (congrArg Prod.snd h1))
    · exact .inr ⟨k, h1⟩

theorem State.firstParked_none {bk : Nat} {c : Park} (h : ∀ tm ∈ tvals s.teamTbl, tm.parked ≠ some c) : s.firstParked bk c = none := by
  have : ((s.teamsOf bk).filter fun t => t.parked == some c && !t.stopped) = [] := by
    rw [List.filter_eq_nil_iff]
    intro t ht
    have : t.parked ≠ some c := h t (List.mem_of_mem_filter (List.mem_of_mem_filter ht))
    simp [this]
  simp [State.firstParked, this]

theorem State.giveJoinFaults_none {e : Engine} (h : ∀ tm ∈ tvals s.teamTbl, tm.parked ≠ some (.join e)) (k : Nat) : s.giveJoinFaults e k = s := by
  unfold State.giveJoinFaults
  split
  · rfl
  · dsimp only
    split
    · rfl
    · rw [State.firstParked_none h]

theorem State.giveFork_none {e : Engine} (h : ∀ tm ∈ tvals s.teamTbl, tm.parked ≠ some (.fork e)) (k : Nat) : s.giveFork e k = s := by
  unfold State.giveFork
  rw [State.firstParked_none h]
  split <;> simp_all

/-- A pass in which no context wakes, no fault of a stream is given and no stream starts (R207). -/
theorem State.wakePass_same (hj : ∀ e k, s.giveJoinFaults e k = s) (hw : ∀ k, s.wakeOne k = s) (hf : ∀ e k, s.giveFork e k = s) : s.wakePass = s := by
  have h1 : ∀ l : List Block, l.foldl (fun (s : State) b => (s.giveJoinFaults .mx b.key).giveJoinFaults .cp b.key) s = s :=
    foldl_id fun b => by rw [hj, hj]
  have h2 : ∀ l : List Team, l.foldl (fun (s : State) t => s.wakeOne t.key) s = s := foldl_id fun t => hw t.key
  have h3 : ∀ l : List Block, l.foldl (fun (s : State) b => (s.giveFork .mx b.key).giveFork .cp b.key) s = s :=
    foldl_id fun b => by rw [hf, hf]
  unfold State.wakePass
  dsimp only
  rw [h1, h2, h3]

theorem State.wakeAll_same (hj : ∀ e k, s.giveJoinFaults e k = s) (hw : ∀ k, s.wakeOne k = s) (hf : ∀ e k, s.giveFork e k = s) : s.wakeAll = s := by
  have := State.wakePass_same hj hw hf
  rw [State.wakeAll, this, this]

/-- A latch wait does not hold while the latch has its generation. -/
theorem State.parkHolds_latch {tm : Team} {b : Block} {l : Nat} {g : BitVec 16} (h : s.getBlk tm.blkKey = some b) (hg : (tget {} b.latches l).gen = g) :
    s.parkHolds tm (.latch l g.toNat) = false := by
  simp only [State.parkHolds, h, Option.getD_some, hg, bne_self_eq_false]

/-- With only the running context parked, at a latch whose generation has not come, nobody wakes (R210). -/
theorem State.wakeAll_latch {l g : Nat} (hp : s.team.parked = some (.latch l g)) (hn : s.parkHolds s.team (.latch l g) = false)
    (ht : ∀ e ∈ s.teams, ∀ tm, e.2 = some tm → tm.parked = none) : s.wakeAll = s := by
  have htbl : ∀ tm ∈ tvals s.teamTbl, tm.parked = some (.latch l g) ∨ tm.parked = none := fun tm htm => by
    obtain rfl | ⟨k, hk⟩ := State.mem_teamTbl htm
    · exact .inl hp
    · exact .inr (ht _ hk _ rfl)
  have hother : ∀ c : Park, c ≠ .latch l g → ∀ tm ∈ tvals s.teamTbl, tm.parked ≠ some c := fun c hc tm htm h => by
    obtain hl | hl := htbl tm htm
    · exact hc (Option.some.inj (h.symm.trans hl))
    · cases hl.symm.trans h
  refine State.wakeAll_same (fun e => State.giveJoinFaults_none (hother _ (by simp))) (fun k => ?_) fun e => State.giveFork_none (hother _ (by simp))
  cases h : s.getTeam k with
  | none => exact State.wakeOne_idle fun tm htm => nomatch h.symm.trans htm
  | some tm =>
    obtain ⟨rfl, -⟩ | hk := State.getTeam_cases h
    · exact State.wakeOne_stays h hp hn
    · exact State.wakeOne_idle fun x hx => Option.some.inj (h.symm.trans hx) ▸ ht _ hk _ rfl

/-- A word in order without a pass ends without parking its context. -/
theorem State.finish_zero_parked (h : s.team.inOrder) : (s.finish 0).team.parked = s.team.parked := by
  show (s.finishPasses [] (s.team.pc + 4)).team.parked = _
  rw [State.finishPasses_team h, Team.pastWord_frame]

theorem State.finish_zero_teams (s : State) : (s.finish 0).teams = s.teams := rfl

/-- With nobody parked, nobody wakes behind a word of no pass. -/
theorem State.finish_zero_wakeAll (h : s.team.inOrder) (hn : NoneParked s) : (s.finish 0).wakeAll = s.finish 0 :=
  State.wakeAll_awake (State.awake_of ((State.finish_zero_parked h).trans hn.1) hn.2)

/-! ### Arrivals -/

theorem Reg.isV_of_isSZ {d : Reg} (h : d.isSZ = true) : d.isV = false := by
  cases d with
  | v i => cases h
  | _ => rfl

theorem latchIs_tput (s : State) (l : Nat) (x : Latch) :
    LatchIs s { s with blk := { s.blk with latches := tput {} s.blk.latches l x } } l x :=
  ⟨rfl, fun _ => tget_tput _ _ _ _ _⟩

theorem Latch.arrive_eq_arrived (x : Latch) : x.arrive = arrived x := rfl

theorem State.getLaunch_running (h : s.launch.uid ≠ 0) : s.getLaunch s.launch.uid = some s.launch := by
  simp [State.getLaunch, h]

/-- A block of a launch that is neither captured nor replayed takes an arrival, and nothing is recorded (R210, R268). -/
theorem State.arriveHere_eq (hp : Placed s) (hw : s.unwatched) (l : BitVec 5) :
    s.arriveHere l = { s with blk := { s.blk with latches := tput {} s.blk.latches l.toNat (arrived (tget {} s.blk.latches l.toNat)) } } := by
  obtain ⟨hkey, huid, hlaunch, -, -⟩ := hp
  obtain ⟨-, -, hreplay⟩ := hw
  have hget : s.getBlk s.blk.key = some s.blk := by simp [State.getBlk, hkey]
  have hnote : ∀ x p, s.launch.note x p = s.launch := fun x p => by simp [Launch.note, hreplay]
  have hmod : ∀ (t : State) x p, t.launch = s.launch → t.modLaunch s.blk.launchUid (fun la => la.note x p) = t := fun t x p ht => by
    have hg : t.getLaunch s.blk.launchUid = some t.launch := by rw [hlaunch, ← ht]; exact State.getLaunch_running (ht ▸ huid)
    unfold State.modLaunch
    rw [hg]
    dsimp only
    rw [ht, hnote, ← ht]
    exact if_pos ⟨rfl, ht ▸ huid⟩
  have harb : ∀ (t : State) ws ps, t.launch = s.launch → t.arbRec s.blk.launchUid 0 ws ps = t := fun t ws ps ht => by
    have hg : t.getLaunch s.blk.launchUid = some t.launch := by rw [hlaunch, ← ht]; exact State.getLaunch_running (ht ▸ huid)
    unfold State.arbRec
    rw [hg, if_neg (by simp [ht, hreplay])]
  unfold State.arriveHere State.arrive
  rw [hget]
  dsimp only
  obtain ⟨z, hz⟩ : ∃ z : State, z = { s with blk := { s.blk with latches := tput {} s.blk.latches l.toNat (arrived (tget {} s.blk.latches l.toNat)) } } :=
    ⟨_, rfl⟩
  have hset : s.setBlk { s.blk with latches := tput {} s.blk.latches l.toNat (tget {} s.blk.latches l.toNat).arrive } = z :=
    (if_pos ⟨rfl, hkey⟩).trans hz.symm
  rw [hset, ← hz, hmod z _ _ (by rw [hz]), harb z _ _ (by rw [hz])]
  exact ite_self _

section
variable (hk : s.team.kind = .team) (hw : s.unwatched)
include hk

theorem State.streamBusy_team : s.streamBusy = false := by
  simp [State.streamBusy, hk]

include hw

theorem exec_latArr (hp : Placed s) (hs : s.settled) (l : BitVec 5) : exec (.latArr l) s = .next ((s.arriveHere l).finish 0) := by
  have hturn : s.latchTurn l = true := by simp [State.latchTurn, Launch.mayAct, hw.2.2]
  show execLatArr l s = _
  unfold execLatArr
  rw [State.streamBusy_team hk, hturn]
  refine congrArg Host.Outcome.next (State.finish_zero_wakeAll ?_ ?_)
  · rw [State.arriveHere_eq hp hw]; exact hs.2
  · rw [State.arriveHere_eq hp hw]; exact hp.2.2.2.2

/-- `lat.arw` goes on with the arrival that completes the generation, and parks at the latch with another (R210). -/
theorem exec_latArw (hp : Placed s) (hs : s.settled) (l : BitVec 5) :
    exec (.latArw l) s = .next (if (s.arriveHere l).latchGen l = s.latchGen l then (s.arriveHere l).park (.latch l.toNat (s.latchGen l).toNat)
      else (s.arriveHere l).finish 0) := by
  have hturn : s.latchTurn l = true := by simp [State.latchTurn, Launch.mayAct, hw.2.2]
  have hflush : ({ s with team := s.team.flush } : State) = s := by rw [Team.flush_settled hs.1.2 hs.1.1]
  show execLatArw l s = _
  unfold execLatArw
  rw [hflush]
  dsimp only
  rw [State.streamBusy_team hk, hturn]
  simp only [Bool.false_eq_true, if_false, Bool.not_true]
  obtain ⟨hkey, -, -, hblk, hnone⟩ := id hp
  by_cases hg : (s.arriveHere l).latchGen l = s.latchGen l
  · rw [if_pos hg, if_pos hg]
    refine congrArg Host.Outcome.next (State.wakeAll_latch (l := l.toNat) (g := (s.latchGen l).toNat) rfl ?_ ?_)
    · have hteam : (s.arriveHere l).team = s.team := by rw [State.arriveHere_eq hp hw]
      have hbkey : (s.arriveHere l).blk.key = s.blk.key := by rw [State.arriveHere_eq hp hw]
      refine State.parkHolds_latch (b := (s.arriveHere l).blk) ?_ hg
      simp [State.getBlk, State.park, hteam, hbkey, hblk, hkey]
    · rw [State.arriveHere_eq hp hw]; exact hnone.2
  · rw [if_neg hg, if_neg hg]
    refine congrArg Host.Outcome.next (State.finish_zero_wakeAll ?_ ?_)
    · rw [State.arriveHere_eq hp hw]; exact hs.2
    · rw [State.arriveHere_eq hp hw]; exact hnone
end

theorem exec_latWait (hs : s.settled) (l : BitVec 5) (d : Reg) :
    exec (.latWait l d) s = .next (if (tget {} s.blk.latches l.toNat).gen = (s.team.rd s.blk.bix d 0 0).setWidth 16
      then s.park (.latch l.toNat (tget {} s.blk.latches l.toNat).gen.toNat) else s.finish 0) := by
  have hflush : ({ s with team := s.team.flush } : State) = s := by rw [Team.flush_settled hs.1.2 hs.1.1]
  show execLatWait l d s = _
  unfold execLatWait
  rw [hflush]
  dsimp only
  split
  · next h => rw [if_pos (show (tget {} s.blk.latches l.toNat).gen = _ from h), ← h]; rfl
  · next h => rw [if_neg (show ¬ (tget {} s.blk.latches l.toNat).gen = _ from h)]

theorem exec_latInit (l : BitVec 5) (d : Reg) :
    exec (.latInit l d) s = .next (if 1 ≤ (s.team.rd s.blk.bix d 0 0).toNat ∧ (s.team.rd s.blk.bix d 0 0).toNat ≤ 255 then
      ({ s with blk := { s.blk with latches := tput {} s.blk.latches l.toNat { tget {} s.blk.latches l.toNat with exp := (s.team.rd s.blk.bix d 0 0).setWidth 8, arr := 0 } } } : State).finish 0
      else s.takeTrap { cls := .illegal, detail := 0x34 }) := by
  have hzero : s.team.rd s.blk.bix d 0 0 = 0 ↔ (s.team.rd s.blk.bix d 0 0).toNat = 0 := BitVec.toNat_eq
  show execLatInit l d s = _
  unfold execLatInit
  dsimp only
  split
  · next h => rw [if_neg (by rw [hzero] at h; omega)]; rfl
  · next h => rw [if_pos (by rw [hzero] at h; omega)]

/-- Settles O31: an arrival changes the latch alone and wakes nobody else, since nobody else is parked; a wait whose generation has not come parks. -/
theorem latchWords : Obligations.LatchWords := by
  unfold Obligations.LatchWords
  intro l d s hk hw hp hs x v
  have hgen : ∀ y : Latch, ({ s with blk := { s.blk with latches := tput {} s.blk.latches l.toNat y } } : State).latchGen l = y.gen := fun y => by
    simp [State.latchGen]
  refine ⟨fun h1 h255 => ⟨_, latchIs_tput s _ _, ?_⟩, fun h => ?_, ⟨_, latchIs_tput s _ _, ?_, fun h => ?_, fun h => ⟨(s.arriveHere l).park (.latch l.toNat x.gen.toNat), ?_, ?_⟩⟩, fun h => ?_, fun h => ?_, fun h => ?_⟩
  · rw [exec_latInit, if_pos ⟨h1, h255⟩]
  · rw [exec_latInit, if_neg h]
  · rw [exec_latArr hk hw hp hs, State.arriveHere_eq hp hw]
  · rw [exec_latArw hk hw hp hs, State.arriveHere_eq hp hw, hgen]
    exact congrArg _ (if_neg h)
  · rw [exec_latArw hk hw hp hs, State.arriveHere_eq hp hw, hgen]
    exact congrArg _ (if_pos h)
  · rw [State.arriveHere_eq hp hw]; exact ⟨rfl, rfl⟩
  · rw [exec_latWait hs, if_neg h]
  · rw [exec_latWait hs, if_pos h]; rfl
  · exact ⟨_, s.team.regsWritten_one (Reg.isV_of_isSZ h) 0 _, rfl⟩

end Sys2Proof.Machine
end

