-- ==== Sys2Proof/Proofs/StepRunsInstructions.lean ====
section
/-! PROOFS. A context without threads that waits to enter a trap: it is not kept while the running context gets its turn back, which refutes the claim that it goes on. -/

namespace Sys2Proof.Machine

open Sys2Proof Sys2Proof.Machine Sys2Proof.Claim

variable {s : State}

/-! ### A change of turn keeps every context -/

theorem State.tget_teamTbl {k : Nat} {x : Team} (h : s.getTeam k = some x) : tget none s.teamTbl k = some x := by
  unfold State.getTeam at h
  unfold State.teamTbl
  split at h
  · next hk =>
    rw [if_neg hk.2, tget_tinsert, if_pos hk.1.symm]
    exact h
  · next hk =>
    split
    · exact h
    · next ht =>
      rw [tget_tinsert, if_neg fun hj => hk ⟨hj.symm, ht⟩]
      exact h

/-- A context is the one that takes the turn, or is found under its number still. -/
theorem State.getTeam_focus {j : Nat} {x : Team} (h : s.getTeam j = some x) (k : Nat) :
    (s.focus k).team = x ∨ (s.focus k).getTeam j = some x ∨ tget none (s.focus k).teams j = some x := by
  unfold State.focus
  split
  · exact .inr (.inl h)
  · next tm hk =>
    by_cases hj : j = k
    · subst hj
      exact .inl (Option.some.inj (hk.symm.trans h))
    · refine .inr (.inr ?_)
      show tget none (terase s.teamTbl k) j = some x
      rw [tget_terase, if_neg hj]
      exact State.tget_teamTbl h

/-! ### The state -/

/-- Context 2, which has no thread, waits to enter a trap; context 1 runs. -/
def idleTrap : Team := { key := 2, threads := 0, parked := some (.trap { cls := .illegal }) }

/-- The hub finds no descriptor, so that the event changes nothing. -/
def lostWaiter : State := { team := { threads := 1, key := 1 }, teams := [(2, some idleTrap)], agenda := [.event .launchDescriptorCheck] }

/-- The same behind its event. -/
def lostWaiterAfter : State := { lostWaiter with agenda := [] }

theorem exec_lostWaiter : exec .launchDescriptorCheck lostWaiterAfter = .next lostWaiterAfter := rfl

/-- Context 2 has entered its handler, and is lost when context 1 has its turn back. -/
theorem step_lostWaiter : ∃ u, step lostWaiter = .next u ∧ u.team.key = 1 ∧ u.team.trapCtx = none ∧ u.teams = [] :=
  ⟨_, rfl, by decide, by decide, by decide⟩

theorem engines_lostWaiterAfter : lostWaiterAfter.engines = lostWaiterAfter := rfl

theorem quietAfter_lostWaiterAfter : quietAfter lostWaiterAfter := by
  refine ⟨rfl, rfl, rfl, fun k => ?_⟩
  unfold State.getCore
  split <;> rfl

theorem loneWaiter_lostWaiterAfter : loneWaiter lostWaiterAfter 2 idleTrap (.trap { cls := .illegal }) := by
  refine ⟨rfl, rfl, rfl, rfl, fun o ho hp => ?_, fun j b hb => ?_⟩
  · obtain rfl | ⟨k, hk⟩ := State.mem_teamTbl ho
    · exact absurd rfl hp
    · exact Option.some.inj (congrArg Prod.snd (List.mem_singleton.1 hk))
  · have hnone : lostWaiterAfter.getBlk j = none := if_neg fun h => h.2 h.1.symm
    cases hnone.symm.trans hb

/-- Refutes O54: in `lostWaiter` the context that waits to enter a trap waits for no store, but after the step it is no longer among the contexts. -/
theorem not_stepRunsInstructions : ¬ Obligations.StepRunsInstructions := by
  unfold Obligations.StepRunsInstructions
  rintro ⟨-, event, -⟩
  obtain ⟨u, hu, -, hgo⟩ := (event lostWaiter _ [] rfl rfl).1 _ exec_lostWaiter
  rw [engines_lostWaiterAfter] at hgo
  obtain ⟨w, hw, hkey, htrap, hteams⟩ := step_lostWaiter
  cases hu.symm.trans hw
  obtain ⟨v, hturn, x, hx, -, -, hctx⟩ := ((hgo quietAfter_lostWaiterAfter).2.1 _ _ _ loneWaiter_lostWaiterAfter).1 fun ⟨_, _, ha, _⟩ => nomatch ha
  have hgone : u.getTeam 2 = none := by
    unfold State.getTeam
    rw [hkey, hteams]
    rfl
  obtain rfl | ⟨n, rfl | ⟨k, rfl⟩⟩ := hturn
  · cases hgone.symm.trans hx
  · cases hgone.symm.trans (show (v.serve n).getTeam 2 = some x from hx)
  · obtain ht | ht | ht := State.getTeam_focus hx k
    · exact hctx (ht ▸ htrap)
    · cases hgone.symm.trans (show ((v.focus k).serve n).getTeam 2 = some x from ht)
    · rw [show (v.focus k).teams = [] from hteams] at ht
      cases ht

end Sys2Proof.Machine
end

