-- ==== Sys2Proof/Proofs/Publish.lean ====
section
/-! PROOFS. Publishing and refreshing (R168): which bytes go down from a core and a cluster, and what stays as it was. -/

namespace Sys2Proof.Machine

open Sys2Proof Sys2Proof.Machine Sys2Proof.Claim

variable {s t : State}

/-! ### Dirty bytes -/

/-- The dirty bytes of a table at an address all hold `b`. -/
def allHold (m : Tbl (Option DirtyByte)) (a : Nat) (b : Byte) : Prop := ∀ e ∈ m, e.1 = a → ∃ d, e.2 = some d ∧ d.byte = b

theorem mem_tinsert_self {α : Type} (m : Tbl α) (k : Nat) (v : α) : (k, v) ∈ tinsert m k v := by
  induction m with
  | nil => exact List.mem_singleton.2 rfl
  | cons e m ih =>
    unfold tinsert
    split
    · exact List.mem_cons_self
    split
    · exact List.mem_cons_self
    · exact List.mem_cons_of_mem _ ih

/-- An entry at another key stays where a table takes one. -/
theorem mem_tinsert_ne {α : Type} {m : Tbl α} {k : Nat} {v : α} {e : Nat × α} (h : e ∈ m) (hk : e.1 ≠ k) : e ∈ tinsert m k v := by
  induction m with
  | nil => cases h
  | cons x m ih =>
    unfold tinsert
    split
    · next hx =>
      rcases List.mem_cons.1 h with rfl | h
      · exact absurd hx.symm hk
      · exact List.mem_cons_of_mem _ h
    split
    · exact List.mem_cons_of_mem _ h
    · rcases List.mem_cons.1 h with rfl | h
      · exact List.mem_cons_self
      · exact List.mem_cons_of_mem _ (ih h)

/-- In the canonical form the only entry at a key is the one written there last. -/
theorem eq_of_mem_tinsert {α : Type} [DecidableEq α] {d : α} {m : Tbl α} {k : Nat} {v : α} {e : Nat × α} (h : twf d m = true) (he : e ∈ tinsert m k v) (hk : e.1 = k) :
    e = (k, v) := by
  induction m with
  | nil => exact List.mem_singleton.1 he
  | cons x m ih =>
    obtain ⟨i, w⟩ := x
    rw [twf_cons] at h
    have habove := tabove_mono h.2.2 h.1
    unfold tinsert at he
    split at he
    · next hx =>
      rcases List.mem_cons.1 he with rfl | he
      · rfl
      · exact absurd (habove e he) (by omega)
    split at he
    · next hx hlt =>
      rcases List.mem_cons.1 he with rfl | he
      · rfl
      rcases List.mem_cons.1 he with rfl | he
      · exact absurd hk.symm hx
      · exact absurd (habove e he) (by omega)
    · next hx hlt =>
      rcases List.mem_cons.1 he with rfl | he
      · exact absurd hk.symm hx
      · exact ih h.2.2 he

/-- A table after one dirty byte, if an entry is one. -/
def takeEntry (m : Tbl (Option DirtyByte)) (e : Nat × Option DirtyByte) : Tbl (Option DirtyByte) :=
  match e.2 with
  | some d => tinsert m e.1 (some d)
  | none => m

theorem takeEntry_some {m : Tbl (Option DirtyByte)} {e : Nat × Option DirtyByte} {d : DirtyByte} (h : e.2 = some d) : takeEntry m e = tinsert m e.1 (some d) := by
  unfold takeEntry; rw [h]
theorem takeEntry_none {m : Tbl (Option DirtyByte)} {e : Nat × Option DirtyByte} (h : e.2 = none) : takeEntry m e = m := by
  unfold takeEntry; rw [h]

/-- A property of tables that each dirty byte keeps. -/
theorem takeEntry_cases (P : Tbl (Option DirtyByte) → Prop) {m : Tbl (Option DirtyByte)} {e : Nat × Option DirtyByte} (h : P m)
    (hs : ∀ d, e.2 = some d → P (tinsert m e.1 (some d))) : P (takeEntry m e) := by
  cases he : e.2 with
  | none => rwa [takeEntry_none he]
  | some d => rw [takeEntry_some he]; exact hs d he

/-- A table after the dirty bytes of a list. -/
def takeDirty (m : Tbl (Option DirtyByte)) (ds : List (Nat × Option DirtyByte)) : Tbl (Option DirtyByte) := ds.foldl takeEntry m

theorem allHold_tinsert {m : Tbl (Option DirtyByte)} {a k : Nat} {b : Byte} {d : DirtyByte} (h : allHold m a b) (hd : k = a → d.byte = b) :
    allHold (tinsert m k (some d)) a b := by
  intro e he ha
  rcases mem_tinsert he with rfl | he
  · exact ⟨d, rfl, hd ha⟩
  · exact h e he ha

theorem allHold_takeDirty {m : Tbl (Option DirtyByte)} {ds : List (Nat × Option DirtyByte)} {a : Nat} {b : Byte} (hm : allHold m a b) (hds : allHold ds a b) :
    allHold (takeDirty m ds) a b := by
  induction ds generalizing m with
  | nil => exact hm
  | cons e ds ih =>
    refine ih (takeEntry_cases (allHold · a b) hm fun d hd => allHold_tinsert hm fun ha => ?_) fun x hx => hds x (List.mem_cons_of_mem _ hx)
    obtain ⟨d', hd', hb⟩ := hds e List.mem_cons_self ha
    cases hd.symm.trans hd'
    exact hb

theorem mem_takeDirty {m : Tbl (Option DirtyByte)} {a : Nat} (h : ∃ e ∈ m, e.1 = a) (ds : List (Nat × Option DirtyByte)) : ∃ e ∈ takeDirty m ds, e.1 = a :=
  foldl_keeps (P := fun m : Tbl (Option DirtyByte) => ∃ e ∈ m, e.1 = a) (fun m x hm => takeEntry_cases (fun m => ∃ e ∈ m, e.1 = a) hm fun d hd => by
    obtain ⟨e, he, ha⟩ := hm
    by_cases hk : e.1 = x.1
    · exact ⟨_, mem_tinsert_self m x.1 (some d), hk ▸ ha⟩
    · exact ⟨e, mem_tinsert_ne he hk, ha⟩) ds m h

/-- A byte that a list brings stands in the table, whether or not another stood there. -/
theorem dirty_takeDirty {m : Tbl (Option DirtyByte)} {ds : List (Nat × Option DirtyByte)} {a : Nat} {b : Byte} (hm : allHold m a b ∨ twf none m = true)
    (hex : ∃ e ∈ ds, e.1 = a) (hds : allHold ds a b) : (∃ e ∈ takeDirty m ds, e.1 = a) ∧ allHold (takeDirty m ds) a b := by
  induction ds generalizing m with
  | nil => obtain ⟨_, h, -⟩ := hex; cases h
  | cons e ds ih =>
    have hrest : allHold ds a b := fun x hx => hds x (List.mem_cons_of_mem _ hx)
    by_cases ha : e.1 = a
    · obtain ⟨d, hd, hb⟩ := hds e List.mem_cons_self ha
      have hhold : allHold (tinsert m a (some d)) a b := by
        rcases hm with hm | hm
        · exact allHold_tinsert hm fun _ => hb
        · exact fun x hx hk => ⟨d, congrArg Prod.snd (eq_of_mem_tinsert hm hx hk), hb⟩
      rw [show takeDirty m (e :: ds) = takeDirty (takeEntry m e) ds from rfl, takeEntry_some hd, ha]
      exact ⟨mem_takeDirty ⟨_, mem_tinsert_self _ _ _, rfl⟩ ds, allHold_takeDirty hhold hrest⟩
    · obtain ⟨x, hx, hxa⟩ := hex
      have hex' : ∃ x ∈ ds, x.1 = a := by
        rcases List.mem_cons.1 hx with rfl | hx
        · exact absurd hxa ha
        · exact ⟨x, hx, hxa⟩
      refine ih ?_ hex' hrest
      exact hm.imp (fun hm => takeEntry_cases (allHold · a b) hm fun d _ => allHold_tinsert hm fun hk => absurd hk ha)
        fun hm => takeEntry_cases (fun m => twf none m = true) hm fun d _ => tinsert_wf hm (by simp)

theorem clean_takeDirty {m : Tbl (Option DirtyByte)} {ds : List (Nat × Option DirtyByte)} {a : Nat} (hm : ∀ e ∈ m, e.1 ≠ a) (hds : ∀ e ∈ ds, e.1 ≠ a) :
    ∀ e ∈ takeDirty m ds, e.1 ≠ a := by
  induction ds generalizing m with
  | nil => exact hm
  | cons x ds ih =>
    refine ih (takeEntry_cases (fun m => ∀ e ∈ m, e.1 ≠ a) hm fun d _ e he => ?_) fun e he => hds e (List.mem_cons_of_mem _ he)
    rcases mem_tinsert he with rfl | he
    · exact hds x List.mem_cons_self
    · exact hm e he

/-! ### What publishing leaves -/

/-- What a publish or a refresh of the running core leaves: everything beside the views, memory, monitors and reservations. -/
structure OnlyHeard (s t : State) : Prop where
  blk : t.blk = s.blk
  launch : t.launch = s.launch
  hostMem : t.hostMem = s.hostMem
  hub : t.hub = s.hub
  pkg : t.pkg = s.pkg
  coreId : t.core.id = s.core.id
  team : s.team.heard t.team
  teams : ∀ k u, (k, some u) ∈ t.teams → ∃ tm, (k, some tm) ∈ s.teams ∧ tm.heard u

theorem OnlyHeard.refl (s : State) : OnlyHeard s s :=
  ⟨rfl, rfl, rfl, rfl, rfl, rfl, Team.heard_refl _, fun _ u hu => ⟨u, hu, Team.heard_refl _⟩⟩

theorem OnlyHeard.trans {r : State} (h : OnlyHeard r s) (k : OnlyHeard s t) : OnlyHeard r t :=
  ⟨k.blk.trans h.blk, k.launch.trans h.launch, k.hostMem.trans h.hostMem, k.hub.trans h.hub, k.pkg.trans h.pkg, k.coreId.trans h.coreId,
    Team.heard_trans h.team k.team, fun j u hu => by
      obtain ⟨v, hv, hvu⟩ := k.teams j u hu
      obtain ⟨w, hw, hwv⟩ := h.teams j v hv
      exact ⟨w, hw, Team.heard_trans hwv hvu⟩⟩

theorem OnlyHeard.mapTeams (s : State) {f : Team → Team} (hf : ∀ tm : Team, tm.heard (f tm)) : OnlyHeard s (s.mapTeams f) := by
  refine ⟨rfl, rfl, rfl, rfl, rfl, rfl, s.mapTeams_heard hf, fun k u hu => ?_⟩
  obtain ⟨⟨j, o⟩, he, hk⟩ := List.mem_map.1 hu
  cases o with
  | none => cases hk
  | some tm => cases hk; exact ⟨tm, he, hf tm⟩

theorem OnlyHeard.modPm (s : State) (p : Nat) (f : PkgMem → PkgMem) : OnlyHeard s (s.modPm p f) :=
  ⟨rfl, rfl, rfl, rfl, rfl, rfl, Team.heard_refl _, fun _ u hu => ⟨u, hu, Team.heard_refl _⟩⟩

theorem OnlyHeard.modCluster (s : State) (k : Nat) (f : Cluster → Cluster) : OnlyHeard s (s.modCluster k f) :=
  ⟨rfl, rfl, rfl, rfl, rfl, rfl, Team.heard_refl _, fun _ u hu => ⟨u, hu, Team.heard_refl _⟩⟩

/-- A change of the running core that keeps its number. -/
theorem State.modCore_running (s : State) {f : Core → Core} (hf : (f s.core).id = s.core.id) : s.modCore s.core.id f = { s with core := f s.core } := by
  simp [State.modCore, State.getCore, State.setCore, hf]

theorem OnlyHeard.withCore (s : State) {c : Core} (hc : c.id = s.core.id) : OnlyHeard s { s with core := c } :=
  ⟨rfl, rfl, rfl, rfl, rfl, hc, Team.heard_refl _, fun _ u hu => ⟨u, hu, Team.heard_refl _⟩⟩

theorem OnlyHeard.homeWrite (s : State) (p a : Nat) (b : Byte) (k th : Nat) : OnlyHeard s (s.homeWrite p a b k th) :=
  (OnlyHeard.modPm s p _).trans (OnlyHeard.mapTeams _ fun tm => Team.heard_trans (tm.heard_hear _ _) (Team.heard_loseResv _ _ _ _))

theorem OnlyHeard.alert (s : State) (r : LineRef) (lv : Level3) (inReach : Team → Bool) : OnlyHeard s (s.alert r lv inReach) := by
  refine OnlyHeard.mapTeams s fun tm => ?_
  split
  · exact tm.heard_hear _ _
  · exact Team.heard_refl _

theorem OnlyHeard.clusWrite (s : State) (cl a : Nat) (d : DirtyByte) : OnlyHeard s (s.clusWrite cl a d) :=
  (OnlyHeard.modCluster s cl _).trans (OnlyHeard.alert _ _ _ _)

theorem OnlyHeard.foldl {α : Type} {f : State → α → State} (hf : ∀ s a, OnlyHeard s (f s a)) (xs : List α) (s : State) : OnlyHeard s (xs.foldl f s) :=
  foldl_keeps (P := OnlyHeard s) (fun x a hx => hx.trans (hf x a)) xs s (OnlyHeard.refl s)

/-- A clean context stays in the package's tables by what it is parked on. -/
theorem OnlyHeard.noneParked (h : OnlyHeard s t) (hn : NoneParked s) : NoneParked t := by
  refine ⟨?_, fun e he u hu => ?_⟩
  · have := h.team; unfold Team.heard at this; rw [this]; exact hn.1
  · obtain ⟨tm, htm, hheard⟩ := h.teams e.1 u (hu ▸ he)
    unfold Team.heard at hheard; rw [hheard]; exact hn.2 _ htm tm rfl

/-! ### Bytes go down -/

section
variable {g : State → Nat × Option DirtyByte → State} (hn : ∀ s e, e.2 = none → g s e = s)
include hn

/-- Bytes that reach a cluster unit one after the other (R167). -/
theorem foldl_clusWrite {cl : Nat} (hg : ∀ s e d, e.2 = some d → g s e = s.clusWrite cl e.1 d) (ds : List (Nat × Option DirtyByte)) (s : State) :
    (ds.foldl g s).core = s.core ∧ (ds.foldl g s).mem = s.mem ∧
      ((ds.foldl g s).getCluster cl).view.dirty = takeDirty (s.getCluster cl).view.dirty ds ∧ OnlyHeard s (ds.foldl g s) := by
  induction ds generalizing s with
  | nil => exact ⟨rfl, rfl, rfl, OnlyHeard.refl s⟩
  | cons e ds ih =>
    obtain ⟨hcore, hmem, hdirty, hheard⟩ := ih (g s e)
    cases he : e.2 with
    | none =>
      rw [hn s e he] at hcore hmem hdirty hheard
      refine ⟨?_, ?_, ?_, ?_⟩
      all_goals rw [List.foldl_cons, hn s e he]
      · exact hcore
      · exact hmem
      · rw [hdirty]
        show _ = takeDirty (takeEntry _ e) ds
        rw [takeEntry_none he]
      · exact hheard
    | some d =>
      rw [hg s e d he] at hcore hmem hdirty hheard
      refine ⟨?_, ?_, ?_, ?_⟩
      all_goals rw [List.foldl_cons, hg s e d he]
      · exact hcore
      · exact hmem
      · have hget : ((s.clusWrite cl e.1 d).getCluster cl).view.dirty = tinsert (s.getCluster cl).view.dirty e.1 (some d) := by
          show (tget {} (tput {} s.clusters cl _) cl).view.dirty = _
          rw [tget_tput_same]
          rfl
        rw [hdirty, hget]
        show _ = takeDirty (takeEntry _ e) ds
        rw [takeEntry_some he]
      · exact (OnlyHeard.clusWrite s cl e.1 d).trans hheard

/-- Bytes that reach their homes one after the other (R166). -/
theorem foldl_homeWrite {p : Nat} (hg : ∀ s e d, s.pkg = p → e.2 = some d → g s e = s.homeWrite p e.1 d.byte d.team d.thread)
    (ds : List (Nat × Option DirtyByte)) (s : State) (hp : s.pkg = p) :
    (ds.foldl g s).core = s.core ∧ (ds.foldl g s).clusters = s.clusters ∧ OnlyHeard s (ds.foldl g s) ∧
      (∀ q, q ≠ p → ((ds.foldl g s).pm q).bytes = (s.pm q).bytes) ∧
      (∀ a, (∀ e ∈ ds, e.1 ≠ a) → ((ds.foldl g s).pm p).bytes.read a = (s.pm p).bytes.read a) ∧
      ∀ a b, allHold ds a b → ((∃ e ∈ ds, e.1 = a) ∨ (s.pm p).bytes.read a = b) → ((ds.foldl g s).pm p).bytes.read a = b := by
  induction ds generalizing s with
  | nil => exact ⟨rfl, rfl, OnlyHeard.refl s, fun _ _ => rfl, fun _ _ => rfl, fun a b _ h => h.resolve_left fun ⟨_, he, _⟩ => nomatch he⟩
  | cons e ds ih =>
    cases he : e.2 with
    | none =>
      rw [List.foldl_cons, hn s e he]
      obtain ⟨hcore, hclus, hheard, hother, hclean, hdirty⟩ := ih s hp
      refine ⟨hcore, hclus, hheard, hother, fun a ha => hclean a fun x hx => ha x (List.mem_cons_of_mem _ hx), fun a b hall h => ?_⟩
      refine hdirty a b (fun x hx => hall x (List.mem_cons_of_mem _ hx)) (h.imp_left fun ⟨x, hx, hxa⟩ => ?_)
      rcases List.mem_cons.1 hx with rfl | hx
      · obtain ⟨d, hd, -⟩ := hall x List.mem_cons_self hxa
        cases he.symm.trans hd
      · exact ⟨x, hx, hxa⟩
    | some d =>
      rw [List.foldl_cons, hg s e d hp he]
      obtain ⟨hcore, hclus, hheard, hother, hclean, hdirty⟩ := ih (s.homeWrite p e.1 d.byte d.team d.thread) hp
      have hread := fun q x => State.homeWrite_read s p e.1 d.byte d.team d.thread q x
      refine ⟨hcore, hclus, (OnlyHeard.homeWrite s p e.1 d.byte d.team d.thread).trans hheard, fun q hq => (hother q hq).trans ?_,
        fun a ha => (hclean a fun x hx => ha x (List.mem_cons_of_mem _ hx)).trans ?_, fun a b hall h => ?_⟩
      · simp [State.homeWrite, hq]
      · rw [hread, if_neg fun h => ha e List.mem_cons_self h.2.symm]
      · refine hdirty a b (fun x hx => hall x (List.mem_cons_of_mem _ hx)) ?_
        by_cases ha : e.1 = a
        · obtain ⟨d', hd', hb⟩ := hall e List.mem_cons_self ha
          cases he.symm.trans hd'
          exact .inr (by rw [hread, if_pos ⟨rfl, ha.symm⟩, hb])
        · refine h.imp (fun ⟨x, hx, hxa⟩ => ?_) fun h => by rw [hread, if_neg fun h => ha h.2.symm, h]
          rcases List.mem_cons.1 hx with rfl | hx
          · exact absurd hxa ha
          · exact ⟨x, hx, hxa⟩
end

theorem State.clus_eq {c : Nat} (h : s.core.id = c) : s.clus = s.getCluster (clusterOf c) := by
  rw [State.clus, h]

/-- The bytes of the running core's view go to its cluster unit. -/
theorem State.coreDown_running (s : State) :
    (s.coreDown s.core.id fun _ => true).core = { s.core with view := { s.core.view with dirty := [] } } ∧
    (s.coreDown s.core.id fun _ => true).mem = s.mem ∧
    (s.coreDown s.core.id fun _ => true).clus.view.dirty = takeDirty s.clus.view.dirty s.core.view.dirty ∧
    OnlyHeard s (s.coreDown s.core.id fun _ => true) := by
  have hcore : s.getCore s.core.id = s.core := if_pos rfl
  have hmod := s.modCore_running (f := fun x => { x with view := { x.view with dirty := x.view.dirty.filter fun _ => !true } }) rfl
  have hnone : (s.core.view.dirty.filter fun _ => !true) = [] := List.filter_false _
  unfold State.coreDown
  dsimp only
  rw [hcore, hmod, hnone, List.filter_true]
  obtain ⟨h1, h2, h3, h4⟩ := foldl_clusWrite (cl := clusterOf s.core.id)
    (g := fun s' e => match e.2 with
      | some d => s'.clusWrite (clusterOf s.core.id) e.1 d
      | none => s') (fun s e h => by simp only [h]) (fun s e d h => by simp only [h]) s.core.view.dirty
    { s with core := { s.core with view := { s.core.view with dirty := [] } } }
  refine ⟨h1, h2, ?_, (OnlyHeard.withCore s (c := { s.core with view := { s.core.view with dirty := [] } }) rfl).trans h4⟩
  exact (congrArg (fun c : Cluster => c.view.dirty) (State.clus_eq h4.coreId)).trans h3

/-- The bytes of the running core's cluster unit go to their homes. -/
theorem State.clusDown_running (s : State) {c : Nat} (hc : s.core.id = c) :
    (s.clusDown (clusterOf c) fun _ => true).core = s.core ∧
    (s.clusDown (clusterOf c) fun _ => true).clus.view = { s.clus.view with dirty := [] } ∧
    OnlyHeard s (s.clusDown (clusterOf c) fun _ => true) ∧
    (∀ q, q ≠ s.pkg → ((s.clusDown (clusterOf c) fun _ => true).pm q).bytes = (s.pm q).bytes) ∧
    (∀ a, cleanByte s.clus.view a → ((s.clusDown (clusterOf c) fun _ => true).pm s.pkg).bytes.read a = (s.pm s.pkg).bytes.read a) ∧
    ∀ a b, dirtyByte s.clus.view a b → ((s.clusDown (clusterOf c) fun _ => true).pm s.pkg).bytes.read a = b := by
  subst hc
  have hnone : ∀ l : Tbl (Option DirtyByte), (l.filter fun _ => !true) = [] := fun l => List.filter_false _
  unfold State.clusDown
  dsimp only
  rw [List.filter_true]
  simp only [hnone]
  obtain ⟨h1, h2, h3, h4, h5, h6⟩ := foldl_homeWrite
    (g := fun s' e => match e.2 with
      | some d => s'.homeWrite s'.pkg e.1 d.byte d.team d.thread
      | none => s') (fun s e h => by simp only [h]) (p := s.pkg) (fun s e d hp h => by simp only [h, hp]) s.clus.view.dirty
    (s.modCluster (clusterOf s.core.id) fun x => { x.charge s.clus.view.dirty.length with view := { x.view with dirty := [] } }) rfl
  refine ⟨h1, ?_, (OnlyHeard.modCluster s _ _).trans h3, h4, h5, fun a b ⟨hex, hall⟩ => h6 a b hall (.inl hex)⟩
  have hclusters : ∀ x : State, x.clusters = (s.modCluster (clusterOf s.core.id) fun x => { x.charge s.clus.view.dirty.length with view := { x.view with dirty := [] } }).clusters →
      x.core = s.core → x.clus.view = { s.clus.view with dirty := [] } := fun x hx hc => by
    rw [State.clus_eq (c := s.core.id) (by rw [hc]), State.getCluster, hx]
    show (tget {} (tput {} s.clusters _ _) _).view = _
    rw [tget_tput_same]
    rfl
  exact hclusters _ h2 h1

theorem dirtyByte_none {v : View} (h : v.dirty = []) (a : Nat) : cleanByte v a := fun e he => by rw [h] at he; cases he

theorem State.modCore_of_id {c : Nat} (h : s.core.id = c) {f : Core → Core} (hf : (f s.core).id = s.core.id) : s.modCore c f = { s with core := f s.core } := by
  subst h
  exact State.modCore_running s hf

theorem State.refresh_home (s : State) (c : Nat) : s.refresh c .home =
    ((s.clusDown (clusterOf c) fun _ => true).modCore c fun x => { x with view := x.view.empty }).modCluster (clusterOf c) fun x => { x with view := x.view.empty } := rfl

/-- A refresh of the running core's snapshot of a cluster (R168). -/
theorem State.publishRefresh_cluster (s : State) :
    let x := (s.publish s.core.id .cluster).refresh s.core.id .cluster
    x.core.view = {} ∧ x.mem = s.mem ∧ x.clus.view.dirty = takeDirty s.clus.view.dirty s.core.view.dirty ∧ OnlyHeard s x := by
  obtain ⟨hcore, hmem, hdirty, hheard⟩ := s.coreDown_running
  have hx : (s.publish s.core.id .cluster).refresh s.core.id .cluster = _ :=
    State.modCore_of_id hheard.coreId (f := fun x => { x with view := x.view.empty }) rfl
  rw [hx]
  refine ⟨?_, hmem, hdirty, hheard.trans (OnlyHeard.withCore _ rfl)⟩
  rw [hcore]
  rfl

/-- A publish and a refresh at the homes (R168). -/
theorem State.publishRefresh_home (s : State) :
    PublishedHome s ((s.publish s.core.id .home).refresh s.core.id .home) ∧ OnlyHeard s ((s.publish s.core.id .home).refresh s.core.id .home) := by
  obtain ⟨hcore, hmem, hdirty, hheard⟩ := s.coreDown_running
  have hpublish : s.publish s.core.id .home = (s.coreDown s.core.id fun _ => true).clusDown (clusterOf s.core.id) fun _ => true := rfl
  rw [State.refresh_home, hpublish]
  generalize (s.coreDown s.core.id fun _ => true) = y at hcore hmem hdirty hheard ⊢
  have hyid := hheard.coreId
  obtain ⟨hcore2, hview2, hheard2, hother2, hclean2, hdirty2⟩ := y.clusDown_running hyid
  generalize (y.clusDown (clusterOf s.core.id) fun _ => true) = z at hcore2 hview2 hheard2 hother2 hclean2 hdirty2 ⊢
  have hzid := hheard2.coreId.trans hyid
  obtain ⟨hcore3, hview3, hheard3, hother3, hclean3, -⟩ := z.clusDown_running hzid
  generalize (z.clusDown (clusterOf s.core.id) fun _ => true) = w at hcore3 hview3 hheard3 hother3 hclean3 ⊢
  have hwid := hheard3.coreId.trans hzid
  rw [State.modCore_of_id hwid (f := fun x => { x with view := x.view.empty }) rfl]
  obtain ⟨x, hx⟩ : ∃ x : State, x = ({ w with core := { w.core with view := w.core.view.empty } } : State).modCluster (clusterOf s.core.id) fun c => { c with view := c.view.empty } :=
    ⟨_, rfl⟩
  rw [← hx]
  have hpkg := hheard.pkg
  have hpkg2 := hheard2.pkg
  have hwcore : w.core = { s.core with view := { s.core.view with dirty := [] } } := hcore3.trans (hcore2.trans hcore)
  have hxview : x.clus.view = w.clus.view.empty := by
    rw [hx]
    rw [State.clus_eq hwid]
    show (tget {} (tput {} w.clusters _ _) (clusterOf w.core.id)).view = _
    rw [hwid, tget_tput_same]
    rfl
  have hclusView : x.clus.view = {} := by
    rw [hxview, hview3, hview2]; rfl
  have hcoreView : x.core.view = {} := by
    rw [hx]
    show w.core.view.empty = _
    rw [hwcore]; rfl
  have hbytes : ∀ a, (x.pm s.pkg).bytes.read a = (z.pm s.pkg).bytes.read a := fun a => by
    rw [hx, ← hpkg, ← hpkg2]
    exact hclean3 a (dirtyByte_none (by rw [hview2]) a)
  refine ⟨⟨hcoreView, hclusView, by rw [hcoreView], by rw [hclusView], ?_, ?_, ?_, ?_⟩, ?_⟩
  · intro a b hd hc
    rw [hbytes, ← hpkg]
    refine hdirty2 a b ?_
    unfold dirtyByte
    rw [hdirty]
    exact dirty_takeDirty (hc.imp_left fun hc e he ha => absurd ha (hc e he)) hd.1 hd.2
  · intro a b hc hd
    rw [hbytes, ← hpkg]
    refine hdirty2 a b ?_
    unfold dirtyByte
    rw [hdirty]
    exact ⟨mem_takeDirty hd.1 _, allHold_takeDirty hd.2 fun e he ha => absurd ha (hc e he)⟩
  · intro a hc hd
    have hy : (y.pm s.pkg).bytes.read a = (s.pm s.pkg).bytes.read a := by rw [State.pm_congr hmem]
    rw [hbytes, ← hy, ← hpkg]
    refine hclean2 a ?_
    unfold cleanByte
    rw [hdirty]
    exact clean_takeDirty hd hc
  · intro p hp
    have h3 := hother3 p (by rw [hpkg2, hpkg]; exact hp)
    have h2 := hother2 p (by rw [hpkg]; exact hp)
    rw [hx, ← State.pm_congr hmem p, ← h2, ← h3]
    rfl
  · rw [hx]
    exact ((hheard.trans hheard2).trans hheard3).trans ((OnlyHeard.withCore w (c := { w.core with view := w.core.view.empty }) rfl).trans (OnlyHeard.modCluster _ _ _))

end Sys2Proof.Machine
end

