-- ==== Sys2Proof/Proofs/OrderingWords.lean ====
section
/-! PROOFS. `phase`, `wait` and `rdcnt`. -/

namespace Sys2Proof.Machine

open Sys2Proof Sys2Proof.Machine Sys2Proof.Claim

variable {s t : State}

/-! ### Links -/

/-- No link moves data. -/
theorem State.linked_eq_false : s.linked = false ↔ noLink s := by
  have hlive : ∀ l : Link, l.live = true ↔ l.up = true ∧ l.training = false ∧ l.recovering = false := fun l => by
    simp [Link.live, and_assoc]
  simp only [State.linked, List.any_eq_false, Bool.and_eq_true, decide_eq_true_eq, not_and, hlive, noLink]
  exact Iff.rfl

theorem PendingByte.far_iff {w : PendingByte} {pkg : Nat} : w.far pkg = true ↔ ∃ p x, w.loc = .home p x ∧ p ≠ pkg := by
  unfold PendingByte.far
  split <;> simp_all

/-- A store that waits for a link (R28, R285). -/
theorem State.any_farHeld : s.team.inflight.any s.farHeld = true ↔ storeHeld s := by
  simp only [storeHeld, ← State.linked_eq_false, List.any_eq_true, State.farHeld, Bool.and_eq_true, Bool.not_eq_true', PendingByte.far_iff]
  exact ⟨fun ⟨a, ha, hl, w, hw, hf⟩ => ⟨hl, a, ha, w, hw, hf⟩, fun ⟨hl, a, ha, w, hw, hf⟩ => ⟨a, ha, hl, w, hw, hf⟩⟩

/-! ### Host memory -/

/-- Where in host memory a byte goes. -/
def hostAddr (w : PendingByte) : Nat :=
  match w.loc with
  | .hostMem a => a
  | _ => 0

theorem loc_of_toHost {w : PendingByte} (h : w.toHost = true) : w.loc = .hostMem (hostAddr w) := by
  unfold PendingByte.toHost at h
  unfold hostAddr
  split at h
  · next a ha => rw [ha]
  · cases h

/-- The host interface holds a byte behind those before it (R185). -/
theorem State.land_toHost {w : PendingByte} (h : w.toHost = true) (k : Nat) :
    s.land k w = { s with hub := { s.hub with posted := s.hub.posted ++ [(s.core.id, hostAddr w, w.byte)] } } := by
  unfold State.land
  rw [loc_of_toHost h]

theorem State.foldl_land_toHost {ws : List PendingByte} (h : ∀ w ∈ ws, w.toHost = true) (k : Nat) (s : State) :
    ws.foldl (fun s w => s.land k w) s = { s with hub := { s.hub with posted := s.hub.posted ++ ws.map fun w => (s.core.id, hostAddr w, w.byte) } } := by
  induction ws generalizing s with
  | nil => simp
  | cons w ws ih =>
    rw [List.foldl_cons, State.land_toHost (h w List.mem_cons_self), ih fun x hx => h x (List.mem_cons_of_mem _ hx)]
    simp

theorem lastAt_cons (x : Loc × Byte) (l : List (Loc × Byte)) (a : Loc) : lastAt (x :: l) a = (lastAt l a).or (if x.1 = a then some x.2 else none) := by
  simp only [lastAt, List.reverse_cons, List.find?_append, List.find?_singleton]
  cases l.reverse.find? fun w => decide (w.1 = a) with
  | some w => rfl
  | none => by_cases h : x.1 = a <;> simp [h]

/-- Bytes that reach host memory in order: of each the last stands (R185). -/
theorem read_foldl_posted (l : List (Nat × Nat × Byte)) (m : Mem) (a : Nat) :
    (l.foldl (fun m e => m.write e.2.1 e.2.2) m).read a = (lastAt (l.map fun e => (Loc.hostMem e.2.1, e.2.2)) (.hostMem a)).getD (m.read a) := by
  induction l generalizing m with
  | nil => rfl
  | cons e l ih =>
    rw [List.foldl_cons, ih, List.map_cons, lastAt_cons, mem_read_write]
    cases lastAt (l.map fun e => (Loc.hostMem e.2.1, e.2.2)) (.hostMem a) with
    | some b => rfl
    | none => by_cases h : a = e.2.1 <;> simp [h, eq_comm]

/-- The bytes that the core's teams have on their way to host memory. -/
def State.hostWrites (s : State) : List PendingByte :=
  ((tvals s.teamTbl).filter fun t => t.coreId == s.core.id).flatMap fun t => t.inflight.flatMap fun a => a.writes.filter PendingByte.toHost

theorem State.hostWrites_toHost : ∀ w ∈ s.hostWrites, w.toHost = true := by
  intro w hw
  simp only [State.hostWrites, List.mem_flatMap, List.mem_filter] at hw
  obtain ⟨_, _, _, _, _, h⟩ := hw
  exact h

theorem State.hostBound_eq (s : State) :
    hostBound s s.core.id = (s.hub.posted ++ s.hostWrites.map fun w => (s.core.id, hostAddr w, w.byte)).map fun e => (Loc.hostMem e.2.1, e.2.2) := by
  have hloc : s.hostWrites.map (fun w => (Loc.hostMem (hostAddr w), w.byte)) = s.hostWrites.map fun w => (w.loc, w.byte) :=
    List.map_congr_left fun w hw => by rw [loc_of_toHost (State.hostWrites_toHost w hw)]
  rw [List.map_append, List.map_map]
  show _ = _ ++ s.hostWrites.map fun w => (Loc.hostMem (hostAddr w), w.byte)
  rw [hloc]
  simp only [hostBound, State.hostWrites, List.map_flatMap, beq_eq_decide]

/-- A context of which no byte is on its way to host memory. -/
def Team.noHost (tm : Team) : Prop := ∀ a ∈ tm.inflight, ∀ w ∈ a.writes, w.toHost = false

/-- A context whose bytes for host memory have reached it. -/
def Team.sentHost (tm : Team) : Team := { tm with inflight := tm.inflight.map fun a => { a with writes := a.writes.filter fun w => !w.toHost } }

theorem Team.sentHost_noHost (tm : Team) : tm.sentHost.noHost := by
  intro a ha w hw
  obtain ⟨b, -, rfl⟩ := List.mem_map.1 ha
  simpa using (List.mem_filter.1 hw).2

/-- What `hostFlush` makes of a context, for core `c`. -/
def Team.sentFrom (c : Nat) (tm : Team) : Team := if tm.coreId = c then tm.sentHost else tm

theorem Team.sentFrom_parked (tm : Team) (c : Nat) : (tm.sentFrom c).parked = tm.parked := by
  unfold Team.sentFrom; split <;> rfl

theorem Team.sentFrom_noHost (tm : Team) {c : Nat} (h : (tm.sentFrom c).coreId = c) : (tm.sentFrom c).noHost := by
  unfold Team.sentFrom at h ⊢
  split
  · exact tm.sentHost_noHost
  · next hc =>
    rw [if_neg hc] at h
    exact absurd h hc

theorem Team.sentFrom_settled {tm : Team} (h : tm.inflight = []) (c : Nat) : tm.sentFrom c = tm := by
  cases tm
  simp_all [Team.sentFrom, Team.sentHost]

/-- Every byte that the core's teams have sent to host memory has reached it (R185); of the teams only their bytes on the way change. -/
theorem State.hostFlush_of_settled (h : s.team.inflight = []) :
    s.hostFlush = { s with hostMem := s.hostFlush.hostMem, hub := s.hostFlush.hub, teams := s.hostFlush.teams } ∧ s.hostFlush.hub.posted = [] ∧
    (∀ a, s.hostFlush.hostMem.read a = (lastAt (hostBound s s.core.id) (.hostMem a)).getD (s.hostMem.read a)) ∧
    ∀ k u, (k, some u) ∈ s.hostFlush.teams → ∃ tm, (k, some tm) ∈ s.teams ∧ u.parked = tm.parked ∧ (u.coreId = s.core.id → u.noHost) := by
  have hland : s.hostWrites.foldl (fun s w => s.land 0 w) s = _ := State.foldl_land_toHost State.hostWrites_toHost 0 s
  have hflush : s.hostFlush = (s.hostWrites.foldl (fun s w => s.land 0 w) s).postAll.mapTeams
      (Team.sentFrom (s.hostWrites.foldl (fun s w => s.land 0 w) s).postAll.core.id) := rfl
  rw [hland] at hflush
  refine ⟨?_, ?_, fun a => ?_, fun k u hu => ?_⟩
  · have hteam : s.hostFlush.team = s.team := by
      rw [hflush]
      exact (congrArg (fun x => if s.team.threads = 0 then s.team else x) (Team.sentFrom_settled h _)).trans (ite_self _)
    have hframe : s.hostFlush = { s with team := s.hostFlush.team, hostMem := s.hostFlush.hostMem, hub := s.hostFlush.hub, teams := s.hostFlush.teams } := by
      rw [hflush]; rfl
    rwa [hteam] at hframe
  · rw [hflush]; rfl
  · rw [hflush, State.hostBound_eq]
    exact read_foldl_posted _ _ _
  · rw [hflush] at hu
    obtain ⟨⟨j, o⟩, he, hk⟩ := List.mem_map.1 hu
    cases o with
    | none => cases hk
    | some tm => cases hk; exact ⟨tm, he, tm.sentFrom_parked _, tm.sentFrom_noHost⟩

/-! ### `phase` -/

/-- What a publish and a refresh at a level leave of the running core. -/
theorem State.publishRefresh_heard (s : State) (lv : Level3) : OnlyHeard s ((s.publish s.core.id lv).refresh s.core.id lv) := by
  cases lv with
  | coreView => exact OnlyHeard.refl s
  | cluster => exact s.publishRefresh_cluster.2.2.2
  | home => exact s.publishRefresh_home.2

/-- The state that `phase` publishes and refreshes: at `.host` behind the bytes that have reached host memory (R185). -/
def State.beforePhase (s : State) (c : Scope) : State := if c = .host then s.hostFlush else s

theorem State.beforePhase_core (h : s.team.inflight = []) (c : Scope) : (s.beforePhase c).core = s.core ∧ (s.beforePhase c).team = s.team := by
  unfold State.beforePhase
  split
  · rw [(State.hostFlush_of_settled h).1]; exact ⟨rfl, rfl⟩
  · exact ⟨rfl, rfl⟩

theorem State.beforePhase_noneParked (h : s.team.inflight = []) (hn : NoneParked s) (c : Scope) : NoneParked (s.beforePhase c) := by
  refine ⟨by rw [(State.beforePhase_core h c).2]; exact hn.1, ?_⟩
  unfold State.beforePhase
  split
  · rintro ⟨k, o⟩ he u rfl
    obtain ⟨tm, htm, hp, -⟩ := (State.hostFlush_of_settled h).2.2.2 k u he
    exact hp.trans (hn.2 _ htm tm rfl)
  · exact hn.2

/-- What `phase` leaves before the word ends. -/
def State.phased (s : State) (c : Scope) : State := ((s.beforePhase c).publish s.core.id (scopeLevel c)).refresh s.core.id (scopeLevel c)

theorem State.phased_heard (h : s.team.inflight = []) (c : Scope) : OnlyHeard (s.beforePhase c) (s.phased c) := by
  have := (s.beforePhase c).publishRefresh_heard (scopeLevel c)
  rwa [(State.beforePhase_core h c).1] at this

theorem exec_phase (hs : s.settled) (hk : s.team.kind = .team) (hn : NoneParked s) (c : Scope) : exec (.phase c) s = .next ((s.phased c).finish 0) := by
  have hheard := State.phased_heard hs.1.1 c
  have hteam := hheard.team
  unfold Team.heard at hteam
  rw [(State.beforePhase_core hs.1.1 c).2] at hteam
  have hwake : ((s.phased c).finish 0).wakeAll = (s.phased c).finish 0 :=
    State.finish_zero_wakeAll (Team.inOrder_of_frame hs.2 (by rw [hteam]) (by rw [hteam])) (hheard.noneParked (State.beforePhase_noneParked hs.1.1 hn c))
  have hdrain : (if c = .host then s.drain.hostFlush else s.drain) = s.beforePhase c := by
    rw [State.drain_settled hs.1.1]; rfl
  show execPhase c s = _
  unfold execPhase
  rw [State.streamBusy_team hk, hs.1.1]
  simp only [List.any_nil, Bool.false_eq_true, if_false]
  rw [hdrain, (State.beforePhase_core hs.1.1 c).1]
  exact congrArg _ hwake

/-- A word without a pass changes its team alone. -/
theorem State.finish_zero_frame (s : State) : s.finish 0 = { s with team := (s.finish 0).team } := rfl

theorem State.finish_zero_blk (s : State) : (s.finish 0).blk = s.blk := rfl
theorem State.finish_zero_launch (s : State) : (s.finish 0).launch = s.launch := rfl
theorem State.finish_zero_hub (s : State) : (s.finish 0).hub = s.hub := rfl
theorem State.finish_zero_hostMem (s : State) : (s.finish 0).hostMem = s.hostMem := rfl
theorem State.finish_zero_core (s : State) : (s.finish 0).core = s.core := rfl
theorem State.finish_zero_mem (s : State) : (s.finish 0).mem = s.mem := rfl
theorem State.finish_zero_clus (s : State) : (s.finish 0).clus = s.clus := rfl
theorem publishedHome_finish_zero (h : PublishedHome s t) : PublishedHome s (t.finish 0) := h

theorem State.phased_team (hs : s.settled) (c : Scope) : s.team.heard (s.phased c).team := by
  have := (State.phased_heard hs.1.1 c).team
  rwa [(State.beforePhase_core hs.1.1 c).2] at this

/-- A word without a pass, of a context that differs from a settled one in its monitor and reservations alone. -/
theorem State.finish_zero_heard (hs : s.settled) (h : s.team.heard t.team) :
    SameRegs s.team (t.finish 0).team ∧ (t.finish 0).team.pc = s.team.pc + 4 ∧ (t.finish 0).team.inflight = [] := by
  unfold Team.heard at h
  have hsame : SameRegs s.team t.team := by rw [h]; exact ⟨fun _ _ => rfl, fun _ => rfl, fun _ _ => rfl⟩
  have hord : t.team.inOrder := Team.inOrder_of_frame hs.2 (by rw [h]) (by rw [h])
  have hpend : t.team.pend = [] := by rw [h]; exact hs.1.2
  have hfin : t.finish 0 = t.finishPasses [] (t.team.pc + 4) := rfl
  obtain ⟨hregs, -, -, hfl⟩ := Team.pastWord_noPend hpend ([] : List Nat).sum (t.team.pc + 4)
  rw [hfin, State.finishPasses_team hord]
  refine ⟨?_, ?_, ?_⟩
  · obtain ⟨hv, hsc, hp⟩ := hregs.claim
    obtain ⟨hv', hsc', hp'⟩ := hsame
    exact ⟨fun th r => (hv th r).trans (hv' th r), fun r => (hsc r).trans (hsc' r), fun th p => (hp th p).trans (hp' th p)⟩
  · show (t.team.pastWord _ _).pc = _
    rw [Team.pastWord_pc, h]
  · show (t.team.pastWord _ _).inflight = _
    rw [hfl, h, hs.1.1]
    rfl

theorem State.beforePhase_host (s : State) : s.beforePhase .host = s.hostFlush := rfl
theorem State.beforePhase_other {c : Scope} (h : c ≠ .host) : s.beforePhase c = s := if_neg h

theorem scope_ne_host {c : Scope} (h : scopeLevel c ≠ .home) : c ≠ .host := by
  rintro rfl; exact h rfl

/-- Behind `phase` at `.host` nothing of the core's is on its way to host memory (R185). -/
theorem hostBound_phased (hs : s.settled) (hh : OnlyHeard s.hostFlush t) (ht : s.team.heard t.team) : hostBound (t.finish 0) s.core.id = [] := by
  obtain ⟨-, hposted, -, hteams⟩ := State.hostFlush_of_settled hs.1.1
  have hhub : (t.finish 0).hub.posted = [] := by rw [State.finish_zero_hub, hh.hub, hposted]
  have hnoHost : ∀ tm ∈ tvals (t.finish 0).teamTbl, tm.coreId = s.core.id → tm.noHost := fun tm htm hc => by
    obtain rfl | ⟨k, hk⟩ := State.mem_teamTbl htm
    · intro a ha
      rw [(State.finish_zero_heard hs ht).2.2] at ha
      cases ha
    · rw [State.finish_zero_teams] at hk
      obtain ⟨u, hu, hut⟩ := hh.teams k tm hk
      unfold Team.heard at hut
      have hucore : u.coreId = s.core.id := by rw [hut] at hc; exact hc
      obtain ⟨_, _, _, hno⟩ := hteams k u hu
      have := hno hucore
      unfold Team.noHost at this ⊢
      rw [hut]
      exact this
  simp only [hostBound, hhub, List.map_nil, List.nil_append, List.flatMap_eq_nil_iff, List.mem_filter, decide_eq_true_eq, List.map_eq_nil_iff, List.filter_eq_nil_iff]
  exact fun tm ⟨htm, hc⟩ a ha w hw => by rw [hnoHost tm htm hc a ha w hw]; decide

theorem publishedHome_phased (hs : s.settled) {c : Scope} (hc : scopeLevel c = .home) : PublishedHome s (s.phased c) := by
  have hx := (s.beforePhase c).publishRefresh_home.1
  rw [(State.beforePhase_core hs.1.1 c).1] at hx
  have hphased : s.phased c = ((s.beforePhase c).publish s.core.id .home).refresh s.core.id .home := by rw [State.phased, hc]
  rw [← hphased] at hx
  unfold State.beforePhase at hx
  split at hx
  · rwa [(State.hostFlush_of_settled hs.1.1).1] at hx
  · exact hx

theorem phaseWord (c : Scope) (s : State) (hs : s.settled) (hk : s.team.kind = .team) (hp : Placed s) :
    Completes (.phase c) s fun t =>
      SameRegs s.team t.team ∧ t.team.pc = s.team.pc + 4 ∧ t.blk = s.blk ∧ t.launch = s.launch ∧
      (c ≠ .host → t.hostMem = s.hostMem) ∧
      (c = .host → t.hub.posted = [] ∧ hostBound t s.core.id = [] ∧
        ∀ a, t.hostMem.read a = (lastAt (hostBound s s.core.id) (.hostMem a)).getD (s.hostMem.read a)) ∧
      (scopeLevel c = .coreView → t = s.finish 0) ∧
      (scopeLevel c = .cluster → t.core.view = {} ∧ t.mem = s.mem ∧ ∀ a b, dirtyByte s.core.view a b →
        cleanByte s.clus.view a ∨ twf none s.clus.view.dirty = true → dirtyByte t.clus.view a b) ∧
      (scopeLevel c = .home → PublishedHome s t) := by
  have hheard := State.phased_heard hs.1.1 c
  have hbefore : (s.beforePhase c).blk = s.blk ∧ (s.beforePhase c).launch = s.launch := by
    unfold State.beforePhase
    split
    · rw [(State.hostFlush_of_settled hs.1.1).1]; exact ⟨rfl, rfl⟩
    · exact ⟨rfl, rfl⟩
  have hteam := State.phased_team hs c
  have hhome := fun h => publishedHome_phased (c := c) hs h
  have hcore : scopeLevel c = .coreView → s.phased c = s := fun hc => by
    rw [State.phased, hc, State.beforePhase_other (scope_ne_host (by rw [hc]; decide))]; rfl
  have hclus : scopeLevel c = .cluster → s.phased c = (s.publish s.core.id .cluster).refresh s.core.id .cluster := fun hc => by
    rw [State.phased, hc, State.beforePhase_other (scope_ne_host (by rw [hc]; decide))]
  refine ⟨_, exec_phase hs hk hp.2.2.2.2 c, ?_⟩
  generalize s.phased c = y at hheard hteam hhome hcore hclus ⊢
  obtain ⟨hregs, hpc, -⟩ := State.finish_zero_heard hs hteam
  refine ⟨hregs, hpc, ?_, ?_, fun hc => ?_, ?_, fun hc => ?_, fun hc => ?_, fun hc => publishedHome_finish_zero (hhome hc)⟩
  · rw [State.finish_zero_blk, hheard.blk, hbefore.1]
  · rw [State.finish_zero_launch, hheard.launch, hbefore.2]
  · rw [State.finish_zero_hostMem, hheard.hostMem, State.beforePhase_other hc]
  · rintro rfl
    rw [State.beforePhase_host] at hheard
    obtain ⟨-, hposted, hread, -⟩ := State.hostFlush_of_settled hs.1.1
    rw [State.finish_zero_hub, State.finish_zero_hostMem, hheard.hub, hheard.hostMem]
    exact ⟨hposted, hostBound_phased hs hheard hteam, hread⟩
  · rw [hcore hc]
  · obtain ⟨hview, hmem, hdirty, -⟩ := s.publishRefresh_cluster
    rw [← hclus hc] at hview hmem hdirty
    rw [State.finish_zero_core, State.finish_zero_mem, State.finish_zero_clus]
    refine ⟨hview, hmem, fun a b hd hcl => ?_⟩
    unfold dirtyByte
    rw [hdirty]
    exact dirty_takeDirty (hcl.imp_left fun hcl e he ha => absurd ha (hcl e he)) hd.1 hd.2

/-! ### `wait` and `rdcnt` -/

/-- With no fault to take, `wait` parks while its counter is above the operand (R29). -/
theorem exec_wait (p : Path) (d : Reg) (h : s.team.engFaults = []) :
    exec (.wait p d) s = .next (if (s.team.flush.rd s.blk.bix d 0 0).toNat < 255 ∧ (s.team.flush.rd s.blk.bix d 0 0).toNat < s.team.flush.counter p
      then { s with team := { s.team.flush with parked := some (.path p (s.team.flush.rd s.blk.bix d 0 0).toNat), promised := none } }
      else ({ s with team := s.team.flush } : State).finish 0) := by
  have hnone : (pathEngine p).bind (fun e => ({ s with team := s.team.flush } : State).takeEngFault (EngFault.ownOf e)) = none := by
    have hf : s.team.flush.engFaults = [] := by rw [Team.flush_frame]; exact h
    cases pathEngine p with
    | none => rfl
    | some e =>
      show State.takeEngFault _ _ = none
      unfold State.takeEngFault
      rw [hf]
      rfl
  show execWait p d s = _
  unfold execWait
  dsimp only
  rw [hnone]
  dsimp only
  split
  · rfl
  · rfl

/-- A fault of the engine waited for is taken (R399). -/
theorem exec_wait_fault {p : Path} {e : Engine} (d : Reg) {x : EngFault} (hp : pathEngine p = some e) (h : s.team.engFaults = [x]) (hx : x.engine = e)
    (ho : x.origin = .team s.team.key s.team.index) :
    exec (.wait p d) s = .next (({ s with team := { s.team.flush with engFaults := [] } } : State).takeTrap x.cause) := by
  have hf : s.team.flush.engFaults = [x] := by rw [Team.flush_frame]; exact h
  have hown : EngFault.ownOf e x = true := by simp [EngFault.ownOf, hx, ho]
  have htake : (pathEngine p).bind (fun e => ({ s with team := s.team.flush } : State).takeEngFault (EngFault.ownOf e)) =
      some (({ s with team := { s.team.flush with engFaults := [] } } : State).takeTrap x.cause) := by
    rw [hp]
    show State.takeEngFault _ _ = _
    unfold State.takeEngFault
    rw [hf, List.find?_cons_of_pos hown]
    dsimp only
    rw [List.erase_cons_head]
  show execWait p d s = _
  unfold execWait
  dsimp only
  rw [htake]

/-- Settles O30: `phase` publishes and refreshes what stands in the core's and its cluster's views (R168); `wait` and `rdcnt` read a counter. -/
theorem orderingWords : Obligations.OrderingWords := by
  unfold Obligations.OrderingWords
  refine ⟨phaseWord, fun c s hk hh => ?_, fun p d s => ?_⟩
  · show execPhase c s = _
    unfold execPhase
    rw [State.streamBusy_team hk, State.any_farHeld.2 hh]
    rfl
  · intro f k
    refine ⟨fun he h255 hc => ?_, fun he hc => ?_, fun e x he hx ho => ?_, fun hd => ?_⟩
    · rw [exec_wait p d he, if_pos ⟨h255, hc⟩]
    · rw [exec_wait p d he, if_neg hc]
    · cases e <;> exact exec_wait_fault d rfl he hx ho
    · exact ⟨_, f.regsWritten_one (Reg.isV_of_isSZ hd) 0 _, rfl⟩

end Sys2Proof.Machine
end

