-- ==== Sys2Proof/Proofs/LoadWords.lean ====
section
/-! PROOFS. Loads. What a memory word's lookups leave, which targets pass their checks, and the words that loaded bytes give. -/

namespace Sys2Proof.Machine

open Sys2Proof Sys2Proof.Machine Sys2Proof.Claim

variable {s t : State}

/-! ### What lookups and reads leave -/

/-- `t` is `s` but for the core and the clusters: what is buffered and charged. -/
def State.onlyViews (s t : State) : Prop := t = { s with core := t.core, clusters := t.clusters }

theorem State.onlyViews_refl (s : State) : s.onlyViews s := rfl
theorem State.onlyViews_trans {r : State} (h : r.onlyViews s) (k : s.onlyViews t) : r.onlyViews t := by
  unfold State.onlyViews at *
  rw [h] at k
  exact k

theorem State.onlyViews_foldl {α : Type} {f : State → α → State} (hf : ∀ (s : State) (a : α), s.onlyViews (f s a)) (xs : List α) (s : State) : s.onlyViews (xs.foldl f s) :=
  foldl_keeps (P := s.onlyViews) (fun x a hx => State.onlyViews_trans hx (hf x a)) xs s s.onlyViews_refl

theorem State.onlyViews_modCluster (s : State) (k : Nat) (f : Cluster → Cluster) : s.onlyViews (s.modCluster k f) := rfl
theorem State.onlyViews_withCore (s : State) (c : Core) : s.onlyViews { s with core := c } := rfl

theorem State.onlyViews_fill (s : State) (off : Nat) : s.onlyViews (s.fill off) := by
  unfold State.fill
  generalize walkBytes (s.pm s.pkg) off [40, 32, 24, 16] s.launch.root = n
  dsimp only
  split
  · exact s.onlyViews_refl
  split
  · split
    · exact s.onlyViews_modCluster _ _
    · exact s.onlyViews_refl
  · split
    · exact State.onlyViews_trans (s.onlyViews_modCluster _ _) (State.onlyViews_trans (State.onlyViews_withCore _ _) (State.onlyViews_modCluster _ _ _))
    · exact State.onlyViews_withCore _ _

theorem State.onlyViews_fillAll (s : State) (qs : List DWord) : s.onlyViews (s.fillAll qs) :=
  State.onlyViews_foldl (fun s q => by
    split
    · exact s.onlyViews_fill _
    · exact s.onlyViews_refl) qs s

theorem State.onlyViews_fillAccs (s : State) (as : List Acc) : s.onlyViews (s.fillAccs as) := s.onlyViews_fillAll _

theorem State.onlyViews_clusterTake (s : State) (l : Nat) : s.onlyViews (s.clusterTake l) := by
  unfold State.clusterTake
  split
  · exact s.onlyViews_refl
  · exact s.onlyViews_modCluster _ _

theorem State.onlyViews_touchLine (s : State) (l : Nat) : s.onlyViews (s.touchLine l) := by
  unfold State.touchLine
  dsimp only
  split
  · exact s.onlyViews_clusterTake l
  · exact State.onlyViews_trans (s.onlyViews_clusterTake l) (State.onlyViews_withCore _ _)

theorem State.onlyViews_touchTgt (s : State) (g : Tgt) (t n : Nat) : s.onlyViews (s.touchTgt g t n) := by
  unfold State.touchTgt
  split
  · exact s.onlyViews_refl
  · exact State.onlyViews_foldl (fun s l => by
      split
      · exact s.onlyViews_touchLine _
      · exact s.onlyViews_refl) _ s

theorem State.onlyViews_chargeFar (s : State) (n : Nat) (as : List Acc) : s.onlyViews (s.chargeFar n as) := by
  unfold State.chargeFar
  dsimp only
  split
  · exact s.onlyViews_refl
  · exact s.onlyViews_modCluster _ _

theorem State.onlyViews_touchAccs (s : State) (n : Nat) (as : List Acc) : s.onlyViews (s.touchAccs n as) :=
  State.onlyViews_trans (State.onlyViews_foldl (fun s x => s.onlyViews_touchTgt x.g x.t n) as s) (State.onlyViews_chargeFar _ _ _)

/-- Without watches no access is noted (R260). -/
theorem State.watchAccs_unwatched (h : s.launch.watches = []) (n : Nat) (rd wr : Bool) (as : List Acc) : s.watchAccs n rd wr as = s := by
  unfold State.watchAccs State.watchTeam State.watchGroups
  rw [h]
  exact ite_self _

/-- Without race detection no pass is checked (R263). -/
theorem State.racePass_off (h : s.launch.race = false) (pc : Nat) (ws wrote : List (Nat × Nat)) : s.racePass pc ws wrote = s := by
  unfold State.racePass
  exact if_pos (by simp [h])

theorem State.raceWord_off (h : s.launch.race = false) (n : Nat) (as : List Acc) (wrote : Acc → Bool) : s.raceWord n as wrote = s :=
  foldl_id (fun _ => State.racePass_off h _ _ _) _

/-! ### Requests -/

theorem reqs_eq (s : State) (a : Reg) (scalar : Bool) (off : Int) : s.reqs a scalar off = (accessors s scalar).map fun t => (t, pointerOf s a off t) := rfl

theorem Team.counter_none {tm : Team} (h : tm.inflight = []) (p : Path) : tm.counter p = 0 := by
  simp [Team.counter, h]

/-- With no access in flight no counter stands at its limit (R28). -/
theorem Team.fullPath_none {tm : Team} (h : tm.inflight = []) (ps : List Path) : tm.fullPath ps = none := by
  simp [Team.fullPath, Team.counter_none h]

/-- The pointers of a word wait for a link as R6, R285 and R286 say. -/
theorem linkWait_iff (s : State) (a : Reg) (scalar : Bool) (off : Int) :
    s.linkWait ((s.reqs a scalar off).map (·.2)) = true ↔ waitsForLink s a scalar off := by
  simp only [State.linkWait, reqs_eq, List.map_map, waitsForLink, ← State.linked_eq_false, Bool.and_eq_true, Bool.not_eq_true', Option.isNone_iff_eq_none,
    List.any_eq_true, List.mem_map, Option.any_eq_true, bne_iff_ne, and_assoc]
  refine and_congr_right fun _ => and_congr_right fun _ => ⟨?_, ?_⟩
  · rintro ⟨_, ⟨t, ht, rfl⟩, p, hp, hne⟩
    exact ⟨t, ht, p, hp, hne⟩
  · rintro ⟨t, ht, p, hp, hne⟩
    exact ⟨_, ⟨t, ht, rfl⟩, p, hp, hne⟩

/-- Where every access passes, the accesses of a word are its threads' and none fails. -/
theorem locate_eq (s : State) (u : Use) (size : Nat) (lost : Bool) (a : Reg) (scalar : Bool) (off : Int) (vec : Bool) (hv : vec = a.isV) :
    (s.locate u size vec lost (s.reqs a scalar off)).1 = accessesOf s u size lost a scalar off := by
  subst hv
  simp only [State.locate, reqs_eq, accessesOf, List.map_map, List.filterMap_map]
  rfl

theorem locate_allPass {s : State} {u : Use} {size : Nat} {lost : Bool} {a : Reg} {scalar : Bool} {off : Int} (h : allPass s u size lost a scalar off) :
    (s.locate u size a.isV lost (s.reqs a scalar off)).2 = [] := by
  simp only [State.locate, reqs_eq, List.map_map, List.filterMap_map, List.filterMap_eq_nil_iff]
  intro t ht
  obtain ⟨g, hg⟩ := h t ht
  simp only [Function.comp_apply, hg]

/-! ### Targets -/

theorem memTgt_ok {e : TlbEntry} {sp pkg off : Nat} {g : Tgt} (h : memTgt e sp pkg off = .ok g) :
    g.space = sp ∧ ∀ l, g.leaf = some l → l.efmt ≠ 0 := by
  unfold memTgt at h
  split at h
  · cases h
  split at h
  · next hf => cases h; exact ⟨rfl, fun l hl => Option.some.inj hl ▸ hf⟩
  · cases h; exact ⟨rfl, fun l hl => nomatch hl⟩

/-- A target in the decode space is read whole, and the leaf of a typed page has a format. -/
theorem resolve_ok {u : Use} {size : Nat} {vec raw : Bool} {th : Nat} {q : DWord} {g : Tgt} (h : s.resolve u size vec raw th q = .ok g) :
    (g.space = 3 → size = 16) ∧ ∀ l, g.leaf = some l → l.efmt ≠ 0 := by
  have hmem : ∀ {e : TlbEntry} {sp pkg off : Nat}, memTgt e sp pkg off = .ok g → sp ≠ 3 → (g.space = 3 → size = 16) ∧ ∀ l, g.leaf = some l → l.efmt ≠ 0 :=
    fun h hsp => ⟨fun h3 => absurd ((memTgt_ok h).1.symm.trans h3) hsp, (memTgt_ok h).2⟩
  have hown : ∀ {e : TlbEntry} {x : Option MemErr} {sp pkg off : Nat}, (match x with | some y => Except.error y | none => memTgt e sp pkg off) = .ok g → sp ≠ 3 →
      (g.space = 3 → size = 16) ∧ ∀ l, g.leaf = some l → l.efmt ≠ 0 := fun {e x sp pkg off} h hsp => by
    cases x with
    | some y => cases h
    | none => exact hmem h hsp
  unfold State.resolve at h
  dsimp only at h
  split at h
  · cases h
  split at h
  · cases h
  split at h
  · cases h
  split at h
  · split at h
    · cases h
    · exact hown h (by decide)
  · split at h
    · cases h
    · cases h; exact ⟨fun h3 => absurd h3 (show (1 : Nat) ≠ 3 by decide), fun _ hl => nomatch hl⟩
  · split at h
    · cases h
    split at h
    · cases h
    · cases h; exact ⟨fun h3 => absurd h3 (show (2 : Nat) ≠ 3 by decide), fun _ hl => nomatch hl⟩
  · split at h
    · cases h
    split at h
    · cases h
    split at h
    · cases h
    · next hsize =>
      cases h
      exact ⟨fun _ => by omega, fun _ hl => nomatch hl⟩
  · split at h
    · cases h
    split at h
    · cases h
    · cases h; exact ⟨fun h3 => absurd h3 (show (4 : Nat) ≠ 3 by decide), fun _ hl => nomatch hl⟩
  · split at h
    · cases h
    split at h
    · cases h
    obtain ⟨-, h⟩ | ⟨-, h⟩ := ite_eq_iff.1 h
    · cases h
    split at h
    · cases h
    split at h
    · cases h
    split at h
    · cases h
    · exact hmem h (by decide)
  · cases h; exact ⟨fun h3 => absurd h3 (show (6 : Nat) ≠ 3 by decide), fun _ hl => nomatch hl⟩
  · split at h
    · cases h
    · exact hown h (by decide)

/-- An access that passes has resolved, and its page does not refuse it (R148). -/
theorem check_ok {u : Use} {size : Nat} {vec lost : Bool} {th : Nat} {q : DWord} {g : Tgt} (h : s.check u size vec lost th q = .ok g) :
    s.resolve u size vec s.team.priv? th q = .ok g ∧ (g.leaf.any fun e => e.refuses u size) = false := by
  unfold State.check at h
  split at h
  · cases h
  · next g' hg =>
    dsimp only at h
    split at h
    · cases h
    split at h
    · cases h
    split at h
    · cases h
    · next htyped =>
      split at h
      · cases h
      · cases h
        exact ⟨hg, Bool.not_eq_true _ ▸ htyped⟩

theorem leBytes_length (n x : Nat) : (leBytes n x).length = n := by
  induction n generalizing x with
  | zero => rfl
  | succ n ih => simp [leBytes, ih]

theorem leNat_lt (bs : List Byte) : leNat bs < 2 ^ (8 * bs.length) := by
  induction bs with
  | nil => simp [leNat]
  | cons b bs ih =>
    have hb := b.isLt
    have hp : 2 ^ (8 * (b :: bs).length) = 256 * 2 ^ (8 * bs.length) := by
      rw [List.length_cons, Nat.mul_add, Nat.pow_add]; omega
    rw [hp, leNat]
    omega

/-- What a load reads has the access's size. -/
theorem readTgt_length {g : Tgt} {n : Nat} (t : Nat) (h3 : g.space = 3 → n = 16) (hl : ∀ l, g.leaf = some l → n % 4 = 0) : (s.readTgt g t n).length = n := by
  unfold State.readTgt
  split
  · next h => rw [leBytes_length, h3 h]
  · split
    · simp
    · next e he =>
      have hn := hl e he
      simp only [List.length_flatMap, leBytes_length, List.map_const', upList_length, List.sum_replicate]
      simp only [smul_eq_mul]
      omega

theorem readTgt_length_of_check {size : Nat} {vec lost : Bool} {th : Nat} {q : DWord} {g : Tgt} (h : s.check .ld size vec lost th q = .ok g)
    (hs : size < 4 ∨ size % 4 = 0) : (s.readTgt g th size).length = size := by
  obtain ⟨hr, href⟩ := check_ok h
  obtain ⟨h3, hl⟩ := resolve_ok hr
  refine readTgt_length th h3 fun l hleaf => ?_
  rw [hleaf] at href
  have := hl l hleaf
  simp [TlbEntry.refuses, this] at href
  omega

/-! ### Loaded words -/

theorem extend_length {sgn : Bool} {bs : List Byte} (h0 : bs ≠ []) (hs : bs.length < 4 ∨ bs.length % 4 = 0) : (extend sgn bs).length = (bs.length + 3) / 4 := by
  have := List.length_pos_iff.2 h0
  unfold extend
  dsimp only
  split
  · rw [List.length_singleton]; omega
  · rw [List.length_map, upList_length]; omega

/-- A short value extended by its sign (R345). -/
theorem signExtend_word {n x : Nat} (h0 : 0 < n) (hn : n < 4) (hx : x < 2 ^ (8 * n)) :
    (BitVec.ofNat (8 * n) x).signExtend 32 = BitVec.ofNat 32 (if 2 ^ (8 * n - 1) ≤ x then x + 2 ^ 32 - 2 ^ (8 * n) else x) := by
  have hmsb : (BitVec.ofNat (8 * n) x).msb = decide (2 ^ (8 * n - 1) ≤ x) := by
    rw [BitVec.msb_eq_decide, BitVec.toNat_ofNat, Nat.mod_eq_of_lt hx]
  have hle : 2 ^ (8 * n) ≤ 2 ^ 24 := Nat.pow_le_pow_right (by decide) (by omega)
  apply BitVec.eq_of_toNat_eq
  rw [BitVec.toNat_signExtend, hmsb, BitVec.toNat_setWidth, BitVec.toNat_ofNat, Nat.mod_eq_of_lt hx, BitVec.toNat_ofNat]
  by_cases h : 2 ^ (8 * n - 1) ≤ x
  · simp only [h, decide_true, if_true]
    omega
  · simp only [h, decide_false, if_false, Bool.false_eq_true]
    omega

/-- Word `j` of what a load extends (R345). -/
theorem extend_getD {sgn : Bool} {bs : List Byte} (h0 : bs ≠ []) (hs : bs.length < 4 ∨ bs.length % 4 = 0) {j : Nat} (hj : j < (bs.length + 3) / 4) :
    (extend sgn bs).getD j 0 = loadedWord sgn bs.length bs j := by
  have hpos := List.length_pos_iff.2 h0
  unfold extend loadedWord
  dsimp only
  by_cases h : bs.length < 4
  · obtain rfl : j = 0 := by omega
    rw [if_pos h, if_pos h]
    cases sgn with
    | true => rw [if_pos rfl, signExtend_word hpos h (leNat_lt bs)]; simp
    | false => rfl
  · rw [if_neg h, if_neg h]
    have hj4 : j < bs.length / 4 := by omega
    rw [List.getD_eq_getElem?_getD, List.getElem?_map, upList_zero_eq_range, List.getElem?_range hj4]
    rfl

/-! ### The load -/

variable {size : Nat} {sgn : Bool} {d a : Reg} {o : BitVec 7} {n : BitVec 4}

/-- The words that a load of `size` bytes gives a thread that points at `q`; none where the access fails. -/
def State.loadedOf (s : State) (size : Nat) (sgn : Bool) (a : Reg) (off : Int) (t : Nat) : List Word :=
  match s.check .ld size a.isV true t (pointerOf s a off t) with
  | .ok g => extend sgn (s.readTgt g t size)
  | .error _ => List.replicate ((size + 3) / 4) 0

theorem State.loadedOf_length (h0 : 0 < size) (hs : size < 4 ∨ size % 4 = 0) (s : State) (sgn : Bool) (a : Reg) (off : Int) (t : Nat) :
    (s.loadedOf size sgn a off t).length = (size + 3) / 4 := by
  unfold State.loadedOf
  split
  · next g hg =>
    have hl := readTgt_length_of_check hg hs
    rw [extend_length (List.ne_nil_of_length_pos (by omega)) (by omega), hl]
  · exact List.length_replicate

theorem State.loadedOf_getD (h0 : 0 < size) (hs : size < 4 ∨ size % 4 = 0) (s : State) (sgn : Bool) (a : Reg) (off : Int) (t : Nat) {j : Nat} (hj : j < (size + 3) / 4) :
    (s.loadedOf size sgn a off t).getD j 0 = match s.check .ld size a.isV true t (pointerOf s a off t) with
      | .ok g => loadedWord sgn size (s.readTgt g t size) j
      | .error _ => 0 := by
  unfold State.loadedOf
  split
  · next g hg =>
    have hl := readTgt_length_of_check hg hs
    rw [extend_getD (List.ne_nil_of_length_pos (by omega)) (by omega) (by omega), hl]
  · simp

/-- What the accesses of a load that passes have read, thread by thread. -/
theorem accessesOf_loaded {scalar : Bool} {off : Int} (h : allPass s .ld size true a scalar off) :
    ((accessesOf s .ld size true a scalar off).map fun x => (x.t, extend sgn (s.readTgt x.g x.t size))) =
      (accessors s scalar).map fun t => (t, s.loadedOf size sgn a off t) := by
  unfold accessesOf
  unfold allPass at h
  generalize accessors s scalar = l at h ⊢
  induction l with
  | nil => rfl
  | cons t ts ih =>
    obtain ⟨g, hg⟩ := h t List.mem_cons_self
    rw [List.filterMap_cons_some (by rw [hg]), List.map_cons, List.map_cons, ih fun u hu => h u (List.mem_cons_of_mem _ hu)]
    simp only [State.loadedOf, hg]

/-- An access without stores of a team, and then its outstanding result, touch the team alone. -/
theorem State.issue_later_of_team (hk : s.team.kind = .team) (e : Access) (dst : Dest) (vals : List (Nat × List Word)) (n : Nat) :
    (s.issue e).later dst vals n = { s with team := { (s.later dst vals n).team with inflight := s.team.inflight ++ [e] } } := by
  unfold State.issue State.later
  simp only [hk, if_true]

theorem State.issue_dest (hk : s.team.kind = .team) (e : Access) (r : Reg) : (s.issue e).team.dest r = s.team.dest r := by
  unfold State.issue
  rw [if_pos hk]
  cases r <;> rfl

/-- A load that neither waits nor fails: what it looks up is charged, its access is in flight and its result outstanding (R25). -/
theorem execLoad_runs {off : Int} (hoff : off = size * o.toInt) (hk : s.team.kind = .team) (hset : s.settled) (hun : s.unwatched)
    (hw : s.team.windowFail [(d, (size + 3) / 4), (a, 2)] = none) (hl : ¬ waitsForLink s a (d.isScalar && a.isScalar) off)
    (hp : allPass s .ld size true a (d.isScalar && a.isScalar) off) :
    ∃ (x y : State) (cyc : List Nat), execLoad size sgn d a o n s = .next (y.finishEach cyc) ∧ s.onlyViews x ∧
      y = { x with team := { (s.later (s.team.dest d) ((accessors s (d.isScalar && a.isScalar)).map fun t => (t, s.loadedOf size sgn a off t)) n.toNat).team with inflight := y.team.inflight } } := by
  subst hoff
  have hl' : s.linkWait ((s.reqs a (d.isScalar && a.isScalar) (size * o.toInt)).map (·.2)) = false :=
    Bool.eq_false_iff.2 fun h => hl ((linkWait_iff s a _ _).1 h)
  unfold execLoad
  simp only [hw, Team.fullPath_none hset.1.1]
  rw [if_neg (by rw [hl']; decide)]
  by_cases he : (s.reqs a (d.isScalar && a.isScalar) (size * o.toInt)).isEmpty = true
  · rw [if_pos he]
    have hnone : accessors s (d.isScalar && a.isScalar) = [] := by
      rwa [reqs_eq, List.isEmpty_iff, List.map_eq_nil_iff] at he
    refine ⟨s, _, [], rfl, s.onlyViews_refl, ?_⟩
    rw [hnone, State.later_frame]
    unfold State.later
    simp only [hk, if_true]
    rfl
  · rw [if_neg he]
    simp only [locate_eq _ _ _ _ _ _ _ _ rfl, locate_allPass hp, List.isEmpty_nil, Bool.not_true, Bool.false_eq_true, if_false]
    have hv : s.onlyViews ((s.fillAccs (accessesOf s .ld size true a (d.isScalar && a.isScalar) (size * o.toInt))).touchAccs size
      (accessesOf s .ld size true a (d.isScalar && a.isScalar) (size * o.toInt))) :=
      State.onlyViews_trans (s.onlyViews_fillAccs _) (State.onlyViews_touchAccs _ _ _)
    rw [accessesOf_loaded hp]
    generalize (s.fillAccs (accessesOf s .ld size true a (d.isScalar && a.isScalar) (size * o.toInt))).touchAccs size
      (accessesOf s .ld size true a (d.isScalar && a.isScalar) (size * o.toInt)) = x at hv ⊢
    have hlaunch : x.launch = s.launch := by unfold State.onlyViews at hv; rw [hv]
    have hteam : x.team = s.team := by unfold State.onlyViews at hv; rw [hv]
    rw [State.watchAccs_unwatched (by rw [hlaunch]; exact hun.1), State.raceWord_off (by rw [hlaunch]; exact hun.2.1)]
    refine ⟨x, _, _, rfl, hv, ?_⟩
    rw [State.issue_later_of_team (by rw [hteam]; exact hk), State.issue_dest (by rw [hteam]; exact hk)]
    unfold State.later
    simp only [hteam]

/-- A legal load that takes no scalar form has no scalar destination. -/
theorem isS_of_vectorLoad (h : loadOk d a = true) (hs : (d.isScalar && a.isScalar) = false) : d.isS = false := by
  cases d <;> cases a <;> simp_all [loadOk, Reg.isS, Reg.isScalar]

theorem sameWorld_of_onlyViews {x y : State} (h : s.onlyViews x) (hy : y = { x with team := y.team, core := y.core, teams := y.teams }) : SameWorld s y := by
  unfold State.onlyViews at h
  rw [hy, h]
  exact ⟨rfl, rfl, rfl, rfl, rfl, rfl, rfl, rfl, rfl, rfl, rfl, rfl, rfl, rfl, rfl⟩

/-- A word that runs as a load of `size` bytes runs as R25, R345 and R346 say. -/
theorem loadRuns_of {mk : Reg → Reg → BitVec 7 → BitVec 4 → Instr} (h0 : 0 < size) (hs : size < 4 ∨ size % 4 = 0)
    (hi : ∀ d a o n s, exec (mk d a o n) s = execLoad size sgn d a o n s) (hwf : ∀ d a o n, (mk d a o n).wf = true → loadOk d a = true) :
    LoadRuns mk size sgn := by
  intro d a o n s hok k scalar off hk hset hun hw
  refine ⟨fun hl => ?_, fun hl hp => ?_⟩
  · rw [hi]
    unfold execLoad
    simp only [show s.team.windowFail [(d, (size + 3) / 4), (a, 2)] = none from hw, Team.fullPath_none hset.1.1]
    exact if_pos ((linkWait_iff s a _ _).2 hl)
  obtain ⟨x, y, cyc, he, hv, hy⟩ := execLoad_runs (sgn := sgn) (n := n) rfl hk hset hun hw hl hp
  have hgave : s.team.gaveResult y.team := by
    unfold Team.gaveResult
    rw [hy]
    unfold State.later
    simp only [hk, if_true]
  have hteam : y.team.inOrder := Team.gaveResult_inOrder hgave hset.2
  refine ⟨_, (hi d a o n s).trans he, ?_, sameWorld_of_onlyViews hv (State.finishPasses_frame_of (by rw [hy]) _ _), ?_⟩
  · have hregs := State.later_finishPasses_regs s y hset.1.2 _ _ n.toNat 0xFFFFFFFF (by rw [hy]) cyc (y.team.pc + 4) (Team.inOrder_after hteam _)
    change Team.sameRegs _ (y.finishEach cyc).team.flush at hregs
    generalize (y.finishEach cyc).team.flush = new at hregs ⊢
    cases hsc : d.isScalar && a.isScalar with
    | true =>
      rw [accessors, if_pos hsc] at hregs
      refine Team.regsAre_scalar (Reg.isV_of_isScalar (Bool.and_eq_true_iff.1 hsc).1) (State.loadedOf_length h0 hs s sgn a off 1024) (fun _ j hj => ?_) hregs
      rw [merge_allOnes, State.loadedOf_getD h0 hs _ _ _ _ _ hj]
      simp only [scalar, hsc, if_true] <;> rfl
    | false =>
      rw [accessors, if_neg (by simp [hsc])] at hregs
      refine Team.regsAre_vector ?_ s.team.actives_nodup (fun _ t => s.team.mem_actives t) (fun t => State.loadedOf_length h0 hs s sgn a off t) (fun _ t j _ hj => ?_) hregs
      · exact isS_of_vectorLoad (hwf d a o n hok) hsc
      · rw [merge_allOnes, State.loadedOf_getD h0 hs _ _ _ _ _ hj]
        simp only [scalar, hsc, if_false, Bool.false_eq_true] <;> rfl
  · exact Team.gaveResult_issued hgave (State.issued_finishPasses hteam cyc)

theorem loadWordsClaim : LoadWordsClaim := by
  refine ⟨loadRuns_of (by decide) (by decide) (fun _ _ _ _ _ => rfl) ?_, loadRuns_of (by decide) (by decide) (fun _ _ _ _ _ => rfl) ?_,
    loadRuns_of (by decide) (by decide) (fun _ _ _ _ _ => rfl) ?_, loadRuns_of (by decide) (by decide) (fun _ _ _ _ _ => rfl) ?_,
    loadRuns_of (by decide) (by decide) (fun _ _ _ _ _ => rfl) ?_, loadRuns_of (by decide) (by decide) (fun _ _ _ _ _ => rfl) ?_,
    loadRuns_of (by decide) (by decide) (fun _ _ _ _ _ => rfl) ?_⟩ <;>
  · intro d a o n h
    simp only [Instr.wf, Bool.and_eq_true] at h
    simp [h]

/-! ### Raw bytes -/

theorem rawReadWordsClaim : RawReadWordsClaim := by
  intro s g t n hleaf hsp
  have h : s.readTgt g t n = (List.range n).map fun i => s.readLoc (g.loc t i) := by
    unfold State.readTgt
    rw [if_neg hsp, hleaf, ← upList_zero_eq_range]
  refine ⟨by simp [h], fun i hi => ?_⟩
  rw [h, List.getElem?_map, List.getElem?_range hi, Option.map_some]
  generalize g.loc t i = l
  cases l <;> rfl

/-- Settles O23: the loads by one run over their size and sign, and the raw bytes location by location. -/
theorem loadWords : Obligations.LoadWords := ⟨loadWordsClaim, rawReadWordsClaim⟩

end Sys2Proof.Machine
end

