-- ==== Sys2Proof/Proofs/StoreWords.lean ====
section
/-! PROOFS. Stores. Which of a word's writes stands at a location, what its passes locate, and what the team reads afterwards. -/

namespace Sys2Proof.Machine

open Sys2Proof Sys2Proof.Machine Sys2Proof.Claim

variable {s t : State}

/-! ### The write that stands at a location -/

/-- The last of a list's writes to a location. -/
def lastTo (ws : List PendingByte) (l : Loc) : Option PendingByte := (ws.filter fun w => decide (w.loc = l)).getLast?

/-- The write of the highest thread, and of one thread's the last (R171). -/
def topWrite (best : Option PendingByte) (w : PendingByte) : Option PendingByte :=
  match best with
  | none => some w
  | some b => if b.thread ≤ w.thread then some w else some b

theorem topAt_eq (ws : List PendingByte) (l : Loc) : topAt ws l = ((ws.filter fun w => decide (w.loc = l)).foldl topWrite none).map (·.byte) := rfl

theorem lastAt_eq (ws : List PendingByte) (l : Loc) : lastAt (ws.map fun w => (w.loc, w.byte)) l = (lastTo ws l).map (·.byte) := by
  simp only [lastAt, lastTo, ← List.map_reverse, List.find?_map, Option.map_map, ← List.head?_reverse, ← List.filter_reverse, List.head?_filter]
  rfl

theorem keepLast_sublist (ws : List PendingByte) : (keepLast ws).Sublist ws := by
  induction ws with
  | nil => exact List.Sublist.refl _
  | cons v ws ih =>
    unfold keepLast
    split
    · exact ih.cons v
    · exact ih.cons_cons v

/-- `keepLast` keeps the last write of each location. -/
theorem lastTo_keepLast (ws : List PendingByte) (l : Loc) : lastTo (keepLast ws) l = lastTo ws l := by
  induction ws with
  | nil => rfl
  | cons w ws ih =>
    unfold keepLast
    by_cases hl : w.loc = l
    · split
      · next h =>
        obtain ⟨x, hx, hxl⟩ := List.any_eq_true.1 h
        rw [ih]
        simp only [lastTo, List.filter_cons, hl, decide_true, if_true]
        have hne : (ws.filter fun w => decide (w.loc = l)) ≠ [] := List.ne_nil_of_mem (List.mem_filter.2 ⟨hx, by simpa [hl] using hxl⟩)
        rw [List.getLast?_cons, List.getLast?_eq_some_getLast hne]
        rfl
      · simp only [lastTo, List.filter_cons, hl, decide_true, if_true, List.getLast?_cons]
        exact congrArg (fun o : Option PendingByte => some (o.getD w)) ih
    · split
      · rw [ih]; simp only [lastTo, List.filter_cons, hl, decide_false, Bool.false_eq_true, if_false]
      · simp only [lastTo, List.filter_cons, hl, decide_false, Bool.false_eq_true, if_false]
        exact ih

/-- Whether some write of a list is of a higher thread. -/
def beaten (ws : List PendingByte) (w : PendingByte) : Bool := ws.any fun x => decide (w.thread < x.thread)

theorem beaten_eq_false {ws : List PendingByte} {w : PendingByte} : beaten ws w = false ↔ ∀ x ∈ ws, x.thread ≤ w.thread := by
  simp [beaten]

theorem topWrite_ne_none (best : Option PendingByte) (w : PendingByte) : topWrite best w ≠ none := by
  unfold topWrite
  split
  · exact Option.some_ne_none _
  · split <;> exact Option.some_ne_none _

/-- The write that `topWrite` leaves of a list is its last one that no other beats. -/
theorem foldl_topWrite (ws : List PendingByte) : ws.foldl topWrite none = (ws.filter fun w => !beaten ws w).getLast? := by
  induction ws using List.reverseRecOn with
  | nil => rfl
  | append_singleton ws w ih =>
    have hmem : ∀ b, ws.foldl topWrite none = some b → b ∈ ws ∧ beaten ws b = false := fun b hb => by
      have := List.mem_filter.1 (List.mem_of_getLast? (ih.symm.trans hb))
      simpa using this
    rw [List.foldl_append, List.foldl_cons, List.foldl_nil, List.filter_append, List.getLast?_append]
    by_cases hw : beaten ws w = true
    · have hself : beaten (ws ++ [w]) w = true := by simp only [beaten, List.any_append] at hw ⊢; rw [hw]; rfl
      have hkeep : (ws.filter fun v => !beaten (ws ++ [w]) v) = ws.filter fun v => !beaten ws v := by
        refine List.filter_congr fun v _ => congrArg _ (Bool.eq_iff_iff.2 ?_)
        obtain ⟨x, hx, hlt⟩ := List.any_eq_true.1 hw
        simp only [beaten, List.any_append, List.any_cons, List.any_nil, Bool.or_false, Bool.or_eq_true, or_iff_left_iff_imp, decide_eq_true_eq] at hlt ⊢
        exact fun hv => List.any_eq_true.2 ⟨x, hx, decide_eq_true (hv.trans hlt)⟩
      simp only [List.filter_cons, hself, Bool.not_true, Bool.false_eq_true, if_false, List.filter_nil, List.getLast?_nil, Option.none_or, hkeep, ← ih]
      cases hb : ws.foldl topWrite none with
      | none =>
        cases ws using List.reverseRecOn with
        | nil => cases hw
        | append_singleton us u => rw [List.foldl_append] at hb; exact absurd hb (topWrite_ne_none _ _)
      | some b =>
        obtain ⟨x, hx, hlt⟩ := List.any_eq_true.1 hw
        have := beaten_eq_false.1 (hmem b hb).2 x hx
        exact if_neg (by have := of_decide_eq_true hlt; omega)
    · have hle := beaten_eq_false.1 (Bool.not_eq_true _ ▸ hw)
      have hself : beaten (ws ++ [w]) w = false := beaten_eq_false.2 fun x hx => by
        rcases List.mem_append.1 hx with hx | hx
        · exact hle x hx
        · rw [List.mem_singleton.1 hx]
      simp only [List.filter_cons, hself, Bool.not_false, if_true, List.filter_nil, List.getLast?_singleton, Option.some_or]
      cases hb : ws.foldl topWrite none with
      | none => rfl
      | some b => exact if_pos (hle b (hmem b hb).1)

/-- Writes in the order of their threads leave the last. -/
theorem topWrite_sorted {ws : List PendingByte} (h : ws.Pairwise fun x y => x.thread ≤ y.thread) : ws.foldl topWrite none = ws.getLast? := by
  induction ws using List.reverseRecOn with
  | nil => rfl
  | append_singleton ws w ih =>
    obtain ⟨hs, -, hw⟩ := List.pairwise_append.1 h
    rw [List.foldl_append, ih hs, List.foldl_cons, List.foldl_nil, List.getLast?_concat]
    cases hl : ws.getLast? with
    | none => rfl
    | some b => exact if_pos (hw b (List.mem_of_getLast? hl) w List.mem_cons_self)

/-- The writes that no higher thread's beats at their location, location by location. -/
theorem filter_unbeaten (ws : List PendingByte) (l : Loc) :
    ((unbeaten ws).filter fun w => decide (w.loc = l)) =
      (ws.filter fun w => decide (w.loc = l)).filter fun w => !beaten (ws.filter fun w => decide (w.loc = l)) w := by
  unfold unbeaten
  rw [List.filter_filter, List.filter_filter]
  refine List.filter_congr fun w _ => ?_
  by_cases hw : w.loc = l
  · simp [hw, beaten]
  · simp [hw]

theorem topAt_unbeaten (ws : List PendingByte) (l : Loc) : (lastTo (unbeaten ws) l).map (·.byte) = topAt ws l := by
  rw [topAt_eq, foldl_topWrite, lastTo, filter_unbeaten]

theorem topAt_sorted {ws : List PendingByte} (h : ws.Pairwise fun x y => x.thread ≤ y.thread) (l : Loc) : topAt ws l = (lastTo ws l).map (·.byte) := by
  rw [topAt_eq, topWrite_sorted (h.filter _), lastTo]

/-- What a store's merged writes leave is the highest thread's byte of all of them (R171). -/
theorem lastAt_mergeWrites {raw : List PendingByte} (h : raw.Pairwise fun x y => x.thread ≤ y.thread) (typed : List PendingByte) (l : Loc) :
    lastAt ((mergeWrites (keepLast raw) typed).map fun w => (w.loc, w.byte)) l = topAt (raw ++ typed) l := by
  rw [lastAt_eq]
  unfold mergeWrites
  by_cases ht : typed.isEmpty = true
  · rw [if_pos ht, List.isEmpty_iff.1 ht, List.append_nil, lastTo_keepLast, topAt_sorted h]
  · rw [if_neg ht, lastTo_keepLast, topAt_unbeaten]
    have hk : (keepLast raw).Pairwise fun x y => x.thread ≤ y.thread := h.sublist (keepLast_sublist raw)
    simp only [topAt_eq, List.filter_append, List.foldl_append, topWrite_sorted (h.filter _), topWrite_sorted (hk.filter _)]
    exact congrArg (fun b => Option.map _ (List.foldl topWrite b _)) (lastTo_keepLast raw l)

/-! ### The bytes of a thread -/

theorem leBytes_eq (n x : Nat) : leBytes n x = (List.range n).map fun i => BitVec.ofNat 8 (x / 2 ^ (8 * i)) := by
  induction n generalizing x with
  | zero => rfl
  | succ n ih =>
    rw [leBytes, ih, List.range_succ_eq_map, List.map_cons, List.map_map]
    simp only [Nat.mul_zero, Nat.pow_zero, Nat.div_one, Function.comp_def, Nat.div_div_eq_div_mul]
    refine congrArg _ (List.map_congr_left fun i _ => ?_)
    rw [Nat.mul_succ, Nat.pow_add, Nat.mul_comm (2 ^ (8 * i))]

/-- Words laid out byte by byte. -/
theorem flatMap_leBytes (f : Nat → Nat) (n : Nat) : ((List.range n).flatMap fun k => leBytes 4 (f k)) = (List.range (4 * n)).map fun i => BitVec.ofNat 8 (f (i / 4) / 2 ^ (8 * (i % 4))) := by
  induction n with
  | zero => rfl
  | succ n ih =>
    rw [List.range_succ, List.flatMap_append, ih, Nat.mul_succ, List.range_add, List.map_append, List.flatMap_singleton, leBytes_eq, List.map_map]
    refine congrArg _ (List.map_congr_left fun i hi => ?_)
    have hi4 := List.mem_range.1 hi
    have h1 : (4 * n + i) / 4 = n := by omega
    have h2 : (4 * n + i) % 4 = i := by omega
    simp only [Function.comp_apply, h1, h2]

theorem dataBytes_eq (s : State) (d : Reg) (size t : Nat) :
    s.dataBytes d size t = (List.range size).map fun i => BitVec.ofNat 8 ((s.team.rd s.blk.bix d (i / 4) t).toNat / 2 ^ (8 * (i % 4))) := by
  unfold State.dataBytes
  rw [upList_zero_eq_range, flatMap_leBytes fun k => (s.team.rd s.blk.bix d k t).toNat, ← List.map_take, List.take_range, Nat.min_eq_left (by omega)]

/-- The raw bytes of a word's accesses are those that the statement sends (R391). -/
theorem accWrites_rawSent (s : State) (d : Reg) (size : Nat) (as : List Acc) :
    ((as.filter fun x => x.g.leaf.isNone).flatMap fun x => accWrites x (s.dataBytes d size x.t)) = rawSent s d size as := by
  unfold rawSent
  refine List.flatMap_congr fun x _ => ?_
  rw [accWrites, dataBytes_eq]
  refine List.ext_getElem (by simp) fun i h1 h2 => ?_
  simp only [List.getElem_map, List.getElem_zipIdx, List.getElem_range, Nat.zero_add]

/-! ### The accesses of a word, pass by pass -/

theorem Team.actives_sorted (tm : Team) : tm.actives.Pairwise (· ≤ ·) := by
  unfold Team.actives
  rw [upList_zero_eq_range]
  exact (List.pairwise_le_range).filter _

theorem accessors_sorted (s : State) (scalar : Bool) : (accessors s scalar).Pairwise (· ≤ ·) := by
  cases scalar with
  | true => exact List.pairwise_singleton _ _
  | false => exact s.team.actives_sorted

theorem accessors_le (h : s.team.threads ≤ 1024) {scalar : Bool} {t : Nat} (ht : t ∈ accessors s scalar) : t ≤ 1024 := by
  cases scalar with
  | true => exact (List.mem_singleton.1 ht).le
  | false =>
    have := mem_upList.1 (List.mem_filter.1 ht).1
    omega

/-- What is below a bound in a sorted list stands before what is at it. -/
theorem filter_lt_append_filter_eq {α : Type} (f : α → Nat) {xs : List α} (h : xs.Pairwise fun x y => f x ≤ f y) (n : Nat) :
    (xs.filter fun x => decide (f x < n)) ++ (xs.filter fun x => f x == n) = xs.filter fun x => decide (f x < n + 1) := by
  induction xs with
  | nil => rfl
  | cons x xs ih =>
    obtain ⟨hx, hxs⟩ := List.pairwise_cons.1 h
    have := ih hxs
    rcases Nat.lt_trichotomy (f x) n with hlt | heq | hgt
    · have h1 : f x ≤ n := by omega
      have h2 : (f x == n) = false := by simp; omega
      simpa [List.filter_cons, hlt, h1, h2] using this
    · have hnone : (xs.filter fun x => decide (f x < n)) = [] := List.filter_eq_nil_iff.2 fun y hy => by have := hx y hy; simp; omega
      rw [hnone, List.nil_append] at this
      simp [heq, hnone, this]
    · have h0 : ¬ f x < n := by omega
      have h1 : ¬ f x ≤ n := by omega
      have h2 : (f x == n) = false := by simp; omega
      simpa [List.filter_cons, h0, h1, h2] using this

/-- A sorted list is its parts in order. -/
theorem flatMap_filter_range {α : Type} (f : α → Nat) {xs : List α} (h : xs.Pairwise fun x y => f x ≤ f y) (n : Nat) :
    ((List.range n).flatMap fun w => xs.filter fun x => f x == w) = xs.filter fun x => decide (f x < n) := by
  induction n with
  | zero => simp
  | succ n ih => rw [List.range_succ, List.flatMap_append, ih, List.flatMap_singleton, filter_lt_append_filter_eq f h]

/-- The passes of a word's requests hold them in order, each once (R13). -/
theorem flatten_reqPasses {rs : List (Nat × DWord)} (h : rs.Pairwise fun x y => x.1 ≤ y.1) (hle : ∀ r ∈ rs, r.1 ≤ 1024) : (reqPasses rs).flatten = rs := by
  have hall : (rs.filter fun r => decide (r.1 / 32 < 33)) = rs := List.filter_eq_self.2 fun r hr => decide_eq_true (by have := hle r hr; omega)
  have hskip : ∀ ws : List Nat, ((ws.filter fun w => (rs.map (·.1)).any fun t => t / 32 == w).flatMap fun w => rs.filter fun r => r.1 / 32 == w) =
      ws.flatMap fun w => rs.filter fun r => r.1 / 32 == w := by
    intro ws
    induction ws with
    | nil => rfl
    | cons w ws ih =>
      by_cases hw : ((rs.map (·.1)).any fun t => t / 32 == w) = true
      · rw [List.filter_cons, if_pos hw, List.flatMap_cons, List.flatMap_cons, ih]
      · have hnone : (rs.filter fun r => r.1 / 32 == w) = [] := by
          simp only [List.any_map, List.any_eq_true, not_exists, not_and] at hw
          exact List.filter_eq_nil_iff.2 hw
        rw [List.filter_cons, if_neg hw, List.flatMap_cons, hnone, List.nil_append, ih]
  unfold reqPasses wordsOf
  rw [← List.flatMap_def, hskip, upList_zero_eq_range, flatMap_filter_range _ (h.imp fun h => Nat.div_le_div_right h), hall]

theorem locate_append (s : State) (u : Use) (size : Nat) (vec lost : Bool) (p q : List (Nat × DWord)) :
    (s.locate u size vec lost (p ++ q)).1 = (s.locate u size vec lost p).1 ++ (s.locate u size vec lost q).1 ∧
    (s.locate u size vec lost (p ++ q)).2 = (s.locate u size vec lost p).2 ++ (s.locate u size vec lost q).2 := by
  simp [State.locate]

/-- Where no request fails, the passes of a store locate what its requests locate. -/
theorem storeScan_eq {size : Nat} {vec : Bool} {ps : List (List (Nat × DWord))} (h : (s.locate .st size vec false ps.flatten).2 = []) :
    s.storeScan size vec ps = ((s.locate .st size vec false ps.flatten).1, []) := by
  induction ps with
  | nil => rfl
  | cons p ps ih =>
    rw [List.flatten_cons] at h ⊢
    obtain ⟨h1, h2⟩ := locate_append s .st size vec false p ps.flatten
    rw [h2, List.append_eq_nil_iff] at h
    unfold State.storeScan
    simp only [h.1, List.isEmpty_nil, Bool.not_true, Bool.false_eq_true, if_false, ih h.2, h1]

variable {d a : Reg} {size : Nat} {off : Int} {scalar : Bool}

theorem reqs_sorted (s : State) (a : Reg) (scalar : Bool) (off : Int) : (s.reqs a scalar off).Pairwise fun x y => x.1 ≤ y.1 := by
  rw [reqs_eq, List.pairwise_map]
  exact accessors_sorted s scalar

/-- A store that passes its checks locates the accesses of its threads. -/
theorem storeScan_reqs (hth : s.team.threads ≤ 1024) (hp : allPass s .st size false a scalar off) :
    s.storeScan size a.isV (reqPasses (s.reqs a scalar off)) = (accessesOf s .st size false a scalar off, []) := by
  have hflat : (reqPasses (s.reqs a scalar off)).flatten = s.reqs a scalar off := flatten_reqPasses (reqs_sorted s a scalar off) fun r hr => by
    rw [reqs_eq] at hr
    obtain ⟨t, ht, rfl⟩ := List.mem_map.1 hr
    exact accessors_le hth ht
  rw [storeScan_eq (by rw [hflat]; exact locate_allPass hp), hflat, locate_eq _ _ _ _ _ _ _ _ rfl]

theorem accessesOf_sorted (s : State) (u : Use) (size : Nat) (lost : Bool) (a : Reg) (scalar : Bool) (off : Int) :
    (accessesOf s u size lost a scalar off).Pairwise fun x y => x.t ≤ y.t := by
  unfold accessesOf
  refine List.Pairwise.filterMap _ ?_ (accessors_sorted s scalar)
  intro t u htu x hx y hy
  split at hx
  · split at hy
    · cases hx; cases hy; exact htu
    · cases hy
  · cases hx

/-- A store's raw bytes are in the order of their threads. -/
theorem rawSent_sorted {as : List Acc} (h : as.Pairwise fun x y => x.t ≤ y.t) (s : State) (d : Reg) (size : Nat) :
    (rawSent s d size as).Pairwise fun x y => x.thread ≤ y.thread := by
  unfold rawSent
  refine List.pairwise_flatMap.2 ⟨fun x _ => ?_, (h.filter _).imp fun hxy => ?_⟩
  · exact List.pairwise_map.2 (List.pairwise_of_forall fun _ _ => le_rfl)
  · intro w hw v hv
    obtain ⟨_, _, rfl⟩ := List.mem_map.1 hw
    obtain ⟨_, _, rfl⟩ := List.mem_map.1 hv
    exact hxy

/-! ### What a store's lookups leave -/

/-- `t` is `s` but for the core and the clusters, of which the views are as before: a store's lookups are buffered and charged. -/
structure OnlyBuffers (s t : State) : Prop where
  frame : s.onlyViews t
  coreId : t.core.id = s.core.id
  coreView : t.core.view = s.core.view
  clusView : t.clus.view = s.clus.view

theorem OnlyBuffers.refl (s : State) : OnlyBuffers s s := ⟨rfl, rfl, rfl, rfl⟩

theorem OnlyBuffers.trans {r : State} (h : OnlyBuffers r s) (k : OnlyBuffers s t) : OnlyBuffers r t :=
  ⟨State.onlyViews_trans h.frame k.frame, k.coreId.trans h.coreId, k.coreView.trans h.coreView, k.clusView.trans h.clusView⟩

theorem OnlyBuffers.modCluster (s : State) {c : Nat} (hc : s.core.id = c) {f : Cluster → Cluster} (hf : ∀ x, (f x).view = x.view) :
    OnlyBuffers s (s.modCluster (clusterOf c) f) := by
  subst hc
  refine ⟨rfl, rfl, rfl, ?_⟩
  show (tget {} (tput {} s.clusters _ _) (clusterOf s.core.id)).view = _
  rw [tget_tput_same, hf]
  rfl

theorem OnlyBuffers.withCore (s : State) {c : Core} (hid : c.id = s.core.id) (hv : c.view = s.core.view) : OnlyBuffers s { s with core := c } :=
  ⟨rfl, hid, hv, by rw [State.clus_eq (c := s.core.id) hid]; rfl⟩

theorem OnlyBuffers.withCoreAndCluster (s : State) {c : Core} (hid : c.id = s.core.id) (hv : c.view = s.core.view) {f : Cluster → Cluster}
    (hf : ∀ x, (f x).view = x.view) : OnlyBuffers s (State.modCluster { s with core := c } (clusterOf c.id) f) :=
  (OnlyBuffers.withCore s hid hv).trans (OnlyBuffers.modCluster _ rfl hf)

theorem Cluster.charge_view (c : Cluster) (n : Nat) : (c.charge n).view = c.view := by
  unfold Cluster.charge
  split <;> rfl

theorem OnlyBuffers.fill (s : State) (off : Nat) : OnlyBuffers s (s.fill off) := by
  unfold State.fill
  dsimp only
  split
  · exact .refl s
  split
  · split
    · exact .modCluster s rfl fun x => x.charge_view _
    · exact .refl s
  · split
    · have hwalk := OnlyBuffers.modCluster s rfl fun x => x.charge_view (walkBytes (s.pm s.pkg) off [40, 32, 24, 16] s.launch.root)
      generalize State.modCluster s _ _ = x at hwalk ⊢
      refine hwalk.trans ?_
      refine OnlyBuffers.withCoreAndCluster x ?_ ?_ fun _ => ?_ <;> rfl
    · exact .withCore s rfl rfl

theorem OnlyBuffers.fillAccs (s : State) (as : List Acc) : OnlyBuffers s (s.fillAccs as) :=
  foldl_keeps (P := OnlyBuffers s) (fun x q hx => hx.trans (by
    split
    · exact .fill x _
    · exact .refl x)) _ s (.refl s)

theorem OnlyBuffers.chargeFar (s : State) (n : Nat) (as : List Acc) : OnlyBuffers s (s.chargeFar n as) := by
  unfold State.chargeFar
  dsimp only
  split
  · exact .refl s
  · exact .modCluster s rfl fun x => x.charge_view _

/-! ### What the team reads -/

/-- A byte is read where it lies by the views, the memories and the team's private bytes. -/
theorem locByte_congr {t : State} (hmem : t.mem = s.mem) (hpkg : t.pkg = s.pkg) (hhost : t.hostMem = s.hostMem) (hblk : t.blk = s.blk)
    (hcore : t.core.view = s.core.view) (hclus : t.clus.view = s.clus.view) (hpriv : t.team.priv = s.team.priv) (l : Loc) : t.locByte l = s.locByte l := by
  cases l <;> simp only [State.locByte, State.viewByte, Core.readByte, Cluster.readByte, State.pm, hmem, hpkg, hhost, hblk, hcore, hclus, hpriv]

theorem foldl_lastTo (ws : List PendingByte) (l : Loc) :
    ws.foldl (fun r w => if w.loc = l then some w.byte else r) none = lastAt (ws.map fun w => (w.loc, w.byte)) l := by
  rw [lastAt_eq]
  induction ws using List.reverseRecOn with
  | nil => rfl
  | append_singleton ws w ih =>
    rw [List.foldl_append, ih]
    simp only [lastTo, List.filter_append, List.foldl_cons, List.foldl_nil, List.filter_cons, List.filter_nil]
    by_cases h : w.loc = l
    · simp [h]
    · simp [h]

theorem Team.pendingAt_nil {tm : Team} (h : tm.inflight = []) (l : Loc) : tm.pendingAt l = none := by
  unfold Team.pendingAt
  rw [h]
  exact ite_self _

theorem Team.pendingAt_one {tm : Team} {x : Access} (h : tm.inflight = [x]) (hk : x.kind = .store) {l : Loc} (hl : l.overX = false) :
    tm.pendingAt l = lastAt (x.writes.map fun w => (w.loc, w.byte)) l := by
  unfold Team.pendingAt
  rw [h, hl, if_neg (by decide), List.filter_cons, if_pos (by rw [hk]; rfl)]
  exact foldl_lastTo _ _

/-! ### The store -/

/-- An outstanding result without values writes nothing and returns no access: a word past its own leaves the registers (R24, R28). -/
theorem Team.pastWord_idle {tm : Team} {p : Pending} (h : tm.pend = [p]) (hv : p.vals = []) (hd : p.dst = .none) (c n : Nat) :
    tm.sameRegs (tm.pastWord c n) ∧ (tm.pastWord c n).inflight = retire [] tm.inflight := by
  unfold Team.pastWord Team.tick
  simp only [h, List.map_cons, List.map_nil]
  by_cases hl : p.left - 1 = 0
  · simp [hl, Team.writeAll, Pending.write, hv, hd, Team.sameRegs]
  · simp [hl, Team.writeAll, Team.sameRegs]

variable {o : BitVec 7} {n : BitVec 4}

/-- The typed part of a store (R149). -/
def State.typedOf (s : State) (d : Reg) (size : Nat) (as : List Acc) : List Nat × List PendingByte × List Nat :=
  typedStore s.team.loud (as.flatMap (s.elemsOf d size))

/-- The team after an outstanding result, with none before it (R25). -/
theorem State.later_team (hk : s.team.kind = .team) (hp : s.team.pend = []) (dst : Dest) (vals : List (Nat × List Word)) (n : Nat) :
    (s.later dst vals n).team = { s.team with pend := [{ dst := dst, vals := vals, left := n + 1, mask := 0xFFFFFFFF, pc := s.team.pc }], shadow := max s.team.shadow (n + 1) } := by
  unfold State.later
  simp only [hk, if_true, hp, List.nil_append]

/-- A team's access and then an outstanding result without values. -/
theorem State.issue_later_team (hk : s.team.kind = .team) (hp : s.team.pend = []) (e : Access) (n : Nat) :
    (s.issue e).later .none [] n = { s with team := { s.team with
      pend := [{ dst := .none, vals := [], left := n + 1, mask := 0xFFFFFFFF, pc := s.team.pc }], shadow := max s.team.shadow (n + 1), inflight := s.team.inflight ++ [e] } } := by
  unfold State.issue State.later
  simp only [hk, if_true, hp, List.nil_append]

/-- A store that neither waits, fails nor loses a write: its lookups are charged, its access is in flight and its shadow open (R28, R391). -/
theorem execStore_runs {as : List Acc} (hoff : off = size * o.toInt) (hsc : scalar = (d.isScalar && a.isScalar)) (has : as = accessesOf s .st size false a scalar off)
    (hk : s.team.kind = .team) (hth : s.team.threads ≤ 1024) (hset : s.settled) (hun : s.unwatched)
    (hw : s.team.windowFail [(d, (size + 3) / 4), (a, 2)] = none) (hl : ¬ waitsForLink s a scalar off) (hp : allPass s .st size false a scalar off)
    (ht : (s.typedOf d size as).1 = []) (hx : ∀ x ∈ as, x.g.space = 5 → s.xDead x.t = false) :
    ∃ (x y : State) (cyc : List Nat), execStore size d a o n s = .next (y.finishEach cyc) ∧ OnlyBuffers s x ∧
      y = { x.countEvents (s.typedOf d size as).2.2 with team := { s.team with pend := [{ dst := .none, vals := [], left := n.toNat + 1, mask := 0xFFFFFFFF, pc := s.team.pc }], shadow := max s.team.shadow (n.toNat + 1), inflight := y.team.inflight } } ∧
      (as = [] → y.team.inflight = []) ∧
      (as ≠ [] → ∃ e : Access, y.team.inflight = [e] ∧ e.kind = .store ∧ e.done = false ∧ e.donePaths = [] ∧
        e.writes = mergeWrites (keepLast (rawSent s d size as)) (s.typedOf d size as).2.1) := by
  subst hoff hsc
  have hl' : s.linkWait ((s.reqs a (d.isScalar && a.isScalar) (size * o.toInt)).map (·.2)) = false :=
    Bool.eq_false_iff.2 fun h => hl ((linkWait_iff s a _ _).1 h)
  have hempty : as = [] ↔ s.reqs a (d.isScalar && a.isScalar) (size * o.toInt) = [] := by
    rw [has, reqs_eq, List.map_eq_nil_iff]
    refine ⟨fun h => List.eq_nil_iff_forall_not_mem.2 fun t htm => ?_, fun h => by rw [accessesOf, h]; rfl⟩
    obtain ⟨g, hg⟩ := hp t htm
    have := List.filterMap_eq_nil_iff.1 h t htm
    rw [hg] at this
    cases this
  have hlost : ∀ bs : List Acc, (∀ x ∈ bs, x ∈ as) → s.writeLost bs = false := fun bs hbs => by
    simp only [State.writeLost, List.any_eq_false, Bool.and_eq_true, beq_iff_eq, not_and]
    intro x hxb h5
    simp [hx x (hbs x hxb) h5]
  unfold execStore
  simp only [hw, Team.fullPath_none hset.1.1]
  rw [if_neg (by rw [hl']; decide)]
  by_cases he : (s.reqs a (d.isScalar && a.isScalar) (size * o.toInt)).isEmpty = true
  · rw [if_pos he]
    have hnone := hempty.2 (List.isEmpty_iff.1 he)
    refine ⟨s, _, [], rfl, .refl s, ?_, fun _ => (congrArg Team.inflight (State.later_team hk hset.1.2 .none [] n.toNat)).trans hset.1.1, fun h => absurd hnone h⟩
    rw [hnone, State.later_frame, State.later_team hk hset.1.2]
    rfl
  · rw [if_neg he]
    have hsome : as ≠ [] := fun h => he (List.isEmpty_iff.2 (hempty.1 h))
    simp only [storeScan_reqs hth hp, ← has, accWrites_rawSent, hlost _ (fun x h => (List.mem_filter.1 h).1), hlost as (fun _ h => h), List.isEmpty_nil, Bool.not_true,
      Bool.false_eq_true, if_false]
    rw [show typedStore s.team.loud (as.flatMap (s.elemsOf d size)) = s.typedOf d size as from rfl] at ⊢
    generalize s.typedOf d size as = ty at ht ⊢
    obtain ⟨part, tws, evs⟩ := ty
    obtain rfl : part = [] := ht
    simp only [List.isEmpty_nil, Bool.not_true, Bool.false_eq_true, if_false]
    have hv : OnlyBuffers s ((s.fillAccs as).chargeFar size as) := (OnlyBuffers.fillAccs s as).trans (.chargeFar _ size as)
    generalize (s.fillAccs as).chargeFar size as = x at hv ⊢
    have hframe := hv.frame
    unfold State.onlyViews at hframe
    have hlaunch : x.launch = s.launch := by rw [hframe]
    have hteam : x.team = s.team := by rw [hframe]
    rw [State.watchAccs_unwatched (by rw [hlaunch]; exact hun.1), State.raceWord_off (by rw [hlaunch]; exact hun.2.1)]
    have hcount : (x.countEvents evs).team = s.team := (State.countEvents_team x evs).trans hteam
    rw [State.issue_later_team (by rw [hcount]; exact hk) (by rw [hcount]; exact hset.1.2), hcount, hset.1.1, List.nil_append]
    exact ⟨x, _, _, rfl, hv, rfl, fun h => absurd h hsome, fun _ => ⟨_, rfl, rfl, rfl, rfl, rfl⟩⟩

/-- Counting events leaves every byte where it lies (R101). -/
theorem State.countEvents_places (s : State) (es : List Nat) : (s.countEvents es).mem = s.mem ∧ (s.countEvents es).pkg = s.pkg ∧
    (s.countEvents es).hostMem = s.hostMem ∧ (s.countEvents es).blk = s.blk ∧ (s.countEvents es).clusters = s.clusters := by
  rw [State.countEvents_frame]
  exact ⟨rfl, rfl, rfl, rfl, rfl⟩

/-- Counting events takes no notice of the core and the clusters (R101). -/
theorem State.countEvents_withViews (s : State) (c : Core) (k : Tbl Cluster) (es : List Nat) :
    ({ s with core := c, clusters := k } : State).countEvents es = { s.countEvents es with core := c, clusters := k } := by
  unfold State.countEvents
  induction es generalizing s with
  | nil => rfl
  | cons e es ih => rw [List.foldl_cons, List.foldl_cons, ← ih]

theorem State.onlyViews_countEvents (h : s.onlyViews t) (es : List Nat) : (s.countEvents es).onlyViews (t.countEvents es) := by
  unfold State.onlyViews at h ⊢
  rw [h, State.countEvents_withViews]

/-- The end of a word with an outstanding result that writes nothing. -/
theorem State.finishPasses_idle {p : Pending} (hord : s.team.inOrder) (h : s.team.pend = [p]) (hv : p.vals = []) (hd : p.dst = .none) (ps : List Nat) (n : Nat) :
    s.team.sameRegs (s.finishPasses ps n).team ∧ (s.finishPasses ps n).team.inflight = retire [] s.team.inflight := by
  rw [State.finishPasses_team hord]
  exact Team.pastWord_idle h hv hd _ n

theorem readLoc_overX {l : Loc} (h : l.overX = true) (s : State) : s.readLoc l = s.locByte l := by
  unfold State.readLoc Team.pendingAt
  rw [if_pos h]
  rfl

/-- What a store leaves to be read off the X path: its own last byte first (R169). -/
theorem readLoc_stored (hs : s.team.inflight = []) (hlies : ∀ l, t.locByte l = s.locByte l) {e : Access} (he : t.team.inflight = [e]) (hk : e.kind = .store)
    {l : Loc} (hl : l.overX = false) : t.readLoc l = (lastAt (e.writes.map fun w => (w.loc, w.byte)) l).getD (s.readLoc l) := by
  rw [State.readLoc, State.readLoc, Team.pendingAt_one he hk hl, Team.pendingAt_nil hs, hlies, Option.getD_none]

/-- A word that runs as a store of `size` bytes runs as R28, R149, R169, R171, R184, R185 and R391 say. -/
theorem storeRuns_of {mk : Reg → Reg → BitVec 7 → BitVec 4 → Instr} (hi : ∀ d a o n s, exec (mk d a o n) s = execStore size d a o n s) : StoreRuns mk size := by
  intro d a o n s _ scalar off as typed sent hk hth hset hun hw
  refine ⟨fun hl => ?_, fun hl hp ht hx => ?_⟩
  · rw [hi]
    unfold execStore
    simp only [hw, Team.fullPath_none hset.1.1]
    exact if_pos ((linkWait_iff s a _ _).2 hl)
  obtain ⟨x, y, cyc, he, hv, hy, hnone, hsome⟩ := execStore_runs (n := n) (show off = size * o.toInt from rfl) (show scalar = _ from rfl) (show as = _ from rfl) hk hth hset hun hw hl hp ht hx
  have hgave : s.team.gaveResult y.team := by
    unfold Team.gaveResult
    rw [hy]
  have hord : y.team.inOrder := Team.gaveResult_inOrder hgave hset.2
  have hissued := Team.gaveResult_issued hgave (State.issued_finishPasses hord cyc)
  obtain ⟨hregs, hfl⟩ := State.finishPasses_idle hord (congrArg (fun z : State => z.team.pend) hy) rfl rfl cyc (y.team.pc + 4)
  have hframe : y.finishEach cyc = { x.countEvents typed.2.2 with team := (y.finishEach cyc).team, core := (y.finishEach cyc).core, teams := (y.finishEach cyc).teams } :=
    State.finishPasses_frame_of (by rw [hy]; rfl) cyc (y.team.pc + 4)
  have hcore : (y.finishEach cyc).core.id = s.core.id ∧ (y.finishEach cyc).core.view = s.core.view := by
    have hyc : y.core = x.core := (congrArg State.core hy).trans (State.countEvents_core _ _)
    have := congrArg State.core (State.finishPasses_frame y cyc (y.team.pc + 4))
    change (y.finishEach cyc).core = _ at this
    rw [this, hyc]
    exact ⟨hv.coreId, hv.coreView⟩
  change y.team.sameRegs (y.finishEach cyc).team at hregs
  change (y.finishEach cyc).team.inflight = _ at hfl
  refine ⟨_, (hi d a o n s).trans he, ?_⟩
  generalize y.finishEach cyc = t at *
  have hviews := State.onlyViews_countEvents hv.frame typed.2.2
  have hworld : SameWorld (s.countEvents typed.2.2) t := sameWorld_of_onlyViews hviews hframe
  have hnear : ∀ l, t.locByte l = s.locByte l := by
    have hclusters : t.clusters = x.clusters := by
      rw [hframe]
      exact (State.countEvents_places x _).2.2.2.2
    have hclus : t.clus.view = s.clus.view := by
      rw [← hv.clusView, State.clus, State.clus, hcore.1, hv.coreId, State.getCluster, hclusters]
      rfl
    obtain ⟨hmem, hhost, hblk, -, -, -, -, -, -, -, -, hpkg, -⟩ := id hworld
    have hpriv := congrArg Team.priv (show t.team = _ from hissued)
    obtain ⟨cmem, cpkg, chost, cblk, -⟩ := State.countEvents_places s typed.2.2
    exact locByte_congr (hmem.trans cmem) (hpkg.trans cpkg) (hhost.trans chost) (hblk.trans cblk) hcore.2 hclus hpriv
  have hown : SameRegs s.team t.team := (Team.sameRegs.trans ⟨by rw [hy], by rw [hy], by rw [hy]⟩ hregs).claim
  have htop : ∀ w : List PendingByte, w = mergeWrites (keepLast (rawSent s d size as)) typed.2.1 → ∀ l, lastAt (w.map fun w => (w.loc, w.byte)) l = topAt sent l := by
    rintro _ rfl l
    exact lastAt_mergeWrites (rawSent_sorted (accessesOf_sorted s _ _ _ _ _ _) s d size) typed.2.1 l
  by_cases hz : as = []
  · have hinfl : t.team.inflight = [] := by rw [hfl, hnone hz]; rfl
    have hread : ∀ l, t.readLoc l = s.readLoc l := fun l => by
      rw [State.readLoc, State.readLoc, Team.pendingAt_nil hinfl, Team.pendingAt_nil hset.1.1, hnear]
    have hsent : ∀ l, topAt sent l = none := fun l => by
      show topAt (rawSent s d size as ++ (typedStore s.team.loud (as.flatMap (s.elemsOf d size))).2.1) l = none
      rw [hz]
      rfl
    refine ⟨fun l => ?_, fun _ => hinfl, fun h => absurd hz h, hown, hworld, hissued⟩
    rw [hread, hsent]
    cases l <;> rfl
  · obtain ⟨e, he1, hkind, hdone, hparts, hws⟩ := hsome hz
    have hinfl : t.team.inflight = [e] := by
      rw [hfl, he1]
      exact retire_undone (fun b hb => by rw [List.mem_singleton.1 hb]; exact ⟨hdone, hparts⟩) []
    refine ⟨fun l => ?_, fun h => absurd h hz, fun _ => ⟨e, hinfl, hkind, hdone, htop _ hws⟩, hown, hworld, hissued⟩
    have hfar : l.overX = true → t.readLoc l = s.readLoc l := fun hl => by rw [readLoc_overX hl, readLoc_overX hl, hnear]
    have hown : l.overX = false → t.readLoc l = (topAt sent l).getD (s.readLoc l) := fun hl => by
      rw [readLoc_stored hset.1.1 hnear hinfl hkind hl, htop _ hws]
    cases l with
    | home p x => exact hfar rfl
    | hostMem x => exact hfar rfl
    | _ => exact hown rfl

/-- Settles O24: the five stores by one run over their size. -/
theorem storeWords : Obligations.StoreWords :=
  ⟨storeRuns_of fun _ _ _ _ _ => rfl, storeRuns_of fun _ _ _ _ _ => rfl, storeRuns_of fun _ _ _ _ _ => rfl, storeRuns_of fun _ _ _ _ _ => rfl, storeRuns_of fun _ _ _ _ _ => rfl⟩

end Sys2Proof.Machine
end

