-- ==== Sys2Proof/Proofs/HostRegisterEvents.lean ====
section
/-! PROOFS. RETRAIN of a failing link whose unacknowledged packet carries a store of a captured launch: the launch fails, and the list of its open run of atomic requests goes to its replay buffer in main memory. -/

namespace Sys2Proof.Machine

open Sys2Proof Sys2Proof.Machine Sys2Proof.Claim

/-- A link that has failed an access, whose unacknowledged packet carries the store of a team of a captured launch. A run of atomic requests of the launch is open, and its replay buffer lies in a page that the launch's table maps. -/
def doomedCapture : State :=
  { team := { key := 5, threads := 1, launchUid := 1, inflight := [{ kind := .store, paths := [.x], tag := 7 }] },
    launch := { uid := 1, status := .running, replay := 1, run := some { loc := 0, words := [], parties := [0] }, replayBuf := { en := true, base := 65536 } },
    mem := [(0, { bytes := [(0, 1), (8, 7), (12, 1)] })],
    links := [(0, { doomed := true, replayBuf := [{ seq := 1, kind := .response, carries := .store 5 7 }] })] }

/-- The link goes down before it trains, and the run's list is written into main memory. -/
theorem exec_evlink_doomedCapture : ∃ t, exec (.registerWrite (.evlink 0) 2) doomedCapture = .next t ∧ (t.pm 0).bytes.read 65538 = 0xD0 :=
  ⟨_, rfl, by decide⟩

/-- Refutes O37: in `doomedCapture` a RETRAIN takes the link down, which fails a captured launch, and the record of its open run changes main memory. -/
theorem not_hostRegisterEvents : ¬ Obligations.HostRegisterEvents := by
  unfold Obligations.HostRegisterEvents
  rintro ⟨-, hhost⟩
  obtain ⟨-, -, -, -, -, -, -, -, -, -, -, -, -, -, hlink⟩ := hhost 2 0 0 doomedCapture
  obtain ⟨-, hdoomed⟩ := hlink (by decide)
  obtain ⟨t, ht, -, -, hmem, -⟩ := hdoomed (by decide) rfl
  obtain ⟨u, hu, hwritten⟩ := exec_evlink_doomedCapture
  cases ht.symm.trans hu
  rw [State.pm, hmem] at hwritten
  exact absurd hwritten (by decide)

end Sys2Proof.Machine
end

