-- ==== Sys2Proof/Proofs/LaunchStartEvents.lean ====
section
/-! PROOFS. The refusal of a descriptor where a launch is listed under another number than its own: writing it back puts it in the refused launch's place. -/

namespace Sys2Proof.Machine

open Sys2Proof Sys2Proof.Machine Sys2Proof.Claim

/-- A queue with one descriptor of zeros. A launch of number 5 depends on the launch that the descriptor will be, number 1; what stands under number 5 is a launch that calls itself number 1 and has an open run of atomic requests. No step of the model lists a launch so, but the statement ranges over every table of launches. -/
def misnumbered : State :=
  { hub := { queues := [(0, { size := 4, tail := 1 })] },
    launches := [(5, some { uid := 1, status := .accepted, replay := 1, run := some { loc := 0, words := [], parties := [0] } }),
                 (6, some { uid := 5, status := .accepted, deps := [1] })] }

theorem descBad_misnumbered : misnumbered.descBad (misnumbered.readDesc 0) = [0, 2, 3, 6] := by decide

/-- The failure of the dependent launch writes its namesake back under number 1, which is not refused. -/
theorem exec_descriptorCheck_misnumbered : ∃ t, exec .launchDescriptorCheck misnumbered = .next t ∧ (t.getLaunch 1).map (·.status) = some .accepted :=
  ⟨_, rfl, by decide⟩

/-- Refutes O38: in `misnumbered` a descriptor is refused, and the launch of its number is not. -/
theorem not_launchStartEvents : ¬ Obligations.LaunchStartEvents := by
  unfold Obligations.LaunchStartEvents
  rintro ⟨hcheck, -⟩
  obtain ⟨-, hqueue⟩ := hcheck misnumbered
  obtain ⟨-, -, hrefused⟩ := hqueue 0 (by decide)
  obtain ⟨t, ht, ⟨m, hm, -⟩, -⟩ := hrefused 0 _ descBad_misnumbered
  obtain ⟨u, hu, haccepted⟩ := exec_descriptorCheck_misnumbered
  cases ht.symm.trans hu
  rw [show misnumbered.hub.nextUid = 1 from rfl] at hm
  rw [hm] at haccepted
  cases haccepted

end Sys2Proof.Machine
end

