-- ==== Sys2Proof/Proofs/CompletionEvents.lean ====
section
/-! PROOFS. Accesses that complete. What a byte that reaches its place changes, what is left of an access whose part on a path has completed, and that nobody wakes where nobody is parked. -/

namespace Sys2Proof.Machine

open Sys2Proof Sys2Proof.Machine Sys2Proof.Claim

variable {s t : State}

/-! ### One byte -/

theorem Team.priv_of_heard {tm u : Team} (h : tm.heard u) : u.priv = tm.priv := by
  unfold Team.heard at h
  rw [h]

theorem Team.parked_of_heard {tm u : Team} (h : tm.heard u) : u.parked = tm.parked := by
  unfold Team.heard at h
  rw [h]

/-- A change of the running block that keeps its number. -/
theorem State.modBlk_running (h : s.blk.key ≠ 0) {f : Block → Block} (hf : (f s.blk).key = s.blk.key) : s.modBlk s.blk.key f = { s with blk := f s.blk } := by
  simp [State.modBlk, State.getBlk, State.setBlk, h, hf]

/-- What monitors and reservations hear changes no byte. -/
theorem State.locByte_mapTeams (s : State) {f : Team → Team} (h : ∀ tm : Team, tm.heard (f tm)) (l : Loc) : (s.mapTeams f).locByte l = s.locByte l :=
  locByte_congr (s := s) (t := s.mapTeams f) rfl rfl rfl rfl rfl rfl (Team.priv_of_heard (s.mapTeams_heard h)) l

/-- A held line with one byte replaced. -/
theorem setInLine_getD {ls : Tbl (Option (List Byte))} {a x : Nat} {b : Byte} (h : x ≠ a) :
    (tget none (setInLine ls a b) (x / 64)).map (·.getD (x % 64) 0) = (tget none ls (x / 64)).map (·.getD (x % 64) 0) := by
  unfold setInLine
  split
  · next l hl =>
    rw [tget_tinsert]
    split
    · next hx =>
      have hne : a % 64 ≠ x % 64 := by omega
      rw [hx, hl, Option.map_some, Option.map_some, List.getD_eq_getElem?_getD, List.getD_eq_getElem?_getD, List.getElem?_set_ne hne]
    · rfl
  · rfl

/-- A byte as a core's view gives it, level by level (R167). -/
theorem Core.readByte_eq (c : Core) (cl : Cluster) (m : PkgMem) (a : Nat) :
    c.readByte cl m a = ((tget none c.view.dirty a).map (·.byte)).getD (((tget none c.view.lines (a / 64)).map (·.getD (a % 64) 0)).getD (cl.readByte m a)) := by
  unfold Core.readByte
  cases tget none c.view.dirty a with
  | some d => rfl
  | none => cases tget none c.view.lines (a / 64) <;> rfl

/-- A view gives the byte that it has taken, and every other as before. -/
theorem Core.readByte_store (c : Core) (cl : Cluster) (m : PkgMem) (a x : Nat) (d : DirtyByte) :
    ({ c with view := c.view.store a d } : Core).readByte cl m x = if x = a then d.byte else c.readByte cl m x := by
  rw [Core.readByte_eq, Core.readByte_eq]
  show ((tget none (tinsert c.view.dirty a (some d)) x).map (·.byte)).getD (((tget none (setInLine c.view.lines a d.byte) (x / 64)).map (·.getD (x % 64) 0)).getD _) = _
  rw [tget_tinsert]
  split
  · rfl
  · next h => rw [setInLine_getD h]

/-- A view gives the same byte where memory holds the same. -/
theorem Core.readByte_congr (c : Core) (cl : Cluster) {m n : PkgMem} {a : Nat} (h : m.bytes.read a = n.bytes.read a) : c.readByte cl m a = c.readByte cl n a := by
  unfold Core.readByte Cluster.readByte
  rw [h]

/-- The bytes that one landing byte may be told apart from: no host byte, private bytes within their thread's 256, and a view's byte that is not the home byte landing below it. -/
def apart (pkg : Nat) (w : PendingByte) (l : Loc) : Prop :=
  (∀ x, l ≠ .hostMem x) ∧ (∀ th o, l = .priv th o → o < 256) ∧ (∀ th o, w.loc = .priv th o → o < 256) ∧ ∀ x, l = .view x → w.loc ≠ .home pkg x

theorem State.viewWrite_locByte (s : State) (a : Nat) (d : DirtyByte) (l : Loc) :
    (s.viewWrite a d).locByte l = if Loc.view a = l then d.byte else s.locByte l := by
  unfold State.viewWrite State.alert
  rw [State.locByte_mapTeams _ fun tm => by split; exacts [tm.heard_hear _ _, tm.heard_refl]]
  cases l with
  | view x =>
    refine (Core.readByte_store s.core s.clus (s.pm s.pkg) a x d).trans ?_
    simp only [Loc.view.injEq, eq_comm]
    rfl
  | _ => exact (if_neg (by simp)).symm

theorem State.homeWrite_locByte (s : State) (p a : Nat) (b : Byte) (k th : Nat) {l : Loc} (h : ∀ x, l = .view x → Loc.home p a ≠ .home s.pkg x) :
    (s.homeWrite p a b k th).locByte l = if Loc.home p a = l then b else s.locByte l := by
  cases l with
  | home q x =>
    refine (s.homeWrite_read p a b k th q x).trans ?_
    simp only [Loc.home.injEq, eq_comm]
    rfl
  | view x =>
    rw [if_neg (by simp)]
    have hne : ¬ (s.pkg = p ∧ x = a) := fun hx => h x rfl (by rw [hx.1, hx.2])
    exact Core.readByte_congr _ _ ((s.homeWrite_read p a b k th s.pkg x).trans (if_neg hne))
  | priv th' o =>
    rw [if_neg (by simp)]
    exact congrArg (fun m : Mem => m.read _) (Team.priv_of_heard (OnlyHeard.homeWrite s p a b k th).team)
  | _ => exact (if_neg (by simp)).symm

theorem State.spadWrite_locByte (hb : s.blk.key ≠ 0) (o : Nat) (b : Byte) (k th : Nat) (l : Loc) :
    (s.spadWrite o b k th).locByte l = if Loc.spad o = l then b else s.locByte l := by
  unfold State.spadWrite State.spadWriteAt
  rw [State.locByte_mapTeams _ fun tm => Team.heard_trans (tm.heard_hear _ _) (Team.heard_loseResv _ _ _ _)]
  rw [State.modBlk_running hb rfl]
  cases l with
  | spad x =>
    refine (mem_read_write s.blk.spad o x b).trans ?_
    simp only [Loc.spad.injEq, eq_comm]
    rfl
  | _ => exact (if_neg (by simp)).symm

/-- The host interface holds a byte for host memory behind those before it (R185). -/
def PendingByte.posting (c : Nat) (w : PendingByte) : Option (Nat × Nat × Byte) :=
  match w.loc with
  | .hostMem x => some (c, x, w.byte)
  | _ => none

/-- The bytes `ws` of the running context have landed: what hears them, the bytes that they name, and the host interface have changed. -/
structure Landed (s t : State) (ws : List PendingByte) : Prop where
  team : t.team = { s.team with priv := t.team.priv, mon := t.team.mon, resv := t.team.resv, scalarResv := t.team.scalarResv }
  launch : t.launch = s.launch
  hostMem : t.hostMem = s.hostMem
  hub : t.hub = { s.hub with posted := s.hub.posted ++ ws.filterMap (PendingByte.posting s.core.id) }
  coreId : t.core.id = s.core.id
  pkg : t.pkg = s.pkg
  blkKey : t.blk.key = s.blk.key
  parked : (∀ e ∈ s.teams, ∀ tm, e.2 = some tm → tm.parked = none) → ∀ e ∈ t.teams, ∀ tm, e.2 = some tm → tm.parked = none
  bytes : ∀ l, (∀ w ∈ ws, apart s.pkg w l) → t.locByte l = (lastAt (ws.map fun w => (w.loc, w.byte)) l).getD (s.locByte l)

theorem Landed.nil (s : State) : Landed s s [] := ⟨rfl, rfl, rfl, by simp, rfl, rfl, rfl, fun h => h, fun _ _ => rfl⟩

theorem Landed.cons {r : State} {w : PendingByte} {ws : List PendingByte} (h : Landed r s [w]) (k : Landed s t ws) : Landed r t (w :: ws) := by
  refine ⟨?_, k.launch.trans h.launch, k.hostMem.trans h.hostMem, ?_, k.coreId.trans h.coreId, k.pkg.trans h.pkg, k.blkKey.trans h.blkKey,
    fun hp => k.parked (h.parked hp), fun l hl => ?_⟩
  · have hk := k.team
    rw [h.team] at hk
    exact hk
  · rw [k.hub, h.hub, h.coreId]
    simp only [List.filterMap_cons, List.filterMap_nil, List.append_assoc]
    cases w.posting r.core.id <;> rfl
  · rw [k.bytes l fun v hv => h.pkg ▸ hl v (List.mem_cons_of_mem _ hv), h.bytes l fun v hv => hl v (List.mem_singleton.1 hv ▸ List.mem_cons_self),
      List.map_cons, List.map_cons, List.map_nil, lastAt_cons, lastAt_cons]
    cases lastAt (ws.map fun w => (w.loc, w.byte)) l with
    | some b => rfl
    | none => rfl

/-- A byte that has landed where its line's monitors and reservations have heard of it. -/
theorem Landed.of_heard {w : PendingByte} {b : Block} (h : OnlyHeard { s with blk := b } t) (hb : b.key = s.blk.key) (hp : w.posting s.core.id = none)
    (hl : ∀ l, apart s.pkg w l → t.locByte l = if w.loc = l then w.byte else s.locByte l) : Landed s t [w] := by
  refine ⟨?_, h.launch, h.hostMem, ?_, h.coreId, h.pkg, (congrArg Block.key h.blk).trans hb, fun hs e he tm htm => ?_, fun l hall => ?_⟩
  · have ht := h.team
    unfold Team.heard at ht
    rw [ht]
  · rw [h.hub, List.filterMap_cons, hp]
    simp
  · obtain ⟨u, hu, hheard⟩ := h.teams e.1 tm (by rw [← htm]; exact he)
    exact (Team.parked_of_heard hheard).trans (hs _ hu u rfl)
  · rw [hl l (hall w List.mem_cons_self)]
    simp only [List.map_cons, List.map_nil, lastAt_cons]
    split <;> rfl

theorem OnlyHeard.viewWrite (s : State) (a : Nat) (d : DirtyByte) : OnlyHeard s (s.viewWrite a d) :=
  OnlyHeard.trans (s := { s with core := { s.core with view := s.core.view.store a d } }) (OnlyHeard.withCore s rfl) (OnlyHeard.alert _ _ _ _)

theorem OnlyHeard.spadWrite (hb : s.blk.key ≠ 0) (o : Nat) (b : Byte) (k th : Nat) :
    OnlyHeard { s with blk := { s.blk with spad := s.blk.spad.write o b, spadPoison := terase s.blk.spadPoison o } } (s.spadWrite o b k th) := by
  unfold State.spadWrite State.spadWriteAt
  rw [State.modBlk_running hb rfl]
  exact OnlyHeard.mapTeams _ fun tm => Team.heard_trans (tm.heard_hear _ _) (Team.heard_loseResv _ _ _ _)

theorem State.privWrite_locByte (s : State) {th o : Nat} (b : Byte) (ho : o < 256) {l : Loc} (hl : ∀ th' o', l = .priv th' o' → o' < 256) :
    ({ s with team := { s.team with priv := s.team.priv.write (256 * th + o) b } } : State).locByte l = if Loc.priv th o = l then b else s.locByte l := by
  cases l with
  | priv th' o' =>
    have ho' := hl th' o' rfl
    refine (mem_read_write s.team.priv (256 * th + o) (256 * th' + o') b).trans ?_
    by_cases h : th = th' ∧ o = o'
    · obtain ⟨rfl, rfl⟩ := h
      rw [if_pos rfl, if_pos rfl]
    · rw [if_neg (by omega), if_neg (by simp; omega)]
      rfl
  | _ => exact (if_neg (by simp)).symm

theorem State.accWrite_locByte (s : State) (o : Nat) (b : Byte) (p : Tbl Nat) (l : Loc) :
    ({ s with blk := { s.blk with acc := s.blk.acc.write o b, spadPoison := p } } : State).locByte l = if Loc.acc o = l then b else s.locByte l := by
  cases l with
  | acc x =>
    refine (mem_read_write s.blk.acc o x b).trans ?_
    simp only [Loc.acc.injEq, eq_comm]
    rfl
  | _ => exact (if_neg (by simp)).symm

/-- A byte of the running context lands (R28). -/
theorem Landed.land (hb : s.blk.key ≠ 0) (k : Nat) (w : PendingByte) : Landed s (s.land k w) [w] := by
  obtain ⟨loc, byte, th⟩ := w
  cases loc with
  | view a =>
    exact .of_heard (OnlyHeard.viewWrite s a _) rfl rfl fun l _ => State.viewWrite_locByte s a _ l
  | home p a =>
    exact .of_heard (OnlyHeard.homeWrite s p a byte k th) rfl rfl fun l h => State.homeWrite_locByte s p a byte k th h.2.2.2
  | spad o => exact .of_heard (OnlyHeard.spadWrite hb o byte k th) rfl rfl fun l _ => State.spadWrite_locByte hb o byte k th l
  | acc o => exact .of_heard (.refl _) rfl rfl fun l _ => State.accWrite_locByte s o byte _ l
  | priv th' o =>
    refine ⟨rfl, rfl, rfl, by rw [List.filterMap_cons_none rfl, List.filterMap_nil, List.append_nil]; rfl, rfl, rfl, rfl, fun h => h, fun l hl => ?_⟩
    obtain ⟨-, hl1, hl2, -⟩ := hl _ List.mem_cons_self
    rw [List.map_cons, List.map_nil, lastAt_cons]
    refine (State.privWrite_locByte s byte (hl2 th' o rfl) hl1).trans ?_
    split <;> rfl
  | hostMem a =>
    refine ⟨rfl, rfl, rfl, rfl, rfl, rfl, rfl, fun h => h, fun l hl => ?_⟩
    obtain ⟨hhost, -⟩ := hl _ List.mem_cons_self
    rw [List.map_cons, List.map_nil, lastAt_cons, if_neg (fun h => hhost a h.symm)]
    exact locByte_congr rfl rfl rfl rfl rfl rfl rfl l

/-- The bytes of an access land in order (R28). -/
theorem Landed.foldl (ws : List PendingByte) {s : State} (hb : s.blk.key ≠ 0) : Landed s (ws.foldl (fun s w => s.land s.team.key w) s) ws := by
  induction ws generalizing s with
  | nil => exact .nil s
  | cons w ws ih =>
    have hw := Landed.land hb s.team.key w
    exact hw.cons (ih (by rw [hw.blkKey]; exact hb))

/-! ### What is left of an access -/

/-- Without race detection, and where the access is no `tld`, it lands byte by byte (R263). -/
theorem State.landAccess_eq {a : Access} (h : a.kind = .tld → s.launch.race = false) : s.landAccess a = a.writes.foldl (fun s w => s.land s.team.key w) s := by
  unfold State.landAccess
  dsimp only
  split
  · next hk => exact congrArg (fun x => a.writes.foldl (fun (s : State) w => s.land s.team.key w) x) (foldl_id (b := s) (fun _ => State.racePass_off (h hk) _ _ _) _)
  · rfl

/-- What is left in flight of a lone access whose part on a path has completed (R28). -/
theorem retire_finishPath {a : Access} (hd : a.done = false) (hp : a.donePaths = []) (p : Path) (ws : List PendingByte) :
    retire [] [{ a.finishPath p with writes := ws }] = leftOn a p ws := by
  have hfin : a.finishPath p = { a with donePaths := [p], done := a.paths.all (· ∈ [p]) } := by
    unfold Access.finishPath
    rw [hp]
    rfl
  have hall : a.paths.all (· ∈ [p]) = true ↔ (a.paths.filter fun q => decide (q ≠ p)) = [] := by
    simp [List.filter_eq_nil_iff]
  rw [hfin]
  unfold leftOn retire retire
  by_cases hps : (a.paths.filter fun q => decide (q ≠ p)) = []
  · simp only [Access.doneOn, hall.2 hps, hps, if_true, Bool.true_or, Bool.not_true, Bool.false_or, List.not_mem_nil, decide_false, List.filter_false, List.isEmpty_nil, Bool.and_self]
  · have hno : a.paths.all (· ∈ [p]) = false := Bool.eq_false_iff.2 fun h => hps (hall.1 h)
    simp only [Access.doneOn, hno, hps, if_false, Bool.false_or, Bool.false_and, Bool.false_eq_true, List.not_mem_nil, decide_false, Bool.or_false, hd]
    simp

/-- Of a lone access that has completed as a whole nothing is left (R28). -/
theorem retire_done (a : Access) : retire [] [{ a with done := true, writes := [] }] = [] := by
  simp [retire, Access.doneOn]

/-! ### The running context's lone access -/

variable {a : Access}

/-- The lone access of the running context completes, or its part on one path: its bytes land, and what is left of it stays in flight. -/
theorem State.completeAt_path (h : s.team.inflight = [a]) (hr : a.kind = .tld → s.launch.race = false) (hd : a.done = false) (hp : a.donePaths = []) (p : Path) :
    ∃ t : State, s.completeAt 0 (some p) = { t with team := { t.team with inflight := leftOn a p (a.writes.filter fun w => !a.partOf (some p) w) } } ∧
      t = (a.writes.filter (a.partOf (some p))).foldl (fun s w => s.land s.team.key w) s := by
  unfold State.completeAt
  simp only [h, List.getElem?_cons_zero, List.take_zero, List.foldl_nil, List.zipIdx_cons, List.zipIdx_nil, List.map_cons, List.map_nil, if_true]
  rw [retire_finishPath hd hp]
  exact ⟨_, rfl, State.landAccess_eq hr⟩

theorem State.completeAt_all (h : s.team.inflight = [a]) (hr : a.kind = .tld → s.launch.race = false) :
    ∃ t : State, s.completeAt 0 none = { t with team := { t.team with inflight := [] } } ∧ t = a.writes.foldl (fun s w => s.land s.team.key w) s := by
  unfold State.completeAt
  simp only [h, List.getElem?_cons_zero, List.take_zero, List.foldl_nil, List.zipIdx_cons, List.zipIdx_nil, List.map_cons, List.map_nil, if_true]
  rw [retire_done, show a.writes.filter (a.partOf none) = a.writes from List.filter_eq_self.2 fun _ _ => rfl]
  exact ⟨_, rfl, State.landAccess_eq hr⟩

/-- With nobody parked in the package nobody is parked beside the context that is made the running one. -/
theorem State.focus_unparked {k : Nat} {tm : Team} (hk : s.getTeam k = some tm) (hn : NoneParked s) :
    (s.focus k).team.parked = none ∧ ∀ e ∈ (s.focus k).teams, ∀ u, e.2 = some u → u.parked = none := by
  have hall : ∀ u ∈ tvals s.teamTbl, u.parked = none := fun u hu => by
    obtain rfl | ⟨j, hj⟩ := State.mem_teamTbl hu
    · exact hn.1
    · exact hn.2 _ hj u rfl
  unfold State.focus
  rw [hk]
  refine ⟨?_, fun e he u hu => hall u ?_⟩
  · obtain ⟨rfl, -⟩ | hj := State.getTeam_cases hk
    · exact hn.1
    · exact hn.2 _ hj tm rfl
  · have := mem_terase he
    simp only [tvals, List.mem_filterMap]
    exact ⟨e, this, hu⟩

variable {k : Nat} {tm : Team} {q : Option Path}

/-- A completion of a context's lone access that its state allows (R28). -/
theorem State.complete_eq (hk : s.getTeam k = some tm) (h : tm.inflight = [a]) (hd : a.done = false) (hp : a.donePaths = [])
    (hq : ∀ p, q = some p → p ∈ a.paths) (hfar : q = some .x → s.farHeld a = false) : s.complete k 0 q a.kind = ((s.focus k).completeAt 0 q).wakeAll := by
  unfold State.complete
  rw [hk]
  simp only [h, List.getElem?_cons_zero]
  refine if_pos ?_
  cases q with
  | none => simp [hd]
  | some p =>
    by_cases hx : p = .x
    · subst hx; simp [hd, hp, Access.doneOn, hq _ rfl, hfar rfl]
    · simp [hd, hp, Access.doneOn, hq _ rfl, hx]

theorem Landed.of_nil {ws : List PendingByte} (h : ws = []) : Landed s (ws.foldl (fun (s : State) w => s.land s.team.key w) s) ws := by
  subst h
  exact .nil s

/-- Landed bytes leave the registers and the place of the context. -/
theorem Landed.regs {ws : List PendingByte} (h : Landed s t ws) : s.team.sameRegs t.team ∧ t.team.pc = s.team.pc := by
  unfold Team.sameRegs
  rw [h.team]
  exact ⟨⟨rfl, rfl, rfl⟩, rfl⟩

/-- What has landed wakes nobody where nobody is parked (R207). -/
theorem Landed.wakeAll {u : State} {ws : List PendingByte} (h : Landed s u ws) (hs : s.team.parked = none ∧ ∀ e ∈ s.teams, ∀ tm, e.2 = some tm → tm.parked = none)
    (left : List Access) : ({ u with team := { u.team with inflight := left } } : State).wakeAll = { u with team := { u.team with inflight := left } } := by
  refine State.wakeAll_awake (State.awake_of ?_ (h.parked hs.2))
  show u.team.parked = none
  rw [h.team]
  exact hs.1

/-- A lone access completes on one path, with nobody parked: its bytes of that path have landed, and the rest of it is in flight. -/
theorem State.complete_path {p : Path} (hk : s.getTeam k = some tm) (h : tm.inflight = [a]) (hd : a.done = false) (hp : a.donePaths = []) (hn : NoneParked s)
    (hq : p ∈ a.paths) (hfar : p = .x → s.farHeld a = false) (htld : a.kind ≠ .tld) {ws : List PendingByte} (hws : ws = a.writes.filter (a.partOf (some p)))
    (hb : (s.focus k).blk.key ≠ 0 ∨ ws = []) :
    ∃ u, Landed (s.focus k) u ws ∧ u = ws.foldl (fun (s : State) w => s.land s.team.key w) (s.focus k) ∧
      s.complete k 0 (some p) a.kind = { u with team := { u.team with inflight := leftOn a p (a.writes.filter fun w => !a.partOf (some p) w) } } := by
  have hteam : (s.focus k).team = tm := by unfold State.focus; rw [hk]
  obtain ⟨u, hu, hland⟩ := State.completeAt_path (s := s.focus k) (by rw [hteam]; exact h) (fun hk => absurd hk htld) hd hp p
  have hl : Landed (s.focus k) u ws := by
    rw [hland, ← hws]
    exact hb.elim (Landed.foldl ws) Landed.of_nil
  refine ⟨u, hl, by rw [hland, hws], ?_⟩
  rw [State.complete_eq hk h hd hp (fun _ hx => Option.some.inj hx ▸ hq) (fun hx => hfar (Option.some.inj hx)), hu, hl.wakeAll (State.focus_unparked hk hn)]

/-- A lone access completes as a whole, with nobody parked: its bytes have landed, and nothing of it is in flight. -/
theorem State.complete_all (hk : s.getTeam k = some tm) (h : tm.inflight = [a]) (hd : a.done = false) (hp : a.donePaths = []) (hn : NoneParked s)
    (hrace : a.kind = .tld → (s.focus k).launch.race = false) (hb : (s.focus k).blk.key ≠ 0 ∨ a.writes = []) :
    ∃ u, Landed (s.focus k) u a.writes ∧ u = a.writes.foldl (fun (s : State) w => s.land s.team.key w) (s.focus k) ∧ s.complete k 0 none a.kind = { u with team := { u.team with inflight := [] } } := by
  have hteam : (s.focus k).team = tm := by unfold State.focus; rw [hk]
  obtain ⟨u, hu, hland⟩ := State.completeAt_all (s := s.focus k) (by rw [hteam]; exact h) hrace
  have hl : Landed (s.focus k) u a.writes := by
    rw [hland]
    exact hb.elim (Landed.foldl a.writes) Landed.of_nil
  refine ⟨u, hl, hland, ?_⟩
  rw [State.complete_eq (q := none) hk h hd hp (fun p hx => by cases hx) (fun hx => by cases hx), hu, hl.wakeAll (State.focus_unparked hk hn)]

/-! ### The statement -/

/-- The last byte of an access at a location, as `lastAt` gives it. -/
theorem lastWrite_eq (a : Access) (ws : List PendingByte) (l : Loc) : lastWrite { a with writes := ws } l = lastAt (ws.map fun w => (w.loc, w.byte)) l := by
  simp only [lastWrite, lastAt, ← List.map_reverse, List.find?_map, Option.map_map]
  rfl

/-- Settles O40: a lone access lands its bytes one by one, and nobody wakes. -/
theorem completionEvents : Obligations.CompletionEvents := by
  intro k tm a s hk hth h hd hp hn f far quiet lands
  have hquiet : ∀ {i : Instr} {left : List Access} {ws : List PendingByte} {u t : State}, exec i s = .next t → ws = [] →
      u = ws.foldl (fun (s : State) w => s.land s.team.key w) f → t = { u with team := { u.team with inflight := left } } → quiet i left := by
    rintro i left ws u t hi rfl rfl rfl
    exact ⟨_, hi, rfl, rfl, rfl, rfl, rfl, rfl, rfl, rfl, rfl, rfl, rfl, rfl, rfl, rfl, rfl, rfl⟩
  have hlands : ∀ {i : Instr} {left : List Access} {ws : List PendingByte}, (f.blk.key ≠ 0 → f.launch.race = false → ∃ u, Landed f u ws ∧
      exec i s = .next { u with team := { u.team with inflight := left } }) → lands i ws left := by
    intro i left ws hu hb hrace hpriv
    obtain ⟨u, hl, hi⟩ := hu hb hrace
    refine ⟨_, hi, rfl, Team.sameRegs.claim hl.regs.1, hl.regs.2, hl.launch, hl.hostMem, hl.hub, fun l hhost hpl hview => ?_⟩
    rw [lastWrite_eq]
    refine (locByte_congr (s := u) rfl rfl rfl rfl rfl rfl rfl l).trans (hl.bytes l fun w hw => ⟨hhost, hpl, hpriv w hw, fun x hx => hview x hx w hw⟩)
  have hquietPath : ∀ {i : Instr} {p : Path}, a.kind ≠ .tld → p ∈ a.paths → a.writes = [] → exec i s = .next (s.complete k 0 (some p) a.kind) → quiet i (leftOn a p []) := by
    intro i p htld hpa hnone hi
    obtain ⟨u, -, hu, ht⟩ := State.complete_path hk h hd hp hn hpa (fun _ => by simp [State.farHeld, hnone]) htld rfl (.inr (by rw [hnone]; rfl))
    refine hquiet hi ?_ hu ?_
    · rw [hnone]; rfl
    · rw [ht, hnone]; rfl
  have hquietAll : ∀ {i : Instr}, a.kind ≠ .tld → a.writes = [] → exec i s = .next (s.complete k 0 none a.kind) → quiet i [] := by
    intro i htld hnone hi
    obtain ⟨u, -, hu, ht⟩ := State.complete_all hk h hd hp hn (fun hx => absurd hx htld) (.inr hnone)
    exact hquiet hi hnone hu ht
  have hheld : s.farHeld a = true ↔ far := by
    simp only [State.farHeld, Bool.and_eq_true, Bool.not_eq_true', State.linked_eq_false, List.any_eq_true, PendingByte.far_iff]
    rfl
  refine ⟨fun p hpa hkind hnone => hquietPath (by rw [hkind]; decide) hpa hnone (by rw [hkind]; rfl), fun p hpa hkind hnone => hquietPath (by rw [hkind]; decide) hpa hnone (by rw [hkind]; rfl),
    fun hkind hfar hx => ?_, fun p hpa hkind hfar => hlands fun hb _ => ?_, fun hkind hnone => hquietAll (by rw [hkind]; decide) hnone (by rw [hkind]; rfl),
    fun hkind hnone => hquietAll (by rw [hkind]; decide) hnone (by rw [hkind]; rfl), fun hkind => hlands fun hb hrace => ?_⟩
  · refine congrArg Host.Outcome.next ?_
    unfold State.complete
    simp [hk, h, hheld.2 hfar]
  · have hpart : ∀ w, a.partOf (some p) w = decide (w.loc.path = p) := fun w => by simp [Access.partOf, hkind]
    have hnot : p = .x → s.farHeld a = false := fun hx => Bool.eq_false_iff.2 fun hf => hfar.elim (fun hne => hne hx) fun hno => hno (hheld.1 hf)
    obtain ⟨u, hl, -, ht⟩ := State.complete_path hk h hd hp hn hpa hnot (by rw [hkind]; decide) rfl (.inl hb)
    rw [List.filter_congr fun w _ => hpart w] at hl
    simp only [hpart] at ht
    refine ⟨u, hl, ?_⟩
    rw [hkind] at ht
    refine (congrArg Host.Outcome.next ht).trans ?_
    simp only [← decide_not]
  · obtain ⟨u, hl, -, ht⟩ := State.complete_all hk h hd hp hn (fun _ => hrace) (.inl hb)
    rw [hkind] at ht
    exact ⟨u, hl, congrArg Host.Outcome.next ht⟩

end Sys2Proof.Machine
end

