-- ==== Sys2Proof/Proofs/SchedulerAndStopEvents.lean ====
section
/-! PROOFS. A stream that faults at a word taken ahead: the team that waited at its `fork` has the turn then, which refutes the claim that the word changes no scalar register of the context. -/

namespace Sys2Proof.Machine

open Sys2Proof Sys2Proof.Machine Sys2Proof.Claim

/-- A team that waits at a `fork` of the matrix stream; its register s5 holds 1. -/
def forkWaiter : Team := { key := 5, threads := 1, blkKey := 1, parked := some (.fork .mx), s := [(5, 1)] }

/-- The matrix stream runs, under the number of the team that waits for it, and comes to a `ret` whose pointer is 0. -/
def strayStream : State :=
  { team := { kind := .mxStream, key := 5, threads := 1, blkKey := 1 }, teams := [(5, some forkWaiter)], blk := { key := 1, teamsLeft := 1 },
    core := {
      tlb := [{ root := 0, base := 0, big := false, frame := 0, rowlen := 0, efmt := 0, geo := false, alias_ := false, sa := 0, x := true, w := false, rd := true }],
      view := { dirty := [(3, some { byte := 0x42, team := 0, thread := 0 }), (2, some { byte := 0x40, team := 0, thread := 0 })] } } }

/-- The `ret`, as the front-end takes it: no scalar register is written. -/
def strayRet : QueueWord := { pc := 0, word := 0x42400000, ran := some { next := 4, regs := [], old := [] } }

theorem decode_strayRet : instrOf .team strayRet.word = .ret := by decide

theorem frontTake_strayStream : strayStream.frontTake = some strayRet := by decide

theorem rdS_frontView_strayStream : strayStream.frontView.team.rdS 5 = 0 := by decide

/-- The fault ends the stream, and the team at its `fork` goes on in its place. -/
theorem exec_strayRet : ∃ u, exec .ret strayStream.frontView = .next u ∧ u.team.rdS 5 = 1 := ⟨_, rfl, by decide⟩

/-- Refutes O41: in `strayStream` the front-end takes a `ret` that writes no register, and behind it register s5 of the context under that number holds 1 in place of 0. -/
theorem not_schedulerAndStopEvents : ¬ Obligations.SchedulerAndStopEvents := by
  unfold Obligations.SchedulerAndStopEvents
  rintro ⟨-, ⟨takes, -⟩, -⟩
  obtain ⟨-, -, -, -, -, -, -, hran⟩ := takes strayStream strayRet frontTake_strayStream
  obtain ⟨-, -, -, -, u, hu, -, -, hother⟩ := hran _ rfl
  rw [decode_strayRet] at hu
  obtain ⟨w, hw, hone⟩ := exec_strayRet
  cases hu.symm.trans hw
  have hkept := hother 5 List.not_mem_nil
  rw [hone, rdS_frontView_strayStream] at hkept
  exact absurd hkept (by decide)

end Sys2Proof.Machine
end

