-- ==== Sys2Proof/Proofs/StoresDown.lean ====
section
/-! PROOFS. The stores of any core and of its cluster unit on their way to their homes (R167, R168), and what a block that leaves its core does not touch. -/

namespace Sys2Proof.Machine

open Sys2Proof Sys2Proof.Machine Sys2Proof.Claim

variable {s t : State}

/-! ### Cores and clusters by number -/

theorem State.getCore_id (s : State) (k : Nat) : (s.getCore k).id = k := by
  unfold State.getCore
  split
  · assumption
  · rfl

theorem State.getCore_congr (hc : t.core = s.core) (hs : t.cores = s.cores) (k : Nat) : t.getCore k = s.getCore k := by
  unfold State.getCore
  rw [hc, hs]

theorem State.getCluster_congr (h : t.clusters = s.clusters) (k : Nat) : t.getCluster k = s.getCluster k := by
  unfold State.getCluster
  rw [h]

/-- Core `k` after a change of core `c`. -/
theorem State.getCore_modCore (s : State) {c : Nat} {f : Core → Core} (hf : ∀ x, (f x).id = x.id) (k : Nat) :
    (s.modCore c f).getCore k = if k = c then f (s.getCore c) else s.getCore k := by
  have hid : (f (s.getCore c)).id = c := (hf _).trans (s.getCore_id c)
  unfold State.modCore State.setCore
  rw [hid]
  by_cases hrun : s.core.id = c
  · rw [if_pos hrun]
    unfold State.getCore at hid ⊢
    rw [if_pos hrun] at hid ⊢
    dsimp only
    rw [hid, hrun]
    by_cases hk : k = c
    · rw [if_pos hk.symm, if_pos hk]
    · rw [if_neg (Ne.symm hk), if_neg hk, if_neg (Ne.symm hk)]
  · rw [if_neg hrun]
    by_cases hk : k = c
    · subst hk
      rw [if_pos rfl]
      generalize f (s.getCore k) = x at hid
      show (if s.core.id = k then s.core else { tget {} (tput {} s.cores k { x with id := 0 }) k with id := k }) = x
      rw [if_neg hrun, tget_tput_same, ← hid]
    · rw [if_neg hk]
      show (if s.core.id = k then s.core else { tget {} (tput {} s.cores c _) k with id := k }) = _
      rw [tget_tput_ne _ _ _ hk]
      rfl

theorem State.getCluster_modCluster (s : State) (c : Nat) (f : Cluster → Cluster) (k : Nat) :
    (s.modCluster c f).getCluster k = if k = c then f (s.getCluster c) else s.getCluster k := tget_tput _ _ _ _ _

/-- `t` is `s` but for cores, clusters, memory and contexts: where stores go, and who hears of them. -/
def State.onlyStores (s t : State) : Prop :=
  t = { s with core := t.core, cores := t.cores, clusters := t.clusters, mem := t.mem, team := t.team, teams := t.teams }

theorem State.onlyStores_refl (s : State) : s.onlyStores s := rfl

theorem State.onlyStores_trans {r : State} (h : r.onlyStores s) (k : s.onlyStores t) : r.onlyStores t := by
  unfold State.onlyStores at *
  rw [h] at k
  exact k

theorem State.onlyStores_modCore (s : State) (c : Nat) (f : Core → Core) : s.onlyStores (s.modCore c f) := by
  unfold State.modCore State.setCore
  split <;> rfl

theorem State.onlyStores_modCluster (s : State) (c : Nat) (f : Cluster → Cluster) : s.onlyStores (s.modCluster c f) := rfl

theorem State.onlyStores_saved (h : s.onlyStores t) : t.saved = s.saved := by rw [h]
theorem State.onlyStores_hub (h : s.onlyStores t) : t.hub = s.hub := by rw [h]
theorem State.onlyStores_pkg (h : s.onlyStores t) : t.pkg = s.pkg := by rw [h]
theorem State.onlyStores_blk (h : s.onlyStores t) : t.blk = s.blk ∧ t.blocks = s.blocks := by rw [h]; exact ⟨rfl, rfl⟩

/-! ### The contexts that hear of a store -/

/-- A context hears of a store: its reservations may be lost, and its monitor is triggered only where it was armed. -/
def Team.overhears (tm u : Team) : Prop := tm.heard u ∧ (tm.mon ≠ .armed → u.mon = tm.mon)

theorem Team.overhears_refl (tm : Team) : tm.overhears tm := ⟨Team.heard_refl tm, fun _ => rfl⟩

theorem Team.overhears_trans {x y z : Team} (h : x.overhears y) (k : y.overhears z) : x.overhears z :=
  ⟨Team.heard_trans h.1 k.1, fun hx => (k.2 (by rwa [h.2 hx])).trans (h.2 hx)⟩

theorem Team.overhears_hear (tm : Team) (r : LineRef) (lv : Level3) : tm.overhears (tm.hear r lv) := by
  refine ⟨tm.heard_hear r lv, fun h => ?_⟩
  unfold Team.hear
  rw [if_neg fun hr => h hr.1]

theorem Team.overhears_loseResv (tm : Team) (r : LineRef) (k th : Nat) : tm.overhears (tm.loseResv r k th) := ⟨Team.heard_loseResv tm r k th, fun _ => rfl⟩

/-- Every context of `s` is found in `t` under its number, changed at most in what it has heard. -/
def State.keepsTeams (s t : State) : Prop := ∀ k tm, s.getTeam k = some tm → ∃ u, t.getTeam k = some u ∧ tm.overhears u

theorem State.keepsTeams_refl (s : State) : s.keepsTeams s := fun _ tm h => ⟨tm, h, tm.overhears_refl⟩

theorem State.keepsTeams_trans {r : State} (h : r.keepsTeams s) (k : s.keepsTeams t) : r.keepsTeams t := fun j tm hj => by
  obtain ⟨u, hu, hheard⟩ := h j tm hj
  obtain ⟨v, hv, hheard'⟩ := k j u hu
  exact ⟨v, hv, Team.overhears_trans hheard hheard'⟩

theorem State.keepsTeams_of_eq (ht : t.team = s.team) (hts : t.teams = s.teams) : s.keepsTeams t := fun k tm h => by
  refine ⟨tm, ?_, tm.overhears_refl⟩
  unfold State.getTeam at h ⊢
  rw [ht, hts]
  exact h

theorem State.keepsTeams_mapTeams (s : State) {f : Team → Team} (hf : ∀ tm : Team, tm.overhears (f tm)) : s.keepsTeams (s.mapTeams f) := fun k tm h => by
  have hkey : ∀ tm : Team, (f tm).key = tm.key ∧ (f tm).threads = tm.threads := fun tm => by rw [(hf tm).1]; exact ⟨rfl, rfl⟩
  refine ⟨f tm, ?_, hf tm⟩
  unfold State.getTeam State.mapTeams at *
  dsimp only
  by_cases h0 : s.team.threads = 0
  · rw [if_neg fun hk => hk.2 h0] at h
    rw [if_pos h0, if_neg fun hk => hk.2 h0, tget_map_values, h]
    rfl
  · rw [if_neg h0, (hkey _).1, (hkey _).2]
    split at h
    · next hk => rw [if_pos hk, Option.some.inj h]
    · next hk => rw [if_neg hk, tget_map_values, h]; rfl

/-! ### Stores go down -/

section
variable {g : State → Nat × Option DirtyByte → State} (hn : ∀ s e, e.2 = none → g s e = s)
include hn

/-- What bytes that reach a cluster unit leave as it was (R167). -/
theorem foldl_clusWrite_frame {cl : Nat} (hg : ∀ s e d, e.2 = some d → g s e = s.clusWrite cl e.1 d) (ds : List (Nat × Option DirtyByte)) (s : State) :
    (ds.foldl g s).cores = s.cores ∧ (∀ k, k ≠ cl → (ds.foldl g s).getCluster k = s.getCluster k) ∧ s.onlyStores (ds.foldl g s) := by
  refine foldl_keeps (P := fun z : State => z.cores = s.cores ∧ (∀ k, k ≠ cl → z.getCluster k = s.getCluster k) ∧ s.onlyStores z)
    (fun z e hz => ?_) ds s ⟨rfl, fun _ _ => rfl, s.onlyStores_refl⟩
  cases he : e.2 with
  | none => rw [hn z e he]; exact hz
  | some d =>
    obtain ⟨hcores, hother, hframe⟩ := hz
    rw [hg z e d he]
    exact ⟨hcores, fun k hk => ((z.getCluster_modCluster cl (fun c => { c with view := c.view.store e.1 d }) k).trans (if_neg hk)).trans (hother k hk),
      State.onlyStores_trans hframe rfl⟩

/-- What bytes that reach their homes leave as it was (R166). -/
theorem foldl_homeWrite_frame {p : Nat} (hg : ∀ s e d, s.pkg = p → e.2 = some d → g s e = s.homeWrite p e.1 d.byte d.team d.thread)
    (ds : List (Nat × Option DirtyByte)) (s : State) (hp : s.pkg = p) :
    (ds.foldl g s).cores = s.cores ∧ s.onlyStores (ds.foldl g s) ∧ s.keepsTeams (ds.foldl g s) := by
  have hall := foldl_keeps (P := fun z : State => z.pkg = p ∧ z.cores = s.cores ∧ s.onlyStores z ∧ s.keepsTeams z) (f := g)
    (fun z e hz => ?_) ds s ⟨hp, rfl, s.onlyStores_refl, s.keepsTeams_refl⟩
  · exact hall.2
  obtain ⟨hpkg, hcores, hframe, hteams⟩ := hz
  cases he : e.2 with
  | none => rw [hn z e he]; exact ⟨hpkg, hcores, hframe, hteams⟩
  | some d =>
    rw [hg z e d hpkg he]
    exact ⟨hpkg, hcores, State.onlyStores_trans hframe rfl, State.keepsTeams_trans hteams
      (State.keepsTeams_mapTeams (z.modPm p _) fun tm => Team.overhears_trans (tm.overhears_hear _ _) (Team.overhears_loseResv _ _ _ _))⟩
end

/-- A core without stores of its own. -/
def Core.written (c : Core) : Core := { c with view := { c.view with dirty := [] } }

/-- The bytes that core `c` holds go to its cluster unit. -/
theorem State.coreDown_all (s : State) (c : Nat) :
    (∀ k, (s.coreDown c fun _ => true).getCore k = if k = c then (s.getCore c).written else s.getCore k) ∧
    (∀ k, ((s.coreDown c fun _ => true).getCluster k).view.dirty =
      if k = clusterOf c then takeDirty (s.getCluster (clusterOf c)).view.dirty (s.getCore c).view.dirty else (s.getCluster k).view.dirty) ∧
    (s.coreDown c fun _ => true).mem = s.mem ∧ s.onlyStores (s.coreDown c fun _ => true) := by
  have hnone : ∀ l : Tbl (Option DirtyByte), (l.filter fun _ => !true) = [] := fun l => List.filter_false _
  have hcore := s.getCore_modCore (c := c) (f := Core.written) fun _ => rfl
  have hframe := s.onlyStores_modCore c Core.written
  have hplaces : (s.modCore c Core.written).clusters = s.clusters ∧ (s.modCore c Core.written).mem = s.mem := by
    unfold State.modCore State.setCore; split <;> exact ⟨rfl, rfl⟩
  unfold State.coreDown
  dsimp only
  rw [List.filter_true]
  simp only [hnone]
  rw [show (s.modCore c fun x => { x with view := { x.view with dirty := [] } }) = s.modCore c Core.written from rfl]
  generalize s.modCore c Core.written = y at hcore hframe hplaces ⊢
  obtain ⟨hclus, hmem⟩ := hplaces
  obtain ⟨h1, h2, h3, -⟩ := foldl_clusWrite (cl := clusterOf c)
    (g := fun s' e => match e.2 with
      | some d => s'.clusWrite (clusterOf c) e.1 d
      | none => s') (fun s e h => by simp only [h]) (fun s e d h => by simp only [h]) (s.getCore c).view.dirty y
  obtain ⟨h4, h5, h6⟩ := foldl_clusWrite_frame (cl := clusterOf c)
    (g := fun s' e => match e.2 with
      | some d => s'.clusWrite (clusterOf c) e.1 d
      | none => s') (fun s e h => by simp only [h]) (fun s e d h => by simp only [h]) (s.getCore c).view.dirty y
  refine ⟨fun k => (State.getCore_congr h1 h4 k).trans (hcore k), fun k => ?_, h2.trans hmem, State.onlyStores_trans hframe h6⟩
  by_cases hk : k = clusterOf c
  · rw [if_pos hk, hk]
    exact h3.trans (by rw [State.getCluster_congr hclus])
  · rw [if_neg hk]
    exact (congrArg (fun x : Cluster => x.view.dirty) (h5 k hk)).trans (by rw [State.getCluster_congr hclus])

/-- The bytes of a cluster unit go to their homes. -/
theorem State.clusDown_all (s : State) (cl : Nat) :
    let z := s.clusDown cl fun _ => true
    (∀ k, z.getCore k = s.getCore k) ∧ (∀ k, (z.getCluster k).view = if k = cl then { (s.getCluster cl).view with dirty := [] } else (s.getCluster k).view) ∧
    ((s.getCluster cl).view.dirty = [] → z.mem = s.mem) ∧
    (∀ q, q ≠ s.pkg → (z.pm q).bytes = (s.pm q).bytes) ∧
    (∀ a, cleanByte (s.getCluster cl).view a → (z.pm s.pkg).bytes.read a = (s.pm s.pkg).bytes.read a) ∧
    (∀ a b, dirtyByte (s.getCluster cl).view a b → (z.pm s.pkg).bytes.read a = b) ∧
    s.onlyStores z ∧ s.keepsTeams z ∧ OnlyHeard s z := by
  intro z
  have hnone : ∀ l : Tbl (Option DirtyByte), (l.filter fun _ => !true) = [] := fun l => List.filter_false _
  have hz : z = s.clusDown cl fun _ => true := rfl
  clear_value z
  unfold State.clusDown at hz
  dsimp only at hz
  rw [List.filter_true] at hz
  simp only [hnone] at hz
  obtain ⟨y, hy⟩ : ∃ y : State, y = s.modCluster cl fun x => { x.charge (s.getCluster cl).view.dirty.length with view := { x.view with dirty := [] } } := ⟨_, rfl⟩
  rw [← hy] at hz
  have hpkg : y.pkg = s.pkg := by rw [hy]; rfl
  have hmem : y.mem = s.mem := by rw [hy]; rfl
  have hcoresY : y.core = s.core ∧ y.cores = s.cores := by rw [hy]; exact ⟨rfl, rfl⟩
  have hview : ∀ k, (y.getCluster k).view = if k = cl then { (s.getCluster cl).view with dirty := [] } else (s.getCluster k).view := fun k => by
    rw [hy, State.getCluster_modCluster]
    split <;> rfl
  have hframeY : s.onlyStores y := by rw [hy]; rfl
  have hteamsY : s.keepsTeams y := by rw [hy]; exact State.keepsTeams_of_eq rfl rfl
  have hheardY : OnlyHeard s y := by rw [hy]; exact OnlyHeard.modCluster s _ _
  clear hy
  have hn : ∀ (s' : State) (e : Nat × Option DirtyByte), e.2 = none → (match e.2 with
      | some d => s'.homeWrite s'.pkg e.1 d.byte d.team d.thread
      | none => s') = s' := fun s' e h => by simp only [h]
  have hg : ∀ (s' : State) (e : Nat × Option DirtyByte) (d : DirtyByte), s'.pkg = s.pkg → e.2 = some d → (match e.2 with
      | some d => s'.homeWrite s'.pkg e.1 d.byte d.team d.thread
      | none => s') = s'.homeWrite s.pkg e.1 d.byte d.team d.thread := fun s' e d hp h => by simp only [h, hp]
  obtain ⟨h1, h2, h3, h4, h5, h6⟩ := foldl_homeWrite hn hg (s.getCluster cl).view.dirty y hpkg
  obtain ⟨h7, h8, h9⟩ := foldl_homeWrite_frame hn hg (s.getCluster cl).view.dirty y hpkg
  have hpm : ∀ p, y.pm p = s.pm p := State.pm_congr hmem
  rw [hz]
  refine ⟨fun k => ?_, fun k => ?_, fun h => ?_, fun q hq => ?_, fun a ha => ?_, fun a b hb => ?_, State.onlyStores_trans hframeY h8, State.keepsTeams_trans hteamsY h9,
    hheardY.trans h3⟩
  · exact State.getCore_congr (h1.trans hcoresY.1) (h7.trans hcoresY.2) k
  · exact (congrArg Cluster.view (State.getCluster_congr h2 k)).trans (hview k)
  · rw [h]; exact hmem
  · exact (h4 q hq).trans (by rw [hpm])
  · exact (h5 a ha).trans (by rw [hpm])
  · exact h6 a b hb.2 (.inl hb.1)

/-! ### Publication at the homes -/

/-- What a publication of core `c` at the homes does (R168): the stores of the core and of its cluster unit stand in memory, and every other core and unit holds what it held. -/
structure WentDown (s t : State) (c : Nat) : Prop where
  core : ∀ k, (t.getCore k).view.dirty = if k = c then [] else (s.getCore k).view.dirty
  races : ∀ k, (t.getCore k).raceQueue = (s.getCore k).raceQueue
  unit : ∀ k, (t.getCluster k).view.dirty = if k = clusterOf c then [] else (s.getCluster k).view.dirty
  elsewhere : ∀ p, p ≠ s.pkg → (t.pm p).bytes = (s.pm p).bytes
  kept : ∀ a, cleanByte (s.getCore c).view a → cleanByte (s.getCluster (clusterOf c)).view a → (t.pm s.pkg).bytes.read a = (s.pm s.pkg).bytes.read a
  ofCore : ∀ a b, dirtyByte (s.getCore c).view a b → cleanByte (s.getCluster (clusterOf c)).view a → (t.pm s.pkg).bytes.read a = b
  ofUnit : ∀ a b, cleanByte (s.getCore c).view a → dirtyByte (s.getCluster (clusterOf c)).view a b → (t.pm s.pkg).bytes.read a = b
  hub : t.hub = s.hub
  pkg : t.pkg = s.pkg
  saved : t.saved = s.saved

theorem State.publish_wentDown (s : State) (c : Nat) : WentDown s (s.publish c .home) c := by
  obtain ⟨hcore, hunit, hmem, hframe⟩ := s.coreDown_all c
  rw [show s.publish c .home = (s.coreDown c fun _ => true).clusDown (clusterOf c) fun _ => true from rfl]
  generalize (s.coreDown c fun _ => true) = y at hcore hunit hmem hframe ⊢
  obtain ⟨hcore2, hunit2, -, hother, hclean, hdirty, hframe2, -, -⟩ := y.clusDown_all (clusterOf c)
  generalize (y.clusDown (clusterOf c) fun _ => true) = z at hcore2 hunit2 hother hclean hdirty hframe2 ⊢
  have hpkg := State.onlyStores_pkg hframe
  rw [hpkg] at hother hclean hdirty
  have hpm : ∀ p, y.pm p = s.pm p := State.pm_congr hmem
  have hmerged : (y.getCluster (clusterOf c)).view.dirty = takeDirty (s.getCluster (clusterOf c)).view.dirty (s.getCore c).view.dirty := by rw [hunit, if_pos rfl]
  have hall := State.onlyStores_trans hframe hframe2
  refine ⟨fun k => ?_, fun k => ?_, fun k => ?_, fun p hp => ?_, fun a hc hu => ?_, fun a b hc hu => hdirty a b ?_, fun a b hc hu => hdirty a b ?_,
    State.onlyStores_hub hall, State.onlyStores_pkg hall, State.onlyStores_saved hall⟩
  · rw [hcore2, hcore]; split <;> rfl
  · rw [hcore2, hcore]
    split
    · next hk => rw [hk]; rfl
    · rfl
  · rw [hunit2]
    split
    · rfl
    · next hk => rw [hunit, if_neg hk]
  · rw [hother p hp, hpm]
  · rw [hclean a, hpm]
    unfold cleanByte
    rw [hmerged]
    exact clean_takeDirty hu hc
  · unfold dirtyByte
    rw [hmerged]
    exact dirty_takeDirty (.inl fun e he ha => absurd ha (hu e he)) hc.1 hc.2
  · unfold dirtyByte
    rw [hmerged]
    exact ⟨mem_takeDirty hu.1 _, allHold_takeDirty hu.2 fun e he ha => absurd ha (hc e he)⟩

/-! ### A block that leaves -/

/-- The stores on their way, the races to report, memory and the hub are the same. -/
structure SameStores (s t : State) : Prop where
  core : ∀ k, (t.getCore k).view.dirty = (s.getCore k).view.dirty
  races : ∀ k, (t.getCore k).raceQueue = (s.getCore k).raceQueue
  unit : ∀ k, (t.getCluster k).view.dirty = (s.getCluster k).view.dirty
  mem : t.mem = s.mem
  hub : t.hub = s.hub
  pkg : t.pkg = s.pkg
  saved : t.saved = s.saved

theorem SameStores.refl (s : State) : SameStores s s := ⟨fun _ => rfl, fun _ => rfl, fun _ => rfl, rfl, rfl, rfl, rfl⟩

theorem SameStores.trans {r : State} (h : SameStores r s) (k : SameStores s t) : SameStores r t :=
  ⟨fun j => (k.core j).trans (h.core j), fun j => (k.races j).trans (h.races j), fun j => (k.unit j).trans (h.unit j), k.mem.trans h.mem, k.hub.trans h.hub,
    k.pkg.trans h.pkg, k.saved.trans h.saved⟩

theorem SameStores.modCore (s : State) {c : Nat} {f : Core → Core} (hid : ∀ x, (f x).id = x.id) (hv : (f (s.getCore c)).view = (s.getCore c).view)
    (hr : (f (s.getCore c)).raceQueue = (s.getCore c).raceQueue) : SameStores s (s.modCore c f) := by
  have hcore := s.getCore_modCore hid (c := c)
  have hrest : (s.modCore c f).clusters = s.clusters ∧ (s.modCore c f).mem = s.mem := by
    unfold State.modCore State.setCore; split <;> exact ⟨rfl, rfl⟩
  have hframe := s.onlyStores_modCore c f
  refine ⟨fun k => ?_, fun k => ?_, fun k => by rw [State.getCluster_congr hrest.1], hrest.2, State.onlyStores_hub hframe, State.onlyStores_pkg hframe,
    State.onlyStores_saved hframe⟩
  all_goals rw [hcore]; split
  · next hk => rw [hv, hk]
  · rfl
  · next hk => rw [hr, hk]
  · rfl

theorem SameStores.relevel (s : State) (k : Nat) : SameStores s (s.relevel k) := by
  refine ⟨fun _ => rfl, fun _ => rfl, fun j => ?_, rfl, rfl, rfl, rfl⟩
  unfold State.relevel
  rw [State.getCluster_modCluster]
  split
  · next hj => rw [hj]; unfold Cluster.setCur; split <;> rfl
  · rfl

theorem SameStores.dropTeam (s : State) (k : Nat) : SameStores s (s.dropTeam k) := by
  unfold State.dropTeam
  split <;> exact ⟨fun _ => rfl, fun _ => rfl, fun _ => rfl, rfl, rfl, rfl, rfl⟩

theorem SameStores.vacate (s : State) (tm : Team) : SameStores s (s.vacate tm) := by
  unfold State.vacate
  refine SameStores.trans (SameStores.trans ?_ (SameStores.dropTeam _ _)) (SameStores.relevel _ _)
  exact SameStores.modCore s (fun _ => rfl) rfl rfl

theorem SameStores.removeBlock (s : State) (bk : Nat) : SameStores s (s.removeBlock bk) := by
  unfold State.removeBlock
  split
  · exact SameStores.refl s
  · next b _ =>
    have hteams := foldl_keeps (P := SameStores s) (f := fun s t => if t.kind = .team then s.vacate t else s.dropTeam t.key)
      (fun x tm hx => by
        split
        · exact hx.trans (SameStores.vacate x tm)
        · exact hx.trans (SameStores.dropTeam x tm.key)) (s.ctxsOf bk) s (SameStores.refl s)
    refine SameStores.trans hteams ?_
    generalize ((s.ctxsOf bk).foldl (fun s t => if t.kind = .team then s.vacate t else s.dropTeam t.key) s) = y
    have hdrop : SameStores y (y.dropBlk bk) := by
      unfold State.dropBlk
      split <;> exact ⟨fun _ => rfl, fun _ => rfl, fun _ => rfl, rfl, rfl, rfl, rfl⟩
    refine hdrop.trans ?_
    dsimp only
    unfold State.clearHinges
    split
    · exact SameStores.refl _
    · exact SameStores.modCore _ (fun _ => rfl) rfl rfl

/-- A core without races to report reports none. -/
theorem SameStores.raceAll (s : State) {c : Nat} (h : (s.getCore c).raceQueue = []) : SameStores s (s.raceAll c) := by
  unfold State.raceAll
  rw [h]
  exact SameStores.modCore s (fun _ => rfl) rfl h.symm

/-- A publication, and what leaves the stores as they are behind it. -/
theorem WentDown.then {r : State} {c : Nat} (h : WentDown s t c) (k : SameStores t r) : WentDown s r c := by
  have hpm : ∀ p, r.pm p = t.pm p := State.pm_congr k.mem
  refine ⟨fun j => (k.core j).trans (h.core j), fun j => (k.races j).trans (h.races j), fun j => (k.unit j).trans (h.unit j), fun p hp => ?_, fun a hc hu => ?_,
    fun a b hc hu => ?_, fun a b hc hu => ?_, k.hub.trans h.hub, k.pkg.trans h.pkg, k.saved.trans h.saved⟩
  all_goals rw [hpm]
  · exact h.elsewhere p hp
  · exact h.kept a hc hu
  · exact h.ofCore a b hc hu
  · exact h.ofUnit a b hc hu

end Sys2Proof.Machine
end

