-- ==== Sys2Proof/Proofs/ContextEvents.lean ====
section
/-! PROOFS. A gang that is saved leaves its cores with its stores at their homes (R169, R225); a block that is restored finds its memory and registers (R41). -/

namespace Sys2Proof.Machine

open Sys2Proof Sys2Proof.Machine Sys2Proof.Claim

variable {s t : State}

/-! ### The stores of a gang -/

theorem dirtyByte_congr {v w : View} (h : w.dirty = v.dirty) {a : Nat} {b : Byte} (hd : dirtyByte v a b) : dirtyByte w a b := by
  unfold dirtyByte
  rw [h]
  exact hd

theorem cleanByte_congr {v w : View} (h : w.dirty = v.dirty) {a : Nat} (hc : cleanByte v a) : cleanByte w a := by
  unfold cleanByte
  rw [h]
  exact hc

theorem WentDown.clean_core {c k a : Nat} (h : WentDown s t c) (hk : k ≠ c → cleanByte (s.getCore k).view a) : cleanByte (t.getCore k).view a := by
  have hdirty := h.core k
  split at hdirty
  · exact dirtyByte_none hdirty a
  · next hne => exact cleanByte_congr hdirty (hk hne)

theorem WentDown.clean_unit {c k a : Nat} (h : WentDown s t c) (hk : k / 8 ≠ c / 8 → cleanByte (s.getCluster (k / 8)).view a) :
    cleanByte (t.getCluster (k / 8)).view a := by
  have hdirty := h.unit (k / 8)
  split at hdirty
  · exact dirtyByte_none hdirty a
  · next hne => exact cleanByte_congr hdirty (hk hne)

/-- The stores of more cores are written down once those of the first are (R168). -/
theorem WentDown.writtenDown {r : State} {c : Nat} {cs : List Nat} {image : Nat → Prop} (h : WentDown s t c) (hr : WrittenDown t r cs image)
    (hcore : (r.getCore c).view.dirty = []) (hunit : (r.getCluster (c / 8)).view.dirty = []) : WrittenDown s r (c :: cs) image := by
  obtain ⟨hempty, hofCore, hofUnit, hkept⟩ := hr
  rw [h.pkg] at hofCore hofUnit hkept
  refine ⟨fun k hk => ?_, fun k hk a b hn hd hothers => ?_, fun k hk a b hn hd hothers => ?_, fun a hn hall => ?_⟩
  · rcases List.mem_cons.1 hk with rfl | hk
    · exact ⟨hcore, hunit⟩
    · exact hempty k hk
  · by_cases hkc : k = c
    · subst hkc
      refine (hkept a hn fun j hj => ?_).trans (h.ofCore a b hd (hothers k List.mem_cons_self).2)
      obtain ⟨hj1, hj2⟩ := hothers j (List.mem_cons_of_mem _ hj)
      exact ⟨h.clean_core hj1, h.clean_unit fun _ => hj2⟩
    · refine hofCore k ((List.mem_cons.1 hk).resolve_left hkc) a b hn (dirtyByte_congr ((h.core k).trans (if_neg hkc)) hd) fun j hj => ?_
      obtain ⟨hj1, hj2⟩ := hothers j (List.mem_cons_of_mem _ hj)
      exact ⟨fun hjk => h.clean_core fun _ => hj1 hjk, h.clean_unit fun _ => hj2⟩
  · have hclean : ∀ j ∈ cs, cleanByte (t.getCore j).view a := fun j hj => h.clean_core fun _ => (hothers j (List.mem_cons_of_mem _ hj)).1
    by_cases hkc : k / 8 = c / 8
    · have hd' : dirtyByte (s.getCluster (c / 8)).view a b := by rw [← hkc]; exact hd
      refine (hkept a hn fun j hj => ⟨hclean j hj, h.clean_unit fun hjc => ?_⟩).trans (h.ofUnit a b (hothers c List.mem_cons_self).1 hd')
      exact (hothers j (List.mem_cons_of_mem _ hj)).2 fun hjk => hjc (hjk.trans hkc)
    · have hk' : k ∈ cs := (List.mem_cons.1 hk).resolve_left fun hk => hkc (by rw [hk])
      exact hofUnit k hk' a b hn (dirtyByte_congr ((h.unit (k / 8)).trans (if_neg hkc)) hd) fun j hj =>
        ⟨hclean j hj, fun hjk => h.clean_unit fun _ => (hothers j (List.mem_cons_of_mem _ hj)).2 hjk⟩
  · obtain ⟨hc, hu⟩ := hall c List.mem_cons_self
    refine (hkept a hn fun j hj => ?_).trans (h.kept a hc hu)
    obtain ⟨hj1, hj2⟩ := hall j (List.mem_cons_of_mem _ hj)
    exact ⟨h.clean_core fun _ => hj1, h.clean_unit fun _ => hj2⟩

/-- Blocks publish what they have stored, and leave their cores one after the other. -/
def State.leave (s : State) (bs : List Block) : State :=
  bs.foldl (fun s b => ((s.publish b.coreId .home).raceAll b.coreId).removeBlock b.key) s

theorem State.leave_one (s : State) (b : Block) (h : (s.getCore b.coreId).raceQueue = []) :
    WentDown s (((s.publish b.coreId .home).raceAll b.coreId).removeBlock b.key) b.coreId := by
  have hdown := s.publish_wentDown b.coreId
  exact hdown.then ((SameStores.raceAll _ ((hdown.races b.coreId).trans h)).trans (SameStores.removeBlock _ _))

/-- What the leaving of a gang leaves (R168, R224). -/
theorem State.leave_writtenDown (bs : List Block) (s : State) (h : ∀ b ∈ bs, (s.getCore b.coreId).raceQueue = []) :
    WrittenDown s (s.leave bs) (bs.map (·.coreId)) (fun _ => False) ∧
    (∀ k, (s.getCore k).view.dirty = [] → ((s.leave bs).getCore k).view.dirty = []) ∧
    (∀ k, (s.getCluster k).view.dirty = [] → ((s.leave bs).getCluster k).view.dirty = []) ∧
    (∀ p, p ≠ s.pkg → ((s.leave bs).pm p).bytes = (s.pm p).bytes) ∧
    (s.leave bs).hub = s.hub ∧ (s.leave bs).pkg = s.pkg ∧ (s.leave bs).saved = s.saved := by
  induction bs generalizing s with
  | nil => exact ⟨⟨nofun, nofun, nofun, fun _ _ _ => rfl⟩, fun _ h => h, fun _ h => h, fun _ _ => rfl, rfl, rfl, rfl⟩
  | cons b bs ih =>
    have hone := s.leave_one b (h b List.mem_cons_self)
    rw [show s.leave (b :: bs) = (((s.publish b.coreId .home).raceAll b.coreId).removeBlock b.key).leave bs from rfl]
    generalize ((s.publish b.coreId .home).raceAll b.coreId).removeBlock b.key = y at hone ⊢
    obtain ⟨hdown, hcores, hunits, hother, hhub, hpkg, hsaved⟩ := ih y fun x hx => (hone.races _).trans (h x (List.mem_cons_of_mem _ hx))
    refine ⟨hone.writtenDown hdown (hcores _ ((hone.core _).trans (if_pos rfl))) (hunits _ ((hone.unit _).trans (if_pos rfl))), fun k hk => hcores k ?_,
      fun k hk => hunits k ?_, fun p hp => (hother p (by rwa [hone.pkg])).trans (hone.elsewhere p hp), hhub.trans hone.hub, hpkg.trans hone.pkg,
      hsaved.trans hone.saved⟩
    · rw [hone.core, hk, ite_self]
    · rw [hone.unit, hk, ite_self]

/-! ### The image -/

/-- Bytes written at their homes change no other byte, no view and nothing of the hub. -/
theorem foldl_imageBytes (byte : State → Nat → Byte) (es : List (Nat × Nat)) (s : State) :
    let t := es.foldl (fun s a => s.homeWrite s.pkg a.1 (byte s a.2) (2 ^ 32) 0) s
    t.core = s.core ∧ t.cores = s.cores ∧ t.clusters = s.clusters ∧ s.onlyStores t ∧ (∀ p, p ≠ s.pkg → (t.pm p).bytes = (s.pm p).bytes) ∧
      ∀ a, (∀ e ∈ es, e.1 ≠ a) → (t.pm s.pkg).bytes.read a = (s.pm s.pkg).bytes.read a := by
  induction es generalizing s with
  | nil => exact ⟨rfl, rfl, rfl, s.onlyStores_refl, fun _ _ => rfl, fun _ _ => rfl⟩
  | cons e es ih =>
    obtain ⟨hcore, hcores, hclus, hframe, hother, hread⟩ := ih (s.homeWrite s.pkg e.1 (byte s e.2) (2 ^ 32) 0)
    refine ⟨hcore, hcores, hclus, State.onlyStores_trans (State.onlyStores_refl _) hframe, fun p hp => (hother p hp).trans ?_, fun a ha => (hread a fun x hx => ha x (List.mem_cons_of_mem _ hx)).trans ?_⟩
    · simp [State.homeWrite, hp]
    · exact (State.homeWrite_read s _ _ _ _ _ _ a).trans (if_neg fun h => ha e List.mem_cons_self h.2.symm)

theorem State.writeImage_spec (s : State) (places : List Nat) :
    (∀ k, (s.writeImage places).getCore k = s.getCore k) ∧ (∀ k, (s.writeImage places).getCluster k = s.getCluster k) ∧ s.onlyStores (s.writeImage places) ∧
    (∀ p, p ≠ s.pkg → ((s.writeImage places).pm p).bytes = (s.pm p).bytes) ∧
    ∀ a, a ∉ places → ((s.writeImage places).pm s.pkg).bytes.read a = (s.pm s.pkg).bytes.read a := by
  obtain ⟨hcore, hcores, hclus, hframe, hother, hread⟩ := foldl_imageBytes (fun s i => Config.imageByte s.freeCount i) places.zipIdx s
  refine ⟨State.getCore_congr hcore hcores, State.getCluster_congr hclus, hframe, hother, fun a ha => hread a fun e he hea => ha ?_⟩
  rw [← hea]
  exact List.fst_mem_of_mem_zipIdx he

/-- What is kept of a gang that leaves (R225). -/
def State.gangKept (s : State) (bs : List Block) (uid area len : Nat) : SavedGang :=
  { launchUid := uid, area := area, len := len, blocks := bs,
    teams := ((bs.flatMap fun b => s.ctxsOf b.key).filter fun t => decide (t.kind = .team)).map Team.image,
    streams := (bs.flatMap fun b => s.ctxsOf b.key).filter fun t => decide (t.kind ≠ .team) }

theorem State.saveGang_eq (s : State) (bs : List Block) (uid area len : Nat) :
    s.saveGang bs uid area len = { s.leave bs with saved := (s.leave bs).saved ++ [s.gangKept bs uid area len] } := rfl

theorem State.mem_gangKept {bs : List Block} {uid area len : Nat} {tm : Team} (h : tm ∈ (s.gangKept bs uid area len).teams) :
    ∃ o ∈ tvals s.teamTbl, tm = o.image := by
  obtain ⟨o, ho, rfl⟩ := List.mem_map.1 h
  obtain ⟨b, -, hb⟩ := List.mem_flatMap.1 (List.mem_of_mem_filter ho)
  exact ⟨o, List.mem_of_mem_filter hb, rfl⟩

/-- A byte of the image area lies in a page of the launch's own world (R225, R273). -/
theorem State.imageAt_owned {l : Launch} {off a : Nat} (h : s.imageAt l off = some a) : (s.pm s.pkg).ownedBy l.world (a / 65536) = true := by
  unfold State.imageAt at h
  split at h
  · cases h
  split at h
  · cases h
  dsimp only at h
  split at h
  · next hok =>
    simp only [Bool.and_eq_true] at hok
    exact Option.some.inj h ▸ hok.2
  · cases h

/-- Blocks without copies have none to stop (R162). -/
theorem State.stopCopies_idle {bs : List Block} (h : ∀ x ∈ bs, s.getBlk x.key = some x ∧ x.cpFifo = []) : s.stopCopies bs = some s := by
  induction bs with
  | nil => rfl
  | cons b bs ih =>
    obtain ⟨hb, hcp⟩ := h b List.mem_cons_self
    unfold State.stopCopies
    rw [hb]
    dsimp only
    rw [hcp]
    exact ih fun x hx => h x (List.mem_cons_of_mem _ hx)

theorem engineSettled_of {bs : List Block} (h : ∀ x ∈ bs, x.cpFifo = [] ∧ ∀ y ∈ x.mxFifo, y.finished = false ∧ (y.started = true → y.cmd = .mm)) : engineSettled bs = true := by
  unfold engineSettled
  rw [List.all_eq_true]
  intro x hx
  obtain ⟨hcp, hmx⟩ := h x hx
  rw [hcp, List.all_nil, Bool.and_true, List.all_eq_true]
  intro y hy
  obtain ⟨hfin, hmm⟩ := hmx y hy
  rw [hfin]
  cases hst : y.started with
  | false => rfl
  | true => simp [hmm hst]

/-- The save of a gang whose engines have settled (R139, R158, R224). -/
theorem exec_contextSave {k area len : Nat} {b : Block} {l : Launch} (hb : s.getBlk k = some b) (hl : l = (s.getLaunch b.launchUid).getD {})
    (hstop : s.gangStopped (s.gangOf b) = true) (hlen : 0 < len) (hok : s.imageOkAt l area len = true)
    (hidle : ∀ x ∈ s.gangOf b, s.getBlk x.key = some x ∧ x.cpFifo = []) (hset : engineSettled (s.gangOf b) = true) :
    exec (.contextSave ⟨k, area, len⟩) s =
      .next ((s.saveGang (s.gangOf b) b.launchUid area len).writeImage ((upList area len).filterMap (s.imageAt l))) := by
  subst hl
  show execContextSave ⟨k, area, len⟩ s = _
  unfold execContextSave
  simp only [hb, hstop, hok, State.stopCopies_idle hidle, hset]
  rw [if_neg (by simp; omega)]
  rfl

/-- A gang that has stopped is saved (R41, R224, R225). -/
theorem contextSave_completes {k area len : Nat} {b : Block} {l : Launch} (hb : s.getBlk k = some b) (hl : l = (s.getLaunch b.launchUid).getD {})
    (hstop : s.gangStopped (s.gangOf b) = true) (hlen : 0 < len) (hok : s.imageOkAt l area len = true)
    (hgang : ∀ x ∈ s.gangOf b, s.getBlk x.key = some x ∧ x.cpFifo = [] ∧ (s.getCore x.coreId).raceQueue = [] ∧
      ∀ y ∈ x.mxFifo, y.finished = false ∧ (y.started = true → y.cmd = .mm)) :
    Completes (.contextSave ⟨k, area, len⟩) s fun t => t.saved = s.saved ++ [s.gangKept (s.gangOf b) b.launchUid area len] ∧ t.hub = s.hub ∧
      (∀ p, p ≠ s.pkg → (t.pm p).bytes = (s.pm p).bytes) ∧
      WrittenDown s t ((s.gangOf b).map (·.coreId)) (fun a => ∃ i, i < len ∧ s.imageAt l (area + i) = some a) := by
  refine ⟨_, exec_contextSave hb hl hstop hlen hok (fun x hx => ⟨(hgang x hx).1, (hgang x hx).2.1⟩) (engineSettled_of fun x hx => ⟨(hgang x hx).2.1, (hgang x hx).2.2.2⟩), ?_⟩
  obtain ⟨hdown, -, -, hother, hhub, hpkg, hsaved⟩ := s.leave_writtenDown (s.gangOf b) fun x hx => (hgang x hx).2.2.1
  rw [State.saveGang_eq]
  obtain ⟨y, hy⟩ : ∃ y : State, y = { s.leave (s.gangOf b) with saved := (s.leave (s.gangOf b)).saved ++ [s.gangKept (s.gangOf b) b.launchUid area len] } := ⟨_, rfl⟩
  rw [← hy]
  have hyCore : ∀ k, y.getCore k = (s.leave (s.gangOf b)).getCore k := by rw [hy]; exact fun _ => rfl
  have hyUnit : ∀ k, y.getCluster k = (s.leave (s.gangOf b)).getCluster k := by rw [hy]; exact fun _ => rfl
  have hyPm : ∀ p, y.pm p = (s.leave (s.gangOf b)).pm p := by rw [hy]; exact fun _ => rfl
  have hyRest : y.saved = s.saved ++ [s.gangKept (s.gangOf b) b.launchUid area len] ∧ y.hub = s.hub ∧ y.pkg = s.pkg := by
    rw [hy]; exact ⟨by rw [hsaved], hhub, hpkg⟩
  clear hy
  obtain ⟨hySaved, hyHub, hyPkg⟩ := hyRest
  generalize s.leave (s.gangOf b) = x at hdown hother hyCore hyUnit hyPm
  obtain ⟨places, hplaces⟩ : ∃ ps, ps = (upList area len).filterMap (s.imageAt l) := ⟨_, rfl⟩
  rw [← hplaces]
  obtain ⟨hcore, hunit, hframe, hother2, hread⟩ := y.writeImage_spec places
  rw [hyPkg] at hother2 hread
  have hbyte : ∀ a, ¬ (∃ i, i < len ∧ s.imageAt l (area + i) = some a) → ((y.writeImage places).pm s.pkg).bytes.read a = (x.pm s.pkg).bytes.read a := fun a ha => by
    rw [hread a fun h => ha ?_, hyPm]
    rw [hplaces] at h
    obtain ⟨o, ho, hoa⟩ := List.mem_filterMap.1 h
    obtain ⟨hlo, hhi⟩ := mem_upList.1 ho
    exact ⟨o - area, by omega, by rw [show area + (o - area) = o by omega]; exact hoa⟩
  obtain ⟨hempty, hofCore, hofUnit, hkept⟩ := hdown
  refine ⟨(State.onlyStores_saved hframe).trans hySaved, (State.onlyStores_hub hframe).trans hyHub, fun p hp => (hother2 p hp).trans (by rw [hyPm, hother p hp]),
    fun c hc => ?_, fun c hc a v hn hd hall => ?_, fun c hc a v hn hd hall => ?_, fun a hn hall => ?_⟩
  · rw [hcore, hunit, hyCore, hyUnit]
    exact hempty c hc
  all_goals rw [hbyte a hn]
  · exact hofCore c hc a v not_false hd hall
  · exact hofUnit c hc a v not_false hd hall
  · exact hkept a not_false hall

/-! ### The places of a restored block -/

/-- The quarter that takes a team is one of the core's, and has a free slot (R40). -/
theorem bestQuarter_some {qs : QFree} {need q : Nat} (h : bestQuarter qs need = some q) : q < qs.length ∧ (qs.getD q (0, [])).2.length < 16 := by
  unfold bestQuarter at h
  refine List.foldlRecOn (motive := fun r : Option Nat => ∀ q, r = some q → q < qs.length ∧ (qs.getD q (0, [])).2.length < 16) _ _ ?_
    (fun r hr e he q hq => ?_) q h
  · exact nofun
  obtain ⟨hmem, hfree⟩ := List.mem_filter.1 he
  have hplace : e.2 < qs.length ∧ (qs.getD e.2 (0, [])).2.length < 16 := by
    have hget := List.mem_zipIdx_iff_getElem?.1 hmem
    obtain ⟨hlt, -⟩ := List.getElem?_eq_some_iff.1 hget
    rw [List.getD_eq_getElem?_getD, hget]
    exact ⟨hlt, of_decide_eq_true (Bool.and_eq_true_iff.1 hfree).2⟩
  cases r with
  | none => exact Option.some.inj hq ▸ hplace
  | some b =>
    dsimp only at hq
    split at hq
    · exact Option.some.inj hq ▸ hplace
    · exact Option.some.inj hq ▸ hr b rfl

/-- The first free slot of a quarter that has one. -/
theorem find_freeSlot {used : List Nat} (h : used.length < 16) : ∃ k, (upList 0 16).find? (fun k => k ∉ used) = some k ∧ k < 16 ∧ k ∉ used := by
  cases hf : (upList 0 16).find? fun k => decide (k ∉ used) with
  | none =>
    have hsub : upList 0 16 ⊆ used := fun k hk => by simpa using List.find?_eq_none.1 hf k hk
    have hle := (List.subperm_of_subset (upList_nodup 0 16) hsub).length_le
    rw [upList_length] at hle
    omega
  | some k => exact ⟨k, rfl, (by have := mem_upList.1 (List.mem_of_find?_eq_some hf); omega), by simpa using List.find?_some hf⟩

/-- The places of a block's teams are as many as its teams, free, and distinct (R40). -/
theorem fitTeams_places {need n : Nat} {qs : QFree} {ps : List (Nat × Nat)} (h : fitTeams need n qs = some ps) :
    ps.length = n ∧ ps.Nodup ∧ ∀ p ∈ ps, p.2 < 16 ∧ p.2 ∉ (qs.getD p.1 (0, [])).2 := by
  induction n generalizing qs ps with
  | zero => cases h; exact ⟨rfl, List.nodup_nil, nofun⟩
  | succ n ih =>
    unfold fitTeams at h
    cases hq : bestQuarter qs need with
    | none => rw [hq] at h; cases h
    | some q =>
      obtain ⟨hlt, hfree⟩ := bestQuarter_some hq
      obtain ⟨slot, hfind, hslot, hnew⟩ := find_freeSlot hfree
      rw [hq] at h
      dsimp only at h
      rw [hfind, Option.getD_some] at h
      split at h
      · cases h
      · next r hr =>
        cases h
        obtain ⟨hlen, hnodup, hall⟩ := ih hr
        have hset : ∀ p ∈ r, p.2 < 16 ∧ p ≠ (q, slot) ∧ p.2 ∉ (qs.getD p.1 (0, [])).2 := fun p hp => by
          obtain ⟨h16, hfreeP⟩ := hall p hp
          refine ⟨h16, fun hpq => ?_, fun hused => ?_⟩
          · rw [hpq, List.getD_eq_getElem?_getD, List.getElem?_set_self hlt] at hfreeP
            exact hfreeP List.mem_cons_self
          · by_cases hpq : p.1 = q
            · rw [hpq, List.getD_eq_getElem?_getD, List.getElem?_set_self hlt] at hfreeP
              exact hfreeP (List.mem_cons_of_mem _ (hpq ▸ hused))
            · rw [List.getD_eq_getElem?_getD, List.getElem?_set_ne (Ne.symm hpq), ← List.getD_eq_getElem?_getD] at hfreeP
              exact hfreeP hused
        refine ⟨by rw [List.length_cons, hlen], List.nodup_cons.2 ⟨fun hmem => (hset _ hmem).2.1 rfl, hnodup⟩, fun p hp => ?_⟩
        rcases List.mem_cons.1 hp with rfl | hp
        · exact ⟨hslot, hnew⟩
        · exact ⟨(hset p hp).1, (hset p hp).2.2⟩

theorem teamKey_inj {core q slot q' slot' : Nat} (h : slot < 16) (h' : slot' < 16) (hk : teamKey core q slot = teamKey core q' slot') : q = q' ∧ slot = slot' := by
  unfold teamKey at hk
  omega

/-! ### The contexts of a restored block -/

theorem State.getTeam_setTeam (s : State) {tm : Team} (h : tm.threads ≠ 0) (k : Nat) : (s.setTeam tm).getTeam k = if k = tm.key then some tm else s.getTeam k := by
  unfold State.setTeam
  by_cases hrun : s.team.key = tm.key ∧ s.team.threads ≠ 0
  · rw [if_pos hrun]
    unfold State.getTeam
    dsimp only
    by_cases hk : k = tm.key
    · rw [if_pos ⟨hk.symm, h⟩, if_pos hk]
    · rw [if_neg fun hx => hk hx.1.symm, if_neg hk, if_neg fun hx => hk (hx.1.symm.trans hrun.1)]
  · rw [if_neg hrun]
    unfold State.getTeam
    dsimp only
    by_cases hk : k = tm.key
    · subst hk
      rw [if_neg hrun, if_pos rfl, tget_tput_same]
    · rw [if_neg hk, tget_tput_ne _ _ _ hk]

theorem State.noneParked_setTeam (hn : NoneParked s) {tm : Team} (h : tm.parked = none) : NoneParked (s.setTeam tm) := by
  unfold State.setTeam
  split
  · exact ⟨h, hn.2⟩
  · refine ⟨hn.1, fun e he x hx => ?_⟩
    dsimp only at he
    unfold tput at he
    rw [if_neg (by simp)] at he
    rcases mem_tinsert he with rfl | he
    · exact Option.some.inj hx ▸ h
    · exact hn.2 e he x hx

/-- `t` is `s` but for its contexts. -/
def State.onlyTeams (s t : State) : Prop := t = { s with team := t.team, teams := t.teams }

theorem State.onlyTeams_refl (s : State) : s.onlyTeams s := rfl

theorem State.onlyTeams_trans {r : State} (h : r.onlyTeams s) (k : s.onlyTeams t) : r.onlyTeams t := by
  unfold State.onlyTeams at *
  rw [h] at k
  exact k

theorem State.onlyTeams_setTeam (s : State) (tm : Team) : s.onlyTeams (s.setTeam tm) := by
  unfold State.setTeam
  split <;> rfl

/-- The teams of a restored block take their places on a core. -/
def State.seatTeams (s : State) (core : Nat) (f : Nat → Nat) (ps : List (Team × Nat × Nat)) : State :=
  ps.foldl (fun s p => s.setTeam (p.1.restored core p.2.1 p.2.2 f)) s

/-- Each team is found under the number of its place, and only contexts have changed. -/
theorem State.seatTeams_spec (core : Nat) (f : Nat → Nat) (ps : List (Team × Nat × Nat)) (s : State) (hdistinct : (ps.map (·.2)).Nodup)
    (h : ∀ p ∈ ps, p.1.parked = none ∧ p.1.threads ≠ 0 ∧ p.2.2 < 16) :
    (∀ p ∈ ps, (s.seatTeams core f ps).getTeam (teamKey core p.2.1 p.2.2) = some (p.1.restored core p.2.1 p.2.2 f)) ∧
    (∀ k, (∀ p ∈ ps, k ≠ teamKey core p.2.1 p.2.2) → (s.seatTeams core f ps).getTeam k = s.getTeam k) ∧
    (NoneParked s → NoneParked (s.seatTeams core f ps)) ∧
    s.onlyTeams (s.seatTeams core f ps) := by
  induction ps generalizing s with
  | nil =>
    rw [show s.seatTeams core f [] = s from rfl]
    exact ⟨fun p hp => absurd hp List.not_mem_nil, fun _ _ => rfl, id, s.onlyTeams_refl⟩
  | cons p ps ih =>
    rw [List.map_cons, List.nodup_cons] at hdistinct
    obtain ⟨hpark, hthreads, hslot⟩ := h p List.mem_cons_self
    obtain ⟨hhere, helse, hparked, hframe⟩ := ih (s.setTeam (p.1.restored core p.2.1 p.2.2 f)) hdistinct.2 fun x hx => h x (List.mem_cons_of_mem _ hx)
    have hset := s.getTeam_setTeam (tm := p.1.restored core p.2.1 p.2.2 f) hthreads
    rw [show s.seatTeams core f (p :: ps) = (s.setTeam (p.1.restored core p.2.1 p.2.2 f)).seatTeams core f ps from rfl]
    refine ⟨fun x hx => ?_, fun k hk => ?_, fun hn => hparked (State.noneParked_setTeam hn hpark),
      State.onlyTeams_trans (s.onlyTeams_setTeam _) hframe⟩
    · rcases List.mem_cons.1 hx with rfl | hx
      · refine (helse _ fun y hy hkey => ?_).trans ((hset _).trans (if_pos rfl))
        obtain ⟨hq, hs⟩ := teamKey_inj hslot (h y (List.mem_cons_of_mem _ hy)).2.2 hkey
        exact hdistinct.1 (List.mem_map.2 ⟨y, hy, (Prod.ext hq hs).symm⟩)
      · exact hhere x hx
    · exact (helse k fun x hx => hk x (List.mem_cons_of_mem _ hx)).trans ((hset k).trans (if_neg (hk p List.mem_cons_self)))

/-! ### The restored block -/

/-- A block with its teams on its core, before the core refreshes (R41). -/
def State.seatBlock (s : State) (b : Block) (core : Nat) (f : Nat → Nat) (ps : List (Team × Nat × Nat)) (placement : Nat × Nat × List Nat) : State :=
  ((s.setBlk (b.restored core f)).seatTeams core f ps).modLaunch b.launchUid fun l => { l with placements := l.placements ++ [placement] }

/-- A block whose gang has no stream is put on its core, which then refreshes. -/
theorem State.restoreBlock_eq {g : SavedGang} {b : Block} (hts : ∀ tm ∈ g.teams, tm.blkKey = b.key) (hst : g.streams = []) (s : State) (core : Nat) (places : List (Nat × Nat)) :
    ∃ f placement, s.restoreBlock g b core places = ((s.seatBlock b core f (g.teams.zip places) placement).refresh core .home).relevel (clusterOf core) := by
  have hall : (g.teams.filter fun t => t.blkKey == b.key) = g.teams := List.filter_eq_self.2 fun tm htm => by simp [hts tm htm]
  unfold State.restoreBlock
  rw [hall, hst]
  exact ⟨_, _, rfl⟩

theorem State.getBlk_setBlk_same (s : State) (b : Block) : (s.setBlk b).getBlk b.key = some b := by
  unfold State.setBlk
  split
  · next h => exact if_pos ⟨rfl, h.2⟩
  · next h =>
    unfold State.getBlk
    dsimp only
    rw [if_neg h, tget_tput_same]

theorem State.modLaunch_frame (s : State) (u : Nat) (f : Launch → Launch) :
    s.modLaunch u f = { s with launch := (s.modLaunch u f).launch, launches := (s.modLaunch u f).launches } := by
  unfold State.modLaunch
  split
  · rfl
  · unfold State.setLaunch
    split <;> rfl

/-- What stands before the refresh: the block and its teams, and everything but blocks, contexts and launches as it was. -/
theorem State.seatBlock_spec {b : Block} {core : Nat} {f : Nat → Nat} {ps : List (Team × Nat × Nat)} {placement : Nat × Nat × List Nat} {y : State}
    (hy : y = s.seatBlock b core f ps placement) (hdistinct : (ps.map (·.2)).Nodup) (h : ∀ p ∈ ps, p.1.parked = none ∧ p.1.threads ≠ 0 ∧ p.2.2 < 16)
    (hn : NoneParked s) :
    (∀ p ∈ ps, y.getTeam (teamKey core p.2.1 p.2.2) = some (p.1.restored core p.2.1 p.2.2 f)) ∧ NoneParked y ∧ y.getBlk b.key = some (b.restored core f) ∧
    y.saved = s.saved ∧ y.mem = s.mem ∧ y.pkg = s.pkg ∧ y.clusters = s.clusters := by
  have hnBlk : NoneParked (s.setBlk (b.restored core f)) := by
    unfold NoneParked
    rw [State.setBlk_team, State.setBlk_teams]
    exact hn
  have hblk : (s.setBlk (b.restored core f)).getBlk b.key = some (b.restored core f) := State.getBlk_setBlk_same s (b.restored core f)
  obtain ⟨hteams, -, hparked, hframe⟩ := State.seatTeams_spec core f ps (s.setBlk (b.restored core f)) hdistinct h
  unfold State.seatBlock at hy
  generalize (s.setBlk (b.restored core f)).seatTeams core f ps = z at hy hteams hparked hframe
  have hrest : z.getBlk b.key = some (b.restored core f) ∧ z.saved = s.saved ∧ z.mem = s.mem ∧ z.pkg = s.pkg ∧ z.clusters = s.clusters := by
    rw [hframe]
    exact ⟨hblk, State.setBlk_saved _ _, State.setBlk_mem _ _, State.setBlk_pkg _ _, State.setBlk_clusters _ _⟩
  rw [hy, State.modLaunch_frame]
  exact ⟨hteams, hparked hnBlk, hrest⟩

/-- A refresh of a core at the homes, and its cluster's level behind it (R168, R217). -/
theorem State.refreshRelevel_spec (y : State) (core : Nat) :
    let t := (y.refresh core .home).relevel (clusterOf core)
    (t.getCore core).view.lines = [] ∧ (t.getCluster (clusterOf core)).view = {} ∧ ((y.getCluster (clusterOf core)).view.dirty = [] → t.mem = y.mem) ∧
    (∀ a, cleanByte (y.getCluster (clusterOf core)).view a → (t.pm y.pkg).bytes.read a = (y.pm y.pkg).bytes.read a) ∧
    (∀ a b, dirtyByte (y.getCluster (clusterOf core)).view a b → (t.pm y.pkg).bytes.read a = b) ∧
    y.onlyStores t ∧ y.keepsTeams t ∧ (NoneParked y → NoneParked t) := by
  intro t
  obtain ⟨-, hunit, hmem, -, hclean, hdirty, hframe, hteams, hheard⟩ := y.clusDown_all (clusterOf core)
  have ht : t = (((y.clusDown (clusterOf core) fun _ => true).modCore core fun x => { x with view := x.view.empty }).modCluster (clusterOf core)
    fun x => { x with view := x.view.empty }).relevel (clusterOf core) := rfl
  clear_value t
  generalize (y.clusDown (clusterOf core) fun _ => true) = z at hunit hmem hclean hdirty hframe hteams hheard ht
  have hcore := z.getCore_modCore (c := core) (f := fun x => { x with view := x.view.empty }) (fun _ => rfl) core
  have hcoreFrame := z.onlyStores_modCore core fun x => { x with view := x.view.empty }
  have hsame : (z.modCore core fun x => { x with view := x.view.empty }).clusters = z.clusters ∧ (z.modCore core fun x => { x with view := x.view.empty }).mem = z.mem ∧
      (z.modCore core fun x => { x with view := x.view.empty }).team = z.team ∧ (z.modCore core fun x => { x with view := x.view.empty }).teams = z.teams := by
    unfold State.modCore State.setCore; split <;> exact ⟨rfl, rfl, rfl, rfl⟩
  generalize (z.modCore core fun x => { x with view := x.view.empty }) = w at hcore hcoreFrame hsame ht
  obtain ⟨hclus, hwmem, hwteam, hwteams⟩ := hsame
  have htmem : t.mem = z.mem := by rw [ht]; exact hwmem
  have htteam : t.team = z.team ∧ t.teams = z.teams := by rw [ht]; exact ⟨hwteam, hwteams⟩
  have htcore : t.getCore core = w.getCore core := by rw [ht]; rfl
  have htview : (t.getCluster (clusterOf core)).view = (z.getCluster (clusterOf core)).view.empty := by
    rw [ht]
    unfold State.relevel
    rw [State.getCluster_modCluster, if_pos rfl, State.getCluster_modCluster, if_pos rfl, State.getCluster_congr hclus]
    unfold Cluster.setCur
    split <;> rfl
  have htframe : w.onlyStores t := by rw [ht]; rfl
  refine ⟨?_, ?_, fun h => htmem.trans (hmem h), fun a ha => ?_, fun a b hb => ?_, State.onlyStores_trans (State.onlyStores_trans hframe hcoreFrame) htframe,
    State.keepsTeams_trans hteams (State.keepsTeams_of_eq htteam.1 htteam.2), fun hn => ?_⟩
  · rw [htcore, hcore, if_pos rfl]
    rfl
  · rw [htview, hunit, if_pos rfl]
    rfl
  · rw [State.pm_congr htmem]
    exact hclean a ha
  · rw [State.pm_congr htmem]
    exact hdirty a b hb
  · have hz := hheard.noneParked hn
    unfold NoneParked at hz ⊢
    rw [htteam.1, htteam.2]
    exact hz

/-- The restore of a gang of one block whose first core takes it (R41). -/
theorem exec_contextRestore {k core : Nat} {g : SavedGang} {b : Block} {places : List (Nat × Nat)} (hg : s.saved[k]? = some g) (hcore : core < 576) (hb : g.blocks = [b])
    (hok : s.imageOkAt ((s.getLaunch g.launchUid).getD {}) g.area g.len = true)
    (hfit : ({ s with saved := s.saved.eraseIdx k } : State).fitSaved g ((s.getLaunch g.launchUid).getD {}) b core = some places) :
    exec (.contextRestore k core) s = .next (({ s with saved := s.saved.eraseIdx k } : State).restoreBlock g b core places).wakeAll := by
  show execContextRestore k core s = _
  obtain ⟨n, hn⟩ : ∃ n, 8 - core % 8 = n + 1 := ⟨7 - core % 8, by omega⟩
  unfold execContextRestore
  rw [hg, hn]
  dsimp only
  rw [if_neg (by simp only [Config.cores]; omega), hok, hb]
  simp only [upList, State.restoreAll, hfit, Bool.not_true, Bool.false_eq_true, if_false]

/-- A restored team has what was saved of it (R41, R195, R257). -/
theorem Team.restored_of_overhears {tm u : Team} {core q slot : Nat} {f : Nat → Nat} (h : (tm.restored core q slot f).overhears u) :
    u.v = tm.v ∧ u.s = tm.s ∧ u.p = tm.p ∧ u.pc = tm.pc ∧ u.cnt = tm.cnt ∧ u.stopped = tm.held ∧ u.stops = tm.stops.filter (fun c => decide (c ≠ .preempt)) ∧
      u.mon = if tm.mon = .armed then .triggered else tm.mon := by
  obtain ⟨hheard, hmon⟩ := h
  have hidle : (tm.restored core q slot f).mon ≠ .armed := by
    unfold Team.restored
    dsimp only
    split
    · nofun
    · assumption
  have hmon' := hmon hidle
  unfold Team.heard at hheard
  rw [hheard]
  exact ⟨rfl, rfl, rfl, rfl, rfl, rfl, rfl, hmon'⟩

/-- A saved gang of one block is restored (R41, R158, R195). -/
theorem contextRestore_completes {k core : Nat} {g : SavedGang} {b : Block} {places : List (Nat × Nat)} (hg : s.saved[k]? = some g) (hcore : core < 576) (hb : g.blocks = [b])
    (hts : ∀ tm ∈ g.teams, tm.blkKey = b.key ∧ tm.parked = none ∧ tm.threads ≠ 0) (hst : g.streams = []) (hn : NoneParked s)
    (hok : s.imageOkAt ((s.getLaunch g.launchUid).getD {}) g.area g.len = true)
    (hfit : ({ s with saved := s.saved.eraseIdx k } : State).fitSaved g ((s.getLaunch g.launchUid).getD {}) b core = some places) :
    Completes (.contextRestore k core) s fun t =>
      t.saved = s.saved.eraseIdx k ∧ ((s.getCluster (core / 8)).view.dirty = [] → t.mem = s.mem) ∧ (t.getCore core).view.lines = [] ∧
      (t.getCluster (core / 8)).view = {} ∧ (∀ a b, dirtyByte (s.getCluster (core / 8)).view a b → (t.pm s.pkg).bytes.read a = b) ∧
      (∀ a, cleanByte (s.getCluster (core / 8)).view a → (t.pm s.pkg).bytes.read a = (s.pm s.pkg).bytes.read a) ∧
      (∃ f, t.getBlk b.key = some (b.restored core f)) ∧
      ∀ (i : Nat) (tm : Team) (q slot : Nat), g.teams[i]? = some tm → places[i]? = some (q, slot) → ∃ u f, t.getTeam (teamKey core q slot) = some u ∧
        (tm.restored core q slot f).overhears u := by
  obtain ⟨x, hx⟩ : ∃ x : State, x = { s with saved := s.saved.eraseIdx k } := ⟨_, rfl⟩
  obtain ⟨f, placement, hrestore⟩ := x.restoreBlock_eq (g := g) (b := b) (fun tm htm => (hts tm htm).1) hst core places
  have hexec := exec_contextRestore hg hcore hb hok hfit
  rw [← hx, hrestore] at hexec
  have hplaces : places.length = g.teams.length ∧ places.Nodup ∧ ∀ p ∈ places, p.2 < 16 := by
    unfold State.fitSaved at hfit
    split at hfit
    · obtain ⟨hlen, hnodup, hall⟩ := fitTeams_places hfit
      rw [List.filter_eq_self.2 fun tm htm => by simp [(hts tm htm).1]] at hlen
      exact ⟨hlen, hnodup, fun p hp => (hall p hp).1⟩
    · cases hfit
  obtain ⟨hlen, hnodup, hslots⟩ := hplaces
  have hxn : NoneParked x := by rw [hx]; exact hn
  have hdistinct : ((g.teams.zip places).map (·.2)).Nodup := (List.map_snd_zip hlen.le).symm ▸ hnodup
  have hzip : ∀ p ∈ g.teams.zip places, p.1.parked = none ∧ p.1.threads ≠ 0 ∧ p.2.2 < 16 := fun p hp => by
    obtain ⟨hp1, hp2⟩ := List.of_mem_zip hp
    obtain ⟨-, hpark, hthreads⟩ := hts p.1 hp1
    exact ⟨hpark, hthreads, hslots p.2 hp2⟩
  obtain ⟨hteams, hyn, hyBlk, hySaved, hyMem, hyPkg, hyClus⟩ := State.seatBlock_spec (placement := placement) (b := b) (f := f) (core := core) rfl hdistinct hzip hxn
  generalize x.seatBlock b core f (g.teams.zip places) placement = y at hexec hteams hyn hyBlk hySaved hyMem hyPkg hyClus
  obtain ⟨hlines, hview, hmem, hclean, hdirty, hframe, hkeeps, hparked⟩ := y.refreshRelevel_spec core
  generalize (y.refresh core .home).relevel (clusterOf core) = t at hexec hlines hview hmem hclean hdirty hframe hkeeps hparked
  have ht := hparked hyn
  rw [State.wakeAll_awake (State.awake_of ht.1 ht.2)] at hexec
  have hrest : y.saved = s.saved.eraseIdx k ∧ y.mem = s.mem ∧ y.pkg = s.pkg ∧ y.getCluster (core / 8) = s.getCluster (core / 8) := by
    rw [hySaved, hyMem, hyPkg, State.getCluster_congr hyClus, hx]
    exact ⟨rfl, rfl, rfl, rfl⟩
  obtain ⟨hsSaved, hsMem, hsPkg, hsClus⟩ := hrest
  rw [show clusterOf core = core / 8 from rfl] at hview hmem hclean hdirty
  rw [hsClus] at hmem hclean hdirty
  rw [hsPkg] at hclean hdirty
  refine ⟨t, hexec, (State.onlyStores_saved hframe).trans hsSaved, fun h => (hmem h).trans hsMem, hlines, hview, hdirty, fun a ha => ?_, ⟨f, ?_⟩, fun i tm q slot hi hp => ?_⟩
  · rw [hclean a ha, State.pm_congr hsMem]
  · obtain ⟨hblk, hblocks⟩ := State.onlyStores_blk hframe
    unfold State.getBlk at hyBlk ⊢
    rw [hblk, hblocks]
    exact hyBlk
  · have hmemZip : (tm, q, slot) ∈ g.teams.zip places := List.mem_of_getElem? (List.getElem?_zip_eq_some.2 ⟨hi, hp⟩)
    obtain ⟨u, hu, hheard⟩ := hkeeps _ _ (hteams _ hmemZip)
    exact ⟨u, f, hu, hheard⟩

/-- Settles O42: a gang leaves its cores with its stores at their homes, core by core; a block of one gang finds its memory and registers on its core. -/
theorem contextEvents : Obligations.ContextEvents := by
  unfold Obligations.ContextEvents
  refine ⟨fun k area len b s hb => ?_, fun k core g b places s hg hcore hblocks hts hst hn hok hfit => ?_⟩
  · intro l hstop hlen hok hgang
    obtain ⟨t, ht, hsaved, hhub, hother, hdown⟩ := contextSave_completes hb rfl hstop hlen hok hgang
    refine ⟨t, ht, s.gangKept (s.gangOf b) b.launchUid area len, hsaved, rfl, rfl, rfl, rfl, hhub, hother, hdown, fun a i h => State.imageAt_owned h, fun tm htm => ?_⟩
    obtain ⟨o, ho, rfl⟩ := State.mem_gangKept htm
    exact ⟨o, ho, rfl, rfl, rfl, rfl, rfl, rfl, rfl, rfl, rfl, rfl⟩
  · obtain ⟨t, ht, hsaved, hmem, hlines, hview, hdirty, hclean, ⟨f, hblk⟩, hteams⟩ := contextRestore_completes hg hcore hblocks hts hst hn hok hfit
    refine ⟨t, ht, hsaved, hmem, hlines, hview, hdirty, hclean, ⟨_, hblk, rfl, rfl, rfl, rfl, rfl, rfl⟩, fun i tm q slot hi hp => ?_⟩
    obtain ⟨u, f, hu, hheard⟩ := hteams i tm q slot hi hp
    exact ⟨u, hu, Team.restored_of_overhears hheard⟩

end Sys2Proof.Machine
end

