-- ==== Sys2Proof/Proofs/CodeObjectEvent.lean ====
section
/-! PROOFS. The loader: when it takes an object, where the object's bytes stand, and the tables that the hub holds of it. -/

namespace Sys2Proof.Machine

open Sys2Proof Sys2Proof.Machine Sys2Proof.Claim

variable {s : State}

/-! ### The checks -/

/-- The 64 KiB pages that `n` bytes from a page's first byte on touch. -/
theorem forall_upList_pages_iff {P : Nat → Prop} {phys : Nat} (h : phys % 65536 = 0) (n : Nat) :
    (∀ p ∈ upList (phys / 65536) ((n + 65535) / 65536), P p) ↔ ∀ a, phys ≤ a → a < phys + n → P (a / 65536) := by
  constructor
  · intro hp a hlo hhi
    exact hp _ (mem_upList.2 (by omega))
  · intro ha p hp
    obtain ⟨hlo, hhi⟩ := mem_upList.1 hp
    have := ha (65536 * p) (by omega) (by omega)
    rwa [Nat.mul_div_cancel_left p (by omega)] at this

/-- What the loader asks of an object: its place (R66, R229), its contents (R55, R62 to R66), a world that is in use (log 12), and no page of Tumbler's under it (R272). -/
def State.takesObject (s : State) (world handle base phys : Nat) (image : List Byte) : Prop :=
  handle < 2 ^ 15 ∧ base % 65536 = 0 ∧ phys % 65536 = 0 ∧ phys + image.length ≤ 2 ^ 39 ∧ imageOk image = true ∧ s.world world ≠ .free ∧
    ∀ a, phys ≤ a → a < phys + image.length → (s.pm s.pkg).isMeta (a / 65536) = false

/-- The loader's test rejects exactly the objects that fail a check. -/
theorem State.objectRejected_iff {world handle base phys : Nat} {image : List Byte} :
    (2 ^ 15 ≤ handle ∨ base % 65536 ≠ 0 ∨ phys % 65536 ≠ 0 ∨ Config.memBytes < phys + image.length ∨ !imageOk image
      ∨ tget .free s.tumbler.worlds world = .free
      ∨ (upList (phys / 65536) ((image.length + 65535) / 65536)).any (s.pm s.pkg).isMeta) ↔ ¬ s.takesObject world handle base phys image := by
  rw [← not_iff_not, not_not]
  simp only [State.takesObject, not_or, Nat.not_le, Nat.not_lt, not_ne_iff, Bool.not_eq_true, Bool.not_eq_false', List.any_eq_false]
  refine and_congr_right fun _ => and_congr_right fun _ => and_congr_right fun hphys => and_congr_right fun _ => and_congr_right fun _ => and_congr_right fun _ => ?_
  exact forall_upList_pages_iff hphys _

/-! ### The bytes -/

/-- The bytes of an object reach their homes one after the other, the first one at `a`. -/
def State.placeBytes (s : State) (a : Nat) (bs : List (Byte × Nat)) : State :=
  bs.foldl (fun s b => s.homeWrite s.pkg (a + b.2) b.1 (2 ^ 32) 0) s

theorem State.placeBytes_onlyHeard (s : State) (a : Nat) (bs : List (Byte × Nat)) : OnlyHeard s (s.placeBytes a bs) :=
  OnlyHeard.foldl (fun _ _ => OnlyHeard.homeWrite _ _ _ _ _ _) bs s

/-- Tumbler alone says in which handle space a world's objects lie (R278): the bytes do not matter. -/
theorem State.placeBytes_handleSpace (s : State) (a : Nat) (bs : List (Byte × Nat)) (world : Nat) : (s.placeBytes a bs).handleSpace world = s.handleSpace world :=
  foldl_same (g := fun s => s.handleSpace world) (f := fun s (b : Byte × Nat) => s.homeWrite s.pkg (a + b.2) b.1 (2 ^ 32) 0) (fun _ _ => rfl) bs s

/-- A byte written at its home is written in that package's memory alone. -/
theorem State.homeWrite_bytes (s : State) (p a : Nat) (b : Byte) (k th q : Nat) :
    ((s.homeWrite p a b k th).pm q).bytes = if q = p then (s.pm q).bytes.write a b else (s.pm q).bytes := by
  rw [State.homeWrite, State.pm_mapTeams, State.pm_modPm]
  split
  · next h => rw [h]
  · rfl

/-- The running package's memory takes the bytes in a row, every other one's stays. -/
theorem State.placeBytes_bytes (a n : Nat) (bs : List Byte) (s : State) (q : Nat) :
    ((s.placeBytes a (bs.zipIdx n)).pm q).bytes = if q = s.pkg then (s.pm q).bytes.writeBytes (a + n) bs else (s.pm q).bytes := by
  induction bs generalizing n s with
  | nil => exact (ite_self _).symm
  | cons b bs ih =>
    refine (ih (n + 1) _).trans ?_
    rw [State.homeWrite_bytes, (OnlyHeard.homeWrite s _ _ _ _ _).pkg]
    split <;> rfl

/-- The image stands from `phys` on, and every other byte of every package is as before (R66). -/
theorem State.placeBytes_read (s : State) (phys : Nat) (image : List Byte) (p a : Nat) :
    ((s.placeBytes phys image.zipIdx).pm p).bytes.read a =
      if p = s.pkg ∧ phys ≤ a ∧ a < phys + image.length then image.getD (a - phys) 0 else (s.pm p).bytes.read a := by
  rw [State.placeBytes_bytes, Nat.add_zero]
  by_cases hp : p = s.pkg
  · rw [if_pos hp, mem_read_writeBytes]
    exact if_congr (and_iff_right hp).symm rfl rfl
  · rw [if_neg hp, if_neg fun h => hp h.1]

/-- What hears of a write keeps its registers and its place in the text. -/
theorem Team.heard.sameRegs {tm u : Team} (h : tm.heard u) : SameRegs tm u ∧ u.pc = tm.pc := by
  unfold Team.heard at h
  rw [h]
  exact ⟨⟨fun _ _ => rfl, fun _ => rfl, fun _ _ => rfl⟩, rfl⟩

/-! ### The tables -/

/-- An entry of a list made number by number. -/
theorem eq_of_getElem?_map_upList {α : Type} {f : Nat → α} {n i : Nat} {x : α} (h : ((upList 0 n).map f)[i]? = some x) : x = f i := by
  rw [upList_zero_eq_range, List.getElem?_map, Option.map_eq_some_iff] at h
  obtain ⟨j, hj, rfl⟩ := h
  obtain ⟨_, rfl⟩ := List.getElem?_eq_some_iff.1 hj
  rw [List.getElem_range]

section
variable (img : List Byte)

/-- Header word 2 counts the kernels, word 8 the safe points (R62). -/
theorem codeObjOf_lengths (owner : Option Nat) (handle base : Nat) (ends : List Nat) :
    (codeObjOf img owner handle base ends).kernels.length = imgWord img 8 ∧ (codeObjOf img owner handle base ends).safePoints.length = imgWord img 32 := by
  simp [codeObjOf, hdr]

/-- A kernel's descriptor stands at 64 + 64·i, its name first (R63). -/
theorem kernelOf_fields (i : Nat) :
    (kernelOf img i).entry = imgWord img (96 + 64 * i) ∧ (kernelOf img i).team = imgWord img (100 + 64 * i) ∧
    (kernelOf img i).block = imgWord img (104 + 64 * i) ∧ (kernelOf img i).regs = imgWord img (108 + 64 * i) ∧
    (kernelOf img i).scratch = imgWord img (112 + 64 * i) ∧ (kernelOf img i).firstOrd = imgWord img (124 + 64 * i) ∧
    (kernelOf img i).name = (img.drop (64 + 64 * i)).take 32 := by
  have hword (k : Nat) : kdWord img i k = imgWord img (64 + 4 * k + 64 * i) := congrArg (imgWord img) (by omega)
  exact ⟨hword 8, hword 9, hword 10, hword 11, hword 12, hword 15, rfl⟩

/-- A safe point's offset is bits 23:0 of word 1 of its entry (R64). -/
theorem safePointOf_off (i : Nat) : (safePointOf img i).off = imgWord img (imgWord img 28 + 28 * i + 4) % 2 ^ 24 :=
  congrArg (· % 2 ^ 24) (Nat.div_one _)

end

/-! ### The event -/

/-- The hub's tables with an object in place of one of its handle space and handle. -/
def Hub.withObject (h : Hub) (c : CodeObj) : Hub :=
  { h with codeObjs := h.codeObjs.filter (fun x => decide (x.owner ≠ c.owner) || decide (x.handle ≠ c.handle)) ++ [c] }

/-- A rejected object changes nothing (R66). -/
theorem exec_codeObjectLoad_rejected {world handle base phys : Nat} {image : List Byte} {ends : List Nat} (h : ¬ s.takesObject world handle base phys image) :
    exec (.codeObjectLoad ⟨world, handle⟩ base phys ⟨image, ends⟩) s = .next s :=
  if_pos (State.objectRejected_iff.2 h)

/-- The bytes go to memory, and the hub's tables take the object (R66, R229). -/
theorem exec_codeObjectLoad_taken {world handle base phys : Nat} {image : List Byte} {ends : List Nat} (h : s.takesObject world handle base phys image) :
    exec (.codeObjectLoad ⟨world, handle⟩ base phys ⟨image, ends⟩) s =
      .next { s.placeBytes phys image.zipIdx with hub := s.hub.withObject (codeObjOf image (s.handleSpace world) handle base ends) } := by
  refine (if_neg fun hr => State.objectRejected_iff.1 hr h).trans ?_
  dsimp only
  rw [← State.placeBytes, State.placeBytes_handleSpace, (s.placeBytes_onlyHeard phys image.zipIdx).hub]
  have hother : ∀ c : CodeObj, (c.handle != handle) = decide (c.handle ≠ handle) := fun c => by rw [bne, decide_not]; rfl
  simp only [hother]
  rfl

/-- Settles O45: an object that passes the checks stands in memory and in the hub's tables, and any other changes nothing. -/
theorem codeObjectEvent : Obligations.CodeObjectEvent := by
  unfold Obligations.CodeObjectEvent
  intro world handle base phys image ends s i ok space
  refine ⟨exec_codeObjectLoad_rejected, fun hok => ⟨_, exec_codeObjectLoad_taken hok, ?_⟩⟩
  have hheard := s.placeBytes_onlyHeard phys image.zipIdx
  obtain ⟨hregs, hpc⟩ := hheard.team.sameRegs
  have hspace : s.handleSpace world = space := if_congr beq_iff_eq rfl rfl
  obtain ⟨hkernels, hpoints⟩ := codeObjOf_lengths image (s.handleSpace world) handle base ends
  refine ⟨⟨codeObjOf image (s.handleSpace world) handle base ends, ?_, hspace, rfl, rfl, rfl, rfl, rfl, hkernels, hpoints, fun i k hk => ?_, fun i p hp => ?_⟩,
    s.placeBytes_read phys image, hheard.launch, hheard.blk, hregs, hpc⟩
  · rw [← hspace]; rfl
  · rw [eq_of_getElem?_map_upList hk]; exact kernelOf_fields image i
  · rw [eq_of_getElem?_map_upList hp]; exact safePointOf_off image i

end Sys2Proof.Machine
end

