-- ==== Sys2Proof/Proofs/FloatingWords.lean ====
section
/-! PROOFS. Floating arithmetic, minima and maxima, and comparisons. -/

namespace Sys2Proof.Machine

open Sys2Proof Sys2Proof.Machine Sys2Proof.Claim

/-- A legal floating word obeys the mix rule in either format. -/
theorem mixOk_of_floatOk {w : Bool} {d : Reg} {srcs : List Reg} (h : floatOk w d srcs = true) : mixOk d srcs = true := by
  cases w with
  | false => exact h
  | true =>
    simp only [floatOk, if_true, mixOk64, Bool.and_eq_true] at h
    exact h.1.1

/-- A word that runs an operation on the bits of A, B and D gives its encoding and its event. -/
theorem runsAs_floatWord {i : Instr} {w : Bool} {d a b : Reg} {op : Team → Nat → Nat → Nat → Nat × FEv} (h : floatOk w d [a, b] = true)
    (hi : ∀ s, exec i s = execAlu
      { dst := d, regs := [(d, wordsW w), (a, wordsW w), (b, wordsW w)], cycles := wordsW w,
        result := fun tm bix t =>
          { words := outF w (op tm (tm.rdF bix w a t) (tm.rdF bix w b t) (tm.rdF bix w d t)).1,
            events := evOf (fmtW w) (op tm (tm.rdF bix w a t) (tm.rdF bix w b t) (tm.rdF bix w d t)).2 } } s) :
    RunsAs i d (wordsW w) [(d, wordsW w), (a, wordsW w), (b, wordsW w)] (wordsW w)
      (fun tm bix t k => bitsWord (op tm (floatBits tm bix w a t) (floatBits tm bix w b t) (floatBits tm bix w d t)).1 k)
      fun tm bix t => ((op tm (floatBits tm bix w a t) (floatBits tm bix w b t) (floatBits tm bix w d t)).2.map fun e => 4 * (fmtW w).idx + e).toList := by
  refine runsAs_of hi rfl (fun tm bix t => ?_) mix_dV (mix2_dS (mixOk_of_floatOk h))
  obtain ⟨hlen, hword⟩ := outF_words w (op tm (tm.rdF bix w a t) (tm.rdF bix w b t) (tm.rdF bix w d t)).1
  rw [← Team.rdF_eq_floatBits, ← Team.rdF_eq_floatBits, ← Team.rdF_eq_floatBits]
  exact ⟨hlen, hword, rfl, evOf_eq _ _⟩

theorem floatArithmeticWordsClaim : FloatArithmeticWordsClaim := fun w _ _ _ h =>
  ⟨runsAs_floatWord (op := fun tm x y _ => fopAdd (fmtW w) (rndOf tm.rnd) x y) h fun _ => rfl,
    runsAs_floatWord (op := fun tm x y _ => fopSub (fmtW w) (rndOf tm.rnd) x y) h fun _ => rfl,
    runsAs_floatWord (op := fun tm x y _ => fopMul (fmtW w) (rndOf tm.rnd) x y) h fun _ => rfl,
    fun c => runsAs_floatWord (op := fun tm x y z => fopFma (fmtW w) (tm.mode c) x y z) h fun _ => rfl⟩

theorem floatCompareWordsClaim : FloatCompareWordsClaim := by
  refine ⟨fun w d a b h => ⟨?_, ?_⟩, fun w c p a b => ?_⟩
  · exact runsAs_floatWord (op := fun _ x y _ => (fmtW w).minmax false x y) h fun _ => rfl
  · exact runsAs_floatWord (op := fun _ x y _ => (fmtW w).minmax true x y) h fun _ => rfl
  · refine runsPred_of (a := aluFcmp w c p a b) (fun _ => rfl) fun tm bix t => ?_
    simp only [aluFcmp, Team.rdF_eq_floatBits]
    cases c <;> rfl

/-- Settles O8: each word runs one operation on the bits of its operands with the event of that operation, and `fcmp` writes one predicate. -/
theorem floatWords : Obligations.FloatWords := ⟨floatArithmeticWordsClaim, floatCompareWordsClaim⟩

end Sys2Proof.Machine
end

