-- ==== Sys2Proof/Proofs/PackedAndConvertWords.lean ====
section
/-! PROOFS. Packed floating words and `cvt`: what the enabled elements of a destination hold, and a word that writes nothing where none is enabled. -/

namespace Sys2Proof.Machine

open Sys2Proof Sys2Proof.Machine Sys2Proof.Claim

/-! ### Packed elements -/

/-- Element `i` of a word replaced by `x`, if PEN enables it (R82). -/
def putElement (pen : BitVec 2) (i x : Nat) (old : Word) : Word :=
  if pen.getLsbD i then merge (0xFFFF#32 <<< (16 * i)) old (BitVec.ofNat 32 (x * 2 ^ (16 * i))) else old

theorem putElement_getLsbD (pen : BitVec 2) {i j : Nat} (x : Nat) (old : Word) (hi : i < 2) (hj : j < 32) :
    (putElement pen i x old).getLsbD j =
      if pen.getLsbD i = true ∧ 16 * i ≤ j ∧ j < 16 * i + 16 then x.testBit (j - 16 * i) else old.getLsbD j := by
  unfold putElement
  split
  · rename_i hen
    rw [merge_getLsbD _ _ _ _ hj, elemMask_getLsbD hi hj, elemAt_getLsbD _ _ hj]
    by_cases h : 16 * i ≤ j ∧ j < 16 * i + 16
    · simp only [h, hen, and_self, decide_true, if_true, Bool.true_and]
    · simp only [h, and_false, decide_false, if_false, Bool.false_eq_true]
  · rename_i hen
    rw [if_neg fun h => hen h.1]

/-- The packed word of R82 is its two elements put one after the other. -/
theorem halves_eq_putElement (pen : BitVec 2) (old : Word) (f : Nat → Nat) : halves pen old f = putElement pen 1 (f 1) (putElement pen 0 (f 0) old) := by
  refine BitVec.eq_of_getLsbD_eq fun j hj => ?_
  rw [halves_getLsbD _ _ _ hj, putElement_getLsbD _ _ _ (by decide) hj, putElement_getLsbD _ _ _ (by decide) hj]
  by_cases hl : j < 16
  · have hh : ¬16 ≤ j := by omega
    have hl' : j < 32 := hj
    simp [hl, hh, hl']
  · have hh : 16 ≤ j ∧ j < 16 + 16 := by omega
    rw [if_neg hl]
    simp [hl, hh]

/-- An operation on each enabled element in turn gives the packed word of R82, and the events of the enabled elements. -/
theorem foldl_elements (pen : BitVec 2) (old : Word) (el : Nat → Nat × List Nat) :
    (upList 0 2).foldl (fun (z : Word × List Nat) i =>
      if pen.getLsbD i then (merge (0xFFFF#32 <<< (16 * i)) z.1 (BitVec.ofNat 32 ((el i).1 * 2 ^ (16 * i))), z.2 ++ (el i).2) else z) (old, []) =
    (halves pen old fun k => (el k).1, ((List.range 2).filter fun k => pen.getLsbD k).flatMap fun k => (el k).2) := by
  rw [halves_eq_putElement]
  simp only [putElement, upList, List.foldl_cons, List.foldl_nil, show List.range 2 = [0, 1] from rfl, List.filter_cons, List.filter_nil]
  cases pen.getLsbD 0 <;> cases pen.getLsbD 1 <;> simp

/-- What an operation on the enabled elements gives (R82, R98). -/
theorem packF_eq (g : FFmt) (pen : BitVec 2) (op : (Word → Nat) → Nat × FEv) (old : Word) :
    packF g pen op old =
      (halves pen old fun k => (op fun v => half v k).1, ((List.range 2).filter fun k => pen.getLsbD k).flatMap fun k => evOf g (op fun v => half v k).2) := by
  have h := foldl_elements pen old fun k => ((op fun v => half v k).1, evOf g (op fun v => half v k).2)
  simp only [← half_eq] at h ⊢
  exact h

/-! ### Packed words -/

/-- A word that runs an operation on the enabled elements of A, B and D gives their encodings and their events. -/
theorem runsAs_packedWord {i : Instr} {f : Bool} {d a b : Reg} {op : Team → Nat → Nat → Nat → Nat × FEv} (h : mixOk d [a, b] = true)
    (hi : ∀ s, exec i s = execAlu
      { dst := d, regs := [(d, 1), (a, 1), (b, 1)],
        result := fun tm bix t =>
          let r := packF (fmtP f) tm.pen (fun e => op tm (e (tm.rd bix a 0 t)) (e (tm.rd bix b 0 t)) (e (tm.rd bix d 0 t))) (tm.rd bix d 0 t)
          { words := [r.1], events := r.2 } } s) :
    RunsAs i d 1 [(d, 1), (a, 1), (b, 1)] 1
      (fun tm bix t _ => halves tm.pen (tm.rd bix d 0 t) fun k => (op tm (half (tm.rd bix a 0 t) k) (half (tm.rd bix b 0 t) k) (half (tm.rd bix d 0 t) k)).1)
      fun tm bix t => ((List.range 2).filter fun k => tm.pen.getLsbD k).flatMap fun k =>
        ((op tm (half (tm.rd bix a 0 t) k) (half (tm.rd bix b 0 t) k) (half (tm.rd bix d 0 t) k)).2.map fun e => 4 * (fmtP f).idx + e).toList := by
  refine runsAs_of hi rfl (fun tm bix t => ?_) mix_dV (mix2_dS h)
  dsimp only
  rw [packF_eq]
  refine ⟨rfl, fun k hk => ?_, rfl, ?_⟩
  · obtain rfl : k = 0 := by omega
    rfl
  · simp only [evOf_eq]

theorem packedFloatWordsClaim : PackedFloatWordsClaim := fun f _ _ _ h =>
  ⟨runsAs_packedWord (op := fun tm x y _ => fopAdd (fmtP f) (rndOf tm.rnd) x y) h fun _ => rfl,
    runsAs_packedWord (op := fun tm x y _ => fopSub (fmtP f) (rndOf tm.rnd) x y) h fun _ => rfl,
    runsAs_packedWord (op := fun tm x y _ => fopMul (fmtP f) (rndOf tm.rnd) x y) h fun _ => rfl,
    runsAs_packedWord (op := fun _ x y _ => (fmtP f).minmax false x y) h fun _ => rfl,
    runsAs_packedWord (op := fun _ x y _ => (fmtP f).minmax true x y) h fun _ => rfl,
    runsAs_packedWord (op := fun tm x y z => fopFma (fmtP f) (rndOf tm.rnd) x y z) h fun _ => rfl⟩

/-! ### A word in one state -/

/-- Writing a list of words to a scalar destination, or to none. -/
theorem Team.regsWritten_wrWords (tm : Team) {d : Reg} (hd : d.isV = false) (t : Nat) (ws : List Word) {val : Nat → Nat → Word}
    (hval : ∀ k, ws.getD k 0 = val tm.t0 k) : RegsWritten tm (tm.wrWords d t ws) d ws.length val := by
  refine ⟨tm.regEq_wrWords d t ws, fun u r => ?_, fun r => ?_, fun u p => Team.rdP_wrWords _ _ _ _ _ _⟩
  · rw [Team.rdV_wrWords]
    cases d with
    | v b => cases hd
    | _ => rfl
  · rw [Team.rdS_wrWords]
    cases d with
    | s b =>
      simp only [destS]
      by_cases hr : b.val ≤ r ∧ r < b.val + ws.length
      · rw [if_pos hr, if_pos hr]
        exact hval _
      · rw [if_neg hr, if_neg hr]
    | _ => rfl

/-- Threads that raise no event count none. -/
theorem laneEvents_nil (tm : Team) (scalar : Bool) : laneEvents tm scalar (fun _ => []) = [] := by
  simp [laneEvents]

/-- A register word that gives no predicate writes its words and counts its events. -/
theorem Alu.apply_words {a : Alu} {bix : Nat} {tm : Team} (hv : a.vector = false) (hp : ∀ t, (a.result tm bix t).pred = none) :
    a.apply bix tm =
      (if scalarFields a.regs then tm.wrWords a.dst 0 (a.result tm bix tm.t0).words
        else tm.actives.foldl (fun x t => x.wrWords a.dst t (a.result tm bix t).words) tm,
      laneEvents tm (scalarFields a.regs) fun t => (a.result tm bix t).events) := by
  unfold Alu.apply laneEvents
  rw [a.scalarForm_eq hv]
  cases scalarFields a.regs with
  | true => simp only [if_true, Team.wrScalar, hp]
  | false =>
    have hlane : (fun (x : Team) t => x.wrLane a.dst t (a.result tm bix t)) = fun (x : Team) t => x.wrWords a.dst t (a.result tm bix t).words := by
      funext x t
      simp only [Team.wrLane, hp]
    simp only [Bool.false_eq_true, if_false, List.flatMap_map]
    rw [Team.foldl_map_lanes (fun x t e => x.wrLane a.dst t e), hlane]

theorem execAlu_words {a : Alu} {s : State} (hv : a.vector = false) (hp : ∀ t, (a.result s.team s.blk.bix t).pred = none) (hw : s.team.windowFail a.regs = none) :
    execAlu a s = .next ((({ s with team := (a.apply s.blk.bix s.team).1 } : State).countEvents
      (laneEvents s.team (scalarFields a.regs) fun t => (a.result s.team s.blk.bix t).events)).finish (wordCost s.team a.regs a.cycles)) := by
  have hc : a.cost s.team = wordCost s.team a.regs a.cycles := by simp only [Alu.cost, wordCost, a.scalarForm_eq hv]
  simp only [execAlu, hw, hc, Alu.apply_words hv hp]

/-- A register word that gives `n` words in each thread of the state that it runs in writes them to its destination (R15, R296). -/
theorem Alu.regsWritten_apply {a : Alu} {bix : Nat} {tm : Team} {n : Nat} (hv : a.vector = false) (hp : ∀ t, (a.result tm bix t).pred = none)
    (hn : ∀ t, (a.result tm bix t).words.length = n) (hdV : a.dst.isV = true → scalarFields a.regs = false)
    (hdS : a.dst.isS = true → scalarFields a.regs = true) :
    RegsWritten tm (a.apply bix tm).1 a.dst n fun t k => (a.result tm bix t).words.getD k 0 := by
  rw [Alu.apply_words hv hp]
  cases hs : scalarFields a.regs with
  | true =>
    have hd : a.dst.isV = false := by simpa [hs] using hdV
    rw [← hn tm.t0]
    exact tm.regsWritten_wrWords hd 0 _ fun _ => rfl
  | false =>
    have hd : a.dst.isS = false := by simpa [hs] using hdS
    exact tm.regsWritten_lanes hd _ hn

/-! ### Conversions -/

/-- No packed type is wide (R74). -/
theorem wide_of_cvtPacked {x : CvtTy} (h : cvtPacked x = true) : x.wide = false := by
  cases x with
  | f16x2 | bf16x2 => rfl
  | _ => cases h

theorem mixOk_of_cvt {x y : CvtTy} {c : RndCode} {d a : Reg} (h : Instr.wf (.cvt x y c d a) = true) : mixOk d [a] = true := by
  simp only [Instr.wf, Bool.and_eq_true] at h
  exact h.1.1.2

/-- What `cvt` reads of its source for element `k` of a packed destination: that element, or a single source's value (R82). -/
def cvtSource (y : CvtTy) (tm : Team) (bix : Nat) (a : Reg) (t k : Nat) : Nat :=
  if cvtPacked y then half (tm.rd bix a 0 t) k else floatBits tm bix y.wide a t

/-- The source as the model reads it. -/
theorem cvtSource_eq (y : CvtTy) (tm : Team) (bix : Nat) (a : Reg) (t k : Nat) :
    (if cvtPacked y then tm.rdF bix y.wide a t / 2 ^ (16 * k) % 65536 else tm.rdF bix y.wide a t) = cvtSource y tm bix a t k := by
  unfold cvtSource
  split
  · rename_i hy
    rw [wide_of_cvtPacked hy]
    rfl
  · exact tm.rdF_eq_floatBits bix y.wide a t

section

variable {x y : CvtTy} {c : RndCode} {d a : Reg} {tm : Team} {bix : Nat}

/-- A packed destination takes each enabled element. -/
theorem aluCvt_result_packed (hx : cvtPacked x = true) (t : Nat) :
    (aluCvt x y c d a).result tm bix t =
      { words := [halves tm.pen (tm.rd bix d 0 t) fun k => (cvtOne x y (tm.mode c) (cvtSource y tm bix a t k)).1],
        events := ((List.range 2).filter fun k => tm.pen.getLsbD k).flatMap fun k => (cvtOne x y (tm.mode c) (cvtSource y tm bix a t k)).2 } := by
  have hfold := foldl_elements tm.pen (tm.rd bix d 0 t) fun k => cvtOne x y (tm.mode c) (cvtSource y tm bix a t k)
  simp only [← cvtSource_eq] at hfold ⊢
  simp only [aluCvt, cvtLane, hx, if_true]
  rw [hfold]

/-- With no element enabled a packed source gives nothing to a single destination. -/
theorem aluCvt_result_none (hx : cvtPacked x = false) (hy : cvtPacked y = true) (hpen : tm.pen = 0) (t : Nat) :
    (aluCvt x y c d a).result tm bix t = {} := by
  simp [aluCvt, cvtLane, hx, hy, hpen]

/-- A single destination takes one value: a single source, or the lowest enabled element of a packed one. -/
theorem aluCvt_result_single (hx : cvtPacked x = false) (h : cvtPacked y = true → tm.pen ≠ 0) (t : Nat) :
    (aluCvt x y c d a).result tm bix t =
      { words := outF x.wide (cvtOne x y (tm.mode c) (cvtSource y tm bix a t (if tm.pen.getLsbD 0 then 0 else 1))).1,
        events := (cvtOne x y (tm.mode c) (cvtSource y tm bix a t (if tm.pen.getLsbD 0 then 0 else 1))).2 } := by
  have hen : ¬((cvtPacked y && decide (tm.pen = 0)) = true) := by simpa using h
  rw [← cvtSource_eq]
  simp only [aluCvt, cvtLane, hx, Bool.false_eq_true, if_false, if_neg hen, apply_ite fun k => tm.rdF bix y.wide a t / 2 ^ (16 * k) % 65536]

/-- From single to single. -/
theorem runsAs_cvt_single (h : Instr.wf (.cvt x y c d a) = true) (hx : cvtPacked x = false) (hy : cvtPacked y = false) :
    RunsAs (.cvt x y c d a) d (wordsW x.wide) (aluCvt x y c d a).regs (aluCvt x y c d a).cycles
      (fun tm bix t k => bitsWord (cvtOne x y (tm.mode c) (floatBits tm bix y.wide a t)).1 k)
      fun tm bix t => (cvtOne x y (tm.mode c) (floatBits tm bix y.wide a t)).2 := by
  refine runsAs_of (a := aluCvt x y c d a) (fun _ => rfl) rfl (fun tm bix t => ?_) mix_dV (mix1_dS (mixOk_of_cvt h))
  rw [aluCvt_result_single hx (fun hp => absurd (hy.symm.trans hp) Bool.false_ne_true), cvtSource, if_neg (by rw [hy]; exact Bool.false_ne_true)]
  obtain ⟨hlen, hword⟩ := outF_words x.wide (cvtOne x y (tm.mode c) (floatBits tm bix y.wide a t)).1
  exact ⟨hlen, hword, rfl, rfl⟩

/-- Into a packed type. -/
theorem runsAs_cvt_packed (h : Instr.wf (.cvt x y c d a) = true) (hx : cvtPacked x = true) :
    RunsAs (.cvt x y c d a) d 1 (aluCvt x y c d a).regs (aluCvt x y c d a).cycles
      (fun tm bix t _ => halves tm.pen (tm.rd bix d 0 t) fun k => (cvtOne x y (tm.mode c) (cvtSource y tm bix a t k)).1)
      fun tm bix t => ((List.range 2).filter fun k => tm.pen.getLsbD k).flatMap fun k => (cvtOne x y (tm.mode c) (cvtSource y tm bix a t k)).2 := by
  refine runsAs_of (a := aluCvt x y c d a) (fun _ => rfl) rfl (fun tm bix t => ?_) mix_dV (mix1_dS (mixOk_of_cvt h))
  rw [aluCvt_result_packed hx]
  refine ⟨rfl, fun k hk => ?_, rfl, rfl⟩
  obtain rfl : k = 0 := by omega
  rfl

variable {s : State}

/-- With no element enabled a packed source writes nothing and counts nothing. -/
theorem exec_cvt_none (hx : cvtPacked x = false) (hy : cvtPacked y = true) (hw : s.team.windowFail (aluCvt x y c d a).regs = none) (hpen : s.team.pen = 0) :
    exec (.cvt x y c d a) s = .next (s.finish (wordCost s.team (aluCvt x y c d a).regs (aluCvt x y c d a).cycles)) := by
  have hres := aluCvt_result_none (c := c) (d := d) (a := a) (bix := s.blk.bix) hx hy hpen
  have hteam : ((aluCvt x y c d a).apply s.blk.bix s.team).1 = s.team := by
    rw [Alu.apply_words rfl fun t => by rw [hres]]
    simp only [hres]
    split
    · rfl
    · exact foldl_id (fun _ => rfl) _
  refine (execAlu_words (a := aluCvt x y c d a) rfl (fun t => by rw [hres]) hw).trans ?_
  simp only [hteam, hres, laneEvents_nil, countEvents_nil]

/-- From a packed type with an element enabled. -/
theorem exec_cvt_element (h : Instr.wf (.cvt x y c d a) = true) (hx : cvtPacked x = false) (hy : cvtPacked y = true)
    (hw : s.team.windowFail (aluCvt x y c d a).regs = none) (hpen : s.team.pen ≠ 0) :
    let el := fun (t : Nat) => cvtOne x y (s.team.mode c) (half (s.team.rd s.blk.bix a 0 t) (if s.team.pen.getLsbD 0 then 0 else 1))
    ∃ tm, RegsWritten s.team tm d (wordsW x.wide) (fun t k => bitsWord (el t).1 k) ∧
      exec (.cvt x y c d a) s =
        .next ((({ s with team := tm } : State).countEvents (laneEvents s.team (scalarFields (aluCvt x y c d a).regs) fun t => (el t).2)).finish
          (wordCost s.team (aluCvt x y c d a).regs (aluCvt x y c d a).cycles)) := by
  intro el
  have hres : ∀ t, (aluCvt x y c d a).result s.team s.blk.bix t = { words := outF x.wide (el t).1, events := (el t).2 } := fun t => by
    rw [aluCvt_result_single hx fun _ => hpen, cvtSource, if_pos hy]
  have hpred : ∀ t, ((aluCvt x y c d a).result s.team s.blk.bix t).pred = none := fun t => by rw [hres]
  have hout := fun t => outF_words x.wide (el t).1
  have hwords := Alu.regsWritten_apply (a := aluCvt x y c d a) rfl hpred (fun t => by rw [hres]; exact (hout t).1) mix_dV (mix1_dS (mixOk_of_cvt h))
  simp only [hres] at hwords
  refine ⟨_, hwords.congr (fun t _ => (hout t).2) (fun _ => (hout _).2), (execAlu_words (a := aluCvt x y c d a) rfl hpred hw).trans ?_⟩
  simp only [hres]

end

theorem convertWordsClaim : ConvertWordsClaim := fun _ _ _ _ _ h =>
  ⟨runsAs_cvt_single h, runsAs_cvt_packed h, fun hx hy _ hw => ⟨exec_cvt_none hx hy hw, exec_cvt_element h hx hy hw⟩⟩

/-- Settles O10: each enabled element takes its own result, and `cvt` runs by which of its two types is packed. -/
theorem packedFloatAndConvertWords : Obligations.PackedFloatAndConvertWords := ⟨packedFloatWordsClaim, convertWordsClaim⟩

end Sys2Proof.Machine
end

