-- ==== Sys2Proof/Proofs/MemoryFaultWords.lean ====
section
/-! PROOFS. A store to private memory of which one thread fails. The model keeps the private bytes of all threads of a team in one memory, byte `o` of thread `t` at 256·t + o (R146), so that location 256 of thread 0 is location 0 of thread 1; the statement takes them for two, of which a store to one leaves the other as it was. -/

namespace Sys2Proof.Machine

open Sys2Proof Sys2Proof.Machine Sys2Proof.Claim

variable {s t : State}

/-- Where no access in flight has bytes on their way, a private byte is the one that lies there. -/
theorem readLoc_priv (h : ∀ x ∈ s.team.inflight, x.writes = []) (th o : Nat) : s.readLoc (.priv th o) = s.team.priv.read (256 * th + o) := by
  have hnone : s.team.pendingAt (.priv th o) = none := by
    unfold Team.pendingAt
    rw [if_neg (show ¬ (Loc.priv th o).overX = true from Bool.false_ne_true)]
    refine List.foldlRecOn (motive := (· = none)) _ _ rfl fun r hr x hx => ?_
    rw [h x (List.mem_filter.1 hx).1]
    exact hr
  rw [State.readLoc, hnone]
  rfl

/-- Where writes stand as the statement says, a private byte that one of its names has written holds that value from the start under a name that none has. -/
theorem stands_priv_alias {ws : List (Loc × Byte)} (h : Stands s t ws) {th o th' o' : Nat} {b : Byte} (hnear : ∀ w ∈ ws, w.1.overX = false)
    (hw : lastAt ws (.priv th o) = some b) (hother : lastAt ws (.priv th' o') = none) (hplace : 256 * th' + o' = 256 * th + o) :
    s.readLoc (.priv th' o') = b :=
  calc s.readLoc (.priv th' o') = t.readLoc (.priv th' o') := (h.others (fun w hm p a he => by have := hnear w hm; rw [he] at this; cases this) _ hother).symm
    _ = t.readLoc (.priv th o) := by rw [readLoc_priv h.flights, readLoc_priv h.flights, hplace]
    _ = b := h.written _ _ hw

/-- Two threads that store to private memory: thread 0 at offset 2, which is misaligned for a word, and thread 1 the word 1 at offset 0. The launch has a trap entry. -/
def halfMisaligned : State :=
  { team := { threads := 2, regs := 8, blkKey := 1, v := [(0, [(2, 2), (3, 0x40000000)]), (1, [(3, 0x40000000), (4, 1)])] },
    blk := { key := 1, launchUid := 1 }, launch := { uid := 1, trapent := some 64 } }

/-- The store traps and names thread 0; the byte of thread 1 has been written, and reads as 1 as location 0 of thread 1 and as location 256 of thread 0. -/
theorem exec_stB32_halfMisaligned : ∃ t, exec (.stB32 (.v 4) (.v 2) 0 0) halfMisaligned = .next t ∧ tget 0 t.team.faultMask 0 = 1 ∧
    t.readLoc (.priv 1 0) = 1 ∧ t.readLoc (.priv 0 256) = 1 :=
  ⟨_, rfl, by decide, by decide, by decide⟩

/-- Refutes O26: in `halfMisaligned` a store traps whose thread 1 has written its private byte 0. The statement has location 256 of thread 0, which is the same byte, keep the 0 that it held. No pointer of thread 0 reaches that offset (R146), but the statement ranges over every location. -/
theorem not_memoryFaultWords : ¬ Obligations.MemoryFaultWords := by
  unfold Obligations.MemoryFaultWords
  rintro ⟨⟨hst, -⟩, -⟩
  have hset : halfMisaligned.settled := ⟨⟨rfl, rfl⟩, fun _ hm => (List.not_mem_nil hm).elim, rfl⟩
  have hwaits : ¬ waitsForLink halfMisaligned (.v 2) false 0 := by
    rintro ⟨-, -, t, ht, p, hp, -⟩
    have hnear : ∀ t ∈ accessors halfMisaligned false, halfMisaligned.farPkg (pointerOf halfMisaligned (.v 2) 0 t) = none := by decide
    rw [hnear t ht] at hp
    cases hp
  obtain ⟨hbad, -⟩ := hst (.v 4) (.v 2) 0 0 halfMisaligned (by decide) rfl (by decide) hset ⟨rfl, rfl, rfl⟩ (by decide) (fun _ _ _ => rfl) hwaits (.inl rfl)
  obtain ⟨t, hstands, -⟩ := hbad (by decide)
  have hold := stands_priv_alias hstands (th := 1) (o := 0) (th' := 0) (o' := 256) (b := 1) (by decide) (by decide) (by decide) rfl
  exact absurd hold (by decide)

end Sys2Proof.Machine
end

