-- ==== Sys2Proof/Proofs/PostWords.lean ====
section
/-! PROOFS. A discarded `cp` whose record names a block listed under another number than its own: its arrival goes to the block of that number, whose launch is captured, and the generation that it completes is recorded in main memory. -/

namespace Sys2Proof.Machine

open Sys2Proof Sys2Proof.Machine Sys2Proof.Claim

/-- A fault of the team's own copy awaits it, and its next `cp` names the second core of its gang. What stands under number 2 is a block of the launch that calls itself number 3, and number 3 is a block of a captured launch, whose replay buffer lies in a page that its table maps. No step of the model lists a block so, but the statement ranges over every table of blocks. -/
def misnumberedTarget : State :=
  { team := { threads := 1, blkKey := 1, launchUid := 1, s := [(0, 0x1501), (3, 4), (8, 16), (18, 4), (22, 0x2000000)],
              engFaults := [{ engine := .cp, origin := .team 0 0, cause := { cls := .translation } }] },
    blk := { key := 1, launchUid := 1, scratch := 256 }, launch := { uid := 1, gang := 2 },
    blocks := [(2, some { key := 3, launchUid := 1, bix := 1 }), (3, some { key := 3, launchUid := 2 })],
    launches := [(2, some { uid := 2, replay := 1, replayBuf := { en := true, base := 65536 } })],
    mem := doomedCapture.mem }

/-- The arrival of the discarded copy completes a generation of the captured launch's latch, and its record is written into main memory. -/
theorem exec_cp_misnumberedTarget : ∃ t, exec (.cp 0 (.s 0) 0) misnumberedTarget = .next t ∧ (t.pm 0).bytes.read 65539 ≠ 0 :=
  ⟨_, rfl, by decide⟩

theorem placed_misnumberedTarget : Placed misnumberedTarget :=
  ⟨by decide, by decide, rfl, rfl, rfl, fun _ h => (List.not_mem_nil h).elim⟩

/-- Refutes O33: in `misnumberedTarget` a `cp` is discarded, and main memory changes. -/
theorem not_postWords : ¬ Obligations.PostWords := by
  unfold Obligations.PostWords
  intro h
  obtain ⟨-, hcp, -⟩ := h 0 (.s 0) 0 misnumberedTarget rfl rfl ⟨fun _ h => (List.not_mem_nil h).elim, rfl⟩ rfl (by decide) (by decide) rfl
  obtain ⟨-, -, hdiscarded, -⟩ := hcp rfl rfl
  obtain ⟨t, ht, -, -, -, hmem⟩ := hdiscarded _ (by decide) rfl rfl rfl placed_misnumberedTarget
  obtain ⟨u, hu, hwritten⟩ := exec_cp_misnumberedTarget
  cases ht.symm.trans hu
  rw [State.pm, hmem] at hwritten
  exact hwritten (by decide)

end Sys2Proof.Machine
end

