-- ==== Sys2Proof/Proofs/EndEvents.lean ====
section
/-! PROOFS. The failure of a launch on which a launch depends that is listed under another number than its own: writing it back puts it in the failed launch's place. -/

namespace Sys2Proof.Machine

open Sys2Proof Sys2Proof.Machine Sys2Proof.Claim

/-- A running launch of number 1, and the two launches of `misnumbered`: number 5 depends on number 1, and what stands under number 5 calls itself number 1 and has an open run of atomic requests. No step of the model lists a launch so, but the statement ranges over every table of launches. -/
def misnumberedRunning : State :=
  { launches := (1, some { uid := 1, status := .running }) :: misnumbered.launches }

/-- Number 1 fails, its dependent with it, and the dependent's failure writes its namesake back under number 1. -/
theorem exec_launchFailure_misnumberedRunning :
    ∃ t, exec (.launchFailure 1 0x0C .uncorrectable 0 0 0) misnumberedRunning = .next t ∧ (t.getLaunch 1).map (·.status) = some .accepted :=
  ⟨_, rfl, by decide⟩

/-- Refutes O39: in `misnumberedRunning` a launch fails, and no failed launch stands under its number afterwards. -/
theorem not_endEvents : ¬ Obligations.EndEvents := by
  unfold Obligations.EndEvents
  rintro ⟨-, -, -, -, hfails, -⟩
  obtain ⟨t, ht, ⟨m, hm, -⟩, -⟩ :=
    hfails 1 { uid := 1, status := .running } misnumberedRunning 0x0C .uncorrectable 0 0 0 rfl rfl (by decide) (by decide) (by decide)
  obtain ⟨u, hu, haccepted⟩ := exec_launchFailure_misnumberedRunning
  cases ht.symm.trans hu
  rw [hm] at haccepted
  cases haccepted

end Sys2Proof.Machine
end

