-- ==== Sys2Proof/Proofs/EngineCompletionEvents.lean ====
section
/-! PROOFS. A step of a copy into a block that is listed under another number than its own: writing it back puts it in the issuing block's place. -/

namespace Sys2Proof.Machine

open Sys2Proof Sys2Proof.Machine Sys2Proof.Claim

/-- A copy of four FP32 elements from the scratchpad that names the second core of its gang. -/
def secondCoreCopy : CpEntry :=
  { record := [0x1501, 0x400, 0x10000000, 16, 0, 0, 0, 0, 16, 0, 0, 0, 0, 0, 0, 0, 0, 0, 4, 0, 0, 0, 0x2000000], latch := 0, origin := .team 0 0 }

/-- The issuing block, with a second copy behind the first. -/
def twoCopies : Block :=
  { key := 1, launchUid := 1, scratch := 65536, cpFifo := [secondCoreCopy, secondCoreCopy] }

/-- What stands under number 2 is a block of the launch that calls itself number 3, and what stands under number 3 calls itself number 1. No step of the model lists a block so, but the statement ranges over every table of blocks. -/
def misnumberedCopy : State :=
  { blk := twoCopies, launch := { uid := 1, gang := 2 },
    blocks := [(2, some { key := 3, launchUid := 1, bix := 1, scratch := 65536 }), (3, some { key := 1, launchUid := 2 })] }

/-- The write into the block under number 3 puts that block in the issuing block's place, whose second copy is lost. -/
theorem exec_copyStart_misnumberedCopy :
    ∃ t, exec (.copyStart 0 1) misnumberedCopy = .next t ∧ t.blk.cpFifo = [secondCoreCopy] :=
  ⟨_, rfl, by decide⟩

/-- Refutes O44: in `misnumberedCopy` a copy moves one unit, and its FIFO does not stay as it was. -/
theorem not_engineCompletionEvents : ¬ Obligations.EngineCompletionEvents := by
  unfold Obligations.EngineCompletionEvents
  rintro ⟨-, hcopy⟩
  obtain ⟨-, -, hmoves, -⟩ :=
    hcopy 0 twoCopies secondCoreCopy [secondCoreCopy] misnumberedCopy rfl rfl (by decide) (fun l hl => by cases hl; rfl)
  obtain ⟨t, ht, hlost⟩ := exec_copyStart_misnumberedCopy
  have hnear : ¬ copyWaits (misnumberedCopy.focusBlock twoCopies) (tlrOf secondCoreCopy.record) 0 (tlrOf secondCoreCopy.record).step := by
    rintro ⟨-, -, ⟨p, hp, -⟩, -⟩
    cases hp
  obtain ⟨m, ⟨s1, raw, -, -, -, -, hfifo, -⟩, rfl⟩ :=
    hmoves (by decide) (by decide) (by decide) hnear t ht (by rw [hlost]; decide)
  rw [hlost] at hfifo
  exact absurd hfifo (by decide)

end Sys2Proof.Machine
end

