-- ==== Sys2Proof/Proofs/StreamWords.lean ====
section
/-! PROOFS. `fork`, `join` and the matrix commands of a stream: when a context finds an entry of a FIFO, and what the words do where it finds one and where not. -/

namespace Sys2Proof.Machine

open Sys2Proof Sys2Proof.Machine Sys2Proof.Claim

variable {s : State}

/-! ### Entering a FIFO -/

/-- How many of the 16 entries of an engine's FIFO are taken. -/
def Block.fifoLength (b : Block) (e : Engine) : Nat :=
  match e with
  | .mx => b.mxFifo.length
  | .cp => b.cpFifo.length

theorem Block.fifoRoom_pos (b : Block) (e : Engine) : 0 < b.fifoRoom e ↔ b.fifoLength e < 16 := by
  cases e <;> exact Nat.sub_pos_iff_lt

/-- The order of `Team.fifoRank` is that of R136 and R160. -/
theorem fifoRank_lt (e : Engine) (o tm : Team) : o.fifoRank e < tm.fifoRank e ↔ entersBefore e o tm := by
  unfold Team.fifoRank entersBefore
  cases e <;> cases o.kind <;> cases tm.kind <;> simp <;> omega

theorem State.getBlk_running {k : Nat} (hk : s.blk.key ≠ 0) (h : k = s.blk.key) : s.getBlk k = some s.blk := by
  rw [State.getBlk, if_pos ⟨h.symm, h ▸ hk⟩]

/-- The running context may enter a FIFO where it finds an entry. -/
theorem State.mayEnter_iff {e : Engine} (hk : s.blk.key ≠ 0) (hb : s.team.blkKey = s.blk.key) :
    s.mayEnter s.team e = true ↔ entryFree s e (s.blk.fifoLength e) := by
  simp only [State.mayEnter, State.getBlk_running hk hb, Option.getD_some, Bool.and_eq_true, Bool.or_eq_true, Bool.not_eq_true', List.any_eq_false,
    decide_eq_true_eq, Block.fifoRoom_pos, fifoRank_lt, entryFree, otherCtxs, not_and, and_assoc]

/-- A launch that is not replayed enters its FIFO at once where it finds an entry. -/
theorem State.fifoWait_free {e : Engine} (hr : s.launch.replay = 0) (hk : s.blk.key ≠ 0) (hb : s.team.blkKey = s.blk.key)
    (h : entryFree s e (s.blk.fifoLength e)) : s.fifoWait e = none := by
  simp [State.fifoWait, (State.mayEnter_iff hk hb).2 h, State.fifoTurn, Launch.mayAct, hr]

theorem State.fifoWait_full {e : Engine} (hk : s.blk.key ≠ 0) (hb : s.team.blkKey = s.blk.key) (h : ¬ entryFree s e (s.blk.fifoLength e)) :
    s.fifoWait e = some (.fifo e) := by
  rw [State.fifoWait, if_neg fun hm => h ((State.mayEnter_iff hk hb).1 hm)]

/-- Nothing is noted of a launch that is neither captured nor replayed. -/
theorem State.noteFifo_same (e : Engine) (hr : s.launch.replay = 0) (hu : s.launch.uid ≠ 0) : s.noteFifo e = s := by
  have hnote : s.launch.note (fifoLoc s.blk e) (partyOf s.team) = s.launch := by simp [Launch.note, hr]
  have hget : s.getLaunch s.launch.uid = some s.launch := by rw [State.getLaunch, if_pos ⟨rfl, hu⟩]
  simp [State.noteFifo, hnote, State.arbRec, hget, hr]

/-! ### The matrix commands of a stream -/

theorem State.streamMx_free {c : MxCmd} {l : BitVec 5} {d : Reg} (hr : s.launch.replay = 0) (hu : s.launch.uid ≠ 0) (hk : s.blk.key ≠ 0)
    (hb : s.team.blkKey = s.blk.key) (h : entryFree s .mx s.blk.mxFifo.length) :
    s.streamMx c l d =
      ({ s with blk := { s.blk with mxFifo := s.blk.mxFifo ++ [{ s.mxEntryOf c l d with started := s.blk.mxFifo.isEmpty }] } } : State).finish 1 := by
  rw [State.streamMx, State.fifoWait_free (e := .mx) hr hk hb h]
  exact congrArg (State.finish · 1) (State.noteFifo_same (s := { s with blk := _ }) .mx hr hu)

theorem State.streamMx_full {c : MxCmd} {l : BitVec 5} {d : Reg} (hk : s.blk.key ≠ 0) (hb : s.team.blkKey = s.blk.key)
    (h : ¬ entryFree s .mx s.blk.mxFifo.length) : s.streamMx c l d = s.park (.fifo .mx) := by
  rw [State.streamMx, State.fifoWait_full (e := .mx) hk hb h]

/-- A word that posts its command as `State.streamMx` does runs as a stream's command. -/
theorem streamCommand_of {i : BitVec 5 → Reg → Instr} {c : MxCmd} (h : ∀ l d s, exec (i l d) s = .next (s.streamMx c l d)) : StreamCommand i c (mxLen c) := by
  intro l d s hr hu hk hb
  refine ⟨fun hfree => ⟨{ s.mxEntryOf c l d with started := s.blk.mxFifo.isEmpty }, rfl, rfl, ?_, rfl, rfl, rfl, rfl, rfl, rfl, ?_⟩, fun hfull => ?_⟩
  · exact congrArg (List.map _) (upList_zero_eq_range _)
  · rw [h, State.streamMx_free hr hu hk hb hfree]
  · rw [h, State.streamMx_full hk hb hfull]
    rfl

theorem streamCommandWordsClaim : StreamCommandWordsClaim :=
  ⟨streamCommand_of fun _ _ _ => rfl, streamCommand_of fun _ _ _ => rfl, streamCommand_of fun _ _ _ => rfl, streamCommand_of fun _ _ _ => rfl,
    streamCommand_of fun _ _ _ => rfl⟩

/-! ### `fork` and `join` -/

theorem State.completeOn_idle (h : s.team.inflight = []) (q : Path) : s.completeOn q = s := by
  rw [State.completeOn, h]
  rfl

/-- `fork` where nothing is in flight. -/
theorem exec_fork (h : s.team.inflight = []) (e : Engine) : exec (.fork e) s =
    .next (if !s.blk.hasStream e then s.illegal 0x35 false
      else if s.blk.running e then s.park (.fork e)
      else (s.startStream s.blk.key e s.team.pc s.team.s).finish 1) := by
  show execFork e s = _
  have hsettle : s.settle [.s] = s := State.completeOn_idle h .s
  unfold execFork
  rw [hsettle]
  dsimp only
  split
  · rfl
  · split <;> rfl

/-- A team that has not joined, with nothing outstanding, is the team that `join` finds. -/
theorem Team.flush_notJoined {tm : Team} (hp : tm.pend = []) (hf : tm.inflight = []) (hj : tm.joined = false) : ({ tm.flush with joined := false } : Team) = tm := by
  rw [Team.flush_settled hp hf, ← hj]

/-- `join` waits while the stream runs or its work is left. -/
theorem exec_join_waits (hs : s.settled) (hj : s.team.joined = false) {e : Engine} (hw : s.blk.joinHolds e = false) :
    exec (.join e) s = .next (s.park (.join e)) := by
  show execJoin e s = _
  unfold execJoin
  rw [Team.flush_notJoined hs.1.2 hs.1.1 hj]
  dsimp only
  rw [if_pos (by simp [hj, hw])]

/-- `join` where the stream is over takes a fault of the stream, or goes on. -/
theorem exec_join_over (hs : s.settled) (hj : s.team.joined = false) (hf : s.team.engFaults = []) {e : Engine} (ho : s.blk.joinHolds e = true) :
    exec (.join e) s = .next (match s.blk.streamFaults.find? fun f => decide (f.engine = e) with
      | some f => ({ s with blk := { s.blk with streamFaults := s.blk.streamFaults.erase f } } : State).takeTrap f.cause
      | none => s.finish 1) := by
  have hnone : s.takeEngFault (fun f => decide (f.engine = e)) = none := by rw [State.takeEngFault, hf]; rfl
  show execJoin e s = _
  unfold execJoin
  rw [Team.flush_notJoined hs.1.2 hs.1.1 hj]
  dsimp only
  rw [if_neg (by simp [ho]), hnone]
  cases s.blk.streamFaults.find? fun f => decide (f.engine = e) <;> rfl

/-- A command of the block's stream is left in the engine's FIFO. -/
def Block.streamLeft (b : Block) : Engine → Bool
  | .mx => b.mxFifo.any fun x => decide (x.origin = .mxStream) && !x.mtsr
  | .cp => b.cpFifo.any fun x => decide (x.origin = .cpStream)

/-- What is left of a stream's own work keeps `join` waiting (R134, R163). -/
theorem Block.joinHolds_iff (b : Block) (e : Engine) : b.joinHolds e = true ↔ b.running e = false ∧ b.streamLeft e = false := by
  unfold Block.joinHolds Block.streamLeft
  cases e <;> simp [Bool.and_eq_true]

/-- The first word of a block's stream. -/
def Block.streamWord (b : Block) : Engine → Option Nat
  | .mx => b.mxEntry
  | .cp => b.cpEntry

/-- A block whose stream a `fork` at `pc` has started. -/
def Block.forked (b : Block) (pc : Nat) : Engine → Block
  | .mx => { b with mxRun := true, mxForkPc := pc }
  | .cp => { b with cpRun := true, cpForkPc := pc }

/-- The stream that `fork` starts is a context of its own. -/
theorem State.startStream_eq {e : Engine} {first : Nat} (hk : s.blk.key ≠ 0) (hkey : s.team.key ≠ streamKey s.blk.coreId e)
    (h : s.blk.streamWord e = some first) :
    s.startStream s.blk.key e s.team.pc s.team.s =
      { s with blk := s.blk.forked s.team.pc e, teams := tput none s.teams (streamKey s.blk.coreId e) (some (streamCtx s.blk e first s.team.s)) } := by
  have hother : ¬ (s.team.key = streamKey s.blk.coreId e ∧ s.team.threads ≠ 0) := fun hc => hkey hc.1
  have hkeys : s.blk.key = (s.blk.forked s.team.pc e).key ∧ (s.blk.forked s.team.pc e).key ≠ 0 := by cases e <;> exact ⟨rfl, hk⟩
  have hstart : s.startStream s.blk.key e s.team.pc s.team.s =
      (s.setBlk (s.blk.forked s.team.pc e)).setTeam (streamCtx s.blk e ((s.blk.streamWord e).getD 0) s.team.s) := by
    unfold State.startStream
    rw [State.getBlk_running hk rfl]
    cases e <;> rfl
  rw [hstart, h, State.setBlk, if_pos hkeys, State.setTeam]
  exact if_neg hother

theorem streamWordsClaim : StreamWordsClaim := by
  intro e s hs hj hk hkey has runs left
  have hflight : s.team.inflight = [] := hs.1.1
  have hruns : s.blk.running e = runs := by cases e <;> rfl
  have hhas : s.blk.hasStream e = has.isSome := by cases e <;> rfl
  have hleft : s.blk.streamLeft e = left := by cases e <;> rfl
  have hjoin : s.blk.joinHolds e = true ↔ runs = false ∧ left = false := by
    rw [Block.joinHolds_iff, hruns, hleft]
  refine ⟨fun h => ?_, fun h hr => ?_, fun first h hr => ?_, fun h => ?_, fun hr hl hf hsf => ?_, fun hr hl hf f hsf hfe => ?_⟩
  · rw [exec_fork hflight, hhas, h]
    rfl
  · rw [exec_fork hflight, hhas, Option.isSome_iff_ne_none.2 h, hruns, hr]
    rfl
  · rw [exec_fork hflight, hhas, h, hruns, hr]
    have hword : s.blk.streamWord e = some first := by cases e <;> exact h
    exact ⟨s.blk.forked s.team.pc e, streamCtx s.blk e first s.team.s, by cases e <;> rfl, rfl,
      congrArg (fun t : State => Host.Outcome.next (t.finish 1)) (State.startStream_eq hk hkey hword)⟩
  · have hn : s.blk.joinHolds e = false := by
      rw [← Bool.not_eq_true, hjoin]
      rintro ⟨h1, h2⟩
      rcases h with h | h <;> simp_all
    rw [exec_join_waits hs hj hn]
    rfl
  · rw [exec_join_over hs hj hf (hjoin.2 ⟨hr, hl⟩), hsf]
    rfl
  · rw [exec_join_over hs hj hf (hjoin.2 ⟨hr, hl⟩), hsf]
    simp [hfe]

/-- Settles O32: a stream's word enters the FIFO where `State.mayEnter` finds an entry, and `fork` and `join` follow `Block.running` and `Block.joinHolds`. -/
theorem streamWords : Obligations.StreamWords := ⟨streamWordsClaim, streamCommandWordsClaim⟩

end Sys2Proof.Machine
end

