-- ==== Sys2Proof/Proofs/BlockFrames.lean ====
section
/-! PROOFS. The operations of the state that change no block, one rule for each, for the proofs about records, watches and engines. -/

namespace Sys2Proof.Machine

open Sys2Proof Sys2Proof.Machine Sys2Proof.Claim

variable {s t : State}

/-- No block differs. -/
def State.sameBlocks (s t : State) : Prop := t.blk = s.blk ∧ t.blocks = s.blocks

theorem State.sameBlocks_refl (s : State) : s.sameBlocks s := ⟨rfl, rfl⟩
theorem State.sameBlocks.trans {u : State} (h : s.sameBlocks t) (k : t.sameBlocks u) : s.sameBlocks u := ⟨k.1.trans h.1, k.2.trans h.2⟩

theorem State.sameBlocks.getBlk (h : s.sameBlocks t) (k : Nat) : t.getBlk k = s.getBlk k := by
  rw [State.getBlk, State.getBlk, h.1, h.2]

theorem State.sameBlocks_foldl {α : Type} {f : State → α → State} (hf : ∀ (s : State) (a : α), s.sameBlocks (f s a)) (xs : List α) (s : State) : s.sameBlocks (xs.foldl f s) :=
  foldl_keeps (P := s.sameBlocks) (fun t a h => h.trans (hf t a)) xs s s.sameBlocks_refl

/-- A change of neither the running block nor the table of the others. -/
theorem State.sameBlocks_frame (hb : t.blk = s.blk := by simp) (hs : t.blocks = s.blocks := by simp) : s.sameBlocks t := ⟨hb, hs⟩

/-! ### One rule per operation -/

theorem State.sameBlocks_setTeam (tm : Team) : s.sameBlocks (s.setTeam tm) := State.sameBlocks_frame
theorem State.sameBlocks_dropTeam (k : Nat) : s.sameBlocks (s.dropTeam k) := State.sameBlocks_frame
theorem State.sameBlocks_modTeam (k : Nat) (f : Team → Team) : s.sameBlocks (s.modTeam k f) := State.sameBlocks_frame
theorem State.sameBlocks_mapTeams (f : Team → Team) : s.sameBlocks (s.mapTeams f) := State.sameBlocks_frame
theorem State.sameBlocks_setLaunch (l : Launch) : s.sameBlocks (s.setLaunch l) := State.sameBlocks_frame
theorem State.sameBlocks_modLaunch (k : Nat) (f : Launch → Launch) : s.sameBlocks (s.modLaunch k f) := State.sameBlocks_frame
theorem State.sameBlocks_setCore (c : Core) : s.sameBlocks (s.setCore c) := State.sameBlocks_frame
theorem State.sameBlocks_modCore (k : Nat) (f : Core → Core) : s.sameBlocks (s.modCore k f) := State.sameBlocks_frame
theorem State.sameBlocks_mapCores (f : Nat → Core → Core) : s.sameBlocks (s.mapCores f) := State.sameBlocks_frame
theorem State.sameBlocks_modCluster (k : Nat) (f : Cluster → Cluster) : s.sameBlocks (s.modCluster k f) := State.sameBlocks_frame
theorem State.sameBlocks_mapClusters (f : Nat → Cluster → Cluster) : s.sameBlocks (s.mapClusters f) := State.sameBlocks_frame
theorem State.sameBlocks_modDie (k : Nat) (f : Die → Die) : s.sameBlocks (s.modDie k f) := State.sameBlocks_frame
theorem State.sameBlocks_modPm (p : Nat) (f : PkgMem → PkgMem) : s.sameBlocks (s.modPm p f) := State.sameBlocks_frame
theorem State.sameBlocks_modQueue (q : Nat) (f : TokenQueue → TokenQueue) : s.sameBlocks (s.modQueue q f) := State.sameBlocks_frame
theorem State.sameBlocks_park (c : Park) : s.sameBlocks (s.park c) := State.sameBlocks_frame
theorem State.sameBlocks_setFair (n : Nat) : s.sameBlocks (s.setFair n) := State.sameBlocks_frame
theorem State.sameBlocks_advance (b : Bool) : s.sameBlocks (s.advance b) := State.sameBlocks_frame
theorem State.sameBlocks_putHinge (e : Nat) (h : Hinge) : s.sameBlocks (s.putHinge e h) := State.sameBlocks_frame
theorem State.sameBlocks_fireSnapshot : s.sameBlocks (s.fireSnapshot) := State.sameBlocks_frame
theorem State.sameBlocks_raise (v : Nat) : s.sameBlocks (s.raise v) := State.sameBlocks_frame
theorem State.sameBlocks_reply (r : Reply) : s.sameBlocks (s.reply r) := State.sameBlocks_frame
theorem State.sameBlocks_later (d : Dest) (vs : List (Nat × List Word)) (n : Nat) (m : Word) : s.sameBlocks (s.later d vs n m) := State.sameBlocks_frame
theorem State.sameBlocks_modIde (dir sub : Nat) (f : IdeKey → IdeKey) : s.sameBlocks (s.modIde dir sub f) := State.sameBlocks_frame
theorem State.sameBlocks_modLink (k : Nat) (f : Link → Link) : s.sameBlocks (s.modLink k f) := State.sameBlocks_frame

theorem State.sameBlocks_homeWrite (s : State) (p a : Nat) (v : Byte) (k th : Nat) : s.sameBlocks (s.homeWrite p a v k th) :=
  (State.sameBlocks_modPm _ _).trans (State.sameBlocks_mapTeams _)

theorem State.sameBlocks_noteMismatch (s : State) (yes : Bool) : s.sameBlocks (s.noteMismatch yes) := by
  unfold State.noteMismatch
  split <;> exact ⟨rfl, rfl⟩

end Sys2Proof.Machine
end

