-- ==== Sys2Proof/Proofs/EngineBytes.lean ====
section
/-! PROOFS. Folds of writes, and numbers and their bytes in a memory. -/

namespace Sys2Proof.Machine

open Sys2Proof Sys2Proof.Machine Sys2Proof.Claim

/-! ### Folds of writes -/

section

variable {α β γ : Type} {get : β → γ} {f : β → α → β} {hits : α → Prop} [DecidablePred hits] {val : α → γ}

/-- What no write of a fold hits stays. -/
theorem foldl_unhit (hf : ∀ b a, get (f b a) = if hits a then val a else get b) {xs : List α} (h : ∀ a ∈ xs, ¬ hits a) (b : β) :
    get (xs.foldl f b) = get b := by
  induction xs generalizing b with
  | nil => rfl
  | cons x xs ih => rw [List.foldl_cons, ih (fun a ha => h a (List.mem_cons_of_mem _ ha)), hf, if_neg (h x List.mem_cons_self)]

/-- What the writes of a fold hit that agree there holds their value. -/
theorem foldl_hit (hf : ∀ b a, get (f b a) = if hits a then val a else get b) {xs : List α} {v : γ} (h : ∀ a ∈ xs, hits a → val a = v)
    {a : α} (ha : a ∈ xs) (hh : hits a) (b : β) : get (xs.foldl f b) = v := by
  have hkeep : ∀ ys : List α, (∀ x ∈ ys, hits x → val x = v) → ∀ b, get b = v → get (ys.foldl f b) = v := by
    intro ys
    induction ys with
    | nil => exact fun _ _ hb => hb
    | cons y ys ih =>
      refine fun hy b hb => ih (fun x hx => hy x (List.mem_cons_of_mem _ hx)) _ ?_
      rw [hf]
      split
      · exact hy y List.mem_cons_self ‹_›
      · exact hb
  induction xs generalizing b with
  | nil => cases ha
  | cons x xs ih =>
    have htail : ∀ y ∈ xs, hits y → val y = v := fun y hy => h y (List.mem_cons_of_mem _ hy)
    rcases List.mem_cons.1 ha with rfl | ha
    · exact hkeep xs htail _ (by rw [hf, if_pos hh]; exact h a List.mem_cons_self hh)
    · exact ih htail ha _

end

/-- The bytes of a list of writes, one after the other. -/
def Mem.writeList (m : Mem) (ws : List (Nat × Byte)) : Mem := ws.foldl (fun m w => m.write w.1 w.2) m

theorem mem_read_writeList_ne {m : Mem} {ws : List (Nat × Byte)} {o : Nat} (h : ∀ w ∈ ws, w.1 ≠ o) : (m.writeList ws).read o = m.read o :=
  foldl_unhit (get := fun m : Mem => m.read o) (hits := fun w : Nat × Byte => o = w.1) (val := fun w => w.2) (fun m w => mem_read_write m w.1 o w.2)
    (fun w hw he => h w hw he.symm) m

theorem mem_read_writeList {m : Mem} {ws : List (Nat × Byte)} {w : Nat × Byte} (hw : w ∈ ws) (h : ∀ v ∈ ws, v.1 = w.1 → v.2 = w.2) :
    (m.writeList ws).read w.1 = w.2 :=
  foldl_hit (get := fun m : Mem => m.read w.1) (hits := fun v : Nat × Byte => w.1 = v.1) (val := fun v => v.2) (fun m v => mem_read_write m v.1 w.1 v.2)
    (fun v hv he => h v hv he.symm) hw rfl m

/-! ### Numbers and their bytes -/

theorem leBytes_getElem {n x i : Nat} (h : i < (leBytes n x).length) : (leBytes n x)[i] = BitVec.ofNat 8 (x / 2 ^ (8 * i)) := by
  simp [leBytes_eq]

theorem leNat_leBytes (n x : Nat) : leNat (leBytes n x) = x % 2 ^ (8 * n) := by
  induction n generalizing x with
  | zero => simp [leBytes, leNat, Nat.mod_one]
  | succ n ih =>
    rw [leBytes, leNat, ih, BitVec.toNat_ofNat, Nat.mul_succ, Nat.pow_add, Nat.mul_comm (2 ^ (8 * n)), Nat.mod_mul]

/-- Bytes that read as those of a number give the number. -/
theorem leNat_readBytes {m : Mem} {a n x : Nat} (h : ∀ i, i < n → m.read (a + i) = BitVec.ofNat 8 (x / 2 ^ (8 * i))) :
    leNat (m.readBytes a n) = x % 2 ^ (8 * n) := by
  have hbytes : m.readBytes a n = leBytes n x := by
    rw [Mem.readBytes, upList_eq_range', leBytes_eq, List.range'_eq_map_range, List.map_map]
    exact List.map_congr_left fun i hi => h i (List.mem_range.1 hi)
  rw [hbytes, leNat_leBytes]

theorem readBytes_congr {m m' : Mem} {a n : Nat} (h : ∀ o, a ≤ o → o < a + n → m'.read o = m.read o) : m'.readBytes a n = m.readBytes a n := by
  refine List.map_congr_left fun o ho => ?_
  obtain ⟨h1, h2⟩ := mem_upList.1 ho
  exact h o h1 h2

end Sys2Proof.Machine
end

