-- ==== Sys2Proof/Proofs/MatrixRuns.lean ====
section
/-! PROOFS. Records and counts leave the blocks alone; a command at the head of the matrix FIFO fails, waits or does its work; `mx.prec` and `mx.zero`. -/

namespace Sys2Proof.Machine

open Sys2Proof Sys2Proof.Machine Sys2Proof.Claim

variable {s t : State} {b : Block} {x : MxEntry} {r : List MxEntry} {core : Nat} {c : MxCmd}

/-! ### Records change no block -/

theorem State.sameBlocks_recWord {l : Launch} {own : Bool} {q : DWord} {w : Word} (h : s.recWord l own q w = some t) : s.sameBlocks t := by
  unfold State.recWord at h
  split at h
  · cases h
  · split at h
    · cases h
    · split at h
      · cases h
      · cases h
        exact State.sameBlocks_foldl (fun s b => s.sameBlocks_homeWrite _ _ _ _ _) _ _

theorem State.sameBlocks_recWords {l : Launch} {own : Bool} {base : DWord} {ws : List Word} {i : Nat} (h : s.recWords l own base i ws = some t) :
    s.sameBlocks t := by
  induction ws generalizing s i with
  | nil => cases h; exact State.sameBlocks_refl _
  | cons w ws ih =>
    rw [State.recWords] at h
    split at h
    · cases h
    · exact (State.sameBlocks_recWord ‹_›).trans (ih h)

theorem State.sameBlocks_noteWalk (s : State) (l : Launch) (offs : List Nat) : s.sameBlocks (s.noteWalk l offs) := s.sameBlocks_noteMismatch _

theorem State.sameBlocks_putRec (s : State) (l : Launch) (b : HBuf) (stop : Bool) (rec : List Word) : s.sameBlocks (s.putRec l b stop rec).1 := by
  unfold State.putRec
  dsimp only
  split
  · exact s.sameBlocks_refl
  · split
    · exact s.sameBlocks_refl
    · split
      · split
        · exact State.sameBlocks_recWords ‹_›
        · exact s.sameBlocks_noteWalk _ _
      · split
        · split
          · exact s.sameBlocks_noteWalk _ _
          · rename_i s' hpad
            split
            · exact (State.sameBlocks_recWords hpad).trans (State.sameBlocks_recWords ‹_›)
            · exact s.sameBlocks_noteWalk _ _
        · exact s.sameBlocks_refl

theorem State.sameBlocks_debugRec (s : State) (uid : Nat) (rec : List Word) : s.sameBlocks (s.debugRec uid rec) := by
  unfold State.debugRec
  split
  · exact s.sameBlocks_refl
  · split
    · exact s.sameBlocks_refl
    · exact (s.sameBlocks_putRec _ _ _ _).trans (State.sameBlocks_modLaunch _ _)

theorem State.sameBlocks_mxWatch (s : State) (b : Block) (x : MxEntry) (n : Nat) : s.sameBlocks (s.mxWatch b x n) := by
  unfold State.mxWatch State.watchRecords
  split
  · exact s.sameBlocks_refl
  · exact State.sameBlocks_foldl (fun _ _ => State.sameBlocks_debugRec _ _ _) _ _

/-! ### Events and watches of a launch -/

/-- What is listed under a number after a launch has been stored. -/
theorem State.getLaunch_setLaunch (s : State) (l : Launch) (k : Nat) : (s.setLaunch l).getLaunch k = if k = l.uid then some l else s.getLaunch k := by
  unfold State.setLaunch
  split
  · next h =>
    by_cases hk : k = l.uid
    · subst hk; simp [State.getLaunch, h.2]
    · rw [if_neg hk, State.getLaunch, State.getLaunch, if_neg fun hc => hk hc.1.symm, if_neg fun hc => hk (hc.1.symm.trans h.1)]
  · next h =>
    by_cases hk : k = l.uid
    · subst hk; rw [if_pos rfl, State.getLaunch, if_neg h]; exact tget_tput_same none (some l) s.launches l.uid
    · rw [if_neg hk, State.getLaunch, State.getLaunch]
      split
      · rfl
      · exact tget_tput_ne none (some l) s.launches hk

theorem blockUnwatched_of_launches (h : blockUnwatched s b) (hl : t.launch = s.launch) (hs : t.launches = s.launches) : blockUnwatched t b := by
  unfold blockUnwatched State.getLaunch
  rw [hl, hs]
  exact h

/-- A launch that counts an event has the watches that it had. -/
theorem blockUnwatched_setLaunch_count (h : blockUnwatched s b) {old : Launch} (ho : s.getLaunch b.launchUid = some old) (k : Nat) :
    blockUnwatched (s.setLaunch (old.count k)) b := by
  intro l hl
  rw [State.getLaunch_setLaunch] at hl
  split at hl
  · cases hl
    exact h old ho
  · exact h l hl

theorem blockUnwatched_countFor (h : blockUnwatched s b) (es : List Nat) : blockUnwatched (s.countFor b.launchUid es) b := by
  refine foldl_keeps (P := fun t : State => blockUnwatched t b) (fun t k ht => ?_) es s h
  split
  · exact ht
  · dsimp only
    split <;> exact blockUnwatched_of_launches (blockUnwatched_setLaunch_count ht ‹_› k) rfl rfl

/-- Without watches no write hits one. -/
theorem State.noteHits_unwatched (h : blockUnwatched s b) (dst : Block) (space : Nat) (offs : List Nat) (o : Origin) (ns : List WatchNote) :
    s.noteHits b dst space offs o ns = (s, ns) := by
  have hw : ((s.getLaunch b.launchUid).getD {}).watches = [] := by
    cases hl : s.getLaunch b.launchUid with
    | none => rfl
    | some l => exact h l hl
  unfold State.noteHits
  dsimp only
  rw [hw, List.foldl_nil]
  split <;> rfl

/-! ### The command at the head -/

theorem State.mxHead_of (hc : s.claimer core = some b) (hf : b.mxFifo = x :: r) (hx : x.finished = false) : s.mxHead core x.cmd = some (b, x) := by
  simp [State.mxHead, hc, hf, hx]

/-- The block's sequencers and engines take nothing up where pre-emption stops them (R139). -/
theorem State.preempting_iff (k : Nat) : s.preempting k = true ↔ enginesStop s k := by
  have hwaits : ∀ tm : Team, tm.awaitsEngine = false ↔ (tm.stopped = false → (∀ e, tm.parked ≠ some (.fifo e)) ∧ ∀ p, tm.parked ≠ some (.full p)) := by
    intro tm
    unfold Team.awaitsEngine
    cases tm.stopped
    · rcases tm.parked with _ | p
      · simp
      · cases p <;> simp
    · simp
  simp only [State.preempting, enginesStop, Bool.and_eq_true, List.any_eq_true, decide_eq_true_eq, Bool.not_eq_true', List.any_eq_false, Bool.not_eq_true, hwaits]

/-- A command that pre-emption stops does nothing (R139). -/
theorem State.mxRun_stopped {f : State → Block → MxEntry → State} (hc : s.claimer core = some b) (hf : b.mxFifo = x :: r) (hx : x.finished = false)
    (hp : enginesStop s b.key) (hs : x.started = false ∨ x.cmd = .mm) : s.mxRun core x.cmd f = s := by
  have hstop : (s.preempting b.key && (!x.started || decide (x.cmd = .mm))) = true := by
    rw [(State.preempting_iff _).2 hp]
    rcases hs with hs | hs <;> simp [hs]
  rw [State.mxRun, State.mxHead_of hc hf hx]
  exact if_pos hstop

/-- A command that pre-emption does not stop runs its check once, then does its work (R130). -/
theorem State.mxRun_eq {f : State → Block → MxEntry → State} (hc : s.claimer core = some b) (hf : b.mxFifo = x :: r) (hx : x.finished = false)
    (hp : ¬ enginesStop s b.key ∨ (x.started = true ∧ x.cmd ≠ .mm)) :
    s.mxRun core x.cmd f = if x.checked then f s b x else
      match b.mxCheck x with
      | some e => s.setBlk (b.failHead x e)
      | none => f s b { x with started := true, checked := true } := by
  have hgo : ¬ (s.preempting b.key && (!x.started || decide (x.cmd = .mm))) = true := by
    rw [Bool.and_eq_true, State.preempting_iff]
    rintro ⟨h1, h2⟩
    rcases hp with hp | ⟨h3, h4⟩
    · exact hp h1
    · simp [h3, h4] at h2
  rw [State.mxRun, State.mxHead_of hc hf hx]
  exact if_neg hgo

theorem headCommand_fifo (h : headCommand s core c b x r) : b.mxFifo = x :: r := h.2.1

theorem headCommand_cmd (h : headCommand s core c b x r) : x.cmd = c := h.2.2.1

/-- The head command once its checks have passed. -/
def MxEntry.passed (x : MxEntry) : MxEntry := { x with started := true, checked := true }

/-- A command that has not begun fails its check, or does its work. -/
theorem State.mxRun_fails {f : State → Block → MxEntry → State} {e : TrapCause} (h : headCommand s core c b x r)
    (hp : ¬ enginesStop s b.key ∨ (x.started = true ∧ c ≠ .mm)) (he : b.mxCheck x = some e) : s.mxRun core c f = s.setBlk (b.failHead x e) := by
  obtain ⟨hc, hf, rfl, hx, hk⟩ := h
  rw [State.mxRun_eq hc hf hx hp, hk, he]
  rfl

theorem State.mxRun_works {f : State → Block → MxEntry → State} (h : headCommand s core c b x r)
    (hp : ¬ enginesStop s b.key ∨ (x.started = true ∧ c ≠ .mm)) (he : b.mxCheck x = none) : s.mxRun core c f = f s b x.passed := by
  obtain ⟨hc, hf, rfl, hx, hk⟩ := h
  rw [State.mxRun_eq hc hf hx hp, hk, he]
  rfl

theorem Block.setHead_mxFifo (hf : b.mxFifo = x :: r) (y : MxEntry) : (b.setHead y).mxFifo = y :: r := by
  rw [Block.setHead, hf]
  rfl

/-- The head command once it is over. -/
def MxEntry.over (x : MxEntry) : MxEntry := { x with started := true, checked := true, finished := true }

theorem Block.setHead_eq (hf : b.mxFifo = x :: r) (y : MxEntry) : b.setHead y = { b with mxFifo := y :: r } := by
  rw [Block.setHead, hf]
  rfl

/-! ### `mx.prec` and `mx.zero` -/

theorem exec_mxPrec (h : headCommand s core .prec b x r) (hp : ¬ enginesStop s b.key ∨ (x.started = true ∧ MxCmd.prec ≠ .mm)) (he : b.mxCheck x = none) :
    exec (.mxPrecCommand core) s = .next (s.setBlk { b with mxFifo := x.over :: r, mxp := x.ops.getD 0 0 }) := by
  refine congrArg Host.Outcome.next ((State.mxRun_works h hp he).trans ?_)
  rw [Block.setHead_eq (headCommand_fifo h)]
  rfl

/-- What a table holds of the keys that a filter keeps. -/
theorem tget_filter_keys {α : Type} (d : α) (m : Tbl α) (p : Nat → Bool) (o : Nat) :
    tget d (m.filter fun e => p e.1) o = if p o then tget d m o else d := by
  induction m with
  | nil => simp
  | cons e m ih =>
    by_cases ho : o = e.1
    · subst ho
      cases hpe : p e.1 <;> simp [tget, hpe, ih]
    · cases hpe : p e.1 <;> simp [tget, hpe, ho, ih]

/-- The block after `mx.zero` (R129). -/
def Block.zeroed (b : Block) (x : MxEntry) (r : List MxEntry) : Block :=
  { b with mxFifo := x.over :: r,
           acc := b.acc.filter fun e => !(decide (x.o 0 ≤ e.1) && decide (e.1 < x.o 0 + x.o 1)),
           spadPoison := b.spadPoison.filter fun e => !(decide (accKey (x.o 0) ≤ e.1) && decide (e.1 < accKey (x.o 0) + x.o 1)) }

theorem Block.zeroed_acc_read (o : Nat) : (b.zeroed x r).acc.read o = if x.o 0 ≤ o ∧ o < x.o 0 + x.o 1 then 0 else b.acc.read o := by
  refine (tget_filter_keys 0 b.acc (fun o => !(decide (x.o 0 ≤ o) && decide (o < x.o 0 + x.o 1))) o).trans ?_
  rw [← Bool.decide_and]
  by_cases h : x.o 0 ≤ o ∧ o < x.o 0 + x.o 1
  · rw [decide_eq_true h, if_pos h]
    rfl
  · rw [decide_eq_false h, if_neg h]
    rfl

theorem exec_mxZero (hw : blockUnwatched s b) (h : headCommand s core .zero b x r) (hp : ¬ enginesStop s b.key ∨ (x.started = true ∧ MxCmd.zero ≠ .mm))
    (he : b.mxCheck x = none) : Completes (.mxZeroCommand core) s fun t => t.getBlk b.key = some (b.zeroed x r) := by
  refine ⟨_, congrArg Host.Outcome.next (State.mxRun_works h hp he), ?_⟩
  have hw' : blockUnwatched (s.setBlk (b.zeroed x r)) b := blockUnwatched_of_launches hw (State.setBlk_launch _ _) (State.setBlk_launches _ _)
  rw [Block.setHead_eq (headCommand_fifo h)]
  refine ((State.sameBlocks_mxWatch _ _ _ _).getBlk _).trans ?_
  exact (congrArg (fun p : State × List WatchNote => p.1.getBlk b.key) (State.noteHits_unwatched hw' b 2 (upList (x.o 0) (x.o 1)) x.origin x.hits)).trans
    (State.getBlk_setBlk_same s (b.zeroed x r))

end Sys2Proof.Machine
end

