-- ==== Sys2Proof/Proofs/MatrixStore.lean ====
section
/-! PROOFS. The bytes of D that `mx.st` writes (R128). -/

namespace Sys2Proof.Machine

open Sys2Proof Sys2Proof.Machine Sys2Proof.Claim

variable {s t : State} {b : Block} {x : MxEntry} {r : List MxEntry} {core : Nat}

/-! ### Bytes written into a block's scratchpad -/

theorem State.getBlk_modBlk_same {k : Nat} {f : Block → Block} (h : s.getBlk k = some b) (hk : (f b).key = k) : (s.modBlk k f).getBlk k = some (f b) := by
  rw [State.modBlk, h]
  subst hk
  exact s.getBlk_setBlk_same (f b)

/-- One byte of an engine in the scratchpad. -/
def Block.poke (b : Block) (w : Nat × Byte) : Block := { b with spad := b.spad.write w.1 w.2, spadPoison := terase b.spadPoison w.1 }

theorem State.getBlk_spadWriteAt (h : s.getBlk b.key = some b) (w : Nat × Byte) (k th : Nat) :
    (s.spadWriteAt b.key w.1 w.2 k th).getBlk b.key = some (b.poke w) :=
  State.getBlk_modBlk_same (f := fun x => x.poke w) h rfl

theorem State.getBlk_spadWrites {ws : List (Nat × Byte)} {k th : Nat} (h : s.getBlk b.key = some b) :
    (ws.foldl (fun s w => s.spadWriteAt b.key w.1 w.2 k th) s).getBlk b.key = some (ws.foldl Block.poke b) := by
  induction ws generalizing s b with
  | nil => exact h
  | cons w ws ih => exact ih (b := b.poke w) (State.getBlk_spadWriteAt h w k th)

theorem Block.foldl_poke (b : Block) (ws : List (Nat × Byte)) :
    ws.foldl Block.poke b = { b with spad := b.spad.writeList ws, spadPoison := ws.foldl (fun m w => terase m w.1) b.spadPoison } := by
  induction ws generalizing b with
  | nil => rfl
  | cons w ws ih => exact ih (b.poke w)

theorem clearRace_eq (b : Block) (offs : List Nat) : clearRace b offs = { b with race := (clearRace b offs).race } := by
  unfold clearRace
  split <;> rfl

/-- The block after an engine has written into its scratchpad. -/
theorem State.getBlk_engineWrite (ws : List (Nat × Byte)) (h : s.getBlk b.key = some b) :
    ∃ p q, (s.engineWrite b.key ws).getBlk b.key = some { b with spad := b.spad.writeList ws, spadPoison := p, race := q } := by
  have hw := State.getBlk_spadWrites (ws := ws) (k := 2 ^ 32) (th := 0) h
  rw [Block.foldl_poke] at hw
  refine ⟨_, _, (State.getBlk_modBlk_same hw ?_).trans (congrArg some (clearRace_eq _ _))⟩
  rw [clearRace_eq]

/-! ### `mx.st` -/

/-- Offset of an element of D (R128). -/
def MxEntry.stPlace (x : MxEntry) (i j : Nat) : Nat := x.o 3 + i * x.o 4 + j * stSize (x.f 0 5 2)

/-- An accumulator element in the format of D (R128). -/
def Block.stAt (b : Block) (x : MxEntry) (i j : Nat) : Nat × List Nat × Bool :=
  stElem (x.f 0 1 0) (x.f 0 5 2) (leNat (b.acc.readBytes (x.o 1 + i * x.o 2 + j * accSize (x.f 0 1 0)) (accSize (x.f 0 1 0))))

/-- The elements of D with their offsets. -/
def Block.stCells (b : Block) (x : MxEntry) : List (Nat × Nat × List Nat × Bool) :=
  (upList 0 (x.f 0 24 13)).flatMap fun i => (upList 0 (32 * x.f 0 12 6)).map fun j => (x.stPlace i j, b.stAt x i j)

/-- The bytes of D with their offsets. -/
def Block.stWrites (b : Block) (x : MxEntry) : List (Nat × Byte) :=
  (b.stCells x).flatMap fun c => (leBytes (stSize (x.f 0 5 2)) c.2.1).zipIdx.map fun y => (c.1 + y.2, y.1)

theorem Block.mem_stCells {c : Nat × Nat × List Nat × Bool} :
    c ∈ b.stCells x ↔ ∃ i j, i < x.f 0 24 13 ∧ j < 32 * x.f 0 12 6 ∧ c = (x.stPlace i j, b.stAt x i j) := by
  simp only [Block.stCells, List.mem_flatMap, List.mem_map, mem_upList, Nat.zero_le, Nat.zero_add, true_and]
  exact ⟨fun ⟨i, hi, j, hj, h⟩ => ⟨i, j, hi, hj, h.symm⟩, fun ⟨i, j, hi, hj, h⟩ => ⟨i, hi, j, hj, h.symm⟩⟩

theorem mem_leBytes_zipIdx {n v : Nat} {y : Byte × Nat} : y ∈ (leBytes n v).zipIdx ↔ y.2 < n ∧ y.1 = BitVec.ofNat 8 (v / 2 ^ (8 * y.2)) := by
  obtain ⟨y, k⟩ := y
  rw [List.mk_mem_zipIdx_iff_getElem?]
  by_cases hk : k < n
  · rw [List.getElem?_eq_getElem (by rwa [leBytes_length]), leBytes_getElem]
    simp [hk, eq_comm]
  · rw [List.getElem?_eq_none (by rw [leBytes_length]; omega)]
    simp [hk]

theorem Block.mem_stWrites {w : Nat × Byte} :
    w ∈ b.stWrites x ↔ ∃ i j k, i < x.f 0 24 13 ∧ j < 32 * x.f 0 12 6 ∧ k < stSize (x.f 0 5 2) ∧
      w = (x.stPlace i j + k, BitVec.ofNat 8 ((b.stAt x i j).1 / 2 ^ (8 * k))) := by
  simp only [Block.stWrites, List.mem_flatMap, List.mem_map, Block.mem_stCells, mem_leBytes_zipIdx]
  constructor
  · rintro ⟨_, ⟨i, j, hi, hj, rfl⟩, ⟨y, k⟩, ⟨hk, hy⟩, rfl⟩
    exact ⟨i, j, k, hi, hj, hk, Prod.ext rfl hy⟩
  · rintro ⟨i, j, k, hi, hj, hk, rfl⟩
    exact ⟨_, ⟨i, j, hi, hj, rfl⟩, (_, k), ⟨hk, rfl⟩, rfl⟩

theorem mul_add_inj {p i i' u u' : Nat} (hu : u < p) (hu' : u' < p) (h : i * p + u = i' * p + u') : i = i' ∧ u = u' := by
  have hdiv : i = i' := by
    have hq : ∀ (i : Nat) {u : Nat}, u < p → (i * p + u) / p = i := fun i u hu => by
      rw [Nat.mul_comm, Nat.mul_add_div (by omega), Nat.div_eq_of_lt hu, Nat.add_zero]
    rw [← hq i hu, h, hq i' hu']
  subst hdiv
  exact ⟨rfl, Nat.add_left_cancel h⟩

/-- Elements of D whose rows do not overlap share no byte. -/
theorem MxEntry.stPlace_inj {i j k i' j' k' : Nat} (hd : x.f 0 24 13 ≤ 1 ∨ 32 * x.f 0 12 6 * stSize (x.f 0 5 2) ≤ x.o 4)
    (hi : i < x.f 0 24 13) (hj : j < 32 * x.f 0 12 6) (hk : k < stSize (x.f 0 5 2)) (hi' : i' < x.f 0 24 13) (hj' : j' < 32 * x.f 0 12 6)
    (hk' : k' < stSize (x.f 0 5 2)) (h : x.stPlace i' j' + k' = x.stPlace i j + k) : i' = i ∧ j' = j ∧ k' = k := by
  unfold MxEntry.stPlace at h
  have hrow : ∀ {j k : Nat}, j < 32 * x.f 0 12 6 → k < stSize (x.f 0 5 2) → j * stSize (x.f 0 5 2) + k < 32 * x.f 0 12 6 * stSize (x.f 0 5 2) :=
    fun {j k} hj hk => by
      have := Nat.mul_le_mul_right (stSize (x.f 0 5 2)) (Nat.succ_le_of_lt hj)
      rw [Nat.succ_mul] at this
      omega
  have hii : i' = i := by
    rcases hd with hd | hd
    · omega
    · exact (mul_add_inj (p := x.o 4) (u := j' * stSize (x.f 0 5 2) + k') (u' := j * stSize (x.f 0 5 2) + k)
        ((hrow hj' hk').trans_le hd) ((hrow hj hk).trans_le hd) (by omega)).1
  subst hii
  exact ⟨rfl, mul_add_inj hk' hk (by omega)⟩

theorem Block.stWrites_read {i j : Nat} (m : Mem) (hd : x.f 0 24 13 ≤ 1 ∨ 32 * x.f 0 12 6 * stSize (x.f 0 5 2) ≤ x.o 4)
    (hi : i < x.f 0 24 13) (hj : j < 32 * x.f 0 12 6) :
    leNat ((m.writeList (b.stWrites x)).readBytes (x.stPlace i j) (stSize (x.f 0 5 2))) = (b.stAt x i j).1 % 2 ^ (8 * stSize (x.f 0 5 2)) := by
  refine leNat_readBytes fun k hk => ?_
  refine mem_read_writeList (w := (x.stPlace i j + k, _)) (Block.mem_stWrites.2 ⟨i, j, k, hi, hj, hk, rfl⟩) fun v hv he => ?_
  obtain ⟨i', j', k', hi', hj', hk', rfl⟩ := Block.mem_stWrites.1 hv
  obtain ⟨rfl, rfl, rfl⟩ := MxEntry.stPlace_inj hd hi hj hk hi' hj' hk' he
  rfl

theorem Block.stWrites_read_ne {o : Nat} (m : Mem)
    (h : ∀ i j, i < x.f 0 24 13 → j < 32 * x.f 0 12 6 → ¬ (x.stPlace i j ≤ o ∧ o < x.stPlace i j + stSize (x.f 0 5 2))) :
    (m.writeList (b.stWrites x)).read o = m.read o := by
  refine mem_read_writeList_ne fun w hw he => ?_
  obtain ⟨i, j, k, hi, hj, hk, rfl⟩ := Block.mem_stWrites.1 hw
  exact h i j hi hj (by simp only at he; omega)

theorem Block.stCells_any : ((b.stCells x).any fun c => c.2.2.2) = true ↔ ∃ i j, i < x.f 0 24 13 ∧ j < 32 * x.f 0 12 6 ∧ (b.stAt x i j).2.2 = true := by
  simp only [List.any_eq_true, Block.mem_stCells]
  constructor
  · rintro ⟨_, ⟨i, j, hi, hj, rfl⟩, h⟩
    exact ⟨i, j, hi, hj, h⟩
  · rintro ⟨i, j, hi, hj, h⟩
    exact ⟨_, ⟨i, j, hi, hj, rfl⟩, h⟩

/-- The scratchpad holds no lost data. -/
theorem Block.spadLost_none (h : b.spadPoison = []) (lo n : Nat) : b.spadLost lo n = none := by
  rw [Block.spadLost, h]
  rfl

theorem Block.accLost_none (h : b.spadPoison = []) (lo n : Nat) : b.accLost lo n = none := by
  rw [Block.accLost, Block.spadLost_none h]
  rfl

/-- The block after an engine has stored its bytes, its events counted. -/
theorem State.getBlk_stored {y : Block} (hw : blockUnwatched s b) (hk : y.key = b.key) (es : List Nat) (ws : List (Nat × Byte)) :
    ∃ p q, ((((s.countFor b.launchUid es).setBlk y).noteHits b b 1 (ws.map (·.1)) x.origin x.hits).1.engineWrite b.key ws).getBlk b.key =
      some { y with spad := y.spad.writeList ws, spadPoison := p, race := q } := by
  have hw' : blockUnwatched ((s.countFor b.launchUid es).setBlk y) b :=
    blockUnwatched_of_launches (blockUnwatched_countFor hw es) (State.setBlk_launch _ _) (State.setBlk_launches _ _)
  rw [State.noteHits_unwatched hw', ← hk]
  exact State.getBlk_engineWrite ws (State.getBlk_setBlk_same _ y)

theorem exec_mxSt (hw : blockUnwatched s b) (h : headCommand s core .st b x r) (hp : ¬ enginesStop s b.key ∨ (x.started = true ∧ MxCmd.st ≠ .mm))
    (he : b.mxCheck x = none) (hl : b.spadPoison = []) : Completes (.mxStCommand core) s fun t => ∃ p q, t.getBlk b.key =
      some { b with mxFifo := x.over :: r, spad := b.spad.writeList (b.stWrites x), spadPoison := p, race := q,
                    wovf := b.wovf || (b.stCells x).any fun c => c.2.2.2 } := by
  have hlost : ((upList 0 (x.f 0 24 13)).findSome? fun i => b.accLost (x.o 1 + i * x.o 2) (32 * x.f 0 12 6 * accSize (x.f 0 1 0))) = none := by
    simp [Block.accLost_none hl]
  refine ⟨_, congrArg Host.Outcome.next (State.mxRun_works h hp he), ?_⟩
  dsimp only
  split
  case h_1 e hlost' => exact nomatch hlost'.symm.trans hlost
  case h_2 =>
    obtain ⟨p, q, hb⟩ := State.getBlk_stored (x := x) (y := { b with mxFifo := x.over :: r, wovf := b.wovf || (b.stCells x).any fun c => c.2.2.2 }) hw rfl
      ((b.stCells x).flatMap fun c => c.2.2.1) (b.stWrites x)
    refine ⟨p, q, ((State.sameBlocks_mxWatch _ _ _ _).getBlk _).trans ?_⟩
    rw [Block.setHead_eq (headCommand_fifo h)]
    exact hb

end Sys2Proof.Machine
end

