-- ==== Sys2Proof/Proofs/MatrixRows.lean ====
section
/-! PROOFS. A row of C that `mx.mm` works (R96, R97, R127). -/

namespace Sys2Proof.Machine

open Sys2Proof Sys2Proof.Machine Sys2Proof.Claim

variable {s t : State} {b : Block} {x : MxEntry} {r : List MxEntry} {core : Nat}

/-! ### A row of consecutive numbers, each rewritten from its own value -/

theorem mem_read_writeNat {m : Mem} {a n v o : Nat} (h : ¬ (a ≤ o ∧ o < a + n)) : (m.writeBytes a (leBytes n v)).read o = m.read o := by
  rw [mem_read_writeBytes, leBytes_length, if_neg h]

theorem leNat_readBytes_writeNat (m : Mem) (a n v : Nat) : leNat ((m.writeBytes a (leBytes n v)).readBytes a n) = v % 2 ^ (8 * n) := by
  refine leNat_readBytes fun i hi => ?_
  have hlen : i < (leBytes n v).length := by rwa [leBytes_length]
  rw [mem_read_writeBytes, leBytes_length, if_pos ⟨Nat.le_add_right _ _, Nat.add_lt_add_left hi a⟩, Nat.add_sub_cancel_left, List.getD_eq_getElem _ _ hlen,
    leBytes_getElem]

/-- Columns of `n` bytes do not overlap. -/
theorem column_apart {a n j k o : Nat} (hj : j ≠ k) (h : a + j * n ≤ o ∧ o < a + j * n + n) : ¬ (a + k * n ≤ o ∧ o < a + k * n + n) := by
  intro h'
  refine hj (mul_add_inj (p := n) (u := o - (a + j * n)) (u' := o - (a + k * n)) (by omega) (by omega) (by omega)).1

section

variable {σ : Type} {f : Mem × σ → Nat → Mem × σ} {v : Nat → Nat → Nat} {a n : Nat}

theorem foldl_columns_frame (hf : ∀ st j, (f st j).1 = st.1.writeBytes (a + j * n) (leBytes n (v j (leNat (st.1.readBytes (a + j * n) n)))))
    (st : Mem × σ) (k : Nat) {o : Nat} (h : ∀ j, j < k → ¬ (a + j * n ≤ o ∧ o < a + j * n + n)) : ((List.range k).foldl f st).1.read o = st.1.read o := by
  induction k with
  | zero => rfl
  | succ k ih =>
    rw [List.range_succ, List.foldl_append, List.foldl_cons, List.foldl_nil, hf, mem_read_writeNat (h k k.lt_succ_self)]
    exact ih fun j hj => h j (hj.trans k.lt_succ_self)

theorem foldl_columns (hf : ∀ st j, (f st j).1 = st.1.writeBytes (a + j * n) (leBytes n (v j (leNat (st.1.readBytes (a + j * n) n)))))
    (st : Mem × σ) {k j : Nat} (hj : j < k) :
    leNat (((List.range k).foldl f st).1.readBytes (a + j * n) n) = v j (leNat (st.1.readBytes (a + j * n) n)) % 2 ^ (8 * n) := by
  induction k with
  | zero => omega
  | succ k ih =>
    rw [List.range_succ, List.foldl_append, List.foldl_cons, List.foldl_nil, hf]
    by_cases hk : j = k
    · subst hk
      rw [leNat_readBytes_writeNat, readBytes_congr (m := st.1) fun o h1 h2 => foldl_columns_frame hf st j fun i hi => column_apart (Ne.symm hi.ne) ⟨h1, h2⟩]
    · rw [readBytes_congr fun o h1 h2 => mem_read_writeNat (column_apart hk ⟨h1, h2⟩)]
      exact ih (by omega)

end

/-! ### `mx.mm` -/

/-- The tile that a command names. -/
def Block.mmTile (b : Block) (x : MxEntry) : Tile := tileOf (tget 0 b.precb (x.f 0 2 0))

/-- A k-group of a row of A (R127). -/
def Block.mmGroup (b : Block) (x : MxEntry) (i g : Nat) : Group :=
  groupOf (bitsOf b.mxp.toNat 11 8) (bitsOf b.mxp.toNat 12 12 == 1) (bitsOf b.mxp.toNat 6 0)
    (leNat (b.spad.readBytes (x.o 1 + i * x.o 2) (runBytes (bitsOf b.mxp.toNat 11 8) (64 * (b.mmTile x).kg)))) g

/-- The k-groups of a row of A with those of a column of B. -/
def Block.mmPairs (b : Block) (x : MxEntry) (i j : Nat) : List (Group × Group) :=
  (List.range (b.mmTile x).kg).map fun g => (b.mmGroup x i g, b.tileCol (x.f 0 2 0) (b.mmTile x) g j)

/-- A C element after its k-groups (R96, R97). -/
def Block.mmElem (b : Block) (x : MxEntry) (i j c : Nat) : Nat :=
  if 2 ≤ x.f 0 5 4 then (((c : Int) + ((b.mmPairs x i j).map fun p => groupSum p.1 p.2).sum) % 2 ^ (8 * accSize (x.f 0 5 4))).toNat
  else (accFloat (accFmt (x.f 0 5 4)) (bitsOf b.mxp.toNat 6 0) (b.mmTile x).wid (b.mmPairs x i j) c).1

theorem foldl_add_eq_add_sum {α : Type} (f : α → Int) (xs : List α) (c : Int) : xs.foldl (fun y p => y + f p) c = c + (xs.map f).sum := by
  induction xs generalizing c with
  | nil => simp
  | cons x xs ih => rw [List.foldl_cons, ih, List.map_cons, List.sum_cons, Int.add_assoc]

theorem zipIdx_map_upList {α β : Type} (f : Nat → α) (g : α × Nat → β) (k : Nat) :
    ((upList 0 k).map f).zipIdx.map g = (List.range k).map fun i => g (f i, i) := by
  refine List.ext_getElem (by simp) fun i h1 h2 => ?_
  simp [upList_zero_eq_range]

/-- One C element of a row and its events. -/
def Block.mmStep (b : Block) (x : MxEntry) (i : Nat) (st : Mem × List Nat) (j : Nat) : Mem × List Nat :=
  let o := x.o 3 + i * x.o 4 + j * accSize (x.f 0 5 4)
  let c := leNat (st.1.readBytes o (accSize (x.f 0 5 4)))
  if 2 ≤ x.f 0 5 4 then
    (st.1.writeBytes o (leBytes (accSize (x.f 0 5 4)) (((c : Int) + ((b.mmPairs x i j).map fun p => groupSum p.1 p.2).sum) % 2 ^ (8 * accSize (x.f 0 5 4))).toNat), st.2)
  else
    let y := accFloat (accFmt (x.f 0 5 4)) (bitsOf b.mxp.toNat 6 0) (b.mmTile x).wid (b.mmPairs x i j) c
    (st.1.writeBytes o (leBytes (accSize (x.f 0 5 4)) y.1), st.2 ++ accEvent (accFmt (x.f 0 5 4)) y)

theorem Block.mmRow_eq (b : Block) (x : MxEntry) (i : Nat) :
    (b.mmRow x i).1 = { b with acc := ((List.range (32 * (b.mmTile x).ng)).foldl (b.mmStep x i) (b.acc, [])).1,
                               wovf := b.wovf || ((List.range (b.mmTile x).kg).map (b.mmGroup x i)).any (·.clamped) } := by
  unfold Block.mmRow
  simp only [zipIdx_map_upList, foldl_add_eq_add_sum]
  rw [upList_zero_eq_range, upList_zero_eq_range]
  rfl

theorem Block.mmStep_mem (b : Block) (x : MxEntry) (i : Nat) (st : Mem × List Nat) (j : Nat) :
    (b.mmStep x i st j).1 = st.1.writeBytes (x.o 3 + i * x.o 4 + j * accSize (x.f 0 5 4))
      (leBytes (accSize (x.f 0 5 4)) (b.mmElem x i j (leNat (st.1.readBytes (x.o 3 + i * x.o 4 + j * accSize (x.f 0 5 4)) (accSize (x.f 0 5 4)))))) := by
  unfold Block.mmStep Block.mmElem
  split <;> rfl

/-- The integer C element is a number of its bytes already. -/
theorem Block.mmElem_mod (b : Block) (x : MxEntry) (i j c : Nat) : b.mmElem x i j c % 2 ^ (8 * accSize (x.f 0 5 4)) =
    if 2 ≤ x.f 0 5 4 then (((c : Int) + ((b.mmPairs x i j).map fun p => groupSum p.1 p.2).sum) % 2 ^ (8 * accSize (x.f 0 5 4))).toNat
    else (accFloat (accFmt (x.f 0 5 4)) (bitsOf b.mxp.toNat 6 0) (b.mmTile x).wid (b.mmPairs x i j) c).1 % 2 ^ (8 * accSize (x.f 0 5 4)) := by
  unfold Block.mmElem
  split
  · refine Nat.mod_eq_of_lt ?_
    have hpos : (0 : Int) < 2 ^ (8 * accSize (x.f 0 5 4)) := by positivity
    rw [Int.toNat_lt (Int.emod_nonneg _ hpos.ne')]
    exact_mod_cast Int.emod_lt_of_pos _ hpos
  · rfl

/-- A C element of the row is its value after its k-groups. -/
theorem Block.mmRow_acc (b : Block) (x : MxEntry) (i : Nat) {j : Nat} (hj : j < 32 * (b.mmTile x).ng) :
    leNat ((b.mmRow x i).1.acc.readBytes (x.o 3 + i * x.o 4 + j * accSize (x.f 0 5 4)) (accSize (x.f 0 5 4))) =
      b.mmElem x i j (leNat (b.acc.readBytes (x.o 3 + i * x.o 4 + j * accSize (x.f 0 5 4)) (accSize (x.f 0 5 4)))) % 2 ^ (8 * accSize (x.f 0 5 4)) := by
  rw [Block.mmRow_eq]
  exact foldl_columns (v := b.mmElem x i) (b.mmStep_mem x i) (b.acc, []) hj

theorem Block.mmRow_acc_frame (b : Block) (x : MxEntry) (i : Nat) {o : Nat} (h : ∀ j, j < 32 * (b.mmTile x).ng →
    ¬ (x.o 3 + i * x.o 4 + j * accSize (x.f 0 5 4) ≤ o ∧ o < x.o 3 + i * x.o 4 + j * accSize (x.f 0 5 4) + accSize (x.f 0 5 4))) :
    (b.mmRow x i).1.acc.read o = b.acc.read o := by
  rw [Block.mmRow_eq]
  exact foldl_columns_frame (v := b.mmElem x i) (b.mmStep_mem x i) (b.acc, []) _ h

theorem Block.mmRow_wovf (b : Block) (x : MxEntry) (i : Nat) :
    (b.mmRow x i).1.wovf = true ↔ b.wovf = true ∨ ∃ g, g < (b.mmTile x).kg ∧ (b.mmGroup x i g).clamped = true := by
  rw [Block.mmRow_eq]
  simp only [Bool.or_eq_true, List.any_map, List.any_eq_true, List.mem_range, Function.comp_apply]

/-- A command whose check passes or has passed does its work. -/
theorem State.mxRun_goes {f : State → Block → MxEntry → State} (hc : s.claimer core = some b) (hf : b.mxFifo = x :: r) (hn : x.finished = false)
    (hp : ¬ enginesStop s b.key) (hk : x.checked = true ∨ b.mxCheck x = none) :
    ∃ y, y = { x with started := y.started, checked := true } ∧ s.mxRun core x.cmd f = f s b y := by
  rw [State.mxRun_eq hc hf hn (.inl hp)]
  cases hck : x.checked with
  | true => exact ⟨x, by rw [← hck], if_pos rfl⟩
  | false =>
    rw [hck] at hk
    exact ⟨x.passed, rfl, by rw [hk.resolve_left nofun]; rfl⟩

theorem Block.mmRow_setHead (hf : b.mxFifo = x :: r) (y z : MxEntry) (i : Nat) :
    (b.mmRow y i).1.setHead z = { (b.mmRow y i).1 with mxFifo := z :: r } :=
  Block.setHead_eq (b := (b.mmRow y i).1) hf z

theorem exec_mxMm (hw : blockUnwatched s b) (hc : s.claimer core = some b) (hf : b.mxFifo = x :: r) (hx : x.cmd = .mm) (hn : x.finished = false)
    (hp : ¬ enginesStop s b.key) (hk : x.checked = true ∨ b.mxCheck x = none) (hl : b.spadPoison = []) (hi : b.mxprog < x.f 0 17 6) :
    Completes (.mxMmCommand core) s fun t => ∃ y, y = { x with started := y.started, checked := true } ∧ t.getBlk b.key = some
      (if b.mxprog + 1 < x.f 0 17 6 then { (b.mmRow x b.mxprog).1 with mxFifo := y :: r, mxprog := b.mxprog + 1 }
      else { (b.mmRow x b.mxprog).1 with mxFifo := { y with finished := true } :: r, mxprog := 0 }) := by
  obtain ⟨y, hy, hv⟩ := State.mxRun_goes hc hf hn hp hk
  rw [hx] at hv
  refine ⟨_, congrArg Host.Outcome.next hv, y, hy, ?_⟩
  have hfy : ∀ k hi lo, x.f k hi lo = y.f k hi lo := fun k hi lo => by rw [hy]; rfl
  have hrow : b.mmRow x b.mxprog = b.mmRow y b.mxprog := by rw [hy]; rfl
  rw [hfy] at hi ⊢
  rw [hrow]
  dsimp only
  rw [if_neg (Nat.not_le.2 hi), Block.spadLost_none hl, Block.accLost_none hl, State.noteHits_unwatched hw]
  dsimp only [Option.or]
  rw [Block.mmRow_setHead hf, Block.mmRow_setHead hf]
  split
  · exact State.getBlk_setBlk_same _ { (b.mmRow y b.mxprog).1 with mxFifo := y :: r, mxprog := b.mxprog + 1 }
  · exact ((State.sameBlocks_mxWatch _ _ _ _).getBlk _).trans
      (State.getBlk_setBlk_same _ { (b.mmRow y b.mxprog).1 with mxFifo := { y with finished := true } :: r, mxprog := 0 })

end Sys2Proof.Machine
end

