-- ==== Sys2Proof/Proofs/MatrixPlanes.lean ====
section
/-! PROOFS. Numbers and the bits that a plane holds of them (R116). -/

namespace Sys2Proof.Machine

open Sys2Proof Sys2Proof.Machine Sys2Proof.Claim

/-! ### Numbers and their bits -/

/-- The low bits of a number give it modulo their power. -/
theorem foldl_bits_mod (q w : Nat) : (upList 0 w).foldl (fun x j => x + q / 2 ^ j % 2 * 2 ^ j) 0 = q % 2 ^ w := by
  rw [upList_zero_eq_range]
  induction w with
  | zero => simp [Nat.mod_one]
  | succ w ih => rw [List.range_succ, List.foldl_append, ih, Nat.mod_pow_succ, Nat.mul_comm (2 ^ w)]; rfl

theorem foldl_bits_lt (a : Nat → Nat) (n : Nat) : (List.range n).foldl (fun x i => x + a i % 2 * 2 ^ i) 0 < 2 ^ n := by
  induction n with
  | zero => simp
  | succ n ih =>
    rw [List.range_succ, List.foldl_append, List.foldl_cons, List.foldl_nil, Nat.pow_succ]
    have hbit : a n % 2 * 2 ^ n ≤ 1 * 2 ^ n := Nat.mul_le_mul_right _ (by omega)
    omega

/-- A number put together of bits has them. -/
theorem foldl_bits_get (a : Nat → Nat) {i n : Nat} (hi : i < n) : (upList 0 n).foldl (fun x i => x + a i % 2 * 2 ^ i) 0 / 2 ^ i % 2 = a i % 2 := by
  rw [upList_zero_eq_range]
  induction n with
  | zero => omega
  | succ n ih =>
    rw [List.range_succ, List.foldl_append, List.foldl_cons, List.foldl_nil]
    by_cases h : i = n
    · subst h
      rw [Nat.add_mul_div_right _ _ (Nat.two_pow_pos i), Nat.div_eq_of_lt (foldl_bits_lt a i), Nat.zero_add, Nat.mod_mod]
    · obtain ⟨m, rfl⟩ := Nat.exists_eq_add_of_lt (show i < n by omega)
      have hpow : a (i + m + 1) % 2 * 2 ^ (i + m + 1) = a (i + m + 1) % 2 * 2 ^ m * 2 * 2 ^ i := by
        rw [Nat.pow_succ, Nat.pow_add]
        ring
      rw [hpow, Nat.add_mul_div_right _ _ (Nat.two_pow_pos i), Nat.add_mul_mod_self_right]
      exact ih (by omega)

/-- Lists of one length laid end to end. -/
theorem flatMap_range_map {α : Type} (h : Nat → Nat → α) (n : Nat) {m : Nat} (hm : 0 < m) :
    ((List.range n).flatMap fun k => (List.range m).map (h k)) = (List.range (n * m)).map fun i => h (i / m) (i % m) := by
  induction n with
  | zero => simp
  | succ n ih =>
    rw [List.range_succ, List.flatMap_append, ih, Nat.succ_mul, List.range_add, List.map_append, List.flatMap_singleton, List.map_map]
    refine congrArg _ (List.map_congr_left fun i hi => ?_)
    have hi := List.mem_range.1 hi
    simp only [Function.comp_apply]
    rw [Nat.mul_comm, Nat.mul_add_div hm, Nat.mul_add_mod, Nat.div_eq_of_lt hi, Nat.mod_eq_of_lt hi, Nat.add_zero]

/-! ### Planes (R116) -/

theorem planeBytes_eq (cols : List (List Nat)) (j : Nat) : planeBytes cols j = (List.range (64 * 4)).map fun i =>
    BitVec.ofNat 8 ((upList 0 8).foldl (fun b n => b + (cols.getD (8 * (i % 4) + n) []).getD (i / 4) 0 / 2 ^ j % 2 * 2 ^ n) 0) := by
  unfold planeBytes
  rw [upList_zero_eq_range 64, upList_zero_eq_range 4]
  exact flatMap_range_map (fun k c => BitVec.ofNat 8 ((upList 0 8).foldl (fun b n => b + (cols.getD (8 * c + n) []).getD k 0 / 2 ^ j % 2 * 2 ^ n) 0)) 64 (by decide)

theorem planeBytes_length (cols : List (List Nat)) (j : Nat) : (planeBytes cols j).length = 256 := by
  rw [planeBytes_eq, List.length_map, List.length_range]

/-- The bit of a plane's byte is the number's. -/
theorem planeBytes_bit (cols : List (List Nat)) (j : Nat) {k c : Nat} (hk : k < 64) (hc : c < 32) :
    ((planeBytes cols j).getD ((32 * k + c) / 8) 0).toNat / 2 ^ (c % 8) % 2 = (cols.getD c []).getD k 0 / 2 ^ j % 2 := by
  have h4 : (32 * k + c) / 8 / 4 = k := by omega
  have h8 : 8 * ((32 * k + c) / 8 % 4) + c % 8 = c := by omega
  have hlt : (upList 0 8).foldl (fun b n => b + (cols.getD (8 * ((32 * k + c) / 8 % 4) + n) []).getD k 0 / 2 ^ j % 2 * 2 ^ n) 0 < 2 ^ 8 :=
    foldl_bits_lt (fun n => (cols.getD (8 * ((32 * k + c) / 8 % 4) + n) []).getD k 0 / 2 ^ j) 8
  rw [List.getD_eq_getElem _ _ (by rw [planeBytes_length]; omega)]
  simp only [planeBytes_eq, List.getElem_map, List.getElem_range, h4, BitVec.toNat_ofNat]
  rw [Nat.mod_eq_of_lt hlt, foldl_bits_get (fun n => (cols.getD (8 * ((32 * k + c) / 8 % 4) + n) []).getD k 0 / 2 ^ j) (Nat.mod_lt c (by decide)), h8]

/-- What a byte of a stored plane reads. -/
theorem mem_read_writePlane (m : Mem) (p : Nat) {bs : List Byte} (hbs : bs.length = 256) (o : Nat) :
    (m.writeBytes (p * 256) bs).read o = if o / 256 = p then bs.getD (o % 256) 0 else m.read o := by
  rw [mem_read_writeBytes, hbs]
  by_cases h : o / 256 = p
  · rw [if_pos h, if_pos (by omega), show o - p * 256 = o % 256 by omega]
  · rw [if_neg h, if_neg (by omega)]

theorem planeBit_of_bytes {m : Mem} {cols : List (List Nat)} {p j k c : Nat} (hk : k < 64) (hc : c < 32)
    (h : ∀ o, o / 256 = p → m.read o = (planeBytes cols j).getD (o % 256) 0) : planeBit m p k c = (cols.getD c []).getD k 0 / 2 ^ j % 2 := by
  unfold planeBit
  rw [h _ (by omega), show (p * 256 + (32 * k + c) / 8) % 256 = (32 * k + c) / 8 by omega, planeBytes_bit cols j hk hc]

end Sys2Proof.Machine
end

