-- ==== Sys2Proof/Proofs/MatrixGroups.lean ====
section
/-! PROOFS. The k-groups that a tile can hold: magnitudes, signs and exponents of a floating group, two's complement of an integer one (R94, R95, R117). -/

namespace Sys2Proof.Machine

open Sys2Proof Sys2Proof.Machine Sys2Proof.Claim

/-! ### Formats of elements (R76, R121) -/

theorem elemF_cases {fmt : Nat} {f : FFmt} (h : elemF fmt = some f) :
    (fmt = 4 ∧ f = .f64) ∨ (fmt = 5 ∧ f = .f32) ∨ (fmt = 6 ∧ f = .f16) ∨ (fmt = 7 ∧ f = .bf16) := by
  unfold elemF at h
  split_ifs at h <;> simp_all

theorem elemDb_cases {fmt m : Nat} (h : elemDb fmt = some m) : (fmt = 8 ∧ m = 7) ∨ (fmt = 9 ∧ m = 4) ∨ (fmt = 10 ∧ m = 2) := by
  unfold elemDb at h
  split_ifs at h <;> simp_all

theorem elemF_bits {fmt : Nat} {f : FFmt} (h : elemF fmt = some f) : elemBits fmt = f.eb + f.fb + 1 ∧ elemDb fmt = none := by
  rcases elemF_cases h with ⟨rfl, rfl⟩ | ⟨rfl, rfl⟩ | ⟨rfl, rfl⟩ | ⟨rfl, rfl⟩ <;> decide

/-! ### Signs of elements (R89, R90, R117) -/

theorem dec_sgn {f : FFmt} {v : Nat} (h : (f.dec v).isBad = false) : (f.dec v).sgn = (v / 2 ^ (f.eb + f.fb) % 2 == 1) := by
  unfold FFmt.dec at h ⊢
  dsimp only at h ⊢
  split at h
  · split at h <;> cases h
  · rw [if_neg ‹_›]
    split <;> rfl

/-- An element that is a number carries its value's sign. -/
theorem elemSign_eq {fmt run k : Nat} (h : (elemVal fmt run k).isBad = false) : elemSign fmt run k = (elemVal fmt run k).sgn := by
  unfold elemSign
  split
  · next f hdb hf =>
    have hv : elemVal fmt run k = f.dec (run / 2 ^ (elemBits fmt * k) % 2 ^ elemBits fmt) := by rw [elemVal, hdb, hf]
    rw [hv] at h ⊢
    rw [dec_sgn h, (elemF_bits hf).1, Nat.mul_succ, Nat.add_succ_sub_one, Nat.pow_succ 2 (f.eb + f.fb), Nat.mod_mul_right_div_self, Nat.div_div_eq_div_mul, Nat.pow_add, Nat.mod_mod]
  · rfl

/-! ### Group exponents (R95) -/

/-- A group exponent fits the 12 bits of its register. -/
def expFits (e : Int) : Prop := -2048 ≤ e ∧ e < 2048

/-- One step of the search for the greatest exponent. -/
def emaxStep (a : Option Int) (v : FVal) : Option Int :=
  match a, flog2Of v with
  | some p, some q => some (max p q)
  | none, q => q
  | p, none => p

theorem emaxStep_expFits {a : Option Int} {v : FVal} (ha : ∀ q, a = some q → expFits q) (hv : ∀ q, flog2Of v = some q → expFits q) :
    ∀ q, emaxStep a v = some q → expFits q := by
  unfold emaxStep
  split
  · next p q' hq =>
    intro q h
    cases h
    rcases max_choice p q' with hmax | hmax <;> rw [hmax]
    · exact ha p rfl
    · exact hv q' hq
  · exact hv
  · exact ha

theorem toInt_ofInt_expFits {e : Int} (h : expFits e) : (BitVec.ofInt 12 e).toInt = e :=
  BitVec.toInt_ofInt_eq_self (by decide) h.1 h.2

/-- A number's exponent lies above its scale by less than its bits. -/
theorem flog2Of_bounds {s : Bool} {m n : Nat} {e q : Int} (hm : m < 2 ^ n) (h : flog2Of (.fin s m e) = some q) : e ≤ q ∧ q < e + n := by
  rw [flog2Of] at h
  split at h
  · cases h
  · next h0 =>
    have hlog : m.log2 < n := (Nat.log2_lt h0).2 hm
    cases h
    omega

theorem emaxOf_expFits {vs : List FVal} {e : Int} (hv : ∀ v ∈ vs, ∀ q, flog2Of v = some q → expFits q) (h : emaxOf vs = some e) : expFits e := by
  have hstep : ∀ a : Option Int, (∀ q, a = some q → expFits q) → ∀ q, vs.foldl emaxStep a = some q → expFits q := by
    clear h
    induction vs with
    | nil => exact fun a ha => ha
    | cons v vs ih =>
      refine fun a ha => ih (fun w hw => hv w (List.mem_cons_of_mem _ hw)) _ ?_
      exact emaxStep_expFits ha (hv v List.mem_cons_self)
  exact hstep none nofun e h

theorem dec_expFits {fmt : Nat} {f : FFmt} (hf : elemF fmt = some f) {v : Nat} {q : Int} (h : flog2Of (f.dec v) = some q) : expFits q := by
  have hex : v / 2 ^ f.fb % 2 ^ f.eb < 2 ^ f.eb := Nat.mod_lt _ (Nat.two_pow_pos _)
  have hfr : v % 2 ^ f.fb < 2 ^ f.fb := Nat.mod_lt _ (Nat.two_pow_pos _)
  have hman : 2 ^ f.fb + v % 2 ^ f.fb < 2 ^ (f.fb + 1) := by rw [Nat.pow_succ]; omega
  have hq : f.q0 ≤ q ∧ q < f.q0 + 2 ^ f.eb + f.fb := by
    unfold FFmt.dec at h
    dsimp only at h
    split at h
    · split at h <;> cases h
    · split at h
      · have hb := flog2Of_bounds hfr h
        have hpos : (0 : Int) < 2 ^ f.eb := by positivity
        omega
      · have hb := flog2Of_bounds hman h
        have hex' : ((v / 2 ^ f.fb % 2 ^ f.eb : Nat) : Int) < 2 ^ f.eb := by exact_mod_cast hex
        omega
  have hf' : -2048 ≤ f.q0 ∧ f.q0 + 2 ^ f.eb + f.fb ≤ 2048 := by
    rcases elemF_cases hf with ⟨-, rfl⟩ | ⟨-, rfl⟩ | ⟨-, rfl⟩ | ⟨-, rfl⟩ <;> decide
  exact ⟨hf'.1.trans hq.1, hq.2.trans_le hf'.2⟩

theorem dbDecode_expFits {m blk i : Nat} (hm : m ≤ 7) {q : Int} (h : flog2Of (dbDecode m blk i) = some q) : expFits q := by
  have hsh : blk / 2 ^ (8 + 2 * (i / 4)) % 4 < 4 := Nat.mod_lt _ (by decide)
  have hmag : blk / 2 ^ (16 + (1 + m) * i) % 2 ^ (1 + m) % 2 ^ m < 2 ^ m := Nat.mod_lt _ (Nat.two_pow_pos _)
  unfold dbDecode at h
  dsimp only at h
  split at h
  · cases h
  · split at h
    · cases h
    · have hb := flog2Of_bounds hmag h
      unfold expFits
      omega

theorem elemVal_expFits {fmt run k : Nat} {q : Int} (h : flog2Of (elemVal fmt run k) = some q) : expFits q := by
  unfold elemVal at h
  split at h
  · next m _ hm => exact dbDecode_expFits (by rcases elemDb_cases hm with ⟨_, rfl⟩ | ⟨_, rfl⟩ | ⟨_, rfl⟩ <;> decide) h
  · next f _ hf => exact dec_expFits hf h
  · cases h

/-! ### Numbers of a group in the planes (R94, R95, R117) -/

/-- A magnitude below 2^w with its sign. -/
def signedIn (w : Nat) (neg : Bool) (q : Int) : Prop := q.natAbs < 2 ^ w ∧ (if neg then -(q.natAbs : Int) else q.natAbs) = q

theorem signedIn_zero (w : Nat) (neg : Bool) : signedIn w neg 0 := ⟨Nat.two_pow_pos w, by cases neg <;> rfl⟩

theorem signedIn_mag {w : Nat} {neg : Bool} (m : Nat) (h : m < 2 ^ w) : signedIn w neg (if neg then -(m : Int) else m) := by
  cases neg
  · exact ⟨h, rfl⟩
  · exact ⟨by simpa using h, by simp⟩

/-- The magnitudes of a group with the signs of their values; a group with a NaN or an infinity is zero. -/
theorem alignF_qs (w : Nat) (vs : List FVal) : ∃ f : FVal → Int, (alignF w vs).qs = vs.map f ∧ ∀ v ∈ vs, f v = 0 ∨ (v.isBad = false ∧ signedIn w v.sgn (f v)) := by
  unfold alignF
  split
  · exact ⟨fun _ => 0, rfl, fun _ _ => .inl rfl⟩
  · next hbad =>
    split
    · exact ⟨fun _ => 0, rfl, fun _ _ => .inl rfl⟩
    · next e _ =>
      refine ⟨_, rfl, fun v hv => .inr ⟨?_, ?_⟩⟩
      · rw [List.any_eq_true] at hbad
        exact Bool.eq_false_iff.2 fun h => hbad ⟨v, hv, h⟩
      · have hq : min (magAt v (e + 1 - w) : Int) (2 ^ w - 1) = ((min (magAt v (e + 1 - w)) (2 ^ w - 1) : Nat) : Int) := by
          rw [Nat.cast_min, Nat.cast_sub (Nat.one_le_two_pow)]
          norm_num
        dsimp only
        rw [hq]
        exact signedIn_mag _ ((Nat.min_le_right _ _).trans_lt (Nat.sub_lt (Nat.two_pow_pos w) Nat.one_pos))

theorem alignF_exp {w : Nat} {vs : List FVal} (hv : ∀ v ∈ vs, ∀ q, flog2Of v = some q → expFits q) : expFits (alignF w vs).exp := by
  have h0 : expFits 0 := by unfold expFits; decide
  unfold alignF
  split
  · exact h0
  · split
    · exact h0
    · exact emaxOf_expFits hv ‹_›

section

variable {fmt w run g : Nat} {sgn : Bool}

theorem groupOf_float (h : elemIsInt fmt = false) : ∃ q : Nat → Int, (groupOf fmt sgn w run g).qs = (upList (64 * g) 64).map q ∧
    ∀ i ∈ upList (64 * g) 64, signedIn w (elemSign fmt run i) (q i) := by
  obtain ⟨f, hf, hq⟩ := alignF_qs w ((upList (64 * g) 64).map (elemVal fmt run))
  refine ⟨fun i => f (elemVal fmt run i), ?_, fun i hi => ?_⟩
  · rw [groupOf, h]
    exact hf.trans (List.map_map ..)
  · dsimp only
    rcases hq _ (List.mem_map_of_mem hi) with h0 | ⟨hbad, hs⟩
    · rw [h0]
      exact signedIn_zero _ _
    · rwa [elemSign_eq hbad]

theorem groupOf_float_signs (h : elemIsInt fmt = false) : (groupOf fmt sgn w run g).signs = (upList (64 * g) 64).map (elemSign fmt run) := by
  rw [groupOf, h]
  rfl

theorem groupOf_float_exp (h : elemIsInt fmt = false) : expFits (groupOf fmt sgn w run g).exp := by
  rw [groupOf, h]
  refine alignF_exp fun v hv q hq => ?_
  obtain ⟨i, -, rfl⟩ := List.mem_map.1 hv
  exact elemVal_expFits hq

theorem groupOf_int (h : elemIsInt fmt = true) : groupOf fmt sgn w run g =
    { qs := (upList (64 * g) 64).map fun i => clampTo w sgn (elemInt fmt sgn run i), clamped := (groupOf fmt sgn w run g).clamped } := by
  rw [groupOf, h]
  simp only [if_true, List.map_map]
  rfl

end

theorem clampTo_bounds (n : Nat) (sgn : Bool) (x : Int) : (if sgn then -(2 : Int) ^ n else 0) ≤ clampTo (n + 1) sgn x ∧
    clampTo (n + 1) sgn x < if sgn then 2 ^ n else 2 * 2 ^ n := by
  have hpos : (0 : Int) < 2 ^ n := by positivity
  unfold clampTo
  rw [Nat.add_sub_cancel, pow_succ]
  cases sgn
  · simp only [Bool.false_eq_true, if_false]
    omega
  · simp only [if_true]
    omega

/-- The integer that planes hold, in two's complement where signed (R117). -/
def planeInt (w : Nat) (sgn : Bool) (m : Nat) : Int := if sgn && 2 ^ (w - 1) ≤ m then (m : Int) - 2 ^ w else m

/-- A clamped integer comes back from its planes. -/
theorem planeInt_clampTo {w : Nat} (hw : 1 ≤ w) (sgn : Bool) (x : Int) : planeInt w sgn (clampTo w sgn x % 2 ^ w).toNat = clampTo w sgn x := by
  unfold planeInt
  obtain ⟨n, rfl⟩ := Nat.exists_eq_add_of_le' hw
  have hb := clampTo_bounds n sgn x
  generalize clampTo (n + 1) sgn x = c at hb ⊢
  have hcast : ((2 ^ n : Nat) : Int) = 2 ^ n := by norm_num
  have hpos : (0 : Int) < 2 ^ n := by positivity
  rw [Nat.add_sub_cancel, show (2 : Int) ^ (n + 1) = 2 * 2 ^ n by ring]
  generalize (2 : Int) ^ n = P at *
  generalize 2 ^ n = N at *
  rcases lt_or_ge c 0 with hc | hc
  · cases sgn
    · simp only [Bool.false_eq_true, if_false] at hb
      omega
    · simp only [if_true] at hb
      rw [← Int.add_emod_right, Int.emod_eq_of_lt (by omega) (by omega), if_pos]
      · omega
      · simp only [Bool.true_and, decide_eq_true_eq]
        omega
  · have hlt : c < 2 * P := by cases sgn <;> simp at hb <;> omega
    rw [Int.emod_eq_of_lt hc hlt, if_neg]
    · omega
    · cases sgn
      · exact nofun
      · simp only [if_true] at hb
        simp only [Bool.true_and, decide_eq_true_eq]
        omega

end Sys2Proof.Machine
end

