-- ==== Sys2Proof/Proofs/MatrixTiles.lean ====
section
/-! PROOFS. Columns stored by `mx.ldb` and read back by the engine, and the PRECB that goes with them (R116 to R118, R120, R126). -/

namespace Sys2Proof.Machine

open Sys2Proof Sys2Proof.Machine Sys2Proof.Claim

/-! ### A column of a tile as the engine reads it (R116 to R118) -/

/-- A column of a tile holds a group: its planes in the weight store's part `mac`, and of a floating tile its signs and exponent too. -/
def Block.holdsCol (b : Block) (tile : Nat) (t : Tile) (mac c : Nat) (G : Group) : Prop :=
  (∀ k, k < 64 → ∀ j, j < t.wid → planeBit b.planes (mac * 64 + t.pbase + j) k c = (planeVals (elemIsInt t.fmt) t.wid G).getD k 0 / 2 ^ j % 2) ∧
    (elemIsInt t.fmt = false → (∀ k, k < 64 → planeBit b.signs (mac * 8 + tile) k c = (G.signs.map Bool.toNat).getD k 0 / 2 ^ 0 % 2) ∧
      tget {} b.exps (mac * 256 + tile * 32 + c) = { exp := BitVec.ofInt 12 G.exp, nan := G.nan })

theorem map_upList_eq {α : Type} {f h : Nat → α} {lo n : Nat} (hf : ∀ k, k < n → f k = h (lo + k)) : (upList 0 n).map f = (upList lo n).map h := by
  rw [upList_zero_eq_range, upList_eq_range', List.range'_eq_map_range, List.map_map]
  exact List.map_congr_left fun k hk => hf k (List.mem_range.1 hk)

theorem getD_map_upList {α : Type} (f : Nat → α) (d : α) (lo : Nat) {n k : Nat} (hk : k < n) : ((upList lo n).map f).getD k d = f (lo + k) := by
  rw [List.getD_eq_getElem _ _ (by simpa using hk)]
  simp [upList_eq_range']

section

variable {b : Block} {tile mac c : Nat} {t : Tile} {G : Group}

/-- A column's magnitude. -/
def Block.colMag (b : Block) (t : Tile) (mac c k : Nat) : Nat :=
  (upList 0 t.wid).foldl (fun (x : Nat) j => x + planeBit b.planes (mac * 64 + t.pbase + j) k c * 2 ^ j) 0

theorem Block.tileCol_int {n g : Nat} (hi : elemIsInt t.fmt = true) : b.tileCol tile t g n =
    { qs := (upList 0 64).map fun k => planeInt t.wid t.sgn (b.colMag t (n / 32 * t.kg + g) (n % 32) k) } := by
  unfold Block.tileCol
  rw [hi]
  rfl

theorem Block.tileCol_float {n g : Nat} (hi : elemIsInt t.fmt = false) : b.tileCol tile t g n =
    let e := tget {} b.exps ((n / 32 * t.kg + g) * 256 + tile * 32 + n % 32)
    { nan := e.nan, exp := e.exp.toInt,
      qs := (upList 0 64).map fun k => if planeBit b.signs ((n / 32 * t.kg + g) * 8 + tile) k (n % 32) = 1 then -(b.colMag t (n / 32 * t.kg + g) (n % 32) k : Int)
        else b.colMag t (n / 32 * t.kg + g) (n % 32) k } := by
  unfold Block.tileCol
  rw [hi]
  rfl

theorem Block.holdsCol.mag (h : b.holdsCol tile t mac c G) {k : Nat} (hk : k < 64) :
    b.colMag t mac c k = (planeVals (elemIsInt t.fmt) t.wid G).getD k 0 % 2 ^ t.wid := by
  rw [← foldl_bits_mod]
  refine List.foldl_ext _ _ _ fun x j hj => ?_
  rw [h.1 k hk j (by simpa using hj)]

theorem Block.holdsCol.intCol {n g run : Nat} (h : b.holdsCol tile t (n / 32 * t.kg + g) (n % 32) (groupOf t.fmt t.sgn t.wid run g)) (hi : elemIsInt t.fmt = true)
    (hw : 1 ≤ t.wid) : b.tileCol tile t g n = heldGroup (groupOf t.fmt t.sgn t.wid run g) := by
  have hmag : ∀ k, k < 64 → b.colMag t (n / 32 * t.kg + g) (n % 32) k = (clampTo t.wid t.sgn (elemInt t.fmt t.sgn run (64 * g + k)) % 2 ^ t.wid).toNat := by
    intro k hk
    have hlt : (clampTo t.wid t.sgn (elemInt t.fmt t.sgn run (64 * g + k)) % 2 ^ t.wid).toNat < 2 ^ t.wid := by
      have hpos : (0 : Int) < 2 ^ t.wid := by positivity
      rw [Int.toNat_lt (Int.emod_nonneg _ hpos.ne')]
      exact_mod_cast Int.emod_lt_of_pos _ hpos
    rw [h.mag hk, hi, groupOf_int hi, planeVals, List.map_map, getD_map_upList _ _ _ hk]
    exact Nat.mod_eq_of_lt hlt
  have hheld : heldGroup (groupOf t.fmt t.sgn t.wid run g) = { qs := (upList (64 * g) 64).map fun i => clampTo t.wid t.sgn (elemInt t.fmt t.sgn run i) } := by
    rw [groupOf_int hi]
    rfl
  rw [hheld, Block.tileCol_int hi]
  refine congrArg (fun qs => ({ qs := qs } : Group)) (map_upList_eq fun k hk => ?_)
  rw [hmag k hk, planeInt_clampTo hw]

theorem Block.holdsCol.floatCol {n g run : Nat} (h : b.holdsCol tile t (n / 32 * t.kg + g) (n % 32) (groupOf t.fmt t.sgn t.wid run g)) (hi : elemIsInt t.fmt = false) :
    b.tileCol tile t g n = heldGroup (groupOf t.fmt t.sgn t.wid run g) := by
  obtain ⟨q, hq, hs⟩ := groupOf_float (sgn := t.sgn) (w := t.wid) (run := run) (g := g) hi
  have hmem : ∀ k, k < 64 → 64 * g + k ∈ upList (64 * g) 64 := fun k hk => by simpa using hk
  have hmag : ∀ k, k < 64 → b.colMag t (n / 32 * t.kg + g) (n % 32) k = (q (64 * g + k)).natAbs := by
    intro k hk
    rw [h.mag hk, hi, planeVals, hq, List.map_map, getD_map_upList _ _ _ hk]
    exact Nat.mod_eq_of_lt (hs _ (hmem k hk)).1
  obtain ⟨hsign, hexp⟩ := h.2 hi
  have hheld : heldGroup (groupOf t.fmt t.sgn t.wid run g) =
      { nan := (groupOf t.fmt t.sgn t.wid run g).nan, exp := (groupOf t.fmt t.sgn t.wid run g).exp, qs := (upList (64 * g) 64).map q } := by
    rw [← hq]
    rfl
  rw [hheld, Block.tileCol_float hi, hexp]
  dsimp only
  rw [toInt_ofInt_expFits (groupOf_float_exp hi)]
  refine congrArg (fun qs => ({ nan := _, exp := _, qs := qs } : Group)) (map_upList_eq fun k hk => ?_)
  rw [hmag k hk, hsign k hk, groupOf_float_signs hi, List.map_map, getD_map_upList _ _ _ hk, Function.comp_apply]
  refine Eq.trans ?_ (hs _ (hmem k hk)).2
  cases elemSign t.fmt run (64 * g + k) <;> rfl

end

/-! ### One part of the weight store written (R117, R126) -/

/-- The exponent register of a column. -/
def expOf (isInt : Bool) (G : Group) : ExpEntry := if isInt then {} else { exp := BitVec.ofInt 12 G.exp, nan := G.nan }

/-- A block with other planes, signs and exponents. -/
def Block.withTile (b : Block) (planes signs : Mem) (exps : Tbl ExpEntry) : Block := { b with planes := planes, signs := signs, exps := exps }

section

variable (b : Block) (tile : Nat) (isInt : Bool) (wid pbase mac : Nat) (gs : List Group)

theorem Block.storeMacro_planes_read (o : Nat) : (b.storeMacro tile isInt wid pbase mac gs).planes.read o =
    if mac * 64 + pbase ≤ o / 256 ∧ o / 256 < mac * 64 + pbase + wid then
      (planeBytes (gs.map (planeVals isInt wid)) (o / 256 - (mac * 64 + pbase))).getD (o % 256) 0
    else b.planes.read o := by
  have hf : ∀ (m : Mem) (j : Nat), (m.writeBytes ((mac * 64 + pbase + j) * 256) (planeBytes (gs.map (planeVals isInt wid)) j)).read o =
      if o / 256 = mac * 64 + pbase + j then (planeBytes (gs.map (planeVals isInt wid)) j).getD (o % 256) 0 else m.read o :=
    fun m j => mem_read_writePlane m _ (planeBytes_length _ _) o
  by_cases h : mac * 64 + pbase ≤ o / 256 ∧ o / 256 < mac * 64 + pbase + wid
  · rw [if_pos h]
    exact foldl_hit (get := fun m : Mem => m.read o) (hits := fun j => o / 256 = mac * 64 + pbase + j) (a := o / 256 - (mac * 64 + pbase)) hf
      (fun j _ hj => by rw [show o / 256 - (mac * 64 + pbase) = j by omega]) (mem_upList.2 (by omega)) (by omega) _
  · rw [if_neg h]
    exact foldl_unhit (get := fun m : Mem => m.read o) (hits := fun j => o / 256 = mac * 64 + pbase + j) hf
      (fun j hj ho => h (by have := mem_upList.1 hj; omega)) _

theorem Block.storeMacro_signs_read (o : Nat) : (b.storeMacro tile isInt wid pbase mac gs).signs.read o =
    if o / 256 = mac * 8 + tile then (planeBytes (gs.map fun g => g.signs.map Bool.toNat) 0).getD (o % 256) 0 else b.signs.read o := by
  unfold Block.storeMacro
  dsimp only
  rw [mem_read_writePlane b.signs (mac * 8 + tile) (planeBytes_length _ 0) o]

theorem Block.storeMacro_exps_get (k : Nat) : tget {} (b.storeMacro tile isInt wid pbase mac gs).exps k =
    if mac * 256 + tile * 32 ≤ k ∧ k < mac * 256 + tile * 32 + gs.length then expOf isInt (gs.getD (k - (mac * 256 + tile * 32)) {}) else tget {} b.exps k := by
  have hf : ∀ (m : Tbl ExpEntry) (g : Group × Nat), tget {} (tput {} m (mac * 256 + tile * 32 + g.2) (expOf isInt g.1)) k =
      if k = mac * 256 + tile * 32 + g.2 then expOf isInt g.1 else tget {} m k := fun m g => tget_tput _ _ _ _ _
  by_cases h : mac * 256 + tile * 32 ≤ k ∧ k < mac * 256 + tile * 32 + gs.length
  · rw [if_pos h]
    have hlen : k - (mac * 256 + tile * 32) < gs.length := by omega
    refine foldl_hit (get := fun m : Tbl ExpEntry => tget {} m k) (hits := fun g : Group × Nat => k = mac * 256 + tile * 32 + g.2)
      (a := (gs[k - (mac * 256 + tile * 32)], k - (mac * 256 + tile * 32))) hf (fun g hg hk => ?_) ?_ (by dsimp only; omega) _
    · rw [show k - (mac * 256 + tile * 32) = g.2 by omega]
      rw [List.mem_zipIdx_iff_getElem?] at hg
      rw [List.getD_eq_getElem?_getD, hg]
      rfl
    · rw [List.mk_mem_zipIdx_iff_getElem?, List.getElem?_eq_getElem hlen]
  · rw [if_neg h]
    refine foldl_unhit (get := fun m : Tbl ExpEntry => tget {} m k) (hits := fun g : Group × Nat => k = mac * 256 + tile * 32 + g.2) hf (fun g hg hk => h ?_) _
    have := List.snd_lt_of_mem_zipIdx hg
    omega

end

/-! ### All parts of a tile written -/

/-- The parts of a tile, one after the other. -/
def Block.storeMacros (b : Block) (tile : Nat) (t : Tile) (groups : List (Nat × List Group)) : Block :=
  groups.foldl (fun b p => b.storeMacro tile (elemIsInt t.fmt) t.wid t.pbase p.1 p.2) b

section

variable {b : Block} {tile : Nat} {t : Tile} {groups : List (Nat × List Group)}

theorem Block.storeMacros_withTile : ∃ pl sg ex, b.storeMacros tile t groups = b.withTile pl sg ex := by
  refine foldl_keeps (P := fun c : Block => ∃ pl sg ex, c = b.withTile pl sg ex) (fun c p hc => ?_) groups b ⟨_, _, _, rfl⟩
  obtain ⟨pl, sg, ex, rfl⟩ := hc
  exact ⟨_, _, _, rfl⟩

theorem Block.storeMacros_planes_unhit {o : Nat} (h : ∀ p ∈ groups, ¬ (p.1 * 64 + t.pbase ≤ o / 256 ∧ o / 256 < p.1 * 64 + t.pbase + t.wid)) :
    (b.storeMacros tile t groups).planes.read o = b.planes.read o :=
  foldl_unhit (get := fun b : Block => b.planes.read o) (fun b p => b.storeMacro_planes_read tile (elemIsInt t.fmt) t.wid t.pbase p.1 p.2 o) h b

theorem Block.storeMacros_signs_unhit {o : Nat} (h : ∀ p ∈ groups, o / 256 ≠ p.1 * 8 + tile) :
    (b.storeMacros tile t groups).signs.read o = b.signs.read o :=
  foldl_unhit (get := fun b : Block => b.signs.read o) (fun b p => b.storeMacro_signs_read tile (elemIsInt t.fmt) t.wid t.pbase p.1 p.2 o) h b

theorem Block.storeMacros_exps_unhit {k : Nat} (h : ∀ p ∈ groups, ¬ (p.1 * 256 + tile * 32 ≤ k ∧ k < p.1 * 256 + tile * 32 + p.2.length)) :
    tget {} (b.storeMacros tile t groups).exps k = tget {} b.exps k :=
  foldl_unhit (get := fun b : Block => tget {} b.exps k) (fun b p => b.storeMacro_exps_get tile (elemIsInt t.fmt) t.wid t.pbase p.1 p.2 k) h b

/-- Each column that was stored holds its group. -/
theorem Block.storeMacros_holdsCol {mac c : Nat} {gs : List Group} (hw : t.pbase + t.wid ≤ 64) (hlen : ∀ p ∈ groups, p.2.length = 32)
    (hmem : (mac, gs) ∈ groups) (huniq : ∀ p ∈ groups, p.1 = mac → p.2 = gs) (hc : c < 32) :
    (b.storeMacros tile t groups).holdsCol tile t mac c (gs.getD c {}) := by
  have hgs : c < gs.length := by rw [hlen _ hmem]; exact hc
  have hcol : ∀ {f : Group → List Nat}, (gs.map f).getD c [] = f (gs.getD c {}) := fun {f} => by
    rw [List.getD_eq_getElem _ _ (by simpa using hgs), List.getElem_map, List.getD_eq_getElem _ _ hgs]
  refine ⟨fun k hk j hj => ?_, fun hi => ⟨fun k hk => ?_, ?_⟩⟩
  · rw [← hcol (f := planeVals (elemIsInt t.fmt) t.wid)]
    refine planeBit_of_bytes hk hc fun o ho => ?_
    refine foldl_hit (get := fun b : Block => b.planes.read o) (fun b p => b.storeMacro_planes_read tile (elemIsInt t.fmt) t.wid t.pbase p.1 p.2 o) ?_ hmem (by dsimp only; omega) b
    intro p hp hit
    have hmac : p.1 = mac := by omega
    rw [huniq p hp hmac, hmac, show o / 256 - (mac * 64 + t.pbase) = j by omega]
  · rw [← hcol (f := fun g => g.signs.map Bool.toNat)]
    refine planeBit_of_bytes hk hc fun o ho => ?_
    refine foldl_hit (get := fun b : Block => b.signs.read o) (fun b p => b.storeMacro_signs_read tile (elemIsInt t.fmt) t.wid t.pbase p.1 p.2 o) ?_ hmem (by dsimp only; omega) b
    intro p hp hit
    rw [huniq p hp (by omega)]
  · refine foldl_hit (get := fun b : Block => tget {} b.exps (mac * 256 + tile * 32 + c))
      (fun b p => b.storeMacro_exps_get tile (elemIsInt t.fmt) t.wid t.pbase p.1 p.2 (mac * 256 + tile * 32 + c)) ?_ hmem (by rw [hlen _ hmem]; dsimp only; omega) b
    intro p hp hit
    rw [hlen p hp] at hit
    have hmac : p.1 = mac := by omega
    rw [huniq p hp hmac, hmac, Nat.add_sub_cancel_left, expOf, hi]
    rfl

end

variable {s : State} {b : Block} {x : MxEntry} {r : List MxEntry} {core : Nat}

/-! ### The PRECB that `mx.ldb` leaves (R120, R126) -/

theorem MxEntry.o_lt (x : MxEntry) (k : Nat) : x.o k < 2 ^ 32 := BitVec.isLt _

theorem MxEntry.f_lt (x : MxEntry) (k hi lo : Nat) : x.f k hi lo < 2 ^ (hi + 1 - lo) := Nat.mod_lt _ (Nat.two_pow_pos _)

/-- The fields of a PRECB's number below its XF. -/
theorem precb_fields {a d e w p k n : Nat} (hd : d < 2 ^ 1) (he : e < 2 ^ 4) (hw : w < 2 ^ 7) (hp : p < 2 ^ 6) (hk : k < 2 ^ 3) (hn : n < 2 ^ 3) {q : Nat}
    (hq : q = a * 2 ^ 29 + d * 2 ^ 28 + e * 2 ^ 24 + w * 2 ^ 16 + p * 2 ^ 10 + k * 2 ^ 7 + n * 2 ^ 4) :
    q / 2 ^ 28 % 2 ^ 1 = d ∧ q / 2 ^ 24 % 2 ^ 4 = e ∧ q / 2 ^ 16 % 2 ^ 7 = w ∧ q / 2 ^ 10 % 2 ^ 6 = p ∧ q / 2 ^ 7 % 2 ^ 3 = k ∧ q / 2 ^ 4 % 2 ^ 3 = n := by
  refine ⟨?_, ?_, ?_, ?_, ?_, ?_⟩ <;> omega

/-- The tile of an `mx.ldb` has the fields of its operand words. -/
structure MxEntry.tileFields (x : MxEntry) (t : Tile) : Prop where
  sgn : t.sgn = (x.f 0 4 4 == 1)
  fmt : t.fmt = x.f 0 3 0
  wid : t.wid = x.f 0 11 5
  pbase : t.pbase = x.f 0 17 12
  kg : t.kg = 2 ^ x.f 0 23 21
  ng : t.ng = 2 ^ x.f 0 26 24

theorem tileOf_precbOf (x : MxEntry) : x.tileFields (tileOf (precbOf x)) := by
  have hq : (precbOf x).toNat = (x.o 5 * 2 ^ 67 + x.o 4 * 2 ^ 35 + 4 + x.f 3 1 0) * 2 ^ 29 + x.f 0 4 4 * 2 ^ 28 + x.f 0 3 0 * 2 ^ 24 + x.f 0 11 5 * 2 ^ 16
      + x.f 0 17 12 * 2 ^ 10 + x.f 0 23 21 * 2 ^ 7 + x.f 0 26 24 * 2 ^ 4 := by
    have h5 := x.o_lt 5
    have h4 := x.o_lt 4
    have hxf := x.f_lt 3 1 0
    have hsgn := x.f_lt 0 4 4
    have hfmt := x.f_lt 0 3 0
    have hwid := x.f_lt 0 11 5
    have hpb := x.f_lt 0 17 12
    have hkg := x.f_lt 0 23 21
    have hng := x.f_lt 0 26 24
    rw [precbOf, BitVec.toNat_ofNat, Nat.mod_eq_of_lt (by omega)]
    omega
  obtain ⟨hsgn, hfmt, hwid, hpb, hkg, hng⟩ := precb_fields (x.f_lt 0 4 4) (x.f_lt 0 3 0) (x.f_lt 0 11 5) (x.f_lt 0 17 12) (x.f_lt 0 23 21) (x.f_lt 0 26 24) hq
  exact ⟨congrArg (· == 1) hsgn, hfmt, hwid, hpb, congrArg (2 ^ ·) hkg, congrArg (2 ^ ·) hng⟩

/-! ### The tile that `mx.ldb` loads (R126) -/

/-- Column `j` of B, its k-group `g`. -/
def Block.ldbGroup (b : Block) (x : MxEntry) (t : Tile) (g j : Nat) : Group :=
  groupOf (x.f 0 3 0) t.sgn t.wid (leNat (b.spad.readBytes (x.o 1 + j * x.o 2) (runBytes (x.f 0 3 0) (64 * t.kg)))) g

/-- The columns of B, 32 to a part of the weight store. -/
def Block.ldbGroups (b : Block) (x : MxEntry) (t : Tile) : List (Nat × List Group) :=
  (upList 0 t.ng).flatMap fun nb => (upList 0 t.kg).map fun g => (nb * t.kg + g, (upList (32 * nb) 32).map fun j => b.ldbGroup x t g j)

/-- PRECB `u` where tile `tile` is loaded. -/
def precbAfter (tile : Nat) (t : Tile) (u : Nat) (q : QWord) : QWord :=
  if u ≠ tile ∧ (tileOf q).pbase < t.pbase + t.wid ∧ t.pbase < (tileOf q).pbase + (tileOf q).wid then q &&& ~~~ 0x80000000#128 else q

/-- The PRECBs where tile `tile` is loaded. -/
def precbStep (tile : Nat) (t : Tile) (m : Tbl QWord) (u : Nat) : Tbl QWord :=
  if u ≠ tile ∧ (tileOf (tget 0 m u)).pbase < t.pbase + t.wid ∧ t.pbase < (tileOf (tget 0 m u)).pbase + (tileOf (tget 0 m u)).wid then
    tput 0 m u (tget 0 m u &&& ~~~ 0x80000000#128) else m

/-- A block that counts a clamp and has other PRECBs. -/
def Block.withPrecb (b : Block) (clamped : Bool) (precb : Tbl QWord) : Block := { b with wovf := b.wovf || clamped, precb := precb }

theorem Block.loadTile_eq {t : Tile} (ht : x.tileFields t) : b.loadTile x =
    (b.storeMacros (x.f 0 20 18) t (b.ldbGroups x t)).withPrecb ((b.ldbGroups x t).any fun p => p.2.any (·.clamped))
      (tput 0 ((upList 0 8).foldl (precbStep (x.f 0 20 18) t) (b.storeMacros (x.f 0 20 18) t (b.ldbGroups x t)).precb) (x.f 0 20 18) (precbOf x)) := by
  unfold Block.storeMacros Block.ldbGroups Block.ldbGroup precbStep
  rw [ht.sgn, ht.fmt, ht.wid, ht.pbase, ht.kg, ht.ng]
  rfl

section

variable (b : Block) (cl : Bool) (pr : Tbl QWord)

theorem Block.withPrecb_planes : (b.withPrecb cl pr).planes = b.planes := rfl
theorem Block.withPrecb_signs : (b.withPrecb cl pr).signs = b.signs := rfl
theorem Block.withPrecb_exps : (b.withPrecb cl pr).exps = b.exps := rfl
theorem Block.withPrecb_precb : (b.withPrecb cl pr).precb = pr := rfl
theorem Block.withPrecb_wovf : (b.withPrecb cl pr).wovf = (b.wovf || cl) := rfl
theorem Block.withPrecb_tileCol (tile : Nat) (t : Tile) (g n : Nat) : (b.withPrecb cl pr).tileCol tile t g n = b.tileCol tile t g n := rfl

end

theorem Block.storeMacros_precb (b : Block) (tile : Nat) (t : Tile) (groups : List (Nat × List Group)) : (b.storeMacros tile t groups).precb = b.precb := by
  obtain ⟨pl, sg, ex, hm⟩ := Block.storeMacros_withTile (b := b) (tile := tile) (t := t) (groups := groups)
  rw [hm]
  rfl

theorem Block.storeMacros_wovf (b : Block) (tile : Nat) (t : Tile) (groups : List (Nat × List Group)) : (b.storeMacros tile t groups).wovf = b.wovf := by
  obtain ⟨pl, sg, ex, hm⟩ := Block.storeMacros_withTile (b := b) (tile := tile) (t := t) (groups := groups)
  rw [hm]
  rfl

theorem Block.loadTile_frame (b : Block) (x : MxEntry) : ∃ pl sg ex cl pr, b.loadTile x = (b.withTile pl sg ex).withPrecb cl pr := by
  obtain ⟨pl, sg, ex, hm⟩ := Block.storeMacros_withTile (b := b) (tile := x.f 0 20 18) (t := tileOf (precbOf x)) (groups := b.ldbGroups x (tileOf (precbOf x)))
  rw [Block.loadTile_eq (tileOf_precbOf x), hm]
  exact ⟨pl, sg, ex, _, _, rfl⟩

theorem tget_precbStep (tile : Nat) (t : Tile) (m : Tbl QWord) (u k : Nat) :
    tget 0 (precbStep tile t m u) k = if k = u then precbAfter tile t u (tget 0 m u) else tget 0 m k := by
  unfold precbStep precbAfter
  split
  · exact tget_tput _ _ _ _ _
  · split
    · next h => rw [h]
    · rfl

theorem tget_foldl_precbStep (tile : Nat) (t : Tile) (m : Tbl QWord) {n k : Nat} :
    tget 0 ((List.range n).foldl (precbStep tile t) m) k = if k < n then precbAfter tile t k (tget 0 m k) else tget 0 m k := by
  induction n generalizing k with
  | zero => rfl
  | succ n ih =>
    rw [List.range_succ, List.foldl_append, List.foldl_cons, List.foldl_nil, tget_precbStep]
    by_cases hk : k = n
    · subst hk
      rw [if_pos rfl, ih, if_neg (Nat.lt_irrefl k), if_pos k.lt_succ_self]
    · rw [if_neg hk, ih]
      simp only [show k < n + 1 ↔ k < n by omega]

theorem Block.mem_ldbGroups {t : Tile} {p : Nat × List Group} :
    p ∈ b.ldbGroups x t ↔ ∃ nb g, nb < t.ng ∧ g < t.kg ∧ p = (nb * t.kg + g, (upList (32 * nb) 32).map fun j => b.ldbGroup x t g j) := by
  simp only [Block.ldbGroups, List.mem_flatMap, List.mem_map, mem_upList, Nat.zero_le, Nat.zero_add, true_and]
  exact ⟨fun ⟨nb, hnb, g, hg, h⟩ => ⟨nb, g, hnb, hg, h.symm⟩, fun ⟨nb, g, hnb, hg, h⟩ => ⟨nb, hnb, g, hg, h.symm⟩⟩

theorem Block.mxCheck_legal (h : b.mxCheck x = none) : x.illegal = false := by
  unfold Block.mxCheck at h
  split at h
  · cases h
  · split at h
    · cases h
    · next hi => exact (Bool.or_eq_false_iff.1 (Bool.eq_false_iff.2 hi)).1

/-- The tile of an `mx.ldb` that passes its check lies within the planes. -/
theorem Block.mxCheck_ldb {t : Tile} (hx : x.cmd = .ldb) (h : b.mxCheck x = none) (ht : x.tileFields t) : 1 ≤ t.wid ∧ t.pbase + t.wid ≤ 64 := by
  have hi := Block.mxCheck_legal h
  rw [MxEntry.illegal, hx] at hi
  simp only [Bool.or_eq_false_iff, beq_eq_false_iff_ne, decide_eq_false_iff_not, ← ht.wid, ← ht.pbase] at hi
  omega

section

variable {t : Tile}

theorem Block.ldbGroups_lt {p : Nat × List Group} (hp : p ∈ b.ldbGroups x t) : p.1 < t.kg * t.ng ∧ p.2.length = 32 := by
  obtain ⟨nb, g, hnb, hg, rfl⟩ := Block.mem_ldbGroups.1 hp
  have := Nat.mul_le_mul_right t.kg (Nat.succ_le_of_lt hnb)
  rw [Nat.succ_mul] at this
  exact ⟨by rw [Nat.mul_comm t.kg]; dsimp only; omega, by simp⟩

/-- A part of the weight store is written once. -/
theorem Block.ldbGroups_snd {p : Nat × List Group} {nb g : Nat} (hp : p ∈ b.ldbGroups x t) (hg : g < t.kg) (he : p.1 = nb * t.kg + g) :
    p.2 = (upList (32 * nb) 32).map fun j => b.ldbGroup x t g j := by
  obtain ⟨nb', g', -, hg', rfl⟩ := Block.mem_ldbGroups.1 hp
  obtain ⟨rfl, rfl⟩ := mul_add_inj hg' hg he
  rfl

/-- A column of the loaded tile holds its group. -/
theorem Block.ldb_tileCol {g j : Nat} (ht : x.tileFields t) (hw : 1 ≤ t.wid ∧ t.pbase + t.wid ≤ 64) (hg : g < t.kg) (hj : j < 32 * t.ng) :
    (b.storeMacros (x.f 0 20 18) t (b.ldbGroups x t)).tileCol (x.f 0 20 18) t g j = heldGroup (b.ldbGroup x t g j) := by
  have hcol := Block.storeMacros_holdsCol (b := b) (tile := x.f 0 20 18) (groups := b.ldbGroups x t) (c := j % 32) hw.2 (fun p hp => (Block.ldbGroups_lt hp).2)
    (Block.mem_ldbGroups.2 ⟨j / 32, g, by omega, hg, rfl⟩) (fun p hp he => Block.ldbGroups_snd hp hg he) (Nat.mod_lt j (by decide))
  rw [getD_map_upList _ _ _ (Nat.mod_lt j (by decide)), Nat.div_add_mod] at hcol
  unfold Block.ldbGroup at hcol ⊢
  rw [← ht.fmt] at hcol ⊢
  cases hi : elemIsInt t.fmt
  · exact hcol.floatCol hi
  · exact hcol.intCol hi hw.1

theorem Block.ldb_clamped : ((b.ldbGroups x t).any fun p => p.2.any (·.clamped)) = true ↔
    ∃ g j, g < t.kg ∧ j < 32 * t.ng ∧ (b.ldbGroup x t g j).clamped = true := by
  simp only [List.any_eq_true, Block.mem_ldbGroups]
  constructor
  · rintro ⟨_, ⟨nb, g, hnb, hg, rfl⟩, G, hG, hc⟩
    obtain ⟨j, hj, rfl⟩ := List.mem_map.1 hG
    exact ⟨g, j, hg, by have := mem_upList.1 hj; omega, hc⟩
  · rintro ⟨g, j, hg, hj, hc⟩
    exact ⟨_, ⟨j / 32, g, by omega, hg, rfl⟩, _, List.mem_map_of_mem (mem_upList.2 (by omega)), hc⟩

theorem Block.ldb_planes_frame {o tile : Nat} (h : ∀ m p, m < t.kg * t.ng → t.pbase ≤ p → p < t.pbase + t.wid → o / 256 ≠ m * 64 + p) :
    (b.storeMacros tile t (b.ldbGroups x t)).planes.read o = b.planes.read o :=
  Block.storeMacros_planes_unhit fun p hp hit => h p.1 (o / 256 - p.1 * 64) (Block.ldbGroups_lt hp).1 (by omega) (by omega) (by omega)

theorem Block.ldb_signs_frame {o tile : Nat} (h : ∀ m, m < t.kg * t.ng → o / 256 ≠ m * 8 + tile) :
    (b.storeMacros tile t (b.ldbGroups x t)).signs.read o = b.signs.read o :=
  Block.storeMacros_signs_unhit fun p hp => h p.1 (Block.ldbGroups_lt hp).1

theorem Block.ldb_exps_frame {k tile : Nat} (h : ∀ m c, m < t.kg * t.ng → c < 32 → k ≠ m * 256 + tile * 32 + c) :
    tget {} (b.storeMacros tile t (b.ldbGroups x t)).exps k = tget {} b.exps k :=
  Block.storeMacros_exps_unhit fun p hp hit =>
    h p.1 (k - (p.1 * 256 + tile * 32)) (Block.ldbGroups_lt hp).1 (by have := (Block.ldbGroups_lt hp).2; omega) (by omega)

/-- The PRECBs after `mx.ldb` (R126). -/
theorem Block.loadTile_precb {u : Nat} (ht : x.tileFields t) (hu : u < 8) :
    tget 0 (b.loadTile x).precb u = if u = x.f 0 20 18 then precbOf x else precbAfter (x.f 0 20 18) t u (tget 0 b.precb u) := by
  rw [Block.loadTile_eq ht, Block.withPrecb_precb, tget_tput, Block.storeMacros_precb, upList_zero_eq_range, tget_foldl_precbStep, if_pos hu]

theorem Block.loadTile_wovf (ht : x.tileFields t) :
    (b.loadTile x).wovf = true ↔ b.wovf = true ∨ ∃ g j, g < t.kg ∧ j < 32 * t.ng ∧ (b.ldbGroup x t g j).clamped = true := by
  rw [Block.loadTile_eq ht, Block.withPrecb_wovf, Block.storeMacros_wovf, Bool.or_eq_true, Block.ldb_clamped]

theorem Block.loadTile_planes (ht : x.tileFields t) : (b.loadTile x).planes = (b.storeMacros (x.f 0 20 18) t (b.ldbGroups x t)).planes := by
  rw [Block.loadTile_eq ht, Block.withPrecb_planes]

theorem Block.loadTile_signs (ht : x.tileFields t) : (b.loadTile x).signs = (b.storeMacros (x.f 0 20 18) t (b.ldbGroups x t)).signs := by
  rw [Block.loadTile_eq ht, Block.withPrecb_signs]

theorem Block.loadTile_exps (ht : x.tileFields t) : (b.loadTile x).exps = (b.storeMacros (x.f 0 20 18) t (b.ldbGroups x t)).exps := by
  rw [Block.loadTile_eq ht, Block.withPrecb_exps]

theorem Block.loadTile_tileCol {g j : Nat} (ht : x.tileFields t) (hw : 1 ≤ t.wid ∧ t.pbase + t.wid ≤ 64) (hg : g < t.kg) (hj : j < 32 * t.ng) :
    (b.loadTile x).tileCol (x.f 0 20 18) t g j = heldGroup (b.ldbGroup x t g j) := by
  rw [← Block.ldb_tileCol ht hw hg hj, Block.loadTile_eq ht, Block.withPrecb_tileCol]

end

end Sys2Proof.Machine
end

