-- ==== Sys2Proof/Proofs/MatrixCommandEvents.lean ====
section
/-! PROOFS. O43: the five matrix commands on their own state of the block. -/

namespace Sys2Proof.Machine

open Sys2Proof Sys2Proof.Machine Sys2Proof.Claim

theorem exec_mxLdb {s : State} {b : Block} {x : MxEntry} {r : List MxEntry} {core : Nat} (h : headCommand s core .ldb b x r)
    (hp : ¬ enginesStop s b.key ∨ (x.started = true ∧ MxCmd.ldb ≠ .mm)) (he : b.mxCheck x = none) (hl : b.spadPoison = []) :
    Completes (.mxLdbCommand core) s fun t => t.getBlk b.key = some ((b.setHead x.over).loadTile x) := by
  have hlost : ((upList 0 (32 * 2 ^ x.f 0 26 24)).findSome? fun n => b.spadLost (x.o 1 + n * x.o 2) (runBytes (x.f 0 3 0) (64 * 2 ^ x.f 0 23 21))) = none := by
    simp [Block.spadLost_none hl]
  have hkey : ((b.setHead x.over).loadTile x).key = b.key := by
    obtain ⟨pl, sg, ex, cl, pr, hy⟩ := Block.loadTile_frame (b.setHead x.over) x
    rw [hy]
    rfl
  refine ⟨_, congrArg Host.Outcome.next (State.mxRun_works h hp he), ?_⟩
  dsimp only
  split
  case h_1 e hlost' => exact nomatch hlost'.symm.trans hlost
  case h_2 =>
    rw [← hkey]
    exact State.getBlk_setBlk_same s ((b.setHead x.over).loadTile x)

/-- Settles O43: each command runs to its end or, `mx.mm`, through its row, on the block alone; the bytes that it writes are those of its elements, since these do not overlap, and a column that `mx.ldb` stores reads back as its group bit by bit. -/
theorem matrixCommandEvents : Obligations.MatrixCommandEvents := by
  unfold Obligations.MatrixCommandEvents
  intro core s b x r hw ends
  refine ⟨fun hc hf hn hp hs => ?_, fun c e h hp he => ?_, fun hp => ⟨fun h he => ?_, fun h he => ?_, fun h he hl => ?_, fun h he hl _ => ?_⟩,
    fun hc hf hx hn hp hk hl hi => ?_⟩
  · have hrun : ∀ f, s.mxRun core x.cmd f = s := fun f => State.mxRun_stopped hc hf hn hp hs
    cases hx : x.cmd <;> rw [hx] at hrun <;> exact congrArg Host.Outcome.next (hrun _)
  · have hrun : ∀ f, s.mxRun core c f = s.setBlk (b.failHead x e) := fun f => State.mxRun_fails h hp he
    rw [Block.failHead, Block.setHead_eq (headCommand_fifo h)] at hrun
    cases c <;> exact congrArg Host.Outcome.next (hrun _)
  · rw [headCommand_cmd h] at hp
    exact ⟨_, exec_mxPrec h hp he, _, ⟨_, rfl, rfl, State.getBlk_setBlk_same s { b with mxFifo := x.over :: r, mxp := x.ops.getD 0 0 }⟩, rfl⟩
  · rw [headCommand_cmd h] at hp
    obtain ⟨t, ht, hb⟩ := exec_mxZero hw h hp he
    exact ⟨t, ht, b.zeroed x r, ⟨_, rfl, rfl, hb⟩, rfl, fun o => Block.zeroed_acc_read o⟩
  · rw [headCommand_cmd h] at hp
    obtain ⟨t, ht, hb⟩ := exec_mxLdb h hp he hl
    have htile := tileOf_precbOf x
    obtain ⟨pl, sg, ex, cl, pr, hy⟩ := Block.loadTile_frame (b.setHead x.over) x
    refine ⟨t, ht, (b.setHead x.over).loadTile x, ⟨x.over, ?_, rfl, hb⟩, ?_, fun u hu => ?_, fun g j hg hj => ?_, ?_, fun o ho => ?_, fun o ho => ?_, fun k hk => ?_⟩
    · rw [hy]
      exact Block.setHead_mxFifo (headCommand_fifo h) _
    · rw [hy]
      rfl
    · rw [Block.loadTile_precb htile hu]
      by_cases hut : u = x.f 0 20 18
      · rw [if_pos hut, if_pos hut]
      · rw [if_neg hut, if_neg hut]
        exact if_congr (and_iff_right hut) rfl rfl
    · exact Block.loadTile_tileCol htile (Block.mxCheck_ldb (headCommand_cmd h) he htile) hg hj
    · exact Block.loadTile_wovf htile
    · rw [Block.loadTile_planes htile]
      exact Block.ldb_planes_frame ho
    · rw [Block.loadTile_signs htile]
      exact Block.ldb_signs_frame ho
    · rw [Block.loadTile_exps htile]
      exact Block.ldb_exps_frame hk
  · rw [headCommand_cmd h] at hp
    obtain ⟨t, ht, p, q, hb⟩ := exec_mxSt hw h hp he hl
    refine ⟨t, ht, _, ⟨_, rfl, rfl, hb⟩, rfl, ?_, fun hd i j hi hj => Block.stWrites_read b.spad hd hi hj, fun o ho => Block.stWrites_read_ne b.spad ho⟩
    exact (Bool.or_eq_true _ _).to_iff.trans (or_congr_right Block.stCells_any)
  · obtain ⟨t, ht, y, hy, hb⟩ := exec_mxMm hw hc hf hx hn hp hk hl hi
    have hacc := fun j hj => (b.mmRow_acc x b.mxprog (j := j) hj).trans (b.mmElem_mod x b.mxprog j _)
    have hframe := fun o ho => b.mmRow_acc_frame x b.mxprog (o := o) ho
    have hwovf := b.mmRow_wovf x b.mxprog
    obtain ⟨a, w, hrow⟩ : ∃ a w, (b.mmRow x b.mxprog).1 = { b with acc := a, wovf := w } := ⟨_, _, b.mmRow_eq x b.mxprog⟩
    rw [hrow] at hb hwovf
    simp only [hrow] at hacc hframe
    by_cases hlast : b.mxprog + 1 < x.f 0 17 6
    · rw [if_pos hlast] at hb
      exact ⟨t, ht, _, y, hb, rfl, fun _ => ⟨rfl, hy⟩, fun h => absurd hlast h, rfl, hwovf, hacc, hframe⟩
    · rw [if_neg hlast] at hb
      exact ⟨t, ht, _, _, hb, rfl, fun h => absurd h hlast, fun _ => ⟨rfl, congrArg (fun z : MxEntry => { z with finished := true }) hy⟩, rfl, hwovf, hacc, hframe⟩

end Sys2Proof.Machine
end
